-- ==== Sys2Proof/Word.lean ====
section
/-! DEFINITION. Word types of the AS2 module: the bytes and words that the manual reads as bits. -/

namespace Sys2Proof

/-- One byte of memory, of a message or of a record (R6). -/
abbrev Byte := BitVec 8

/-- One 32-bit management register or Reins counter (R276, R455). -/
abbrev Word := BitVec 32

/-- The bits of one FP32 value (R28, code 0xD). -/
abbrev F32 := BitVec 32

/-- One stored scratchpad word of 267 bits: data, poison and check bits (R131). -/
abbrev StoredWord := BitVec 267

end Sys2Proof
end

