-- ==== Sys2Proof/Syntax.lean ====
section
/-! DEFINITION. The commands of the module: one constructor of `Instr` for each row of
spec/opcode_table.json, with its operands. The first operand `t` of every command is the Module Time (MT, R7)
of the happening, in ticks. Operands that are not part of a message are what the module's surroundings supply:
a physical outcome (a decode result, a test result, a measured figure) or the name of the part concerned. -/

namespace Sys2Proof

/-- A received IMP message (R314, R315): the header fields, the body bytes and the 16-byte tag. `typ` is the
TYPE byte; a datagram whose TYPE is not that of the command's row fails check 6 of R317. -/
structure Datagram where
  version : Nat
  typ : Nat
  enc : Bool
  repeatBit : Bool
  response : Bool
  peer : Bool
  reserved : Nat
  session : Nat
  gen : Nat
  seq : Nat
  low : Nat
  mt : Nat
  xmit : Nat
  body : List Byte
  tag : List Byte
deriving DecidableEq, Repr

/-- The link a message belongs to: the host port, or peer port n (R349). -/
inductive Link where
  | host
  | peer (port : Nat)
deriving DecidableEq, Repr

/-- Names one descriptor of a unit in flight: WU_ID, descriptor index and loop ticket (R163, R200). -/
structure DescRef where
  wu : Nat
  idx : Nat
  ticket : Nat
deriving DecidableEq, Repr

/-- A received Ethernet frame as R305 and R346 judge it: its length, whether its check sequence is good, its
destination and its tag. `dst`: 0 own unicast address, 1 broadcast, 2 PTP multicast, 3 another address. -/
structure FrameInfo where
  len : Nat
  fcsGood : Bool
  dst : Nat
  vlan : Option Nat
  etherType : Nat
  pause : Bool
deriving DecidableEq, Repr

/-- One field or manufacturing repair of a scratchpad bank row (R161). -/
structure RepairEntry where
  cluster : Nat
  bank : Nat
  row : Nat
  field : Bool
deriving DecidableEq, Repr

/-- The configuration flash as manufacture or Lestoust service leaves it (R370): the two slots, the PUF helper
data, the certificate bundle, the firmware image, the repair table and the retirement list. Byte lists are
(offset, byte) cells in rising order; an unlisted byte is 0. -/
structure FlashImage where
  slotA : List Host.Cell
  slotB : List Host.Cell
  helper : List Byte
  certs : List Byte
  image : List Byte
  repair : List RepairEntry
  retired : List Nat
deriving DecidableEq, Repr

/-- What the start sequence meets (R379, R380): the supply in millivolts, the flash when service rewrote it, the PUF's
power-up contents, whether X and the compute dies start, and every resource that fails training or Primrose: clusters by
physical number, die-link lanes by link pair and UCIe module, peer lanes by port and lane, bank rows by cluster, bank and row.
`peerPattern` lists the ports whose partner returns the identification pattern, `stepPower` the power of each step measured in
Primrose in W, `temps` the temperatures of the nine dies of R465 and then of the 20 stacks. -/
structure StartInputs where
  supplyMv : Nat
  flash : Option FlashImage
  puf : List Byte
  diesStart : Bool
  failClusters : List Nat
  failDieSup : List Nat
  failModSup : Bool
  failPlanes : List Nat
  failDieLanes : List (Nat × Nat)
  failPeerLanes : List (Nat × Nat)
  failHostPaths : List Nat
  failStacks : List Nat
  badRows : List (Nat × Nat × Nat)
  peerPattern : List Nat
  stepPower : List Nat
  temps : List Nat
deriving DecidableEq, Repr

/-- Outcome of one HBM granule decode (R249). -/
inductive Decode64 where
  | clean
  | corrected (symbols : Nat)
  | uncorrectable
deriving DecidableEq, Repr

/-- An access that one scratchpad slot carries (R130, R137): which words of a row or a column, which bytes of
each enabled word, and the data and poison of a write. -/
structure SlotAccess where
  column : Bool
  plane : Nat
  line : Nat
  write : Bool
  words : List Nat
  byteMask : List Nat
  data : List (List Byte)
  poison : List Bool
deriving DecidableEq, Repr

/-- Bits of stored words found flipped since the last access (an upset of the surroundings): physical word number
and bit position of the 267 stored bits (R131). -/
abbrev Upset := Nat × Nat

/-- Where a multicast region came from (R242): an HBM virtual range, or a scratchpad. -/
inductive Origin where
  | hbm (job : Nat) (va : Nat)
  | spad (l : Nat) (off : Nat)
deriving DecidableEq, Repr

/-- Why a cluster leaves GATED, ASLEEP or OFF (R385). -/
inductive WakeCause where
  | wake
  | ticket
  | scrub
  | visit
deriving DecidableEq, Repr

/-- Outcome of a Yarrow visit (R423, R424). -/
inductive VisitResult where
  | passed
  | failed
  | interrupted
deriving DecidableEq, Repr

/-- A PLL that can lose lock (R384, R403). -/
inductive Pll where
  | group (g : Nat)
  | noc (die : Nat)
  | hbm (stack : Nat)
  | hostPath (path : Nat)
  | peerPort (port : Nat)
deriving DecidableEq, Repr

/-- A duplicated unit of X (R421). -/
inductive XUnit where
  | dispatcher
  | tileWalker
  | transport
  | crypto
deriving DecidableEq, Repr

/-- A voting set of supervisor cores (R367). -/
inductive VoteSet where
  | module
  | die (d : Nat)
deriving DecidableEq, Repr

/-- Who sent, or should have sent, a heartbeat (R286). -/
inductive Beater where
  | cluster (p : Nat)
  | dieSup (d : Nat)
deriving DecidableEq, Repr

/-- How a plane copy was bad (R270). -/
inductive PlaneFault where
  | crc
  | differs
  | late
deriving DecidableEq, Repr

/-- Why a port declares a peer link lost (R348). -/
inductive PeerLoss where
  | laneNoSpare
  | allLanes
  | silent
  | sessionClosed
deriving DecidableEq, Repr

/-- The peer body of a peer MEM_WRITE (R357). -/
structure PeerBody where
  pkind : Nat
  hops : Nat
  window : Nat
  srcRank : Nat
  dstRank : Nat
  treeLo : Nat
  treeHi : Nat
  gen : Nat
  pseq : Nat
  offset : Nat
  len : Nat
  poison : List Nat
  data : List Byte
deriving DecidableEq, Repr

/-- What a session on the sealed service connector does (R442, R454). -/
inductive ServiceAct where
  | inspect
  | setInterval (seconds : Nat)
  | newFirmware (digest : List Byte)
deriving DecidableEq, Repr

/-- The commands (spec/opcode_table.json), in the table's order. -/
inductive Instr where
  /-- START_SEQUENCE (R379): AO power-up starts the start sequence, which runs steps 1 to 7 in order: supply check, configuration read, firmware and identity checks, supervisor load, training and Primrose. -/
  | startSequence (t : Nat) (i : StartInputs)
  /-- PTP_LOCK (R285): When PTP locks at step 8, MT is stepped once to PTP time and the module enters READY and releases STATUS. -/
  | ptpLock (t : Nat) (ptp : Nat)
  /-- PTP_MESSAGE (R309): A PTP event message is received and timestamped, and MT is slewed toward PTP time, with MT_OFFSET posted when the offset exceeds 1 us. -/
  | ptpMessage (t : Nat) (offsetNs : Int)
  /-- PTP_LOSS (R285): Loss of PTP puts MT into holdover and posts a PTP_STATE event. -/
  | ptpLoss (t : Nat)
  /-- PTP_RECOVERY (R285): PTP recovery ends holdover and posts a PTP_STATE event. -/
  | ptpRecovery (t : Nat)
  /-- SUPPLY_OUT_OF_RANGE (R389): A supply below 40 V or above 58 V for 100 us makes the AO domain power down every other domain, losing work without notices. -/
  | supplyOutOfRange (t : Nat) (mv : Nat)
  /-- SUPPLY_LOW (R389): A supply between 40 V and 44 V posts a SUPPLY_LOW event while operation continues. -/
  | supplyLow (t : Nat) (mv : Nat)
  /-- SUPPLY_RESTORED (R389): A supply back within 44 V to 56 V for 1 s after a power-down starts a cold start from step 1. -/
  | supplyRestored (t : Nat) (mv : Nat)
  /-- REFERENCE_CLOCK_FAIL (R398): Failure of the 100 MHz reference is seen by every PLL and the AO domain powers the module down. -/
  | referenceClockFail (t : Nat)
  /-- HOST_FRAME_DISCARD (R305): A received host frame with bad length, check sequence, address or VLAN is discarded and counted. -/
  | hostFrameDiscard (t : Nat) (f : FrameInfo) (standby : Bool)
  /-- ARP_REQUEST (R307): An ARP request for the module's address is answered, subject to the 10,000 per second limit. -/
  | arpRequest (t : Nat) (target senderIp senderMac : List Byte)
  /-- ARP_REPLY (R307): An ARP reply or neighbour advertisement resolves a next-hop MAC address into the table of 256 entries. -/
  | arpReply (t : Nat) (ip mac : List Byte)
  /-- NEIGHBOR_SOLICITATION (R307): An IPv6 neighbour solicitation for the module's address is answered with an advertisement. -/
  | neighborSolicitation (t : Nat) (target senderIp senderMac : List Byte)
  /-- ECHO_REQUEST (R307): An ICMP or ICMPv6 echo request to the module's address is answered with an echo reply. -/
  | echoRequest (t : Nat) (dst src payload : List Byte)
  /-- NEXT_HOP_REFRESH (R307): A resolved next-hop entry is refreshed 60 s after its resolution. -/
  | nextHopRefresh (t : Nat) (ip : List Byte)
  /-- KEY_INIT_HELLO (R324): A KEY_INIT HELLO is answered with a fresh NONCE_M and the certificate bundle in parts. -/
  | keyInitHello (t : Nat) (d : Datagram) (nonce : List Byte)
  /-- KEY_INIT_ENCAP (R324): A KEY_INIT ENCAP is checked for nonce and signature and decapsulated, the keys are derived, the session is opened and KEY_REPLY with CONFIRM is sent. -/
  | keyInitEncap (t : Nat) (d : Datagram)
  /-- KEY_INIT_CLOSE (R325): A KEY_INIT CLOSE closes the host's session and is answered with KEY_REPLY CLOSE. -/
  | keyInitClose (t : Nat) (d : Datagram)
  /-- SESSION_IDLE_TIMEOUT (R328): A session with no accepted message for 5 s closes, dropping its keys, windows and responses. -/
  | sessionIdleTimeout (t : Nat) (session : Nat)
  /-- CLAIM (R337): A CLAIM opens or enters an election for a vacant bridle, or is refused with BRIDLE_HELD. -/
  | claim (t : Nat) (d : Datagram)
  /-- ELECTION_CLOSE (R337): 200 ms after the first CLAIM, the election closes and grants the bridle to the highest-priority entrant, or to none. -/
  | electionClose (t : Nat)
  /-- LEASE_RENEW (R338): A LEASE_RENEW from the owner extends LEASE_END by 2 s and is answered with GRANT. -/
  | leaseRenew (t : Nat) (d : Datagram)
  /-- LEASE_EXPIRY (R338): At LEASE_END plus 1 the lease expires, the bridle becomes vacant and BRIDLE_LAPSED is queued. -/
  | leaseExpiry (t : Nat)
  /-- RELEASE (R339): A RELEASE passes the bridle to a named successor, vacates it, or is refused with NO_SUCCESSOR. -/
  | release (t : Nat) (d : Datagram)
  /-- SUBMIT (R164): A SUBMIT is checked for length and identifier and placed in its class submission queue, or refused with a NACK. -/
  | submit (t : Nat) (d : Datagram)
  /-- ABORT (R335): An ABORT naming a unit in flight at its current epoch discards it with OWNER_ABORT, and stale or unknown ones are dropped or refused. -/
  | abort (t : Nat) (d : Datagram)
  /-- MEM_WRITE (R331): A MEM_WRITE is checked against the job's page table and rights, then written, and acknowledged once it has landed. -/
  | memWrite (t : Nat) (d : Datagram)
  /-- MEM_READ (R331): A MEM_READ is checked against rights and pages, then answered with MEM_DATA carrying the data and poison bits. -/
  | memRead (t : Nat) (d : Datagram)
  /-- MGMT_READ (R332): A MGMT_READ samples its register range group by group and returns MGMT_DATA, or is refused with NO_REGISTER. -/
  | mgmtRead (t : Nat) (d : Datagram)
  /-- MGMT_WRITE (R332): A MGMT_WRITE from the owner applies its registers in ascending offset order with their access codes. -/
  | mgmtWrite (t : Nat) (d : Datagram)
  /-- REGISTER_WRITE (R8): A write to a register field with no behaviour of its own stores RW values and clears RW1C bits. -/
  | registerWrite (t : Nat) (off : Nat) (v : Nat)
  /-- METER_READ (R451): A METER_READ is passed to the metrology die as a READ_REQUEST tap record. -/
  | meterRead (t : Nat) (d : Datagram)
  /-- ATTEST (R438): An ATTEST is answered within 10 ms with a report of the current measurements signed by the identity key. -/
  | attest (t : Nat) (d : Datagram) (rnd : List Byte)
  /-- ACK (R319): A received ACK releases acknowledged messages from retransmission and updates the RTT estimate. -/
  | ack (t : Nat) (lk : Link) (d : Datagram)
  /-- PING (R329): A received PING is answered with RESPONSE set and the same 8-byte body. -/
  | ping (t : Nat) (lk : Link) (d : Datagram)
  /-- RETRANSMIT_TIMEOUT (R320): An unacknowledged message is retransmitted with a new XMIT when its timeout expires, and the timeout doubles. -/
  | retransmitTimeout (t : Nat) (lk : Link) (session seq : Nat)
  /-- MESSAGE_ABANDON (R321): A message unacknowledged 10 ms after its first transmission is abandoned, LOW advances, and a notice is re-sent with REPEAT. -/
  | messageAbandon (t : Nat) (lk : Link) (session seq : Nat)
  /-- NOTICE_SEND (R322): The transport engine polls a queue toward the owner and sends its item as COMPLETE, DISCARD, EVENT or GAP. -/
  | noticeSend (t : Nat) (pool queue : Nat)
  /-- HOST_PATH_LOSS (R311): Loss of the active host path switches to a trained standby path with gratuitous ARP, or takes the port down. -/
  | hostPathLoss (t : Nat) (path : Nat)
  /-- HOST_PATH_RETRAIN (R311): A lost host path that retrains successfully becomes the standby path and an event is posted. -/
  | hostPathRetrain (t : Nat) (path : Nat)
  /-- HOST_PATH_SWITCH (R312): A write of SWITCH to PRT_HOST_PATH makes the trained standby path active. -/
  | hostPathSwitch (t : Nat) (v : Nat)
  /-- CHAIN_CHOOSE (R207): The dispatcher moves a chain into the candidate table, reads its body and checks its structure. -/
  | chainChoose (t : Nat) (cls : Nat)
  /-- LAYER_START (R209): A candidate's next layer starts once its footprint is free and unreserved, and its clusters are held and woken. -/
  | layerStart (t : Nat) (wu : Nat)
  /-- DENSE_MM (R183): Issue of a DENSE_MM descriptor: its issue reads and checks are made and it is tiled into tickets in dense or N:M mode. -/
  | denseMm (t : Nat) (wu : Nat)
  /-- SPMM (R192): Issue of an SPMM descriptor in product scan or N:M mode, with optional ADD_C and SOFTMAX_A. -/
  | spmm (t : Nat) (wu : Nat)
  /-- SDDMM (R191): Issue of an SDDMM descriptor computing dense products at the sample tensor's positions. -/
  | sddmm (t : Nat) (wu : Nat)
  /-- SPGEMM (R67): Issue of an SPGEMM descriptor in intersect mode. -/
  | spgemm (t : Nat) (wu : Nat)
  /-- SPADD (R193): Issue of an SPADD descriptor merging two tensors with a combine function. -/
  | spadd (t : Nat) (wu : Nat)
  /-- GATHER (R194): Issue of a GATHER descriptor copying table rows named by an index fiber. -/
  | gather (t : Nat) (wu : Nat)
  /-- SCATTER_ADD (R194): Issue of a SCATTER_ADD descriptor adding source rows into destination rows. -/
  | scatterAdd (t : Nat) (wu : Nat)
  /-- EMBED_BAG (R194): Issue of an EMBED_BAG descriptor summing table rows per bag. -/
  | embedBag (t : Nat) (wu : Nat)
  /-- ROUTE (R195): Issue of a ROUTE descriptor sorting expert choices into dispatch, combine and overflow fibers and shape records. -/
  | route (t : Nat) (wu : Nat)
  /-- COMBINE (R194): Issue of a COMBINE descriptor summing weighted expert outputs per token. -/
  | combine (t : Nat) (wu : Nat)
  /-- REDUCE (R197): Issue of a REDUCE descriptor removing one dimension by SUM, MAX or MIN. -/
  | reduce (t : Nat) (wu : Nat)
  /-- TOPK (R197): Issue of a TOPK descriptor ranking the entries of each row. -/
  | topk (t : Nat) (wu : Nat)
  /-- ROW_STATS (R197): Issue of a ROW_STATS descriptor computing row statistics. -/
  | rowStats (t : Nat) (wu : Nat)
  /-- CONVERT (R61): Issue of a CONVERT descriptor converting between formats and element types. -/
  | convert (t : Nat) (wu : Nat)
  /-- TRANSPOSE_COPY (R198): Issue of a TRANSPOSE_COPY descriptor exchanging dimensions 0 and 1. -/
  | transposeCopy (t : Nat) (wu : Nat)
  /-- COPY (R198): Issue of a COPY descriptor copying a tensor element by element or header and arrays unchanged. -/
  | copy (t : Nat) (wu : Nat)
  /-- FILL (R198): Issue of a FILL descriptor writing PARAM0 bits into every element. -/
  | fill (t : Nat) (wu : Nat)
  /-- BARRIER (R199): Issue of a BARRIER descriptor arriving at a barrier after earlier descriptors complete. -/
  | barrier (t : Nat) (wu : Nat)
  /-- SIGNAL (R199): Issue of a SIGNAL descriptor performing a fetch-add on its counter after earlier descriptors complete. -/
  | signal (t : Nat) (wu : Nat)
  /-- WAIT (R199): Issue of a WAIT descriptor holding a compare-wait on its counter. -/
  | wait (t : Nat) (wu : Nat)
  /-- TICKET_LOOP (R200): Issue of a TICKET_LOOP descriptor running its body once per loop ticket with advanced bases. -/
  | ticketLoop (t : Nat) (wu : Nat)
  /-- PRELOAD (R201): Issue of a PRELOAD descriptor copying a tensor into a resident buffer of every member and recording residency. -/
  | preload (t : Nat) (wu : Nat)
  /-- RELEASE_BUF (R201): Issue of a RELEASE_BUF descriptor removing buffer residency. -/
  | releaseBuf (t : Nat) (wu : Nat)
  /-- LAYER_END (R187): Issue of a LAYER_END descriptor, which waits for every earlier descriptor of the chain. -/
  | layerEnd (t : Nat) (wu : Nat)
  /-- WORK_COUNTER_ALLOC (R223): A descriptor cut into tickets is allocated a free pair of work counters in rotation, waiting when none is free. -/
  | workCounterAlloc (t : Nat) (r : DescRef)
  /-- TICKET_NOTICE_POST (R224): Once the first block of the ticket table is built, a ticket notice is posted to every member's inbox. -/
  | ticketNoticePost (t : Nat) (r : DescRef)
  /-- TICKET_TAKE (R224): A member fetch-adds the take counter and runs the ticket named, or stops taking when past the count. -/
  | ticketTake (t : Nat) (l : Nat) (r : DescRef)
  /-- PASS_END (R105): At the end of a pass attempt the saturation test either closes the pass or repeats it with a larger shift, and the fill and drain tiles swap. -/
  | passEnd (t : Nat) (l spanCycles stallCycles : Nat)
  /-- DRAIN_DONE (R101): A drain of the drain tile through the wide buffer and output path finishes, freeing the next swap. -/
  | drainDone (t : Nat) (l : Nat)
  /-- RESIDUE_CHECKPOINT (R88): At 8,192 cycles or 8 us since the last one, integer accumulators are compared with their residue entries. -/
  | residueCheckpoint (t : Nat) (l : Nat) (upset : Option (Nat × F32))
  /-- CHECKSUM_CHECKPOINT (R90): At 32,768 cycles or 40 us since the last one, floating accumulators are compared with the checksum lanes. -/
  | checksumCheckpoint (t : Nat) (l : Nat) (fails : Bool)
  /-- TREE_NODE (R123): A reduction-tree node combines its two complete children left then right at the home cluster. -/
  | treeNode (t : Nat) (r : DescRef) (tile lo hi : Nat)
  /-- TILE_DONE (R226): A tile whose output has left step 6 adds 1 to its descriptor's done counter. -/
  | tileDone (t : Nat) (r : DescRef) (tile : Nat)
  /-- COMPRESS_COUNT (R121): After the last tile has left its tree root, each row-range home counts its kept entries and segment granules. -/
  | compressCount (t : Nat) (r : DescRef)
  /-- COMPRESS_PLACE (R121): With the prefix of counts known, each row-range home writes pointers, segments, values and header fields. -/
  | compressPlace (t : Nat) (r : DescRef)
  /-- DESCRIPTOR_COMPLETE (R226): A descriptor completes when its done counter reaches its tile count and all its writes have landed, freeing its counters. -/
  | descriptorComplete (t : Nat) (r : DescRef)
  /-- LAYER_END_COMPLETE (R187): A LAYER_END completes after earlier descriptors and their writes, freeing the footprint and posting completion at the last one. -/
  | layerEndComplete (t : Nat) (wu : Nat)
  /-- DISCARD_DECISION (R231): A unit is decided discarded and the epochs of its work counters advance. -/
  | discardDecision (t : Nat) (wu : Nat)
  /-- MEMBER_TICKET_DROP (R231): A member drops the discarded unit's tickets at its next span boundary, frees their slots and confirms. -/
  | memberTicketDrop (t : Nat) (l wu : Nat)
  /-- DISCARD_RELEASE (R231): After every present member has confirmed, the DISCARD notice is released into the discard queue. -/
  | discardRelease (t : Nat) (wu : Nat)
  /-- QUARANTINE_END (R417): 20 ms after its notice's release, a WU_ID's quarantine ends. -/
  | quarantineEnd (t : Nat) (wuId : Nat)
  /-- RETIRED_ENTRY_EXPIRY (R417): A retired-identifier entry is dropped 10 s after its release. -/
  | retiredEntryExpiry (t : Nat) (wuId : Nat)
  /-- STREAM_REQUEST_ISSUE (R236): A stream engine issues the next request of its walk once fewer than 256 are outstanding. -/
  | streamRequestIssue (t : Nat) (p : Nat)
  /-- STREAM_READ_ARRIVAL (R237): Read data arrives and lands in the scratchpad in slot 4, completing the transfer once every byte has landed. -/
  | streamReadArrival (t : Nat) (p : Nat) (tag : Nat)
  /-- PONY_TRANSFER (R240): A transfer of 256 B or less is carried on the pony path, bypassing the weight cache. -/
  | ponyTransfer (t : Nat) (p : Nat) (write : Bool) (job va spadOff len : Nat)
  /-- WEIGHT_CACHE_READ (R245): A stream read of a CACHEABLE_WEIGHT page is served line by line from the cache, with misses fetched and filled. -/
  | weightCacheRead (t : Nat) (die : Nat) (pa len : Nat) (upset : Option Nat)
  /-- HBM_READ (R249): The HBM controller decodes a granule, correcting up to 3 symbols or reconstructing an uncorrectable one. -/
  | hbmRead (t : Nat) (pa : Nat) (res : Decode64)
  /-- PARITY_WRITE (R253): The parity engine applies a write to its stripe row by read-modify-write or reconstruct-write and the write lands. -/
  | parityWrite (t : Nat) (row : Nat)
  /-- MULTICAST_SEND (R242): A sender reads a scratchpad region and the NoC delivers it to the receivers' slot 6. -/
  | multicastSend (t : Nat) (sender srcOff len dstOff : Nat) (receivers accepted : List Nat) (origin : Origin)
  /-- MULTICAST_WAIT_EXPIRY (R243): A receiver not accepting within CFG_MCAST_WAIT is dropped, the miss is counted and it refetches from the origin. -/
  | multicastWaitExpiry (t : Nat) (receiver : Nat)
  /-- SLOT_ACCESS (R137): One scratchpad slot of a frame carries one access of its owner, decoding or writing words with check bits. -/
  | slotAccess (t : Nat) (p frame slot : Nat) (a : SlotAccess) (upsets : List Upset)
  /-- FARRIER_WRITE_BACK (R156): In its next slot-7 frame the Farrier rewrites a corrected or uncorrectable word unless another slot wrote it meanwhile. -/
  | farrierWriteBack (t : Nat) (p frame : Nat)
  /-- SCRUB_SWEEP (R155): At least once per second the Farrier reads every word of a cluster, waking a GATED or ASLEEP cluster for the sweep. -/
  | scrubSweep (t : Nat) (p : Nat) (upsets : List Upset)
  /-- ROW_MAP_OUT (R158): A bank row at the repeat-error threshold is mirrored, copied to a spare row and remapped at a frame boundary. -/
  | rowMapOut (t : Nat) (p bank row : Nat)
  /-- REPAIR_APPEND (R161): The module supervisor appends a field repair entry to the configuration flash within 10 s. -/
  | repairAppend (t : Nat)
  /-- PATROL_SCRUB_VISIT (R258): The patrol scrub reads a granule, rewriting corrected ones and reconstructing uncorrectable ones. -/
  | patrolScrubVisit (t : Nat) (pa : Nat) (res : Decode64)
  /-- PAGE_RETIRE (R259): Frames of a unit at the retirement threshold are copied to a pool frame and remapped, or the unit joins the lost region. -/
  | pageRetire (t : Nat) (unit : Nat)
  /-- RETIREMENT_APPEND (R259): The module supervisor appends a retirement to the configuration flash within 10 s. -/
  | retirementAppend (t : Nat)
  /-- PSEUDO_CHANNEL_FAIL (R255): A failed pseudo-channel is declared a lost region and the units that used it are discarded. -/
  | pseudoChannelFail (t : Nat) (stack pc : Nat)
  /-- STACK_FAIL (R255): A failed HBM stack is declared a lost region, every unit in flight is discarded, and rebuild begins in Full Guard. -/
  | stackFail (t : Nat) (stack : Nat)
  /-- REBUILD_COMPLETE (R256): The rebuild of a lost region into the distributed spare completes and HBM_REBUILD_DONE is posted. -/
  | rebuildComplete (t : Nat)
  /-- FETCH_ADD (R276): A home applies a fetch-add to a counter at its release time and answers satisfied waits. -/
  | fetchAdd (t : Nat) (req ctr addend sent : Nat) (epoch : Option Nat)
  /-- COMPARE_SWAP (R276): A home applies a compare-swap to a counter and returns the old value. -/
  | compareSwap (t : Nat) (req ctr expected value sent : Nat) (epoch : Option Nat)
  /-- COMPARE_WAIT (R276): A compare-wait is held in the wait table until its counter satisfies it or its epoch moves. -/
  | compareWait (t : Nat) (req ctr target sent : Nat) (equal : Bool) (epoch : Option Nat)
  /-- COUNTER_READ (R276): A read operation returns a counter's value and epoch. -/
  | counterRead (t : Nat) (req ctr sent : Nat) (epoch : Option Nat)
  /-- BARRIER_ARRIVAL (R282): An arrival sets or checks the party count and, when the count is reached, releases the generation. -/
  | barrierArrival (t : Nat) (req bar parties sent : Nat)
  /-- ARRIVAL_WITHDRAW (R283): A discarded unit's unreleased arrival is withdrawn, lowering the arrival count. -/
  | arrivalWithdraw (t : Nat) (wu : Nat)
  /-- RN_CTR_CMD (R280): A write of RN_CTR_CMD sets the selected counter and advances its epoch. -/
  | rnCtrCmd (t : Nat) (v : Nat)
  /-- PLANE_ERROR (R270): A receiver's vote finds a plane copy bad and reports a plane error, and the plane is declared failed above 16 errors in 1 ms. -/
  | planeError (t : Nat) (receiver plane : Nat) (how : PlaneFault)
  /-- PLANE_RESYNC_DONE (R271): A failed Reins plane, resynchronised from the voted state, returns to the vote. -/
  | planeResyncDone (t : Nat) (plane : Nat)
  /-- PADDOCK_PACKET_WRITE (R294): A producer starts a packet, which is written or dropped whole. -/
  | paddockPacketWrite (t : Nat) (pool queue source : Nat) (wu : Option (Nat × Nat)) (payload : List Byte)
  /-- PADDOCK_ITEM_READ (R299): A consumer reads one whole item, or IDLE, forwarding markers to the event queue and acting on poison. -/
  | paddockItemRead (t : Nat) (pool queue : Nat) (corrected : Nat) (bad : Bool)
  /-- PDK_FLUSH (R301): A flush write frees a queue's items and marker at its next packet boundary and discards freed chains. -/
  | pdkFlush (t : Nat) (v : Nat)
  /-- HEARTBEAT (R286): A heartbeat from a cluster controller or die supervisor is received. -/
  | heartbeat (t : Nat) (who : Beater)
  /-- HEARTBEAT_TIMEOUT (R286): Three missed heartbeats declare the sender failed. -/
  | heartbeatTimeout (t : Nat) (who : Beater)
  /-- WAKE_HEARTBEAT_TIMEOUT (R287): A woken cluster that sends no heartbeat within 10 us is declared failed. -/
  | wakeHeartbeatTimeout (t : Nat) (p : Nat)
  /-- CLUSTER_FAIL_DECLARE (R410): A cluster is declared failed, its halter is raised, its units are discarded and its remount begins. -/
  | clusterFailDeclare (t : Nat) (p mech : Nat)
  /-- SPARE_TEST_DONE (R411): The spare passes its Primrose subset and takes the logical number, or fails and the number becomes absent. -/
  | spareTestDone (t : Nat) (g : Nat) (pass : Bool) (badRows : List (Nat × Nat))
  /-- RETEST (R413): Within 10 s of haltering, a failed cluster is reset and retested, becoming a spare if it passes. -/
  | retest (t : Nat) (p : Nat) (pass : Bool) (badRows : List (Nat × Nat))
  /-- YARROW_VISIT (R423): Yarrow wakes an idle cluster and runs the known-answer tests of every mode and check. -/
  | yarrowVisit (t : Nat) (p : Nat) (res : VisitResult)
  /-- CLUSTER_GATE (R385): A cluster with no ticket or access for 64 cycles becomes GATED. -/
  | clusterGate (t : Nat) (p : Nat)
  /-- CLUSTER_SLEEP (R385): A cluster GATED for CFG_SLEEP_AFTER while not held becomes ASLEEP. -/
  | clusterSleep (t : Nat) (p : Nat)
  /-- CLUSTER_WAKE (R385): A wake, scrub, ticket or visit brings a cluster to ACTIVE after its wake time. -/
  | clusterWake (t : Nat) (p : Nat) (why : WakeCause)
  /-- GROUP_PLL_STOP (R387): A group PLL stops once every cluster of the group has been ASLEEP or OFF for CFG_SLEEP_AFTER. -/
  | groupPllStop (t : Nat) (g : Nat)
  /-- POWER_EVALUATION (R391): Every 1 ms the power manager compares mean input power with the cap and sets a target step. -/
  | powerEvaluation (t : Nat) (meanW : Nat)
  /-- GROUP_STEP_SWITCH (R392): An unheld group switches to the target step, and PWR_STEP is posted after the last group. -/
  | groupStepSwitch (t : Nat) (g : Nat)
  /-- PWR_CAP_WRITE (R395): A write of CAP_W sets the power cap, or leaves it unchanged when out of range. -/
  | pwrCapWrite (t : Nat) (v : Nat)
  /-- THERMAL_LIMIT (R393): A junction crossing 100, 104 or 105 C throttles, stretches clocks or powers the module down. -/
  | thermalLimit (t : Nat) (die tempC : Nat)
  /-- THERMAL_RECOVER (R393): A junction falling below the release temperature ends throttling or stretching. -/
  | thermalRecover (t : Nat) (die tempC : Nat)
  /-- DROOP_DETECT (R394): A rail droop stretches the group's clock cycles while it lasts, and PWR_DROOP is posted above 1 %. -/
  | droopDetect (t : Nat) (g stretched inLastMs cyclesInMs : Nat)
  /-- REGULATOR_PHASE_FAIL (R388): A converter or regulator phase failure is detected within 10 us and masked. -/
  | regulatorPhaseFail (t : Nat) (rail : Nat)
  /-- PLL_LOCK_LOSS (R403): A PLL losing lock is handled as the loss of what it clocks. -/
  | pllLockLoss (t : Nat) (pll : Pll)
  /-- SUPERVISOR_VOTE_MISMATCH (R368): A supervisor member whose output disagrees leaves the vote, replaced by the hot spare or continuing 2-of-2. -/
  | supervisorVoteMismatch (t : Nat) (which : VoteSet) (core : Nat)
  /-- SUPERVISOR_RESYNC_DONE (R367): A reset supervisor core is resynchronised and rejoins the vote or becomes the spare. -/
  | supervisorResyncDone (t : Nat) (which : VoteSet)
  /-- DIE_SUPERVISOR_LOSS (R369): A lost die supervisor discards its die's units and is reset and reloaded. -/
  | dieSupervisorLoss (t : Nat) (die : Nat)
  /-- X_UNIT_MISMATCH (R421): A mismatch between duplicated X units discards all units or drops the message being processed. -/
  | xUnitMismatch (t : Nat) (unit : XUnit)
  /-- DISPATCHER_RESTART_DONE (R421): Both copies of the dispatcher and tile walker restart from the supervisor's state. -/
  | dispatcherRestartDone (t : Nat)
  /-- NOC_FLIT_CRC_FAIL (R419): A flit failing its CRC is retried from the retry buffer, and a link over 16 retries in 1 ms is rerouted. -/
  | nocFlitCrcFail (t : Nat) (die link : Nat)
  /-- DIE_LANE_FAIL (R420): A failed die-link lane is remapped to a spare lane and DIE_LANE_SWAP is posted. -/
  | dieLaneFail (t : Nat) (pair unit lane : Nat)
  /-- PEER_LINK_TRAIN (R345): Peer port training exchanges the identification pattern and records FOREIGN when the partner does not return it. -/
  | peerLinkTrain (t : Nat) (port : Nat) (pattern : Bool)
  /-- PEER_LANE_FAIL (R347): A failed peer lane makes both ends retrain with lane 8 in its place. -/
  | peerLaneFail (t : Nat) (port lane : Nat)
  /-- PEER_RETRAIN_DONE (R347): The peer link resumes after a lane swap and PEER_LANE_SWAP is posted. -/
  | peerRetrainDone (t : Nat) (port : Nat)
  /-- PEER_LINK_LOST (R348): A peer link is declared lost, rerouting or making ranks unreachable and discarding affected units. -/
  | peerLinkLost (t : Nat) (port : Nat) (why : PeerLoss)
  /-- PEER_PING_TIMER (R348): Each end of an idle peer session sends PING every 100 us. -/
  | peerPingTimer (t : Nat) (port : Nat)
  /-- PEER_KEY_INIT (R350): A peer KEY_INIT is checked against the group table and opens a peer session or sets MISMATCH. -/
  | peerKeyInit (t : Nat) (port : Nat) (d : Datagram) (nonce rnd : List Byte)
  /-- PEER_DATA (R357): A peer DATA write is checked against the window and page table and lands, or is refused with NACK. -/
  | peerData (t : Nat) (port : Nat) (d : Datagram)
  /-- PEER_NACK (R357): A NACK from a destination makes the source discard the writing unit. -/
  | peerNack (t : Nat) (port : Nat) (d : Datagram)
  /-- PEER_LANDED (R358): A LANDED report completes outstanding peer writes and, at a final PSEQ, advances the window counter. -/
  | peerLanded (t : Nat) (port : Nat) (d : Datagram)
  /-- PEER_LEAF (R359): A LEAF contribution arrives and the cross-module tree node runs when both children are present. -/
  | peerLeaf (t : Nat) (port : Nat) (d : Datagram)
  /-- PEER_RESULT (R359): A RESULT lands, and when all results of the window have landed the round advances and the counter is incremented. -/
  | peerResult (t : Nat) (port : Nat) (d : Datagram)
  /-- ROUND_ABORT (R361): A ROUND_ABORT discards the module's units that wrote the round and clears the round. -/
  | roundAbort (t : Nat) (port : Nat) (d : Datagram)
  /-- ROUND_TIMEOUT (R361): A round whose contributions have not all arrived within CFG_PEER_RED_WAIT is abandoned. -/
  | roundTimeout (t : Nat) (window : Nat)
  /-- PEER_FORWARD (R352): X forwards a message not addressed to it, adding 1 to HOPS or dropping it at 8. -/
  | peerForward (t : Nat) (port : Nat) (d : Datagram)
  /-- WINDOW_WRITE (R356): A write to a window's registers takes effect after units that wrote the window have completed. -/
  | windowWrite (t : Nat) (window reg v : Nat)
  /-- GROUP_COMMIT (R364): COMMIT adopts the staged group after draining window units, closing sessions and resetting windows. -/
  | groupCommit (t : Nat)
  /-- JOB_OPEN (R460): Writing VALID = 1 to a job-table slot opens the job, or sets REFUSED. -/
  | jobOpen (t : Nat) (v : Nat)
  /-- JOB_CLOSE (R266): Clearing a job-table entry waits for the job's units, then removes residency, caches and translations. -/
  | jobClose (t : Nat) (v : Nat)
  /-- TILE_CHOICE_SET (R215): Writing TILE_CHOICE sets the job's tiler for later issues. -/
  | tileChoiceSet (t : Nat) (v : Nat)
  /-- MOD_TLB_INV (R264): A write of MOD_TLB_INV completes after every translation cache has dropped the job's entries. -/
  | modTlbInv (t : Nat) (v : Nat)
  /-- CLUSTER_RETIRE (R426): FLT_CLU_CMD with OP 1 retires a logical cluster under the disable rule, then remounts or makes it absent. -/
  | clusterRetire (t : Nat) (v : Nat)
  /-- DISABLE_TIMEOUT (R425): At the disable timeout, units still using the function are discarded with DISABLE_FORCED. -/
  | disableTimeout (t : Nat)
  /-- DISABLE_DONE (R425): The disable finishes, BUSY clears and DISABLE_DONE is posted. -/
  | disableDone (t : Nat)
  /-- CFG_LOAD (R377): GO with KIND 0 reads and checks a configuration block and stages it in the other slot. -/
  | cfgLoad (t : Nat) (v : Nat)
  /-- FW_LOAD (R382): GO with KIND 1 verifies a firmware image, writes it to flash and loads it into every member. -/
  | fwLoad (t : Nat) (v : Nat) (changed : Bool)
  /-- CODE_BANK_FREE (R383): When no unit bound to the old version remains, the old code banks are freed. -/
  | codeBankFree (t : Nat)
  /-- DBG_YARROW_CMD (R467): GO requests a Yarrow visit of a physical cluster, which is cancelled if not done within 10 s. -/
  | dbgYarrowCmd (t : Nat) (v : Nat)
  /-- SUBMIT_ARRIVAL (R443): The metrology die enters an arrival in its pending table. -/
  | submitArrival (t : Nat)
  /-- READ_REQUEST (R452): The metrology die serves a meter read request over the record link and marks records collected for the owner. -/
  | readRequest (t : Nat) (rnd : List Byte)
  /-- TIME_TAP (R442): A TIME tap every 10 ms advances the die's view of MT and may close an interval. -/
  | timeTap (t : Nat) (dieClock : Nat)
  /-- COMPLETE_DEPARTURE (R443): A COMPLETE departure credits the unit's contract and latency bin. -/
  | completeDeparture (t : Nat)
  /-- COMPLETE_EVENT (R441): The metrology die records a completion event from the dispatcher. -/
  | completeEvent (t : Nat)
  /-- FAULT_LOG_TAP (R446): A FAULT or CAPACITY record reaches the metrology die, which records reduced-capacity intervals. -/
  | faultLogTap (t : Nat)
  /-- INTERVAL_CLOSE (R442): The die closes an interval, attributes energy, writes the signed record and commits totals. -/
  | intervalClose (t : Nat) (dieClock energyMj vminMv vmaxMv : Nat) (rnd : List Byte)
  /-- PENDING_EXPIRY (R443): A pending arrival entry leaves the table 200 s after arrival. -/
  | pendingExpiry (t : Nat) (wu epoch : Nat)
  /-- UNMATCHED_TIMEOUT (R443): A departure whose completion event has not arrived within 1 s is counted UNMATCHED. -/
  | unmatchedTimeout (t : Nat) (wu epoch : Nat)
  /-- METER_HOLDUP (R446): Input below 40 V makes the die close its interval early, commit totals and store its last MT. -/
  | meterHoldup (t : Nat) (dieClock energyMj vminMv vmaxMv : Nat) (rnd : List Byte)
  /-- METER_STATUS_REPORT (R446): At least every 10 s the die sends its firmware digest and status to the relay. -/
  | meterStatusReport (t : Nat) (voltCv watt : Nat)
  /-- METER_SILENT (R453): The relay declares the die silent after 1 s without reports and posts METER_SILENT. -/
  | meterSilent (t : Nat)
  /-- SERVICE_SESSION (R454): A session on the sealed service connector adds 1 to SERVICE_COUNT and may set the interval or firmware. -/
  | serviceSession (t : Nat) (act : ServiceAct)
  /-- KYEND_CHARACTER (R473): A received monitor character is echoed, edits the line or ends it to run a command. -/
  | kyendCharacter (t : Nat) (c : Nat)
  /-- KYEND_HELP (R474): help lists the commands available. -/
  | kyendHelp (t : Nat)
  /-- KYEND_ID (R474): id prints part, stepping, firmware and serial. -/
  | kyendId (t : Nat)
  /-- KYEND_STATE (R474): state prints module state, guarantee, owner and sessions. -/
  | kyendState (t : Nat)
  /-- KYEND_CLUSTERS (R474): clusters prints a summary of cluster roles. -/
  | kyendClusters (t : Nat)
  /-- KYEND_CLUSTERS_GROUP (R474): clusters G<g> prints one line per physical cluster of the group. -/
  | kyendClustersGroup (t : Nat) (g : Nat)
  /-- KYEND_HBM (R474): hbm prints per-stack status and guard, pool and rebuild figures. -/
  | kyendHbm (t : Nat)
  /-- KYEND_PORTS (R474): ports prints the state and counters of each port. -/
  | kyendPorts (t : Nat)
  /-- KYEND_TEMPS (R474): temps prints die and stack temperatures. -/
  | kyendTemps (t : Nat)
  /-- KYEND_POWER (R474): power prints input, cap, step and supply. -/
  | kyendPower (t : Nat)
  /-- KYEND_TIME (R474): time prints MT and PTP state. -/
  | kyendTime (t : Nat)
  /-- KYEND_OWNER (R474): owner prints the owner session or vacant. -/
  | kyendOwner (t : Nat)
  /-- KYEND_LOG (R474): log prints the last n fault-log records or the halt record. -/
  | kyendLog (t : Nat) (n : Nat)
  /-- KYEND_METER (R474): meter prints the decoded relay registers. -/
  | kyendMeter (t : Nat)
  /-- KYEND_PEEK (R474): peek prints up to 64 registers. -/
  | kyendPeek (t : Nat) (off count : Nat)
  /-- KYEND_POKE (R474): poke writes a debug register in development mode and prints it. -/
  | kyendPoke (t : Nat) (off v : Nat)
  /-- KYEND_TRACE (R474): trace prints or sets the trace enable mask in development mode. -/
  | kyendTrace (t : Nat) (mask : Option Nat)
  /-- KYEND_YARROW (R474): yarrow requests a visit of a physical cluster in development mode and prints its result. -/
  | kyendYarrow (t : Nat) (p : Nat)
  /-- SUPPLY_LOW_END (R389): The supply rising back into 44 V to 56 V after a SUPPLY_LOW posts SUPPLY_LOW with the END flag. -/
  | supplyLowEnd (t : Nat) (mv : Nat)
  /-- STANDBY_PATH_LOSS (R312): Loss of the standby host path sets STANDBY_STATE to down and LAPSE_HOST in FLT_GUARANTEE. -/
  | standbyPathLoss (t : Nat)
  /-- PEER_KEY_REPLY (R350): The lower-ranked initiator receives KEY_REPLY, verifies the responder's bundle and key slot, sends ENCAP, and opens the peer session on the final KEY_REPLY. -/
  | peerKeyReply (t : Nat) (port : Nat) (d : Datagram) (nonce rnd : List Byte)
  /-- PEER_FRAME_DISCARD (R346): A peer-port frame with another EtherType, a VLAN tag, a bad check sequence or a foreign destination rank is discarded and counted. -/
  | peerFrameDiscard (t : Nat) (port : Nat) (f : FrameInfo) (dstRank : Nat)
  /-- DIE_SUPERVISOR_RELOAD_DONE (R369): A lost die supervisor finishes its reset, reload from flash and resynchronisation, and layers on its die may start again. -/
  | dieSupervisorReloadDone (t : Nat) (die : Nat)
  /-- YARROW_REQUEST_CANCEL (R467): A debug Yarrow request not completed within 10 s is cancelled and RESULT returns to 0. -/
  | yarrowRequestCancel (t : Nat)
  /-- DROOP_END (R394): A rail droop ends, the group's clock cycles return to normal length and PWR_GROUP.STRETCHING clears. -/
  | droopEnd (t : Nat) (g : Nat)
deriving DecidableEq, Repr

end Sys2Proof
end

