-- ==== Sys2Proof/WellFormed.lean ====
section
/-! DEFINITION. Which commands are well formed: every operand lies in the range that the manual gives the thing it
names. Meanings are total on all commands; this says which ones can happen. -/

namespace Sys2Proof

/-- A number below a bound. -/
def below (n x : Nat) : Bool := decide (x < n)

/-- A 32-bit value (R455). -/
def word32 (x : Nat) : Bool := below 4294967296 x

/-- A 64-bit Module Time (R7). -/
def mtOk (x : Nat) : Bool := below 18446744073709551616 x

/-- An optional number below a bound. -/
def optBelow (n : Nat) (o : Option Nat) : Bool :=
  match o with
  | none => true
  | some x => below n x

/-- A number of at least 1. -/
def posOk (x : Nat) : Bool := decide (0 < x)

/-- A pony transfer moves 1 to 256 bytes (R240). -/
def ponyOk (x : Nat) : Bool := decide (0 < x) && decide (x ≤ 256)

/-- A party count of 1 to 65,536 (R282). -/
def partyOk (x : Nat) : Bool := decide (0 < x) && decide (x ≤ 65536)

/-- A log count of 1 to 512 (R474). -/
def logCountOk (x : Nat) : Bool := decide (0 < x) && decide (x ≤ 512)

/-- A peek count of 1 to 64 (R474). -/
def peekOk (x : Nat) : Bool := decide (0 < x) && decide (x ≤ 64)

/-- 32 random or nonce bytes (R324, R433). -/
def len32 (l : List Byte) : Bool := l.length == 32

/-- A Paddock payload of 1 to 4,096 bytes (R292). -/
def payloadOk (l : List Byte) : Bool := decide (0 < l.length) && decide (l.length ≤ 4096)

/-- An IPv4 or IPv6 address (R304). -/
def ipOk (l : List Byte) : Bool := l.length == 4 || l.length == 16

/-- A MAC address. -/
def macOk (l : List Byte) : Bool := l.length == 6

/-- The fields of an IMP datagram fit their widths (R314). -/
def dgOk (d : Datagram) : Bool :=
  below 256 d.version && below 256 d.typ && below 65536 d.session && word32 d.gen && mtOk d.seq && mtOk d.low &&
  mtOk d.mt && mtOk d.xmit

/-- A link of the module (R3). -/
def linkOk : Link → Bool
  | .host => true
  | .peer p => below 4 p

/-- A descriptor reference (R163, R200). -/
def refOk (r : DescRef) : Bool := word32 r.wu && below 256 r.idx && word32 r.ticket

/-- A granule decode corrects at most 3 symbols (R249). -/
def decodeOk : Decode64 → Bool
  | .clean => true
  | .corrected n => decide (0 < n) && decide (n ≤ 3)
  | .uncorrectable => true

/-- A flipped stored bit: a word of the scratchpad and one of its 267 bits (R131). -/
def upsetOk (u : Upset) : Bool := below 196608 u.1 && below 267 u.2

/-- A sender of heartbeats (R286). -/
def beaterOk : Beater → Bool
  | .cluster p => below 544 p
  | .dieSup d => below 4 d

/-- A PLL of the module (R384). -/
def pllOk : Pll → Bool
  | .group g => below 32 g
  | .noc d => below 4 d
  | .hbm k => below 20 k
  | .hostPath p => below 2 p
  | .peerPort p => below 4 p

/-- A voting set (R367). -/
def voteOk : VoteSet → Bool
  | .module => true
  | .die d => below 4 d

/-- An access of a scratchpad slot (R137): at most 64 words of 32 bytes. -/
def slotOk (a : SlotAccess) : Bool :=
  below 48 a.plane && below 64 a.line && a.words.all (below 64) && a.byteMask.all (below 32) &&
  a.data.all (fun w => w.length == 32)

/-- A received frame (R305). -/
def frameOk (f : FrameInfo) : Bool := below 4 f.dst && below 65536 f.etherType && optBelow 4096 f.vlan

/-- What service may set (R442). -/
def serviceOk : ServiceAct → Bool
  | .inspect => true
  | .setInterval n => decide (10 ≤ n) && decide (n ≤ 3600)
  | .newFirmware d => d.length == 64

/-- What a start meets (R379, R380). -/
def startOk (i : StartInputs) : Bool :=
  i.failClusters.all (below 544) && i.failDieSup.all (below 4) && i.failPlanes.all (below 3) &&
  i.failHostPaths.all (below 2) && i.failStacks.all (below 20) && i.peerPattern.all (below 4)

/-- A command whose every operand lies in its range. -/
def Instr.wellFormed : Instr → Bool
  | .startSequence t i => mtOk t && startOk i
  | .ptpLock t _ => mtOk t
  | .ptpMessage t _ => mtOk t
  | .ptpLoss t => mtOk t
  | .ptpRecovery t => mtOk t
  | .supplyOutOfRange t _ => mtOk t
  | .supplyLow t _ => mtOk t
  | .supplyRestored t _ => mtOk t
  | .referenceClockFail t => mtOk t
  | .hostFrameDiscard t f _ => mtOk t && frameOk f
  | .arpRequest t target _ _ => mtOk t && ipOk target
  | .arpReply t ip mac => mtOk t && ipOk ip && macOk mac
  | .neighborSolicitation t target _ _ => mtOk t && ipOk target
  | .echoRequest t _ _ _ => mtOk t
  | .nextHopRefresh t ip => mtOk t && ipOk ip
  | .keyInitHello t d nonce => mtOk t && dgOk d && len32 nonce
  | .keyInitEncap t d => mtOk t && dgOk d
  | .keyInitClose t d => mtOk t && dgOk d
  | .sessionIdleTimeout t session => mtOk t && below 64 session
  | .claim t d => mtOk t && dgOk d
  | .electionClose t => mtOk t
  | .leaseRenew t d => mtOk t && dgOk d
  | .leaseExpiry t => mtOk t
  | .release t d => mtOk t && dgOk d
  | .submit t d => mtOk t && dgOk d
  | .abort t d => mtOk t && dgOk d
  | .memWrite t d => mtOk t && dgOk d
  | .memRead t d => mtOk t && dgOk d
  | .mgmtRead t d => mtOk t && dgOk d
  | .mgmtWrite t d => mtOk t && dgOk d
  | .registerWrite t off v => mtOk t && below 16777216 off && word32 v
  | .meterRead t d => mtOk t && dgOk d
  | .attest t d rnd => mtOk t && dgOk d && len32 rnd
  | .ack t lk d => mtOk t && linkOk lk && dgOk d
  | .ping t lk d => mtOk t && linkOk lk && dgOk d
  | .retransmitTimeout t lk session _ => mtOk t && linkOk lk && below 64 session
  | .messageAbandon t lk session _ => mtOk t && linkOk lk && below 64 session
  | .noticeSend t pool queue => mtOk t && below 5 pool && below 4096 queue
  | .hostPathLoss t path => mtOk t && below 2 path
  | .hostPathRetrain t path => mtOk t && below 2 path
  | .hostPathSwitch t v => mtOk t && word32 v
  | .chainChoose t cls => mtOk t && below 8 cls
  | .layerStart t wu => mtOk t && word32 wu
  | .denseMm t wu => mtOk t && word32 wu
  | .spmm t wu => mtOk t && word32 wu
  | .sddmm t wu => mtOk t && word32 wu
  | .spgemm t wu => mtOk t && word32 wu
  | .spadd t wu => mtOk t && word32 wu
  | .gather t wu => mtOk t && word32 wu
  | .scatterAdd t wu => mtOk t && word32 wu
  | .embedBag t wu => mtOk t && word32 wu
  | .route t wu => mtOk t && word32 wu
  | .combine t wu => mtOk t && word32 wu
  | .reduce t wu => mtOk t && word32 wu
  | .topk t wu => mtOk t && word32 wu
  | .rowStats t wu => mtOk t && word32 wu
  | .convert t wu => mtOk t && word32 wu
  | .transposeCopy t wu => mtOk t && word32 wu
  | .copy t wu => mtOk t && word32 wu
  | .fill t wu => mtOk t && word32 wu
  | .barrier t wu => mtOk t && word32 wu
  | .signal t wu => mtOk t && word32 wu
  | .wait t wu => mtOk t && word32 wu
  | .ticketLoop t wu => mtOk t && word32 wu
  | .preload t wu => mtOk t && word32 wu
  | .releaseBuf t wu => mtOk t && word32 wu
  | .layerEnd t wu => mtOk t && word32 wu
  | .workCounterAlloc t r => mtOk t && refOk r
  | .ticketNoticePost t r => mtOk t && refOk r
  | .ticketTake t l r => mtOk t && below 512 l && refOk r
  | .passEnd t l _ _ => mtOk t && below 512 l
  | .drainDone t l => mtOk t && below 512 l
  | .residueCheckpoint t l _ => mtOk t && below 512 l
  | .checksumCheckpoint t l _ => mtOk t && below 512 l
  | .treeNode t r _ _ _ => mtOk t && refOk r
  | .tileDone t r _ => mtOk t && refOk r
  | .compressCount t r => mtOk t && refOk r
  | .compressPlace t r => mtOk t && refOk r
  | .descriptorComplete t r => mtOk t && refOk r
  | .layerEndComplete t wu => mtOk t && word32 wu
  | .discardDecision t wu => mtOk t && word32 wu
  | .memberTicketDrop t l wu => mtOk t && below 512 l && word32 wu
  | .discardRelease t wu => mtOk t && word32 wu
  | .quarantineEnd t wuId => mtOk t && word32 wuId
  | .retiredEntryExpiry t wuId => mtOk t && word32 wuId
  | .streamRequestIssue t p => mtOk t && below 544 p
  | .streamReadArrival t p _ => mtOk t && below 544 p
  | .ponyTransfer t p _ job va spadOff len => mtOk t && below 544 p && below 65536 job && below 281474976710656 va && below 6291456 spadOff && ponyOk len
  | .weightCacheRead t die pa len _ => mtOk t && below 4 die && below 2199023255552 pa && posOk len
  | .hbmRead t pa res => mtOk t && below 2199023255552 pa && decodeOk res
  | .parityWrite t _ => mtOk t
  | .multicastSend t sender srcOff len dstOff receivers accepted _ => mtOk t && below 512 sender && below 6291456 srcOff && posOk len && below 6291456 dstOff && receivers.all (below 512) && accepted.all (below 512)
  | .multicastWaitExpiry t receiver => mtOk t && below 512 receiver
  | .slotAccess t p _ slot a upsets => mtOk t && below 544 p && below 8 slot && slotOk a && upsets.all upsetOk
  | .farrierWriteBack t p _ => mtOk t && below 544 p
  | .scrubSweep t p upsets => mtOk t && below 544 p && upsets.all upsetOk
  | .rowMapOut t p bank _ => mtOk t && below 544 p && below 64 bank
  | .repairAppend t => mtOk t
  | .patrolScrubVisit t pa res => mtOk t && below 2199023255552 pa && decodeOk res
  | .pageRetire t _ => mtOk t
  | .retirementAppend t => mtOk t
  | .pseudoChannelFail t stack pc => mtOk t && below 20 stack && below 64 pc
  | .stackFail t stack => mtOk t && below 20 stack
  | .rebuildComplete t => mtOk t
  | .fetchAdd t req ctr addend sent epoch => mtOk t && below 552 req && below 65536 ctr && word32 addend && mtOk sent && optBelow 256 epoch
  | .compareSwap t req ctr expected value sent epoch => mtOk t && below 552 req && below 65536 ctr && word32 expected && word32 value && mtOk sent && optBelow 256 epoch
  | .compareWait t req ctr _ sent _ epoch => mtOk t && below 552 req && below 65536 ctr && mtOk sent && optBelow 256 epoch
  | .counterRead t req ctr sent epoch => mtOk t && below 552 req && below 65536 ctr && mtOk sent && optBelow 256 epoch
  | .barrierArrival t req bar parties sent => mtOk t && below 552 req && below 4096 bar && partyOk parties && mtOk sent
  | .arrivalWithdraw t wu => mtOk t && word32 wu
  | .rnCtrCmd t v => mtOk t && word32 v
  | .planeError t receiver plane _ => mtOk t && below 552 receiver && below 3 plane
  | .planeResyncDone t plane => mtOk t && below 3 plane
  | .paddockPacketWrite t pool queue source _ payload => mtOk t && below 5 pool && below 4096 queue && below 552 source && payloadOk payload
  | .paddockItemRead t pool queue _ _ => mtOk t && below 5 pool && below 4096 queue
  | .pdkFlush t v => mtOk t && word32 v
  | .heartbeat t who => mtOk t && beaterOk who
  | .heartbeatTimeout t who => mtOk t && beaterOk who
  | .wakeHeartbeatTimeout t p => mtOk t && below 544 p
  | .clusterFailDeclare t p _ => mtOk t && below 544 p
  | .spareTestDone t g _ _ => mtOk t && below 32 g
  | .retest t p _ _ => mtOk t && below 544 p
  | .yarrowVisit t p _ => mtOk t && below 544 p
  | .clusterGate t p => mtOk t && below 544 p
  | .clusterSleep t p => mtOk t && below 544 p
  | .clusterWake t p _ => mtOk t && below 544 p
  | .groupPllStop t g => mtOk t && below 32 g
  | .powerEvaluation t _ => mtOk t
  | .groupStepSwitch t g => mtOk t && below 32 g
  | .pwrCapWrite t v => mtOk t && word32 v
  | .thermalLimit t die _ => mtOk t && below 9 die
  | .thermalRecover t die _ => mtOk t && below 9 die
  | .droopDetect t g _ _ _ => mtOk t && below 32 g
  | .regulatorPhaseFail t _ => mtOk t
  | .pllLockLoss t pll => mtOk t && pllOk pll
  | .supervisorVoteMismatch t which _ => mtOk t && voteOk which
  | .supervisorResyncDone t which => mtOk t && voteOk which
  | .dieSupervisorLoss t die => mtOk t && below 4 die
  | .xUnitMismatch t _ => mtOk t
  | .dispatcherRestartDone t => mtOk t
  | .nocFlitCrcFail t die _ => mtOk t && below 4 die
  | .dieLaneFail t _ _ lane => mtOk t && below 68 lane
  | .peerLinkTrain t port _ => mtOk t && below 4 port
  | .peerLaneFail t port lane => mtOk t && below 4 port && below 68 lane
  | .peerRetrainDone t port => mtOk t && below 4 port
  | .peerLinkLost t port _ => mtOk t && below 4 port
  | .peerPingTimer t port => mtOk t && below 4 port
  | .peerKeyInit t port d nonce rnd => mtOk t && below 4 port && dgOk d && len32 nonce && len32 rnd
  | .peerData t port d => mtOk t && below 4 port && dgOk d
  | .peerNack t port d => mtOk t && below 4 port && dgOk d
  | .peerLanded t port d => mtOk t && below 4 port && dgOk d
  | .peerLeaf t port d => mtOk t && below 4 port && dgOk d
  | .peerResult t port d => mtOk t && below 4 port && dgOk d
  | .roundAbort t port d => mtOk t && below 4 port && dgOk d
  | .roundTimeout t window => mtOk t && below 16 window
  | .peerForward t port d => mtOk t && below 4 port && dgOk d
  | .windowWrite t window reg v => mtOk t && below 16 window && below 8 reg && word32 v
  | .groupCommit t => mtOk t
  | .jobOpen t v => mtOk t && word32 v
  | .jobClose t v => mtOk t && word32 v
  | .tileChoiceSet t v => mtOk t && word32 v
  | .modTlbInv t v => mtOk t && word32 v
  | .clusterRetire t v => mtOk t && word32 v
  | .disableTimeout t => mtOk t
  | .disableDone t => mtOk t
  | .cfgLoad t v => mtOk t && word32 v
  | .fwLoad t v _ => mtOk t && word32 v
  | .codeBankFree t => mtOk t
  | .dbgYarrowCmd t v => mtOk t && word32 v
  | .submitArrival t => mtOk t
  | .readRequest t rnd => mtOk t && len32 rnd
  | .timeTap t _ => mtOk t
  | .completeDeparture t => mtOk t
  | .completeEvent t => mtOk t
  | .faultLogTap t => mtOk t
  | .intervalClose t _ _ _ _ rnd => mtOk t && len32 rnd
  | .pendingExpiry t wu epoch => mtOk t && word32 wu && below 256 epoch
  | .unmatchedTimeout t wu epoch => mtOk t && word32 wu && below 256 epoch
  | .meterHoldup t _ _ _ _ rnd => mtOk t && len32 rnd
  | .meterStatusReport t _ _ => mtOk t
  | .meterSilent t => mtOk t
  | .serviceSession t act => mtOk t && serviceOk act
  | .kyendCharacter t c => mtOk t && below 256 c
  | .kyendHelp t => mtOk t
  | .kyendId t => mtOk t
  | .kyendState t => mtOk t
  | .kyendClusters t => mtOk t
  | .kyendClustersGroup t g => mtOk t && below 32 g
  | .kyendHbm t => mtOk t
  | .kyendPorts t => mtOk t
  | .kyendTemps t => mtOk t
  | .kyendPower t => mtOk t
  | .kyendTime t => mtOk t
  | .kyendOwner t => mtOk t
  | .kyendLog t n => mtOk t && logCountOk n
  | .kyendMeter t => mtOk t
  | .kyendPeek t off count => mtOk t && below 16777216 off && peekOk count
  | .kyendPoke t off v => mtOk t && below 16777216 off && word32 v
  | .kyendTrace t mask => mtOk t && optBelow 256 mask
  | .kyendYarrow t p => mtOk t && below 544 p
  | .supplyLowEnd t _ => mtOk t
  | .standbyPathLoss t => mtOk t
  | .peerKeyReply t port d nonce rnd => mtOk t && below 4 port && dgOk d && len32 nonce && len32 rnd
  | .peerFrameDiscard t port f dstRank => mtOk t && below 4 port && frameOk f && below 64 dstRank
  | .dieSupervisorReloadDone t die => mtOk t && below 4 die
  | .yarrowRequestCancel t => mtOk t
  | .droopEnd t g => mtOk t && below 32 g

end Sys2Proof
end

