-- ==== Sys2Proof/Decode.lean ====
section
/-! DEFINITION. The command that a word spells. spec/opcode_table.json gives no row any bits: the commands of this block
are happenings, not words, so no word spells one and the answer is always none. -/

namespace Sys2Proof

/-- The command that the `nbits` bits of `w` spell: none, because no row of the table has an encoding. -/
def decodeTableWord (_nbits _w : Nat) : Option Instr := none

end Sys2Proof
end

