-- ==== Sys2Proof/Config.lean ====
section
/-! DEFINITION. What the manual leaves to an outside standard or leaves open: uninterpreted constants
without a body. No proof can see a value of theirs, so a statement holds for every value. -/

namespace Sys2Proof.Config

/-- The free value of an unspecified byte (R231, R408, R182, R186, R153): read number `n` of a run. -/
opaque freeByte : Nat → Byte

/-- The free value of an unspecified poison mark (R408): "It may carry poison marks". -/
opaque freePoison : Nat → Bool

/-- The quotient of R192 where the spec states none: a zero divisor, or an infinity by an infinity; dividend and divisor. -/
opaque openQuotient : BitVec 32 → BitVec 32 → BitVec 32

/-- SHAKE256 (FIPS 202) of a byte string, with an output of the given number of bytes (R371, R381). -/
opaque shake256 : Nat → List Byte → List Byte

/-- KMAC256 (SP 800-185): output bytes, key, message, customisation string (R316, R324, R327). -/
opaque kmac256 : Nat → List Byte → List Byte → String → List Byte

/-- AES-256-GCM (R316): key, 12-byte nonce, additional data, plain text; cipher text and tag. -/
opaque gcmSeal : List Byte → List Byte → List Byte → List Byte → List Byte × List Byte

/-- AES-256-GCM opening (R316): key, nonce, additional data, cipher text; the plain text. -/
opaque gcmOpen : List Byte → List Byte → List Byte → List Byte → List Byte

/-- ML-DSA-65 verification (FIPS 204): public key, message, signature, context string. -/
opaque mlDsaVerify : List Byte → List Byte → List Byte → String → Bool

/-- ML-DSA-65 hedged signing (R433): private seed, message, context string, random bytes. -/
opaque mlDsaSign : List Byte → List Byte → String → List Byte → List Byte

/-- ML-DSA-65 KeyGen_internal (R431): the public key of a 32-byte seed. -/
opaque mlDsaPublic : List Byte → List Byte

/-- ML-KEM-768 KeyGen_internal (R431): the public key of the 64-byte seed d and z. -/
opaque mlKemPublic : List Byte → List Byte

/-- ML-KEM-768 decapsulation (FIPS 203): 64-byte seed, cipher text; the shared secret. -/
opaque mlKemDecap : List Byte → List Byte → List Byte

/-- ML-KEM-768 encapsulation (R350, initiator): public key, random bytes; shared secret and cipher text. -/
opaque mlKemEncap : List Byte → List Byte → List Byte × List Byte

/-- The fuzzy extractor of R431: PUF power-up contents and helper data; the seed K, or none. -/
opaque pufRecover : List Byte → List Byte → Option (List Byte)

/-- The 64-byte digest of the vendor root key that the mask ROM holds (R430). -/
opaque romRootDigest : List Byte

/-- The measurement of the mask ROM taken at step 3 (R438, M_ROM). -/
opaque romMeasurement : List Byte

/-- The private seed of the meter key, which never leaves the metrology die (R440, R447). -/
opaque meterSeed : List Byte

/-- The digest of the metrology die's fixed firmware (R447, METER_FW). -/
opaque meterFirmwareDigest : List Byte

/-- Whether a module asks for an encrypted peer session as initiator (R350): ENC of its ENCAP, which the manual leaves open. -/
opaque peerEnc : Bool

end Sys2Proof.Config
end

