-- ==== Sys2Proof/Machine/State.lean ====
section
/-! DEFINITION. The state of the module as plain data: every register, queue, buffer, memory, mode and pin the
spec gives it, the two closed inductives of stops, and the state right after AO power-up. Each field's comment
names the rule that gives it, its width, and its reset value where that is not the field's default or comes
from a log entry (DESIGN CHOICE). A default written `:=` IS the reset value. -/

namespace Sys2Proof.Machine

/-- A table with natural keys, sparse, in rising key order; what an unlisted key holds is said at each use. -/
abbrev Tbl (α : Type) := List (Nat × α)

/-- Memory bytes in the canonical form: addresses strictly rising, no byte equal to 0 (unlisted bytes are 0). -/
abbrev Cells := List Host.Cell

/-! ## Values -/

/-- An exact floating value (R28 to R34): NaN, a signed infinity, or a sign, a magnitude and a power of two. -/
inductive Num where
  | nan
  | inf (neg : Bool)
  | fin (neg : Bool) (man : Nat) (exp : Int)
deriving DecidableEq, Repr

/-- The value of one tensor element: an integer type's number or a floating type's (R24, R25). -/
inductive Val where
  | int (v : Int)
  | num (x : Num)
deriving DecidableEq, Repr

/-- One product's two operand values (R31, R104); a sum without a product pairs its term with 1. -/
structure Term where
  a : Val
  b : Val
deriving DecidableEq, Repr

/-! ## Start, configuration, flash -/

/-- The module states of R378. -/
inductive ModState where
  | starting
  | ready
  | haltedConfig
  | haltedFirmware
  | haltedHardware
deriving DecidableEq, Repr

/-- The configuration flash (R370); it keeps its contents through power-downs. -/
structure Flash where
  /-- 12 R370 R371 | 131,072 bytes, slot A's block | empty, DESIGN CHOICE log 5 -/
  slotA : Cells := []
  /-- 12 R370 R371 | 131,072 bytes, slot B's block | empty, DESIGN CHOICE log 5 -/
  slotB : Cells := []
  /-- 12 R370, 14 R431 | PUF helper data bytes | empty, DESIGN CHOICE log 5 -/
  helper : List Byte := []
  /-- 12 R370, 14 R434 | certificate bundle, 23,616 bytes | empty, DESIGN CHOICE log 5 -/
  certs : List Byte := []
  /-- 12 R370 R381 | the single firmware image, up to 8 MiB | empty, DESIGN CHOICE log 5 -/
  image : List Byte := []
  /-- 12 R381 FLASH_VALID | 1 bit: the flash image passes its own digest | 1 -/
  imageValid : Bool := true
  /-- 05 R161 | the scratchpad repair table, in append order | empty, DESIGN CHOICE log 5 -/
  repair : List RepairEntry := []
  /-- 08 R259 | the HBM retirement list, frame numbers in append order | empty, DESIGN CHOICE log 5 -/
  retired : List Nat := []
  /-- 05 R161 | field repairs switched but not yet appended | empty -/
  repairPending : List RepairEntry := []
  /-- 08 R259 | retirements made but not yet appended | empty -/
  retiredPending : List Nat := []
deriving DecidableEq, Repr

/-- Control and start state (12). -/
structure Control where
  /-- 12 R389, 16 R486 | 1 bit: the domains other than AO have power | 0 until the start sequence, DESIGN CHOICE log 4 -/
  powered : Bool := false
  /-- 12 R389 R393 R398 | 1 bit: powered down, waiting for the supply | 0 -/
  down : Bool := false
  /-- 12 R378 MOD_STATE.STATE | 4 bits | STARTING -/
  modState : ModState := .starting
  /-- 12 R381 MOD_STATE.STEP | 4 bits | 1, DESIGN CHOICE log 4 -/
  step : Nat := 1
  /-- 12 R381 MOD_STATE.DEGRADED | 1 bit | 0 -/
  degraded : Bool := false
  /-- 12 R381 MOD_STATE.CFG_FALLBACK | 1 bit | 0 -/
  cfgFallback : Bool := false
  /-- 12 R372 | 1 bit: the running block came from slot B | 0, DESIGN CHOICE log 4 -/
  runningB : Bool := false
  /-- 12 R373 to R376 | the block in force, 131,072 bytes | empty, DESIGN CHOICE log 4 -/
  cfg : Cells := []
  /-- 14 R438 D_STAGED | 64-byte digest of a staged block, or none | none -/
  staged : Option (List Byte) := none
  /-- 15 R475 | the halt record of the AO domain: step and failing check | none -/
  halt : Option (Nat × String) := none
  /-- 12 R380 | events to post at READY, as (code, mechanism, RESOURCE, P0) | empty -/
  readyEvents : List (Nat × Nat × Nat × Nat) := []
  /-- 12 R380 | logical clusters whose remount is the first act after READY | empty -/
  readyRemounts : List Nat := []
  /-- 12 R383 ID_FW_VERSION, 15 R458 | 32 bits: version in force | 0, DESIGN CHOICE log 4 -/
  fwVersion : Nat := 0
  /-- 14 R438 M_FW | 64-byte digest of the image in force | empty, DESIGN CHOICE log 4 -/
  fwMeasure : List Byte := []
  /-- 12 R383 | the old code banks are still held | 0 -/
  oldBanks : Bool := false
  /-- 12 R381 MOD_LOAD_VA_LO | 32 bits | 0 -/
  loadVaLo : Nat := 0
  /-- 12 R381 MOD_LOAD_VA_HI | 16 bits | 0 -/
  loadVaHi : Nat := 0
  /-- 12 R381 MOD_LOAD_CMD.JOB_ID | 16 bits | 0 -/
  loadJob : Nat := 0
  /-- 12 R381 MOD_LOAD_CMD.KIND | 1 bit | 0 -/
  loadKind : Nat := 0
  /-- 12 R381 MOD_LOAD_STATUS.RESULT | 8 bits | 0 -/
  loadResult : Nat := 0
  /-- 12 R381 MOD_LOAD_STATUS.PHASE | 4 bits | 0 -/
  loadPhase : Nat := 0
  /-- 12 R367 | members of the module supervisor's vote, cores 0 to 3 | 0 to 2 -/
  modVote : List Nat := [0, 1, 2]
  /-- 12 R367 | the module supervisor's hot spare core | core 3 -/
  modSpare : Option Nat := some 3
  /-- 12 R367 | members of each die supervisor's vote, unlisted: cores 0 to 2 | unlisted -/
  dieVote : Tbl (List Nat) := []
  /-- 12 R380 | voting sets with a core that failed Primrose: dies 0 to 3, 4 the module supervisor | empty -/
  failedCores : List Nat := []
  /-- 12 R369 | dies without their supervisor | empty -/
  dieSupLost : List Nat := []
deriving DecidableEq, Repr

/-- Module Time and PTP (09 R284, R285). -/
structure Clock where
  /-- 00 R7, 09 R284 R285 | 64 bits: master MT | 0 -/
  mt : Nat := 0
  /-- 09 R285 | PTP: 0 not yet locked, 1 locked, 2 holdover | 0 -/
  ptp : Nat := 0
  /-- 09 R285 | last PTP offset in ns, corrected by slewing | 0, DESIGN CHOICE log 4 -/
  offsetNs : Int := 0
deriving DecidableEq, Repr

/-! ## Service memory -/

/-- Whose write it is: a unit's descriptor, a MEM_WRITE (session, generation, sequence; R319), a peer write (rank,
PSEQ, window; R357), results of a REDUCE round (window, GEN, first element, count; R359), or nobody's. -/
inductive Writer where
  | unit (r : DescRef)
  | host (session gen seq : Nat)
  | peer (rank pseq window : Nat)
  | result (window gen first count : Nat)
  | nobody
deriving DecidableEq, Repr

/-- One write that has reached the parity engine of its row and has not landed (R237, R253): the run's bytes
from physical address `pa` with a poison mark each (R267). `src` is the engine it came from (R239): a physical
cluster, 1000 for X (memory messages, peer writes). -/
structure PendingWrite where
  src : Nat
  pa : Nat
  bytes : List (Byte × Bool)
  who : Writer
deriving DecidableEq, Repr

/-- A lost region (R255): a pseudo-channel or a stack, and whether its rebuild has completed (R257). `holes` are the
pseudo-channels (none: all) of regions that were lost beside it at its rebuild: rows that no rebuild recovers. -/
structure LostRegion where
  stack : Nat
  pc : Option Nat
  rebuilt : Bool
  holes : List (Option Nat) := []
deriving DecidableEq, Repr

/-- One line of a weight cache (R245): 256 bytes with the poison of its granules. Lists hold the most recently
used line first. -/
structure CacheLine where
  pa : Nat
  bytes : List Byte
  poison : List Bool
deriving DecidableEq, Repr

/-- One cached translation (R264): die 0 to 3, or 4 for X; job; virtual page; the leaf entry. -/
structure TlbEntry where
  die : Nat
  job : Nat
  vpn : Nat
  leaf : Nat
deriving DecidableEq, Repr

/-- HBM, parity, retirement, caches (08). -/
structure Hbm where
  /-- 08 R251 R268 | bytes of the data space by data address (after the frame map) | all 0 -/
  data : Cells := []
  /-- 08 R250 | poisoned data granules, by data address div 64 | none -/
  poison : List Nat := []
  /-- 08 R251 R253 | parity bytes, key 4,096 x row + byte | all 0 -/
  parity : Cells := []
  /-- 08 R254 POISON_SEEN | per parity granule, key 64 x row + granule | none -/
  poisonSeen : List Nat := []
  /-- 08 R255 | lost pseudo-channels and stacks | none -/
  lost : List LostRegion := []
  /-- 08 R259 | stack units added to the lost region one by one, key stack x 2^25 + unit | none -/
  lostUnits : List Nat := []
  /-- 08 R259 | data frame map: service frame to pool frame; unlisted maps to itself | identity -/
  frameMap : Tbl Nat := []
  /-- 08 R259 HBM_POOL_FREE | pool frames taken so far | 0 -/
  poolUsed : Nat := 0
  /-- 08 R253 | writes waiting at the parity engines, in arrival order | none -/
  pending : List PendingWrite := []
  /-- 08 R259 | corrected patrol visits of a granule: granule, MTs within 7 days | none -/
  scrubHits : Tbl (List Nat) := []
  /-- 08 R259 | data units that have reached the retirement threshold | none -/
  retireDue : List Nat := []
  /-- 15 R462 HBM_CE | 32 bits per stack | 0 -/
  ce : Tbl Nat := []
  /-- 15 R462 HBM_UE | 32 bits per stack | 0 -/
  ue : Tbl Nat := []
  /-- 15 R462 HBM_ODECC | 32 bits per stack | 0 -/
  odecc : Tbl Nat := []
  /-- 15 R462 HBM_STATUS.TEMP_C | 8 bits per stack, measured at the start | 0, DESIGN CHOICE log 4 -/
  temp : Tbl Nat := []
  /-- 08 R256, 15 R462 HBM_GUARD.REBUILDING | 1 bit | 0 -/
  rebuilding : Bool := false
  /-- 15 R462 HBM_REBUILD.PROGRESS | 16 bits | 0 -/
  rebuildProgress : Nat := 0
  /-- 15 R462 HBM_SCRUB.PROGRESS | 16 bits | 0 -/
  scrubProgress : Nat := 0
  /-- 08 R245 | the four weight caches: die to its lines, most recently used first | empty -/
  caches : Tbl (List CacheLine) := []
  /-- 08 R247 | corrected cache errors per die | 0, DESIGN CHOICE log 4 -/
  cacheCe : Tbl Nat := []
  /-- 08 R264 | translation caches of the dies and X, oldest first | empty -/
  tlb : List TlbEntry := []
deriving DecidableEq, Repr

/-! ## Reins -/

/-- One Reins counter (R276). -/
structure Counter where
  value : Word := 0
  epoch : Nat := 0
deriving DecidableEq, Repr

/-- One unreleased barrier arrival (R282): requester, the unit's descriptor for a BARRIER descriptor. -/
structure Arrival where
  req : Nat
  ref : Option DescRef
deriving DecidableEq, Repr

/-- One barrier (R281): its arrivals of the current generation stand in `arrivals`, in order. -/
structure Barrier where
  gen : Nat := 0
  parties : Nat := 0
  arrivals : List Arrival := []
deriving DecidableEq, Repr

/-- One held compare-wait (R276, R279), in the order in which the homes applied them. -/
structure Wait where
  ctr : Nat
  req : Nat
  target : Nat
  equal : Bool
  epoch : Option Nat
  ref : Option DescRef
deriving DecidableEq, Repr

/-- A Reins response (R275, R276): requester, counter, the value or REFUSED (none), the epoch for a read, and
the MT at which it arrives. -/
structure Response where
  req : Nat
  ctr : Nat
  value : Option Nat
  epoch : Option Nat
  arrives : Nat
deriving DecidableEq, Repr

/-- The Reins (09). -/
structure Reins where
  /-- 09 R276 R303 | 65,536 counters of 32 + 8 bits; unlisted: value 0, epoch 0 | 0 -/
  counters : Tbl Counter := []
  /-- 09 R281 R303 | 4,096 barriers of 8 + 17 + 17 bits; unlisted: generation 0, no arrivals | 0 -/
  barriers : Tbl Barrier := []
  /-- 09 R279 R303 | the wait tables of the homes, in application order | empty -/
  waits : List Wait := []
  /-- 09 R275 | responses on their way to their senders | empty -/
  responses : List Response := []
  /-- 09 R274 | (release MT, requester) of the operation each home applied last; homes 0 to 3 are C0 to C3, 4 is X | none -/
  lastApplied : Tbl (Nat × Nat) := []
  /-- 09 R271, 15 R464 RN_PLANE_STATUS | planes in the vote | 0, 1, 2 -/
  inVote : List Nat := [0, 1, 2]
  /-- 15 R464 RN_PLANE_ERR | 32 bits per plane | 0 -/
  planeErr : Tbl Nat := []
  /-- 09 R271 | MTs of the plane errors of the last 1 ms, per plane | empty -/
  errTimes : Tbl (List Nat) := []
  /-- 09 R271 | planes declared failed and awaiting resynchronisation | empty -/
  resync : List Nat := []
  /-- 09 R280 RN_CTR_SEL | 16 bits | 0 -/
  ctrSel : Nat := 0
  /-- 15 R464 RN_BAR_SEL | 12 bits | 0 -/
  barSel : Nat := 0
  /-- 09 R277 | last work-counter pair allocated; 2,047 makes pair 0 the first | 2047, DESIGN CHOICE log 4 -/
  lastPair : Nat := 2047
  /-- 09 R277 | work-counter pairs in use | empty -/
  pairsUsed : List Nat := []
  /-- 09 R286 | MT of the last heartbeat of each sender, by requester number | 0, DESIGN CHOICE log 4 -/
  lastBeat : Tbl Nat := []
deriving DecidableEq, Repr

/-! ## Paddock -/

/-- A ticket notice of an inbox (R224): the descriptor, its two counters (by pair), their epoch and the count. -/
structure TicketNotice where
  ref : DescRef
  pair : Nat
  epoch : Nat
  count : Nat
deriving DecidableEq, Repr

/-- A Paddock item (R292): the 32-byte tag's fields, the payload bytes, the ticket notice an inbox item carries,
and whether it is the queue's own GAP marker in its reserved cell (R295). -/
structure Item where
  kind : Nat := 2
  hasWu : Bool := false
  poison : Bool := false
  cells : Nat := 1
  source : Nat := 0
  seq : Nat := 0
  mt : Nat := 0
  wuId : Nat := 0
  epoch : Nat := 0
  payload : List Byte := []
  notice : Option TicketNotice := none
  marker : Bool := false
deriving DecidableEq, Repr

/-- The Paddock (09). A queue's key is 4,096 x pool + queue. -/
structure Paddock where
  /-- 09 R288 R289 R303 | the visible queues' items in order, each queue's marker in its place | empty -/
  queues : Tbl (List Item) := []
  /-- 09 R292 | 32 bits: next SEQ, key 1,024 x pool + source | 0 -/
  seqNext : Tbl Nat := []
  /-- 09 R297 | 32 bits: next marker SEQ per pool | 0 -/
  markerSeq : Tbl Nat := []
  /-- 15 R464 PDK_CE_COUNT | 32 bits per pool | 0 -/
  ce : Tbl Nat := []
deriving DecidableEq, Repr

/-! ## Sessions, bridle, host port -/

/-- A sequenced message held for retransmission (R318, R320, R322); `notice` is the queue key and item of a
notice. -/
structure Held where
  seq : Nat
  typ : Nat
  body : List Byte
  repeatBit : Bool
  firstTx : Nat
  lastTx : Nat
  timeout : Nat
  tries : Nat
  notice : Option (Nat × Item)
deriving DecidableEq, Repr

/-- One session (R316 to R328), of a host or of a peer port (R349). -/
structure Session where
  num : Nat
  gen : Nat
  key : Nat
  enc : Bool
  tagRx : List Byte := []
  tagTx : List Byte := []
  encRx : List Byte := []
  encTx : List Byte := []
  saltRx : List Byte := []
  saltTx : List Byte := []
  lastRx : Nat := 0
  rxHigh : Nat := 0
  rxXmits : List Nat := []
  rxCum : Nat := 0
  rxSeqs : List Nat := []
  rxLow : Nat := 0
  rxBusy : List Nat := []
  txNext : Nat := 1
  txLow : Nat := 1
  txXmit : Nat := 0
  held : List Held := []
  srtt : Option Nat := none
  rttvar : Nat := 0
deriving DecidableEq, Repr

/-- The election of R337: its closing MT and its entrants (session, generation, key index, CLAIM sequence). -/
structure Election where
  closeAt : Nat
  entrants : List (Nat × Nat × Nat × Nat)
deriving DecidableEq, Repr

/-- What has left the module (the model's own record of its outputs, newest first, log 9). -/
inductive Sent where
  | imp (t : Nat) (lk : Link) (session gen typ : Nat) (enc repeatBit response : Bool) (seq low mt xmit : Nat)
      (body tag : List Byte)
  | arpReply (t : Nat) (target senderIp senderMac : List Byte)
  | gratuitousArp (t path : Nat) (ip : List Byte)
  | neighborAdvert (t : Nat) (target dst : List Byte)
  | unsolicitedAdvert (t path : Nat) (ip : List Byte)
  | echoReply (t : Nat) (src dst payload : List Byte)
  | arpRequest (t : Nat) (ip : List Byte)
  | peerPattern (t port : Nat)
deriving DecidableEq, Repr

/-- A port's counters of R463. -/
structure PortCounters where
  rxFrames : Nat := 0
  txFrames : Nat := 0
  dropFcs : Nat := 0
  dropLen : Nat := 0
  dropAddr : Nat := 0
  fecCorr : Nat := 0
  fecUncorr : Nat := 0
  ipDrop : Nat := 0
  impDrop : Tbl Nat := []
deriving DecidableEq, Repr

/-- The host port, sessions and the bridle (10). -/
structure HostPort where
  /-- 10 R323 R343 | up to 64 sessions | none -/
  sessions : List Session := []
  /-- 10 R323 | session number last assigned; 63 makes 0 the first | 63, DESIGN CHOICE log 4 -/
  lastNum : Nat := 63
  /-- 10 R323 SESSION_GEN | 32 bits: sessions opened since start | 0 -/
  genCount : Nat := 0
  /-- 10 R324 | issued nonces with their issue MT, newest first, at most 256 | none -/
  nonces : List (List Byte × Nat) := []
  /-- 10 R324 | MTs of the HELLOs answered in the last second | none -/
  helloTimes : List Nat := []
  /-- 10 R307 | MTs of the ARP, neighbour and echo answers of the last second | none -/
  replyTimes : List Nat := []
  /-- 10 R307 | resolved next hops: address, MAC, MT of resolution; at most 256 | none -/
  nextHops : List (List Byte × List Byte × Nat) := []
  /-- 10 R336 R337 | the owner's session number and generation | vacant -/
  owner : Option (Nat × Nat) := none
  /-- 10 R338 LEASE_END | 64 bits | 0, DESIGN CHOICE log 4 -/
  leaseEnd : Nat := 0
  /-- 10 R337 | the open election | none -/
  election : Option Election := none
  /-- 10 R312 ACTIVE | 1 bit: 0 path A, 1 path B | 0 -/
  active : Nat := 0
  /-- 10 R312 STANDBY_STATE | 2 bits | 0b10 -/
  standby : Nat := 2
  /-- 10 R312 LOST_SEEN | 1 bit | 0 -/
  lostSeen : Bool := false
  /-- 10 R313 R343 | the port is down | 1 until step 6, DESIGN CHOICE log 4 -/
  down : Bool := true
  /-- 15 R463 | the HOST port's counters | 0 -/
  ctr : PortCounters := {}
  /-- 10 R322 | notices not yet acknowledged by an earlier owner, oldest first | none -/
  returned : List (Nat × Item) := []
  /-- 10 R329 to R335 | the model's record of everything sent, newest first | none, log 9 -/
  sent : List Sent := []
deriving DecidableEq, Repr

/-! ## Tensors, descriptors, units -/

/-- The header of an HPF, NM or BITMAP tensor as read at issue (R40). -/
structure HpfHeader where
  wide : Bool
  ety : Nat
  kinds : List Nat
  dims : List Nat
  nm : Nat
  nnz : Nat
  sizes : List Nat
  ptrOff : Nat
  coordOff : Nat
  valOff : Nat
  segOff : Nat
deriving DecidableEq, Repr

/-- The header of an exchange tensor as read at issue (R59). -/
structure ExchangeHeader where
  sorted : Bool
  wide : Bool
  ety : Nat
  format : Nat
  blockLog2 : Nat
  count : Nat
  rows : Nat
  cols : Nat
  arr0 : Nat
  arr1 : Nat
  arr2 : Nat
deriving DecidableEq, Repr

/-- A tensor as a descriptor's issue fixes it (R174 to R178): base after the loop advance, run-time sizes,
strides in elements, the headers read. -/
structure TView where
  fmt : Nat
  ety : Nat
  rank : Nat
  spd : Bool
  resident : Bool
  buf : Nat
  base : Nat
  sizes : List Nat
  strides : List Int
  job : Nat
  hdr : Option HpfHeader
  xhdr : Option ExchangeHeader
deriving DecidableEq, Repr

/-- One ticket (R216, R217): its position, its tile's rank, and its row, column and reduced ranges. -/
structure Ticket where
  b : Nat
  rho : Nat
  sigma : Nat
  kappa : Nat
  tile : Nat
  m0 : Nat
  m1 : Nat
  n0 : Nat
  n1 : Nat
  k0 : Nat
  k1 : Nat
  weight : Nat
deriving DecidableEq, Repr

/-- One output's contribution to its tree (R122): an INT64 sum, an FP32 pair, a winner with its index. -/
inductive LeafVal where
  | i64 (v : Int)
  | pair (s e : F32)
  | win (v : Val) (idx : Nat)
deriving DecidableEq, Repr

/-- A leaf or node result of a split tile (R122, R227): tile, the piece range it covers, its values in row-major
order and their poison marks. -/
structure TreeEntry where
  tile : Nat
  lo : Nat
  hi : Nat
  vals : List (Option LeafVal)
  bad : List Bool
deriving DecidableEq, Repr

/-- A per-tile row statistic waiting for its row tree (R118, R228): batch, row range, column tile, per-row
(m, z or l) and poison. -/
structure StatLeaf where
  b : Nat
  rho : Nat
  sigma : Nat
  rows : List (F32 × F32)
  bad : List Bool
deriving DecidableEq, Repr

/-- A kept entry of a sparse output (R121, R495): row range, row, column, narrowed bits, step-2 value, tile poison. -/
structure Staged where
  rho : Nat
  row : Nat
  col : Nat
  narrowed : Val
  full : Val
  bad : Bool
deriving DecidableEq, Repr

/-- One output value after step 2 of R111: its tile, the tensor slot it goes to, its index, its poison. -/
structure OutVal where
  tile : Nat
  slot : Nat
  idx : List Nat
  v : Val
  bad : Bool
deriving DecidableEq, Repr

/-- One window (R355). -/
structure Window where
  kind : Nat := 0
  etype : Nat := 0
  job : Nat := 0
  vaPage : Nat := 0
  pages : Nat := 0
  dest : Nat := 0
  ranksLo : Nat := 0
  ranksHi : Nat := 0
  gen : Nat := 0
  ctr : Nat := 0
deriving DecidableEq, Repr

/-- An issued descriptor (R185) in the layer of its unit. `clashOut`: tensors (own inputs, R182; regions of unfenced
descriptors, R186) whose bytes leave an output element that shares one unspecified; `clashIn`: tensors whose bytes leave
unspecified what is computed from an input element that shares one. -/
structure DRun where
  ref : DescRef
  op : Nat
  raw : List Byte
  tens : List (Option TView)
  members : List Nat
  m : Nat := 0
  n : Nat := 0
  k : Nat := 0
  batch : List Nat := []
  comp : Bool := false
  isInt : Bool := false
  tickets : List Ticket := []
  order : List Nat := []
  tiles : Nat := 0
  pair : Option Nat := none
  pairEpoch : Nat := 0
  posted : Bool := false
  taken : List Nat := []
  done : List Nat := []
  trees : List TreeEntry := []
  rooted : List Nat := []
  stats : List StatLeaf := []
  staged : List Staged := []
  held : List OutVal := []
  wins : Tbl Window := []
  counts : List (Nat × Nat × Nat) := []
  phase : Nat := 0
  emptyShape : Bool := false
  scaled : Bool := false
  satPersist : Bool := false
  shift : Nat := 0
  clashOut : List TView := []
  clashIn : List TView := []
  waiting : Bool := false
  peerSent : List (Nat × Nat × Nat) := []
  reduced : List (Nat × Nat × Nat) := []
  complete : Bool := false
deriving DecidableEq, Repr

/-- A cause of discard (R405): MT_CAUSE, reason code and RESOURCE; `key` orders poisoned reads (R407): issue reads in
chain order, then tickets in chain and position order. -/
structure Cause where
  mt : Nat
  reason : Nat
  resource : Nat
  key : List Nat := []
deriving DecidableEq, Repr

/-- The loop a unit is in (R200): index of its TICKET_LOOP, body length, tickets in all, current ticket. -/
structure LoopRun where
  at_ : Nat
  len : Nat
  count : Nat
  ticket : Nat
deriving DecidableEq, Repr

/-- A work unit in flight (R163 to R167, R416). `queued` until CHAIN_CHOOSE has moved it to the candidate table. -/
structure WorkUnit where
  wuId : Nat
  epoch : Nat
  header : List Byte
  arrival : Nat
  queued : Bool := true
  descs : List (List Byte) := []
  tensors : List (List Byte) := []
  next : Nat := 0
  loop : Option LoopRun := none
  runs : List DRun := []
  started : Bool := false
  holds : List Nat := []
  touched : List Nat := []
  touchedPcs : List (Nat × Nat) := []
  windows : List Nat := []
  rounds : List (Nat × Nat) := []
  mtIssue : Option Nat := none
  mtStart : Option Nat := none
  mtEnd : Nat := 0
  fwVersion : Nat := 0
  status : Nat := 0
  statusIdx : Nat := 0
  statusTicket : Nat := 0
  statusAny : Bool := false
  maxShift : Nat := 0
  causes : List Cause := []
  decided : Bool := false
  confirmed : List Nat := []
deriving DecidableEq, Repr

/-- A retired identifier (R417): WU_ID, last EPOCH, release MT, and whether its quarantine has ended. -/
structure Retired where
  wuId : Nat
  epoch : Nat
  mt : Nat
  ended : Bool
deriving DecidableEq, Repr

/-- A function being disabled (R425). -/
inductive DisableKind where
  | job (slot id : Nat)
  | window (w reg v : Nat)
  | group
  | retire (l : Nat)
deriving DecidableEq, Repr

/-- A disable in progress or waiting (R425): what, the register offset, the MT of its timeout, whether it passed. -/
structure Disable where
  kind : DisableKind
  off : Nat
  deadline : Nat
  timedOut : Bool
  who : Option (Nat × Nat × Nat) := none
deriving DecidableEq, Repr

/-- One slot of the job table (R459). `closing`: VALID reads 0, and units in flight still use the job (R266). -/
structure JobSlot where
  rootLo : Nat := 0
  rootHi : Nat := 0
  valid : Bool := false
  closing : Bool := false
  refused : Bool := false
  choice : Nat := 0
  jobId : Nat := 0
deriving DecidableEq, Repr

/-- The dispatcher, the job table and residency (06, 07, 08, 13). -/
structure Dispatcher where
  /-- 06 R163, 13 R416 | the units in flight, oldest first; those not queued fill the candidate table of 4,096 (R207) | none -/
  units : List WorkUnit := []
  /-- 07 R207 | next arrival number | 0, DESIGN CHOICE log 4 -/
  arrivalNext : Nat := 0
  /-- 13 R417 R429 | the retired-identifier table, oldest first, at most 131,072 | empty -/
  retired : List Retired := []
  /-- 13 R425 FLT_DISABLE | the disable in progress, then those waiting behind it | none -/
  disables : List Disable := []
  /-- 13 R428 FLT_DISABLE.OFFSET | 24 bits | 0 -/
  disableOff : Nat := 0
  /-- 13 R421 | the dispatcher and tile walker are restarting | 0 -/
  restarting : Bool := false
  /-- 15 R459 MOD_JOB_SEL | 10 bits | 0 -/
  jobSel : Nat := 0
  /-- 15 R459 | the job table of 1,024 slots; unlisted: all 0 | 0 -/
  jobs : Tbl JobSlot := []
  /-- 06 R201 | residency records: logical cluster, job, buffer number | empty -/
  residency : List (Nat × Nat × Nat) := []
deriving DecidableEq, Repr

/-! ## Clusters -/

/-- The roles of CLU_STATE.ROLE (R461). -/
inductive Role where
  | serving
  | spare
  | failedRetest
  | failed
  | retired
deriving DecidableEq, Repr

/-- The cluster power states of R385, numbered as CLU_STATE.POWER. -/
inductive PowerState where
  | active
  | gated
  | asleep
  | off
deriving DecidableEq, Repr

/-- One accumulator entry with its error entry, saturation mark, residue entry and product count (R88, R95, R104). -/
structure Acc where
  v : F32 := 0
  err : F32 := 0
  mark : Bool := false
  res : Nat := 0
  count : Nat := 0
deriving DecidableEq, Repr

/-- A ticket whose passes run (R95 to R105): its number in the take order and its rank in position order, the operand
terms of every pass, per output in row-major order, as its walk read them, the poison marks of each pass (by MMC, R93),
which outputs are written (R112), useful MACs of each pass and peak MACs per cycle (R87), the pass now in the fill tile
with its shift and entries, and the span and stall cycles so far. -/
structure Running where
  ref : DescRef
  number : Nat
  rank : Nat
  tk : Ticket
  passes : List (List (List Term))
  bads : List (List Bool)
  live : List Bool
  useful : List Nat
  rate : Nat
  pass : Nat
  shift : Nat
  fill : List Acc
  cycles : Nat
  stalls : Nat
deriving DecidableEq, Repr

/-- The drain tile (R97, R101): what pass it came from, whether it is the last, its entries, its shift. -/
structure Drain where
  ref : DescRef
  rank : Nat
  tk : Ticket
  pass : Nat
  last : Bool
  shift : Nat
  acc : List Acc
  bad : List Bool
  live : List Bool
deriving DecidableEq, Repr

/-- One request of a stream engine (R235): a read lands `pieces` (source bit, scratchpad bit, width); a write
carries bytes with poison. -/
structure StreamReq where
  tag : Nat
  write : Bool
  job : Nat
  va : Nat
  len : Nat
  pieces : List (Nat × Nat × Nat)
  bytes : List (Byte × Bool)
  ref : DescRef
deriving DecidableEq, Repr

/-- A scratchpad (R127 to R135): data bytes by address, poisoned words, and the stored bits that differ from a
valid codeword (physical word number: error mask). -/
structure Spad where
  bytes : Cells := []
  poison : List Nat := []
  upset : Tbl StoredWord := []
deriving DecidableEq, Repr

/-- One physical cluster (R461 and chapters 03 to 05, 12, 13). -/
structure Cluster where
  role : Role := .serving
  power : PowerState := .asleep
  halter : Bool := false
  fails : Nat := 0
  lastMech : Nat := 0
  idleSince : Nat := 0
  activeSince : Nat := 0
  wakeDue : Option Nat := none
  wokeAt : Option Nat := none
  running : Option Running := none
  nextUp : Option Running := none
  drain : Option Drain := none
  wide : List (LeafVal × Bool) := []
  notices : List TicketNotice := []
  ticket : Nat := 0xFFFFFFFF
  stall : Nat := 0
  activeCyc : Nat := 0
  useful : Nat := 0
  peak : Nat := 0
  spdCe : Nat := 0
  spdUe : Nat := 0
  mcastMiss : Nat := 0
  spad : Spad := {}
  remap : List (Nat × Nat × Nat) := []
  spareUsed : Tbl Nat := []
  scrubCe : List (Nat × Nat × Nat) := []
  writeBack : List Nat := []
  mapDue : List (Nat × Nat) := []
  lastScrub : Nat := 0
  lastFrame : Nat := 0
  walk : List StreamReq := []
  outstanding : List StreamReq := []
  nextTag : Nat := 0
  mcastWait : List (Nat × Nat × Nat × Origin) := []
  lastVisit : Nat := 0
deriving DecidableEq, Repr

/-- A remount under way (R411): the logical number, the failed physical cluster, the spare that is to serve, and the buffer
numbers whose residency was removed at the failure. -/
structure Remount where
  l : Nat
  failed : Nat
  spare : Nat
  buffers : List Nat
deriving DecidableEq, Repr

/-- The logical map entry of one logical cluster (R461 CLU_LMAP). -/
structure LMap where
  p : Nat
  unserved : Bool
  absent : Bool
deriving DecidableEq, Repr

/-- The clusters (03 to 05, 13, 15). -/
structure Clusters where
  /-- 15 R461 and 03 to 05 | 544 physical clusters; unlisted: the defaults of `Cluster` | serving, ASLEEP, scratchpad 0 -/
  phys : Tbl Cluster := []
  /-- 15 R461 CLU_LMAP, 00 R4 | 512 logical numbers; unlisted: served by R4's cluster | by R4 -/
  lmap : Tbl LMap := []
  /-- 13 R411 | remounts onto a group's spare that are under way | none -/
  remounts : List Remount := []
  /-- 13 R423 FLT_YARROW.ENABLE | 1 bit | 1 -/
  yarrowOn : Bool := true
  /-- 13 R428 FLT_YARROW.FAILS | 16 bits | 0 -/
  yarrowFails : Nat := 0
  /-- 15 R467 DBG_YARROW_RESULT.PCLUSTER | 10 bits | 0 -/
  yarrowReq : Nat := 0
  /-- 15 R467 DBG_YARROW_RESULT.RESULT | 2 bits | 0 -/
  yarrowResult : Nat := 0
  /-- 15 R467 | MT of the last accepted debug request | 0, DESIGN CHOICE log 4 -/
  yarrowAt : Nat := 0
  /-- 15 R467 DBG_TRACE_CTRL | 8 bits | 0 -/
  trace : Nat := 0
deriving DecidableEq, Repr

/-! ## Power -/

/-- One cluster group's clock state (R387, R392 to R395). -/
structure Group where
  pllOn : Bool := false
  step : Nat := 0
  droop : Bool := false
  thermal : Bool := false
  stretchCyc : Nat := 0
  thermalSince : Nat := 0
  idleSince : Nat := 0
deriving DecidableEq, Repr

/-- Power, clocks, thermal (12). -/
structure Power where
  /-- 12 R395 PWR_CAP | 12 bits | CFG_POWER_CAP at the start; 0 before it, DESIGN CHOICE log 4 -/
  cap : Nat := 0
  /-- 12 R395 PWR_INPUT | 12 bits, measured | 0, DESIGN CHOICE log 4 -/
  inputW : Nat := 0
  /-- 12 R395 PWR_STEP.STEP | 3 bits | 0 -/
  step : Nat := 0
  /-- 12 R395 PWR_STEP.TARGET | 3 bits | 0 -/
  target : Nat := 0
  /-- 12 R395 PWR_CAP_OVER | 32 bits | 0 -/
  capOver : Nat := 0
  /-- 12 R391 | estimated power of each step, measured in Primrose | empty, DESIGN CHOICE log 4 -/
  estimates : List Nat := []
  /-- 12 R387 R392 R395 | 32 groups; unlisted: PLL off, step 0, no stretch | 0 -/
  groups : Tbl Group := []
  /-- 12 R393 | dies throttled since a junction reached 100 degrees; MT since when every junction was below 98 | none -/
  hot : Bool := false
  /-- 12 R393 | MT since which every junction has been below 98 degrees | none -/
  coolSince : Option Nat := none
  /-- 15 R465 PWR_TEMP.TEMP_C | 8 bits per die, measured | 0, DESIGN CHOICE log 4 -/
  temp : Tbl Nat := []
  /-- 15 R465 PWR_TEMP.PEAK_C | 8 bits per die, measured | 0, DESIGN CHOICE log 4 -/
  peak : Tbl Nat := []
  /-- 15 R465 PWR_SUPPLY.VOLT_CV | 16 bits, kept in mV, measured | 0, DESIGN CHOICE log 4 -/
  supplyMv : Nat := 0
  /-- 15 R465 PWR_SUPPLY.CURRENT_DA | 16 bits, measured | 0, DESIGN CHOICE log 4 -/
  currentDa : Nat := 0
  /-- 12 R389 | the supply lies between 40 V and 44 V | 0 -/
  low : Bool := false
deriving DecidableEq, Repr

/-! ## Faults -/

/-- Faults and events (13, 15). -/
structure Faults where
  /-- 15 R466 FLT_LOG_HEAD | 32 bits: records written since start | 0 -/
  logHead : Nat := 0
  /-- 15 R466 FLT_LOG_REC | the ring of 512 records of 64 bytes, by slot; unlisted: 0 | 0 -/
  log : Tbl (List Byte) := []
  /-- 13 R428 FLT_STALE_DROP | 32 bits | 0 -/
  staleDrop : Nat := 0
  /-- 13 R427 | conditions of reduced capacity now open: condition, its RESOURCE, FLT_CAPACITY at its start | none -/
  capacity : List (Nat × Nat × Nat) := []
  /-- 13 R419 | NoC link retries within 1 ms: key 256 x die + link, MTs | none -/
  nocRetries : Tbl (List Nat) := []
  /-- 13 R419 | NoC links rerouted around, key 256 x die + link | none -/
  nocDead : List Nat := []
  /-- 13 R420 | failed die-link lanes: key 4,096 x pair + UCIe module, count | none -/
  dieLanes : Tbl Nat := []
  /-- 12 R380, 13 R428 LAPSE_PEER | peer ports with no usable lane 8 at the start | none -/
  lapsePeer : List Nat := []
  /-- 12 R380, 13 R428 LAPSE_HBM | 1 bit: a stack failed at the start | 0 -/
  lapseHbm : Bool := false
  /-- 12 R388 | failed converter and regulator phases | none -/
  phases : List Nat := []
deriving DecidableEq, Repr

/-! ## Peer ports -/

/-- A value of one element in a REDUCE round (R359): position range, element, pair or INT64, poison. -/
structure RoundVal where
  lo : Nat
  hi : Nat
  elem : Nat
  v : LeafVal
  bad : Bool
deriving DecidableEq, Repr

/-- One REDUCE round of a window (R359, R361): GEN, MT of the first contribution, values present, elements whose
results have landed, elements this module has written, and writes held for the next round (R360). -/
structure Round where
  gen : Nat := 0
  first : Option Nat := none
  vals : List RoundVal := []
  landed : List Nat := []
  wrote : List Nat := []
  heldNext : List (Nat × Word × Bool × DescRef) := []
  early : List RoundVal := []
  writers : List (Nat × Nat) := []
  poisoned : Bool := false
deriving DecidableEq, Repr

/-- One peer port (R344 to R353). As initiator of R350 it holds the nonce of its HELLO, the parts of the partner's bundle
received so far, and the session it has asked for with the far rank and the CONFIRM it expects. -/
structure PeerPort where
  state : Nat := 0
  farRank : Nat := 0xFF
  spareFor : Nat := 0xF
  spareFailed : Bool := false
  lostSeen : Bool := false
  session : Option Session := none
  nonces : List (List Byte × Nat) := []
  nonceOut : List Byte := []
  parts : List (Nat × List Byte) := []
  opening : Option (Session × Nat × List Byte) := none
  lastPing : Nat := 0
  ctr : PortCounters := {}
deriving DecidableEq, Repr

/-- One rank's route (R351, R354). -/
structure Route where
  primary : Nat
  alt : Nat
  keySlot : Nat
deriving DecidableEq, Repr

/-- A peer write sent and not yet reported LANDED (R357, R358). -/
structure PeerOut where
  dst : Nat
  pseq : Nat
  window : Nat
  ref : DescRef
deriving DecidableEq, Repr

/-- Peer ports, windows, the group (11). -/
structure Peers where
  /-- 11 R353 | four ports; unlisted: down, no session | PRT_PEER_STATUS 0xFFF0_0000 -/
  ports : Tbl PeerPort := []
  /-- 11 R354 PRT_GROUP_CTRL.RANK | 8 bits | CFG_RANK at the start; 0 before it, DESIGN CHOICE log 4 -/
  rank : Nat := 0
  /-- 11 R354 SIZE | 8 bits | CFG_GROUP_SIZE at the start; 0 before it, DESIGN CHOICE log 4 -/
  size : Nat := 0
  /-- 11 R354 GEN | 8 bits | CFG_GROUP_GEN at the start; 0 before it, DESIGN CHOICE log 4 -/
  gen : Nat := 0
  /-- 11 R354 READY | 1 bit | 0 -/
  ready : Bool := false
  /-- 11 R354 PRT_GROUP_STAGE.NEW_RANK | 8 bits | CFG_RANK; 0 before the start, DESIGN CHOICE log 4 -/
  newRank : Nat := 0
  /-- 11 R354 NEW_SIZE | 8 bits | CFG_GROUP_SIZE; 0 before the start, DESIGN CHOICE log 4 -/
  newSize : Nat := 0
  /-- 11 R354 NEW_GEN | 8 bits | CFG_GROUP_GEN; 0 before the start, DESIGN CHOICE log 4 -/
  newGen : Nat := 0
  /-- 11 R351 R352 | live routes by rank; unlisted: no port | none -/
  routes : Tbl Route := []
  /-- 11 R354 PRT_ROUTE_STAGE | staged routes by rank, 14 bits each | from CFG_ROUTEd; none before the start -/
  stage : Tbl Route := []
  /-- 11 R355 R363 | 16 windows; unlisted: OFF | 0 -/
  windows : Tbl Window := []
  /-- 11 R357 | last PSEQ sent per destination rank | 0, DESIGN CHOICE log 4 -/
  pseqTx : Tbl Nat := []
  /-- 11 R357 | PSEQs received per source rank: highest, and those seen at or below it within 4,096 | none -/
  pseqRx : Tbl (Nat × List Nat) := []
  /-- 11 R357 | PSEQs landed per source rank, rising | none -/
  pseqLanded : Tbl (List Nat) := []
  /-- 11 R357 R358 | peer writes not yet reported LANDED | none -/
  out : List PeerOut := []
  /-- 11 R357 R358 | peer writes that wait to land: source rank, PSEQ, window | none -/
  landing : List (Nat × Nat × Nat) := []
  /-- 11 R358 | final LANDEDs acted on: source rank, PSEQ | none -/
  finals : List (Nat × Nat) := []
  /-- 11 R358 | final LANDEDs that wait for writes below them: source rank, window, PSEQ | none -/
  finalsWait : List (Nat × Nat × Nat) := []
  /-- 11 R359 | open REDUCE rounds per window | none -/
  rounds : Tbl Round := []
deriving DecidableEq, Repr

/-! ## Security and metrology -/

/-- Security state (14). Keys exist only inside the crypto engines (R432): no register or command shows them. -/
structure Security where
  /-- 14 R431 | 32-byte identity seed | empty, DESIGN CHOICE log 4 -/
  idSeed : List Byte := []
  /-- 14 R431 | 64-byte KEM seed | empty, DESIGN CHOICE log 4 -/
  kemSeed : List Byte := []
  /-- 14 R439 SEC_STATUS.ATTESTS | 16 bits | 0 -/
  attests : Nat := 0
  /-- 14 R439 METER_FW_KNOWN, SEC_M_METER_FW | the digest the metrology die reported | none -/
  meterFw : Option (List Byte) := none
  /-- 14 R439 KEYS_OK | 1 bit | 0 before step 4, DESIGN CHOICE log 4 -/
  keysOk : Bool := false
  /-- 14 R439 BUNDLE_OK | 1 bit | 0 before step 4, DESIGN CHOICE log 4 -/
  bundleOk : Bool := false
deriving DecidableEq, Repr

/-- A tap record on its one-way way to the metrology die (R441). -/
inductive TapRecord where
  | submitArrival (wu epoch mt : Nat)
  | readRequest (mt session gen : Nat) (owner : Bool) (body : List Byte)
  | completeDeparture (wu epoch mt : Nat)
  | completeEvent (wu epoch hdr89 emits status mtStart mtEnd mt : Nat)
  | faultLog (cell : List Byte)
deriving DecidableEq, Repr

/-- One (CONTRACT_ID, CLASS) account of an interval (R443, R448); key 8 x contract + class. -/
structure Account where
  units : Nat := 0
  emits : Nat := 0
  busy : Nat := 0
  untimed : Nat := 0
  bins : Tbl Nat := []
deriving DecidableEq, Repr

/-- Cumulative totals of one (CONTRACT_ID, CLASS) (R449). -/
structure Totals where
  emits : Nat := 0
  units : Nat := 0
  energy : Nat := 0
  busy : Nat := 0
deriving DecidableEq, Repr

/-- One reduced-capacity interval (R446, R448): its RESOURCE, start, end, condition, extent, and whether an earlier record
carried it already. -/
structure CapSlot where
  res : Nat
  start : Nat
  stop : Option Nat
  condition : Nat
  extent : Nat
  carried : Bool := false
deriving DecidableEq, Repr

/-- What the die gathers for one interval (R443, R448): accounts by 8 x contract + class, unmetered BUSY, EVICTED,
UNMATCHED, and the LATE mark of R442. -/
structure Gather where
  accounts : Tbl Account := []
  unmetered : Nat := 0
  evicted : Nat := 0
  unmatched : Nat := 0
  late : Bool := false
deriving DecidableEq, Repr

/-- A departure that waits for its completion event (R443): WU_ID, EPOCH, its MT, and the arrival MT of its entry. -/
structure Depart where
  wu : Nat
  epoch : Nat
  mt : Nat
  arrival : Option Nat
deriving DecidableEq, Repr

/-- The metrology die and its relay (14). The die keeps its state through the module's starts. -/
structure Meter where
  /-- 14 R441 | arrival tap: SUBMIT_ARRIVAL and READ_REQUEST records on their way | none -/
  arrivalTap : List TapRecord := []
  /-- 14 R441 | departure tap | none -/
  departTap : List TapRecord := []
  /-- 14 R441 | completion tap | none -/
  completionTap : List TapRecord := []
  /-- 14 R441 | fault-log tap | none -/
  faultTap : List TapRecord := []
  /-- 14 R443 | pending table: WU_ID, EPOCH, arrival MT, oldest first, at most 262,144 | none -/
  pending : List (Nat × Nat × Nat) := []
  /-- 14 R443 | completion events not yet matched by a departure | none -/
  events : List TapRecord := []
  /-- 14 R443 | departures waiting for their completion event | none -/
  departs : List Depart := []
  /-- 14 R442 | interval length in seconds, 10 to 3,600 | 60 -/
  intervalS : Nat := 60
  /-- 14 R442 | number of the open interval | 0, DESIGN CHOICE log 4 -/
  interval : Nat := 0
  /-- 14 R442 R443 EVICTED UNMATCHED LATE | what is gathered for each interval not yet closed, by its number | none -/
  gathers : Tbl Gather := []
  /-- 14 R446 | reduced-capacity intervals not yet recorded, or still open | none -/
  caps : List CapSlot := []
  /-- 14 R442 | MT of the last TIME tap | none -/
  lastTime : Option Nat := none
  /-- 14 R442 | the die's own clock at that TIME tap, 25 ns ticks | 0, DESIGN CHOICE log 4 -/
  lastTimeClock : Nat := 0
  /-- 14 R446 | the last MT seen on any tap | none -/
  lastSeen : Option Nat := none
  /-- 14 R447 METER_TIME | die clock at the last close, 25 ns ticks | 0, DESIGN CHOICE log 4 -/
  lastClock : Nat := 0
  /-- 14 R447 TIME_SUSPECT | MT of the last TIME tap before the last close, or of the first one since | 0, DESIGN CHOICE log 4 -/
  baseMt : Nat := 0
  /-- 14 R447 TIME_SUSPECT | the die's own clock at that TIME tap | 0, DESIGN CHOICE log 4 -/
  baseClock : Nat := 0
  /-- 14 R447 RECORD_NO | INTERVAL records written since manufacture | 0 -/
  recordNo : Nat := 0
  /-- 14 R450 | the ring: record number, the record's bytes, collected | none -/
  ring : List (Nat × List Byte × Bool) := []
  /-- 14 R450 UNRECORDED | intervals not stored since the last record | 0 -/
  unrecorded : Nat := 0
  /-- 14 R449 | cumulative totals by key 8 x contract + class | 0 -/
  totals : Tbl Totals := []
  /-- 14 R449 | module total of E in mJ | 0 -/
  totalE : Nat := 0
  /-- 14 R449 | module total of IDLE | 0 -/
  totalIdle : Nat := 0
  /-- 14 R449 | module total of REDUCED_TICKS | 0 -/
  totalReduced : Nat := 0
  /-- 14 R449 | intervals recorded | 0 -/
  totalRecorded : Nat := 0
  /-- 14 R449 | intervals unrecorded | 0 -/
  totalUnrecorded : Nat := 0
  /-- 14 R449 | records collected | 0 -/
  totalCollected : Nat := 0
  /-- 14 R447 SERVICE_COUNT | 32 bits | 0, DESIGN CHOICE log 4 -/
  serviceCount : Nat := 0
  /-- 14 R450 | the service log's entries | none -/
  serviceLog : List String := []
  /-- 14 R447 | firmware digest that service installed; none: the fixed firmware | none -/
  newFw : Option (List Byte) := none
  /-- 14 R446 | MT stored at hold-up or last seen before a power loss | none -/
  storedMt : Option Nat := none
  /-- 14 R452 R453 | meter reads whose answer has not begun: session, generation, MT of the request | none -/
  waiting : List (Nat × Nat × Nat) := []
  /-- 14 R447 TIME_SUSPECT | 1 bit: the last closed interval was TIME_SUSPECT | 0 -/
  suspect : Bool := false
  /-- 14 R453 | 1 bit: the relay has declared the die silent | 0, DESIGN CHOICE log 4 -/
  silent : Bool := false
  /-- 14 R453 MTR_STATUS.LINK_OK | 1 bit | 0, DESIGN CHOICE log 4 -/
  linkOk : Bool := false
  /-- 14 R453 | MT of the last report over the record link | 0, DESIGN CHOICE log 4 -/
  lastReport : Nat := 0
  /-- 14 R453 MTR_STATUS.TIME_SUSPECT | 1 bit | 0 -/
  timeSuspect : Bool := false
  /-- 14 R453 MTR_INPUT.VOLT_CV | 16 bits, as reported | 0, DESIGN CHOICE log 4 -/
  voltCv : Nat := 0
  /-- 14 R453 MTR_INPUT.WATT | 16 bits, as reported | 0, DESIGN CHOICE log 4 -/
  watt : Nat := 0
  /-- 14 R453 | the relay registers as last reported: SERVICE_COUNT, STORAGE_FULL, last record, oldest, free KiB, interval, E | 0 -/
  relay : List Nat := []
deriving DecidableEq, Repr

/-- The Kyend monitor (15). -/
structure Kyend where
  /-- 15 R472 | UART rate in baud | 115200 -/
  baud : Nat := 115200
  /-- 15 R473 | the line being edited, up to 128 characters | empty -/
  line : List Nat := []
  /-- 15 R473 R474 | the physical cluster of a yarrow command that has not ended; none: no command runs | none -/
  busy : Option Nat := none
  /-- 15 R473 | what the monitor has printed, newest first: echoes, lines, prompts (the model's record, log 9) | empty -/
  out : List String := []
deriving DecidableEq, Repr

/-- The module's whole state. -/
structure State where
  /-- the commands waiting, first in, first out -/
  pending : List Instr := []
  /-- 12 control, start, loader, supervisors -/
  ctl : Control := {}
  /-- 12 the configuration flash -/
  flash : Flash := {}
  /-- 09 Module Time and PTP -/
  clock : Clock := {}
  /-- 10 host port, sessions, bridle -/
  host : HostPort := {}
  /-- 06, 07 dispatcher, units, job table, residency -/
  disp : Dispatcher := {}
  /-- 09 Reins -/
  reins : Reins := {}
  /-- 09 Paddock -/
  pdk : Paddock := {}
  /-- 03 to 05, 15 clusters -/
  clu : Clusters := {}
  /-- 08 service memory -/
  hbm : Hbm := {}
  /-- 12 power, clocks, thermal -/
  pwr : Power := {}
  /-- 13, 15 faults and events -/
  flt : Faults := {}
  /-- 11 peer ports -/
  peers : Peers := {}
  /-- 14 security -/
  sec : Security := {}
  /-- 14 metrology die and relay -/
  meter : Meter := {}
  /-- 15 Kyend monitor -/
  kyend : Kyend := {}
  /-- the model's own field (log 10): how many free values have been read | 0, DESIGN CHOICE log 10 -/
  free : Nat := 0
deriving DecidableEq, Repr

/-- Why the module would stop with a fault. No command of the table ends so: the spec gives each an effect and
reports every error by a notice, a NACK, an event or a register. -/
inductive Fault where
  /-- raised by nobody; the module has no fault of its own that stops it (13). Safe: it never occurs. -/
  | none
deriving DecidableEq, Repr

/-- Why a command would be refused. -/
inductive Refusal where
  /-- raised by a dispatch arm without a meaning; no arm of this model is one. Safe. -/
  | notModelled (mnemonic : String)
deriving DecidableEq, Repr

/-- The module right after AO power-up, before the start sequence has run (12 R378, R379): STARTING, no domain but
AO powered, MT counting from 0 (09 R285), every memory, table and queue as its field's comment says. -/
def State.reset : State := {}

end Sys2Proof.Machine
end

