-- ==== Sys2Proof/Machine/Bits.lean ====
section
/-! DEFINITION. Bit fields, little-endian byte strings (R6), sparse tables, and byte memory in its one canonical
form. -/

namespace Sys2Proof.Machine

/-- Bits [hi:lo] of a word (R5). -/
def bits (v hi lo : Nat) : Nat := (v / 2 ^ lo) % 2 ^ (hi + 1 - lo)

/-- Bit b of a word (R5). -/
def bit (v b : Nat) : Bool := (v / 2 ^ b) % 2 == 1

/-- A one-bit field. -/
def flag (b : Bool) : Nat := if b then 1 else 0

/-- A field's value placed at a bit position. -/
def field (v lo : Nat) : Nat := v * 2 ^ lo

/-- The n low bytes of a number, little-endian (R6). -/
def leBytes : Nat → Nat → List Byte
  | 0, _ => []
  | n + 1, v => BitVec.ofNat 8 v :: leBytes n (v / 256)

/-- The number that little-endian bytes spell (R6). -/
def leNat : List Byte → Nat
  | [] => 0
  | b :: bs => b.toNat + 256 * leNat bs

/-- The little-endian number in `len` bytes of a byte string at an offset; bytes past its end count as 0. -/
def leAt (l : List Byte) (off len : Nat) : Nat := leNat ((l.drop off).take len)

/-- A signed number of w bits, two's complement. -/
def toSigned (w v : Nat) : Int :=
  let x := v % 2 ^ w
  if 2 * x < 2 ^ w then (x : Int) else (x : Int) - (2 ^ w : Nat)

/-- The low w bits of a signed number. -/
def ofSigned (w : Nat) (v : Int) : Nat := (v % ((2 ^ w : Nat) : Int)).toNat

/-- ceil(a / b). -/
def ceilDiv (a b : Nat) : Nat := (a + b - 1) / b

/-- The next multiple of b at or above a. -/
def alignUp (a b : Nat) : Nat := ceilDiv a b * b

/-- A byte string as the characters of a printable text. -/
def asciiBytes (s : String) : List Byte := s.toList.map fun c => BitVec.ofNat 8 c.toNat

/-! ## Sparse tables -/

/-- What a table holds at a key; an unlisted key holds the default. -/
def tblGet {α : Type} (d : α) : Tbl α → Nat → α
  | [], _ => d
  | (k, v) :: r, x => if k = x then v else tblGet d r x

/-- What a table lists at a key. -/
def tblFind {α : Type} : Tbl α → Nat → Option α
  | [], _ => none
  | (k, v) :: r, x => if k = x then some v else tblFind r x

/-- A table with one key's entry set, the keys kept in rising order. -/
def tblSet {α : Type} : Tbl α → Nat → α → Tbl α
  | [], x, a => [(x, a)]
  | (k, v) :: r, x, a =>
    if x < k then (x, a) :: (k, v) :: r
    else if x = k then (x, a) :: r
    else (k, v) :: tblSet r x a

/-- A table with one key's entry removed. -/
def tblErase {α : Type} (t : Tbl α) (x : Nat) : Tbl α := t.filter fun e => e.1 ≠ x

/-- A table with one key's entry changed. -/
def tblMod {α : Type} (d : α) (t : Tbl α) (x : Nat) (f : α → α) : Tbl α := tblSet t x (f (tblGet d t x))

/-- The largest value of a 32-bit counter (R463 to R466). -/
def cap32 (v : Nat) : Nat := min v 0xFFFFFFFF

/-- A counter of a table, one more, saturating at its width (R455). -/
def tblInc (t : Tbl Nat) (x : Nat) : Tbl Nat := tblMod 0 t x fun v => cap32 (v + 1)

/-! ## Byte memory -/

/-- The canonical form: addresses strictly rising, and no byte equal to 0. -/
def Memory.wf : Cells → Bool
  | [] => true
  | (_, v) :: [] => v != 0
  | (a, v) :: (b, w) :: r => decide (a < b) && v != 0 && Memory.wf ((b, w) :: r)

/-- One byte of a memory; an unlisted byte reads as 0. -/
def cellGet : Cells → Nat → Byte
  | [], _ => 0
  | (k, v) :: r, x => if k = x then v else cellGet r x

/-- A memory with one byte written; writing 0 removes the entry. -/
def cellSet : Cells → Nat → Byte → Cells
  | [], x, b => if b = 0 then [] else [(x, b)]
  | (k, v) :: r, x, b =>
    if x < k then (if b = 0 then (k, v) :: r else (x, b) :: (k, v) :: r)
    else if x = k then (if b = 0 then r else (x, b) :: r)
    else (k, v) :: cellSet r x b

/-- n bytes of a memory from an address. -/
def cellRead (c : Cells) : Nat → Nat → List Byte
  | _, 0 => []
  | a, n + 1 => cellGet c a :: cellRead c (a + 1) n

/-- A memory with bytes written from an address on. -/
def cellWrite (c : Cells) : Nat → List Byte → Cells
  | _, [] => c
  | a, b :: bs => cellWrite (cellSet c a b) (a + 1) bs

/-- A memory made from (address, byte) pairs in any order; a later pair overwrites an earlier one. -/
def cellsOf (l : List Host.Cell) : Cells := l.foldl (fun c e => cellSet c e.1 e.2) []

/-! ## Lists -/

/-- The first n numbers from a. -/
def numsFrom : Nat → Nat → List Nat
  | _, 0 => []
  | a, n + 1 => a :: numsFrom (a + 1) n

/-- Insertion of one item into a list in the order `le` (an equal item goes behind). -/
def insertBy {α : Type} (lt : α → α → Bool) (x : α) : List α → List α
  | [] => [x]
  | y :: ys => if lt x y then x :: y :: ys else y :: insertBy lt x ys

/-- Stable sorting by insertion. -/
def sortBy {α : Type} (lt : α → α → Bool) (l : List α) : List α :=
  l.foldl (fun acc x => insertBy lt x acc) []

/-- The entry at a position, or the default. -/
def nth {α : Type} (d : α) (l : List α) (i : Nat) : α := (l[i]?).getD d

/-- A list with one position changed. -/
def modAt {α : Type} (l : List α) (i : Nat) (f : α → α) : List α := l.modify i f

/-- The sum of a list. -/
def sumNat (l : List Nat) : Nat := l.foldl (· + ·) 0

/-- A list without repeats, first occurrences kept. -/
def dedup (l : List Nat) : List Nat := l.foldl (fun acc x => if acc.contains x then acc else acc ++ [x]) []

/-- A number added to a list that holds no repeats. -/
def addOnce (l : List Nat) (x : Nat) : List Nat := if l.contains x then l else l ++ [x]

end Sys2Proof.Machine
end

