-- ==== Sys2Proof/Machine/Flags.lean ====
section
/-! DEFINITION. The codes and flag computations: discard reasons and RESOURCE (13 R407), NACK reasons (10), statuses of
descriptors and completions (06), and the fault-guarantee bits (13 R428). -/

namespace Sys2Proof.Machine

/-! ## Discard reasons (R407) -/

def reasonHwFault : Nat := 1
def reasonPoison : Nat := 2
def reasonPageAbsent : Nat := 3
def reasonDescInvalid : Nat := 4
def reasonClusterLost : Nat := 5
def reasonDisableForced : Nat := 6
def reasonPeerLost : Nat := 7
def reasonOwnerAbort : Nat := 8
def reasonQueueFull : Nat := 9

/-! ## RESOURCE (R407): KIND in bits [31:28], INDEX in bits [27:0] -/

/-- RESOURCE of a kind and an index. -/
def resOf (kind index : Nat) : Nat := field kind 28 + index
def resNone : Nat := 0
def resCluster (l : Nat) : Nat := resOf 1 l
def resDie (d : Nat) : Nat := resOf 2 d
def resStack (k : Nat) : Nat := resOf 3 k
def resPseudo (stack pc : Nat) : Nat := resOf 4 (64 * stack + pc)
def resRank (r : Nat) : Nat := resOf 5 r
def resJob (j : Nat) : Nat := resOf 6 j
def resPage (va : Nat) : Nat := resOf 7 (bits va 47 21)
def resWindow (w : Nat) : Nat := resOf 8 w
def resModule : Nat := resOf 9 0
def resClass (c : Nat) : Nat := resOf 10 c
def resCounter (n : Nat) : Nat := resOf 11 n

end Sys2Proof.Machine
end

