-- ==== Sys2Proof/Machine/Numbers.lean ====
section
/-! DEFINITION. Element types and their arithmetic (02 R24 to R37): decoding and narrowing every element type, exact
sums and products with one rounding, MX blocks, the base-2 exponent unit (04 R117), and the number rules of the
accumulators, pairs, winners and row statistics (03 R88 R89, 04 R104 to R118). -/

namespace Sys2Proof.Machine

/-! ## Element type codes (R24) -/

/-- Bits of one element of a type code (R24). -/
def etyBits (e : Nat) : Nat :=
  match e with
  | 0 | 1 | 3 | 4 | 5 | 6 | 10 => 8
  | 2 | 9 => 4
  | 7 | 8 => 6
  | 11 | 12 => 16
  | 13 | 14 => 32
  | _ => 64

/-- The integer class (R24, R25). -/
def etyIsInt (e : Nat) : Bool := e == 0 || e == 1 || e == 2 || e == 14 || e == 15

/-- The MX types, whose blocks of 32 share a scale byte (R30). -/
def etyIsMx (e : Nat) : Bool := decide (5 ≤ e) && decide (e ≤ 10)

/-- The rate class of R27: 4, 8 or 16 bits; FP32 and INT32 never enter a product. -/
def etyRate (e : Nat) : Nat :=
  if e == 2 || e == 9 then 4 else if e == 11 || e == 12 then 16 else 8

/-- The k coordinates that one dense span covers in a rate class (R70). -/
def rateSpan (r : Nat) : Nat := if r == 4 then 128 else if r == 16 then 32 else 64

/-- Exponent bits, mantissa bits and bias of a floating type (R28); MXINT8 has none. -/
def fpShape (e : Nat) : Nat × Nat × Nat :=
  match e with
  | 3 | 5 => (4, 3, 7)
  | 4 | 6 => (5, 2, 15)
  | 7 => (3, 2, 3)
  | 8 => (2, 3, 1)
  | 9 => (2, 1, 1)
  | 11 => (8, 7, 127)
  | 12 => (5, 10, 15)
  | _ => (8, 23, 127)

/-- Special encodings of a type (R28): 2 IEEE infinities and NaNs, 1 the one NaN of E4M3, 0 none. -/
def fpSpecials (e : Nat) : Nat :=
  match e with
  | 3 | 5 => 1
  | 7 | 8 | 9 => 0
  | _ => 2

/-! ## Exact numbers -/

/-- The sign of a number; a NaN has none. -/
def numNeg : Num → Bool
  | .nan => false
  | .inf n => n
  | .fin n _ _ => n

/-- Whether a number is a NaN. -/
def numIsNan : Num → Bool
  | .nan => true
  | _ => false

/-- Whether a number is finite. -/
def numIsFin : Num → Bool
  | .fin _ _ _ => true
  | _ => false

/-- Whether a number is +0 or -0. -/
def numIsZero : Num → Bool
  | .fin _ m _ => m == 0
  | _ => false

/-- The negated number. -/
def numNegate : Num → Num
  | .nan => .nan
  | .inf n => .inf !n
  | .fin n m e => .fin (!n) m e

/-- The magnitude. -/
def numAbs : Num → Num
  | .nan => .nan
  | .inf _ => .inf false
  | .fin _ m e => .fin false m e

/-- An integer as an exact number. -/
def numOfInt (v : Int) : Num := .fin (decide (v < 0)) v.natAbs 0

/-- +0. -/
def numZero : Num := .fin false 0 0

/-- The signed significand of a finite number at an exponent not above its own. -/
def sigAt (neg : Bool) (m : Nat) (e lo : Int) : Int :=
  let v : Int := ((m * 2 ^ (e - lo).toNat : Nat) : Int)
  if neg then -v else v

/-- The exact sum (R31, R33, R34): +0 for +0 and -0, and for opposite numbers; NaN for opposite infinities. -/
def numAdd : Num → Num → Num
  | .nan, _ => .nan
  | _, .nan => .nan
  | .inf a, .inf b => if a == b then .inf a else .nan
  | .inf a, .fin _ _ _ => .inf a
  | .fin _ _ _, .inf b => .inf b
  | .fin n m e, .fin n' m' e' =>
    let lo := min e e'
    let v := sigAt n m e lo + sigAt n' m' e' lo
    if v = 0 then .fin (n && n') 0 lo else .fin (decide (v < 0)) v.natAbs lo

/-- The exact product (R31, R34): NaN for an infinity times a zero. -/
def numMul : Num → Num → Num
  | .nan, _ => .nan
  | _, .nan => .nan
  | .inf a, .inf b => .inf (a != b)
  | .inf a, .fin n m _ => if m = 0 then .nan else .inf (a != n)
  | .fin n m _, .inf b => if m = 0 then .nan else .inf (b != n)
  | .fin n m e, .fin n' m' e' => .fin (n != n') (m * m') (e + e')

/-- A number times a power of two, exact. -/
def numScale (x : Num) (k : Int) : Num :=
  match x with
  | .fin n m e => .fin n m (e + k)
  | y => y

/-- Numeric order of two numbers that are not NaN; -0 and +0 compare equal (R114). -/
def numLt : Num → Num → Bool
  | .nan, _ => false
  | _, .nan => false
  | .inf a, .inf b => a && !b
  | .inf a, .fin _ _ _ => a
  | .fin _ _ _, .inf b => !b
  | .fin n m e, .fin n' m' e' =>
    let lo := min e e'
    decide (sigAt n m e lo < sigAt n' m' e' lo)

/-- Round-half-even division of a magnitude by 2^k. -/
def rneShift (m k : Nat) : Nat :=
  let q := m / 2 ^ k
  let r := m % 2 ^ k
  if 2 * r < 2 ^ k then q
  else if 2 * r = 2 ^ k then (if q % 2 = 0 then q else q + 1)
  else q + 1

/-- m x 2^e rounded to p significant bits and no bit below 2^emin (R33): significand and exponent. -/
def roundSig (p : Nat) (emin : Int) (m : Nat) (e : Int) : Nat × Int :=
  if m = 0 then (0, emin)
  else
    let lsb := max emin (e + (Nat.log2 m : Int) + 1 - (p : Int))
    if lsb ≤ e then (m * 2 ^ (e - lsb).toNat, lsb)
    else
      let q := rneShift m (lsb - e).toNat
      if q = 2 ^ p then (q / 2, lsb + 1) else (q, lsb)

/-! ## Encoding and decoding -/

/-- The value of a floating element's bits before any scale (R28, R29). -/
def fpDecode (ety v : Nat) : Num :=
  if ety == 10 then
    let q := toSigned 8 v
    .fin (decide (q < 0)) q.natAbs (-6)
  else
    let (eb, mb, bias) := fpShape ety
    let man := v % 2 ^ mb
    let ex := (v / 2 ^ mb) % 2 ^ eb
    let neg := bit v (mb + eb)
    let emin : Int := 1 - (bias : Int) - (mb : Int)
    if fpSpecials ety = 2 ∧ ex = 2 ^ eb - 1 then (if man = 0 then .inf neg else .nan)
    else if fpSpecials ety = 1 ∧ ex = 15 ∧ man = 7 then .nan
    else if ex = 0 then .fin neg man emin
    else .fin neg (man + 2 ^ mb) (emin + (ex : Int) - 1)

/-- The canonical NaN bits of an output type (R35). -/
def fpNan (ety : Nat) : Nat :=
  match ety with
  | 3 => 0x7F
  | 4 => 0x7E
  | 11 => 0x7FC0
  | 12 => 0x7E00
  | _ => 0x7FC00000

/-- The bits of the largest finite magnitude of a type (R28). -/
def fpLargest (ety : Nat) : Nat :=
  let (eb, mb, _) := fpShape ety
  match fpSpecials ety with
  | 2 => (2 ^ eb - 1) * 2 ^ mb - 1
  | 1 => 2 ^ (eb + mb) - 2
  | _ => 2 ^ (eb + mb) - 1

/-- A finite number or an infinity rounded into a floating type's bits (R33, R35). Types without infinities take
their largest finite magnitude. -/
def fpEncode (ety : Nat) (x : Num) : Nat :=
  let (eb, mb, bias) := fpShape ety
  let sgn (n : Bool) := flag n * 2 ^ (eb + mb)
  let big (n : Bool) := if fpSpecials ety = 2 then sgn n + (2 ^ eb - 1) * 2 ^ mb else sgn n + fpLargest ety
  match x with
  | .nan => fpNan ety
  | .inf n => big n
  | .fin n m e =>
    let emin : Int := 1 - (bias : Int) - (mb : Int)
    let (q, l) := roundSig (mb + 1) emin m e
    if q < 2 ^ mb then sgn n + q
    else
      let r := (l - emin + 1).toNat * 2 ^ mb + (q - 2 ^ mb)
      if r > fpLargest ety then big n else sgn n + r

/-- FP32 bits as an exact number. -/
def f32Num (v : F32) : Num := fpDecode 13 v.toNat

/-- A number rounded once to FP32 (R31, R33, R34). -/
def f32Of (x : Num) : F32 := BitVec.ofNat 32 (fpEncode 13 x)

/-- The canonical quiet NaN (R34). -/
def f32Nan : F32 := 0x7FC00000

/-- FP32 infinities. -/
def f32Inf (neg : Bool) : F32 := if neg then 0xFF800000 else 0x7F800000

/-- FP32 addition with one rounding. -/
def f32Add (a b : F32) : F32 := f32Of (numAdd (f32Num a) (f32Num b))

/-- FP32 multiplication with one rounding. -/
def f32Mul (a b : F32) : F32 := f32Of (numMul (f32Num a) (f32Num b))

/-- FP32 subtraction with one rounding. -/
def f32Sub (a b : F32) : F32 := f32Of (numAdd (f32Num a) (numNegate (f32Num b)))

/-- The E8M0 scale (R30) applied to an element's value. -/
def mxScaled (x : Num) (scale : Nat) : Num :=
  if scale = 255 then .nan else numScale x ((scale : Int) - 127)

/-- An integer element's value (R24). -/
def intDecode (ety v : Nat) : Int :=
  match ety with
  | 0 => toSigned 8 v
  | 1 => (v % 256 : Nat)
  | 2 => toSigned 4 v
  | 14 => toSigned 32 v
  | _ => toSigned 64 v

/-- An element's value from its bits and, for an MX type, its scale byte. -/
def elemVal (ety v scale : Nat) : Val :=
  if etyIsInt ety then .int (intDecode ety v)
  else if etyIsMx ety then .num (mxScaled (fpDecode ety v) scale)
  else .num (fpDecode ety v)

/-- A value as an exact number. -/
def valNum : Val → Num
  | .int v => numOfInt v
  | .num x => x

/-- Whether a value is +0 or -0 (R64, R120). -/
def valIsZero : Val → Bool
  | .int v => v == 0
  | .num x => numIsZero x

/-- Whether a value is a NaN. -/
def valIsNan : Val → Bool
  | .int _ => false
  | .num x => numIsNan x

/-- The range of an integer type (R24). -/
def intRange (ety : Nat) : Int × Int :=
  match ety with
  | 0 => (-128, 127)
  | 1 => (0, 255)
  | 2 => (-8, 7)
  | 14 => (-2147483648, 2147483647)
  | _ => (-9223372036854775808, 9223372036854775807)

/-- Saturation to a range. -/
def clampInt (lo hi v : Int) : Int := if v < lo then lo else if hi < v then hi else v

/-- A finite number rounded to the nearest integer, ties to even (R37). -/
def numToInt (n : Bool) (m : Nat) (e : Int) : Int :=
  let q : Nat := if 0 ≤ e then m * 2 ^ e.toNat else rneShift m (-e).toNat
  if n then -(q : Int) else (q : Int)

/-- Narrowing to an integer type (R35, R37). -/
def narrowInt (ety : Nat) (x : Val) : Int :=
  let (lo, hi) := intRange ety
  match x with
  | .int v => clampInt lo hi v
  | .num .nan => 0
  | .num (.inf n) => if n then lo else hi
  | .num (.fin n m e) => clampInt lo hi (numToInt n m e)

/-- Narrowing to a type without shared scales (R35, R37): the element's bits. -/
def narrowBits (ety : Nat) (x : Val) : Nat :=
  if etyIsInt ety then ofSigned (etyBits ety) (narrowInt ety x) else fpEncode ety (valNum x)

/-- emax of R36: the exponent of the element type's largest binade. -/
def mxEmax (ety : Nat) : Int :=
  match ety with
  | 5 => 8
  | 6 => 15
  | 7 => 4
  | 8 => 2
  | 9 => 2
  | _ => 0

/-- One element of an MX block at scale 2^X (R36): its bits, saturated by R35; MXINT8 saturates to q = +-127. -/
def mxElem (ety : Nat) (x : Num) (sx : Int) : Nat :=
  match x with
  | .fin n m e =>
    if ety == 10 then ofSigned 8 (clampInt (-127) 127 (numToInt n m (e - sx + 6)))
    else
      let b := fpEncode ety (.fin n m (e - sx))
      let top := 2 ^ (etyBits ety - 1)
      if b % top > fpLargest ety then (b / top) * top + fpLargest ety
      else if fpSpecials ety = 2 ∧ b % top ≥ fpLargest ety + 1 then (b / top) * top + fpLargest ety
      else b
  | _ => 0

/-- The larger of two magnitudes. -/
def maxMag (a b : Num) : Num := if numLt a (numAbs b) then numAbs b else a

/-- floor(log2) of a finite nonzero number. -/
def numLog2 : Num → Int
  | .fin _ m e => (Nat.log2 m : Int) + e
  | _ => 0

/-- An MX block written by R36: the scale byte and the element bits. `none` is a position without a written value,
which holds bits 0 and takes no part in amax (R53, R112). -/
def mxBlock (ety : Nat) (l : List (Option Num)) : Nat × List Nat :=
  let vals := l.filterMap id
  if vals.any fun x => !numIsFin x then (255, l.map fun _ => 0)
  else
    let amax := vals.foldl maxMag numZero
    if numIsZero amax then (0, l.map fun o => match o with | none => 0 | some x => mxElem ety x 0)
    else
      let sx := clampInt (-127) 127 (numLog2 amax - mxEmax ety)
      ((sx + 127).toNat, l.map fun o => match o with | none => 0 | some x => mxElem ety x sx)

/-- The values of an MX block as a reader sees them. -/
def mxVals (ety : Nat) (l : List (Option Num)) : List Val :=
  let (sc, es) := mxBlock ety l
  es.map fun b => elemVal ety b sc

/-! ## The base-2 exponent unit (R117) -/

/-- Integer square root, by bits from 2^(b-1) down. -/
def isqrtBits : Nat → Nat → Nat → Nat
  | 0, _, acc => acc
  | b + 1, n, acc =>
    let t := acc + 2 ^ b
    isqrtBits b n (if t * t ≤ n then t else acc)

/-- 2^(f / 2^j) in fixed point with 160 fraction bits; root = 2^(1/2^0...) halves its exponent at each bit of f
from the top. Returns the product of the roots whose bit of f is set. -/
def ex2Frac : Nat → Nat → Nat → Nat → Nat
  | 0, _, _, acc => acc
  | j + 1, f, root, acc =>
    let r := isqrtBits 162 (root * 2 ^ 160) 0
    ex2Frac j f r (if bit f j then acc * r / 2 ^ 160 else acc)

/-- 2^y rounded to nearest even in FP32 (R117). A y of magnitude below 2^-26 gives 1. -/
def ex2Of (y : Num) : F32 :=
  match y with
  | .nan => f32Nan
  | .inf n => if n then 0 else f32Inf false
  | .fin n m e =>
    if m = 0 ∨ (Nat.log2 m : Int) + e < -26 then 0x3F800000
    else if (Nat.log2 m : Int) + e > 8 then (if n then 0 else f32Inf false)
    else
      let k := sigAt n m e (min e (-49))
      let sh := (-(min e (-49))).toNat
      let whole := k / (2 ^ sh : Nat)
      let f := (k % ((2 ^ sh : Nat) : Int)).toNat
      if f = 0 then f32Of (.fin false 1 whole)
      else f32Of (.fin false (2 * ex2Frac sh f (2 ^ 161) (2 ^ 160) + 1) (whole - 161))

/-- ex2(d) of R117: the argument is rounded, multiplied by log2 e in FP32, and raised. -/
def ex2 (d : Num) : F32 := ex2Of (f32Num (f32Mul (f32Of d) 0x3FB8AA3B))

/-! ## Accumulators (R88, R89, R104 to R110) -/

/-- res(x) of R88. -/
def res7 (x : Int) : Nat := (x % 7).toNat

/-- floor(p / 2^s) (R105). -/
def shiftDown (p : Int) (s : Nat) : Int := p / ((2 ^ s : Nat) : Int)

/-- The residue of one accumulated product, formed apart from the multiplier (R88, R89). -/
def productRes (a b : Int) (s : Nat) : Nat :=
  let p := res7 a * res7 b % 7
  if s = 0 then p
  else
    let r := ((a % 256) * (b % 256) % ((2 ^ s : Nat) : Int)).toNat
    ((p + 7 - r % 7) * 4 ^ s) % 7

/-- The signed value of a 32-bit entry. -/
def accInt (a : Acc) : Int := a.v.toInt

/-- One integer product added to its entry (R88, R104, R105): a marked entry keeps its limit. -/
def accAddInt (a : Acc) (x y : Int) (s : Nat) : Acc :=
  let q := shiftDown (x * y) s
  let r := (a.res + productRes x y s) % 7
  let n := a.count + 1
  if a.mark then { a with res := r, count := n }
  else
    let t := accInt a + q
    if t > 2147483647 then { a with v := 0x7FFFFFFF, mark := true, res := r, count := n }
    else if t < -2147483648 then { a with v := 0x80000000, mark := true, res := r, count := n }
    else { a with v := BitVec.ofInt 32 t, res := r, count := n }

/-- One floating product added to its entry (R31, R108). -/
def accAddFp (comp : Bool) (a : Acc) (x y : Num) : Acc :=
  let exact := numAdd (f32Num a.v) (numMul x y)
  let t := f32Of exact
  let n := a.count + 1
  if comp then
    if numIsFin (f32Num t) then
      let d := f32Of (numAdd exact (numNegate (f32Num t)))
      { a with v := t, err := f32Add a.err d, count := n }
    else { a with v := t, err := 0, count := n }
  else { a with v := t, count := n }

/-- One term added to its entry. -/
def accAdd (isInt comp : Bool) (s : Nat) (a : Acc) (t : Term) : Acc :=
  match isInt, t.a, t.b with
  | true, .int x, .int y => accAddInt a x y s
  | _, x, y => accAddFp comp a (valNum x) (valNum y)

/-- The residue check of one integer entry (R88): a saturated entry is skipped. -/
def residueOk (a : Acc) : Bool := a.mark || res7 (accInt a) == a.res

/-- The sticky limits of R106. -/
def i64Max : Int := 9223372036854775807
def i64Min : Int := -9223372036854775808

/-- INT64 addition with saturation and sticky limits (R106). -/
def i64Add (a b : Int) : Int :=
  if a = i64Max ∨ a = i64Min then a
  else if b = i64Max ∨ b = i64Min then b
  else clampInt i64Min i64Max (a + b)

/-- A closed integer entry widened (R105). -/
def widenInt (a : Acc) (s : Nat) : Int :=
  if a.mark then (if accInt a < 0 then i64Min else i64Max)
  else clampInt i64Min i64Max (accInt a * ((2 ^ s : Nat) : Int))

/-- A closed entry as a leaf value (R105, R109). -/
def widen (isInt : Bool) (s : Nat) (a : Acc) : LeafVal :=
  if isInt then .i64 (widenInt a s) else .pair a.v a.err

/-- Pair addition, left operand first (R109). -/
def pairAdd (l r : F32 × F32) : F32 × F32 :=
  let exact := numAdd (f32Num l.1) (f32Num r.1)
  let t := f32Of exact
  if numIsFin (f32Num t) then
    (t, f32Add (f32Add l.2 r.2) (f32Of (numAdd exact (numNegate (f32Num t)))))
  else (t, 0)

/-! ## Winners (R113 to R115) -/

/-- Whether the second candidate beats the first (R114); `max` true for MAX. Ties and NaN ties go to the lower
index. -/
def winBeats (isMax : Bool) (x : Val) (ix : Nat) (y : Val) (iy : Nat) : Bool :=
  let a := valNum x
  let b := valNum y
  match numIsNan a, numIsNan b with
  | true, true => decide (iy < ix)
  | true, false => false
  | false, true => true
  | false, false =>
    if isMax then numLt a b || (!numLt b a && decide (iy < ix))
    else numLt b a || (!numLt a b && decide (iy < ix))

/-- The identity of R115 for a reduction kind (0 SUM, 1 MAX, 2 MIN) and an output type. -/
def redIdentity (kind outEty : Nat) : Val :=
  if etyIsInt outEty then
    (match kind with
     | 0 => .int 0
     | 1 => .int (intRange outEty).1
     | _ => .int (intRange outEty).2)
  else
    match kind with
    | 0 => .num numZero
    | 1 => .num (.inf true)
    | _ => .num (.inf false)

/-- The combination of two leaf values of one reduction (R106, R109, R114), left then right. -/
def leafCombine (isMax : Bool) (l r : LeafVal) : LeafVal :=
  match l, r with
  | .i64 a, .i64 b => .i64 (i64Add a b)
  | .pair a b, .pair c d =>
    let p := pairAdd (a, b) (c, d)
    .pair p.1 p.2
  | .win x i, .win y j =>
    if i = 0xFFFFFFFF then .win y j
    else if j = 0xFFFFFFFF then .win x i
    else if winBeats isMax x i y j then .win y j else .win x i
  | x, _ => x

/-- The final value of a leaf at its root (R110, R111 step 1). -/
def leafFinal : LeafVal → Val
  | .i64 v => .int v
  | .pair s e => .num (f32Num (f32Add s e))
  | .win v _ => v

/-! ## Row statistics (R116 to R118) -/

/-- max(m, x) by R114 in FP32. -/
def f32Max (m x : F32) : F32 :=
  let a := f32Num m
  let b := f32Num x
  if numIsNan a || numIsNan b then f32Nan else if numLt a b then x else m

/-- The start of a row's statistics (R117). -/
def statStart : F32 × F32 := (f32Inf true, 0)

/-- One value of a row in MAX_SUM (R117). -/
def maxSumStep (st : F32 × F32) (x : F32) : F32 × F32 := (f32Max st.1 x, f32Add st.2 x)

/-- m - x of R117, not yet rounded. -/
def numDiff (a b : F32) : Num := numAdd (f32Num a) (numNegate (f32Num b))

/-- One value of a row in EXP_SUM (R117). -/
def expSumStep (st : F32 × F32) (x : F32) : F32 × F32 :=
  let (m, l) := st
  let nm := f32Num m
  let nx := f32Num x
  if numIsNan nx || numIsNan nm then (f32Nan, f32Nan)
  else if x = f32Inf false ∨ m = f32Inf false then (f32Inf false, f32Nan)
  else if x = f32Inf true then (m, l)
  else if numLt nm nx then (x, f32Add (f32Mul l (ex2 (numDiff m x))) 0x3F800000)
  else (m, f32Add l (ex2 (numDiff x m)))

/-- One value of a row (R116): mode 1 MAX_SUM, mode 2 EXP_SUM. -/
def statStep (mode : Nat) (st : F32 × F32) (x : F32) : F32 × F32 :=
  if mode = 1 then maxSumStep st x else expSumStep st x

/-- Two parts of one row combined, left then right (R118). -/
def statCombine (mode : Nat) (a b : F32 × F32) : F32 × F32 :=
  if mode = 1 then (f32Max a.1 b.1, f32Add a.2 b.2)
  else if numIsNan (f32Num a.1) || numIsNan (f32Num b.1) then (f32Nan, f32Nan)
  else if a.1 = f32Inf false ∨ b.1 = f32Inf false then (f32Inf false, f32Nan)
  else if numIsNan (f32Num a.2) || numIsNan (f32Num b.2) then (f32Max a.1 b.1, f32Nan)
  else if a.1 = f32Inf true ∧ b.1 = f32Inf true then (f32Inf true, 0)
  else
    let m := f32Max a.1 b.1
    (m, f32Add (f32Mul a.2 (ex2 (numDiff a.1 m))) (f32Mul b.2 (ex2 (numDiff b.1 m))))

/-! ## Trees (R122) -/

/-- The largest power of two below n, for n of at least 2 (R122). -/
def treeSplit (n : Nat) : Nat := 2 ^ Nat.log2 (n - 1)

/-- A tree of R122 over a list of leaves in ascending order. `fuel` bounds the depth. -/
def treeFold {α : Type} (f : α → α → α) : Nat → List α → Option α
  | 0, l => l.head?
  | k + 1, l =>
    match l with
    | [] => none
    | [x] => some x
    | _ =>
      let m := treeSplit l.length
      match treeFold f k (l.take m), treeFold f k (l.drop m) with
      | some a, some b => some (f a b)
      | a, _ => a

/-- The children ranges of a node (R122). -/
def treeMid (lo hi : Nat) : Nat := lo + treeSplit (hi - lo)

end Sys2Proof.Machine
end

