-- ==== Sys2Proof/Machine/Ops.lean ====
section
/-! DEFINITION. The shared operations on the state: time, configuration fields, clusters and logical numbers, the
Paddock (09 R288 to R302), events and the fault log (13 R401, 15 R466 to R470), reduced capacity (13 R427), units and
their discard causes (13 R405), and the Reins counters and barriers (09 R273 to R283). -/

namespace Sys2Proof.Machine

/-! ## Time -/

/-- The state with MT advanced to a happening's time; MT never decreases (R285). -/
def atMt (s : State) (t : Nat) : State := { s with clock := { s.clock with mt := max s.clock.mt t } }

/-- The Module Time of the state. -/
def now (s : State) : Nat := s.clock.mt

/-- Whether the module is in READY (R378). -/
def isReady (s : State) : Bool := decide (s.ctl.modState = .ready)

/-! ## Configuration fields (12 R371 to R374) -/

/-- A little-endian field of the block in force at an offset. -/
def cfgField (s : State) (off n : Nat) : Nat := leNat (cellRead s.ctl.cfg off n)

/-- Bytes of the block in force. -/
def cfgBytes (s : State) (off n : Nat) : List Byte := cellRead s.ctl.cfg off n

/-- A scalar whose range excludes 0: a stored 0 takes the default (R373). -/
def orDefault (v d : Nat) : Nat := if v = 0 then d else v

/-- CFG_DEV_MODE (R374). -/
def cfgDevMode (s : State) : Bool := bit (cfgField s 0x80 4) 0
/-- CFG_TILE_MODE (R374, R214). -/
def cfgTileMode (s : State) : Nat := bits (cfgField s 0x80 4) 5 4
/-- CFG_HBM_GUARD (R374): true in Single Guard. -/
def cfgSingleGuard (s : State) : Bool := bit (cfgField s 0x80 4) 8
/-- CFG_FW_FLOOR (R374). -/
def cfgFwFloor (s : State) : Nat := cfgField s 0x84 4
/-- CFG_POWER_CAP in W (R374). -/
def cfgPowerCap (s : State) : Nat := orDefault (bits (cfgField s 0x88 4) 11 0) 3000
/-- CFG_SLEEP_AFTER in MT ticks: 2,500 ticks per microsecond (R374). -/
def cfgSleepAfter (s : State) : Nat := 2500 * orDefault (bits (cfgField s 0x8C 4) 15 0) 200
/-- CFG_DISABLE_TIMEOUT in MT ticks: 2,500,000 ticks per millisecond (R374). -/
def cfgDisableTimeout (s : State) : Nat := 2500000 * orDefault (bits (cfgField s 0x90 4) 15 0) 10
/-- CFG_SPD_REPEAT (R374, R157). -/
def cfgSpdRepeat (s : State) : Nat := orDefault (bits (cfgField s 0x94 4) 3 0) 2
/-- CFG_HBM_RETIRE_CE (R374, R259). -/
def cfgHbmRetireCe (s : State) : Nat := orDefault (bits (cfgField s 0x94 4) 7 4) 3
/-- CFG_MCAST_WAIT in MT ticks (R374, R243). -/
def cfgMcastWait (s : State) : Nat := 2500 * orDefault (bits (cfgField s 0x94 4) 15 8) 2
/-- CFG_PEER_RED_WAIT in MT ticks (R374, R361). -/
def cfgPeerRedWait (s : State) : Nat := 2500000 * orDefault (bits (cfgField s 0x98 4) 23 0) 1000
/-- CFG_UART_BAUD (R374, R472). -/
def cfgUartBaud (s : State) : Nat := orDefault (cfgField s 0x9C 4) 115200
/-- CFG_GROUP_ID (R351). -/
def cfgGroupId (s : State) : Nat := cfgField s 0xF0 4
/-- CFG_HOST_VLAN (R305). -/
def cfgHostVlan (s : State) : Nat := bits (cfgField s 0xA4 4) 11 0
/-- CFG_HOST_IPV4 address (R374). -/
def cfgIpv4 (s : State) : List Byte := cfgBytes s 0xB0 4
/-- CFG_HOST_IPV6 address (R374). -/
def cfgIpv6 (s : State) : List Byte := cfgBytes s 0xC0 16
/-- The module serial number, 16 bytes: bytes 8 to 23 of the certificate bundle (R434, R458). -/
def serialBytes (s : State) : List Byte :=
  let l := (s.flash.certs.drop 8).take 16
  l ++ List.replicate (16 - l.length) 0

/-! ## Clusters and logical numbers (00 R3, R4) -/

/-- The group of a physical cluster. -/
def groupOf (p : Nat) : Nat := p / 17

/-- The compute die of a physical cluster: Gk lies on C(k div 8). -/
def dieOfPhys (p : Nat) : Nat := p / 136

/-- The spare of a group at READY: position 16. -/
def spareOf (g : Nat) : Nat := 17 * g + 16

/-- The physical cluster that serves a logical number at READY (R4). -/
def homePhys (l : Nat) : Nat := 17 * (l / 16) + l % 16

/-- A physical cluster that no step has touched: a serving cluster is ASLEEP, a group's spare is OFF (R4, R14). -/
def clusterDefault (p : Nat) : Cluster :=
  if p % 17 = 16 then { role := .spare, power := .off } else {}

/-- A physical cluster. -/
def getClu (s : State) (p : Nat) : Cluster := tblGet (clusterDefault p) s.clu.phys p

/-- The state with a physical cluster set. -/
def setClu (s : State) (p : Nat) (c : Cluster) : State :=
  { s with clu := { s.clu with phys := tblSet s.clu.phys p c } }

/-- The state with a physical cluster changed. -/
def modClu (s : State) (p : Nat) (f : Cluster → Cluster) : State := setClu s p (f (getClu s p))

/-- The logical map entry of a logical cluster (R461). -/
def getLmap (s : State) (l : Nat) : LMap := tblGet { p := homePhys l, unserved := false, absent := false } s.clu.lmap l

/-- The state with a logical map entry set. -/
def setLmap (s : State) (l : Nat) (m : LMap) : State :=
  { s with clu := { s.clu with lmap := tblSet s.clu.lmap l m } }

/-- The physical cluster that serves a logical number. -/
def physOf (s : State) (l : Nat) : Nat := (getLmap s l).p

/-- Whether a logical cluster is present: neither absent nor awaiting its remount. -/
def served (s : State) (l : Nat) : Bool := !(getLmap s l).absent && !(getLmap s l).unserved

/-- The logical number a physical cluster serves, or none. -/
def logicalOf (s : State) (p : Nat) : Option Nat :=
  (numsFrom (16 * groupOf p) 16).find? fun l => served s l && physOf s l == p

/-- The logical number whose cluster this physical cluster was or is, served or not. -/
def lastLogicalOf (s : State) (p : Nat) : Option Nat :=
  (numsFrom (16 * groupOf p) 16).find? fun l => physOf s l == p

/-- Absent logical clusters (FLT_CAPACITY.ABSENT). -/
def absentCount (s : State) : Nat := (s.clu.lmap.filter fun e => e.2.absent).length

/-- Unserved logical clusters (FLT_CAPACITY.UNSERVED). -/
def unservedCount (s : State) : Nat := (s.clu.lmap.filter fun e => e.2.unserved).length

/-- FLT_CAPACITY (R428). -/
def capacityReg (s : State) : Nat := field (absentCount s) 16 + unservedCount s

/-- The port counters of the host port or of peer port n. -/
def peerPortOf (s : State) (n : Nat) : PeerPort := tblGet {} s.peers.ports n

/-- The state with a peer port changed. -/
def modPeerPort (s : State) (n : Nat) (f : PeerPort → PeerPort) : State :=
  { s with peers := { s.peers with ports := tblMod {} s.peers.ports n f } }

/-- The state with the host port changed. -/
def modHost (s : State) (f : HostPort → HostPort) : State := { s with host := f s.host }

/-! ## The Paddock -/

/-- The key of a queue. -/
def qKey (pool queue : Nat) : Nat := 4096 * pool + queue

/-- The limit in cells of a visible queue, or none for a queue that is not visible (R289). -/
def pdkLimit (pool queue : Nat) : Option Nat :=
  if pool = 4 then
    (if queue ≤ 7 then some 16384
     else if queue = 8 then some 32768
     else if queue ≤ 10 then some 16384
     else if queue = 11 then some 32768
     else none)
  else if pool < 4 then
    (if queue ≤ 135 then some 1024 else if queue = 136 then some 32768 else none)
  else none

/-- The items of a queue. -/
def pdkItems (s : State) (pool queue : Nat) : List Item := tblGet [] s.pdk.queues (qKey pool queue)

/-- Cells of a list of items, GAP markers not counted. -/
def itemCells (l : List Item) : Nat := sumNat (l.map fun i => if i.marker then 0 else i.cells)

/-- Used cells of a pool (R288, R289). -/
def poolUsedCells (s : State) (pool : Nat) : Nat :=
  sumNat (s.pdk.queues.map fun e => if e.1 / 4096 = pool then itemCells e.2 else 0)

/-- Free cells of a pool (PDK_FREE). -/
def poolFree (s : State) (pool : Nat) : Nat := 262144 - poolUsedCells s pool

/-- Whether a packet of n cells fits (R294). -/
def pdkFits (s : State) (pool queue n : Nat) : Bool :=
  match pdkLimit pool queue with
  | none => false
  | some lim => decide (itemCells (pdkItems s pool queue) + n ≤ lim) && decide (n ≤ poolFree s pool)

/-- The cells of a payload: 1 to 64 (R292). -/
def cellsOfPayload (l : List Byte) : Nat := max 1 (ceilDiv l.length 64)

/-- The state with a queue's items set. -/
def setQueue (s : State) (pool queue : Nat) (l : List Item) : State :=
  { s with pdk := { s.pdk with queues := tblSet s.pdk.queues (qKey pool queue) l } }

/-- The Paddock fills SEQ and MT of a packet's tag (R292). -/
def pdkAppend (s : State) (pool queue : Nat) (it : Item) : State :=
  let k := 1024 * pool + it.source
  let seq := tblGet 0 s.pdk.seqNext k
  let it' := { it with kind := 2, cells := cellsOfPayload it.payload, seq := seq, mt := now s }
  let s := { s with pdk := { s.pdk with seqNext := tblSet s.pdk.seqNext k ((seq + 1) % 2 ^ 32) } }
  setQueue s pool queue (pdkItems s pool queue ++ [it'])

/-- Bytes of a cell replaced at an offset. -/
def setBytes (l : List Byte) (off : Nat) (b : List Byte) : List Byte :=
  l.take off ++ b ++ l.drop (off + b.length)

/-- A fresh GAP marker cell (R296). -/
def markerCell (pool queue mt : Nat) (wu : Option Nat) : List Byte :=
  leBytes 4 1 ++ [BitVec.ofNat 8 (match wu with | some _ => 16 | none => 0)] ++
  leBytes 2 (field pool 12 + queue) ++ [0] ++ leBytes 8 mt ++
  leBytes 4 (wu.getD 0) ++ List.replicate 28 0 ++ leBytes 8 mt ++ List.replicate 8 0

/-- A further drop merged into a pending marker cell (R295, R296). -/
def markerMerge (c : List Byte) (mt : Nat) (wu : Option Nat) : List Byte :=
  let c := setBytes c 0 (leBytes 4 (cap32 (leAt c 0 4 + 1)))
  let c := setBytes c 48 (leBytes 8 mt)
  let b := leAt c 4 1
  let n := bits b 7 4
  match wu with
  | none => c
  | some w =>
    if n < 8 then setBytes (setBytes c (16 + 4 * n) (leBytes 4 w)) 4 (leBytes 1 (field (n + 1) 4 + b % 16))
    else setBytes c 4 (leBytes 1 (field n 4 + 1))

/-- A packet dropped from a queue is recorded in the queue's GAP marker (R295 to R297). -/
def pdkDrop (s : State) (pool queue : Nat) (wu : Option Nat) : State :=
  let q := pdkItems s pool queue
  if q.any fun i => i.marker then
    setQueue s pool queue (q.map fun i => if i.marker then { i with payload := markerMerge i.payload (now s) wu } else i)
  else
    let seq := tblGet 0 s.pdk.markerSeq pool
    let m : Item := { kind := 1, cells := 1, source := 551, seq := seq, mt := now s,
                      payload := markerCell pool queue (now s) wu, marker := true }
    let s := { s with pdk := { s.pdk with markerSeq := tblSet s.pdk.markerSeq pool ((seq + 1) % 2 ^ 32) } }
    setQueue s pool queue (q ++ [m])

/-- A dropping producer writes a packet, or it is dropped whole (R290, R294, R295). -/
def pdkPut (s : State) (pool queue : Nat) (it : Item) : State :=
  if pdkFits s pool queue (cellsOfPayload it.payload) then pdkAppend s pool queue it
  else if (pdkLimit pool queue).isSome then pdkDrop s pool queue (if it.hasWu then some it.wuId else none)
  else s

/-! ## Events, the fault log, reduced capacity -/

/-- An event (R468): code, mechanism, END flag, RESOURCE, MT_CAUSE, the unit, the parameters. -/
structure Event where
  code : Nat
  mech : Nat := 0
  fin : Bool := false
  res : Nat := 0
  wuId : Option Nat := none
  epoch : Nat := 0
  params : List Nat := []
deriving DecidableEq, Repr

/-- The 64-byte cell of an event (R468). -/
def eventCell (e : Event) (mt : Nat) : List Byte :=
  leBytes 2 e.code ++ leBytes 1 e.mech ++ leBytes 1 (flag e.fin) ++ leBytes 4 e.res ++ leBytes 8 mt ++
  leBytes 4 (e.wuId.getD 0) ++ leBytes 1 e.epoch ++ leBytes 3 0 ++
  ((numsFrom 0 5).map fun i => leBytes 8 (nth 0 e.params i)).flatten

/-- An event written into the event queue by a source (R289, R468): a dropping producer. -/
def postFrom (s : State) (src : Nat) (e : Event) : State :=
  pdkPut s 4 10 { source := src, hasWu := e.wuId.isSome, wuId := e.wuId.getD 0, epoch := e.epoch,
                  payload := eventCell e (now s) }

/-- An event of the module supervisor. -/
def post (s : State) (e : Event) : State := postFrom s 548 e

/-- A record of the fault log, which also passes to the metrology die's tap (R401, R441, R466). -/
def faultLog (s : State) (e : Event) : State :=
  let c := eventCell e (now s)
  { s with flt := { s.flt with log := tblSet s.flt.log (s.flt.logHead % 512) c, logHead := cap32 (s.flt.logHead + 1) }
           meter := { s.meter with faultTap := s.meter.faultTap ++ [.faultLog c] } }

/-- A detected fault posts a FAULT event and a fault-log record (R401, R469). -/
def postFault (s : State) (mech res p0 : Nat) : State :=
  let e : Event := { code := 0x0001, mech := mech, res := res, params := [p0] }
  faultLog (post s e) e

/-- The start of an interval of reduced capacity (R427): a CAPACITY event and record, once per condition and
resource. -/
def capOpen (s : State) (cond res : Nat) : State :=
  if s.flt.capacity.any fun c => c.1 == cond && c.2.1 == res then s
  else
    let v := capacityReg s
    let e : Event := { code := 0x0009, res := res, params := [cond, v] }
    let s := faultLog (post s e) e
    { s with flt := { s.flt with capacity := s.flt.capacity ++ [(cond, res, v)] } }

/-- The end of an interval of reduced capacity (R427). -/
def capClose (s : State) (cond res : Nat) : State :=
  match s.flt.capacity.find? fun c => c.1 == cond && c.2.1 == res with
  | none => s
  | some c =>
    let e : Event := { code := 0x0009, fin := true, res := res, params := [cond, c.2.2] }
    let s := faultLog (post s e) e
    { s with flt := { s.flt with capacity := s.flt.capacity.filter fun c => !(c.1 == cond && c.2.1 == res) } }

/-- What the Kyend monitor prints (R473): lines, without their CR LF. -/
def kyendSay (s : State) (l : List String) : State := { s with kyend := { s.kyend with out := l.reverse ++ s.kyend.out } }

/-- The prompt (R473). -/
def kyendPrompt (s : State) : State := kyendSay s ["kyend> "]

/-- The end of a `yarrow` command that waits for its visit (R474). -/
def kyendYarrowEnds (s : State) (p : Nat) (answer : String) : State :=
  if s.kyend.busy = some p then
    let s := { s with kyend := { s.kyend with busy := none } }
    kyendPrompt (kyendSay s [answer])
  else s

/-- A trace record (R470), written into a trace queue when its bit of DBG_TRACE_CTRL is set. The dispatcher writes
pool 4 queue 11; a cluster writes queue 136 of its die's pool. -/
def trace (s : State) (kind : Nat) (l : Option Nat) (wu epoch idx ticket : Nat) (data : List Byte) : State :=
  if bit s.clu.trace kind then
    let c := leBytes 1 kind ++ [0] ++ leBytes 2 (l.getD 0xFFFF) ++ leBytes 4 wu ++ leBytes 1 epoch ++ [0] ++
      leBytes 2 idx ++ leBytes 4 ticket ++ leBytes 8 (now s) ++ data.take 40 ++ List.replicate (40 - min 40 data.length) 0
    match l with
    | none => pdkPut s 4 11 { source := 549, hasWu := true, wuId := wu, epoch := epoch, payload := c }
    | some x => pdkPut s (x / 128) 136 { source := physOf s x, hasWu := true, wuId := wu, epoch := epoch, payload := c }
  else s

/-! ## Units -/

/-- The unit in flight with a WU_ID (R416). -/
def findUnit (s : State) (wu : Nat) : Option WorkUnit := s.disp.units.find? fun u => u.wuId == wu

/-- The state with a unit changed. -/
def modUnit (s : State) (wu : Nat) (f : WorkUnit → WorkUnit) : State :=
  { s with disp := { s.disp with units := s.disp.units.map fun u => if u.wuId = wu then f u else u } }

/-- The issued descriptor of a reference. -/
def findRun (s : State) (r : DescRef) : Option DRun :=
  match findUnit s r.wu with
  | none => none
  | some u => u.runs.find? fun d => d.ref == r

/-- The state with an issued descriptor changed. -/
def modRun (s : State) (r : DescRef) (f : DRun → DRun) : State :=
  modUnit s r.wu fun u => { u with runs := u.runs.map fun d => if d.ref = r then f d else d }

/-- A cause of discard recorded for a unit in flight (R405). A unit that has completed is no longer in flight (R402). -/
def addCause (s : State) (wu reason res : Nat) : State :=
  modUnit s wu fun u => { u with causes := u.causes ++ [{ mt := now s, reason := reason, resource := res }] }

/-- A cause of discard with its place in the order of poisoned reads (R407). -/
def addCauseK (s : State) (wu reason res : Nat) (key : List Nat) : State :=
  modUnit s wu fun u => { u with causes := u.causes ++ [{ mt := now s, reason := reason, resource := res, key := key }] }

/-- A cause recorded for every unit that a test picks. -/
def addCauses (s : State) (p : WorkUnit → Bool) (reason res : Nat) : State :=
  let mark (u : WorkUnit) : WorkUnit :=
    if p u then { u with causes := u.causes ++ [{ mt := now s, reason := reason, resource := res }] } else u
  { s with disp := { s.disp with units := s.disp.units.map mark } }

/-- The cause that a DISCARD notice carries (R405): earliest MT_CAUSE, then lowest reason code. -/
def chosenCause (l : List Cause) : Option Cause :=
  (sortBy (fun a b => decide (a.mt < b.mt) || (a.mt == b.mt && decide (a.reason < b.reason))) l).head?

/-- Order of two places of poisoned reads (R407): lexicographic; no place is last. -/
def keyLt : List Nat → List Nat → Bool
  | a :: r, b :: q => decide (a < b) || (a == b && keyLt r q)
  | _ :: _, [] => true
  | [], _ => false

/-- The cause as the notice carries it (R405, R407): the RESOURCE of POISON is that of the first poisoned read in the
fixed order. -/
def noticeCause (l : List Cause) : Option Cause :=
  match chosenCause l with
  | none => none
  | some c =>
    if c.reason = reasonPoison then
      (sortBy (fun a b : Cause => keyLt a.key b.key) (l.filter fun x => x.reason == reasonPoison)).head?.map
        fun x => { c with resource := x.resource }
    else some c

/-- Whether a unit may still go on: no cause of discard stands against it (R396). -/
def healthy (u : WorkUnit) : Bool := u.causes.isEmpty

/-- Footprints held by layers now running (R208), as logical clusters. -/
def heldClusters (s : State) : List Nat := s.disp.units.flatMap fun u => u.holds

/-- Whether a physical cluster lies in the footprint of a held layer (CLU_STATE.HELD). -/
def physHeld (s : State) (p : Nat) : Bool :=
  match logicalOf s p with
  | none => false
  | some l => (heldClusters s).contains l

/-! ## Reins -/

/-- The home of a counter (R273): 0 to 3 for C0 to C3, 4 for X. -/
def ctrHome (n : Nat) : Nat := if n < 0xF000 then n / 0x3C00 else 4

/-- The die on which a requester sits (R272): 0 to 3, 4 for X. -/
def reqDie (r : Nat) : Nat := if r < 544 then dieOfPhys r else if r < 548 then r - 544 else 4

/-- A counter. -/
def getCtr (s : State) (n : Nat) : Counter := tblGet {} s.reins.counters n

/-- The Reins changed. -/
def modReins (s : State) (f : Reins → Reins) : State := { s with reins := f s.reins }

/-- The latency of a counter response in MT ticks (R275): 40 ns or 120 ns. -/
def ctrLatency (req n : Nat) : Nat := if reqDie req = ctrHome n then 100 else 300

/-- A response on its way to its sender (R275, R276). -/
def respond (s : State) (req n : Nat) (v e : Option Nat) (arrives : Nat) : State :=
  modReins s fun r => { r with responses := r.responses ++
    [{ req := req, ctr := n, value := v, epoch := e, arrives := arrives }] }

/-- A held compare-wait is answered (R276, R279). A WAIT descriptor goes on, or its unit is discarded (R278). -/
def answerWait (s : State) (w : Wait) (v : Option Nat) : State :=
  let s := respond s w.req w.ctr v none (now s + ctrLatency w.req w.ctr)
  match w.ref with
  | none => s
  | some r =>
    match v with
    | some _ => modRun s r fun d => { d with waiting := false }
    | none => addCause (modRun s r fun d => { d with waiting := false }) r.wu reasonOwnerAbort (resCounter w.ctr)

/-- Whether a wait is satisfied by a value (R276). -/
def waitHolds (w : Wait) (v : Word) : Bool :=
  if w.equal then v.toNat == w.target else decide (w.target ≤ v.toNat)

/-- The answers of R279 after a change of a counter: ascending requester, then the order of application. -/
def answerWaits (s : State) (n : Nat) : State :=
  let v := (getCtr s n).value
  let hit := s.reins.waits.filter fun w => w.ctr == n && waitHolds w v
  let s := modReins s fun r => { r with waits := r.waits.filter fun w => !(w.ctr == n && waitHolds w v) }
  (sortBy (fun a b : Wait => decide (a.req < b.req)) hit).foldl (fun s w => answerWait s w (some v.toNat)) s

/-- A counter's value set, its waits answered. -/
def setCtrValue (s : State) (n : Nat) (v : Word) : State :=
  answerWaits (modReins s fun r => { r with counters := tblMod {} r.counters n fun c => { c with value := v } }) n

/-- A counter's epoch advanced (R277): every compare-wait held on it is answered REFUSED at once. -/
def advanceEpoch (s : State) (n : Nat) : State :=
  let s := modReins s fun r => { r with counters := tblMod {} r.counters n fun c => { c with epoch := (c.epoch + 1) % 256 } }
  let bad (w : Wait) := w.ctr == n
  let hit := s.reins.waits.filter bad
  let s := modReins s fun r => { r with waits := r.waits.filter fun w => !bad w }
  (sortBy (fun a b : Wait => decide (a.req < b.req)) hit).foldl (fun s w => answerWait s w none) s

/-- Whether an operation's expected epoch is refused (R277). -/
def refusedEpoch (s : State) (n : Nat) (e : Option Nat) : Bool :=
  match e with
  | none => false
  | some x => x % 256 != (getCtr s n).epoch

/-- Release MT of an operation (R274): 20 ticks on the home's die, else 120. -/
def releaseMt (req home sent : Nat) : Nat := sent + (if reqDie req = home then 20 else 120)

/-- A home applies an operation; it notes the order in which it applied it (R274). -/
def noteApplied (s : State) (home req sent : Nat) : State :=
  modReins s fun r => { r with lastApplied := tblSet r.lastApplied home (releaseMt req home sent, req) }

/-- Whether a Reins hub drops operations of a requester: its cluster is haltered (R410). -/
def reqHaltered (s : State) (req : Nat) : Bool := decide (req < 544) && (getClu s req).halter

/-- A fetch-add as a home applies it (R276): the old value, or none when refused. -/
def fetchAdd (s : State) (n a : Nat) (e : Option Nat) : State × Option Nat :=
  if refusedEpoch s n e then (s, none)
  else
    let old := (getCtr s n).value
    (setCtrValue s n (old + BitVec.ofNat 32 a), some old.toNat)

/-- A barrier. -/
def getBar (s : State) (b : Nat) : Barrier := tblGet {} s.reins.barriers b

/-- The state with a barrier set. -/
def setBar (s : State) (b : Nat) (x : Barrier) : State :=
  modReins s fun r => { r with barriers := tblSet r.barriers b x }

/-- One arrival at a barrier (R282): refused when its party count differs; at the count, every arrival is released
and the generation advances. The Bool says whether it was accepted. -/
def arriveBarrier (s : State) (b parties : Nat) (a : Arrival) : State × Bool :=
  let x := getBar s b
  if x.arrivals.isEmpty = false ∧ x.parties ≠ parties then (s, false)
  else
    let x' := { x with parties := parties, arrivals := x.arrivals ++ [a] }
    if x'.arrivals.length ≥ parties then
      let s := setBar s b { gen := (x.gen + 1) % 256 }
      (x'.arrivals.foldl (fun s a => match a.ref with
        | none => s
        | some r => modRun s r fun d => { d with waiting := false }) s, true)
    else (setBar s b x', true)

/-- Withdrawal of a unit's unreleased arrivals (R283): at 0 arrivals the party count is cleared. -/
def withdrawArrivals (s : State) (wu : Nat) : State :=
  let mine (a : Arrival) := match a.ref with | some r => r.wu == wu | none => false
  let cut (e : Nat × Barrier) : Nat × Barrier :=
    if e.2.arrivals.any mine then
      let l := e.2.arrivals.filter fun a => !mine a
      (e.1, { e.2 with arrivals := l, parties := if l.isEmpty then 0 else e.2.parties })
    else e
  modReins s fun r => { r with barriers := r.barriers.map cut }

/-! ## Free values -/

/-- n unspecified bytes, with their poison marks (R408): read from the counter `free`. -/
def freeBytes (s : State) (n : Nat) : State × List (Byte × Bool) :=
  ({ s with free := s.free + n },
   (numsFrom s.free n).map fun i => (Config.freeByte i, Config.freePoison i))

end Sys2Proof.Machine
end

