-- ==== Sys2Proof/Machine/Transport.lean ====
section
/-! DEFINITION. The transport engine (10 R314 to R328, and the peer profile's use of it): message headers and tags,
sending and holding sequenced messages, the checks of a received datagram, acknowledgements, and sessions. -/

namespace Sys2Proof.Machine

/-! ## Sequences, headers, tags -/

/-- Serial order modulo 2^32 (R318). -/
def serialLt (a b : Nat) : Bool :=
  let d := (b + 2 ^ 32 - a % 2 ^ 32) % 2 ^ 32
  decide (0 < d) && decide (d < 2 ^ 31)

/-- The next sequence, skipping 0 (R318). -/
def serialNext (n : Nat) : Nat := if n ≥ 0xFFFFFFFF then 1 else n + 1

/-- The 32 header bytes (R315). -/
def impHeader (typ : Nat) (enc repeatBit response peer : Bool) (session gen seq low mt xmit : Nat) : List Byte :=
  leBytes 1 1 ++ leBytes 1 typ ++
  leBytes 1 (field (flag enc) 7 + field (flag repeatBit) 6 + field (flag response) 5 + field (flag peer) 4) ++
  leBytes 1 session ++ leBytes 4 gen ++ leBytes 4 seq ++ leBytes 4 low ++ leBytes 8 mt ++ leBytes 8 xmit

/-- The header bytes of a received datagram. -/
def dgHeader (d : Datagram) : List Byte :=
  leBytes 1 d.version ++ leBytes 1 d.typ ++
  leBytes 1 (field (flag d.enc) 7 + field (flag d.repeatBit) 6 + field (flag d.response) 5 + field (flag d.peer) 4 + d.reserved % 16) ++
  leBytes 1 d.session ++ leBytes 4 d.gen ++ leBytes 4 d.seq ++ leBytes 4 d.low ++ leBytes 8 d.mt ++ leBytes 8 d.xmit

/-- The tag before a session exists: the first 16 bytes of SHAKE256 over header and body (R325). -/
def openTag (hdr body : List Byte) : List Byte := (Config.shake256 64 (hdr ++ body)).take 16

/-- Body and tag as sent inside a session (R316). -/
def sealBody (se : Session) (hdr body : List Byte) (xmit : Nat) : List Byte × List Byte :=
  if se.enc then Config.gcmSeal se.encTx (se.saltTx ++ leBytes 8 xmit) hdr body
  else (body, Config.kmac256 16 se.tagTx (hdr ++ body) "IMP")

/-- The plain body of a received datagram (R316). -/
def plainBody (se : Session) (d : Datagram) : List Byte :=
  if se.enc then Config.gcmOpen se.encRx (se.saltRx ++ leBytes 8 d.xmit) (dgHeader d) d.body else d.body

/-- Whether a datagram's tag verifies (R316, R317 check 3). -/
def tagOk (se : Session) (d : Datagram) : Bool :=
  if d.enc != se.enc then false
  else if se.enc then
    (Config.gcmSeal se.encRx (se.saltRx ++ leBytes 8 d.xmit) (dgHeader d) (plainBody se d)) == (d.body, d.tag)
  else Config.kmac256 16 se.tagRx (dgHeader d ++ d.body) "IMP" == d.tag

/-! ## Ports and sessions -/

/-- A port's counters changed. -/
def modCtr (s : State) (lk : Link) (f : PortCounters → PortCounters) : State :=
  match lk with
  | .host => modHost s fun h => { h with ctr := f h.ctr }
  | .peer p => modPeerPort s p fun q => { q with ctr := f q.ctr }

/-- A frame received and accepted (PRT_RX_FRAMES). -/
def countRx (s : State) (lk : Link) : State := modCtr s lk fun c => { c with rxFrames := cap32 (c.rxFrames + 1) }

/-- A datagram discarded at a check of R317 (PRT_IMP_DROP). -/
def impDrop (s : State) (lk : Link) (check : Nat) : State :=
  modCtr s lk fun c => { c with impDrop := tblInc c.impDrop check }

/-- A thing that leaves the module: recorded, and its frame counted (PRT_TX_FRAMES). -/
def putSent (s : State) (lk : Link) (x : Sent) : State :=
  modCtr (modHost s fun h => { h with sent := x :: h.sent }) lk fun c => { c with txFrames := cap32 (c.txFrames + 1) }

/-- Whether a link can carry frames: the host port not down (R313), or a peer link linked without session, in
MISMATCH or with its session open, but not training, foreign or in a lane swap (R345, R347, R353). -/
def linkUp (s : State) : Link → Bool
  | .host => s.ctl.powered && !s.host.down
  | .peer p => s.ctl.powered && decide (3 ≤ (peerPortOf s p).state) && decide ((peerPortOf s p).state ≤ 5)

/-- A session of a link: by number on the host port, the only one of a peer port. -/
def findSess (s : State) (lk : Link) (num : Nat) : Option Session :=
  match lk with
  | .host => s.host.sessions.find? fun x => x.num == num
  | .peer p => (peerPortOf s p).session

/-- The state with a link's session replaced. -/
def putSess (s : State) (lk : Link) (se : Session) : State :=
  match lk with
  | .host => modHost s fun h => { h with sessions := h.sessions.map fun x => if x.num = se.num then se else x }
  | .peer p => modPeerPort s p fun q => { q with session := q.session.map fun _ => se }

/-- The state with a link's session changed. -/
def modSess (s : State) (lk : Link) (num : Nat) (f : Session → Session) : State :=
  match findSess s lk num with
  | none => s
  | some se => putSess s lk (f se)

/-- The lowest sequence still held (R315 LOW, R318). -/
def sessLow (se : Session) : Nat :=
  match se.held with
  | [] => se.txNext
  | h :: _ => h.seq

/-- A session's first retransmission timeout for a message, in ticks (R320): 200 us before any estimate. -/
def firstTimeout (se : Session) : Nat :=
  match se.srtt with
  | none => 500000
  | some r => max 125000 (r + 4 * se.rttvar)

/-- Whether a link belongs to the peer profile. -/
def linkPeer : Link → Bool
  | .host => false
  | .peer _ => true

/-- One transmission on a session: the datagram, with a fresh XMIT (R315, R320). -/
def transmit (s : State) (lk : Link) (se : Session) (typ : Nat) (body : List Byte) (repeatBit response : Bool)
    (seq mt : Nat) : State :=
  let x := se.txXmit + 1
  let se := { se with txXmit := x, txLow := sessLow se }
  let hdr := impHeader typ se.enc repeatBit response (linkPeer lk) se.num se.gen seq se.txLow mt x
  let (b, tag) := sealBody se hdr body x
  putSent (putSess s lk se) lk
    (.imp (now s) lk se.num se.gen typ se.enc repeatBit response seq se.txLow mt x b tag)

/-- Whether a notice's transmission is a COMPLETE's departure (R342): the tap to the metrology die. -/
def departTap (s : State) (typ : Nat) (repeatBit : Bool) (body : List Byte) : State :=
  if typ = 0x11 ∧ repeatBit = false then
    { s with meter := { s.meter with departTap := s.meter.departTap ++
        [.completeDeparture (leAt body 16 4) (leAt body 20 1) (now s)] } }
  else s

/-- Held messages not yet transmitted go out, as far as the window of R318 and the link allow. -/
def flushHeld (s : State) (lk : Link) (num : Nat) : Nat → State
  | 0 => s
  | k + 1 =>
    match findSess s lk num with
    | none => s
    | some se =>
      match se.held.find? fun h => h.tries == 0 with
      | none => s
      | some h =>
        if linkUp s lk && serialLt h.seq ((sessLow se + 4096) % 2 ^ 32) then
          let h' := { h with tries := 1, firstTx := now s, lastTx := now s }
          let se := { se with held := se.held.map fun x => if x.seq = h.seq then h' else x }
          let s := transmit (putSess s lk se) lk se h.typ h.body h.repeatBit false h.seq (now s)
          flushHeld (departTap s h.typ h.repeatBit h.body) lk num k
        else s

/-- A sequenced message queued on a session and sent as soon as it may (R318). -/
def sendSeq (s : State) (lk : Link) (num typ : Nat) (body : List Byte) (repeatBit : Bool)
    (notice : Option (Nat × Item)) : State :=
  match findSess s lk num with
  | none => s
  | some se =>
    let h : Held := { seq := se.txNext, typ := typ, body := body, repeatBit := repeatBit, firstTx := now s,
                      lastTx := now s, timeout := firstTimeout se, tries := 0, notice := notice }
    let se := { se with txNext := serialNext se.txNext, held := se.held ++ [h] }
    flushHeld (putSess s lk se) lk num (se.held.length)

/-- An unsequenced message on a session (R318). A link that is down carries none. -/
def sendPlain (s : State) (lk : Link) (num typ : Nat) (body : List Byte) (response : Bool) : State :=
  match findSess s lk num with
  | none => s
  | some se => if linkUp s lk then transmit s lk se typ body false response 0 (now s) else s

/-- A KEY_REPLY or KEY_INIT before a session exists (R324, R325): SESSION 0xFF. -/
def sendOpen (s : State) (lk : Link) (typ : Nat) (body : List Byte) : State :=
  if linkUp s lk then
    let hdr := impHeader typ false false false (linkPeer lk) 0xFF 0 0 0 (now s) 0
    putSent s lk (.imp (now s) lk 0xFF 0 typ false false false 0 0 (now s) 0 body (openTag hdr body))
  else s

/-! ## Receiving -/

/-- The received sequences folded into CUM (R319): every sequence up to CUM received, or below the sender's LOW. -/
def advanceCum : Nat → Session → Session
  | 0, se => se
  | k + 1, se =>
    let n := serialNext se.rxCum
    if se.rxSeqs.contains n then advanceCum k { se with rxCum := n, rxSeqs := se.rxSeqs.filter (· != n) }
    else if serialLt n se.rxLow && !se.rxBusy.contains n then advanceCum k { se with rxCum := n }
    else se

/-- A sequence recorded as received (R319). -/
def markReceived (se : Session) (seq : Nat) : Session :=
  let se := { se with rxSeqs := addOnce se.rxSeqs seq, rxBusy := se.rxBusy.filter (· != seq) }
  advanceCum (se.rxSeqs.length + 4096) se

/-- Whether a sequence has been received before (R319). -/
def seenBefore (se : Session) (seq : Nat) : Bool :=
  seq == se.rxCum || serialLt seq se.rxCum || se.rxSeqs.contains seq || se.rxBusy.contains seq

/-- One byte of the ACK bitmap: bits i to i + 7 report sequences CUM + 1 + i onwards (R319). -/
def ackByte (se : Session) (i : Nat) : Byte :=
  BitVec.ofNat 8 (sumNat ((numsFrom 0 8).map fun b =>
    flag (se.rxSeqs.contains ((se.rxCum + 1 + 8 * i + b) % 2 ^ 32)) * 2 ^ b))

/-- The ACK body (R319). -/
def ackBody (se : Session) : List Byte :=
  leBytes 4 se.rxCum ++ leBytes 4 0 ++ (numsFrom 0 512).map (ackByte se)

/-- An ACK sent on a session (R319). -/
def sendAck (s : State) (lk : Link) (num : Nat) : State :=
  match findSess s lk num with
  | none => s
  | some se => sendPlain s lk num 0x60 (ackBody se) false

/-- A late message's write has landed: its sequence is reported received (R319). -/
def lateLanded (s : State) (lk : Link) (num gen seq : Nat) : State :=
  match findSess s lk num with
  | none => s
  | some se =>
    if se.gen = gen ∧ se.rxBusy.contains seq then sendAck (putSess s lk (markReceived se seq)) lk num else s

/-- The age limit of a link in ticks: 10 ms (R321), or 100 ms on the peer profile (R349). -/
def ageLimit (lk : Link) : Nat := if linkPeer lk then 250000000 else 25000000

/-- The age check of R321. -/
def ageOk (lk : Link) (t mt : Nat) : Bool := decide (t ≤ mt + ageLimit lk) && decide (mt ≤ t + 2500000)

/-- Checks 1 to 6 of R317 on a datagram inside a session: 0 when every one passes, else the first that fails. -/
def impCheck (s : State) (lk : Link) (d : Datagram) (typ : Nat) : Nat :=
  if d.version ≠ 1 ∨ d.peer ≠ linkPeer lk ∨ d.body.length > 8272 then 1
  else
    match findSess s lk d.session with
    | none => 2
    | some se =>
      if (se.num ≠ d.session ∧ linkPeer lk = false) ∨ se.gen ≠ d.gen then 2
      else if !tagOk se d then 3
      else if se.rxXmits.contains d.xmit || decide (d.xmit + 4096 < se.rxHigh) then 4
      else if !ageOk lk (now s) d.mt then 5
      else if d.typ ≠ typ then 6
      else 0

/-- What a datagram inside a session comes to. -/
inductive Rx where
  | drop
  | act (se : Session) (body : List Byte)
deriving DecidableEq, Repr

/-- A datagram received on a link (R317 to R319). A dropped one is counted by its check; a duplicate is acknowledged
again. `late` messages are reported received only when their effect has landed. -/
def receive (s : State) (lk : Link) (d : Datagram) (typ : Nat) (sequenced late : Bool) : State × Rx :=
  if !linkUp s lk then (s, .drop)
  else
    let s := countRx s lk
    let c := impCheck s lk d typ
    if c ≠ 0 then (impDrop s lk c, .drop)
    else
      match findSess s lk d.session with
      | none => (s, .drop)
      | some se =>
        let high := max se.rxHigh d.xmit
        let se := { se with lastRx := now s, rxHigh := high,
                            rxXmits := (d.xmit :: se.rxXmits).filter fun x => decide (high ≤ x + 4096) }
        let body := plainBody se d
        if !sequenced then (putSess s lk se, .act se body)
        else
          let se := { se with rxLow := if serialLt se.rxLow d.low then d.low else se.rxLow }
          if seenBefore se d.seq then (sendAck (putSess s lk se) lk se.num, .drop)
          else
            let se := if late then { se with rxBusy := se.rxBusy ++ [d.seq] } else markReceived se d.seq
            (putSess s lk se, .act se body)

/-! ## Acknowledgement and abandonment of what the module sent -/

/-- Whether an ACK body reports a sequence received (R319). -/
def ackReports (body : List Byte) (seq : Nat) : Bool :=
  let cum := leAt body 0 4
  if seq = cum ∨ serialLt seq cum then true
  else
    let i := (seq + 2 ^ 32 - (cum + 1) % 2 ^ 32) % 2 ^ 32
    decide (i < 4096) && bit (leAt body (8 + i / 8) 1) (i % 8)

/-- The round-trip estimate after a sample, in ticks (R320; RFC 6298): only messages sent once give one. -/
def rttSample (se : Session) (r : Nat) : Session :=
  match se.srtt with
  | none => { se with srtt := some r, rttvar := r / 2 }
  | some x =>
    { se with rttvar := (3 * se.rttvar + (if x < r then r - x else x - r)) / 4, srtt := some ((7 * x + r) / 8) }

/-- The effect of an ACK on a session (R319, R320). -/
def takeAck (t : Nat) (body : List Byte) (se : Session) : Session :=
  let hit := se.held.filter fun h => decide (h.tries ≠ 0) && ackReports body h.seq
  let se := hit.foldl (fun se h => if h.tries = 1 then rttSample se (t - h.lastTx) else se) se
  let se := { se with held := se.held.filter fun h => !(decide (h.tries ≠ 0) && ackReports body h.seq) }
  { se with txLow := sessLow se }

/-! ## NACK, the owner, notices -/

/-- A NACK body (R334). -/
def nackBody (refSeq refTyp reason : Nat) (wu epoch : Nat) (detail : Nat) : List Byte :=
  leBytes 4 refSeq ++ leBytes 1 refTyp ++ leBytes 1 reason ++ leBytes 2 0 ++ leBytes 4 wu ++ leBytes 1 epoch ++
  leBytes 3 0 ++ leBytes 8 detail

/-- A NACK to a message that names no unit. -/
def sendNack (s : State) (num seq typ reason detail : Nat) : State :=
  sendSeq s .host num 0x61 (nackBody seq typ reason 0 0 detail) false none

/-- Whether a session holds the bridle now (R336, R338, R340). -/
def isOwner (s : State) (num gen : Nat) : Bool :=
  s.host.owner == some (num, gen) && decide (now s ≤ s.host.leaseEnd)

/-- The unacknowledged notices of a session return to wait for the next owner (R322), oldest first. -/
def returnNotices (s : State) (num : Nat) : State :=
  match findSess s .host num with
  | none => s
  | some se =>
    let l := se.held.filterMap fun h => h.notice
    let se := { se with held := se.held.filter fun h => h.notice.isNone }
    modHost (putSess s .host { se with txLow := sessLow se }) fun h => { h with returned := h.returned ++ l }

/-- The bridle becomes vacant (R338, R339, R341). -/
def vacateBridle (s : State) : State :=
  match s.host.owner with
  | none => s
  | some o => modHost (returnNotices s o.1) fun h => { h with owner := none }

/-- A session takes the bridle: LEASE_END is 5,000,000,000 ticks on, and GRANT is sent (R333, R337 to R339). -/
def grantBridle (s : State) (se : Session) (cause : Nat) : State :=
  let fin := now s + 5000000000
  let s := modHost s fun h => { h with owner := some (se.num, se.gen), leaseEnd := fin }
  sendSeq s .host se.num 0x02
    (leBytes 1 se.num ++ leBytes 1 cause ++ leBytes 2 0 ++ leBytes 4 se.gen ++ leBytes 8 fin ++ leBytes 8 (now s)) false none

/-- A host session closes (R328, R337, R338): keys, windows and unsent responses go; an owner's lease ends. -/
def closeSession (s : State) (num : Nat) : State :=
  match findSess s .host num with
  | none => s
  | some se =>
    let s := if s.host.owner = some (se.num, se.gen) then vacateBridle s else s
    let drop (e : Election) : Election :=
      { e with entrants := e.entrants.filter fun x => !(x.1 == se.num && x.2.1 == se.gen) }
    modHost s fun h => { h with sessions := h.sessions.filter fun x => x.num != num, election := h.election.map drop }

/-- The item block of 16 bytes (R330). -/
def itemBlock (it : Item) : List Byte :=
  leBytes 2 it.source ++ leBytes 1 (flag it.poison) ++ leBytes 1 0 ++ leBytes 4 it.seq ++ leBytes 8 it.mt

/-- The message type of an item read from a queue toward the owner (R289, R297). -/
def noticeType (pool queue : Nat) (it : Item) : Nat :=
  if it.kind = 1 then 0x41 else if pool = 4 ∧ queue = 8 then 0x11 else if pool = 4 ∧ queue = 9 then 0x12 else 0x40

/-- A payload padded to whole cells. -/
def padCells (l : List Byte) : List Byte := l ++ List.replicate (64 * cellsOfPayload l - l.length) 0

/-- The body of a notice (R330): a GAP repeats the marker's pool and queue before its cell. -/
def noticeBody (pool queue : Nat) (it : Item) : List Byte :=
  match noticeType pool queue it with
  | 0x41 => itemBlock it ++ leBytes 2 (leAt it.payload 5 2) ++ leBytes 6 0 ++ padCells it.payload
  | 0x40 => itemBlock it ++ padCells it.payload
  | _ => itemBlock it ++ it.payload

/-- A notice sent to the owner's session and kept until it is acknowledged (R322). -/
def sendNotice (s : State) (num pool queue : Nat) (it : Item) (repeatBit : Bool) : State :=
  sendSeq s .host num (noticeType pool queue it) (noticeBody pool queue it) repeatBit (some (qKey pool queue, it))

/-! ## Allowlist and certificates (R306, R373, R434) -/

/-- Block offset of a host allowlist entry (R373). -/
def keyEntry (i : Nat) : Nat := 0x1000 + 2048 * i

/-- Whether an allowlist entry is valid. -/
def keyValid (s : State) (i : Nat) : Bool := decide (i < 32) && bit (cfgField s (keyEntry i) 1) 0

/-- PRIORITY of an allowlist entry. -/
def keyPriority (s : State) (i : Nat) : Nat := cfgField s (keyEntry i + 1) 1

/-- ML-DSA-65 public key of an allowlist entry. -/
def keyPublic (s : State) (i : Nat) : List Byte := cfgBytes s (keyEntry i + 4) 1952

/-- The certificate bundle of 23,616 bytes (R434). -/
def bundleBytes (s : State) : List Byte := s.flash.certs.take 23616

/-- The transcript digest T (R324). -/
def transcript (s : State) (nonceH nonceM : List Byte) (keyIndex enc : Nat) (ct : List Byte) : List Byte :=
  Config.shake256 64 (nonceH ++ nonceM ++ leBytes 1 keyIndex ++ leBytes 1 enc ++ ct ++ Config.shake256 64 (bundleBytes s))

end Sys2Proof.Machine
end

