-- ==== Sys2Proof/Machine/Bridle.lean ====
section
/-! DEFINITION. The bridle (10 R336 to R341): elections, the lease, and its release. -/

namespace Sys2Proof.Machine

/-- A sequenced message of a host session taken in and acknowledged after its action (R317 to R319). -/
def hostMessage (s : State) (d : Datagram) (typ : Nat) (act : State → Session → List Byte → State) : State :=
  match receive s .host d typ true false with
  | (s, .drop) => s
  | (s, .act se body) => sendAck (act s se body) .host se.num

/-- An owner's right (R336): an observer's message is answered with NACK RIGHTS and has no effect. -/
def ownerOnly (typ : Nat) (seq : Nat) (s : State) (se : Session) (act : State → State) : State :=
  if isOwner s se.num se.gen then act s else sendNack s se.num seq typ 1 0

/-- What a CLAIM does (R337): refused while the bridle is held; else it opens or enters the election. -/
def actClaim (seq : Nat) (s : State) (se : Session) (body : List Byte) : State :=
  if !body.isEmpty then sendNack s se.num seq 0x01 2 0
  else
    match s.host.owner.filter fun o => isOwner s o.1 o.2 with
    | some o => sendNack s se.num seq 0x01 7 o.1
    | none =>
      let entry := (se.num, se.gen, se.key, seq)
      modHost s fun h =>
        match h.election with
        | none => { h with election := some { closeAt := now s + 500000000, entrants := [entry] } }
        | some e =>
          if e.entrants.any fun x => x.1 == se.num && x.2.1 == se.gen then h
          else { h with election := some { e with entrants := e.entrants ++ [entry] } }

/-- CLAIM (R337). -/
def execClaim (t : Nat) (d : Datagram) (s : State) : Host.Outcome State Fault Refusal :=
  .next (hostMessage (atMt s t) d 0x01 (actClaim d.seq))

/-- Whether one entrant goes before another (R337): higher PRIORITY, then lower key index. -/
def entrantFirst (s : State) (a b : Nat × Nat × Nat × Nat) : Bool :=
  decide (keyPriority s b.2.2.1 < keyPriority s a.2.2.1) ||
  (keyPriority s a.2.2.1 == keyPriority s b.2.2.1 && decide (a.2.2.1 < b.2.2.1))

/-- The close of an election (R337): GRANT with CAUSE 0 to the winner, NACK BRIDLE_HELD naming it to every other. -/
def closeElection (s : State) (e : Election) : State :=
  let s := modHost s fun h => { h with election := none }
  let live := e.entrants.filter fun x => s.host.sessions.any fun y => y.num == x.1 && y.gen == x.2.1
  match sortBy (entrantFirst s) live with
  | [] => s
  | w :: rest =>
    match findSess s .host w.1 with
    | none => s
    | some se => rest.foldl (fun s x => sendNack s x.1 x.2.2.2 0x01 7 w.1) (grantBridle s se 0)

/-- ELECTION_CLOSE (R337): 200 ms after the first CLAIM. -/
def execElectionClose (t : Nat) (s : State) : Host.Outcome State Fault Refusal :=
  let s := atMt s t
  match s.host.election with
  | none => .next s
  | some e => if e.closeAt ≤ now s then .next (closeElection s e) else .next s

/-- What a LEASE_RENEW does (R338). -/
def actRenew (seq : Nat) (s : State) (se : Session) (body : List Byte) : State :=
  ownerOnly 0x04 seq s se fun s => if !body.isEmpty then sendNack s se.num seq 0x04 2 0 else grantBridle s se 1

/-- LEASE_RENEW (R338). -/
def execLeaseRenew (t : Nat) (d : Datagram) (s : State) : Host.Outcome State Fault Refusal :=
  .next (hostMessage (atMt s t) d 0x04 (actRenew d.seq))

/-- LEASE_EXPIRY (R338): at LEASE_END + 1 the bridle becomes vacant and BRIDLE_LAPSED is queued; the former owner's
session stays open. -/
def execLeaseExpiry (t : Nat) (s : State) : Host.Outcome State Fault Refusal :=
  let s := atMt s t
  match s.host.owner with
  | none => .next s
  | some o =>
    if s.host.leaseEnd < now s then .next (post (vacateBridle s) { code := 0x0050, params := [o.1] }) else .next s

/-- What a RELEASE does (R339). -/
def actRelease (seq : Nat) (s : State) (se : Session) (body : List Byte) : State :=
  ownerOnly 0x03 seq s se fun s =>
    let succ := leAt body 0 1
    if body.length ≠ 8 then sendNack s se.num seq 0x03 2 0
    else if leAt body 1 7 ≠ 0 then sendNack s se.num seq 0x03 2 1
    else if succ = 0xFF then vacateBridle s
    else if succ = se.num then sendNack s se.num seq 0x03 8 succ
    else
      match findSess s .host succ with
      | none => sendNack s se.num seq 0x03 8 succ
      | some x => grantBridle (vacateBridle s) x 2

/-- RELEASE (R339). -/
def execRelease (t : Nat) (d : Datagram) (s : State) : Host.Outcome State Fault Refusal :=
  .next (hostMessage (atMt s t) d 0x03 (actRelease d.seq))

end Sys2Proof.Machine
end

