-- ==== Sys2Proof/Machine/Memory.lean ====
section
/-! DEFINITION. Service memory (08): placement over stacks with rotating parity (R251), lost regions and reconstruction
(R254 to R257), reads and pending writes of the parity engines (R253), poison (R267), page tables and translation
caches (R260 to R264), and the weight caches (R245 to R247). -/

namespace Sys2Proof.Machine

/-! ## Capacity and placement -/

/-- Service capacity in bytes (R252). -/
def serviceCap (s : State) : Nat := if cfgSingleGuard s then 1520 * 2 ^ 30 else 1440 * 2 ^ 30

/-- Size of the data space in bytes (R252). -/
def dataSpace (s : State) : Nat := if cfgSingleGuard s then 1520 * 2 ^ 30 else 1444 * 2 ^ 30

/-- The data address of a physical address: the frame map of R259 applied. -/
def dataAddr (s : State) (pa : Nat) : Nat :=
  let f := pa / 2097152
  2097152 * (tblFind s.hbm.frameMap f).getD f + pa % 2097152

/-- Stripe row of a data address (R251). -/
def rowOf (da : Nat) : Nat := da / 4096 / 19

/-- Parity stack of a row (R251). -/
def parityStack (n : Nat) : Nat := n % 20

/-- Stack of the data unit at a position of a row (R251). -/
def dataStack (n d : Nat) : Nat := (n % 20 + 1 + d) % 20

/-- Pseudo-channel of a stack unit (R248), as 64 x stack + channel. -/
def pcOf (stack unit : Nat) : Nat := 64 * stack + unit % 64

/-- The pseudo-channel that holds a data address. -/
def pcOfData (da : Nat) : Nat := pcOf (dataStack (rowOf da) (da / 4096 % 19)) (rowOf da)

/-- Whether a lost region covers a unit of a stack. -/
def inRegion (r : LostRegion) (stack unit : Nat) : Bool :=
  r.stack == stack && (match r.pc with | none => true | some c => c == unit % 64)

/-- The (n mod 19)-th surviving stack in ascending order (R256). -/
def survivor (dead n : Nat) : Nat := if n % 19 < dead then n % 19 else n % 19 + 1

/-- Whether the unit of row n in a stack is lost now: in a lost region not rebuilt, or added alone (R259), or in a row with
two losses, or rebuilt into a spare unit that lies in a region since lost (R257). -/
def unitLost (s : State) (stack n : Nat) : Bool :=
  s.hbm.lostUnits.contains (stack * 2 ^ 25 + n) ||
  s.hbm.lost.any fun r => inRegion r stack n &&
    (!r.rebuilt || (r.holes.any fun c => match c with | none => true | some x => x == n % 64) || s.hbm.lost.any fun q => !q.rebuilt && inRegion q (survivor r.stack n) (19922944 + n / 19))

/-- Whether nothing at all is lost, so that reads need no reconstruction. -/
def nothingLost (s : State) : Bool := s.hbm.lost.isEmpty && s.hbm.lostUnits.isEmpty

/-- The data position of a row that is lost, if it is this one. -/
def dataLost (s : State) (n d : Nat) : Bool := !nothingLost s && unitLost s (dataStack n d) n

/-- Whether a row's parity unit is lost. -/
def parityLost (s : State) (n : Nat) : Bool := !nothingLost s && unitLost s (parityStack n) n

/-! ## Reads -/

/-- Data address of byte o of the unit at position d of row n. -/
def unitByte (n d o : Nat) : Nat := (19 * n + d) * 4096 + o

/-- The stored parity byte o of row n. -/
def parityByte (s : State) (n o : Nat) : Byte := cellGet s.hbm.parity (4096 * n + o)

/-- The exclusive or of the other 18 data bytes and the parity byte at one offset (R254). -/
def reconstruct (s : State) (n d o : Nat) : Byte :=
  (numsFrom 0 19).foldl (fun x i => if i = d then x else x ^^^ cellGet s.hbm.data (unitByte n i o)) (parityByte s n o)

/-- Whether a reconstruction at an offset delivers poison (R254): a needed granule is lost, or POISON_SEEN is set. -/
def reconBad (s : State) (n d o : Nat) : Bool :=
  parityLost s n || s.hbm.poisonSeen.contains (64 * n + o / 64) ||
  (numsFrom 0 19).any fun i => i != d && dataLost s n i

/-- One byte at a data address with its poison (R254, R255, R267). -/
def dataByte (s : State) (da : Nat) : Byte × Bool :=
  let n := rowOf da
  let d := da / 4096 % 19
  if dataLost s n d then (reconstruct s n d (da % 4096), reconBad s n d (da % 4096))
  else (cellGet s.hbm.data da, s.hbm.poison.contains (da / 64))

/-- A run of bytes at a physical address, inside one frame. -/
def paRead (s : State) (pa n : Nat) : List (Byte × Bool) :=
  let da := dataAddr s pa
  if nothingLost s && s.hbm.poison.isEmpty then (cellRead s.hbm.data da n).map fun b => (b, false)
  else (numsFrom da n).map (dataByte s)

/-- A little-endian number in a run of bytes, and whether any of them is poisoned. -/
def runNat (l : List (Byte × Bool)) : Nat × Bool := (leNat (l.map (·.1)), l.any (·.2))

/-! ## Pending writes and their landing -/

/-- A run of bytes cut at 4 KiB boundaries of the physical address (R235, R251). -/
def cutUnits (pa : Nat) (l : List (Byte × Bool)) : Nat → List (Nat × List (Byte × Bool))
  | 0 => []
  | k + 1 =>
    if l.isEmpty then []
    else
      let n := 4096 - pa % 4096
      (pa, l.take n) :: cutUnits (pa + n) (l.drop n) k

/-- A write on its way to its parity engines (R237, R253). -/
def queueWrite (s : State) (src : Nat) (who : Writer) (pa : Nat) (l : List (Byte × Bool)) : State :=
  let new := (cutUnits pa l (l.length + 1)).map fun e => ({ src := src, pa := e.1, bytes := e.2, who := who } : PendingWrite)
  { s with hbm := { s.hbm with pending := s.hbm.pending ++ new } }

/-- The row of a pending write. -/
def pendingRow (s : State) (w : PendingWrite) : Nat := rowOf (dataAddr s w.pa)

/-- Data bytes written with the parity of their rows kept (R253, R255): an old byte's change enters the parity, a lost
data unit is not stored, and a lost parity unit is not updated. Both methods of R253 give this parity. -/
def landBytes (s : State) : Nat → List (Byte × Bool) → State
  | _, [] => s
  | da, (b, _) :: r =>
    let n := rowOf da
    let d := da / 4096 % 19
    let o := da % 4096
    let old := (dataByte s da).1
    let h := s.hbm
    let h := if parityLost s n then h
             else { h with parity := cellSet h.parity (4096 * n + o) (cellGet h.parity (4096 * n + o) ^^^ old ^^^ b) }
    let h := if dataLost s n d then h else { h with data := cellSet h.data da b }
    landBytes { s with hbm := h } (da + 1) r

/-- The granules of a run: granule number, whether the run covers it whole, whether the run's bytes in it are
poisoned. -/
def runGranules (da : Nat) (l : List (Byte × Bool)) : List (Nat × Bool × Bool) :=
  (numsFrom (da / 64) ((da + l.length - 1) / 64 + 1 - da / 64)).map fun g =>
    let a := max (64 * g) da
    let z := min (64 * g + 64) (da + l.length)
    (g, z == 64 * g + 64 && a == 64 * g, ((l.drop (a - da)).take (z - a)).any (·.2))

/-- The poison of a run's granules after a write (R250, R267): a partly written granule keeps its old poison. -/
def landPoison (s : State) (gs : List (Nat × Bool × Bool)) : State :=
  gs.foldl (fun s g =>
    let bad := g.2.2 || (!g.2.1 && s.hbm.poison.contains g.1)
    let h := s.hbm
    let h := if bad then { h with poison := addOnce h.poison g.1, poisonSeen := addOnce h.poisonSeen (64 * rowOf (64 * g.1) + g.1 % 64) }
             else { h with poison := h.poison.filter (· != g.1) }
    { s with hbm := h }) s

/-- Lines of the weight caches that a written range overlaps are dropped from all four (R246). -/
def invalidateLines (s : State) (pa n : Nat) : State :=
  let hit (c : CacheLine) := decide (c.pa < pa + n) && decide (pa < c.pa + 256)
  { s with hbm := { s.hbm with caches := s.hbm.caches.map fun e => (e.1, e.2.filter fun c => !hit c) } }

/-- One write lands: data, parity, poison, cache lines. -/
def landRun (s : State) (pa : Nat) (l : List (Byte × Bool)) : State :=
  if l.isEmpty then s
  else
    let da := dataAddr s pa
    invalidateLines (landPoison (landBytes s da l) (runGranules da l)) pa l.length

/-- Granule offsets of a row that a list of its writes changes, with the data positions changed at each. -/
def changedAt (s : State) (ws : List PendingWrite) (g : Nat) : List Nat :=
  dedup ((ws.filter fun w =>
    let da := dataAddr s w.pa
    decide ((da % 4096) / 64 ≤ g) && decide (g ≤ (da % 4096 + w.bytes.length - 1) / 64)).map
      fun w => dataAddr s w.pa / 4096 % 19)

/-- POISON_SEEN after the writes of a row (R254): it is cleared at an offset only where the parity is computed from 19
granules (w of 9 or more, R253) that are all clean. -/
def clearSeen (s : State) (n : Nat) (ws : List PendingWrite) : State :=
  let gone := (numsFrom 0 64).filter fun g =>
    s.hbm.poisonSeen.contains (64 * n + g) && decide (9 ≤ (changedAt s ws g).length) && !parityLost s n &&
    !((numsFrom 0 19).any fun d => dataLost s n d || s.hbm.poison.contains ((unitByte n d (64 * g)) / 64))
  { s with hbm := { s.hbm with poisonSeen := s.hbm.poisonSeen.filter fun k => !(gone.any fun g => 64 * n + g == k) } }

/-- The parity engine applies the pending writes of a row in arrival order (R253). -/
def landRow (s : State) (n : Nat) : State :=
  let ws := s.hbm.pending.filter fun w => pendingRow s w == n
  let rest := s.hbm.pending.filter fun w => !(pendingRow s w == n)
  let s := ws.foldl (fun s w => landRun s w.pa w.bytes) { s with hbm := { s.hbm with pending := rest } }
  clearSeen s n ws

/-- Whether a writer still has writes that have not landed. -/
def writesOpen (s : State) (w : Writer) : Bool := s.hbm.pending.any fun p => decide (p.who = w)

/-! ## Translation -/

/-- The outcome of a translation: the physical address with its leaf entry, or why there is none. -/
inductive Xlate where
  | ok (pa leaf : Nat)
  | absent
  | poison
  | noJob
deriving DecidableEq, Repr

/-- The slot of a job that is open, or whose end still waits for its units (R260, R266, R459). -/
def jobSlot (s : State) (job : Nat) : Option JobSlot :=
  (s.disp.jobs.find? fun e => (e.2.valid || e.2.closing) && e.2.jobId == job).map (·.2)

/-- The root table address of a job's slot. -/
def rootOf (j : JobSlot) : Nat := j.rootHi * 2 ^ 32 + j.rootLo

/-- The leaf entry for a virtual address as the page table in memory holds it (R261, R262, R263). -/
def walkTable (s : State) (j : JobSlot) (va : Nat) : Xlate :=
  let (root, rp) := runNat (paRead s (rootOf j + 8 * bits va 47 30) 8)
  if rp then .poison
  else
    let tab := field (bits root 40 12) 12
    if !bit root 0 || bits root 63 41 != 0 || bits root 11 1 != 0 || decide (serviceCap s ≤ tab) then .absent
    else
      let (leaf, lp) := runNat (paRead s (tab + 8 * bits va 29 21) 8)
      if lp then .poison
      else
        let fr := field (bits leaf 40 21) 21
        if !bit leaf 0 || bits leaf 63 41 != 0 || bits leaf 20 5 != 0 || decide (serviceCap s ≤ fr) then .absent
        else .ok (fr + va % 2097152) leaf

/-- A translation as a die (0 to 3) or X (4) makes it: from its cache, else from the page table (R264). -/
def translate (s : State) (die job va : Nat) : Xlate :=
  match s.hbm.tlb.find? fun e => e.die == die && e.job == job && e.vpn == va / 2097152 with
  | some e => .ok (field (bits e.leaf 40 21) 21 + va % 2097152) e.leaf
  | none =>
    match jobSlot s job with
    | none => .noJob
    | some j => walkTable s j va

/-- Capacity of a translation cache (R264). -/
def tlbRoom (die : Nat) : Nat := if die = 4 then 2048 else 8192

/-- A translation kept in its cache; the oldest entry of a full cache leaves (log 11). -/
def tlbFill (s : State) (die job va : Nat) : State :=
  match translate s die job va with
  | .ok _ leaf =>
    if s.hbm.tlb.any fun e => e.die == die && e.job == job && e.vpn == va / 2097152 then s
    else
      let mine := s.hbm.tlb.filter fun e => e.die == die
      let rest := s.hbm.tlb.filter fun e => !(e.die == die)
      let kept := if mine.length ≥ tlbRoom die then mine.drop 1 else mine
      { s with hbm := { s.hbm with tlb := rest ++ kept ++ [{ die := die, job := job, vpn := va / 2097152, leaf := leaf }] } }
  | _ => s

/-- A translation for a descriptor's access (R262): READ or WRITE is checked. -/
def descXlate (s : State) (die job va : Nat) (write : Bool) : Xlate :=
  match translate s die job va with
  | .ok pa leaf => if bit leaf (if write then 2 else 1) then .ok pa leaf else .absent
  | x => x

/-- A cause of discard: reason and RESOURCE (R407). -/
abbrev Why := Nat × Nat

/-- Why a failed translation discards a unit (R260, R262, R407). -/
def xlateWhy (job va : Nat) : Xlate → Why
  | .noJob => (reasonPageAbsent, resJob job)
  | .poison => (reasonPoison, resPage va)
  | _ => (reasonPageAbsent, resPage va)

/-- A virtual range cut at 2 MiB pages: address and length of each piece. -/
def cutPages (va n : Nat) : Nat → List (Nat × Nat)
  | 0 => []
  | k + 1 =>
    if n = 0 then []
    else
      let m := min n (2097152 - va % 2097152)
      (va, m) :: cutPages (va + m) (n - m) k

/-- The pages a range touches. -/
def pagesOf (va n : Nat) : List (Nat × Nat) := cutPages va n (n / 2097152 + 2)

/-- A virtual read for a descriptor (R262): the bytes with their poison, or the first cause met. -/
def vRead (s : State) (die job va n : Nat) : Except Why (List (Byte × Bool)) :=
  (pagesOf va n).foldl (fun acc e =>
    match acc with
    | .error w => .error w
    | .ok l =>
      match descXlate s die job e.1 false with
      | .ok pa _ => .ok (l ++ paRead s pa e.2)
      | x => .error (xlateWhy job e.1 x)) (.ok [])

/-- Whether a virtual range may be written by a descriptor: the first cause met, or none. -/
def vWriteCheck (s : State) (die job va n : Nat) : Option Why :=
  (pagesOf va n).findSome? fun e =>
    match descXlate s die job e.1 true with
    | .ok _ _ => none
    | x => some (xlateWhy job e.1 x)

/-- A virtual write handed to the parity engines page by page, its pages already checked. -/
def vWrite (s : State) (die src : Nat) (who : Writer) (job va : Nat) (l : List (Byte × Bool)) : State :=
  ((pagesOf va l.length).foldl (fun (a : State × List (Byte × Bool)) e =>
    match translate a.1 die job e.1 with
    | .ok pa _ => (queueWrite a.1 src who pa (a.2.take e.2), a.2.drop e.2)
    | _ => (a.1, a.2.drop e.2)) (s, l)).1

/-- The pages of a range entered in a translation cache. -/
def tlbFillRange (s : State) (die job va n : Nat) : State :=
  (pagesOf va n).foldl (fun s e => tlbFill s die job e.1) s

/-- The pseudo-channels that a range of a job's space lies in, noted as touched by a unit (R402, R403). -/
def touchRange (s : State) (wu die job va n : Nat) : State :=
  let pcs := (pagesOf va n).flatMap fun e =>
    match translate s die job e.1 with
    | .ok pa _ => (numsFrom (pa / 4096) ((pa + e.2 - 1) / 4096 + 1 - pa / 4096)).map fun u => pcOfData (dataAddr s (4096 * u))
    | _ => []
  modUnit s wu fun u =>
    { u with touchedPcs := (dedup pcs).map (fun c => (c, now s)) ++ u.touchedPcs.filter fun x => !(pcs.contains x.1) }

/-! ## The weight cache (R245 to R247) -/

/-- The lines of a die's cache, most recently used first. -/
def cacheLines (s : State) (die : Nat) : List CacheLine := tblGet [] s.hbm.caches die

/-- The set of a line (R245): physical address bits [21:8]. -/
def cacheSet (pa : Nat) : Nat := bits pa 21 8

/-- A line as HBM holds it (R247, R267). -/
def fetchLine (s : State) (pa : Nat) : CacheLine :=
  let l := paRead s pa 256
  { pa := pa, bytes := l.map (·.1), poison := (numsFrom 0 4).map fun g => ((l.drop (64 * g)).take 64).any (·.2) }

/-- A line read through a die's cache: a hit moves to the front of its set, a miss is fetched and filled, the least
recently used of 16 ways leaving (R245). -/
def cacheTouch (s : State) (die pa : Nat) : State :=
  let ls := cacheLines s die
  let line := (ls.find? fun c => c.pa == pa).getD (fetchLine s pa)
  let rest := ls.filter fun c => c.pa != pa
  let same := rest.filter fun c => cacheSet c.pa == cacheSet pa
  let rest := if same.length ≥ 16 then rest.filter fun c => decide (some c ≠ same.getLast?) else rest
  { s with hbm := { s.hbm with caches := tblSet s.hbm.caches die (line :: rest) } }

/-- The bytes of a range as a die's cache holds its lines. -/
def cacheBytes (s : State) (die pa n : Nat) : List (Byte × Bool) :=
  (numsFrom pa n).map fun a =>
    match (cacheLines s die).find? fun c => c.pa == a - a % 256 with
    | none => dataByte s (dataAddr s a)
    | some c => (nth 0 c.bytes (a % 256), nth false c.poison (a % 256 / 64))

end Sys2Proof.Machine
end

