-- ==== Sys2Proof/Machine/FaultOps.lean ====
section
/-! DEFINITION. Shared operations of fault handling: waking clusters (12 R385 to R387), the failure of a cluster with its
halter, remount or absence (13 R403, R410 to R412), the end of a unit's residency (06 R201), and the disable rule's
bookkeeping (13 R425). -/

namespace Sys2Proof.Machine

/-! ## Groups and waking -/

/-- A cluster group's clock state. -/
def getGroup (s : State) (g : Nat) : Group := tblGet {} s.pwr.groups g

/-- The state with a group changed. -/
def modGroup (s : State) (g : Nat) (f : Group → Group) : State :=
  { s with pwr := { s.pwr with groups := tblMod {} s.pwr.groups g f } }

/-- The group's PLL runs (R387): one that was stopped restarts at the step its group has switched to (R392). -/
def startPll (s : State) (g : Nat) : State := modGroup s g fun x => { x with pllOn := true }

/-- Group clock of a step in MHz (R390). -/
def stepMhz (k : Nat) : Nat := nth 1000 [2500, 2300, 2100, 1900, 1700, 1500, 1250, 1000] k

/-- Group-clock cycles in a span of MT ticks of 0.4 ns at a group's step (R390), halved under a thermal stretch (R393). -/
def cyclesIn (g : Group) (ticks : Nat) : Nat := ticks * stepMhz g.step / 2500 / (if g.thermal then 2 else 1)

/-- Cycles that an ACTIVE cluster has not yet counted in CLU_ACTIVE (R461). -/
def pendingActive (s : State) (p : Nat) : Nat :=
  let c := getClu s p
  if c.power = .active then cyclesIn (getGroup s (groupOf p)) (now s - c.activeSince) else 0

/-- A cluster's ACTIVE cycles counted up to now (R461). -/
def tallyActive (s : State) (p : Nat) : State :=
  let n := pendingActive s p
  if (getClu s p).power = .active then
    modClu s p fun c => { c with activeCyc := cap32 (c.activeCyc + n), activeSince := now s }
  else s

/-- The ACTIVE cycles of a group's clusters counted up to now, before its clock changes. -/
def tallyGroup (s : State) (g : Nat) : State := (numsFrom (17 * g) 17).foldl tallyActive s

/-- A wake on its way to a cluster (R385): 16 ns from GATED, 3 us from ASLEEP or OFF, 4 us with the PLL stopped. -/
def requestWake (s : State) (p : Nat) : State :=
  let c := getClu s p
  let wait := match c.power with
    | .active => 0
    | .gated => 40
    | _ => if (getGroup s (groupOf p)).pllOn then 7500 else 10000
  if c.power = .active ∨ c.wakeDue.isSome then s
  else setClu (startPll s (groupOf p)) p { c with wakeDue := some (now s + wait)
                                                  wokeAt := if c.power = .gated then c.wokeAt else some (now s) }

/-- A cluster becomes ACTIVE (R385). -/
def makeActive (s : State) (p : Nat) : State :=
  modClu (tallyActive (startPll s (groupOf p)) p) p fun c =>
    { c with power := .active, wakeDue := none, idleSince := now s, activeSince := now s }

/-- A cluster becomes OFF (R385, R154): nothing runs on it and its scratchpad is not held. -/
def makeOff (s : State) (p : Nat) : State :=
  modClu (modGroup (tallyActive s p) (groupOf p) fun g => { g with idleSince := now s }) p fun c =>
    { c with power := .off, wakeDue := none, wokeAt := none, running := none, nextUp := none, drain := none, wide := [], notices := [],
             ticket := 0xFFFFFFFF, spad := {}, writeBack := [], walk := [], outstanding := [], mcastWait := [] }

/-- Items dropped as stale (R418): FLT_STALE_DROP. -/
def staleDrop (s : State) (n : Nat) : State :=
  { s with flt := { s.flt with staleDrop := cap32 (s.flt.staleDrop + n) } }

/-! ## Residency -/

/-- Buffer numbers resident on a logical cluster (R201). -/
def residentOn (s : State) (l : Nat) : List Nat :=
  dedup ((s.disp.residency.filter fun e => e.1 == l).map fun e => e.2.2)

/-- A logical cluster's residency records removed. -/
def dropResidency (s : State) (l : Nat) : State :=
  { s with disp := { s.disp with residency := s.disp.residency.filter fun e => !(e.1 == l) } }

/-- Bit b set for each buffer number b. -/
def bufferBits (l : List Nat) : Nat := sumNat ((dedup l).map fun b => 2 ^ b)

/-- A RESIDENCY_LOST event (R411, R469). -/
def postResidencyLost (s : State) (l : Nat) (bufs : List Nat) : State :=
  post s { code := 0x0007, res := resCluster l, params := [bufferBits bufs] }

/-! ## Failure of a cluster -/

/-- The group's spare that no remount is using (FLT_SPARE_MAP). -/
def findSpare (s : State) (g : Nat) : Option Nat :=
  (numsFrom (17 * g) 17).find? fun p => decide ((getClu s p).role = .spare) && !(s.clu.remounts.any fun r => r.spare == p)

/-- The logical number loses its cluster for good until a spare returns (R412). -/
def makeAbsent (s : State) (l p : Nat) (bufs : List Nat) : State :=
  let s := setLmap s l { p := p, unserved := false, absent := true }
  let s := postResidencyLost s l bufs
  post s { code := 0x0008, res := resCluster l, params := [p] }

/-- A remount onto a spare, which is woken (R411 step 3). -/
def startRemount (s : State) (l p q : Nat) (bufs : List Nat) : State :=
  let s := setLmap s l { p := p, unserved := true, absent := false }
  let s := { s with clu := { s.clu with remounts := s.clu.remounts ++ [{ l := l, failed := p, spare := q, buffers := bufs }] } }
  requestWake s q

/-- The logical number awaits its remount onto the group's spare (R411 steps 1 to 3), or becomes absent when the group has
none (R412). -/
def beginRemount (s : State) (l p : Nat) : State :=
  let bufs := residentOn s l
  let s := dropResidency s l
  match findSpare s (l / 16) with
  | some q => capOpen (startRemount s l p q bufs) 1 (resCluster l)
  | none => capOpen (makeAbsent s l p bufs) 1 (resCluster l)

/-- The role a failed cluster takes (R413): awaiting retest, or failed until the next start. -/
def failedRole (c : Cluster) (mech : Nat) : Role :=
  if mech = 0x09 ∨ mech = 0x1A ∨ c.fails ≥ 1 then .failed else .failedRetest

/-- The units a failed cluster discards (R403): those that touched its logical number; for a failed Yarrow visit, those
that use it in a layer that has started and not completed (R424). -/
def touchedBy (mech l : Nat) (u : WorkUnit) : Bool :=
  if mech = 0x19 then u.holds.contains l else u.touched.contains l

/-- A cluster that fails: halter up, OFF, its role and failure count set (R410, R413, R461). -/
def haltCluster (s : State) (p mech : Nat) : State :=
  let c := getClu s p
  let role := failedRole c mech
  let s := makeOff s p
  modClu s p fun c => { c with role := role, halter := true, fails := c.fails + 1, lastMech := mech }

/-- The consequences of a cluster's failure (R403, R410 to R412), the report aside: `res` is the RESOURCE of its discards. -/
def failPhys (s : State) (p mech res : Nat) : State :=
  match logicalOf s p with
  | some l => beginRemount (addCauses (haltCluster s p mech) (touchedBy mech l) reasonHwFault res) l p
  | none =>
    let wasRemount := s.clu.remounts.find? fun r => r.spare == p
    let s := haltCluster s p mech
    match wasRemount with
    | none => s
    | some r =>
      let s := { s with clu := { s.clu with remounts := s.clu.remounts.filter fun x => x.l != r.l } }
      makeAbsent s r.l r.failed r.buffers

/-- A cluster declared failed by a mechanism (R92, R401, R403, R410 to R412). -/
def declareFailed (s : State) (p mech : Nat) : State :=
  if (getClu s p).halter then s
  else
    let res := match logicalOf s p with | some l => resCluster l | none => resNone
    failPhys (postFault s mech res p) p mech res

/-- A logical number taken by a physical cluster (R411 steps 5 and 6): its scratchpad holds zero. -/
def serveBy (s : State) (l p failed : Nat) (bufs : List Nat) : State :=
  let s := modClu s p fun c => { c with role := .serving, halter := false, spad := {} }
  let s := setLmap s l { p := p, unserved := false, absent := false }
  let s := capClose s 1 (resCluster l)
  let s := postResidencyLost s l bufs
  post s { code := 0x0006, res := resCluster l, params := [failed, p] }

end Sys2Proof.Machine
end

