-- ==== Sys2Proof/Machine/PeerOps.lean ====
section
/-! DEFINITION. Shared operations of the peer ports (11): routes (R352), peer writes (R357, R358), and the rounds of
REDUCE windows with their trees over participants (R359 to R361). -/

namespace Sys2Proof.Machine

/-! ## Routes -/

/-- Whether a port has an open session and its link is not lost; messages wait during a lane swap (R347, R348). -/
def portUsable (s : State) (p : Nat) : Bool :=
  decide (p < 4) && (peerPortOf s p).session.isSome &&
  ((peerPortOf s p).state == 5 || (peerPortOf s p).state == 6)

/-- The port by which a message for a rank leaves (R351, R352): none when the rank is unreachable. -/
def nextHop (s : State) (d : Nat) : Option Nat :=
  if s.peers.size ≤ d then none
  else
    match tblFind s.peers.routes d with
    | none => none
    | some r => if portUsable s r.primary then some r.primary else if portUsable s r.alt then some r.alt else none

/-! ## Peer bodies (R357) -/

/-- A set of granule numbers as bits. -/
def granuleBits (l : List Nat) : Nat := sumNat ((dedup l).map fun g => 2 ^ g)

/-- The bytes of a peer body. -/
def peerBytes (b : PeerBody) : List Byte :=
  leBytes 1 b.pkind ++ leBytes 1 b.hops ++ leBytes 2 b.window ++ leBytes 1 b.srcRank ++ leBytes 1 b.dstRank ++
  leBytes 1 b.treeLo ++ leBytes 1 b.treeHi ++ leBytes 4 b.gen ++ leBytes 4 b.pseq ++ leBytes 6 b.offset ++
  leBytes 2 b.len ++ leBytes 16 (granuleBits b.poison) ++ b.data

/-- A received peer body. -/
def parsePeer (l : List Byte) : PeerBody :=
  { pkind := leAt l 0 1, hops := leAt l 1 1, window := leAt l 2 2, srcRank := leAt l 4 1, dstRank := leAt l 5 1,
    treeLo := leAt l 6 1, treeHi := leAt l 7 1, gen := leAt l 8 4, pseq := leAt l 12 4, offset := leAt l 16 6,
    len := leAt l 22 2, poison := (List.range 128).filter fun g => bit (leAt l 24 16) g, data := l.drop 40 }

/-- A peer message given to the port of its destination's route; a message for an unreachable rank goes nowhere. -/
def sendPeer (s : State) (b : PeerBody) : State :=
  match nextHop s b.dstRank with
  | none => s
  | some p => sendSeq s (.peer p) p 0x20 (peerBytes b) false none

/-- The next PSEQ toward a rank (R357). -/
def takePseq (s : State) (dst : Nat) : State × Nat :=
  let n := serialNext (tblGet 0 s.peers.pseqTx dst)
  ({ s with peers := { s.peers with pseqTx := tblSet s.peers.pseqTx dst n } }, n)

/-- The granules of a message that hold poisoned bytes, counted from its offset's granule (R357). -/
def poisonGranules (off : Nat) (l : List (Byte × Bool)) : List Nat :=
  dedup (((numsFrom off l.length).zip l).filterMap fun e => if e.2.2 then some (e.1 / 64 - off / 64) else none)

/-- A peer message of a kind with data, with a PSEQ of its own. -/
def sendPeerData (s : State) (kind w dst lo hi gen off : Nat) (l : List (Byte × Bool)) : State × Nat :=
  let (s, n) := takePseq s dst
  (sendPeer s { pkind := kind, hops := 0, window := w, srcRank := s.peers.rank, dstRank := dst, treeLo := lo,
                treeHi := hi, gen := gen, pseq := n, offset := off, len := l.length,
                poison := poisonGranules off l, data := l.map (·.1) }, n)

/-- A run cut so that (OFFSET mod 64) + LENGTH does not exceed 8,192 (R357). -/
def cutPeer (off : Nat) (l : List (Byte × Bool)) : Nat → List (Nat × List (Byte × Bool))
  | 0 => []
  | k + 1 =>
    if l.isEmpty then []
    else
      let n := 8192 - off % 64
      (off, l.take n) :: cutPeer (off + n) (l.drop n) k

/-- A unit's write sent to a rank (R355 to R358, R362): toward an unreachable rank the unit is discarded. -/
def sendDataTo (s : State) (w dst off : Nat) (l : List (Byte × Bool)) (r : DescRef) : State :=
  match nextHop s dst with
  | none => addCause s r.wu reasonPeerLost (resRank dst)
  | some _ =>
    (cutPeer off l (l.length + 1)).foldl (fun s e =>
      let (s, n) := sendPeerData s 0 w dst 0 0 0 e.1 e.2
      let s := { s with peers := { s.peers with out := s.peers.out ++ [{ dst := dst, pseq := n, window := w, ref := r }] } }
      modRun s r fun d => { d with peerSent := (d.peerSent.filter fun x => !(x.1 == dst && x.2.1 == w)) ++ [(dst, w, n)] }) s

/-! ## Windows -/

/-- A window. -/
def getWin (s : State) (w : Nat) : Window := tblGet {} s.peers.windows w

/-- The ranks a window lists, ascending (R355). -/
def winRanks (x : Window) : List Nat :=
  (List.range 64).filter fun r => bit (x.ranksLo + 2 ^ 32 * x.ranksHi) r

/-- First byte and length of a window's range. -/
def winBase (x : Window) : Nat := x.vaPage * 2097152
def winBytes (x : Window) : Nat := x.pages * 2097152

/-- The window of a captured table in which a byte of a job's space lies, if one that acts on writes. -/
def winOf (wins : Tbl Window) (job va : Nat) : Option (Nat × Window) :=
  wins.find? fun e => (e.2.kind == 1 || e.2.kind == 3 || e.2.kind == 4) && e.2.job == job &&
    decide (winBase e.2 ≤ va) && decide (va < winBase e.2 + winBytes e.2)

/-! ## Rounds (R359 to R361) -/

/-- The round of a window. -/
def getRound (s : State) (w : Nat) : Round := tblGet { gen := (getWin s w).gen } s.peers.rounds w

/-- The state with a window's round set. -/
def setRound (s : State) (w : Nat) (r : Round) : State :=
  { s with peers := { s.peers with rounds := tblSet s.peers.rounds w r } }

/-- The parent of a node of the tree over positions a to z - 1 (R122). -/
def treeParent : Nat → Nat → Nat → Nat → Nat → Option (Nat × Nat)
  | 0, _, _, _, _ => none
  | k + 1, a, z, lo, hi =>
    if z ≤ a + 1 then none
    else
      let m := treeMid a z
      if (lo = a ∧ hi = m) ∨ (lo = m ∧ hi = z) then some (a, z)
      else if hi ≤ m then treeParent k a m lo hi
      else treeParent k m z lo hi

/-- What a value that enters a round leads to: a LEAF for another position, or a root result. -/
inductive RoundOut where
  | leaf (pos : Nat) (v : RoundVal)
  | root (v : RoundVal)
deriving DecidableEq, Repr

/-- Two children of a node combined, left then right (R359). -/
def combineRound (l r : RoundVal) : RoundVal :=
  { lo := l.lo, hi := r.hi, elem := l.elem, v := leafCombine false l.v r.v, bad := l.bad || r.bad }

/-- A value enters the round at the module of position `me` among n (R359). -/
def roundAdd (n me : Nat) : Nat → Round → RoundVal → Round × List RoundOut
  | 0, r, _ => (r, [])
  | k + 1, r, v =>
    if r.vals.any fun x => x.elem == v.elem && x.lo == v.lo && x.hi == v.hi then (r, [])
    else if v.lo = 0 ∧ v.hi = n then (r, [.root v])
    else
      match treeParent 8 0 n v.lo v.hi with
      | none => (r, [])
      | some (a, z) =>
        if a ≠ me then (r, [.leaf a v])
        else
          let mate (x : RoundVal) : Bool := x.elem == v.elem &&
            (if v.lo = a then x.lo == v.hi && x.hi == z else x.lo == a && x.hi == v.lo)
          match r.vals.find? mate with
          | none => ({ r with vals := r.vals ++ [v] }, [])
          | some y =>
            let r := { r with vals := r.vals.filter fun x => !mate x }
            roundAdd n me k r (if v.lo = a then combineRound v y else combineRound y v)

/-- A leaf value's 8 bytes, laid out as a wide entry (R100; log 17). -/
def leafBytes : LeafVal → List Byte
  | .i64 v => leBytes 8 (ofSigned 64 v)
  | .pair a b => leBytes 4 a.toNat ++ leBytes 4 b.toNat
  | .win _ _ => leBytes 8 0

/-- A leaf value from its 8 bytes. -/
def leafOf (isInt : Bool) (l : List Byte) : LeafVal :=
  if isInt then .i64 (toSigned 64 (leNat (l.take 8)))
  else .pair (BitVec.ofNat 32 (leAt l 0 4)) (BitVec.ofNat 32 (leAt l 4 4))

/-- Runs of a list of (element, value) pairs with rising consecutive elements, at most `lim` long. -/
def groupRuns {α : Type} (lim : Nat) : List (Nat × α) → List (Nat × List α)
  | [] => []
  | (e, a) :: r =>
    match groupRuns lim r with
    | [] => [(e, [a])]
    | (f, l) :: q => if f = e + 1 ∧ l.length < lim then (e, a :: l) :: q else (e, [a]) :: (f, l) :: q

/-- LEAF messages of one node to the module of a position (R357, R359). -/
def sendLeaves (s : State) (w : Nat) (ranks : List Nat) (pos lo hi gen : Nat) (l : List (Nat × LeafVal × Bool)) : State :=
  (groupRuns 1000 l).foldl (fun s g =>
    (sendPeerData s 1 w (nth 0 ranks pos) lo hi gen (4 * g.1)
      (g.2.flatMap fun x => (leafBytes x.1).map fun b => (b, x.2))).1) s

/-- The 4 bytes of a root result (R359): pairs round by R110, INT64 sums narrow by R37. -/
def rootBytes (etype : Nat) (v : LeafVal) : List Byte := leBytes 4 (narrowBits etype (leafFinal v))

/-- Root results written to the own range and sent to every other listed rank (R359). -/
def putResults (s : State) (w : Nat) (x : Window) (gen : Nat) (l : List (Nat × List Byte × Bool)) : State :=
  (groupRuns 2000 l).foldl (fun s g =>
    let bytes := g.2.flatMap fun e => e.1.map fun b => (b, e.2)
    let s := vWrite s 4 1000 (.result w gen g.1 g.2.length) x.job (winBase x + 4 * g.1) bytes
    ((winRanks x).filter (· != s.peers.rank)).foldl (fun s d => (sendPeerData s 2 w d 0 0 gen (4 * g.1) bytes).1) s) s

/-- The consequences of values that entered a round: leaves sent, results written and sent. -/
def roundEmit (s : State) (w : Nat) (x : Window) (gen : Nat) (outs : List RoundOut) : State :=
  let ranks := winRanks x
  let leaves := outs.filterMap fun o => match o with | .leaf p v => some (p, v) | .root _ => none
  let keys := leaves.foldl (fun (acc : List (Nat × Nat × Nat)) e =>
    let k := (e.1, e.2.lo, e.2.hi)
    if acc.contains k then acc else acc ++ [k]) []
  let s := keys.foldl (fun s k => sendLeaves s w ranks k.1 k.2.1 k.2.2 gen
    ((leaves.filter fun e => e.1 == k.1 && e.2.lo == k.2.1 && e.2.hi == k.2.2).map fun e => (e.2.elem, e.2.v, e.2.bad))) s
  putResults s w x gen (outs.filterMap fun o => match o with
    | .root v => some (v.elem, rootBytes x.etype v.v, v.bad)
    | .leaf _ _ => none)

/-- Values that enter a window's round one after another, and what follows. -/
def roundFeed (s : State) (w : Nat) (x : Window) (vs : List RoundVal) : State :=
  let ranks := winRanks x
  let me := (ranks.findIdx? (· == s.peers.rank)).getD 64
  let step (a : Round × List RoundOut) (v : RoundVal) : Round × List RoundOut :=
    let (r, o) := roundAdd ranks.length me 8 a.1 v
    (r, a.2 ++ o)
  let r := getRound s w
  let r := { r with first := some (r.first.getD (now s)), poisoned := r.poisoned || vs.any (·.bad) }
  let (r, outs) := vs.foldl step (r, [])
  roundEmit (setRound s w r) w x r.gen outs

/-- A contribution as a leaf (R359). -/
def contribution (etype : Nat) (v : Word) : LeafVal := if etype = 14 then .i64 v.toInt else .pair v 0

/-- Elements of a REDUCE window written by a unit (R359, R360): an element written already in this round waits for the
next. -/
def contribute (s : State) (w : Nat) (x : Window) (r : DescRef) (epoch : Nat) (l : List (Nat × Word × Bool)) : State :=
  let ranks := winRanks x
  match ranks.findIdx? (· == s.peers.rank) with
  | none => s
  | some me =>
    let rd := getRound s w
    let late := l.filter fun e => rd.wrote.contains e.1
    let fresh := l.filter fun e => !(rd.wrote.contains e.1)
    let rd := { rd with wrote := rd.wrote ++ fresh.map (·.1), heldNext := rd.heldNext ++ late.map (fun e => (e.1, e.2.1, e.2.2, r)),
                        writers := if rd.writers.contains (r.wu, epoch) then rd.writers else rd.writers ++ [(r.wu, epoch)] }
    let s := modRun (setRound s w rd) r fun d =>
      { d with reduced := d.reduced ++ fresh.map (fun e => (w, rd.gen, e.1)) ++ late.map (fun e => (w, rd.gen + 1, e.1)) }
    let s := modUnit s r.wu fun u => { u with rounds := if u.rounds.contains (w, rd.gen) then u.rounds else u.rounds ++ [(w, rd.gen)] }
    if fresh.isEmpty then s
    else roundFeed s w x (fresh.map fun e => { lo := me, hi := me + 1, elem := e.1, v := contribution x.etype e.2.1, bad := e.2.2 })

/-- A round ends (R359, R360): GEN and COUNTER advance, the units that wrote a poisoned round are discarded, and the
writes that waited enter the next round. -/
def endRound (s : State) (w : Nat) : State :=
  let x := getWin s w
  let rd := getRound s w
  let s := { s with peers := { s.peers with windows := tblSet s.peers.windows w { x with gen := (x.gen + 1) % 2 ^ 32 } } }
  let s := (fetchAdd s x.ctr 1 none).1
  let s := if rd.poisoned then addCauses s (fun u => rd.writers.contains (u.wuId, u.epoch)) reasonPoison resNone else s
  let s := setRound s w { gen := (rd.gen + 1) % 2 ^ 32 }
  let s := if rd.early.isEmpty then s else roundFeed s w (getWin s w) rd.early
  rd.heldNext.foldl (fun s e =>
    let ep := match findUnit s e.2.2.2.wu with | some u => u.epoch | none => 0
    contribute s w (getWin s w) e.2.2.2 ep [(e.1, e.2.1, e.2.2.1)]) s

/-- Result elements that have landed (R359). -/
def resultsLanded (s : State) (w gen first count : Nat) : State :=
  let rd := getRound s w
  if rd.gen ≠ gen then s
  else
    let new := (numsFrom first count).filter fun e => !(rd.landed.contains e)
    let s := setRound s w { rd with landed := rd.landed ++ new }
    if rd.landed.length + new.length ≥ winBytes (getWin s w) / 4 then endRound s w else s

/-- A round is abandoned (R361): the units of this module that wrote into it are discarded with PEER_LOST naming a
rank, and it restarts with the same GEN; `tell` sends ROUND_ABORT to every reachable listed rank. The message names the
rank's position in TREE_LO (log 17). -/
def abandonRound (s : State) (w rank : Nat) (tell : Bool) : State :=
  let x := getWin s w
  let rd := getRound s w
  let pos := ((winRanks x).findIdx? (· == rank)).getD 0
  let s := addCauses s (fun u => rd.writers.contains (u.wuId, u.epoch)) reasonPeerLost (resRank rank)
  let s := setRound s w { gen := rd.gen }
  if tell then
    ((winRanks x).filter fun d => d != s.peers.rank && (nextHop s d).isSome).foldl
      (fun s d => (sendPeerData s 4 w d pos (pos + 1) rd.gen 0 []).1) s
  else s

/-! ## Landing of peer writes -/

/-- A report of what has landed (R357): the highest PSEQ with all below it landed. -/
def landedUpTo (l : List Nat) : Nat → Nat → Nat
  | 0, n => n
  | k + 1, n => if l.contains (serialNext n) then landedUpTo l k (serialNext n) else n

/-- Every PSEQ of a source rank up to which all have landed. -/
def landedOf (s : State) (rank : Nat) : Nat :=
  let l := tblGet [] s.peers.pseqLanded rank
  landedUpTo l (l.length + 1) 0

/-- A LANDED message (R357, R358). -/
def sendLanded (s : State) (w dst pseq : Nat) : State :=
  sendPeer s { pkind := 3, hops := 0, window := w, srcRank := s.peers.rank, dstRank := dst, treeLo := 0, treeHi := 0,
               gen := 0, pseq := pseq, offset := 0, len := 0, poison := [], data := [] }

/-- The window counters of final LANDEDs whose earlier writes have all landed (R358). -/
def actFinals (s : State) (rank : Nat) : State :=
  let n := landedOf s rank
  let due (e : Nat × Nat × Nat) : Bool := e.1 == rank && (e.2.2 == n || serialLt e.2.2 n)
  let hit := s.peers.finalsWait.filter due
  let s := { s with peers := { s.peers with finalsWait := s.peers.finalsWait.filter fun e => !due e } }
  hit.foldl (fun s e => (fetchAdd s (getWin s e.2.1).ctr 1 none).1) s

/-- A PSEQ of a rank has landed; a DATA write is reported to its source (R357). -/
def pseqLand (s : State) (rank pseq w : Nat) (report : Bool) : State :=
  let s := { s with peers := { s.peers with
    pseqLanded := tblMod [] s.peers.pseqLanded rank fun l => addOnce l pseq,
    landing := s.peers.landing.filter fun e => !(e == (rank, pseq, w)) } }
  let s := if report then sendLanded s w rank (landedOf s rank) else s
  actFinals s rank

/-- What the landing of a writer's last piece brings about (R319, R357, R359). -/
def writerLanded (s : State) (w : Writer) : State :=
  if writesOpen s w then s
  else
    match w with
    | .host session gen seq => lateLanded s .host session gen seq
    | .peer rank pseq win => pseqLand s rank pseq win true
    | .result win gen first count => resultsLanded s win gen first count
    | .unit _ => s
    | .nobody => s

end Sys2Proof.Machine
end

