-- ==== Sys2Proof/Machine/Scratch.lean ====
section
/-! DEFINITION. The cluster scratchpad (05): addresses, the stored word and its extended Hamming code (R131 to R135),
slots (R136 to R144), the Farrier's scrub, write-back and row map-out (R155 to R161). -/

namespace Sys2Proof.Machine

/-- Bytes of a scratchpad (R127). -/
def spadSize : Nat := 6291456

/-- Bank of a word (R129): word number 64 x line + column, line 64 x plane + row. -/
def bankOf (w : Nat) : Nat := (w / 64 % 64 + w % 64) % 64

/-- Bank row of a word (R129): the number of its wide line (R143). -/
def bankRowOf (w : Nat) : Nat := w / 64

/-! ## The stored word -/

/-- Code position of data bit i (R132): the positions that are no power of two, in ascending order. -/
def bitPos (i : Nat) : Nat :=
  if i < 1 then 3 else if i < 4 then i + 4 else if i < 11 then i + 5 else if i < 26 then i + 6
  else if i < 57 then i + 7 else if i < 120 then i + 8 else if i < 247 then i + 9 else i + 10

/-- The exclusive or of the positions of the set bits among the 257 data bits. -/
def dataSyndrome (d : BitVec 257) : Nat :=
  (List.range 257).foldl (fun x i => if d.getLsbD i then Nat.xor x (bitPos i) else x) 0

/-- Parity of the set bits of a vector. -/
def bitParity {w : Nat} (v : BitVec w) : Bool := (List.range w).foldl (fun x i => xor x (v.getLsbD i)) false

/-- The stored word of 257 bits with its ten check bits (R131, R132): c[8:0] from bit 257, c[9] in bit 266. -/
def encodeWord (d : BitVec 257) : StoredWord :=
  let c := BitVec.ofNat 9 (dataSyndrome d)
  let q := xor (bitParity d) (bitParity c)
  (BitVec.ofBool q) ++ c ++ d

/-- Syndrome of a stored word (R133): the exclusive or of the positions of its set bits among the 266 positions. -/
def syndrome (v : StoredWord) : Nat :=
  Nat.xor (dataSyndrome (v.extractLsb' 0 257)) (v.extractLsb' 257 9).toNat

/-- What decoding a stored word comes to (R133). -/
inductive WordErr where
  | none
  | corrected
  | uncorrectable
deriving DecidableEq, Repr

/-- The data bit that stands at a code position, if one does. -/
def bitAtPos (pos : Nat) : Option Nat := (List.range 257).find? fun i => bitPos i == pos

/-- The decoding of a stored word (R133): the delivered 257 bits and the outcome. -/
def decodeWord (v : StoredWord) : BitVec 257 × WordErr :=
  let d := v.extractLsb' 0 257
  let y := syndrome v
  let q := bitParity v
  if y = 0 then (d, if q then .corrected else .none)
  else if q && decide (y ≤ 266) then
    match bitAtPos y with
    | some i => (d ^^^ BitVec.ofNat 257 (2 ^ i), .corrected)
    | Option.none => (d, .corrected)
  else (d ||| BitVec.ofNat 257 (2 ^ 256), .uncorrectable)

/-- Bytes and poison as the 257 data bits (R131). -/
def wordBits (bytes : List Byte) (poison : Bool) : BitVec 257 :=
  BitVec.ofNat 257 (leNat (bytes.take 32) + flag poison * 2 ^ 256)

/-- The 32 bytes of 257 data bits. -/
def bitsBytes (d : BitVec 257) : List Byte := leBytes 32 (d.extractLsb' 0 256).toNat

/-- A word as a read delivers it (R133): its bytes, its poison, the outcome of its decoding. -/
def spadWord (sp : Spad) (w : Nat) : List Byte × Bool × WordErr :=
  let b := cellRead sp.bytes (32 * w) 32
  let p := sp.poison.contains w
  match tblFind sp.upset w with
  | Option.none => (b, p, .none)
  | some m =>
    let (d, e) := decodeWord (encodeWord (wordBits b p) ^^^ m)
    (bitsBytes d, d.getLsbD 256, e)

/-! ## Reads and writes -/

/-- A scratchpad byte address reduced modulo its size (R150). -/
def spadAddr (a : Nat) : Nat := a % spadSize

/-- A byte with its word's poison (R93, R267). -/
def spadByte (sp : Spad) (a : Nat) : Byte × Bool :=
  let x := spadAddr a
  match tblFind sp.upset (x / 32) with
  | Option.none => (cellGet sp.bytes x, sp.poison.contains (x / 32))
  | some _ =>
    let (b, p, _) := spadWord sp (x / 32)
    (nth 0 b (x % 32), p)

/-- A run of bytes, wrapping at the scratchpad's end (R150). -/
def spadRead (sp : Spad) (a n : Nat) : List (Byte × Bool) :=
  if sp.poison.isEmpty && sp.upset.isEmpty && decide (spadAddr a + n ≤ spadSize) then
    (cellRead sp.bytes (spadAddr a) n).map fun b => (b, false)
  else (numsFrom a n).map (spadByte sp)

/-- Some bytes of one word written with a source poison (R135): a full word takes the source's poison; a part merges
into the decoded word and keeps its poison. Check bits are fresh, so upsets of the word are gone. -/
def spadWordWrite (sp : Spad) (w off : Nat) (bytes : List Byte) (bad : Bool) : Spad :=
  let (old, oldBad, _) := spadWord sp w
  let full := bytes.length ≥ 32
  let p := bad || (!full && oldBad)
  let kept := match tblFind sp.upset w with
    | Option.none => sp.bytes
    | some _ => cellWrite sp.bytes (32 * w) old
  { bytes := cellWrite kept (32 * w + off) bytes,
    poison := if p then addOnce sp.poison w else sp.poison.filter (· != w),
    upset := tblErase sp.upset w }

/-- A run of bytes with poison written word by word from an address, wrapping at the end (R135, R150). -/
def spadWriteGo (sp : Spad) : Nat → Nat → List (Byte × Bool) → Spad
  | 0, _, _ => sp
  | k + 1, a, l =>
    if l.isEmpty then sp
    else
      let x := spadAddr a
      let n := 32 - x % 32
      let part := l.take n
      spadWriteGo (spadWordWrite sp (x / 32) (x % 32) (part.map (·.1)) (part.any (·.2))) k (x + n) (l.drop n)

/-- A run written to a scratchpad. -/
def spadWrite (sp : Spad) (a : Nat) (l : List (Byte × Bool)) : Spad := spadWriteGo sp (l.length + 1) a l

/-- The words of a run. -/
def runWords (a n : Nat) : List Nat :=
  if n = 0 then []
  else (numsFrom (a / 32) ((a + n - 1) / 32 + 1 - a / 32)).map fun w => w % 196608

/-- A run written to a cluster's scratchpad: the words written are left out of the Farrier's write-back (R156). -/
def cluWrite (c : Cluster) (a : Nat) (l : List (Byte × Bool)) : Cluster :=
  let ws := runWords (spadAddr a) l.length
  { c with spad := spadWrite c.spad a l, writeBack := c.writeBack.filter fun w => !(ws.contains w) }

/-! ## What a faulty read does -/

/-- RESOURCE of a physical cluster's faults (R407): the logical cluster it serves. -/
def cluRes (s : State) (p : Nat) : Nat :=
  match logicalOf s p with
  | some l => resCluster l
  | none => resNone

/-- The effects of a decoded error (R133, R134, R157, R160, R401): counts, the Farrier's write-back, the FAULT report, and for
an uncorrectable word an SPD_POISON event and the repeat-error threshold of its bank row. -/
def noteWord (s : State) (p w : Nat) : State :=
  match spadWord (getClu s p).spad w with
  | (_, _, .none) => s
  | (_, _, .corrected) =>
    let s := modClu s p fun c => { c with spdCe := cap32 (c.spdCe + 1), writeBack := addOnce c.writeBack w }
    postFault s 0x01 (cluRes s p) p
  | (_, _, .uncorrectable) =>
    let row := (bankOf w, bankRowOf w)
    let s := modClu s p fun c =>
      { c with spdUe := cap32 (c.spdUe + 1), writeBack := addOnce c.writeBack w,
               mapDue := if c.mapDue.contains row then c.mapDue else c.mapDue ++ [row] }
    let s := postFault s 0x02 (cluRes s p) p
    let e : Event := { code := 0x0002, res := cluRes s p, params := [32 * w] }
    postFrom s (544 + dieOfPhys p) e

/-- The effects of reading a list of words of a cluster: only words with flipped bits have any. -/
def noteReads (s : State) (p : Nat) (ws : List Nat) : State :=
  let hit := (getClu s p).spad.upset.map (·.1)
  (ws.filter fun w => hit.contains w).foldl (fun s w => noteWord s p w) s

/-- Flipped stored bits taken into the scratchpad (R131, R133). -/
def applyUpsets (sp : Spad) (l : List Upset) : Spad :=
  l.foldl (fun sp u =>
    let m := tblGet (0 : StoredWord) sp.upset u.1 ^^^ BitVec.ofNat 267 (2 ^ u.2)
    { sp with upset := if m = 0 then tblErase sp.upset u.1 else tblSet sp.upset u.1 m }) sp

/-! ## Slots -/

/-- The word numbers of an access (R130): words of a row, or of a word column. -/
def slotWords (a : SlotAccess) : List Nat :=
  a.words.map fun i => if a.column then 64 * (64 * a.plane + i) + a.line else 64 * (64 * a.plane + a.line) + i

/-- Whether a slot carries reads or writes (R137, R139). -/
def slotAllows (slot : Nat) (write : Bool) : Bool :=
  match slot with
  | 0 | 1 | 2 | 5 => !write
  | 3 | 4 | 6 => write
  | 7 => true
  | _ => false

/-- Masked bytes of one word written (R130, R135). -/
def maskedWrite (c : Cluster) (w : Nat) (mask : List Nat) (data : List Byte) (bad : Bool) : Cluster :=
  if (List.range 32).all fun b => mask.contains b then cluWrite c (32 * w) (data.map fun x => (x, bad))
  else mask.foldl (fun c b => cluWrite c (32 * w + b) [(nth 0 data b, bad)]) c

/-- SLOT_ACCESS (R136 to R144): one access of the slot's owner in a frame of an ACTIVE cluster, in frame and slot order.
A narrow read of the controller (slot 7, even frame) that returns poison discards its ticket's unit (R144). -/
def execSlotAccess (t p frame slot : Nat) (a : SlotAccess) (upsets : List Upset) (s : State) :
    Host.Outcome State Fault Refusal :=
  let s := atMt s t
  let c := getClu s p
  if c.power ≠ .active ∨ slotAllows slot a.write = false ∨ 8 * frame + slot < c.lastFrame then .next s
  else
    let s := modClu s p fun c => { c with spad := applyUpsets c.spad upsets, lastFrame := 8 * frame + slot, idleSince := now s }
    let ws := slotWords a
    if a.write then
      .next (modClu s p fun c => (ws.zip (numsFrom 0 ws.length)).foldl (fun c e =>
        maskedWrite c e.1 a.byteMask (nth [] a.data e.2) (nth false a.poison e.2)) c)
    else
      let s := noteReads s p ws
      let bad := ws.any fun w => (spadWord (getClu s p).spad w).2.1
      match slot == 7 && frame % 2 == 0 && bad, (getClu s p).running, logicalOf s p with
      | true, some r, some l => .next (addCause s r.ref.wu reasonPoison (resCluster l))
      | _, _, _ => .next s

/-! ## The Farrier -/

/-- One word rewritten by the Farrier (R134, R156): the decoded word, with POISON for an uncorrectable one, and fresh
check bits. -/
def rewriteWord (sp : Spad) (w : Nat) : Spad :=
  let (b, p, _) := spadWord sp w
  { bytes := cellWrite sp.bytes (32 * w) b,
    poison := if p then addOnce sp.poison w else sp.poison.filter (· != w),
    upset := tblErase sp.upset w }

/-- FARRIER_WRITE_BACK (R139, R156): in an odd slot-7 frame, the words of one row that await write-back are rewritten;
a word written since by another slot is no longer among them. -/
def execFarrierWriteBack (t p frame : Nat) (s : State) : Host.Outcome State Fault Refusal :=
  let s := atMt s t
  let c := getClu s p
  match c.writeBack with
  | [] => .next s
  | w :: _ =>
    if frame % 2 = 0 ∨ c.power ≠ .active then .next s
    else
      let mine := c.writeBack.filter fun x => bankRowOf x == bankRowOf w
      .next (setClu s p { c with spad := mine.foldl rewriteWord c.spad,
                                 writeBack := c.writeBack.filter fun x => !(bankRowOf x == bankRowOf w) })

/-- Corrected scrub visits of one bank row within 24 h (R157). -/
def scrubVisits (t : Nat) (c : Cluster) (bank row : Nat) : Nat :=
  (c.scrubCe.filter fun e => e.1 == bank && e.2.1 == row && decide (t ≤ e.2.2 + 216000000000000)).length

/-- A scrub visit's corrected word enters the count of its bank row; at CFG_SPD_REPEAT the row is due for map-out
(R157). -/
def noteScrub (s : State) (p w : Nat) : State :=
  match spadWord (getClu s p).spad w with
  | (_, _, .corrected) =>
    let k := (bankOf w, bankRowOf w)
    let lim := cfgSpdRepeat s
    let t := now s
    modClu s p fun c =>
      let c := if c.scrubCe.contains (k.1, k.2, t) then c else { c with scrubCe := c.scrubCe ++ [(k.1, k.2, t)] }
      if scrubVisits t c k.1 k.2 ≥ lim ∧ c.mapDue.contains k = false then { c with mapDue := c.mapDue ++ [k] } else c
  | _ => s

/-- SCRUB_SWEEP (R155): every word of the cluster is read. A GATED or ASLEEP cluster is woken for it and returns to its
state; a cluster that is OFF holds nothing and is not swept. -/
def execScrubSweep (t p : Nat) (upsets : List Upset) (s : State) : Host.Outcome State Fault Refusal :=
  let s := atMt s t
  let c := getClu s p
  if c.power = .off then .next s
  else
    let s := setClu s p { c with spad := applyUpsets c.spad upsets, lastScrub := now s }
    let ws := (getClu s p).spad.upset.map (·.1)
    let s := ws.foldl (fun s w => noteScrub s p w) s
    .next (noteReads s p ws)

/-- Spare rows of a bank that are used (R159, R161). -/
def sparesUsed (c : Cluster) (bank : Nat) : Nat := tblGet 0 c.spareUsed bank

/-- ROW_MAP_OUT (R157 to R159): the row takes the bank's next unused spare, the decoded word with it; without a spare
the cluster has failed. -/
def execRowMapOut (t p bank row : Nat) (s : State) : Host.Outcome State Fault Refusal :=
  let s := atMt s t
  let c := getClu s p
  if c.power = .off ∨ c.mapDue.contains (bank, row) = false then .next s
  else if sparesUsed c bank ≥ 48 then .next (declareFailed s p 0x09)
  else
    let n := sparesUsed c bank
    let w := 64 * row + (bank + 64 - row % 64) % 64
    let s := setClu s p { c with spad := rewriteWord c.spad w,
                                 remap := c.remap.filter (fun e => !(e.1 == bank && e.2.1 == row)) ++ [(bank, row, n)],
                                 spareUsed := tblSet c.spareUsed bank (n + 1),
                                 mapDue := c.mapDue.filter fun e => !(e == (bank, row)),
                                 writeBack := c.writeBack.filter (· != w) }
    let s := postFrom s (544 + dieOfPhys p) { code := 0x0003, params := [p, bank, row, n] }
    .next { s with flash := { s.flash with repairPending := s.flash.repairPending ++
              [{ cluster := p, bank := bank, row := row, field := true }] } }

/-- REPAIR_APPEND (R161): the field repairs made are appended to the configuration flash. -/
def execRepairAppend (t : Nat) (s : State) : Host.Outcome State Fault Refusal :=
  let s := atMt s t
  if s.ctl.powered then
    .next { s with flash := { s.flash with repair := s.flash.repair ++ s.flash.repairPending, repairPending := [] } }
  else .next s

end Sys2Proof.Machine
end

