-- ==== Sys2Proof/Machine/Operands.lean ====
section
/-! DEFINITION. Operand forms: the fields of work and tensor descriptors (06 R168, R174), element addresses of DENSE
tensors (02 R38 R39, 06 R178), HPF, NM and BITMAP tensors and what a walk of them reaches (02 R40 to R57, R494),
exchange tensors (02 R59 R60 R65). -/

namespace Sys2Proof.Machine

/-- Every element of a list through a function that may fail; the first failure stands. -/
def mapE {ε α β : Type} (f : α → Except ε β) : List α → Except ε (List β)
  | [] => .ok []
  | a :: r =>
    match f a with
    | .error e => .error e
    | .ok b => match mapE f r with
      | .error e => .error e
      | .ok l => .ok (b :: l)

/-- The discard cause of an invalid descriptor or of malformed data (R204, R407). -/
def badDesc : Why := (reasonDescInvalid, resNone)

/-- A check that fails as DESC_INVALID. -/
def need (b : Bool) : Except Why Unit := if b then .ok () else .error badDesc

/-- Poison met by a read (R407): none when clean, else the RESOURCE that names where. -/
abbrev Mark := Option Nat

/-- The first of two marks. -/
def orMark (a b : Mark) : Mark := match a with | some x => some x | none => b

/-- The first mark of a list. -/
def firstMark (l : List Mark) : Mark := l.findSome? id

/-- An element as a walk delivers it: its value and its poison. -/
structure Elem where
  v : Val
  mark : Mark
deriving DecidableEq, Repr

/-! ## Work descriptors (R168) -/

def dOp (d : List Byte) : Nat := leAt d 0 1
def dVariant (d : List Byte) : Nat := leAt d 1 1
def dTileOvr (d : List Byte) : Nat := bits (leAt d 2 1) 7 6
def dComp (d : List Byte) : Nat := bits (leAt d 2 1) 5 4
def dRowStat (d : List Byte) : Nat := bits (leAt d 2 1) 3 2
def dCompress (d : List Byte) : Nat := bits (leAt d 2 1) 1 0
def dSpill (d : List Byte) : Nat := bits (leAt d 3 1) 7 3
def dInitShift (d : List Byte) : Nat := bits (leAt d 4 1) 7 4
def dRedKind (d : List Byte) : Nat := bits (leAt d 4 1) 3 2
def dOscale (d : List Byte) : Nat := bits (leAt d 4 1) 1 0
def dFence (d : List Byte) : Bool := bit (leAt d 5 1) 7
def dEventDone (d : List Byte) : Bool := bit (leAt d 5 1) 6
def dReduceDim (d : List Byte) : Nat := bits (leAt d 5 1) 2 0
def dCsetFirst (d : List Byte) : Nat := leAt d 8 2
def dCsetCount (d : List Byte) : Nat := leAt d 10 2
def dBarrier (d : List Byte) : Nat := leAt d 12 2
def dCounter (d : List Byte) : Nat := leAt d 14 2
def dSlot (d : List Byte) (i : Nat) : Nat := leAt d (16 + 2 * i) 2
def dThreshold (d : List Byte) : F32 := BitVec.ofNat 32 (leAt d 32 4)
def dTopk (d : List Byte) : Nat := leAt d 36 2
def dOutScale (d : List Byte) : F32 := BitVec.ofNat 32 (leAt d 40 4)
def dOutShift (d : List Byte) : Nat := leAt d 44 1
def dParam0 (d : List Byte) : Nat := leAt d 48 8
def dParam1 (d : List Byte) : Nat := leAt d 56 8
def dWorkOff (d : List Byte) : Nat := leAt d 64 4
def dWorkLen (d : List Byte) : Nat := leAt d 68 4

/-- TICKET_LOOP's LIMIT and BODY_LEN (R189, R200). -/
def dLimit (d : List Byte) : Nat := bits (dParam0 d) 31 0
def dBodyLen (d : List Byte) : Nat := bits (dParam0 d) 39 32

/-! ## Chain headers (R165) -/

def hWu (h : List Byte) : Nat := leAt h 0 4
def hEpoch (h : List Byte) : Nat := leAt h 4 1
def hEventStart (h : List Byte) : Bool := bit (leAt h 5 1) 1
def hIndirect (h : List Byte) : Bool := bit (leAt h 5 1) 0
def hJob (h : List Byte) : Nat := leAt h 6 2
def hWord89 (h : List Byte) : Nat := leAt h 8 2
def hClass (h : List Byte) : Nat := bits (hWord89 h) 14 12
def hEmits (h : List Byte) : Nat := leAt h 10 2
def hDescCount (h : List Byte) : Nat := leAt h 12 2
def hTensorCount (h : List Byte) : Nat := leAt h 14 2
def hDeadline (h : List Byte) : Nat := leAt h 16 8
def hBody (h : List Byte) : Nat := leAt h 24 6

/-! ## Where a tensor is read -/

/-- Who reads: the die whose translations serve (4 for X), and the logical cluster whose scratchpad is read. -/
structure Site where
  die : Nat
  log : Nat
deriving DecidableEq, Repr

/-- The dispatcher's site for a descriptor (R493): X, and the lowest present member's scratchpad. -/
def issueSite (members : List Nat) : Site := { die := 4, log := members.headD 0 }

/-- A member's own site. -/
def memberSite (s : State) (l : Nat) : Site := { die := dieOfPhys (physOf s l), log := l }

/-- The address of a byte at a signed offset from a base: reduced modulo the scratchpad's size (R150) or kept in the
48 bits of a virtual address (log 16). -/
def tvAddr (tv : TView) (off : Int) : Nat :=
  if tv.spd then (((tv.base : Int) + off) % (spadSize : Int)).toNat
  else (((tv.base : Int) + off) % ((2 ^ 48 : Nat) : Int)).toNat

/-- Bytes of a tensor at a signed offset from its base, with the poison met (R262, R267, R493). -/
def tvRead (s : State) (site : Site) (tv : TView) (off : Int) (n : Nat) : Except Why (List Byte × Mark) :=
  let a := tvAddr tv off
  if tv.spd then
    let l := spadRead (getClu s (physOf s site.log)).spad a n
    .ok (l.map (·.1), if l.any (·.2) then some (resCluster site.log) else none)
  else
    match vRead s site.die tv.job a n with
    | .error w => .error w
    | .ok l =>
      let bad := ((numsFrom a n).zip l).findSome? fun e => if e.2.2 then some (resPage e.1) else none
      .ok (l.map (·.1), bad)

/-- A little-endian number of a tensor's bytes. -/
def tvNat (s : State) (site : Site) (tv : TView) (off n : Nat) : Except Why (Nat × Mark) :=
  match tvRead s site tv (off : Int) n with
  | .error w => .error w
  | .ok (l, m) => .ok (leNat l, m)

/-- w bits at a signed bit offset from a base (R38). -/
def tvBits (s : State) (site : Site) (tv : TView) (bitOff : Int) (w : Nat) : Except Why (Nat × Mark) :=
  let sh := (bitOff % 8).toNat
  match tvRead s site tv (bitOff / 8) ((sh + w + 7) / 8) with
  | .error e => .error e
  | .ok (l, m) => .ok (bits (leNat l) (sh + w - 1) sh, m)

/-! ## Dense elements -/

/-- Product of sizes. -/
def prodNat (l : List Nat) : Nat := l.foldl (· * ·) 1

/-- Element offset of an index (R178). -/
def denseOff (strides : List Int) (idx : List Nat) : Int :=
  ((idx.zip strides).map fun e => (e.1 : Int) * e.2).foldl (· + ·) 0

/-- Bytes of the packed elements of an MX tensor rounded up to 64 (R39): where its scale region starts. -/
def scaleBase (ety count : Nat) : Nat := 64 * ceilDiv (ceilDiv (count * etyBits ety) 8) 64

/-- Row number of an index over the dimensions above 0 (R39). -/
def rowNumber : List Nat → List Nat → Nat
  | x :: xs, n :: ns => x + n * rowNumber xs ns
  | _, _ => 0

/-- Offset of the scale byte of an index of a packed MX tensor of the given run-time sizes (R39). -/
def scaleOff (ety : Nat) (sizes idx : List Nat) : Nat :=
  scaleBase ety (prodNat sizes) + rowNumber (idx.drop 1) (sizes.drop 1) * ceilDiv (sizes.headD 0) 32 + idx.headD 0 / 32

/-- The bits of a DENSE element. -/
def denseBits (s : State) (site : Site) (tv : TView) (idx : List Nat) : Except Why (Nat × Mark) :=
  let w := etyBits tv.ety
  tvBits s site tv (denseOff tv.strides idx * (w : Int)) w

/-- A DENSE element (R38, R39). -/
def denseElem (s : State) (site : Site) (tv : TView) (idx : List Nat) : Except Why Elem :=
  match denseBits s site tv idx with
  | .error w => .error w
  | .ok (b, m) =>
    if etyIsMx tv.ety then
      match tvNat s site tv (scaleOff tv.ety tv.sizes idx) 1 with
      | .error w => .error w
      | .ok (sc, m') => .ok { v := elemVal tv.ety b sc, mark := orMark m m' }
    else .ok { v := elemVal tv.ety b 0, mark := m }

/-- The index at a place of the walk order of R179: dimension 0 fastest. -/
def unlin : List Nat → Nat → List Nat
  | [], _ => []
  | n :: ns, x => x % n :: unlin ns (x / n)

/-- Every index of a shape in walk order (R179). -/
def walkIdx (sizes : List Nat) : List (List Nat) := (numsFrom 0 (prodNat sizes)).map (unlin sizes)

/-! ## HPF headers (R40, R41, R57) -/

/-- Level kinds: 0 D, 1 C, 2 B, 3 N. -/
def lvlKinds (b n : Nat) : List Nat := (numsFrom 0 n).map fun l => bits b (2 * l + 1) (2 * l)

/-- N and M of a pattern code (R40). -/
def nmOf (p : Nat) : Nat × Nat :=
  match p with
  | 0 => (2, 4)
  | 1 => (1, 4)
  | 2 => (2, 8)
  | _ => (4, 8)

/-- The rank that a DIM_MAP gives, when its values are exactly 0 to r - 1 (R41). -/
def dimRank (dims : List Nat) : Option Nat :=
  let r := (dedup dims).length
  if dims.all (fun d => decide (d < r)) then some r else none

/-- Whether a level of kind N stands only last (R41). -/
def nOnlyLast (kinds : List Nat) : Bool := (kinds.dropLast).all (· != 3)

/-- The level list that a format code asks for (R57). -/
def formatLevels (fmt : Nat) (kinds : List Nat) : Bool :=
  if fmt = 6 then kinds.dropLast.all (· == 0) && kinds.getLast? == some 3
  else if fmt = 7 then kinds.dropLast.all (· == 0) && kinds.getLast? == some 2
  else true

/-- A header's fields. -/
def parseHpf (b : List Byte) : HpfHeader :=
  let n := bits (leAt b 5 1) 2 0
  { wide := bit (leAt b 4 1) 4, ety := bits (leAt b 4 1) 3 0, kinds := lvlKinds (leAt b 6 1) n,
    dims := lvlKinds (leAt b 7 1) n, nm := bits (leAt b 8 1) 1 0, nnz := leAt b 10 6,
    sizes := (numsFrom 0 n).map fun l => leAt b (16 + 4 * l) 4,
    ptrOff := leAt b 32 6, coordOff := leAt b 40 6, valOff := leAt b 48 6, segOff := leAt b 56 6 }

/-- The conditions of R41 on the fields that a template gives too (R61), with the format's level list (R57). -/
def templateOk (b : List Byte) (fmt rank : Nat) : Bool :=
  let h := parseHpf b
  let n := bits (leAt b 5 1) 2 0
  leAt b 0 4 == 0x48504632 && decide (1 ≤ n) && decide (n ≤ 4) && h.ety != 15 && nOnlyLast h.kinds &&
  dimRank h.dims == some rank && formatLevels fmt h.kinds

/-- The conditions of R41 and R57 on a whole header. -/
def hpfOk (b : List Byte) (fmt rank : Nat) : Bool :=
  let h := parseHpf b
  let n := h.kinds.length
  let c := h.kinds.contains 1
  let bn := h.kinds.contains 2 || h.kinds.contains 3
  let off (needed : Bool) (o : Nat) := o % 64 == 0 && (!needed || o != 0)
  templateOk b fmt rank && leAt b 9 1 == 1 &&
  bits (leAt b 4 1) 7 5 == 0 && bits (leAt b 5 1) 7 3 == 0 && bits (leAt b 8 1) 7 2 == 0 &&
  leAt b 38 2 == 0 && leAt b 46 2 == 0 && leAt b 54 2 == 0 && leAt b 62 2 == 0 &&
  ((numsFrom 0 4).drop n).all (fun l => leAt b (16 + 4 * l) 4 == 0) &&
  off c h.ptrOff && off c h.segOff && off bn h.coordOff && off true h.valOff

/-- The logical size of a dimension (R42). -/
def logicalSize (h : HpfHeader) (d : Nat) : Nat :=
  prodNat ((h.dims.zip h.sizes).map fun e => if e.1 = d then e.2 else 1)

/-- The logical sizes of a header's tensor. -/
def logicalSizes (h : HpfHeader) : List Nat := (numsFrom 0 ((dedup h.dims).length)).map (logicalSize h)

/-! ## Levels and positions (R44 to R54) -/

/-- One level of a tensor, as its arrays place it: kind, SIZE, dimension, positions at the level above, the product
of the later level sizes of the same dimension, and the byte offset of its sub-array. -/
structure Level where
  kind : Nat
  size : Nat
  dim : Nat
  parents : Nat
  inner : Nat
  sub : Nat
deriving DecidableEq, Repr

/-- Coordinate width in bytes (R47). -/
def coordW (h : HpfHeader) : Nat := if h.wide then 4 else 2

/-- Granules of a segment record (R47). -/
def recGranules (h : HpfHeader) (n : Nat) : Nat := ceilDiv (16 + n * coordW h) 64

/-- Groups of a B level's parent (R52) or of an N level's (R53). -/
def groupsOf (h : HpfHeader) (kind size : Nat) : Nat :=
  if kind = 2 then ceilDiv size 512 else ceilDiv size (nmOf h.nm).2

/-- Index width of an N level (R53). -/
def nmWidth (h : HpfHeader) : Nat := if (nmOf h.nm).2 = 4 then 2 else 3

/-- Metadata bytes of one N fiber (R53). -/
def nmBytes (h : HpfHeader) (size : Nat) : Nat :=
  64 * ceilDiv (groupsOf h 3 size * (nmOf h.nm).1 * nmWidth h) 512

/-- Sum of the COUNT fields of a C level's records from one granule to another. -/
def segTotal (s : State) (site : Site) (tv : TView) (h : HpfHeader) : Nat → Nat → Nat → Except Why Nat
  | 0, _, _ => .ok 0
  | k + 1, g, stop =>
    if stop ≤ g then .ok 0
    else
      match tvNat s site tv (h.segOff + 64 * g + 8) 2 with
      | .error w => .error w
      | .ok (b, _) =>
        let n := bits b 10 0
        match segTotal s site tv h k (g + recGranules h n) stop with
        | .error w => .error w
        | .ok t => .ok (n + t)

/-- Number of set bits. -/
def popcount (w v : Nat) : Nat := ((List.range w).filter fun i => bit v i).length

/-- Positions of a level (R44). -/
def levelCount (s : State) (site : Site) (tv : TView) (h : HpfHeader) (l : Level) : Except Why Nat :=
  match l.kind with
  | 0 => .ok (l.parents * l.size)
  | 1 =>
    match tvNat s site tv l.sub 6, tvNat s site tv (l.sub + 8 * l.parents) 6 with
    | .ok (g, _), .ok (z, _) => segTotal s site tv h (z - g + 1) g z
    | .error w, _ => .error w
    | _, .error w => .error w
  | 2 =>
    let n := l.parents * groupsOf h 2 l.size
    if n = 0 then .ok 0
    else
      let bm := l.sub + alignUp (8 * n) 64
      match tvNat s site tv (l.sub + 8 * (n - 1)) 6, tvNat s site tv (bm + 64 * (n - 1)) 64 with
      | .ok (c, _), .ok (v, _) => .ok (c + popcount 512 v)
      | .error w, _ => .error w
      | _, .error w => .error w
  | _ => .ok (l.parents * groupsOf h 3 l.size * (nmOf h.nm).1)

/-- Bytes of a level's sub-array in the pointer or coordinate array, whole 64-byte units (R46, R52, R53). -/
def subBytes (h : HpfHeader) (l : Level) : Nat :=
  match l.kind with
  | 1 => alignUp (8 * (l.parents + 1)) 64
  | 2 => alignUp (8 * (l.parents * groupsOf h 2 l.size)) 64 + 64 * (l.parents * groupsOf h 2 l.size)
  | 3 => l.parents * nmBytes h l.size
  | _ => 0

/-- The levels of a tensor with their places, from (kind, dimension, size) lists. -/
def levelsFrom (s : State) (site : Site) (tv : TView) (h : HpfHeader) :
    List (Nat × Nat × Nat) → Nat → Nat → Nat → Except Why (List Level)
  | [], _, _, _ => .ok []
  | (k, d, n) :: r, p, ptr, crd =>
    let l : Level := { kind := k, size := n, dim := d, parents := p,
                       inner := prodNat (r.map fun e => if e.2.1 = d then e.2.2 else 1),
                       sub := if k = 1 then ptr else crd }
    let ptr' := if k = 1 then ptr + subBytes h l else ptr
    let crd' := if k = 2 ∨ k = 3 then crd + subBytes h l else crd
    if r.isEmpty then .ok [l]
    else
      match levelCount s site tv h l with
      | .error w => .error w
      | .ok c => match levelsFrom s site tv h r c ptr' crd' with
        | .error w => .error w
        | .ok ls => .ok (l :: ls)

/-- The levels of a tensor. -/
def levelsOf (s : State) (site : Site) (tv : TView) (h : HpfHeader) : Except Why (List Level) :=
  levelsFrom s site tv h (h.kinds.zip (h.dims.zip h.sizes)) 1 h.ptrOff h.coordOff

/-- One child of a position (R44): its position and coordinate, its poison, the segment it belongs to (an identifier),
that segment's LAST, whether the segment may be skipped (R78), and whether it is a tail slot (R53). -/
structure Child where
  pos : Nat
  crd : Nat
  mark : Mark
  seg : Nat := 0
  last : Nat := 0
  skip : Bool := false
  tail : Bool := false
deriving DecidableEq, Repr

/-- How a walk takes segments (R50, R494): sorted ones only; or every segment of a fiber whole. -/
structure WalkMode where
  sortedOnly : Bool := false
  whole : Bool := false
deriving DecidableEq, Repr

/-- Strict ascent of a list of numbers. -/
def ascends : List Nat → Bool
  | a :: b :: r => decide (a < b) && ascends (b :: r)
  | _ => true

/-- The checks of R49 on the deltas of a segment. -/
def deltasOk (sorted : Bool) (first last size : Nat) (ds : List Nat) : Bool :=
  ds.all (fun d => decide (first + d < size)) &&
  (if sorted then ds.head? == some 0 && ascends ds && ds.getLast? == some (last - first)
   else ds.all fun d => decide (d ≤ last - first))

/-- The deltas of a segment with the poison of each one's granule (R49, R55). -/
def segDeltas (s : State) (site : Site) (tv : TView) (h : HpfHeader) (off n : Nat) : Except Why (List (Nat × Mark)) :=
  mapE (fun j => tvNat s site tv (off + 16 + j * coordW h) (coordW h)) (numsFrom 0 n)

/-- The segments of one fiber from granule g on, as a walk over the coordinates lo to hi - 1 reaches and checks them
(R48 to R50, R494); `prev` is the LAST of the previous segment. -/
def segWalk (s : State) (site : Site) (tv : TView) (h : HpfHeader) (size : Nat) (md : WalkMode) (lo hi : Nat) (pm : Mark) :
    Nat → Nat → Nat → Option Nat → Except Why (List Child)
  | 0, _, _, _ => .ok []
  | k + 1, g, stop, prev =>
    if stop ≤ g then .ok []
    else
      let off := h.segOff + 64 * g
      match tvRead s site tv (off : Int) 16 with
      | .error w => .error w
      | .ok (b, hm) =>
        let first := leAt b 0 4
        let last := leAt b 4 4
        let w := leAt b 8 2
        let n := bits w 10 0
        let sorted := bit w 11
        let late := match prev with | some x => decide (x < first) | none => true
        if n = 0 ∨ 1024 < n ∨ last < first ∨ (md.sortedOnly && !sorted) = true ∨ (sorted && !late) = true then .error badDesc
        else
          let m := orMark pm (orMark hm (if bit w 12 then some resNone else none))
          let next := segWalk s site tv h size md lo hi pm k (g + recGranules h n) stop (some last)
          if (sorted && !md.whole && decide (hi ≤ first)) = true then .ok []
          else if (sorted && !md.whole && (decide (last < lo))) = true then next
          else
            match segDeltas s site tv h off n with
            | .error e => .error e
            | .ok ds =>
              if deltasOk sorted first last size (ds.map (·.1)) = false then .error badDesc
              else
                let kids := ((numsFrom 0 n).zip ds).filterMap fun e =>
                  let c := first + e.2.1
                  if lo ≤ c ∧ c < hi then
                    some ({ pos := leAt b 10 6 + e.1, crd := c, mark := orMark m e.2.2, seg := g, last := last,
                            skip := m.isNone } : Child)
                  else none
                match next with
                | .error e => .error e
                | .ok r => .ok (kids ++ r)

/-- The set bits of one group of a B level within lo to hi - 1 (R52). -/
def bGroup (s : State) (site : Site) (tv : TView) (l : Level) (h : HpfHeader) (p lo hi g : Nat) : Except Why (List Child) :=
  let per := groupsOf h 2 l.size
  let n := p * per + g
  let bm := l.sub + alignUp (8 * (l.parents * per)) 64
  match tvNat s site tv (l.sub + 8 * n) 8, tvNat s site tv (bm + 64 * n) 64 with
  | .ok (c, m), .ok (v, m') =>
    if v / 2 ^ (l.size - 512 * g) ≠ 0 ∧ l.size < 512 * (g + 1) then .error badDesc
    else
      let on := (List.range 512).filter fun i => bit v i
      let top := 512 * g + on.getLast?.getD 0
      .ok (((numsFrom 0 on.length).zip on).filterMap fun e =>
        let x := 512 * g + e.2
        if lo ≤ x ∧ x < hi then
          some { pos := bits c 47 0 + e.1, crd := x, mark := orMark m m', seg := n, last := top,
                 skip := (orMark m m').isNone }
        else none)
  | .error w, _ => .error w
  | _, .error w => .error w

/-- The slots of one group of an N level (R53, R54). -/
def nGroup (s : State) (site : Site) (tv : TView) (l : Level) (h : HpfHeader) (p lo hi g : Nat) : Except Why (List Child) :=
  let (nn, mm) := nmOf h.nm
  let w := nmWidth h
  let base := 8 * (l.sub + p * nmBytes h l.size)
  match mapE (fun j => tvBits s site tv ((base + (g * nn + j) * w : Nat) : Int) w) (numsFrom 0 nn) with
  | .error e => .error e
  | .ok ix =>
    if ascends (ix.map (·.1)) = false then .error badDesc
    else .ok (((numsFrom 0 nn).zip ix).filterMap fun e =>
      let x := mm * g + e.2.1
      if (lo ≤ x ∧ x < hi) ∨ l.size ≤ x then
        some { pos := (p * groupsOf h 3 l.size + g) * nn + e.1, crd := x, mark := e.2.2,
               seg := p * groupsOf h 3 l.size + g, last := mm * g + (ix.getLast?.map (·.1)).getD 0,
               tail := decide (l.size ≤ x) }
      else none)

/-- The children of a position within the coordinates lo to hi - 1 of its level (R44, R494). -/
def children (s : State) (site : Site) (tv : TView) (h : HpfHeader) (md : WalkMode) (l : Level) (p lo hi : Nat) :
    Except Why (List Child) :=
  let hi := min hi l.size
  match l.kind with
  | 0 => .ok ((numsFrom lo (hi - lo)).map fun i => { pos := p * l.size + i, crd := i, mark := none })
  | 1 =>
    match tvNat s site tv (l.sub + 8 * p) 8, tvNat s site tv (l.sub + 8 * (p + 1)) 8 with
    | .ok (g, m), .ok (z, m') =>
      segWalk s site tv h l.size md lo hi (orMark m m') (bits z 47 0 - bits g 47 0 + 1) (bits g 47 0) (bits z 47 0) none
    | .error w, _ => .error w
    | _, .error w => .error w
  | 2 =>
    if hi ≤ lo then .ok []
    else
      match mapE (bGroup s site tv l h p lo hi) (numsFrom (lo / 512) ((hi - 1) / 512 + 1 - lo / 512)) with
      | .error w => .error w
      | .ok r => .ok r.flatten
  | _ =>
    if hi ≤ lo then .ok []
    else
      let mm := (nmOf h.nm).2
      match mapE (nGroup s site tv l h p lo hi) (numsFrom (lo / mm) ((hi - 1) / mm + 1 - lo / mm)) with
      | .error w => .error w
      | .ok r => .ok r.flatten

/-- An entry that a walk reaches: its logical index, its position, its poison so far, its segment in composed
coordinates of the walked dimension (R492), and whether it is a tail slot. -/
structure Entry where
  idx : List Nat
  pos : Nat
  mark : Mark
  seg : Nat := 0
  last : Nat := 0
  skip : Bool := false
  tail : Bool := false
deriving DecidableEq, Repr

/-- The entries below one position, over a range of logical coordinates for each dimension, in position order. `idx`
holds the composed coordinates so far; `e` the mark and segment so far; `fd` the dimension whose segments count. -/
def walkLevels (s : State) (site : Site) (tv : TView) (h : HpfHeader) (md : WalkMode) (fd : Nat) (rng : List (Nat × Nat)) :
    List Level → Entry → Except Why (List Entry)
  | [], e => .ok [e]
  | l :: r, e =>
    let acc := nth 0 e.idx l.dim * l.size
    let (lo, hi) := nth (0, 0) rng l.dim
    match children s site tv h md l e.pos (lo / l.inner - acc) (ceilDiv hi l.inner - acc) with
    | .error w => .error w
    | .ok kids =>
      let go (c : Child) : Except Why (List Entry) :=
        let sets := l.dim == fd && l.kind != 0
        walkLevels s site tv h md fd rng r
          { idx := modAt e.idx l.dim fun x => x * l.size + c.crd, pos := c.pos, mark := orMark e.mark c.mark,
            seg := if sets then c.seg else e.seg,
            last := if sets then (acc + c.last) * l.inner + l.inner - 1 else e.last,
            skip := if sets then c.skip else e.skip && c.mark.isNone, tail := c.tail }
      match mapE go kids with
      | .error w => .error w
      | .ok x => .ok x.flatten

/-- The entries of a sparse tensor over a range of logical coordinates for each dimension, in position order. -/
def hpfEntries (s : State) (site : Site) (tv : TView) (h : HpfHeader) (md : WalkMode) (fd : Nat) (rng : List (Nat × Nat)) :
    Except Why (List Entry) :=
  match levelsOf s site tv h with
  | .error w => .error w
  | .ok ls => walkLevels s site tv h md fd rng ls { idx := rng.map fun _ => 0, pos := 0, mark := none }

/-- The whole range of every dimension. -/
def fullRange (h : HpfHeader) : List (Nat × Nat) := (logicalSizes h).map fun n => (0, n)

/-- The value of a position (R45). -/
def posElem (s : State) (site : Site) (tv : TView) (h : HpfHeader) (pos : Nat) : Except Why Elem :=
  let w := etyBits h.ety
  match tvBits s site tv ((8 * h.valOff + pos * w : Nat) : Int) w with
  | .error e => .error e
  | .ok (b, m) =>
    if etyIsMx h.ety then
      match tvNat s site tv (h.valOff + scaleBase h.ety h.nnz + pos / 32) 1 with
      | .error e => .error e
      | .ok (sc, m') => .ok { v := elemVal h.ety b sc, mark := orMark m m' }
    else .ok { v := elemVal h.ety b 0, mark := m }

/-- An entry's value with all the poison of R55; a tail slot that holds a nonzero value is malformed (R54). -/
def entryElem (s : State) (site : Site) (tv : TView) (h : HpfHeader) (e : Entry) : Except Why Elem :=
  match posElem s site tv h e.pos with
  | .error w => .error w
  | .ok x => if e.tail && !valIsZero x.v then .error badDesc else .ok { x with mark := orMark e.mark x.mark }

/-- The entries of a range with their values; tail slots name no element and are left out (R53). -/
def hpfElems (s : State) (site : Site) (tv : TView) (h : HpfHeader) (md : WalkMode) (fd : Nat) (rng : List (Nat × Nat)) :
    Except Why (List (Entry × Elem)) :=
  match hpfEntries s site tv h md fd rng with
  | .error w => .error w
  | .ok es =>
    match mapE (fun e => match entryElem s site tv h e with
        | .error w => .error w
        | .ok x => .ok (e, x)) es with
    | .error w => .error w
    | .ok l => .ok (l.filter fun x => !x.1.tail)

/-- The dimension that the last level other than D indexes (R68, R492). -/
def fiberDim (h : HpfHeader) : Option Nat :=
  ((h.kinds.zip h.dims).filter fun e => e.1 != 0).getLast?.map (·.2)

/-! ## Exchange tensors (R59, R60, R65) -/

/-- An exchange header's fields. -/
def parseX (b : List Byte) : ExchangeHeader :=
  { sorted := bit (leAt b 4 1) 5, wide := bit (leAt b 4 1) 4, ety := bits (leAt b 4 1) 3 0, format := leAt b 5 1,
    blockLog2 := leAt b 6 1, count := leAt b 8 8, rows := leAt b 16 4, cols := leAt b 20 4,
    arr0 := leAt b 32 6, arr1 := leAt b 40 6, arr2 := leAt b 48 6 }

/-- Whether an exchange header keeps R59 and R60 for a descriptor's format code. -/
def xOk (b : List Byte) (fmt : Nat) : Bool :=
  let h := parseX b
  leAt b 0 4 == 0x48504658 && bits (leAt b 4 1) 7 6 == 0 && h.ety != 15 && h.format == fmt && leAt b 7 1 == 0 &&
  leAt b 24 8 == 0 && leAt b 56 8 == 0 && leAt b 38 2 == 0 && leAt b 46 2 == 0 && leAt b 54 2 == 0 &&
  h.arr0 % 8 == 0 && h.arr1 % 8 == 0 && h.arr2 % 8 == 0 &&
  (if fmt = 5 then decide (2 ≤ h.blockLog2) && decide (h.blockLog2 ≤ 5) &&
     h.rows % 2 ^ h.blockLog2 == 0 && h.cols % 2 ^ h.blockLog2 == 0
   else h.blockLog2 == 0)

/-- An index of an index array. -/
def xIndex (s : State) (site : Site) (tv : TView) (h : ExchangeHeader) (arr n : Nat) : Except Why (Nat × Mark) :=
  let w := if h.wide then 8 else 4
  tvNat s site tv (arr + n * w) w

/-- Value n of the value array (R60). -/
def xValue (s : State) (site : Site) (tv : TView) (h : ExchangeHeader) (n : Nat) : Except Why Elem :=
  let w := etyBits h.ety
  let total := h.count * 4 ^ h.blockLog2
  match tvBits s site tv ((8 * h.arr2 + n * w : Nat) : Int) w with
  | .error e => .error e
  | .ok (b, m) =>
    if etyIsMx h.ety then
      match tvNat s site tv (h.arr2 + scaleBase h.ety total + n / 32) 1 with
      | .error e => .error e
      | .ok (sc, m') => .ok { v := elemVal h.ety b sc, mark := orMark m m' }
    else .ok { v := elemVal h.ety b 0, mark := m }

/-- One stored value of an exchange tensor: its index (column, row) and its element. -/
abbrev XEntry := List Nat × Elem

/-- The stored items of one fiber of a pointer format: source number and other index, checked (R65). -/
def xFiber (s : State) (site : Site) (tv : TView) (h : ExchangeHeader) (bound a z : Nat) : Except Why (List (Nat × Nat × Mark)) :=
  match mapE (fun n => match xIndex s site tv h h.arr1 n with
      | .error w => .error w
      | .ok (i, m) => if i < bound then .ok (n, i, m) else .error badDesc) (numsFrom a (z - a)) with
  | .error w => .error w
  | .ok l => if h.sorted && !ascends (l.map fun e => e.2.1) then .error badDesc else .ok l

/-- The items of a pointer format: fiber, source number, other index, poison. -/
def xPointers (s : State) (site : Site) (tv : TView) (h : ExchangeHeader) (fibers bound : Nat) :
    Except Why (List (Nat × Nat × Nat × Mark)) :=
  match mapE (fun r => xIndex s site tv h h.arr0 r) (numsFrom 0 (fibers + 1)) with
  | .error w => .error w
  | .ok ps =>
    let vs := ps.map (·.1)
    if ((vs.zip (vs.drop 1)).all fun e => decide (e.1 ≤ e.2)) = false ∨ vs.getLast? ≠ some h.count then .error badDesc
    else
      match mapE (fun r => match xFiber s site tv h bound (nth 0 vs r) (nth 0 vs (r + 1)) with
          | .error w => .error w
          | .ok l => .ok (l.map fun e =>
              (r, e.1, e.2.1, orMark (orMark (nth (0, none) ps r).2 (nth (0, none) ps (r + 1)).2) e.2.2))) (numsFrom 0 fibers) with
      | .error w => .error w
      | .ok l => .ok l.flatten

/-- The pairs of a COO source (R60, R65): source number, row, column, poison. -/
def xPairs (s : State) (site : Site) (tv : TView) (h : ExchangeHeader) : Except Why (List (Nat × Nat × Nat × Mark)) :=
  match mapE (fun n =>
      match xIndex s site tv h h.arr0 n, xIndex s site tv h h.arr1 n with
      | .ok (r, m), .ok (c, m') => if r < h.rows ∧ c < h.cols then .ok (n, r, c, orMark m m') else .error badDesc
      | .error w, _ => .error w
      | _, .error w => .error w) (numsFrom 0 h.count) with
  | .error w => .error w
  | .ok l => if h.sorted && !ascends (l.map fun e => e.2.1 * h.cols + e.2.2.1) then .error badDesc else .ok l

/-- Values of listed source numbers with their indices. -/
def xValues (s : State) (site : Site) (tv : TView) (h : ExchangeHeader) (l : List (Nat × List Nat × Mark)) :
    Except Why (List XEntry) :=
  mapE (fun e => match xValue s site tv h e.1 with
    | .error w => .error w
    | .ok x => .ok (e.2.1, { x with mark := orMark e.2.2 x.mark })) l

/-- Every stored value of an exchange tensor in ascending source index order (R60, R62, R65). -/
def xEntries (s : State) (site : Site) (tv : TView) (h : ExchangeHeader) : Except Why (List XEntry) :=
  match h.format with
  | 2 =>
    match xPointers s site tv h h.rows h.cols with
    | .error w => .error w
    | .ok l => xValues s site tv h (l.map fun e => (e.2.1, [e.2.2.1, e.1], e.2.2.2))
  | 3 =>
    match xPointers s site tv h h.cols h.rows with
    | .error w => .error w
    | .ok l => xValues s site tv h (l.map fun e => (e.2.1, [e.1, e.2.2.1], e.2.2.2))
  | 4 =>
    match xPairs s site tv h with
    | .error w => .error w
    | .ok l => xValues s site tv h (l.map fun e => (e.1, [e.2.2.1, e.2.1], e.2.2.2))
  | _ =>
    let b := 2 ^ h.blockLog2
    match xPointers s site tv h (h.rows / b) (h.cols / b) with
    | .error w => .error w
    | .ok l => xValues s site tv h (l.flatMap fun e => (numsFrom 0 (b * b)).map fun j =>
        (e.2.1 * (b * b) + j, [e.2.2.1 * b + j % b, e.1 * b + j / b], e.2.2.2))

/-! ## Any tensor's elements -/

/-- The elements a tensor holds, with their indices, in walk order for DENSE and in position or source order
otherwise; an unstored coordinate is absent. -/
def tvElems (s : State) (site : Site) (tv : TView) : Except Why (List XEntry) :=
  match tv.hdr, tv.xhdr with
  | some h, _ =>
    match hpfElems s site tv h { whole := true } ((fiberDim h).getD 0) (fullRange h) with
    | .error w => .error w
    | .ok l => .ok (l.map fun e => (e.1.idx, e.2))
  | none, some x => xEntries s site tv x
  | none, none =>
    mapE (fun i => match denseElem s site tv i with
      | .error w => .error w
      | .ok x => .ok (i, x)) (walkIdx tv.sizes)

end Sys2Proof.Machine
end

