-- ==== Sys2Proof/Machine/Plan.lean ====
section
/-! DEFINITION. How an issued descriptor is cut into tickets (07): the operand fibers of the product opcodes (03 R66 to
R81), counts and weights (R218, R219), tiles and pieces of the hardware tile walker (R216, R217, R220), the hand-out order
(R221), the firmware mapper (R229, R230) and the working region (R222). -/

namespace Sys2Proof.Machine

/-! ## Product operands -/

/-- A tensor slot of an issued descriptor. -/
def ten (d : DRun) (i : Nat) : Option TView := (d.tens[i]?).getD none

/-- The product opcodes. -/
def isProduct (op : Nat) : Bool := decide (1 ≤ op) && decide (op ≤ 4)

/-- The row-scan opcodes (R67). -/
def isRowScan (op : Nat) : Bool := op == 0x08 || op == 0x09 || op == 0x0A || op == 0x0C

/-- Whether a format code stores a sparse tensor with an HPF header. -/
def isSparseFmt (f : Nat) : Bool := f == 1 || f == 6 || f == 7

/-- Whether a destination of a format is built whole after its last tile: a sparse or an exchange format. -/
def isSparseDst (f : Nat) : Bool := isSparseFmt f || (decide (2 ≤ f) && decide (f ≤ 5))

/-- The format of a slot's tensor. -/
def fmtOf (d : DRun) (i : Nat) : Nat := match ten d i with | some t => t.fmt | none => 0

/-- The element type in which a slot's tensor is read: its header's when it has one (R43). -/
def etyOf (t : TView) : Nat :=
  match t.hdr, t.xhdr with
  | some h, _ => h.ety
  | none, some x => x.ety
  | none, none => t.ety

/-- The element type of a slot. -/
def slotEty (d : DRun) (i : Nat) : Nat := match ten d i with | some t => etyOf t | none => 0

/-- MMC modes of R67 for a product descriptor: 0 dense, 1 N:M, 2 product scan, 3 intersect. -/
def prodMode (d : DRun) : Nat :=
  if d.op = 4 then 3
  else if fmtOf d 0 = 6 ∨ fmtOf d 1 = 6 then 1
  else if isSparseFmt (fmtOf d 0) || isSparseFmt (fmtOf d 1) then 2
  else 0

/-- The wider of two rate classes (R27). -/
def widerRate (a b : Nat) : Nat := max (etyRate a) (etyRate b)

/-- The rate class of a product descriptor (R27). -/
def prodRate (d : DRun) : Nat := widerRate (slotEty d 0) (slotEty d 1)

/-- MACs per cycle of a rate class (R86). -/
def ratePer (r : Nat) : Nat := if r = 4 then 8 else if r = 16 then 2 else 4

/-- The span width of a product descriptor (R70, R220). -/
def prodGrain (d : DRun) : Nat :=
  let a := slotEty d 0
  let b := slotEty d 1
  match fmtOf d 0, fmtOf d 1 with
  | 0, 0 => rateSpan (widerRate a b)
  | 0, _ => rateSpan (etyRate a)
  | _, 0 => rateSpan (etyRate b)
  | 6, 6 => rateSpan (widerRate a b)
  | 6, _ => rateSpan (etyRate a)
  | _, 6 => rateSpan (etyRate b)
  | _, _ => rateSpan (widerRate a b)

/-- Whether the spans of a product are fixed in width (R70). -/
def fixedSpans (d : DRun) : Bool :=
  fmtOf d 0 == 0 || fmtOf d 1 == 0 || fmtOf d 0 == 6 || fmtOf d 1 == 6

/-- Batch indices of an operand for a batch number (R183): a size of 1 broadcasts. -/
def batchIdx (d : DRun) (t : TView) (b : Nat) : List Nat :=
  ((unlin d.batch b).zip (t.sizes.drop 2)).map fun e => if e.2 = 1 then 0 else e.1

/-- One entry of an operand fiber: its k, its element, its segment (R78). -/
structure FEntry where
  k : Nat
  x : Elem
  seg : Nat := 0
  last : Nat := 0
  skip : Bool := false
deriving DecidableEq, Repr

/-- The fiber of an operand along k at an outer coordinate, over k0 to k1 - 1. `kd` is the dimension of k: 0 in A, 1
in B. -/
def fiber (s : State) (site : Site) (d : DRun) (t : TView) (kd o b k0 k1 : Nat) : Except Why (List FEntry) :=
  match t.hdr with
  | some h =>
    let rng := if kd = 0 then [(k0, k1), (o, o + 1)] else [(o, o + 1), (k0, k1)]
    match hpfElems s site t h { sortedOnly := d.op == 4, whole := d.op == 2 && fmtOf d 0 + fmtOf d 1 != 6 } kd rng with
    | .error w => .error w
    | .ok l => .ok (l.map fun e => { k := nth 0 e.1.idx kd, x := e.2, seg := e.1.seg, last := e.1.last, skip := e.1.skip })
  | none =>
    mapE (fun k =>
      let i := (if kd = 0 then [k, o] else [o, k]) ++ batchIdx d t b
      match denseElem s site t i with
      | .error w => .error w
      | .ok x => .ok { k := k, x := x }) (numsFrom k0 (k1 - k0))

/-! ## Counts (R219) -/

/-- A C fiber's headers as far as the count needs them: (FIRST, LAST, COUNT, PREFIX). -/
def segHeads (s : State) (site : Site) (t : TView) (h : HpfHeader) : Nat → Nat → Nat → Except Why (List (Nat × Nat × Nat × Nat))
  | 0, _, _ => .ok []
  | k + 1, g, stop =>
    if stop ≤ g then .ok []
    else
      match tvRead s site t ((h.segOff + 64 * g : Nat) : Int) 16 with
      | .error w => .error w
      | .ok (b, _) =>
        let n := bits (leAt b 8 2) 10 0
        match segHeads s site t h k (g + recGranules h n) stop with
        | .error w => .error w
        | .ok r => .ok ((leAt b 0 4, leAt b 4 4, n, leAt b 10 6) :: r)

/-- Stored entries below x from a fiber's segment headers: full counts as differences of PREFIX, the segment that
holds x interpolated (R219). -/
def countHeads (l : List (Nat × Nat × Nat × Nat)) (x : Nat) : Nat :=
  match l.head? with
  | none => 0
  | some f =>
    let full := match l.find? fun e => !decide (e.2.1 < x) with
      | some e => e.2.2.2 - f.2.2.2
      | none => match l.getLast? with
        | some z => z.2.2.2 + z.2.2.1 - f.2.2.2
        | none => 0
    full + sumNat (l.map fun e => if e.1 < x ∧ x ≤ e.2.1 then e.2.2.1 * (x - e.1) / (e.2.1 + 1 - e.1) else 0)

/-- Stored entries of a C, B or N fiber below x (R219). -/
def countLevel (s : State) (site : Site) (t : TView) (h : HpfHeader) (l : Level) (p x : Nat) : Except Why Nat :=
  match l.kind with
  | 1 =>
    match tvNat s site t (l.sub + 8 * p) 6, tvNat s site t (l.sub + 8 * (p + 1)) 6 with
    | .ok (g, _), .ok (z, _) =>
      (match segHeads s site t h (z - g + 1) g z with
       | .error w => .error w
       | .ok r => .ok (countHeads r x))
    | .error w, _ => .error w
    | _, .error w => .error w
  | 2 =>
    let per := groupsOf h 2 l.size
    let bm := l.sub + alignUp (8 * (l.parents * per)) 64
    match mapE (fun g => match tvNat s site t (bm + 64 * (p * per + g)) 64 with
        | .error w => .error w
        | .ok (v, _) =>
          let n := popcount 512 v
          .ok (if 512 * (g + 1) ≤ x then n else if 512 * g < x then n * (x - 512 * g) / 512 else 0)) (numsFrom 0 per) with
    | .error w => .error w
    | .ok r => .ok (sumNat r)
  | 3 =>
    let (nn, mm) := nmOf h.nm
    let w := nmWidth h
    let base := 8 * (l.sub + p * nmBytes h l.size)
    let g := x / mm
    if groupsOf h 3 l.size ≤ g then .ok (groupsOf h 3 l.size * nn)
    else
      match mapE (fun j => tvBits s site t ((base + (g * nn + j) * w : Nat) : Int) w) (numsFrom 0 nn) with
      | .error e => .error e
      | .ok ix => .ok (g * nn + (ix.filter fun e => decide (mm * g + e.1 < x)).length)
  | _ => .ok x

/-- Entries that one entry of a level stands for, over the levels below it that map to k (R219). -/
def belowFactor (h : HpfHeader) (kd : Nat) (r : List Level) : Nat :=
  prodNat (r.map fun l => if l.dim = kd then (if l.kind = 3 then groupsOf h 3 l.size * (nmOf h.nm).1 else l.size) else 1)

/-- The count of R219 down the levels of a fiber at outer coordinate o: `acc` holds the composed coordinates so far. -/
def countLevels (s : State) (site : Site) (t : TView) (h : HpfHeader) (kd o x : Nat) :
    List Level → Nat → List Nat → Except Why Nat
  | [], _, _ => .ok 1
  | l :: r, p, acc =>
    let a := nth 0 acc l.dim * l.size
    if l.dim = kd ∧ l.kind ≠ 0 then
      let q := x / l.inner - a
      let c := belowFactor h kd r
      match countLevel s site t h l p (min q l.size) with
      | .error w => .error w
      | .ok n =>
        if x % l.inner = 0 ∨ l.size ≤ q then .ok (n * c)
        else
          match children s site t h {} l p q (q + 1) with
          | .error w => .error w
          | .ok kids => .ok (n * c + (if kids.isEmpty then 0 else (x % l.inner) * c / l.inner))
    else
      let (lo, hi) := if l.dim = kd then (0, ceilDiv x l.inner - a) else (o / l.inner - a, o / l.inner - a + 1)
      match children s site t h {} l p lo hi with
      | .error w => .error w
      | .ok kids =>
        match mapE (fun c : Child => countLevels s site t h kd o x r c.pos (modAt acc l.dim fun v => v * l.size + c.crd)) kids with
        | .error w => .error w
        | .ok ns => .ok (sumNat ns)

/-- A count in which malformed data counts as nothing: a ticket that reaches it meets it (R494). -/
def lenient (r : Except Why Nat) : Except Why Nat :=
  match r with
  | .error w => if w.1 = reasonDescInvalid then .ok 0 else .error w
  | x => x

/-- Stored entries of an operand's fiber below x (R219). -/
def countBelow (s : State) (site : Site) (t : TView) (kd o x : Nat) : Except Why Nat :=
  match t.hdr with
  | none => .ok x
  | some h =>
    lenient (match levelsOf s site t h with
      | .error w => .error w
      | .ok ls => countLevels s site t h kd o x ls 0 ((logicalSizes h).map fun _ => 0))

/-! ## Tiles (R216, R217) -/

/-- A tile: batch, row range, column strip, and the rows and columns it covers. -/
structure Tile where
  b : Nat := 0
  rho : Nat := 0
  sigma : Nat := 0
  m0 : Nat
  m1 : Nat
  n0 : Nat := 0
  n1 : Nat := 0
deriving DecidableEq, Repr

/-- Ranges of a length cut in steps. -/
def ranges (n step : Nat) : List (Nat × Nat × Nat) :=
  (numsFrom 0 (ceilDiv n step)).map fun i => (i, i * step, min n ((i + 1) * step))

/-- The grid of tiles of rows and columns for each batch index, in position order. -/
def tileGrid (nb m n mt nt : Nat) : List Tile :=
  (numsFrom 0 nb).flatMap fun b => (ranges m mt).flatMap fun r => (ranges n nt).map fun c =>
    { b := b, rho := r.1, sigma := c.1, m0 := r.2.1, m1 := r.2.2, n0 := c.2.1, n1 := c.2.2 }

/-- Sizes of a slot's tensor. -/
def slotSizes (d : DRun) (i : Nat) : List Nat := match ten d i with | some t => t.sizes | none => []

/-- Output sizes of REDUCE (R197): the dimensions that remain, or one element. -/
def reduceSizes (d : DRun) : List Nat :=
  let l := (slotSizes d 0).eraseIdx (dReduceDim d.raw)
  if l.isEmpty then [1] else l

/-- Elements of a 64 KiB chunk of a type (R216). -/
def chunkElems (ety : Nat) : Nat := 65536 * 8 / etyBits ety

/-- Sizes over which a copy opcode writes its destination (R198, R203). -/
def moveSizes (d : DRun) : List Nat := if d.op = 0x1B then slotSizes d 2 else slotSizes d 0

/-- Tile columns of a product descriptor (R66): 256, or 128 with compensation on. -/
def tileCols (d : DRun) : Nat := if d.comp then 128 else 256

/-- Output rows of a descriptor that works by rows: `m`, which its issue fixed. -/
def tilesOf (d : DRun) (mt nt : Nat) : List Tile :=
  match d.op with
  | 1 | 2 | 3 | 4 => tileGrid (prodNat d.batch) d.m d.n mt nt
  | 0x11 | 0x12 =>
    if d.n = 0 then (ranges d.m mt).map fun r => { rho := r.1, m0 := r.2.1, m1 := r.2.2 } else tileGrid 1 d.m d.n mt nt
  | 0x19 =>
    let z := slotSizes d 2
    if prodNat z = 0 then [] else tileGrid 1 (nth 1 z 1) (nth 1 z 0) 64 64
  | 0x18 | 0x1A | 0x1B =>
    let z := moveSizes d
    let n := prodNat z
    if n = 0 then (if isSparseDst (fmtOf d 2) && d.op == 0x18 then [{ m0 := 0, m1 := 0 }] else [])
    else if isSparseDst (fmtOf d 2) then (ranges (n / z.headD 1) 160).map fun r => { rho := r.1, m0 := r.2.1, m1 := r.2.2 }
    else (ranges n (chunkElems (match ten d 2 with | some t => t.ety | none => 0))).map fun r =>
      { rho := r.1, m0 := r.2.1, m1 := r.2.2 }
  | 0x0B => (ranges (max 1 (prodNat (slotSizes d 0))) 4096).map fun r => { rho := r.1, m0 := r.2.1, m1 := r.2.2 }
  | _ => (ranges d.m mt).map fun r => { rho := r.1, m0 := r.2.1, m1 := r.2.2, n0 := 0, n1 := d.n }

/-! ## Weights and pieces (R218, R220) -/

/-- Stored entries of the fibers of one operand of a tile over k0 to k1 - 1 (R218, R219). -/
def tileEntries (s : State) (site : Site) (t : TView) (kd lo hi k0 k1 : Nat) : Except Why Nat :=
  match mapE (fun o => match countBelow s site t kd o k0, countBelow s site t kd o k1 with
      | .ok a, .ok b => .ok (b - a)
      | .error w, _ => .error w
      | _, .error w => .error w) (numsFrom lo (hi - lo)) with
  | .error w => .error w
  | .ok l => .ok (sumNat l)

/-- A and B entries of a product tile in a piece. -/
def prodEntries (s : State) (site : Site) (d : DRun) (t : Tile) (k0 k1 : Nat) : Except Why (Nat × Nat) :=
  match ten d 0, ten d 1 with
  | some a, some b =>
    (match tileEntries s site a 0 t.m0 t.m1 k0 k1, tileEntries s site b 1 t.n0 t.n1 k0 k1 with
     | .ok x, .ok y => .ok (x, y)
     | .error w, _ => .error w
     | _, .error w => .error w)
  | _, _ => .ok (0, 0)

/-- N:M speed factor (R75). -/
def nmSpeed (d : DRun) : Nat :=
  let h := match ten d 0, ten d 1 with
    | some a, some b => if a.fmt = 6 then a.hdr else b.hdr
    | _, _ => none
  match h with
  | some x => (nmOf x.nm).2 / (nmOf x.nm).1
  | none => 1

/-- Weight of a product piece (R218). -/
def prodWeight (s : State) (site : Site) (d : DRun) (t : Tile) (k0 k1 : Nat) : Except Why Nat :=
  let r := ratePer (prodRate d)
  let o := if d.comp then 32 else 64
  let c := if d.comp then 4 else 8
  match prodMode d with
  | 0 => .ok (o * ceilDiv (k1 - k0) r)
  | 1 => .ok (o * ceilDiv (k1 - k0) (r * nmSpeed d))
  | 2 =>
    (match prodEntries s site d t k0 k1 with
     | .error w => .error w
     | .ok (ea, eb) => .ok (if isSparseFmt (fmtOf d 1) then ceilDiv (8 * eb) (32 * r) else ceilDiv (c * ea) (20 * r)))
  | _ =>
    (match prodEntries s site d t k0 k1 with
     | .error w => .error w
     | .ok (ea, eb) => .ok (ceilDiv (c * ea * 32 + 8 * eb * 20) (4 * 20 * 32)))

/-- Entries of a sparse tensor whose index passes a test. -/
def entriesWhere (s : State) (site : Site) (t : TView) (rng : Option (List (Nat × Nat))) (p : List Nat → Bool) : Except Why Nat :=
  match t.hdr with
  | none => .ok 0
  | some h =>
    lenient (match hpfEntries s site t h {} ((fiberDim h).getD 0) (rng.getD (fullRange h)) with
      | .error w => .error w
      | .ok l => .ok (l.filter fun e => p e.idx).length)

/-- Elements of a row range and a piece of REDUCE's input (R216, R218). -/
def reduceReads (s : State) (site : Site) (d : DRun) (t : Tile) (k0 k1 : Nat) : Except Why Nat :=
  match ten d 0 with
  | none => .ok 0
  | some a =>
    let rd := dReduceDim d.raw
    let z := reduceSizes d
    match a.hdr with
    | none => .ok ((t.m1 - t.m0) * z.headD 1 * (k1 - k0))
    | some h =>
      let rng := (fullRange h).set rd (k0, k1)
      entriesWhere s site a (some rng) fun i =>
        let r := rowNumber ((i.eraseIdx rd).drop 1) (z.drop 1)
        decide (t.m0 ≤ r) && decide (r < t.m1)

/-- The dimension that level 0 of an index fiber indexes (R194). -/
def bagDim (t : TView) : Nat := match t.hdr with | some h => h.dims.headD 0 | none => 0

/-- The dimension that the last level of an index fiber indexes: its coordinates name table rows (R194). -/
def rowDim (t : TView) : Nat := match t.hdr with | some h => h.dims.getLastD 0 | none => 0

/-- Frames per entry of a row scan (R82). -/
def scanFrames (d : DRun) : Nat := ceilDiv (ceilDiv (d.n * etyBits (slotEty d 1)) 8) 2048

/-- Weight of a piece (R218). -/
def weight (s : State) (site : Site) (d : DRun) (t : Tile) (k0 k1 : Nat) : Except Why Nat :=
  if isProduct d.op then prodWeight s site d t k0 k1
  else if d.op = 0x10 then
    match reduceReads s site d t k0 k1 with
    | .error w => .error w
    | .ok n => .ok (ceilDiv n 64)
  else if isRowScan d.op then
    match ten d 0 with
    | none => .ok 0
    | some x =>
      match entriesWhere s site x none fun i =>
          if d.op = 0x0A ∨ d.op = 0x0C then decide (t.m0 ≤ nth 0 i (bagDim x)) && decide (nth 0 i (bagDim x) < t.m1)
          else if d.op = 0x09 then decide (t.m0 ≤ i.headD 0) && decide (i.headD 0 < t.m1)
          else true with
      | .error w => .error w
      | .ok e => .ok (8 * scanFrames d * (if d.op = 0x08 then min e (t.m1 - t.m0) else e))
  else
    match d.op with
    | 0x11 | 0x12 => .ok (ceilDiv ((t.m1 - t.m0) * (t.n1 - t.n0)) 64)
    | 0x19 => .ok (ceilDiv ((t.m1 - t.m0) * (t.n1 - t.n0)) 64)
    | 0x05 => .ok (ceilDiv (2 * (t.m1 - t.m0) * d.n) 64)
    | 0x18 | 0x1A | 0x1B =>
      .ok (ceilDiv ((t.m1 - t.m0) * (if isSparseDst (fmtOf d 2) then (moveSizes d).headD 1 else 1)) 64)
    | _ => .ok (ceilDiv (t.m1 - t.m0) 64)

/-- The length of the reduced dimension (R216): 0 where there is none. -/
def reducedLen (d : DRun) : Nat :=
  if isProduct d.op then d.k else if d.op = 0x10 then nth 0 (slotSizes d 0) (dReduceDim d.raw) else 0

/-- The smallest multiple of the grain, from number lo on, whose count reaches a target (R220); fuel bounds the search. -/
def leastCut (count : Nat → Except Why Nat) (grain target : Nat) : Nat → Nat → Nat → Except Why Nat
  | 0, lo, _ => .ok (lo * grain)
  | k + 1, lo, hi =>
    if hi ≤ lo then .ok (lo * grain)
    else
      let mid := (lo + hi) / 2
      match count (mid * grain) with
      | .error w => .error w
      | .ok c => if target ≤ c then leastCut count grain target k lo mid else leastCut count grain target k (mid + 1) hi

/-- The inner cuts of R220 by counts. -/
def innerCuts (count : Nat → Except Why Nat) (grain len p e : Nat) : Nat → Nat → Nat → Except Why (List Nat)
  | 0, _, _ => .ok []
  | k + 1, i, prev =>
    match leastCut (fun x => count (min x len)) grain (ceilDiv (i * e) p) 64 0 (ceilDiv len grain) with
    | .error w => .error w
    | .ok x =>
      let c := max x (prev + grain)
      match innerCuts count grain len p e k (i + 1) c with
      | .error w => .error w
      | .ok r => .ok (c :: r)

/-- The inner cuts at equal lengths on a grain (R220). -/
def equalCuts (len p grain : Nat) : List Nat :=
  let step := alignUp (ceilDiv len p) grain
  (numsFrom 1 (p - 1)).map fun i => i * step

/-- Pieces from inner cuts: those wholly past the end are dropped, piece 0 is kept (R220). -/
def piecesFrom (cuts : List Nat) (len : Nat) : List (Nat × Nat) :=
  let ks := 0 :: cuts.filter fun c => decide (c < len)
  ks.zip (ks.drop 1 ++ [len])

/-- The pieces of a tile at a piece count (R220, R229). -/
def piecesAt (s : State) (site : Site) (d : DRun) (t : Tile) (p : Nat) : Except Why (List (Nat × Nat)) :=
  let len := reducedLen d
  if p ≤ 1 then .ok [(0, len)]
  else if isProduct d.op then
    let count (x : Nat) : Except Why Nat := match prodEntries s site d t 0 x with
      | .error w => .error w
      | .ok (a, b) => .ok (a + b)
    match count len with
    | .error w => .error w
    | .ok e => match innerCuts count (prodGrain d) len p e (p - 1) 1 0 with
      | .error w => .error w
      | .ok cs => .ok (piecesFrom cs len)
  else .ok (piecesFrom (equalCuts len p 64) len)

/-- The piece count of the hardware tile walker (R220). -/
def walkerPieces (d : DRun) (w : Nat) : Nat :=
  if isProduct d.op then min 8 (max 1 (ceilDiv w 8192))
  else if d.op = 0x10 then min 8 (max (max 1 (ceilDiv w 8192)) (ceilDiv (reducedLen d) 65536))
  else 1

/-- The tickets of one tile. -/
def tileTickets (s : State) (site : Site) (d : DRun) (n : Nat) (t : Tile) (ps : List (Nat × Nat)) : Except Why (List Ticket) :=
  mapE (fun e : Nat × (Nat × Nat) =>
    match weight s site d t e.2.1 e.2.2 with
    | .error w => .error w
    | .ok w => .ok { b := t.b, rho := t.rho, sigma := t.sigma, kappa := e.1, tile := n, m0 := t.m0, m1 := t.m1,
                     n0 := t.n0, n1 := t.n1, k0 := e.2.1, k1 := e.2.2, weight := w }) ((numsFrom 0 ps.length).zip ps)

/-- The plan of the hardware tile walker, in position order: the tickets of each tile. -/
def walkerPlan (s : State) (site : Site) (d : DRun) : Except Why (List (List Ticket)) :=
  let ts := tilesOf d 160 (tileCols d)
  mapE (fun e : Nat × Tile =>
    match weight s site d e.2 0 (reducedLen d) with
    | .error w => .error w
    | .ok w => match piecesAt s site d e.2 (walkerPieces d w) with
      | .error w => .error w
      | .ok ps => tileTickets s site d e.1 e.2 ps) ((numsFrom 0 ts.length).zip ts)

/-! ## The firmware mapper (R229, R230) -/

/-- Whether an opcode's plan leaves the mapper freedoms: tile rows, tile columns, pieces. -/
def mapRows (op : Nat) : Bool := isProduct op || isRowScan op || op == 0x05 || op == 0x10 || op == 0x11 || op == 0x12
def mapCols (op : Nat) : Bool := isProduct op || op == 0x11 || op == 0x12
def mapPieces (op : Nat) : Bool := isProduct op || op == 0x10

/-- Largest weight of a list of tickets. -/
def maxWeight (l : List Ticket) : Nat := l.foldl (fun a t => max a t.weight) 0

/-- For one tile, its tickets at each piece count from 1 to 8. -/
def tileChoices (s : State) (site : Site) (d : DRun) (n : Nat) (t : Tile) : Except Why (List (List Ticket)) :=
  mapE (fun p => match piecesAt s site d t p with
    | .error w => .error w
    | .ok ps => tileTickets s site d n t ps) (numsFrom 1 (if mapPieces d.op then 8 else 1))

/-- For a bound on the ticket weight, the fewest pieces of each tile that keep it; none where a tile cannot. -/
def planUnder (choices : List (List (List Ticket))) (w : Nat) : Option (List (List Ticket)) :=
  choices.mapM fun c => c.find? fun l => decide (maxWeight l ≤ w)

/-- Estimated makespan of a plan (R230) with its ticket count. -/
def makespan (count : Nat) (plan : List (List Ticket)) : Nat × Nat :=
  let l := plan.flatten
  (ceilDiv l.length count * maxWeight l, l.length)

/-- A mapper's candidate: makespan, tickets, tile rows, tile columns, plan. -/
abbrev Cand := Nat × Nat × Nat × Nat × List (List Ticket)

/-- Whether a candidate goes before another (R230). -/
def candBefore (a b : Cand) : Bool :=
  if a.1 ≠ b.1 then decide (a.1 < b.1)
  else if a.2.1 ≠ b.2.1 then decide (a.2.1 < b.2.1)
  else if a.2.2.1 ≠ b.2.2.1 then decide (b.2.2.1 < a.2.2.1)
  else decide (b.2.2.2.1 < a.2.2.2.1)

/-- The better of two candidates. -/
def candBest (a b : Option Cand) : Option Cand :=
  match a, b with
  | none, y => y
  | x, none => x
  | some x, some y => if candBefore y x then some y else some x

/-- The best plan at one tile shape. -/
def bestAt (s : State) (site : Site) (d : DRun) (mt nt : Nat) : Except Why (Option Cand) :=
  let ts := tilesOf d mt nt
  match mapE (fun e : Nat × Tile => tileChoices s site d e.1 e.2) ((numsFrom 0 ts.length).zip ts) with
  | .error w => .error w
  | .ok cs =>
    let ws := dedup (cs.flatMap fun c => c.map maxWeight)
    .ok ((sortBy (fun a b : Nat => decide (a < b)) ws).foldl (fun best w =>
      match planUnder cs w with
      | none => best
      | some p =>
        let m := makespan (dCsetCount d.raw) p
        candBest best (some (m.1, m.2, mt, nt, p))) none)

/-- Tile sizes open to the mapper (R229). -/
def mapSizes (free : Bool) (top step : Nat) : List Nat :=
  if free then (numsFrom 1 (top / step)).map (· * step) else [top]

/-- The firmware mapper's plan (R230). -/
def mapperPlan (s : State) (site : Site) (d : DRun) : Except Why (List (List Ticket)) :=
  let mts := mapSizes (mapRows d.op) 160 8
  let nts := mapSizes (mapCols d.op) (tileCols d) (if d.comp then 4 else 8)
  match mapE (fun mt => mapE (fun nt => bestAt s site d mt nt) nts) mts with
  | .error w => .error w
  | .ok l =>
    match l.flatten.foldl candBest none with
    | none => .ok []
    | some c => .ok c.2.2.2.2

/-! ## Hand-out order (R221) -/

/-- Blocks of whole tiles of at most 65,536 tickets, in position order. -/
def blocks : List (List Ticket) → List (List Ticket) → Nat → List (List (List Ticket))
  | [], cur, _ => if cur.isEmpty then [] else [cur]
  | t :: r, cur, n =>
    if cur.isEmpty = false ∧ 65536 < n + t.length then cur :: blocks r [t] t.length
    else blocks r (cur ++ [t]) (n + t.length)

/-- The tickets in hand-out order (R221): in each block, tiles by largest piece weight, equal tiles in position order. -/
def handOut (plan : List (List Ticket)) : List Ticket :=
  ((blocks plan [] 0).map fun b =>
    (sortBy (fun x y : List Ticket => decide (maxWeight y < maxWeight x)) b).flatten).flatten

/-! ## The working region (R222) -/

/-- Whether an opcode is cut into tickets. -/
def isCut (op : Nat) : Bool :=
  isProduct op || isRowScan op || op == 0x05 || op == 0x0B || op == 0x10 || op == 0x11 || op == 0x12 || op == 0x18 ||
  op == 0x19 || op == 0x1A || op == 0x1B

/-- Whether a descriptor accumulates (R172). -/
def accumulates (d : DRun) : Bool :=
  isProduct d.op || d.op == 0x09 || d.op == 0x0A || d.op == 0x0C || (d.op == 0x10 && dRedKind d.raw == 0)

/-- Whether CONVERT takes merge's sort use (R67): an exchange source with SORTED = 0, or a source with unsorted segments,
the only ones that can repeat a coordinate. -/
def usesSort (s : State) (site : Site) (d : DRun) : Bool :=
  d.op == 0x18 && (match ten d 0 with
    | some t => match t.xhdr, t.hdr with
      | some x, _ => !x.sorted
      | none, some h =>
        (match hpfEntries s site t h { sortedOnly := true, whole := true } 0 (fullRange h),
               hpfEntries s site t h { whole := true } 0 (fullRange h) with
         | .error _, .ok _ => true
         | _, _ => false)
      | none, none => false
    | none => false)

/-- Whether a descriptor's output is built in the phases of R121: a compressed or sparse output with data-dependent
places. -/
def isPhased (d : DRun) : Bool :=
  dCompress d.raw == 1 || dCompress d.raw == 2 ||
  (dCompress d.raw == 0 && isSparseDst (fmtOf d 2) && isCut d.op) || d.op == 0x0B

/-- The bytes of the working region that a plan needs (R222). -/
def regionNeed (d : DRun) (sort : Bool) (pmax : Nat) : Nat :=
  let wide := if d.comp then 160 else 320
  let leaf := if accumulates d then wide else 320
  let a := if d.op = 0x1B then 0 else 256
  let b := if isProduct d.op || d.op == 0x05 || d.op == 0x0B || sort then 512 else 0
  let w := if accumulates d then wide else 0
  let st := if dCompress d.raw = 1 ∨ dCompress d.raw = 2 ∨ isSparseDst (fmtOf d 2) then 320 else 0
  let lf := if 1 < pmax then leaf + pmax * leaf else 0
  1024 * (a + b + w + st + lf)

/-- Whether the mapper plans a descriptor (R171, R214, R215). -/
def usesMapper (s : State) (job : Nat) (raw : List Byte) : Bool :=
  match cfgTileMode s with
  | 0 => false
  | 1 => true
  | _ =>
    match dTileOvr raw with
    | 0 => (match jobSlot s job with | some j => j.choice == 2 | none => false)
    | 1 => false
    | _ => true

/-- An issued descriptor with its plan (R216 to R222): tickets in position order, and the hand-out order as their
places. Too many tickets, or a working region too small, is DESC_INVALID. -/
def withPlan (s : State) (job : Nat) (d : DRun) : Except Why DRun :=
  let site := issueSite d.members
  match (if usesMapper s job d.raw then mapperPlan s site d else walkerPlan s site d) with
  | .error w => .error w
  | .ok plan =>
    let all := plan.flatten
    let pmax := plan.foldl (fun a t => max a t.length) 0
    if 2 ^ 31 - 1 < all.length ∨ dWorkOff d.raw % 2048 ≠ 0 ∨ dWorkLen d.raw < regionNeed d (usesSort s site d) pmax then .error badDesc
    else
      let order := (handOut plan).map fun t => (all.findIdx? fun x => x == t).getD 0
      .ok { d with tickets := all, order := order, tiles := plan.length }

end Sys2Proof.Machine
end

