-- ==== Sys2Proof/Machine/Output.lean ====
section
/-! DEFINITION. The output path (04 R111 to R121, R495): scaling, narrowing, row statistics, selection, the writing of
dense elements, the building of sparse tensors (02 R44 to R56, R61) and of exchange tensors (R59, R60), and how written
bytes leave a cluster (08 R234, R235, 06 R178). -/

namespace Sys2Proof.Machine

/-! ## Steps 1 to 3 -/

/-- The addend C of ADD_C combined with a final value, C on the left (R190). -/
def addAddend (c v : Val) : Val :=
  match c, v with
  | .int a, .int b => .int (i64Add a b)
  | a, b =>
    let p := pairAdd (f32Of (valNum a), 0) (f32Of (valNum b), 0)
    .num (f32Num (f32Add p.1 p.2))

/-- v / 2^k in INT64, rounded to nearest even (R173). -/
def shiftRne (v : Int) (k : Nat) : Int :=
  let q : Int := (rneShift v.natAbs k : Nat)
  if v < 0 then -q else q

/-- Step 2 of R111 (R173). -/
def scaleOut (d : List Byte) (v : Val) : Val :=
  let sc : F32 := f32Mul (f32Of (valNum v)) (dOutScale d)
  match dOscale d with
  | 1 => .num (f32Num sc)
  | 2 => match v with
    | .int x => .int (shiftRne x (dOutShift d))
    | x => x
  | 3 =>
    let x := f32Num sc
    if numIsNan x then .num x else if numNeg x then .num numZero else .num x
  | _ => v

/-- A value narrowed to a type without shared scales, as a reader sees it (R35, R37). -/
def narrowVal (ety : Nat) (v : Val) : Val := elemVal ety (narrowBits ety v) 0

/-- A list of values cut in blocks of 32. -/
def blocks32 {α : Type} (l : List α) : Nat → List (List α)
  | 0 => []
  | k + 1 => if l.isEmpty then [] else l.take 32 :: blocks32 (l.drop 32) k

/-- One row of outputs from a first column on: a value with its poison for each written column, none for an unwritten
one (R112). -/
structure OutRow where
  outer : List Nat
  c0 : Nat
  vals : List (Option (Val × Bool))
deriving DecidableEq, Repr

/-- The columns of a row narrowed as step 3 narrows them (R36, R37, R39, R495): what statistics and selection read. -/
def narrowRow (ety : Nat) (r : OutRow) : List (Option (Val × Bool)) :=
  if etyIsMx ety then
    (blocks32 r.vals (r.vals.length + 1)).flatMap fun b =>
      (b.zip (mxVals ety (b.map fun o => o.map fun x => valNum x.1))).map fun e => e.1.map fun x => (e.2, x.2)
  else r.vals.map fun o => o.map fun x => (narrowVal ety x.1, x.2)

/-! ## Bytes on their way -/

/-- Some bits of a tensor: bit offset from the base, width, value, poison. -/
structure OutBits where
  off : Int
  w : Nat
  v : Nat
  bad : Bool
deriving DecidableEq, Repr

/-- A byte to write: offset from the base, the bits of it that are written, their value, poison. -/
structure OutByte where
  off : Int
  mask : Nat
  v : Nat
  bad : Bool
deriving DecidableEq, Repr

/-- The bytes that one field touches. -/
def fieldBytes (f : OutBits) : List OutByte :=
  let sh := (f.off % 8).toNat
  let n := (sh + f.w + 7) / 8
  let m := (2 ^ f.w - 1) * 2 ^ sh
  let v := f.v % 2 ^ f.w * 2 ^ sh
  (numsFrom 0 n).map fun i : Nat =>
    { off := f.off / 8 + (i : Int), mask := m / 256 ^ i % 256, v := v / 256 ^ i % 256, bad := f.bad }

/-- A byte merged into a list whose last byte may be the same one. -/
def mergeByte (acc : List OutByte) (b : OutByte) : List OutByte :=
  match acc with
  | [] => [b]
  | a :: r =>
    if a.off = b.off then
      { off := a.off, mask := Nat.lor a.mask b.mask, v := Nat.lor (Nat.land a.v (255 - b.mask)) b.v, bad := a.bad || b.bad } :: r
    else b :: a :: r

/-- The bytes of a list of fields in their order; neighbours in one byte merge. -/
def fieldsBytes (l : List OutBits) : List OutByte := ((l.flatMap fieldBytes).foldl mergeByte []).reverse

/-- A byte completed from what the tensor holds where only some of its bits are written (R238). -/
def fillByte (s : State) (site : Site) (tv : TView) (b : OutByte) : Byte × Bool :=
  if b.mask = 255 then (BitVec.ofNat 8 b.v, b.bad)
  else
    match tvRead s site tv b.off 1 with
    | .ok (o, m) => (BitVec.ofNat 8 (Nat.lor (Nat.land (leNat o) (255 - b.mask)) b.v), b.bad || m.isSome)
    | .error _ => (BitVec.ofNat 8 b.v, b.bad)

/-- Runs of bytes at consecutive addresses. -/
def byteRuns : List (Nat × (Byte × Bool)) → List (Nat × List (Byte × Bool))
  | [] => []
  | (a, b) :: r =>
    match byteRuns r with
    | [] => [(a, [b])]
    | (c, l) :: q => if c = a + 1 then (a, b :: l) :: q else (a, [b]) :: (c, l) :: q

/-- A run cut at 4 KiB boundaries of the virtual address (R235). -/
def cutRequests (va : Nat) (l : List (Byte × Bool)) : Nat → List (Nat × List (Byte × Bool))
  | 0 => []
  | k + 1 =>
    if l.isEmpty then []
    else
      let n := 4096 - va % 4096
      (va, l.take n) :: cutRequests (va + n) (l.drop n) k

/-- Write requests placed behind a cluster's walk (R234, R235). -/
def pushWrites (s : State) (l : Nat) (r : DescRef) (job : Nat) (runs : List (Nat × List (Byte × Bool))) : State :=
  let reqs := runs.flatMap fun e => (cutRequests e.1 e.2 (e.2.length + 1)).map fun c =>
    ({ tag := 0, write := true, job := job, va := c.1, len := c.2.length, pieces := [], bytes := c.2, ref := r } : StreamReq)
  modClu s (physOf s l) fun c => { c with walk := c.walk ++ reqs }

/-- Where an output goes: the engine's logical cluster and the home that holds scratchpad outputs (R178, R226). -/
structure OutSite where
  engine : Nat
  home : Nat
deriving DecidableEq, Repr

/-- Bytes of an output tensor written in their order: into the home's scratchpad, or as requests of the engine. -/
def emitBytes (s : State) (r : DescRef) (o : OutSite) (tv : TView) (l : List (Int × (Byte × Bool))) : State :=
  if tv.spd then
    (byteRuns (l.map fun e => (tvAddr tv e.1, e.2))).foldl (fun s e =>
      modClu s (physOf s o.home) fun c => cluWrite c e.1 e.2) s
  else pushWrites s o.engine r tv.job (byteRuns (l.map fun e => (tvAddr tv e.1, e.2)))

/-- Fields of an output tensor written in their order. -/
def emitBits (s : State) (r : DescRef) (o : OutSite) (tv : TView) (l : List OutBits) : State :=
  let site := memberSite s (if tv.spd then o.home else o.engine)
  emitBytes s r o tv ((fieldsBytes l).map fun b => (b.off, fillByte s site tv b))

/-- The fields of one dense row (R38, R39, R112): an MX block with a written position is written whole. -/
def rowBits (tv : TView) (row : OutRow) : List OutBits :=
  let w := etyBits tv.ety
  let at_ (c : Nat) : Int := denseOff tv.strides (c :: row.outer) * (w : Int)
  if etyIsMx tv.ety then
    let bs := blocks32 row.vals (row.vals.length + 1)
    ((numsFrom 0 bs.length).zip bs).flatMap fun e =>
      let c := row.c0 + 32 * e.1
      if e.2.all Option.isNone then []
      else
        let bad := e.2.any fun o => match o with | some x => x.2 | none => false
        let (sc, es) := mxBlock tv.ety (e.2.map fun o => o.map fun x => valNum x.1)
        ((numsFrom c es.length).zip es).map (fun x => { off := at_ x.1, w := w, v := x.2, bad := bad }) ++
          [{ off := 8 * (scaleOff tv.ety tv.sizes (c :: row.outer) : Nat), w := 8, v := sc, bad := bad }]
  else
    ((numsFrom row.c0 row.vals.length).zip row.vals).filterMap fun e =>
      e.2.map fun x => { off := at_ e.1, w := w, v := narrowBits tv.ety x.1, bad := x.2 }

/-- Rows of a dense output written (R111 step 6). -/
def emitRows (s : State) (r : DescRef) (o : OutSite) (tv : TView) (rows : List OutRow) : State :=
  emitBits s r o tv (rows.flatMap (rowBits tv))

/-- Whether a dense layout aliases (R181): run-time sizes and strides. -/
def aliases (sizes : List Nat) (strides : List Int) : Bool :=
  let ds := (sizes.zip strides).filter fun e => decide (1 < e.1)
  let sorted := sortBy (fun a b : Nat × Int => decide (a.2.natAbs < b.2.natAbs)) ds
  ds.any (fun e => e.2 == 0) ||
  (sorted.foldl (fun (a : Nat × Bool) e => (a.1 + e.2.natAbs * (e.1 - 1), a.2 || decide (e.2.natAbs ≤ a.1))) (0, false)).2

/-- Whether a dense output is held until the last tile (R181), as are MX blocks or shared bytes that tiles split. -/
def mustHold (tv : TView) (tk : List Ticket) : Bool :=
  let w := etyBits tv.ety
  aliases tv.sizes tv.strides ||
  (etyIsMx tv.ety && tk.any fun t => t.n0 % 32 != 0) ||
  (decide (w < 8) && ((tv.strides.zip tv.sizes).any (fun e => e.2 != 1 && e.1 != 1 && e.1 * (w : Int) % 8 != 0) ||
     tk.any fun t => t.n0 * w % 8 != 0 || t.m0 * w % 8 != 0))

/-! ## Step 4: row statistics -/

/-- Statistics of one row of a tile in drain order (R117), with its poison. -/
def rowStat (mode : Nat) (vals : List (Option (Val × Bool))) : (F32 × F32) × Bool :=
  vals.foldl (fun a o => match o with
    | none => a
    | some x => (statStep mode a.1 (f32Of (valNum x.1)), a.2 || x.2)) (statStart, false)

/-- Statistics vectors of rows m0 onwards written to T6 and T7 (R116, R189); an aliasing vector waits for the last tile
(R181). -/
def emitStats (s : State) (d : DRun) (o : OutSite) (m0 : Nat) (l : List ((F32 × F32) × Bool)) : State :=
  let put (s : State) (slot : Nat) (f : F32 × F32 → F32) : State := match ten d slot with
    | none => s
    | some tv =>
      let rows := (numsFrom m0 l.length).zip l
      if aliases tv.sizes tv.strides && d.tiles != 0 then
        modRun s d.ref fun x => { x with held := x.held ++ rows.map fun e =>
          { tile := 0, slot := slot, idx := [e.1], v := .num (f32Num (f e.2.1)), bad := e.2.2 } }
      else
        emitBits s d.ref o tv (rows.map fun e =>
          { off := 32 * denseOff tv.strides [e.1], w := 32, v := (f e.2.1).toNat, bad := e.2.2 })
  put (put s 6 (·.1)) 7 (·.2)

/-- A tile's statistics join its row range's tree over column tiles (R118, R228); the root writes the vectors. With
several batches the last one's stand. -/
def noteStats (s : State) (d : DRun) (b rho sigma m0 : Nat) (l : List ((F32 × F32) × Bool)) : State :=
  let leaf : StatLeaf := { b := b, rho := rho, sigma := sigma, rows := l.map (·.1), bad := l.map (·.2) }
  let mine := (sortBy (fun a b : StatLeaf => decide (a.sigma < b.sigma))
    ((((findRun s d.ref).getD d).stats ++ [leaf]).filter fun x => x.b == b && x.rho == rho))
  let need := (dedup ((d.tickets.filter fun t => t.b == b && t.rho == rho).map (·.sigma))).length
  if mine.length < need then modRun s d.ref fun x => { x with stats := x.stats ++ [leaf] }
  else
    let s := modRun s d.ref fun x => { x with stats := x.stats.filter fun y => !(y.b == b && y.rho == rho) }
    if b + 1 ≠ prodNat d.batch then s
    else
      let mode := dRowStat d.raw
      let root := (numsFrom 0 l.length).map fun i =>
        ((treeFold (statCombine mode) 64 (mine.map fun x => nth statStart x.rows i)).getD statStart,
         mine.any fun x => nth false x.bad i)
      let h := nth 0 d.members (rho % d.members.length)
      emitStats s d { engine := h, home := h } m0 root

/-! ## Step 5: selection (R119, R120) -/

/-- Whether one candidate ranks above another by magnitude (R120): NaN first, then larger, then the lower index. -/
def magBefore (a : Val × Nat) (b : Val × Nat) : Bool :=
  let x := valNum a.1
  let y := valNum b.1
  if numIsNan x || numIsNan y then (numIsNan x && !numIsNan y) || (numIsNan x && numIsNan y && decide (a.2 < b.2))
  else numLt (numAbs y) (numAbs x) || (!numLt (numAbs x) (numAbs y) && decide (a.2 < b.2))

/-- Whether threshold mode keeps a value (R119, R120). -/
def keepThreshold (tau : F32) (v : Val) : Bool :=
  valIsNan v || (!valIsZero v && !numLt (numAbs (valNum v)) (numAbs (f32Num tau)))

/-- The kept candidates of one row of a tile: column, narrowed value, step-2 value, poison. -/
def selectRow (raw : List Byte) (ety : Nat) (row : OutRow) : List (Nat × Val × Val × Bool) :=
  let all := ((numsFrom row.c0 row.vals.length).zip ((narrowRow ety row).zip row.vals)).filterMap fun e =>
    match e.2.1, e.2.2 with
    | some n, some f => some (e.1, n.1, f.1, f.2)
    | _, _ => none
  match dCompress raw with
  | 1 => all.filter fun e => keepThreshold (dThreshold raw) e.2.1
  | 2 => (sortBy (fun a b : Nat × Val × Val × Bool => magBefore (a.2.1, a.1) (b.2.1, b.1))
      (all.filter fun e => !valIsZero e.2.1)).take (dTopk raw)
  | _ => all

/-! ## Building HPF, NM and BITMAP tensors (R44 to R53, R61) -/

/-- An entry to store: its logical index, its value before narrowing (none for element bits 0), its poison. -/
structure HEntry where
  idx : List Nat
  v : Option Val
  bad : Bool
deriving DecidableEq, Repr

/-- A level to write: kind, dimension, size, product of the later sizes of its dimension. -/
structure WLevel where
  kind : Nat
  dim : Nat
  size : Nat
  inner : Nat
deriving DecidableEq, Repr

/-- Levels with their inner products. -/
def wLevels : List (Nat × Nat × Nat) → List WLevel
  | [] => []
  | (k, d, n) :: r =>
    { kind := k, dim := d, size := n, inner := prodNat (r.map fun e => if e.2.1 = d then e.2.2 else 1) } :: wLevels r

/-- Coordinate of an entry at a level (R42). -/
def lvlCoord (l : WLevel) (e : HEntry) : Nat := nth 0 e.idx l.dim / l.inner % l.size

/-- A tail slot or an empty slot of an N level. -/
inductive Slot where
  | real (coord : Nat) (es : List HEntry)
  | tail (coord : Nat)
deriving DecidableEq, Repr

/-- The N slots of one group (R53): the entries present, then the lowest free indices, ascending. -/
def nSlots (n m size g : Nat) (es : List (Nat × List HEntry)) : List Slot :=
  let mine := es.filter fun e => e.1 / m == g
  let used := mine.map fun e => e.1 % m
  let free := (numsFrom 0 m).filter fun i => !(used.contains i)
  let idx := sortBy (fun a b : Nat => decide (a < b)) ((used ++ free).take n)
  idx.map fun i =>
    match mine.find? fun e => e.1 % m == i with
    | some e => .real e.1 e.2
    | none => if g * m + i < size then .real (g * m + i) [] else .tail (g * m + i)

/-- Entries grouped by their coordinate at a level, ascending. -/
def byCoord (l : WLevel) (es : List HEntry) : List (Nat × List HEntry) :=
  let cs := sortBy (fun a b : Nat => decide (a < b)) (dedup (es.map (lvlCoord l)))
  cs.map fun c => (c, es.filter fun e => lvlCoord l e == c)

/-- Segments of a fiber's coordinates (R51). -/
def cutSegments (wide : Bool) : List (Nat × Bool) → List (List (Nat × Bool))
  | [] => []
  | x :: r =>
    let go := r.foldl (fun (a : List (List (Nat × Bool)) × List (Nat × Bool)) y =>
      let first := (a.2.head?.map (·.1)).getD 0
      if a.2.length ≥ 1024 ∨ (wide = false ∧ first + 0xFFFF < y.1) then (a.1 ++ [a.2], [y]) else (a.1, a.2 ++ [y])) ([], [x])
    go.1 ++ [go.2]

/-- Zero bytes. -/
def zeros (n : Nat) : List (Byte × Bool) := List.replicate n (0, false)

/-- Clean bytes. -/
def clean (l : List Byte) : List (Byte × Bool) := l.map fun b => (b, false)

/-- Bytes padded with zeros to whole granules. -/
def pad64 (l : List (Byte × Bool)) : List (Byte × Bool) := l ++ zeros (alignUp l.length 64 - l.length)

/-- One segment record (R47, R48); a segment with an entry of a poisoned tile carries POISON (R56). -/
def segRecord (wide lastIn : Bool) (prev : Nat) (l : List (Nat × Bool)) : List (Byte × Bool) :=
  let first := (l.head?.map (·.1)).getD 0
  let last := (l.getLast?.map (·.1)).getD 0
  let w := l.length + field 1 11 + field (flag (l.any (·.2))) 12 + field (flag lastIn) 13
  pad64 (clean (leBytes 4 first ++ leBytes 4 last ++ leBytes 2 w ++ leBytes 6 prev ++
    l.flatMap fun e => leBytes (if wide then 4 else 2) (e.1 - first)))

/-- The records of one fiber and the prefix after it. -/
def fiberRecords (wide : Bool) (prev : Nat) (l : List (Nat × Bool)) : List (Byte × Bool) × Nat :=
  let segs := cutSegments wide l
  let r := ((numsFrom 0 segs.length).zip segs).foldl (fun (a : List (Byte × Bool) × Nat) e =>
    (a.1 ++ segRecord wide (e.1 + 1 == segs.length) a.2 e.2, a.2 + e.2.length)) ([], prev)
  r

/-- What building one level gives: pointer bytes, segment bytes, coordinate bytes, and the positions below. -/
structure Built where
  ptr : List (Byte × Bool) := []
  seg : List (Byte × Bool) := []
  crd : List (Byte × Bool) := []
  pos : List Slot := []
deriving DecidableEq, Repr

/-- Entries of a slot. -/
def slotEntries : Slot → List HEntry
  | .real _ es => es
  | .tail _ => []

/-- A C level over its parent positions (R46 to R51); `g0` is the granule where its records start. -/
def buildC (wide : Bool) (l : WLevel) (g0 : Nat) (ps : List (List HEntry)) : Built :=
  let step (a : Built × Nat × Nat) (es : List HEntry) : Built × Nat × Nat :=
    let kids := byCoord l es
    let (rec, pre) := fiberRecords wide a.2.2 (kids.map fun k => (k.1, k.2.any (·.bad)))
    let g := a.2.1 + rec.length / 64
    ({ a.1 with ptr := a.1.ptr ++ clean (leBytes 8 g), seg := a.1.seg ++ rec,
                pos := a.1.pos ++ kids.map fun k => .real k.1 k.2 }, g, pre)
  let b := (ps.foldl step ({ ptr := clean (leBytes 8 g0) }, g0, 0)).1
  { b with ptr := pad64 b.ptr }

/-- A B level over its parent positions (R52, R56). -/
def buildB (l : WLevel) (ps : List (List HEntry)) : Built :=
  let per := ceilDiv l.size 512
  let step (a : List (Byte × Bool) × List (Byte × Bool) × List Slot) (es : List HEntry) :
      List (Byte × Bool) × List (Byte × Bool) × List Slot :=
    let kids := byCoord l es
    (numsFrom 0 per).foldl (fun a g =>
      let mine := kids.filter fun k => k.1 / 512 == g
      let bad := mine.any fun k => k.2.any (·.bad)
      let word := sumNat (mine.map fun k => 2 ^ (k.1 % 512))
      (a.1 ++ (leBytes 8 a.2.2.length).map (fun b => (b, bad)), a.2.1 ++ (leBytes 64 word).map (fun b => (b, bad)),
       a.2.2 ++ mine.map fun k => .real k.1 k.2)) a
  let r := ps.foldl step ([], [], [])
  { crd := pad64 r.1 ++ r.2.1, pos := r.2.2 }

/-- An N level over its parent positions (R53, R56). -/
def buildN (nm : Nat) (l : WLevel) (ps : List (List HEntry)) : Built :=
  let (n, m) := nmOf nm
  let w := if m = 4 then 2 else 3
  let per := ceilDiv l.size m
  ps.foldl (fun (a : Built) es =>
    let kids := byCoord l es
    let slots := (numsFrom 0 per).flatMap fun g => nSlots n m l.size g kids
    let crd (x : Slot) : Nat := match x with | .real c _ => c | .tail c => c
    let bitsOf := ((numsFrom 0 slots.length).zip slots).map fun e =>
      ({ off := (e.1 * w : Nat), w := w, v := crd e.2 % m, bad := (slotEntries e.2).any (·.bad) } : OutBits)
    { a with crd := a.crd ++ pad64 ((fieldsBytes bitsOf).map fun b => (BitVec.ofNat 8 b.v, b.bad)), pos := a.pos ++ slots }) {}

/-- A D level over its parent positions (R44). -/
def buildD (l : WLevel) (ps : List (List HEntry)) : Built :=
  { pos := ps.flatMap fun es => (numsFrom 0 l.size).map fun i => .real i (es.filter fun e => lvlCoord l e == i) }

/-- Every level in turn. -/
def buildLevels (wide : Bool) (nm : Nat) : List WLevel → Built → Built
  | [], b => b
  | l :: r, b =>
    let ps := b.pos.map slotEntries
    let x := match l.kind with
      | 0 => buildD l ps
      | 1 => buildC wide l (b.seg.length / 64) ps
      | 2 => buildB l ps
      | _ => buildN nm l ps
    buildLevels wide nm r { ptr := b.ptr ++ x.ptr, seg := b.seg ++ x.seg, crd := b.crd ++ x.crd, pos := x.pos }

/-- The value array of a list of positions (R45, R53, R495): blocks of 32 positions for an MX type. -/
def valueArray (ety : Nat) (l : List (Option Val × Bool)) : List (Byte × Bool) :=
  let w := etyBits ety
  let place (vs : List (Nat × Bool)) : List OutBits :=
    ((numsFrom 0 vs.length).zip vs).map fun e => { off := (e.1 * w : Nat), w := w, v := e.2.1, bad := e.2.2 }
  let bytes (bs : List OutBits) := pad64 ((fieldsBytes bs).map fun b => (BitVec.ofNat 8 b.v, b.bad))
  if etyIsMx ety then
    let bs : List (Nat × Bool × List (Nat × Bool)) := (blocks32 l (l.length + 1)).map fun b =>
      let (sc, es) := mxBlock ety (b.map fun x => x.1.map valNum)
      (sc, b.any fun x => x.2, es.zip (b.map fun x => x.2))
    bytes (place (bs.flatMap fun b => b.2.2)) ++ pad64 (bs.map fun b => (BitVec.ofNat 8 b.1, b.2.1))
  else bytes (place (l.map fun x => (match x.1 with | some v => narrowBits ety v | none => 0, x.2)))

/-- The value of a position: its one entry, or element bits 0. -/
def slotValue : Slot → Option Val × Bool
  | .real _ es => match es with
    | e :: _ => (e.v, e.bad)
    | [] => (none, false)
  | .tail _ => (none, false)

/-- Header bytes (R40). -/
def hpfHeaderBytes (h : HpfHeader) : List Byte :=
  let pack (l : List Nat) : Nat := sumNat (((numsFrom 0 l.length).zip l).map fun e => e.2 * 4 ^ e.1)
  leBytes 4 0x48504632 ++ leBytes 1 (field (flag h.wide) 4 + h.ety) ++ leBytes 1 h.kinds.length ++
  leBytes 1 (pack h.kinds) ++ leBytes 1 (pack h.dims) ++ leBytes 1 h.nm ++ leBytes 1 1 ++ leBytes 6 h.nnz ++
  ((numsFrom 0 4).flatMap fun i => leBytes 4 (nth 0 h.sizes i)) ++
  leBytes 8 h.ptrOff ++ leBytes 8 h.coordOff ++ leBytes 8 h.valOff ++ leBytes 8 h.segOff

/-- The whole image of a tensor (R61): header, pointer, segment, coordinate and value arrays, whole granules with zero
padding, from a template's fields, the level sizes and the entries. -/
def buildHpf (t : HpfHeader) (sizes : List Nat) (es : List HEntry) : List (Byte × Bool) :=
  let b := buildLevels t.wide t.nm (wLevels (t.kinds.zip (t.dims.zip sizes))) { pos := [.real 0 es] }
  let c := t.kinds.contains 1
  let n := t.kinds.contains 2 || t.kinds.contains 3
  let o1 := 64 + b.ptr.length
  let o2 := o1 + b.seg.length
  let o3 := o2 + b.crd.length
  let h := { t with nnz := b.pos.length, sizes := sizes, ptrOff := if c then 64 else 0, segOff := if c then o1 else 0,
                    coordOff := if n then o2 else 0, valOff := o3 }
  clean (hpfHeaderBytes h) ++ b.ptr ++ b.seg ++ b.crd ++ valueArray t.ety (b.pos.map slotValue)

/-! ## Exchange tensors (R59, R60) -/

/-- Exchange header bytes (R59). -/
def xHeaderBytes (h : ExchangeHeader) : List Byte :=
  leBytes 4 0x48504658 ++ leBytes 1 (field (flag h.sorted) 5 + field (flag h.wide) 4 + h.ety) ++ leBytes 1 h.format ++
  leBytes 1 h.blockLog2 ++ leBytes 1 0 ++ leBytes 8 h.count ++ leBytes 4 h.rows ++ leBytes 4 h.cols ++ leBytes 8 0 ++
  leBytes 8 h.arr0 ++ leBytes 8 h.arr1 ++ leBytes 8 h.arr2 ++ leBytes 8 0

/-- Pointers of fibers 0 to n: how many items lie in the fibers before. -/
def fiberPointers (n : Nat) (fibers : List Nat) : List Nat :=
  (numsFrom 0 (n + 1)).map fun r => (fibers.filter fun f => decide (f < r)).length

/-- The image of an exchange tensor with the given entries (log 18): arrays 0, 1 and 2 in order, each on a 64-byte
boundary, indices ascending. -/
def buildExchange (t : ExchangeHeader) (es : List HEntry) : List (Byte × Bool) :=
  let b := 2 ^ t.blockLog2
  let row (e : HEntry) := nth 0 e.idx 1
  let col (e : HEntry) := nth 0 e.idx 0
  let key (e : HEntry) : Nat := if t.format = 3 then col e * t.rows + row e else row e * t.cols + col e
  let l := sortBy (fun x y => decide (key x < key y)) es
  let w := if t.wide then 8 else 4
  let ints (x : List Nat) := pad64 (clean (x.flatMap (leBytes w)))
  let cells := dedup (sortBy (fun x y : Nat => decide (x < y)) (l.map fun e => row e / b * (t.cols / b) + col e / b))
  let (a0, a1, n, vals) :=
    match t.format with
    | 2 => (fiberPointers t.rows (l.map row), l.map col, l.length, l.map fun e => (e.v, e.bad))
    | 3 => (fiberPointers t.cols (l.map col), l.map row, l.length, l.map fun e => (e.v, e.bad))
    | 4 => (l.map row, l.map col, l.length, l.map fun e => (e.v, e.bad))
    | _ =>
      (fiberPointers (t.rows / b) (cells.map (· / (t.cols / b))), cells.map (· % (t.cols / b)), cells.length,
       cells.flatMap fun c => (numsFrom 0 (b * b)).map fun j =>
         match l.find? fun e => row e == c / (t.cols / b) * b + j / b && col e == c % (t.cols / b) * b + j % b with
         | some e => (e.v, e.bad)
         | none => (none, false))
  let x0 := ints a0
  let x1 := ints a1
  let h := { t with sorted := true, count := n, arr0 := 64, arr1 := 64 + x0.length, arr2 := 64 + x0.length + x1.length }
  clean (xHeaderBytes h) ++ x0 ++ x1 ++ valueArray t.ety vals

/-- A whole image written at a tensor's base by the home of output tile 0 (R181, R493). -/
def emitImage (s : State) (d : DRun) (tv : TView) (l : List (Byte × Bool)) : State :=
  let h := d.members.headD 0
  emitBytes s d.ref { engine := h, home := h } tv (((numsFrom 0 l.length).zip l).map fun e => ((e.1 : Int), e.2))

/-! ## Byte intervals of tensors (R182) -/

/-- The byte addresses of a tensor's elements, as (first, length) intervals: rows of a dense tensor with unit stride,
else single elements; the whole span of a tensor with a header. -/
def tensorBytes (tv : TView) (span : Nat) : List (Nat × Nat) :=
  let w := etyBits tv.ety
  match tv.hdr, tv.xhdr with
  | some h, _ => [(tvAddr tv 0, h.valOff + scaleBase h.ety h.nnz + ceilDiv h.nnz 32)]
  | none, some x =>
    let n := x.count * 4 ^ x.blockLog2
    [(tvAddr tv 0, x.arr2 + scaleBase x.ety n + ceilDiv n 32)]
  | none, none =>
    if tv.fmt ≠ 0 then [(tvAddr tv 0, span)]
    else
      let rows := walkIdx (tv.sizes.drop 1)
      let els : List (Int × Nat) := if tv.strides.headD 1 = 1 ∧ 0 < tv.sizes.headD 0 then
          rows.map fun o : List Nat => (denseOff tv.strides (0 :: o) * (w : Int), tv.sizes.headD 0 * w)
        else (walkIdx tv.sizes).map fun i => (denseOff tv.strides i * (w : Int), w)
      let elems := els.map fun (e : Int × Nat) => (tvAddr tv (e.1 / 8), ((e.1 % 8).toNat + e.2 + 7) / 8)
      if etyIsMx tv.ety then
        elems ++ [(tvAddr tv (scaleBase tv.ety (prodNat tv.sizes) : Nat),
                   prodNat (tv.sizes.drop 1) * ceilDiv (tv.sizes.headD 0) 32)]
      else elems

/-- Whether two lists of intervals share a byte. -/
def overlapAny (a b : List (Nat × Nat)) : Bool :=
  a.any fun x => b.any fun y => decide (x.1 < y.1 + y.2) && decide (y.1 < x.1 + x.2)

/-- Whether two tensors lie in the same space: the same job's memory, or the scratchpads. -/
def sameSpace (a b : TView) : Bool := a.spd == b.spd && (a.spd || a.job == b.job)

/-- The byte intervals of one element of a DENSE tensor: its packed bits and, for an MX type, its scale byte (R38, R39). -/
def elemBytes (tv : TView) (idx : List Nat) : List (Nat × Nat) :=
  let w := etyBits tv.ety
  let b := denseOff tv.strides idx * (w : Int)
  (tvAddr tv (b / 8), ((b % 8).toNat + w + 7) / 8) ::
    (if etyIsMx tv.ety then [(tvAddr tv (scaleOff tv.ety tv.sizes idx : Nat), 1)] else [])

/-- The byte intervals of a list of tensors that lie in the same space as one. -/
def spaceBytes (l : List TView) (tv : TView) : List (Nat × Nat) :=
  (l.filter (sameSpace tv)).flatMap fun x => tensorBytes x 64

end Sys2Proof.Machine
end

