-- ==== Sys2Proof/Machine/Issue.lean ====
section
/-! DEFINITION. Issue of descriptors (06 R168 to R204, 07 R210 to R217): the static checks, the tensors as issue fixes them,
the shapes and rules of every opcode, residency, overlaps, and the step from one descriptor of a chain to the next. -/

namespace Sys2Proof.Machine

/-! ## Fields of an opcode (R169 to R173, R189) -/

/-- The opcodes of R189. -/
def listedOps : List Nat :=
  [0x01, 0x02, 0x03, 0x04, 0x05, 0x08, 0x09, 0x0A, 0x0B, 0x0C, 0x10, 0x11, 0x12, 0x18, 0x19, 0x1A, 0x1B, 0x20, 0x21, 0x22,
   0x23, 0x30, 0x31, 0x3F]

/-- Variant bits that an opcode has. -/
def variantMask (op : Nat) : Nat :=
  match op with
  | 0x02 | 0x05 => 3
  | 0x01 | 0x04 | 0x08 | 0x09 | 0x0A | 0x0C | 0x11 | 0x22 | 0x31 | 0x3F => 1
  | _ => 0

/-- VARIANT[0] and VARIANT[1]. -/
def var0 (d : List Byte) : Bool := bit (dVariant d) 0
def var1 (d : List Byte) : Bool := bit (dVariant d) 1

/-- The accumulating opcodes (R172). -/
def accOp (op kind : Nat) : Bool :=
  isProduct op || op == 0x09 || op == 0x0A || op == 0x0C || (op == 0x10 && kind == 0)

/-- Whether a descriptor names a cluster set (R170). -/
def usesSet (d : List Byte) : Bool :=
  let op := dOp d
  !(op == 0x20 || op == 0x21 || op == 0x22 || op == 0x23 || op == 0x3F || (op == 0x31 && var0 d))

/-- Reserved bits of a work descriptor (R168). -/
def reservedOk (d : List Byte) : Bool :=
  leAt d 3 1 % 8 == 0 && bits (leAt d 5 1) 5 3 == 0 && leAt d 6 2 == 0 && bits (leAt d 8 2) 15 9 == 0 &&
  bits (leAt d 10 2) 15 10 == 0 && bits (leAt d 12 2) 15 12 == 0 && leAt d 38 2 == 0 && bits (leAt d 44 1) 7 6 == 0 &&
  leAt d 45 3 == 0 && bits (leAt d 64 4) 31 23 == 0 && bits (leAt d 68 4) 31 23 == 0 &&
  (d.drop 72).all (· == 0)

/-- The cluster set fields (R170). -/
def setOk (d : List Byte) : Bool :=
  if usesSet d then decide (1 ≤ dCsetCount d) && decide (dCsetFirst d + dCsetCount d ≤ 512)
  else dCsetFirst d == 0 && dCsetCount d == 0

/-- The flag and code fields of bytes 2 to 5 (R96, R98, R105, R113, R116, R119, R171 to R173). -/
def codesOk (s : State) (d : List Byte) : Bool :=
  let op := dOp d
  let acc := accOp op (dRedKind d)
  let ov := dTileOvr d
  (if cfgTileMode s = 2 ∧ isCut op then ov != 3 else ov == 0) &&
  (if acc then dComp d != 3 && (dSpill d == 0 || (decide (8 ≤ dSpill d) && decide (dSpill d ≤ 16))) && decide (dInitShift d ≤ 8)
   else dComp d == 0 && dSpill d == 0 && dInitShift d == 0) &&
  (if isProduct op then dRowStat d != 3 && (!(op == 2 && var1 d) || dRowStat d == 0)
   else if op = 0x12 then dRowStat d == 1 || dRowStat d == 2 else dRowStat d == 0) &&
  (if op = 1 ∨ op = 2 ∨ op = 4 then true else if op = 5 then dCompress d != 3 else dCompress d == 0) &&
  (if op = 0x10 then dRedKind d != 3 && decide (dReduceDim d ≤ 4) else dRedKind d == 0 && dReduceDim d == 0) &&
  (if acc || op == 5 then true else dOscale d == 0)

/-- Barrier, counter, threshold, k, scale and shift (R119, R120, R173, R223, R281). -/
def numbersOk (d : List Byte) : Bool :=
  let op := dOp d
  let tau := f32Num (dThreshold d)
  (if op = 0x20 then decide (dBarrier d < 3840) else dBarrier d == 0) &&
  (if op = 0x21 ∨ op = 0x22 then decide (dCounter d < 0xF000) else dCounter d == 0) &&
  (if dCompress d = 1 then !numIsNan tau && !(numNeg tau && !numIsZero tau) else dThreshold d == 0) &&
  (if dCompress d = 2 ∨ op = 0x11 then decide (1 ≤ dTopk d) && decide (dTopk d ≤ 256) else dTopk d == 0) &&
  (if dOscale d = 1 ∨ dOscale d = 3 then true else dOutScale d == 0) &&
  (if dOscale d = 2 then true else dOutShift d == 0) &&
  (if isCut op then true else dWorkOff d == 0 && dWorkLen d == 0)

/-- ROUTE's parameters (R189, R195). -/
def routeCf (d : List Byte) : Nat := bits (dParam0 d) 15 0
def routeFirst (d : List Byte) : Nat := bits (dParam0 d) 31 16
def routeCount (d : List Byte) : Nat := bits (dParam0 d) 47 32
def routeTotal (d : List Byte) : Nat := bits (dParam1 d) 15 0

/-- The parameters of an opcode (R189, R195, R200). -/
def paramsOk (d : List Byte) : Bool :=
  let p0 := dParam0 d
  let p1 := dParam1 d
  match dOp d with
  | 0x08 => (if var0 d then decide (p0 < 2 ^ 32) else p0 == 0) && p1 == 0
  | 0x0B => decide (p0 < 2 ^ 48) && decide (p1 < 2 ^ 16) && decide (1 ≤ routeCf d) && decide (1 ≤ routeCount d) &&
      decide (routeFirst d + routeCount d ≤ routeTotal d)
  | 0x1B => p1 == 0
  | 0x20 => decide (1 ≤ p0) && decide (p0 ≤ 65536) && p1 == 0
  | 0x21 | 0x22 => decide (p0 < 2 ^ 32) && p1 == 0
  | 0x23 => decide (p0 < 2 ^ 40) && decide (p1 < 2 ^ 48) && p1 % 4 == 0
  | 0x31 => (if var0 d then p0 == 0 else decide (p0 < 64)) && p1 == 0
  | _ => p0 == 0 && p1 == 0

/-- What a tensor slot is to its descriptor: absent, optional, an input, a template to read, or an output whose own
sizes and header are not read. -/
inductive Use where
  | absent
  | optional
  | input
  | template
  | output
deriving DecidableEq, Repr

/-- The slots of an opcode (R189, R192). `fmt2` is the format of the tensor in T2. -/
def slotUses (d : List Byte) (fmt2 : Nat) : List Use :=
  let st : Use := if dRowStat d = 0 then .absent else .output
  let y : Use := if dCompress d = 1 ∨ dCompress d = 2 ∨ dCompress d = 3 then .template else .output
  let c : Use := if var0 d then .input else .absent
  match dOp d with
  | 0x01 | 0x04 => [.input, .input, y, c, .optional, .optional, st, st]
  | 0x02 => [.input, .input, y, c, .optional, .optional, if var1 d then .input else st, if var1 d then .input else st]
  | 0x03 => [.input, .input, .output, .input, .optional, .optional, st, st]
  | 0x05 => [.input, .input, y, .absent, .absent, .absent, .absent, .absent]
  | 0x08 | 0x09 | 0x0A => [.input, .input, .output, .absent, .absent, .absent, .absent, .absent]
  | 0x0B => [.input, .input, .template, .template, .absent, .absent, .template, .output]
  | 0x0C => [.input, .input, .output, c, .absent, .absent, .absent, .absent]
  | 0x10 => [.input, .absent, .output, .absent, .absent, .absent, if dRedKind d = 0 then .absent else .output, .absent]
  | 0x11 => [.input, .absent, .output, .absent, .absent, .absent, .output, .absent]
  | 0x12 => [.input, .absent, .absent, .absent, .absent, .absent, .output, .output]
  | 0x18 => [.input, .absent, if fmt2 = 0 then .output else .template, .absent, .absent, .absent, .absent, .absent]
  | 0x19 | 0x1A | 0x30 => [.input, .absent, .output, .absent, .absent, .absent, .absent, .absent]
  | 0x1B => [.absent, .absent, if fmt2 = 0 then .output else .input, .absent, .absent, .absent, .absent, .absent]
  | _ => List.replicate 8 .absent

/-- The tensor index of a slot: none for an unused one, an error where the slot breaks R189. -/
def slotIndex (d : List Byte) (count i : Nat) (u : Use) : Except Why (Option Nat) :=
  let v := dSlot d i
  match u with
  | .absent => if v = 0xFFFF then .ok none else .error badDesc
  | .optional => if v = 0xFFFF then .ok none else if v < count then .ok (some v) else .error badDesc
  | _ => if v < count then .ok (some v) else .error badDesc

/-! ## Tensor descriptors (R174 to R177) -/

def tdEty (b : List Byte) : Nat := bits (leAt b 6 1) 7 4
def tdFmt (b : List Byte) : Nat := bits (leAt b 6 1) 2 0
def tdRank (b : List Byte) : Nat := bits (leAt b 7 1) 7 5
def tdSpd (b : List Byte) : Bool := bit (leAt b 7 1) 4
def tdResident (b : List Byte) : Bool := bit (leAt b 7 1) 3
def tdIndirect (b : List Byte) : Bool := bit (leAt b 7 1) 2
def tdLoopShape (b : List Byte) : Bool := bit (leAt b 7 1) 1
def tdSize (b : List Byte) (i : Nat) : Nat := leAt b (16 + 4 * i) 4
def tdStride (b : List Byte) (i : Nat) : Int := toSigned 40 (leAt b (36 + 5 * i) 5)
def tdLoopStride (b : List Byte) : Int := toSigned 24 (leAt b 61 3)

/-- Base after the loop advance (R200). -/
def tdBase (b : List Byte) (t : Nat) : Nat :=
  let adv : Int := (t : Int) * tdLoopStride b * 64
  if tdSpd b then (((bits (leAt b 0 6) 22 0 : Nat) + adv) % (spadSize : Int)).toNat
  else (((leAt b 0 6 : Nat) + adv) % ((2 ^ 48 : Nat) : Int)).toNat

/-- The static rules of a tensor descriptor (R24, R174, R175, R177). -/
def tdOk (b : List Byte) : Bool :=
  let raw := leAt b 0 6
  let f := tdFmt b
  !bit (leAt b 6 1) 3 && !bit (leAt b 7 1) 0 && leAt b 14 2 == 0 && tdEty b != 15 &&
  decide (1 ≤ tdRank b) && decide (tdRank b ≤ 5) &&
  ((numsFrom 0 5).drop (tdRank b)).all (fun i => tdSize b i == 0) &&
  (!tdSpd b || (!bit raw 23 && bits raw 47 30 == 0)) && (!tdResident b || tdSpd b) &&
  (tdIndirect b || leAt b 8 6 == 0) && leAt b 8 6 % 32 == 0 && (!tdIndirect b || !isSparseFmt f)

/-- Base alignment (R40, R59, R175). -/
def baseOk (b : List Byte) (base : Nat) : Bool :=
  if tdFmt b = 0 then base % max 1 (etyBits (tdEty b) / 8) == 0 else base % 64 == 0

/-- Run-time sizes of a DENSE tensor (R176, R177): an issue read of its shape record where it has one. -/
def tdSizes (s : State) (job t : Nat) (b : List Byte) : Except Why (List Nat) :=
  let own := (numsFrom 0 (tdRank b)).map (tdSize b)
  if tdIndirect b && tdFmt b == 0 then
    let a := leAt b 8 6 + (if tdLoopShape b then 32 * t else 0)
    match vRead s 4 job (a % 2 ^ 48) 20 with
    | .error w => .error w
    | .ok l =>
      if l.any (·.2) then .error (reasonPoison, resPage a)
      else .ok ((numsFrom 0 (tdRank b)).map fun i =>
        let v := leAt (l.map (·.1)) (4 * i) 4
        if v = 0xFFFFFFFF then nth 0 own i else v)
  else .ok own

/-- The 64 bytes at a tensor's base as the dispatcher reads them (R43, R493). -/
def readHead (s : State) (site : Site) (tv : TView) : Except Why (List Byte) :=
  match tvRead s site tv 0 64 with
  | .error w => .error w
  | .ok (l, none) => .ok l
  | .ok (_, some r) => .error (reasonPoison, r)

/-- Whether an exchange template at a CONVERT destination gives what its arrays need (log 18). -/
def xTemplateOk (b : List Byte) (fmt : Nat) : Bool :=
  let h := parseX b
  leAt b 0 4 == 0x48504658 && h.format == fmt && h.ety != 15 &&
  (if fmt = 5 then decide (2 ≤ h.blockLog2) && decide (h.blockLog2 ≤ 5) else h.blockLog2 == 0)

/-- Whether a dense MX tensor is packed (R39). -/
def packedOk (tv : TView) : Bool :=
  let want := tv.sizes.foldl (fun (a : List Int × Nat) n => (a.1 ++ [(a.2 : Int)], a.2 * n)) ([], 1)
  !(tv.fmt == 0 && etyIsMx tv.ety) || tv.strides == want.1

/-- A tensor as issue fixes it (R174 to R178). -/
def tensorView (s : State) (site : Site) (job t : Nat) (use : Use) (b : List Byte) : Except Why TView :=
  let base := tdBase b t
  if tdOk b = false ∨ baseOk b base = false then .error badDesc
  else
    match tdSizes s job t b with
    | .error w => .error w
    | .ok sizes =>
      let tv : TView := { fmt := tdFmt b, ety := tdEty b, rank := tdRank b, spd := tdSpd b, resident := tdResident b,
                          buf := bits (leAt b 0 6) 29 24, base := base, sizes := sizes,
                          strides := (numsFrom 0 (tdRank b)).map (tdStride b), job := job, hdr := none, xhdr := none }
      if tv.fmt = 0 ∨ use = .output then (if use = .output ∨ packedOk tv then .ok tv else .error badDesc)
      else
        match readHead s site tv with
        | .error w => .error w
        | .ok h =>
          match isSparseFmt tv.fmt, decide (use = .template) with
          | true, true =>
            if templateOk h tv.fmt tv.rank && (parseHpf h).ety == tv.ety then .ok { tv with hdr := some (parseHpf h) } else .error badDesc
          | true, false =>
            if hpfOk h tv.fmt tv.rank then .ok { tv with hdr := some (parseHpf h), sizes := logicalSizes (parseHpf h) }
            else .error badDesc
          | false, true =>
            if xTemplateOk h tv.fmt && tv.rank == 2 && (parseX h).ety == tv.ety then .ok { tv with xhdr := some (parseX h) }
            else .error badDesc
          | false, false =>
            if xOk h tv.fmt && tv.rank == 2 then
              .ok { tv with xhdr := some (parseX h), sizes := [(parseX h).cols, (parseX h).rows] }
            else .error badDesc

/-! ## Rules of the opcodes -/

/-- The view in a slot, required. -/
def theTen (d : DRun) (i : Nat) : Except Why TView := match ten d i with | some t => .ok t | none => .error badDesc

/-- A run with a slot's view changed. -/
def setTen (d : DRun) (i : Nat) (f : TView → TView) : DRun := { d with tens := modAt d.tens i fun o => o.map f }

/-- Whether a slot holds no view or one that passes a test. -/
def slotIs (d : DRun) (i : Nat) (p : TView → Bool) : Bool := match ten d i with | some t => p t | none => true

/-- A dense FP32 vector (R189, R192). -/
def isVector (t : TView) : Bool := t.fmt == 0 && t.ety == 13 && t.rank == 1

/-- A predicate mask (R184). -/
def isMask (t : TView) : Bool :=
  t.rank == 1 && ((t.fmt == 0 && (t.ety == 0 || t.ety == 1)) || (t.fmt == 7 && etyOf t != 13 && etyOf t != 14))

/-- An element type that may enter a product or a weighted sum (R26). -/
def operandEty (e : Nat) : Bool := e != 13 && e != 14

/-- Whether a header's levels are D for dimension 1, then C for dimension 0 (R121). -/
def isDC (t : TView) : Bool :=
  match t.hdr with
  | some h => h.kinds == [0, 1] && h.dims == [1, 0]
  | none => false

/-- Batch sizes of the two operands of a product (R183): equal, or 1 in one of them. -/
def batchSizes : List Nat → List Nat → Option (List Nat)
  | [], l => some l
  | l, [] => some l
  | a :: r, b :: q =>
    if a = b ∨ a = 1 ∨ b = 1 then (batchSizes r q).map fun l => (if a = 1 then b else a) :: l else none

/-- The format pairs of a product opcode (R67). -/
def productFormats (op a b : Nat) : Bool :=
  let h (f : Nat) := f == 1 || f == 7
  match op with
  | 1 => (a == 0 && b == 0) || (a == 6 && b == 0) || (a == 0 && b == 6)
  | 2 => (a == 6 && b == 0) || (a == 0 && b == 6) || (h a && b == 0) || (a == 0 && h b)
  | 3 => a == 0 && b == 0
  | _ => isSparseFmt a && isSparseFmt b

/-- Whether a sparse operand's last level other than D indexes k (R68). -/
def indexesK (t : TView) (kd : Nat) : Bool := match t.hdr with | some h => fiberDim h == some kd | none => true

/-- Whether a product's or SPADD's output format suits its compressor mode (R119, R191, R193). -/
def outFormatOk (d : DRun) (y : TView) : Bool :=
  match dCompress d.raw with
  | 0 => y.fmt == 0 || (d.op == 3 && y.fmt == fmtOf d 3)
  | 3 => y.fmt == 6 && y.rank == 2 && (match y.hdr with
      | some h => h.nm == 0 && h.kinds == [0, 3] && h.dims == [1, 0]
      | none => false)
  | _ => y.fmt == 1 && isDC y

/-- Compensation (R96). -/
def compOn (d : DRun) (ety : Nat → Bool) (isInt : Bool) : Bool :=
  !isInt && (match dComp d.raw with
    | 0 => ety 11 || ety 12
    | 1 => false
    | _ => true)

/-- The rules that an accumulating opcode's class brings (R105, R173). -/
def accClassOk (d : DRun) (isInt : Bool) : Bool :=
  (isInt || dInitShift d.raw == 0) && (dOscale d.raw != 2 || isInt)

/-- Product opcodes (R25, R26, R67, R68, R183, R184, R189 to R192). -/
def shapeProduct (d : DRun) : Except Why DRun :=
  match ten d 0, ten d 1, ten d 2 with
  | some a, some b, some y =>
    let ea := etyOf a
    let eb := etyOf b
    let isInt := etyIsInt ea
    match batchSizes (a.sizes.drop 2) (b.sizes.drop 2) with
    | none => .error badDesc
    | some batch =>
      let nb := prodNat batch
      let m := nth 0 a.sizes 1
      let n := nth 0 b.sizes 0
      let ok :=
        decide (2 ≤ a.rank) && decide (2 ≤ b.rank) && operandEty ea && operandEty eb && etyIsInt ea == etyIsInt eb &&
        productFormats d.op a.fmt b.fmt && (a.fmt == 0 || a.rank == 2) && (b.fmt == 0 || b.rank == 2) &&
        indexesK a 0 && indexesK b 1 && nth 0 a.sizes 0 == nth 0 b.sizes 1 && decide (2 ≤ y.rank) &&
        outFormatOk d y && (y.fmt == 0 || nb == 1) && accClassOk d isInt &&
        slotIs d 4 isMask && slotIs d 5 isMask &&
        (d.op == 3 || slotIs d 3 fun c => c.fmt == 0 && decide (2 ≤ c.rank) && etyIsInt (etyOf c) == isInt) &&
        (d.op != 3 || slotIs d 3 fun x => (x.fmt == 1 || x.fmt == 7) && x.rank == 2 && operandEty (etyOf x)) &&
        (if d.op = 2 ∧ var1 d.raw then
           (a.fmt == 1 || a.fmt == 7) && slotIs d 6 (fun t => isVector t && decide (m ≤ nth 0 t.sizes 0)) &&
           slotIs d 7 (fun t => isVector t && decide (m ≤ nth 0 t.sizes 0))
         else slotIs d 6 isVector && slotIs d 7 isVector)
      let d := { d with m := m, n := n, k := nth 0 a.sizes 0, batch := batch, isInt := isInt,
                        comp := compOn d (fun e => ea == e || eb == e) isInt,
                        emptyShape := m == 0 || n == 0 || nth 0 a.sizes 0 == 0 || nb == 0 }
      let d := setTen d 2 fun t => { t with sizes := ([n, m] ++ batch).take (max 2 t.rank) ++ List.replicate (t.rank - (2 + batch.length)) 1 }
      let d := if d.op = 2 ∧ var1 d.raw then d else setTen (setTen d 6 fun t => { t with sizes := [m] }) 7 fun t => { t with sizes := [m] }
      if ok && slotIs d 2 packedOk && (y.fmt != 0 || decide (batch.length + 2 ≤ y.rank) || nb == 1) then .ok d else .error badDesc
  | _, _, _ => .error badDesc

/-- SPADD (R67, R193). -/
def shapeSpadd (d : DRun) : Except Why DRun :=
  match ten d 0, ten d 1, ten d 2 with
  | some a, some b, some y =>
    let ea := etyOf a
    let eb := etyOf b
    let m := nth 0 a.sizes 1
    let n := nth 0 a.sizes 0
    let d := setTen { d with m := m, n := n, isInt := etyIsInt ea, emptyShape := m == 0 || n == 0 } 2 fun t => { t with sizes := [n, m] }
    if a.rank == 2 && b.rank == 2 && a.sizes == b.sizes && (a.fmt == 0 || isSparseFmt a.fmt) && (b.fmt == 0 || isSparseFmt b.fmt) &&
       operandEty ea && operandEty eb && etyIsInt ea == etyIsInt eb && y.rank == 2 && outFormatOk d y && slotIs d 2 packedOk &&
       (dOscale d.raw != 2 || etyIsInt ea) then .ok d
    else .error badDesc
  | _, _, _ => .error badDesc

/-- Parent positions of an index fiber's last level (R194). -/
def parentCount (s : State) (site : Site) (t : TView) : Except Why Nat :=
  match t.hdr with
  | none => .ok 0
  | some h => match levelsOf s site t h with
    | .error w => .error w
    | .ok ls => .ok ((ls.getLast?.map (·.parents)).getD 0)

/-- Row-scan opcodes (R26, R67, R82, R194). -/
def shapeRowScan (s : State) (site : Site) (d : DRun) : Except Why DRun :=
  match ten d 0, ten d 1, ten d 2 with
  | some x, some tb, some y =>
    let weighted := d.op == 0x0C || ((d.op == 0x09 || d.op == 0x0A) && var0 d.raw)
    let ex := etyOf x
    let et := etyOf tb
    let isInt := etyIsInt et
    let kinds := match x.hdr with | some h => h.kinds | none => []
    let rankOk := match d.op with
      | 0x08 => if var0 d.raw then x.rank == 2 else x.rank == 1 || x.rank == 2
      | 0x09 => x.rank == 1
      | _ => x.rank == 2 && kinds.head? == some 0
    let n := nth 0 tb.sizes 0
    match parentCount s site x with
    | .error w => .error w
    | .ok p =>
      let m := match d.op with
        | 0x08 => if var0 d.raw then p * dParam0 d.raw else (x.hdr.map (·.nnz)).getD 0
        | 0x09 => nth 0 x.sizes 0
        | _ => nth 0 x.sizes (bagDim x)
      let acc := d.op != 0x08
      let empty := m == 0 || n == 0 || prodNat x.sizes == 0
      let d := { d with m := m, n := n, isInt := isInt, emptyShape := empty,
                        comp := acc && compOn d (fun e => et == e || (weighted && ex == e)) isInt }
      let d := setTen d 2 fun t => { t with sizes := [n, m] }
      if x.fmt == 1 && kinds.getLast? == some 1 && rankOk && operandEty ex && tb.fmt == 0 && tb.rank == 2 && y.fmt == 0 && y.rank == 2 &&
         (operandEty et || !weighted) && (!weighted || etyIsInt ex == isInt) && (!acc || accClassOk d isInt) && slotIs d 2 packedOk &&
         (d.op != 0x09 || etyIsInt y.ety == isInt) &&
         slotIs d 3 (fun t => t.fmt == 0 && t.rank == 2 && etyIsInt t.ety == isInt) then .ok d
      else .error badDesc
  | _, _, _ => .error badDesc

/-- ROUTE (R195). -/
def shapeRoute (d : DRun) : Except Why DRun :=
  match ten d 0, ten d 1, ten d 7 with
  | some x, some g, some r =>
    let t := nth 0 x.sizes 1
    let ok := x.fmt == 0 && x.rank == 2 && x.ety == 14 && g.fmt == 0 && g.rank == 2 && g.sizes == x.sizes && !etyIsInt g.ety &&
      slotIs d 2 isDC && slotIs d 3 isDC && slotIs d 6 isDC && r.fmt == 0 &&
      slotIs d 2 (fun v => v.fmt == 1) && slotIs d 3 (fun v => v.fmt == 1) && slotIs d 6 (fun v => v.fmt == 1)
    if ok then .ok { d with m := t, n := nth 0 x.sizes 0, emptyShape := prodNat x.sizes == 0 } else .error badDesc
  | _, _, _ => .error badDesc

/-- REDUCE (R113, R189, R197). -/
def shapeReduce (d : DRun) : Except Why DRun :=
  match ten d 0, ten d 2 with
  | some x, some y =>
    let isInt := etyIsInt (etyOf x)
    let z := reduceSizes d
    let d := { d with m := prodNat (z.drop 1), n := z.headD 1, isInt := isInt, emptyShape := prodNat x.sizes == 0,
                      comp := dRedKind d.raw == 0 && compOn d (fun e => etyOf x == e) isInt }
    let d := setTen (setTen d 2 fun t => { t with sizes := z }) 6 fun t => { t with sizes := z }
    if dReduceDim d.raw < x.rank ∧ (x.fmt == 0 || isSparseFmt x.fmt) = true ∧ y.fmt = 0 ∧ y.rank = z.length ∧
       slotIs d 2 packedOk = true ∧ slotIs d 6 (fun t => t.fmt == 0 && t.ety == 14 && t.rank == z.length) = true ∧
       (dRedKind d.raw != 0 || accClassOk d isInt) = true then .ok d
    else .error badDesc
  | _, _ => .error badDesc

/-- TOPK and ROW_STATS (R189, R197). -/
def shapeRows (d : DRun) : Except Why DRun :=
  match ten d 0 with
  | some x =>
    let m := nth 0 x.sizes 1
    let n := nth 0 x.sizes 0
    let d := { d with m := m, n := n, isInt := etyIsInt (etyOf x), emptyShape := m == 0 || n == 0 }
    let k := dTopk d.raw
    let top := d.op == 0x11
    let d := if top then setTen (setTen d 2 fun t => { t with sizes := [k, m] }) 6 fun t => { t with sizes := [k, m] }
             else setTen (setTen d 6 fun t => { t with sizes := [m] }) 7 fun t => { t with sizes := [m] }
    if x.rank == 2 && (x.fmt == 0 || isSparseFmt x.fmt) &&
       (if top then slotIs d 2 (fun t => t.fmt == 0 && t.rank == 2) && slotIs d 2 packedOk &&
          slotIs d 6 (fun t => t.fmt == 0 && t.rank == 2 && t.ety == 14)
        else slotIs d 6 isVector && slotIs d 7 isVector) then .ok d
    else .error badDesc
  | none => .error badDesc

/-- Level sizes of a CONVERT destination (R61, R203): a dimension of one level takes the source's logical size; one
composed of several takes its inner sizes from the source's block size or the template's own SIZE fields (log 18). -/
def destSizes (h : HpfHeader) (blk : Option Nat) (sizes : List Nat) : List Nat :=
  let n := h.kinds.length
  (numsFrom 0 n).map fun l =>
    let dim := nth 0 h.dims l
    let inner := prodNat (((numsFrom (l + 1) (n - l - 1)).filter fun i => nth 0 h.dims i == dim).map fun i => blk.getD (nth 1 h.sizes i))
    let outer := ((numsFrom 0 l).filter fun i => nth 0 h.dims i == dim).isEmpty
    if outer then (if inner = 0 then 0 else ceilDiv (nth 0 sizes dim) inner) else blk.getD (nth 1 h.sizes l)

/-- CONVERT (R58, R61, R62). -/
def shapeConvert (d : DRun) : Except Why DRun :=
  match ten d 0, ten d 2 with
  | some x, some y =>
    let d := { d with isInt := etyIsInt (etyOf x), emptyShape := prodNat x.sizes == 0 }
    let blk := x.xhdr.bind fun h => if h.format = 5 then some (2 ^ h.blockLog2) else none
    let d := setTen d 2 fun t =>
      { t with sizes := x.sizes,
               hdr := t.hdr.map fun h => { h with sizes := destSizes h blk x.sizes },
               xhdr := t.xhdr.map fun h => { h with cols := nth 0 x.sizes 0, rows := nth 0 x.sizes 1 } }
    let fits : Bool := match ten d 2 with
      | some t => (match t.hdr, t.xhdr with
        | some h, _ => logicalSizes h == x.sizes
        | none, some h => h.format != 5 || (h.rows % 2 ^ h.blockLog2 == 0 && h.cols % 2 ^ h.blockLog2 == 0)
        | none, none => true)
      | none => false
    if x.rank = y.rank ∧ fits = true ∧ slotIs d 2 packedOk = true then .ok d else .error badDesc
  | _, _ => .error badDesc

/-- TRANSPOSE_COPY (R146, R198). -/
def shapeTranspose (d : DRun) : Except Why DRun :=
  match ten d 0, ten d 2 with
  | some x, some y =>
    let swap := match x.sizes with | a :: b :: r => b :: a :: r | l => l
    if x.fmt = 0 ∧ y.fmt = 0 ∧ 2 ≤ x.rank ∧ y.sizes = swap ∧ etyIsMx x.ety = false ∧ etyIsMx y.ety = false then
      .ok { d with emptyShape := prodNat x.sizes == 0 }
    else .error badDesc
  | _, _ => .error badDesc

/-- COPY and PRELOAD (R58, R198, R201). -/
def shapeCopy (d : DRun) : Except Why DRun :=
  match ten d 0, ten d 2 with
  | some x, some y =>
    let d := setTen { d with emptyShape := prodNat x.sizes == 0 } 2 fun t => { t with sizes := x.sizes }
    let ok := x.fmt == y.fmt && x.rank == y.rank && (x.fmt == 0 || (isSparseFmt x.fmt && etyOf x == y.ety)) &&
      (x.fmt != 0 || slotIs d 2 packedOk) && (d.op != 0x30 || (y.spd && y.resident))
    if ok then .ok d else .error badDesc
  | _, _ => .error badDesc

/-- FILL (R198). -/
def shapeFill (d : DRun) : Except Why DRun :=
  match ten d 2 with
  | some y =>
    if (y.fmt == 0 || isSparseFmt y.fmt) && packedOk y then .ok { d with emptyShape := prodNat y.sizes == 0 } else .error badDesc
  | none => .error badDesc

/-- The rules of the opcode. -/
def shapeOf (s : State) (site : Site) (d : DRun) : Except Why DRun :=
  match d.op with
  | 1 | 2 | 3 | 4 => shapeProduct d
  | 5 => shapeSpadd d
  | 0x08 | 0x09 | 0x0A | 0x0C => shapeRowScan s site d
  | 0x0B => shapeRoute d
  | 0x10 => shapeReduce d
  | 0x11 | 0x12 => shapeRows d
  | 0x18 => shapeConvert d
  | 0x19 => shapeTranspose d
  | 0x1A | 0x30 => shapeCopy d
  | 0x1B => shapeFill d
  | _ => .ok d

/-! ## The checks of an issue in order -/

/-- The members of a set (R211). -/
def membersOf (s : State) (d : List Byte) : List Nat :=
  (numsFrom (dCsetFirst d) (dCsetCount d)).filter fun l => !(getLmap s l).absent

/-- The residency check (R202). -/
def residencyOk (s : State) (job : Nat) (d : DRun) : Except Why Unit :=
  let bufs := ((numsFrom 0 8).zip d.tens).filterMap fun e => match e.2 with
    | some t => if t.resident && !(d.op == 0x30 && e.1 == 2) then some t.buf else none
    | none => none
  match d.members.find? fun l => bufs.any fun b => !(s.disp.residency.contains (l, job, b)) with
  | some l => .error (reasonClusterLost, resCluster l)
  | none => .ok ()

/-- The tensors of a descriptor. -/
def viewsOf (s : State) (site : Site) (u : WorkUnit) (t : Nat) (raw : List Byte) : Except Why (List (Option TView)) :=
  let job := hJob u.header
  let count := hTensorCount u.header
  let fmt2 := tdFmt (nth [] u.tensors (dSlot raw 2))
  mapE (fun e : Nat × Use =>
    match slotIndex raw count e.1 e.2 with
    | .error w => .error w
    | .ok none => .ok none
    | .ok (some i) =>
      let use := match e.2 with | .optional => Use.input | x => x
      match tensorView s site job t use (nth [] u.tensors i) with
      | .error w => .error w
      | .ok tv =>
        if 2 ≤ tv.fmt ∧ tv.fmt ≤ 5 ∧ dOp raw ≠ 0x18 then .error badDesc else .ok (some tv)) ((numsFrom 0 8).zip (slotUses raw fmt2))

/-- The static checks of a descriptor (R168 to R173, R189). -/
def staticOk (s : State) (raw : List Byte) : Bool :=
  listedOps.contains (dOp raw) && reservedOk raw && setOk raw && codesOk s raw && numbersOk raw && paramsOk raw &&
  dVariant raw % (variantMask (dOp raw) + 1) == dVariant raw

/-- A descriptor as its issue fixes it, or why its unit is discarded (R169 to R204). -/
def issueRun (s : State) (u : WorkUnit) (r : DescRef) (raw : List Byte) : Except Why DRun :=
  if (jobSlot s (hJob u.header)).isNone then .error (reasonPageAbsent, resJob (hJob u.header))
  else if staticOk s raw = false then .error badDesc
  else
    let members := membersOf s raw
    if usesSet raw && members.isEmpty then .error (reasonClusterLost, resCluster (dCsetFirst raw))
    else
      let site := issueSite members
      match viewsOf s site u r.ticket raw with
      | .error w => .error w
      | .ok tens =>
        let d : DRun := { ref := r, op := dOp raw, raw := raw, tens := tens, members := members, wins := s.peers.windows,
                          shift := 0 }
        match shapeOf s site d with
        | .error w => .error w
        | .ok d =>
          match residencyOk s (hJob u.header) d with
          | .error w => .error w
          | .ok () => if isCut d.op then withPlan s (hJob u.header) d else .ok d

/-! ## Overlaps and missing fences (R182, R186) -/

/-- The slots a descriptor writes (R189). -/
def outSlots (d : DRun) : List Nat :=
  match d.op with
  | 0x0B => [2, 3, 6, 7]
  | 0x02 => if var1 d.raw then [2] else [2, 6, 7]
  | 0x01 | 0x03 | 0x04 | 0x10 | 0x11 => [2, 6, 7]
  | 0x12 => [6, 7]
  | _ => [2]

/-- Views of the slots a descriptor writes, or reads. -/
def outViews (d : DRun) : List TView := (outSlots d).filterMap (ten d)
def inViews (d : DRun) : List TView :=
  ((numsFrom 0 8).filter fun i => !((outSlots d).contains i) || d.op == 0x09 && i == 2).filterMap (ten d)

/-- Whether two tensors share an element's byte; an output with a template counts its header until it is built. -/
def viewsMeet (a b : TView) : Bool := sameSpace a b && overlapAny (tensorBytes a 64) (tensorBytes b 64)

/-- Whether some tensors of two lists meet. -/
def listsMeet (a b : List TView) : Bool := a.any fun x => b.any fun y => viewsMeet x y

/-- The in-place transpose of R152. -/
def inPlace (d : DRun) : Bool :=
  d.op == 0x19 && (match ten d 0, ten d 2 with
    | some a, some b => a.spd && b.spd && a.base == b.base && a.sizes == b.sizes && a.strides == b.strides && a.ety == b.ety
    | _, _ => false)

/-- Whether an output overlaps an own input (R182); SCATTER_ADD reads its destination by its own rule (R194). -/
def selfOverlap (d : DRun) : Bool :=
  !inPlace d && listsMeet (outViews d) (((numsFrom 0 8).filter fun i => !((outSlots d).contains i)).filterMap (ten d))

/-- Whether two descriptors of a layer, the earlier not complete, need a fence that is missing (R186). -/
def needsFence (a b : DRun) : Bool :=
  !a.complete && (listsMeet (outViews a) (inViews b ++ outViews b) || listsMeet (inViews a) (outViews b))

/-- The tensors of an overlap or a missing fence are kept with the descriptors it concerns (R182, R186). -/
def markOverlaps (s : State) (wu : Nat) (d : DRun) : State :=
  let clash (s : State) (r : DescRef) (o i : List TView) : State :=
    modRun s r fun x => { x with clashOut := x.clashOut ++ o, clashIn := x.clashIn ++ i }
  let own := ((numsFrom 0 8).filter fun i => !((outSlots d).contains i)).filterMap (ten d)
  let s := if selfOverlap d then clash s d.ref own (outViews d) else s
  match findUnit s wu with
  | none => s
  | some u =>
    (u.runs.filter fun a => a.ref != d.ref && needsFence a d).foldl (fun s a =>
      clash (clash s a.ref (inViews d ++ outViews d) (outViews d)) d.ref (inViews a ++ outViews a) (outViews a)) s

/-! ## What issue itself does -/

/-- One row of a dense tensor from a column on, with the first poison met. -/
def denseRow (s : State) (site : Site) (tv : TView) (outer : List Nat) (c0 n : Nat) :
    Except Why (List (Option (Val × Bool)) × Mark) :=
  match mapE (fun c => denseElem s site tv (c :: outer)) (numsFrom c0 n) with
  | .error w => .error w
  | .ok l => .ok (l.map fun x => some (x.v, x.mark.isSome), firstMark (l.map (·.mark)))

/-- Every row of a dense tensor. -/
def denseRows (s : State) (site : Site) (tv : TView) : Except Why (List OutRow × Mark) :=
  match mapE (fun o => match denseRow s site tv o 0 (tv.sizes.headD 0) with
      | .error w => .error w
      | .ok x => .ok ({ outer := o, c0 := 0, vals := x.1 : OutRow }, x.2)) (walkIdx (tv.sizes.drop 1)) with
  | .error w => .error w
  | .ok l => .ok (l.map (·.1), firstMark (l.map (·.2)))

/-- The arrays of a sparse tensor as (offset, bytes) from its base (R45 to R47, R52, R53): pointer, segment and
coordinate arrays in whole granules, and the value array with its scales last. -/
def arrayRanges (s : State) (site : Site) (tv : TView) (h : HpfHeader) : Except Why (List (Nat × Nat)) :=
  match levelsOf s site tv h with
  | .error w => .error w
  | .ok ls =>
    let size (k : Nat → Bool) := sumNat ((ls.filter fun l => k l.kind).map (subBytes h))
    match mapE (fun l : Level => tvNat s site tv (l.sub + 8 * l.parents) 6) (ls.filter fun l => l.kind == 1) with
    | .error w => .error w
    | .ok ends =>
      let g := ends.foldl (fun a e => max a e.1) 0
      let vb := if etyIsMx h.ety then scaleBase h.ety h.nnz + ceilDiv h.nnz 32 else ceilDiv (h.nnz * etyBits h.ety) 8
      .ok ([(h.ptrOff, size (· == 1)), (h.segOff, 64 * g), (h.coordOff, size fun k => k == 2 || k == 3), (h.valOff, vb)])

/-- Read requests of a run that lands at a scratchpad address (R235): whole granules, the run's bytes delivered. -/
def readRequests (job va dst n : Nat) (r : DescRef) : List StreamReq :=
  (cutRequests va (zeros n) (n + 1)).map fun c =>
    let a := c.1 / 64 * 64
    let z := alignUp (c.1 + c.2.length) 64
    { tag := 0, write := false, job := job, va := a, len := z - a,
      pieces := [(8 * c.1, 8 * spadAddr (dst + (c.1 - va)), 8 * c.2.length)], bytes := [], ref := r }

/-- A cause met by a read of an issue (R407). -/
def issueCause (s : State) (r : DescRef) (w : Why) : State := addCauseK s r.wu w.1 w.2 [0, r.idx, r.ticket]

/-- The copy of a PRELOAD into one member (R201): dense elements converted at once; a sparse image by stream requests from
memory, or from the member's own scratchpad at once. -/
def preloadInto (s : State) (d : DRun) (x y : TView) (l : Nat) : State :=
  let site := memberSite s l
  if x.fmt = 0 then
    match denseRows s site x with
    | .error w => issueCause s d.ref w
    | .ok (rows, m) =>
      let s := emitRows s d.ref { engine := l, home := l } y rows
      match m with
      | none => s
      | some res => issueCause s d.ref (reasonPoison, res)
  else
    match x.hdr with
    | none => s
    | some h =>
      match arrayRanges s site x h with
      | .error w => issueCause s d.ref w
      | .ok rs =>
        ((0, 64) :: rs).foldl (fun s e =>
          if x.spd then
            match tvRead s site x (e.1 : Int) e.2 with
            | .error w => issueCause s d.ref w
            | .ok (b, m) =>
              let s := modClu s (physOf s l) fun c => cluWrite c (tvAddr y (e.1 : Int)) (b.map fun v => (v, m.isSome))
              (match m with
               | none => s
               | some res => issueCause s d.ref (reasonPoison, res))
          else
            let reqs := readRequests x.job (tvAddr x (e.1 : Int)) (tvAddr y (e.1 : Int)) e.2 d.ref
            modClu s (physOf s l) fun c => { c with walk := c.walk ++ reqs }) s

/-- The fused statistics of a product with N = 0 and M above 0 (R124), written by the home of each row range. -/
def emptyStats (s : State) (d : DRun) : State :=
  if isProduct d.op && dRowStat d.raw != 0 && d.n == 0 then
    (ranges d.m 160).foldl (fun s r =>
      let h := nth 0 d.members (r.1 % d.members.length)
      emitStats s d { engine := h, home := h } r.2.1 (List.replicate (r.2.2 - r.2.1) (statStart, false))) s
  else s

/-- A WAIT as it issues (R199, R276 to R279): satisfied at once, or held by the counter's home. -/
def issueWait (s : State) (d : DRun) : State :=
  let n := dCounter d.raw
  let w : Wait := { ctr := n, req := 549, target := bits (dParam0 d.raw) 31 0, equal := var0 d.raw,
                    epoch := some (getCtr s n).epoch, ref := some d.ref }
  if waitHolds w (getCtr s n).value then s
  else modReins (modRun s d.ref fun x => { x with waiting := true }) fun r => { r with waits := r.waits ++ [w] }

/-- The operation of a SIGNAL or BARRIER once every earlier descriptor has completed (R199, R278, R282): a refusal
discards the unit. -/
def actSync (s : State) (d : DRun) : State :=
  let s := modRun s d.ref fun x => { x with phase := 1 }
  if d.op = 0x21 then
    match fetchAdd s (dCounter d.raw) (bits (dParam0 d.raw) 31 0) (some d.pairEpoch) with
    | (s, some _) => s
    | (s, none) => addCause s d.ref.wu reasonOwnerAbort (resCounter (dCounter d.raw))
  else
    let s := modRun s d.ref fun x => { x with waiting := true }
    match arriveBarrier s (dBarrier d.raw) (dParam0 d.raw) { req := 549, ref := some d.ref } with
    | (s, true) => s
    | (s, false) => issueCause (modRun s d.ref fun x => { x with waiting := false }) d.ref badDesc

/-- Whether every descriptor issued before one has completed. -/
def earlierDone (u : WorkUnit) (r : DescRef) : Bool := (u.runs.takeWhile fun d => d.ref != r).all (·.complete)

/-- What the issue of a descriptor does besides taking its place. -/
def issueEffect (s : State) (wu : Nat) (d : DRun) : State :=
  match d.op with
  | 0x20 | 0x21 =>
    (match findUnit s wu with
     | some u => if earlierDone u d.ref then actSync s d else s
     | none => s)
  | 0x22 => issueWait s d
  | 0x30 =>
    (match ten d 0, ten d 2 with
     | some x, some y => if d.emptyShape then s else d.members.foldl (fun s l => preloadInto s d x y l) s
     | _, _ => s)
  | _ => emptyStats s d

/-- TICKET_LOOP's ticket count (R200), an issue read where LIMIT_ADDR is given. -/
def loopLimit (s : State) (job : Nat) (raw : List Byte) : Except Why Nat :=
  let n : Except Why Nat :=
    if dParam1 raw = 0 then .ok (dLimit raw)
    else
      match vRead s 4 job (dParam1 raw) 4 with
      | .error w => .error w
      | .ok l => if l.any (·.2) then .error (reasonPoison, resPage (dParam1 raw)) else .ok (leNat (l.map (·.1)))
  match n with
  | .error w => .error w
  | .ok n => if 65536 < n then .error badDesc else .ok n

/-- The unit's place after an issue (R200): the next descriptor, the loop's next ticket, or past the loop. -/
def advanceUnit (u : WorkUnit) (raw : List Byte) (limit : Nat) : WorkUnit :=
  if dOp raw = 0x23 then
    if limit = 0 then { u with next := u.next + 1 + dBodyLen raw }
    else { u with next := u.next + 1, loop := some { at_ := u.next, len := dBodyLen raw, count := limit, ticket := 0 } }
  else
    match u.loop with
    | none => { u with next := u.next + 1 }
    | some l =>
      if u.next = l.at_ + l.len then
        if l.ticket + 1 < l.count then { u with next := l.at_ + 1, loop := some { l with ticket := l.ticket + 1 } }
        else { u with next := u.next + 1, loop := none }
      else { u with next := u.next + 1 }

/-- Descriptors of a unit's present layer that have issued: those behind the last LAYER_END. -/
def layerRuns (u : WorkUnit) : List DRun :=
  ((u.runs.reverse).takeWhile fun d => d.op != 0x3F).reverse

/-- Whether the next descriptor stands at the start of its layer behind nothing but BARRIER and WAIT (R199, R210). -/
def leading (u : WorkUnit) : Bool := (layerRuns u).all fun d => d.op == 0x20 || d.op == 0x22

/-- Whether a unit's next descriptor accesses a window while the group is being reconfigured (R364). -/
def windowFrozen (s : State) (d : DRun) : Bool :=
  (s.disp.disables.head?.any fun x => decide (x.kind = .group)) &&
  (outViews d ++ inViews d).any fun t => !t.spd && s.peers.windows.any fun e => e.2.kind != 0 && e.2.job == t.job &&
    overlapAny (tensorBytes t 64) [(winBase e.2, winBytes e.2)]

/-- The raw bytes of a unit's next descriptor. -/
def nextRaw (u : WorkUnit) : List Byte := nth [] u.descs u.next

/-- The reference that a unit's next descriptor takes. -/
def nextRef (u : WorkUnit) : DescRef := { wu := u.wuId, idx := u.next, ticket := (u.loop.map (·.ticket)).getD 0 }

/-- Whether a unit's next descriptor may issue now as the named opcode (R185 to R188, R199, R210). -/
def mayIssue (s : State) (u : WorkUnit) (op : Nat) : Bool :=
  let raw := nextRaw u
  isReady s && !s.disp.restarting && !u.queued && healthy u && !u.decided && decide (u.next < u.descs.length) &&
  (dOp raw == op || !(listedOps.contains (dOp raw))) &&
  !(u.runs.any fun d => d.op == 0x3F && !d.complete) &&
  (u.started || (leading u && (op == 0x20 || op == 0x22))) &&
  (!(dFence raw) || u.runs.all (·.complete))

/-- An issued descriptor takes its place, with the event and trace record of its issue (R16, R165, R470). -/
def placeRun (s : State) (u : WorkUnit) (d : DRun) (limit : Nat) : State :=
  let firstIssue := u.mtIssue.isNone
  let s := modUnit s u.wuId fun u =>
    let u := advanceUnit u d.raw limit
    { u with runs := u.runs ++ [d], mtIssue := some (u.mtIssue.getD (now s)),
             fwVersion := if firstIssue then s.ctl.fwVersion else u.fwVersion }
  let s := if firstIssue && hEventStart u.header then
      postFrom s 549 { code := 0x0010, wuId := some u.wuId, epoch := u.epoch }
    else s
  trace s 0 none u.wuId u.epoch d.ref.idx d.ref.ticket []

/-- Issue of a unit's next descriptor as the named opcode (R169, R185, R204): its checks and issue reads, then its
place in the chain and what its issue does; a breach discards the unit. -/
def issueNext (s : State) (wu op : Nat) : State :=
  match findUnit s wu with
  | none => s
  | some u =>
    if mayIssue s u op = false then s
    else
      let raw := nextRaw u
      let r := nextRef u
      match issueRun s u r raw with
      | .error w => issueCause s r w
      | .ok d =>
        if windowFrozen s d then s
        else
          match (if d.op = 0x23 then loopLimit s (hJob u.header) raw else .ok 0) with
          | .error w => issueCause s r w
          | .ok limit =>
            let d := { d with pairEpoch := if d.op = 0x21 then (getCtr s (dCounter raw)).epoch else 0 }
            let s := placeRun s u d limit
            issueEffect (markOverlaps s wu d) wu d

/-! ## The issue commands -/

/-- Issue of DENSE_MM (R66 to R81, R183). -/
def execDenseMm (t wu : Nat) (s : State) : Host.Outcome State Fault Refusal := .next (issueNext (atMt s t) wu 0x01)

/-- Issue of SPMM (R67, R183, R192). -/
def execSpmm (t wu : Nat) (s : State) : Host.Outcome State Fault Refusal := .next (issueNext (atMt s t) wu 0x02)

/-- Issue of SDDMM (R183, R191). -/
def execSddmm (t wu : Nat) (s : State) : Host.Outcome State Fault Refusal := .next (issueNext (atMt s t) wu 0x03)

/-- Issue of SPGEMM (R67, R183). -/
def execSpgemm (t wu : Nat) (s : State) : Host.Outcome State Fault Refusal := .next (issueNext (atMt s t) wu 0x04)

/-- Issue of SPADD (R83, R84, R193). -/
def execSpadd (t wu : Nat) (s : State) : Host.Outcome State Fault Refusal := .next (issueNext (atMt s t) wu 0x05)

/-- Issue of GATHER (R82, R194). -/
def execGather (t wu : Nat) (s : State) : Host.Outcome State Fault Refusal := .next (issueNext (atMt s t) wu 0x08)

/-- Issue of SCATTER_ADD (R82, R194). -/
def execScatterAdd (t wu : Nat) (s : State) : Host.Outcome State Fault Refusal := .next (issueNext (atMt s t) wu 0x09)

/-- Issue of EMBED_BAG (R82, R194). -/
def execEmbedBag (t wu : Nat) (s : State) : Host.Outcome State Fault Refusal := .next (issueNext (atMt s t) wu 0x0A)

/-- Issue of ROUTE (R85, R195, R196). -/
def execRoute (t wu : Nat) (s : State) : Host.Outcome State Fault Refusal := .next (issueNext (atMt s t) wu 0x0B)

/-- Issue of COMBINE (R82, R194). -/
def execCombine (t wu : Nat) (s : State) : Host.Outcome State Fault Refusal := .next (issueNext (atMt s t) wu 0x0C)

/-- Issue of REDUCE (R113, R197). -/
def execReduce (t wu : Nat) (s : State) : Host.Outcome State Fault Refusal := .next (issueNext (atMt s t) wu 0x10)

/-- Issue of TOPK (R120, R197). -/
def execTopk (t wu : Nat) (s : State) : Host.Outcome State Fault Refusal := .next (issueNext (atMt s t) wu 0x11)

/-- Issue of ROW_STATS (R116, R197). -/
def execRowStats (t wu : Nat) (s : State) : Host.Outcome State Fault Refusal := .next (issueNext (atMt s t) wu 0x12)

/-- Issue of CONVERT (R61 to R65). -/
def execConvert (t wu : Nat) (s : State) : Host.Outcome State Fault Refusal := .next (issueNext (atMt s t) wu 0x18)

/-- Issue of TRANSPOSE_COPY (R146, R152, R198). -/
def execTransposeCopy (t wu : Nat) (s : State) : Host.Outcome State Fault Refusal := .next (issueNext (atMt s t) wu 0x19)

/-- Issue of COPY (R198). -/
def execCopy (t wu : Nat) (s : State) : Host.Outcome State Fault Refusal := .next (issueNext (atMt s t) wu 0x1A)

/-- Issue of FILL (R198). -/
def execFill (t wu : Nat) (s : State) : Host.Outcome State Fault Refusal := .next (issueNext (atMt s t) wu 0x1B)

/-- Issue of BARRIER (R199, R281, R282). -/
def execBarrier (t wu : Nat) (s : State) : Host.Outcome State Fault Refusal := .next (issueNext (atMt s t) wu 0x20)

/-- Issue of SIGNAL (R199, R278). -/
def execSignal (t wu : Nat) (s : State) : Host.Outcome State Fault Refusal := .next (issueNext (atMt s t) wu 0x21)

/-- Issue of WAIT (R199, R276 to R279). -/
def execWait (t wu : Nat) (s : State) : Host.Outcome State Fault Refusal := .next (issueNext (atMt s t) wu 0x22)

/-- Issue of TICKET_LOOP (R200). -/
def execTicketLoop (t wu : Nat) (s : State) : Host.Outcome State Fault Refusal := .next (issueNext (atMt s t) wu 0x23)

/-- Issue of PRELOAD (R201). -/
def execPreload (t wu : Nat) (s : State) : Host.Outcome State Fault Refusal := .next (issueNext (atMt s t) wu 0x30)

/-- Issue of RELEASE_BUF (R201). -/
def execReleaseBuf (t wu : Nat) (s : State) : Host.Outcome State Fault Refusal := .next (issueNext (atMt s t) wu 0x31)

/-- Issue of LAYER_END (R187). -/
def execLayerEnd (t wu : Nat) (s : State) : Host.Outcome State Fault Refusal := .next (issueNext (atMt s t) wu 0x3F)

end Sys2Proof.Machine
end

