-- ==== Sys2Proof/Machine/Dispatcher.lean ====
section
/-! DEFINITION. The dispatcher (06 R163 to R167, R185 to R188, R205, R206; 07 R207 to R213, R223, R224, R226, R231): chains,
layers, work counters, completion of descriptors and units, discards, and identifiers (13 R405, R407, R416, R417). -/

namespace Sys2Proof.Machine

/-! ## Chains -/

/-- A marker that a consumer inside the module reads is forwarded to the event queue unchanged (R297). -/
def forwardMarker (s : State) (it : Item) : State :=
  if pdkFits s 4 10 1 then setQueue s 4 10 (pdkItems s 4 10 ++ [{ it with marker := false }]) else pdkDrop s 4 10 none

/-- The bodies that TICKET_LOOP may run (R200): none of TICKET_LOOP, LAYER_END, BARRIER, WAIT, and an end before the
chain's last descriptor. -/
def loopsOk (ds : List (List Byte)) : Bool :=
  ((numsFrom 0 ds.length).zip ds).all fun e =>
    dOp e.2 != 0x23 ||
    (decide (1 ≤ dBodyLen e.2) && decide (dBodyLen e.2 ≤ 64) && decide (e.1 + dBodyLen e.2 + 1 < ds.length) &&
     ((ds.drop (e.1 + 1)).take (dBodyLen e.2)).all fun b => !([0x23, 0x3F, 0x20, 0x22].contains (dOp b)))

/-- The structure checks of R167 on a header. -/
def headerOk (h : List Byte) : Bool :=
  decide (1 ≤ hDescCount h) && decide (hDescCount h ≤ 4096) && decide (hTensorCount h ≤ 4096) &&
  bits (leAt h 5 1) 7 2 == 0 && leAt h 30 2 == 0 && (hIndirect h || hBody h == 0) && (!hIndirect h || hBody h % 64 == 0)

/-- A body cut in records of n bytes. -/
def records (n : Nat) : Nat → List Byte → List (List Byte)
  | 0, _ => []
  | k + 1, l => l.take n :: records n k (l.drop n)

/-- The body of a chain (R164): behind the header in its item, or read once from the job's space. -/
def chainBody (s : State) (h : List Byte) (payload : List Byte) : Except Why (List Byte) :=
  if hIndirect h then
    match vRead s 4 (hJob h) (hBody h) (128 * hDescCount h + 64 * hTensorCount h) with
    | .error w => .error w
    | .ok l =>
      match ((numsFrom (hBody h) l.length).zip l).find? fun e => e.2.2 with
      | some e => .error (reasonPoison, resPage e.1)
      | none => .ok (l.map (·.1))
  else .ok (payload.drop 32)

/-- A chain taken into the candidate table (R164, R167): its body is read and its structure checked; a bad item or a
broken rule discards the unit. -/
def admitChain (s : State) (it : Item) (bad : Bool) : State :=
  match findUnit s it.wuId with
  | none => s
  | some u =>
    if !u.queued || u.epoch != it.epoch then s
    else
      let s := modUnit s u.wuId fun u => { u with queued := false }
      let h := u.header
      if bad || it.poison then addCauseK s u.wuId reasonPoison resNone [0]
      else if headerOk h = false then addCause s u.wuId badDesc.1 badDesc.2
      else
        match chainBody s h it.payload with
        | .error w => addCauseK s u.wuId w.1 w.2 [0]
        | .ok b =>
          let ds := records 128 (hDescCount h) b
          let ts := records 64 (hTensorCount h) (b.drop (128 * hDescCount h))
          if (ds.getLast?.map dOp) == some 0x3F && loopsOk ds then
            modUnit s u.wuId fun u => { u with descs := ds, tensors := ts }
          else addCause s u.wuId badDesc.1 badDesc.2

/-- Units in the candidate table (R207). -/
def candidates (s : State) : List WorkUnit := s.disp.units.filter fun u => !u.queued

/-- The dispatcher reads the head of a submission queue while its table has room (R207, R297, R299). -/
def readChain (s : State) (cls : Nat) (bad : Bool) : State :=
  match pdkItems s 4 cls with
  | [] => s
  | it :: rest =>
    if it.kind = 1 then forwardMarker (setQueue s 4 cls rest) it
    else if (candidates s).length ≥ 4096 then s
    else admitChain (setQueue s 4 cls rest) it bad

/-- CHAIN_CHOOSE (R164, R167, R207). -/
def execChainChoose (t cls : Nat) (s : State) : Host.Outcome State Fault Refusal :=
  let s := atMt s t
  if isReady s && !s.disp.restarting && decide (cls < 8) then .next (readChain s cls false) else .next s

/-! ## Layers -/

/-- Whether one candidate goes before another (R166, R207): CLASS, DEADLINE with 0 last, arrival number. -/
def before (a b : WorkUnit) : Bool :=
  let dl (u : WorkUnit) := if hDeadline u.header = 0 then 2 ^ 64 else hDeadline u.header
  if hClass a.header ≠ hClass b.header then decide (hClass a.header < hClass b.header)
  else if dl a ≠ dl b then decide (dl a < dl b)
  else decide (a.arrival < b.arrival)

/-- Descriptors of the layer that a unit comes to next, up to its LAYER_END. -/
def layerDescs (u : WorkUnit) : List (List Byte) :=
  let r := u.descs.drop u.next
  r.take (((r.findIdx? fun d => dOp d == 0x3F).getD r.length) + 1)

/-- The footprint of a unit's next layer (R208): ascending, without repeats. -/
def footprint (s : State) (u : WorkUnit) : List Nat :=
  let ls := (layerDescs u).flatMap (membersOf s)
  (List.range 512).filter fun l => ls.contains l

/-- Whether a unit's layer waits to start, its leading BARRIERs and WAITs behind it (R210). -/
def atLayer (u : WorkUnit) : Bool :=
  !u.queued && !u.started && healthy u && !u.decided && !u.descs.isEmpty && decide (u.next < u.descs.length) &&
  u.runs.all (·.complete) && !(dOp (nextRaw u) == 0x20 || dOp (nextRaw u) == 0x22)

/-- Whether a unit has started some layer before. -/
def startedBefore (u : WorkUnit) : Bool := u.mtIssue.isSome && decide (u.touched ≠ [] ∨ u.next ≠ 0)

/-- Whether the notice queues keep first layers from starting (R291). -/
def noticesFull (s : State) : Bool :=
  decide (24576 < itemCells (pdkItems s 4 8)) || decide (12288 < itemCells (pdkItems s 4 9))

/-- Whether every group of a footprint runs at the target step (R392). -/
def stepReady (s : State) (f : List Nat) : Bool :=
  f.all fun l => (getGroup s (groupOf (physOf s l))).step == s.pwr.target

/-- Whether a function being disabled is one that a unit's next layer would use (R425): its job, a window it has written, or a
cluster of its footprint. -/
def disableBlocks (s : State) (u : WorkUnit) (f : List Nat) : Bool :=
  match (s.disp.disables.head?.map fun x => x.kind : Option DisableKind) with
  | some (.job _ id) => hJob u.header == id
  | some (.window w _ _) => u.windows.contains w
  | some .group => !u.windows.isEmpty
  | some (.retire l) => f.contains l
  | none => false

/-- Whether a unit's next layer may start (R208 to R211, R369, R392, R411, R425). -/
def mayStart (s : State) (u : WorkUnit) : Bool :=
  let f := footprint s u
  let meets (l : List Nat) := f.any fun x => l.contains x
  isReady s && !s.disp.restarting && atLayer u && !(noticesFull s && !startedBefore u) &&
  !meets (heldClusters s) && stepReady s f && !disableBlocks s u f &&
  f.all (fun l => served s l && !(s.ctl.dieSupLost.contains (dieOfPhys (physOf s l)))) &&
  !(s.disp.units.any fun v => v.wuId != u.wuId && atLayer v && before v u && meets (footprint s v))

/-- LAYER_START (R208 to R213): the footprint is held, its clusters are woken. -/
def execLayerStart (t wu : Nat) (s : State) : Host.Outcome State Fault Refusal :=
  let s := atMt s t
  match findUnit s wu with
  | none => .next s
  | some u =>
    if mayStart s u then
      let f := footprint s u
      let s := modUnit s wu fun u => { u with started := true, holds := f, touched := dedup (u.touched ++ f) }
      .next (f.foldl (fun s l => requestWake s (physOf s l)) s)
    else .next s

/-! ## Work counters and notices -/

/-- The counters of a pair (R277). -/
def takeCtr (pair : Nat) : Nat := 0xF000 + 2 * pair
def doneCtr (pair : Nat) : Nat := 0xF001 + 2 * pair

/-- A counter allocated: its epoch advances and its value is 0 (R223, R277). -/
def allocCtr (s : State) (n : Nat) : State := setCtrValue (advanceEpoch s n) n 0

/-- The next free pair in rotation (R277). -/
def freePair (s : State) : Option Nat :=
  ((numsFrom 1 2048).map fun i => (s.reins.lastPair + i) % 2048).find? fun p => !(s.reins.pairsUsed.contains p)

/-- A run of a unit that may go on. -/
def liveRun (s : State) (r : DescRef) : Option (WorkUnit × DRun) :=
  match findUnit s r.wu, findRun s r with
  | some u, some d => if healthy u && !u.decided && !d.complete then some (u, d) else none
  | _, _ => none

/-- WORK_COUNTER_ALLOC (R223, R277). -/
def execWorkCounterAlloc (t : Nat) (r : DescRef) (s : State) : Host.Outcome State Fault Refusal :=
  let s := atMt s t
  match liveRun s r, freePair s with
  | some (_, d), some p =>
    if d.tickets.isEmpty || d.pair.isSome || s.disp.restarting then .next s
    else
      let s := allocCtr (allocCtr s (takeCtr p)) (doneCtr p)
      let s := modReins s fun x => { x with lastPair := p, pairsUsed := x.pairsUsed ++ [p] }
      .next (modRun s r fun d => { d with pair := some p, pairEpoch := (getCtr s (takeCtr p)).epoch })
  | _, _ => .next s

/-- The inbox of a physical cluster (R289). -/
def inboxOf (p : Nat) : Nat × Nat := (dieOfPhys p, p % 136)

/-- TICKET_NOTICE_POST (R224): the dispatcher, a waiting producer (R290), posts the notice to every member's inbox. -/
def execTicketNoticePost (t : Nat) (r : DescRef) (s : State) : Host.Outcome State Fault Refusal :=
  let s := atMt s t
  match liveRun s r with
  | none => .next s
  | some (u, d) =>
    match d.pair with
    | none => .next s
    | some p =>
      let boxes := d.members.map fun l => inboxOf (physOf s l)
      if d.posted || s.disp.restarting || !(boxes.all fun b => pdkFits s b.1 b.2 1) then .next s
      else
        let it : Item := { hasWu := true, source := 549, wuId := u.wuId, epoch := u.epoch,
                           notice := some { ref := r, pair := p, epoch := d.pairEpoch, count := d.tickets.length } }
        .next (modRun (boxes.foldl (fun s b => pdkAppend s b.1 b.2 it) s) r fun d => { d with posted := true })

/-! ## Completion -/

/-- Whether a descriptor's own requests, writes or peer messages have not all landed (R185, R226, R358, R360). -/
def writesLeft (s : State) (r : DescRef) (d : DRun) : Bool :=
  (s.clu.phys.any fun e => e.2.walk.any (fun q => q.ref == r) || e.2.outstanding.any fun q => q.ref == r) ||
  writesOpen s (.unit r) || (s.peers.out.any fun o => o.ref == r) ||
  !(d.reduced.all fun e => (getRound s e.1).gen != e.2.1 && serialLt e.2.1 (getRound s e.1).gen || (getRound s e.1).landed.contains e.2.2)

/-- Whether a descriptor has done all it does (R185, R199, R226). -/
def runDone (s : State) (u : WorkUnit) (d : DRun) : Bool :=
  match d.op with
  | 0x20 | 0x21 => d.phase == 1 && !d.waiting
  | 0x22 => !d.waiting
  | 0x23 | 0x31 => true
  | 0x3F => u.runs.all fun x => x.complete || x.ref == d.ref
  | _ =>
    decide (d.done.length ≥ d.tiles) && (!isPhased d || d.tiles == 0 || d.phase == 2) && !writesLeft s d.ref d

/-- The status of a descriptor (R205, R107). -/
def runStatus (d : DRun) : Nat :=
  if d.satPersist then 0x11 else if d.scaled then 0x10 else if d.emptyShape then 0x12 else 0

/-- Order of a status (R205). -/
def statusRank (c : Nat) : Nat := if c = 0x11 then 1 else if c = 0x10 then 2 else if c = 0x12 then 3 else 4

/-- A descriptor's status taken into its unit's (R205, R206). -/
def takeStatus (u : WorkUnit) (d : DRun) : WorkUnit :=
  let c := runStatus d
  let better := !u.statusAny || decide (statusRank c < statusRank u.status) ||
    (statusRank c == statusRank u.status &&
      (decide (d.ref.idx < u.statusIdx) || (d.ref.idx == u.statusIdx && decide (d.ref.ticket < u.statusTicket))))
  let u := { u with maxShift := max u.maxShift d.shift }
  if better then { u with status := c, statusIdx := d.ref.idx, statusTicket := d.ref.ticket, statusAny := true } else u

/-- Byte intervals of an output become unspecified values (log 10), in memory or in every member's scratchpad; `marks`:
their poison marks too (R408). -/
def freeRanges (s : State) (d : DRun) (tv : TView) (marks : Bool) (rs : List (Nat × Nat)) : State :=
  rs.foldl (fun s e =>
    let (s, l) := freeBytes s e.2
    let l := l.map fun b => (b.1, b.2 && marks)
    if tv.spd then d.members.foldl (fun s m => modClu s (physOf s m) fun c => cluWrite c e.1 l) s
    else
      ((pagesOf e.1 e.2).foldl (fun (a : State × List (Byte × Bool)) p =>
        match translate a.1 4 tv.job p.1 with
        | .ok pa _ => ((cutUnits pa (a.2.take p.2) (p.2 + 1)).foldl (fun s c => landRun s c.1 c.2) a.1, a.2.drop p.2)
        | _ => (a.1, a.2.drop p.2)) (s, l)).1) s

/-- A discarded run's output regions become unspecified (R408). -/
def freeOutputs (s : State) (d : DRun) : State :=
  (outViews d).foldl (fun s tv => freeRanges s d tv true (tensorBytes tv 64)) s

/-- Input elements that share a byte with a tensor of `clashIn`: slot and index, or none for a tensor with a header. -/
def clashedInputs (d : DRun) : List (Nat × Option (List Nat)) :=
  (numsFrom 0 8).flatMap fun i =>
    if (outSlots d).contains i && !(d.op == 0x09) then []
    else match ten d i with
      | none => []
      | some tv =>
        let b := spaceBytes d.clashIn tv
        if b.isEmpty then []
        else if tv.fmt = 0 then ((walkIdx tv.sizes).filter fun x => overlapAny (elemBytes tv x) b).map fun x => (i, some x)
        else if overlapAny (tensorBytes tv 64) b then [(i, none)]
        else []

/-- Whether the output element of slot `o` at index `y` is computed from the DENSE input element of slot `i` at index `x`;
a size of 1 broadcasts. An element that data select (a row a key names) counts as read. -/
def feeds (d : DRun) (i : Nat) (x : List Nat) (o : Nat) (y : List Nat) : Bool :=
  let sizes := match ten d i with | some tv => tv.sizes | none => []
  let eq (k j : Nat) : Bool := nth 0 x k == nth 0 y j
  let batch := (numsFrom 2 3).all fun k => nth 1 sizes k == 1 || decide (x.length ≤ k) || eq k k
  let stat : Bool := decide (6 ≤ o)
  let row (k : Nat) : Bool := if stat then eq k 0 else eq k 1 && batch
  match d.op with
  | 0x01 | 0x02 | 0x03 | 0x04 =>
    match i with
    | 0 => row 1
    | 1 => stat || (eq 0 0 && batch)
    | 3 => row 1 && (stat || eq 0 0)
    | 5 => stat || eq 0 0
    | _ => if stat then eq 0 0 else eq 0 1
  | 0x05 => eq 0 0 && eq 1 1
  | 0x08 | 0x0A => eq 0 0
  | 0x09 | 0x0C => eq 0 0 && (i == 1 || eq 1 1)
  | 0x10 => decide (x.length ≤ 1) || x.eraseIdx (dReduceDim d.raw) == y
  | 0x11 => eq 1 1
  | 0x12 => eq 1 0
  | 0x18 | 0x1A | 0x30 => x == y
  | 0x19 => eq 0 1 && eq 1 0 && x.drop 2 == y.drop 2
  | _ => true

/-- The output elements that an overlap or a missing fence leaves unspecified (R182, R186): those that share a byte with a
tensor of `clashOut`, and those computed from a clashed input. The elements of an MX block are narrowed together (R36). -/
def openElems (d : DRun) (l : List (Nat × Option (List Nat))) (o : Nat) (tv : TView) : List (List Nat) :=
  let b := spaceBytes d.clashOut tv
  let hit (y : List Nat) : Bool :=
    overlapAny (elemBytes tv y) b || l.any fun e => match e.2 with | none => true | some x => feeds d e.1 x o y
  let c0 (y : List Nat) : Nat := y.headD 0 / 32 * 32
  (walkIdx tv.sizes).filter fun y =>
    if etyIsMx tv.ety then (numsFrom (c0 y) (min 32 (tv.sizes.headD 0 - c0 y))).any fun c => hit (c :: y.drop 1) else hit y

/-- The unspecified results of an overlap or a missing fence take free values (R182, R186); a sparse output that one
reaches does so whole. -/
def freeClashes (s : State) (d : DRun) : State :=
  if d.clashOut.isEmpty && d.clashIn.isEmpty then s
  else
    let l := clashedInputs d
    (outSlots d).foldl (fun s o =>
      match ten d o with
      | none => s
      | some tv =>
        if tv.fmt = 0 then freeRanges s d tv false ((openElems d l o tv).flatMap (elemBytes tv))
        else
          let site : Site := issueSite d.members
          let now := match tvRead s site tv 0 64, tv.hdr with | .ok h, some _ => { tv with hdr := some (parseHpf h.1) } | _, _ => tv
          if !l.isEmpty || overlapAny (tensorBytes now 64) (spaceBytes d.clashOut tv) then
            freeRanges s d tv false (tensorBytes now 64)
          else s) s

/-- Work counters freed (R223). -/
def freeCtrs (s : State) (d : DRun) : State :=
  match d.pair with
  | none => s
  | some p => modReins s fun r => { r with pairsUsed := r.pairsUsed.filter (· != p) }

/-- Residency after a PRELOAD or a RELEASE_BUF (R201). -/
def runResidency (s : State) (job : Nat) (d : DRun) : State :=
  let keep (f : Nat × Nat × Nat → Bool) : State := { s with disp := { s.disp with residency := s.disp.residency.filter f } }
  match d.op, ten d 2 with
  | 0x30, some y =>
    d.members.foldl (fun s l =>
      if s.disp.residency.contains (l, job, y.buf) then s
      else { s with disp := { s.disp with residency := s.disp.residency ++ [(l, job, y.buf)] } }) s
  | 0x31, _ =>
    if var0 d.raw then keep fun e => !(e.2.1 == job)
    else keep fun e => !(d.members.contains e.1 && e.2.1 == job && e.2.2 == dParam0 d.raw)
  | _, _ => s

/-- A descriptor completes (R185, R201, R223, R226, R358): its counters are freed, its status enters the unit's, and
the final LANDED of each destination leaves. -/
def finishRun (s : State) (u : WorkUnit) (d : DRun) : State :=
  let s := freeClashes s d
  let s := d.peerSent.foldl (fun s e => sendLanded s e.2.1 e.1 e.2.2) s
  let s := freeCtrs (runResidency s (hJob u.header) d) d
  let s := modUnit (modRun s d.ref fun x => { x with complete := true }) u.wuId fun u => takeStatus u d
  if dEventDone d.raw then
    postFrom s 549 { code := 0x0012, wuId := some u.wuId, epoch := u.epoch, params := [d.ref.idx, d.ref.ticket, runStatus d] }
  else s

/-- DESCRIPTOR_COMPLETE (R185, R199, R226): a SIGNAL or BARRIER whose earlier descriptors have completed first does its
operation. -/
def execDescriptorComplete (t : Nat) (r : DescRef) (s : State) : Host.Outcome State Fault Refusal :=
  let s := atMt s t
  match liveRun s r with
  | none => .next s
  | some (u, d) =>
    if s.disp.restarting || d.op == 0x3F then .next s
    else if (d.op == 0x20 || d.op == 0x21) && d.phase == 0 then (if earlierDone u r then .next (actSync s d) else .next s)
    else if runDone s u d then .next (finishRun s u d)
    else .next s

/-- A retired identifier entered in its table; the oldest whose quarantine has ended leaves a full one (R417). -/
def retire (s : State) (wuId epoch : Nat) : State :=
  let l := s.disp.retired
  let l := if l.length ≥ 131072 then
      (match l.findIdx? fun e => e.ended with
       | some i => l.eraseIdx i
       | none => l)
    else l
  { s with disp := { s.disp with retired := l ++ [{ wuId := wuId, epoch := epoch, mt := now s, ended := false }] } }

/-- A unit leaves flight. -/
def dropUnit (s : State) (wu : Nat) : State :=
  { s with disp := { s.disp with units := s.disp.units.filter fun u => u.wuId != wu } }

/-- The completion notice's cell (R206, R330). -/
def completeCell (u : WorkUnit) : List Byte :=
  leBytes 4 u.wuId ++ leBytes 1 u.epoch ++ leBytes 1 u.status ++ leBytes 1 u.maxShift ++ leBytes 1 0 ++
  leBytes 2 u.statusIdx ++ leBytes 2 0 ++ leBytes 4 u.statusTicket ++ leBytes 8 (u.mtIssue.getD 0) ++
  leBytes 8 ((u.mtStart.orElse fun _ => u.mtIssue).getD 0) ++ leBytes 8 u.mtEnd ++ leBytes 2 (hJob u.header) ++
  leBytes 2 (hWord89 u.header) ++ leBytes 2 (hEmits u.header) ++ leBytes 2 0

/-- The unit completes (R187, R206, R416, R441). -/
def completeUnit (s : State) (u : WorkUnit) : State :=
  let s := pdkAppend s 4 8 { hasWu := true, source := 549, wuId := u.wuId, epoch := u.epoch, payload := completeCell u }
  let s := { s with meter := { s.meter with completionTap := s.meter.completionTap ++
    [.completeEvent u.wuId u.epoch (hWord89 u.header) (hEmits u.header) u.status
      ((u.mtStart.orElse fun _ => u.mtIssue).getD 0) u.mtEnd (now s)] } }
  retire (dropUnit s u.wuId) u.wuId u.epoch

/-- LAYER_END_COMPLETE (R187, R188): the footprint comes free; the last one posts the unit's completion, for which the
dispatcher waits until its queue has room (R290). -/
def execLayerEndComplete (t wu : Nat) (s : State) : Host.Outcome State Fault Refusal :=
  let s := atMt s t
  match findUnit s wu with
  | none => .next s
  | some u =>
    match u.runs.getLast? with
    | none => .next s
    | some d =>
      let last := decide (u.next ≥ u.descs.length)
      if d.op != 0x3F || d.complete || !healthy u || u.decided || s.disp.restarting || !runDone s u d ||
         (last && !pdkFits s 4 8 1) then .next s
      else
        let s := finishRun s u d
        let s := if var0 d.raw then
            postFrom s 549 { code := 0x0011, wuId := some u.wuId, epoch := u.epoch, params := [d.ref.idx] }
          else s
        let s := trace s 5 none u.wuId u.epoch d.ref.idx d.ref.ticket []
        let s := modUnit s wu fun u => { u with runs := [], holds := [], started := false, mtEnd := now s }
        if last then
          match findUnit s wu with
          | some u => .next (completeUnit s u)
          | none => .next s
        else .next s

/-! ## Discard -/

/-- DISCARD_DECISION (R231, R277, R361, R404): the epochs of the unit's work counters advance, its waits are withdrawn,
and rounds that it wrote are abandoned. Its unreleased arrivals go by ARRIVAL_WITHDRAW. -/
def execDiscardDecision (t wu : Nat) (s : State) : Host.Outcome State Fault Refusal :=
  let s := atMt s t
  match findUnit s wu with
  | none => .next s
  | some u =>
    if u.decided || u.causes.isEmpty then .next s
    else
      let s := u.runs.foldl (fun s d => match d.pair with
        | none => s
        | some p => if d.complete then s else freeCtrs (advanceEpoch (advanceEpoch s (takeCtr p)) (doneCtr p)) d) s
      let s := modReins s fun r => { r with waits := r.waits.filter fun w => match w.ref with | some x => x.wu != wu | none => true }
      let s := modUnit s wu fun u => { u with decided := true }
      .next ((s.peers.rounds.filter fun e => e.2.writers.contains (wu, u.epoch)).foldl (fun s e => abandonRound s e.1 s.peers.rank true) s)

/-- Whether a request or ticket belongs to a unit. -/
def ofUnit (wu : Nat) (r : DescRef) : Bool := r.wu == wu

/-- A cluster without a unit's tickets and unissued requests (R231). -/
def dropTickets (wu : Nat) (c : Cluster) : Cluster :=
  { c with running := c.running.filter fun x => !ofUnit wu x.ref, nextUp := c.nextUp.filter fun x => !ofUnit wu x.ref,
           drain := c.drain.filter fun x => !ofUnit wu x.ref, walk := c.walk.filter fun q => !ofUnit wu q.ref,
           outstanding := c.outstanding.filter fun q => q.write || !ofUnit wu q.ref,
           notices := c.notices.filter fun n => !ofUnit wu n.ref,
           wide := if c.drain.any (fun x => ofUnit wu x.ref) || (c.drain.isNone && c.running.any fun x => ofUnit wu x.ref) then [] else c.wide,
           ticket := match c.running with | some x => if ofUnit wu x.ref then 0xFFFFFFFF else c.ticket | none => c.ticket }

/-- MEMBER_TICKET_DROP (R231): the member drops the unit's tickets and confirms. -/
def execMemberTicketDrop (t l wu : Nat) (s : State) : Host.Outcome State Fault Refusal :=
  let s := atMt s t
  match findUnit s wu with
  | none => .next s
  | some u =>
    if u.decided && u.holds.contains l && !u.confirmed.contains l then
      let s := modClu s (physOf s l) (dropTickets wu)
      .next (modUnit s wu fun u => { u with confirmed := u.confirmed ++ [l] })
    else .next s

/-- The discard notice's cell (R330, R405, R407). -/
def discardCell (u : WorkUnit) (c : Cause) (mt : Nat) : List Byte :=
  let open_ := u.runs.find? fun d => !d.complete
  let idx := if u.mtIssue.isNone then 0xFFFF else match open_ with | some d => d.ref.idx | none => u.next
  let tk := match open_ with | some d => d.ref.ticket | none => (u.loop.map (·.ticket)).getD 0
  leBytes 4 u.wuId ++ leBytes 1 u.epoch ++ leBytes 1 c.reason ++ leBytes 2 0 ++ leBytes 2 idx ++ leBytes 2 0 ++ leBytes 4 tk ++
  leBytes 8 (u.mtIssue.getD 0) ++ leBytes 8 c.mt ++ leBytes 8 mt ++ leBytes 2 (hJob u.header) ++ leBytes 2 (hWord89 u.header) ++
  leBytes 4 c.resource

/-- Whether a unit has an arrival that waits unreleased at some barrier (R283). -/
def arrivalsLeft (s : State) (wu : Nat) : Bool :=
  s.reins.barriers.any fun e => e.2.arrivals.any fun a => match a.ref with | some r => r.wu == wu | none => false

/-- Whether every present member has confirmed, every write issued for the unit has landed (R231), and no arrival of it is
left at a barrier (R283). -/
def releasable (s : State) (u : WorkUnit) : Bool :=
  u.decided && !arrivalsLeft s u.wuId && u.holds.all (fun l => !served s l || u.confirmed.contains l) &&
  !(s.hbm.pending.any fun w => match w.who with | .unit r => ofUnit u.wuId r | _ => false) && pdkFits s 4 9 1

/-- DISCARD_RELEASE (R231, R405 to R408, R416): the notice enters the discard queue, the unit's output regions hold
unspecified bytes, and its identifier is retired. -/
def execDiscardRelease (t wu : Nat) (s : State) : Host.Outcome State Fault Refusal :=
  let s := atMt s t
  match findUnit s wu with
  | none => .next s
  | some u =>
    match noticeCause u.causes with
    | none => .next s
    | some c =>
      if releasable s u then
        let s := (u.runs.filter fun d => isCut d.op || d.op == 0x30).foldl freeOutputs s
        let s := pdkAppend s 4 9 { hasWu := true, source := 549, wuId := u.wuId, epoch := u.epoch, payload := discardCell u c (now s) }
        .next (retire (dropUnit s wu) wu u.epoch)
      else .next s

/-! ## Identifiers (R417) -/

/-- QUARANTINE_END (R417): 20 ms after the release. -/
def execQuarantineEnd (t wuId : Nat) (s : State) : Host.Outcome State Fault Refusal :=
  let s := atMt s t
  let go (e : Retired) : Retired := if e.wuId = wuId ∧ e.mt + 50000000 ≤ now s then { e with ended := true } else e
  .next { s with disp := { s.disp with retired := s.disp.retired.map go } }

/-- RETIRED_ENTRY_EXPIRY (R417): 10 s after the release. -/
def execRetiredEntryExpiry (t wuId : Nat) (s : State) : Host.Outcome State Fault Refusal :=
  let s := atMt s t
  let gone (e : Retired) : Bool := e.wuId == wuId && decide (e.mt + 25000000000 ≤ now s)
  .next { s with disp := { s.disp with retired := s.disp.retired.filter fun e => !gone e } }

end Sys2Proof.Machine
end

