-- ==== Sys2Proof/Machine/Products.lean ====
section
/-! DEFINITION. What the walk of a ticket of an accumulating opcode reads (03 R66 to R82, R92 to R94; 04 R98 to R101;
06 R183, R184, R190 to R194, R197): operand fibers, predicate masks, spans, the terms of every output in their fixed
order, poison by MMC, and the passes of R99. -/

namespace Sys2Proof.Machine

/-! ## Division (R192) -/

/-- Quotient of two FP32 values with one rounding (R192, R33, R34); where the spec states no quotient, a free value. -/
def f32Div (a b : F32) : F32 :=
  match f32Num a, f32Num b with
  | .nan, _ => f32Nan
  | _, .nan => f32Nan
  | .inf _, .inf _ => Config.openQuotient a b
  | .inf n, .fin m z _ => if z = 0 then Config.openQuotient a b else f32Inf (n != m)
  | .fin n _ _, .inf m => f32Of (.fin (n != m) 0 0)
  | .fin n x e, .fin m y f =>
    if y = 0 then Config.openQuotient a b
    else
      let k := 64 + Nat.log2 y
      let q := x * 2 ^ k / y
      f32Of (.fin (n != m) (2 * q + flag (x * 2 ^ k % y != 0)) (e - f - (k : Int) - 1))

/-- A stored score replaced by its softmax weight (R192): a' = round(ex2(x - m) / l), rounded to A's element type, an MX
value as a block of its own. -/
def softmaxWeight (ety : Nat) (v : Val) (m l : F32) : Val :=
  let x := f32Of (valNum v)
  let w := f32Num (f32Div (ex2 (numAdd (f32Num x) (numNegate (f32Num m)))) l)
  if etyIsMx ety then ((mxVals ety [some w]).head?).getD (.num w) else narrowVal ety (.num w)

/-! ## One output in one span -/

/-- What one output does in one span: its terms in order, the bound of R99, useful MACs (R87), the first poison read. -/
structure Visit where
  terms : List Term := []
  bound : Nat := 0
  useful : Nat := 0
  mark : Mark := none
deriving DecidableEq, Repr

/-- Entries of a fiber in a span. -/
def inSpan (l : List FEntry) (a z : Nat) : List FEntry := l.filter fun e => decide (a ≤ e.k) && decide (e.k < z)

/-- Dense mode (R73): every k of the span. -/
def visitDense (a b : List FEntry) : Visit :=
  let l := a.zip b
  { terms := l.map fun e => { a := e.1.x.v, b := e.2.x.v }, bound := l.length, useful := l.length,
    mark := firstMark (l.map fun e => orMark e.1.x.mark e.2.x.mark) }

/-- Product scan and N:M mode (R75, R76, R81): every stored entry selects a dense element of a fiber that starts at k0.
`left`: the stored operand is A. -/
def visitScan (nm left : Bool) (k0 : Nat) (sp de : List FEntry) : Visit :=
  let l := sp.map fun e => (e, nth { k := e.k, x := { v := .int 0, mark := none } } de (e.k - k0))
  { terms := l.map fun e => if left then { a := e.1.x.v, b := e.2.x.v } else { a := e.2.x.v, b := e.1.x.v },
    bound := sp.length, useful := if nm then (sp.filter fun e => !valIsZero e.x.v).length else sp.length,
    mark := firstMark (l.map fun e => orMark e.1.x.mark e.2.x.mark) }

/-- How many entries a skip cycle consumes (R78), 0 when the fiber does not qualify: its head's segment, cut at the end
`z` of the span, against the other fiber's head. -/
def skipCount (z : Nat) (l : List FEntry) (other : Nat) : Nat :=
  match l with
  | [] => 0
  | h :: _ =>
    let part := l.takeWhile fun e => e.seg == h.seg
    let last := if h.last < z then h.last else (part.getLast?.map (·.k)).getD h.k
    if h.skip && decide (4 < part.length) && decide (last < other) then part.length else 0

/-- Intersect mode (R77 to R79): windows of four entries; `n` bounds the cycles. -/
def visitIntersect (z : Nat) : Nat → List FEntry → List FEntry → Visit → Visit
  | 0, _, _, v => v
  | n + 1, a, b, v =>
    match a, b with
    | x :: _, y :: _ =>
      let wa := a.take 4
      let wb := b.take 4
      let v := { v with mark := orMark v.mark (orMark (firstMark (wa.map (·.x.mark))) (firstMark (wb.map (·.x.mark)))) }
      let sa := skipCount z a y.k
      let sb := skipCount z b x.k
      if 0 < sa then visitIntersect z n (a.drop sa) b v
      else if 0 < sb then visitIntersect z n a (b.drop sb) v
      else
        let t := min ((wa.getLast?.map (·.k)).getD 0) ((wb.getLast?.map (·.k)).getD 0)
        let hits : List Term := wa.filterMap fun e => (wb.find? fun f => f.k == e.k).map fun f => { a := e.x.v, b := f.x.v }
        let na := (wa.takeWhile fun e : FEntry => decide (e.k ≤ t)).length
        let nb := (wb.takeWhile fun e : FEntry => decide (e.k ≤ t)).length
        visitIntersect z n (a.drop na) (b.drop nb) { v with terms := v.terms ++ hits, useful := v.useful + hits.length }
    | _, _ => v

/-! ## Spans (R70) -/

/-- Spans of fixed width. -/
def fixedCuts (step a z : Nat) : List (Nat × Nat) :=
  (numsFrom 0 (ceilDiv (z - a) step)).map fun i => (a + i * step, min z (a + (i + 1) * step))

/-- Spans of two sparse operands: each ends before the first 65th entry of some fiber, at most 4,096 coordinates on. -/
def dataCuts (fs : List (List Nat)) (z : Nat) : Nat → Nat → List (Nat × Nat)
  | 0, _ => []
  | n + 1, a =>
    if z ≤ a then []
    else
      let stop := fs.foldl (fun e f => match (f.filter fun k => decide (a ≤ k))[64]? with
        | some k => min e k
        | none => e) (min (a + 4096) z)
      (a, stop) :: dataCuts fs z n stop

/-! ## Predicates (R184) -/

/-- Whether a mask's element is not 0, with its poison. -/
def maskElem (s : State) (site : Site) (t : TView) (i : Nat) : Except Why (Bool × Mark) :=
  match t.hdr with
  | none =>
    (match denseElem s site t [i] with
     | .error w => .error w
     | .ok e => .ok (!valIsZero e.v, e.mark))
  | some h =>
    let per := groupsOf h 2 (nth 0 h.sizes 0)
    match tvNat s site t (h.coordOff + alignUp (8 * per) 64 + 64 * (i / 512)) 64 with
    | .error w => .error w
    | .ok (v, m) => .ok (bit v (i % 512), m)

/-- The predicate of rows or columns lo to hi - 1 (R184), with the first poison of the mask. -/
def predOf (s : State) (site : Site) (t : Option TView) (lo hi : Nat) : Except Why (List Bool × Mark) :=
  match t with
  | none => .ok (List.replicate (hi - lo) true, none)
  | some t =>
    match mapE (maskElem s site t) (numsFrom lo (hi - lo)) with
    | .error w => .error w
    | .ok l => .ok (l.map (·.1), firstMark (l.map (·.2)))

/-! ## Products -/

/-- A vector's elements lo to hi - 1 in FP32, with their poison. -/
def vecElems (s : State) (site : Site) (t : Option TView) (lo hi : Nat) : Except Why (List (F32 × Mark)) :=
  match t with
  | none => .ok []
  | some t => mapE (fun i => match denseElem s site t [i] with
      | .error w => .error w
      | .ok e => .ok (f32Of (valNum e.v), e.mark)) (numsFrom lo (hi - lo))

/-- The A fibers of a tile's rows, with SOFTMAX_A applied (R192). -/
def aFibers (s : State) (site : Site) (d : DRun) (t : TView) (tk : Ticket) : Except Why (List (List FEntry) × Mark) :=
  match mapE (fun i => fiber s site d t 0 i tk.b tk.k0 tk.k1) (numsFrom tk.m0 (tk.m1 - tk.m0)) with
  | .error w => .error w
  | .ok fs =>
    if d.op = 2 ∧ var1 d.raw then
      match vecElems s site (ten d 6) tk.m0 tk.m1, vecElems s site (ten d 7) tk.m0 tk.m1 with
      | .ok ms, .ok ls =>
        let rows := (numsFrom 0 fs.length).zip fs
        let out := rows.map fun e =>
          let m := nth ((0 : F32), (none : Mark)) ms e.1
          let l := nth ((0 : F32), (none : Mark)) ls e.1
          e.2.map fun f => { f with x := { f.x with v := softmaxWeight (etyOf t) f.x.v m.1 l.1 } }
        .ok (out, firstMark (rows.map fun e => if e.2.isEmpty then none
          else orMark (nth ((0 : F32), (none : Mark)) ms e.1).2 (nth ((0 : F32), (none : Mark)) ls e.1).2))
      | .error w, _ => .error w
      | _, .error w => .error w
    else .ok (fs, none)

/-- The sampled positions of a tile (R191): index and poison. -/
def samples (s : State) (site : Site) (d : DRun) (tk : Ticket) : Except Why (List (List Nat × Mark)) :=
  match ten d 3 with
  | none => .ok []
  | some t =>
    match t.hdr with
    | none => .ok []
    | some h =>
      match hpfEntries s site t h {} ((fiberDim h).getD 0) [(tk.n0, tk.n1), (tk.m0, tk.m1)] with
      | .error w => .error w
      | .ok l => .ok ((l.filter fun e => !e.tail).map fun e => (e.idx, e.mark))

/-- What a ticket reads: for every span, a visit for each output in row-major order; which outputs are live; and poison
that marks the whole output tile. -/
structure Reading where
  spans : List (List Visit)
  live : List Bool
  whole : Mark
  cols : Nat
deriving DecidableEq, Repr

/-- Columns of a tile that one MMC owns (R66). -/
def mmcCols (d : DRun) : Nat := if d.comp then 4 else 8

/-- One output's visit in one span, by the mode of R67. -/
def visitOf (d : DRun) (k0 a z : Nat) (fa fb : List FEntry) : Visit :=
  let xa := inSpan fa a z
  let xb := inSpan fb a z
  if d.op = 4 then
    { visitIntersect z (xa.length + xb.length + 1) xa xb {} with bound := min xa.length xb.length }
  else if fmtOf d 0 ≠ 0 then visitScan (fmtOf d 0 == 6) true k0 xa fb
  else if fmtOf d 1 ≠ 0 then visitScan (fmtOf d 1 == 6) false k0 xb fa
  else visitDense xa xb

/-- The reading of a product ticket (R67 to R81, R183, R184, R191, R192). -/
def readProduct (s : State) (site : Site) (d : DRun) (tk : Ticket) : Except Why Reading :=
  match ten d 0, ten d 1 with
  | some a, some b =>
    match predOf s site (ten d 4) tk.m0 tk.m1, predOf s site (ten d 5) tk.n0 tk.n1 with
    | .error w, _ => .error w
    | _, .error w => .error w
    | .ok (rp, rm), .ok (cp, cm) =>
      match aFibers s site d a tk, mapE (fun j => fiber s site d b 1 j tk.b tk.k0 tk.k1) (numsFrom tk.n0 (tk.n1 - tk.n0)) with
      | .error w, _ => .error w
      | _, .error w => .error w
      | .ok (fas, am), .ok fbs =>
        match (if d.op = 3 then samples s site d tk else .ok []) with
        | .error w => .error w
        | .ok smp =>
          let cuts := if fixedSpans d then fixedCuts (prodGrain d) tk.k0 tk.k1
            else dataCuts ((fas ++ fbs).map fun f => f.map (·.k)) tk.k1 (tk.k1 - tk.k0) tk.k0
          let rows := (numsFrom tk.m0 (tk.m1 - tk.m0)).zip (rp.zip fas)
          let cols := (numsFrom tk.n0 (tk.n1 - tk.n0)).zip (cp.zip fbs)
          let isLive (i j : Nat) (x y : Bool) : Bool := x && y && (d.op != 3 || smp.any fun e => e.1 == [j, i])
          let live := rows.flatMap fun r => cols.map fun c => isLive r.1 c.1 r.2.1 c.2.1
          let span (e : Nat × Nat) : List Visit := rows.flatMap fun r => cols.map fun c =>
            if isLive r.1 c.1 r.2.1 c.2.1 then
              let v := visitOf d tk.k0 e.1 e.2 r.2.2 c.2.2
              { v with mark := orMark ((smp.find? fun x => x.1 == [c.1, r.1]).bind (·.2)) v.mark }
            else {}
          .ok { spans := cuts.map span, live := live, whole := orMark rm (orMark cm am), cols := tk.n1 - tk.n0 }
  | _, _ => .error badDesc

/-! ## Row scan (R82, R194) -/

/-- A table row's elements with their poison; a row number at or above the table's count is malformed (R194). -/
def tableRow (s : State) (site : Site) (t : TView) (n r : Nat) : Except Why (List Elem) :=
  if nth 0 t.sizes 1 ≤ r then .error badDesc
  else mapE (fun c => denseElem s site t [c, r]) (numsFrom 0 n)

/-- Whether a row scan multiplies by the entry values (R194). -/
def scanWeighted (d : DRun) : Bool := d.op == 0x0C || ((d.op == 0x09 || d.op == 0x0A) && var0 d.raw)

/-- One entry of a row scan as it adds: the output row, the table row, the weight, the entry's poison. -/
structure ScanEntry where
  out : Nat
  row : Nat
  w : Val
  mark : Mark
deriving DecidableEq, Repr

/-- The value 1 in a class. -/
def oneVal (isInt : Bool) : Val := if isInt then .int 1 else .num (.fin false 1 0)

/-- The entries of a row scan that add into rows m0 to m1 - 1, in the order taken (R82, R194). -/
def scanEntries (s : State) (site : Site) (d : DRun) (x : TView) (h : HpfHeader) (tk : Ticket) : Except Why (List ScanEntry) :=
  let rng := if d.op = 0x09 then [(tk.m0, tk.m1)]
    else (fullRange h).set (bagDim x) (tk.m0, tk.m1)
  match hpfElems s site x h { whole := true } (rowDim x) rng with
  | .error w => .error w
  | .ok l =>
    let go (e : Entry × Elem) : ScanEntry :=
      let w := if scanWeighted d then e.2.v else oneVal d.isInt
      if d.op = 0x09 then { out := e.1.idx.headD 0, row := e.1.pos, w := w, mark := orMark e.1.mark (if scanWeighted d then e.2.mark else none) }
      else { out := nth 0 e.1.idx (bagDim x), row := nth 0 e.1.idx (rowDim x), w := w,
             mark := orMark e.1.mark (if scanWeighted d then e.2.mark else none) }
    let es := l.map go
    .ok (if d.op = 0x09 then sortBy (fun a b : ScanEntry => decide (a.out < b.out)) es else es)

/-- Spans of a row scan: groups of 64 entries taken (R99). -/
def groups64 {α : Type} : Nat → List α → List (List α)
  | 0, _ => []
  | n + 1, l => if l.isEmpty then [] else l.take 64 :: groups64 n (l.drop 64)

/-- The first term of an output row (R194): the residual row of COMBINE, the old destination row of SCATTER_ADD. -/
def firstRow (s : State) (site : Site) (d : DRun) (i : Nat) : Except Why (Option (List Elem)) :=
  let t := if d.op = 0x0C ∧ var0 d.raw then ten d 3 else if d.op = 0x09 then ten d 2 else none
  match t with
  | none => .ok none
  | some t => match mapE (fun c => denseElem s site t [c, i]) (numsFrom 0 d.n) with
    | .error w => .error w
    | .ok l => .ok (some l)

/-- The reading of an accumulating row scan; the second part is each output's leading term. -/
def readScan (s : State) (site : Site) (d : DRun) (tk : Ticket) : Except Why (Reading × List (Option Term)) :=
  match ten d 0, ten d 1 with
  | some x, some tb =>
    match x.hdr with
    | none => .error badDesc
    | some h =>
      match scanEntries s site d x h tk with
      | .error w => .error w
      | .ok es =>
        match mapE (fun e : ScanEntry => match tableRow s site tb d.n e.row with
            | .error w => .error w
            | .ok r => .ok (e, r)) es with
        | .error w => .error w
        | .ok rs =>
          let rows := numsFrom tk.m0 (tk.m1 - tk.m0)
          match mapE (fun i => if d.op = 0x09 ∧ (es.any fun e => e.out == i) = false then .ok none else firstRow s site d i) rows with
          | .error w => .error w
          | .ok firsts =>
            let gs := groups64 (rs.length + 1) rs
            let span (g : List (ScanEntry × List Elem)) : List Visit := rows.flatMap fun i =>
              let mine := g.filter fun e => e.1.out == i
              (numsFrom 0 d.n).map fun c =>
                let els := mine.map fun e => (e.1, nth { v := .int 0, mark := none } e.2 c)
                { terms := els.map fun e => { a := e.1.w, b := e.2.v }, bound := g.length,
                  mark := firstMark (els.map fun e => orMark e.1.mark e.2.mark) }
            let lead := (rows.zip firsts).flatMap fun e => (numsFrom 0 d.n).map fun c =>
              e.2.map fun l => ({ a := (nth { v := .int 0, mark := none } l c).v, b := oneVal d.isInt } : Term)
            let leadMark := firstMark (firsts.map fun o => match o with | some l => firstMark (l.map (·.mark)) | none => none)
            let live := rows.flatMap fun i => List.replicate d.n (d.op != 0x09 || es.any fun e => e.out == i)
            .ok ({ spans := gs.map span, live := live, whole := leadMark, cols := d.n }, lead)
  | _, _ => .error badDesc

/-! ## REDUCE (R113, R197) -/

/-- The outputs of a REDUCE tile: indices of T2, dimension 0 fastest. -/
def reduceOuts (d : DRun) (tk : Ticket) : List (List Nat) :=
  let z := reduceSizes d
  (numsFrom tk.m0 (tk.m1 - tk.m0)).flatMap fun r => (numsFrom 0 (z.headD 1)).map fun c => c :: unlin (z.drop 1) r

/-- An output's index with the reduced coordinate put back. -/
def insertAt (idx : List Nat) (rd rank k : Nat) : List Nat :=
  if rank ≤ 1 then [k] else idx.take rd ++ [k] ++ idx.drop rd

/-- The elements of each output of a REDUCE ticket in its piece: coordinate along the reduced dimension and element. -/
def reduceElems (s : State) (site : Site) (d : DRun) (tk : Ticket) : Except Why (List (List (Nat × Elem))) :=
  match ten d 0 with
  | none => .error badDesc
  | some x =>
    let rd := dReduceDim d.raw
    let outs := reduceOuts d tk
    match x.hdr with
    | none =>
      mapE (fun o => mapE (fun k => match denseElem s site x (insertAt o rd x.rank k) with
        | .error w => .error w
        | .ok e => .ok (k, e)) (numsFrom tk.k0 (tk.k1 - tk.k0))) outs
    | some h =>
      match hpfElems s site x h {} rd ((fullRange h).set rd (tk.k0, tk.k1)) with
      | .error w => .error w
      | .ok l => .ok (outs.map fun o => (l.filter fun e =>
          (if x.rank ≤ 1 then [0] else e.1.idx.eraseIdx rd) == o).map fun e => (nth 0 e.1.idx rd, e.2))

/-- The reading of a REDUCE SUM ticket: spans of 64 coordinates (R99). -/
def readReduce (s : State) (site : Site) (d : DRun) (tk : Ticket) : Except Why Reading :=
  match reduceElems s site d tk with
  | .error w => .error w
  | .ok l =>
    let span (e : Nat × Nat) : List Visit := l.map fun o =>
      let mine := o.filter fun x => decide (e.1 ≤ x.1) && decide (x.1 < e.2)
      { terms := mine.map fun x => { a := x.2.v, b := oneVal d.isInt }, bound := mine.length }
    .ok { spans := (fixedCuts 64 tk.k0 tk.k1).map span, live := l.map fun _ => true,
          whole := firstMark (l.map fun o => firstMark (o.map fun x => x.2.mark)), cols := (reduceSizes d).headD 1 }

/-! ## Passes (R98, R99) -/

/-- The spill interval (R98). -/
def spillInterval (d : DRun) : Nat := if dSpill d.raw = 0 then 4096 else 2 ^ dSpill d.raw

/-- Spans grouped into passes (R99); `count` holds the products added to each entry in the open pass. -/
def groupPasses (lim : Nat) : List (List Visit) → List (List Visit) → List Nat → List (List (List Visit))
  | [], cur, _ => if cur.isEmpty then [] else [cur]
  | sp :: r, cur, count =>
    if cur.isEmpty = false ∧ (count.zip sp).any (fun e => decide (lim < e.1 + e.2.bound)) = true then
      cur :: groupPasses lim r [sp] (sp.map fun v => v.terms.length)
    else
      groupPasses lim r (cur ++ [sp]) ((count.zip sp).map fun e => e.1 + e.2.terms.length)

/-- The terms of each output over the spans of a pass. -/
def passTerms (n : Nat) (p : List (List Visit)) : List (List Term) :=
  (numsFrom 0 n).map fun e => p.flatMap fun sp => (nth {} sp e).terms

/-- The poison of each output's MMC over some visits (R93): an MMC is 8 rows by 8 columns, or by 4 with compensation. -/
def mmcPoison (cols width n : Nat) (p : List (List Visit)) : List Bool :=
  let block (e : Nat) : Nat × Nat := (e / max 1 cols / 8, e % max 1 cols / width)
  let hits := p.flatMap fun sp => ((numsFrom 0 n).zip sp).filterMap fun e => if e.2.mark.isSome then some (block e.1) else none
  (numsFrom 0 n).map fun e => hits.contains (block e)

/-- The first poison that a ticket's walk meets (R407). -/
def readMark (r : Reading) : Mark := orMark r.whole (firstMark (r.spans.map fun sp => firstMark (sp.map (·.mark))))

/-- Peak MACs per cycle of a cluster for a descriptor (R86, R87, R496): 0 outside the product modes. -/
def peakRate (d : DRun) : Nat :=
  if isProduct d.op then
    640 * (if d.op = 4 then min 4 (ratePer (prodRate d)) else ratePer (prodRate d))
  else 0

/-- A ticket ready to run, from what it reads. -/
def runningOf (d : DRun) (rank number : Nat) (tk : Ticket) (r : Reading) (lead : List (Option Term)) : Running :=
  let n := r.live.length
  let ps := groupPasses (spillInterval d) r.spans [] (List.replicate n 0)
  let ps := if ps.isEmpty then [[]] else ps
  let terms := ps.map (passTerms n)
  let terms := match terms with
    | p :: q => ((numsFrom 0 n).zip p).map (fun e => match nth none lead e.1 with | some t => t :: e.2 | none => e.2) :: q
    | [] => []
  { ref := d.ref, number := number, rank := rank, tk := tk, passes := terms,
    bads := ps.map fun p => (mmcPoison r.cols (mmcCols d) n p).map fun b => b || r.whole.isSome,
    live := r.live, useful := ps.map fun p => sumNat (p.map fun sp => sumNat (sp.map (·.useful))),
    rate := peakRate d, pass := 0, shift := if d.isInt then dInitShift d.raw else 0, fill := [], cycles := 0, stalls := 0 }

/-- The entries of a pass after all of its products (R104, R105, R108). -/
def runPass (isInt comp : Bool) (shift : Nat) (ts : List (List Term)) : List Acc :=
  ts.map fun t => t.foldl (accAdd isInt comp shift) {}

/-- The fill tile of a running ticket's pass attempt. -/
def fillPass (d : DRun) (x : Running) : Running :=
  { x with fill := runPass d.isInt d.comp x.shift (nth [] x.passes x.pass) }

end Sys2Proof.Machine
end

