-- ==== Sys2Proof/Machine/DataOps.lean ====
section
/-! DEFINITION. What a tile's results become (04 R101, R111 to R121, R181, R190, R495), and the tickets of the opcodes
that do not accumulate (06 R193 to R198; 02 R61 to R65; 05 R146, R152). -/

namespace Sys2Proof.Machine

/-! ## Tiles -/

/-- The home of an output tile (R123). -/
def homeOf (d : DRun) (tile : Nat) : Nat := nth 0 d.members (tile % max 1 d.members.length)

/-- The tickets of a tile with their ranks in position order. -/
def tileRun (d : DRun) (tile : Nat) : List (Nat × Ticket) :=
  ((numsFrom 0 d.tickets.length).zip d.tickets).filter fun e => e.2.tile == tile

/-- A poisoned read of a ticket discards its unit (R93, R125, R407). -/
def poisonCause (s : State) (d : DRun) (rank : Nat) (m : Mark) : State :=
  match m with
  | none => s
  | some res => addCauseK s d.ref.wu reasonPoison res [1, d.ref.idx, d.ref.ticket, rank]

/-- A failed read of a ticket discards its unit (R204, R262, R407). -/
def ticketCause (s : State) (d : DRun) (rank : Nat) (w : Why) : State :=
  addCauseK s d.ref.wu w.1 w.2 [1, d.ref.idx, d.ref.ticket, rank]

/-! ## Writing or holding -/

/-- Rows of a slot's dense output written, or held where the layout asks for one writer (R181). -/
def putRows (s : State) (d : DRun) (o : OutSite) (tile slot : Nat) (rows : List OutRow) : State :=
  match ten d slot with
  | none => s
  | some tv =>
    if mustHold tv d.tickets then
      let new : List OutVal := rows.flatMap fun r =>
        ((numsFrom r.c0 r.vals.length).zip r.vals).filterMap fun e =>
          e.2.map fun v => { tile := tile, slot := slot, idx := e.1 :: r.outer, v := v.1, bad := v.2 }
      modRun s d.ref fun x => { x with held := x.held ++ new }
    else emitRows s d.ref o tv rows

/-- Held values of a slot as rows in walk order. -/
def heldRows (tv : TView) (l : List OutVal) : List OutRow :=
  let nums := sortBy (fun a b : Nat => decide (a < b)) (dedup (l.map fun v => rowNumber (v.idx.drop 1) (tv.sizes.drop 1)))
  nums.map fun n =>
    let mine := l.filter fun v => rowNumber (v.idx.drop 1) (tv.sizes.drop 1) == n
    { outer := unlin (tv.sizes.drop 1) n, c0 := 0,
      vals := (numsFrom 0 (tv.sizes.headD 0)).map fun c => (mine.find? fun v => v.idx.headD 0 == c).map fun v => (v.v, v.bad) }

/-- The held outputs written by the home of output tile 0 (R181). -/
def flushOutputs (s : State) (d : DRun) : State :=
  let h := d.members.headD 0
  let put (s : State) (slot : Nat) : State := match ten d slot with
    | none => s
    | some tv =>
      let l := d.held.filter fun v => v.slot == slot
      if l.isEmpty then s else emitRows s d.ref { engine := h, home := h } tv (heldRows tv l)
  let s := put (put (put s 2) 6) 7
  modRun s d.ref fun x => { x with held := [] }

/-- The N largest magnitudes of each group of an N level (R64, R119, R120); m coordinates to a group along dimension 0. -/
def keepNm (n m : Nat) (l : List Staged) : List Staged :=
  let keys := dedup (l.map fun e => e.row * 2 ^ 32 + e.col / m)
  keys.flatMap fun k =>
    (sortBy (fun a b : Staged => magBefore (a.narrowed, a.col) (b.narrowed, b.col))
      (l.filter fun e => e.row * 2 ^ 32 + e.col / m == k)).take n

/-- Staged entries as entries to store; `outer` gives the index above dimension 0. -/
def stagedEntries (sizes : List Nat) (l : List Staged) : List HEntry :=
  l.map fun e => { idx := e.col :: unlin (sizes.drop 1) e.row, v := some e.full, bad := e.bad }

/-- What follows the last tile's step 5 without the phases of R121: held outputs, and a 2:4 output. -/
def lastTile (s : State) (d : DRun) : State :=
  let s := flushOutputs s d
  if dCompress d.raw = 3 then
    match ten d 2 with
    | none => s
    | some y => match y.hdr with
      | none => s
      | some h => emitImage s d y (buildHpf h [d.m, d.n] (stagedEntries [d.n, d.m] (keepNm 2 4 d.staged)))
  else s

/-- A tile has left its root (R121, R226). -/
def closeTile (s : State) (r : DescRef) (tile : Nat) : State :=
  let s := modRun s r fun x => { x with rooted := addOnce x.rooted tile, trees := x.trees.filter fun e => e.tile != tile }
  match findRun s r with
  | none => s
  | some d => if d.rooted.length ≥ d.tiles then lastTile s d else s

/-- Steps 3 to 6 of R111 for the rows of a tile after step 2. -/
def pathRows (s : State) (d : DRun) (o : OutSite) (tk : Ticket) (rows : List OutRow) : State :=
  match ten d 2 with
  | none => s
  | some y =>
    let s := if isProduct d.op && dRowStat d.raw != 0 then
        noteStats s d tk.b tk.rho tk.sigma tk.m0 (rows.map fun r => rowStat (dRowStat d.raw) (narrowRow y.ety r))
      else s
    let s := if y.fmt = 0 then putRows s d o tk.tile 2 rows
      else
        let new : List Staged := rows.flatMap fun r => (selectRow d.raw y.ety r).map fun e =>
          { rho := tk.rho, row := r.outer.headD 0, col := e.1, narrowed := e.2.1, full := e.2.2.1, bad := e.2.2.2 }
        modRun s d.ref fun x => { x with staged := x.staged ++ new }
    closeTile s d.ref tk.tile

/-! ## The end of an accumulating tile -/

/-- Whether a value stands at a sticky limit (R106, R107). -/
def atLimit (v : Val) : Bool := match v with | .int x => x == i64Max || x == i64Min | .num _ => false

/-- Whether ADD_C applies (R190). -/
def addsC (d : DRun) : Bool := (d.op == 1 || d.op == 2 || d.op == 4) && var0 d.raw

/-- C added to the final values of a tile (R190), with the first poison read. -/
def addC (s : State) (site : Site) (d : DRun) (tk : Ticket) (idx : List (List Nat)) (vals : List (Option Val)) :
    Except Why (List (Option Val) × Mark) :=
  match addsC d, ten d 3 with
  | true, some c =>
    (match mapE (fun e : List Nat × Option Val => match e.2 with
        | none => Except.ok (none, none)
        | some v => match denseElem s site c (e.1 ++ batchIdx d c tk.b) with
          | .error w => .error w
          | .ok x => .ok (some (addAddend x.v v), x.mark)) (idx.zip vals) with
     | .error w => .error w
     | .ok l => .ok (l.map (·.1), firstMark (l.map (·.2))))
  | _, _ => .ok (vals, none)

/-- A list cut in rows of n. -/
def cutRows {α : Type} (n : Nat) : Nat → List α → List (List α)
  | 0, _ => []
  | k + 1, l => l.take n :: cutRows n k (l.drop n)

/-- The final values of a tile go through the output path at the cluster l (R111, R123). -/
def finishTile (s : State) (d : DRun) (l tile : Nat) (vals : List (Option LeafVal)) (bads : List Bool) : State :=
  match (tileRun d tile).head? with
  | none => s
  | some (rank, tk) =>
    let o : OutSite := { engine := l, home := homeOf d tile }
    if d.op = 0x10 then
      let z := reduceSizes d
      let w := z.headD 1
      let n := tk.m1 - tk.m0
      let fin (f : LeafVal → Val) (slot : Nat) (s : State) : State :=
        putRows s d o tile slot (((numsFrom tk.m0 n).zip (cutRows w n (vals.zip bads))).map fun e =>
          { outer := unlin (z.drop 1) e.1, c0 := 0, vals := e.2.map fun x => x.1.map fun v => (f v, x.2) })
      let s := if vals.any fun o => (o.map fun v => atLimit (leafFinal v)).getD false then
          modRun s d.ref fun x => { x with satPersist := x.satPersist || dRedKind d.raw == 0 }
        else s
      let s := fin (fun v => if dRedKind d.raw = 0 then scaleOut d.raw (leafFinal v) else leafFinal v) 2 s
      let s := if dRedKind d.raw = 0 then s
        else fin (fun v => match v with | .win _ i => .int (toSigned 32 i) | _ => .int 0) 6 s
      closeTile s d.ref tile
    else
      let w := if isProduct d.op then tk.n1 - tk.n0 else d.n
      let n := tk.m1 - tk.m0
      let c0 := if isProduct d.op then tk.n0 else 0
      let idx := (numsFrom tk.m0 n).flatMap fun i => (numsFrom c0 w).map fun j => [j, i]
      match addC s (memberSite s l) d tk idx (vals.map fun o => o.map leafFinal) with
      | .error w => ticketCause s d rank w
      | .ok (fs, m) =>
        let s := poisonCause s d rank m
        let s := if fs.any fun o => (o.map atLimit).getD false then modRun s d.ref fun x => { x with satPersist := true } else s
        let outer (i : Nat) : List Nat := if isProduct d.op then i :: unlin d.batch tk.b else [i]
        pathRows s d o tk (((numsFrom tk.m0 n).zip (cutRows w n (fs.zip bads))).map fun e =>
          { outer := outer e.1, c0 := c0, vals := e.2.map fun x => x.1.map fun v => (scaleOut d.raw v, x.2 || m.isSome) })

/-! ## MAX and MIN (R113 to R115) -/

/-- The leaf of a MAX or MIN ticket with the first poison read. -/
def winLeaf (s : State) (site : Site) (d : DRun) (tk : Ticket) : Except Why (List (Option LeafVal) × Mark) :=
  match reduceElems s site d tk with
  | .error w => .error w
  | .ok l =>
    let isMax := dRedKind d.raw == 1
    let start : LeafVal := .win (redIdentity (dRedKind d.raw) (match ten d 2 with | some t => t.ety | none => 0)) 0xFFFFFFFF
    .ok (l.map fun o => some (o.foldl (fun a e => leafCombine isMax a (.win e.2.v e.1)) start),
         firstMark (l.map fun o => firstMark (o.map fun e => e.2.mark)))

/-! ## TOPK and ROW_STATS (R197) -/

/-- The elements of rows and columns of a rank-2 tensor by row; only stored ones of a sparse tensor. -/
def rowElems (s : State) (site : Site) (t : TView) (m0 m1 n0 n1 : Nat) (sortedOnly : Bool) :
    Except Why (List (List (Nat × Elem))) :=
  match t.hdr with
  | none => mapE (fun i => mapE (fun c => match denseElem s site t [c, i] with
      | .error w => .error w
      | .ok e => .ok (c, e)) (numsFrom n0 (n1 - n0))) (numsFrom m0 (m1 - m0))
  | some h =>
    match hpfElems s site t h { sortedOnly := sortedOnly } ((fiberDim h).getD 0) [(n0, n1), (m0, m1)] with
    | .error w => .error w
    | .ok l => .ok ((numsFrom m0 (m1 - m0)).map fun i =>
        sortBy (fun a b : Nat × Elem => decide (a.1 < b.1))
          ((l.filter fun e => nth 0 e.1.idx 1 == i).map fun e => (nth 0 e.1.idx 0, e.2)))

/-- Whether one candidate ranks above another by value (R197). -/
def valBefore (a b : Val × Nat) : Bool :=
  let x := valNum a.1
  let y := valNum b.1
  if numIsNan x || numIsNan y then (numIsNan x && !numIsNan y) || (numIsNan x && numIsNan y && decide (a.2 < b.2))
  else numLt y x || (!numLt x y && decide (a.2 < b.2))

/-- The best k candidates of a row (R197). -/
def bestOf (d : DRun) (l : List Staged) : List Staged :=
  let lt (a b : Staged) : Bool := if var0 d.raw then magBefore (a.full, a.col) (b.full, b.col) else valBefore (a.full, a.col) (b.full, b.col)
  (sortBy lt l).take (dTopk d.raw)

/-- A row range's ranks written once every column tile has delivered its candidates (R197, R228). -/
def topkRoot (s : State) (d : DRun) (tk : Ticket) : State :=
  let mine := (d.tickets.filter fun t => t.rho == tk.rho).map (·.tile)
  if (mine.all fun t => d.rooted.contains t) = false then s
  else
    let h := nth 0 d.members (tk.rho % max 1 d.members.length)
    let o : OutSite := { engine := h, home := h }
    let ety := match ten d 2 with | some t => t.ety | none => 0
    let row (i : Nat) : List (Val × Nat × Bool) :=
      let cs := d.staged.filter fun e => e.row == i
      let bad := cs.any (·.bad)
      let best := (bestOf d cs).map fun e => (e.full, e.col, bad)
      best ++ List.replicate (dTopk d.raw - best.length) (redIdentity 1 ety, 0xFFFFFFFF, bad)
    let rows (f : Val × Nat × Bool → Val) : List OutRow := (numsFrom tk.m0 (tk.m1 - tk.m0)).map fun i =>
      { outer := [i], c0 := 0, vals := (row i).map fun e => some (f e, e.2.2) }
    let s := putRows s d o tk.tile 2 (rows (·.1))
    let s := putRows s d o tk.tile 6 (rows fun e => .int (toSigned 32 e.2.1))
    modRun s d.ref fun x => { x with staged := x.staged.filter fun e => e.rho != tk.rho }

/-- A ticket of TOPK: its candidates join those of its rows. -/
def runTopk (s : State) (site : Site) (d : DRun) (tk : Ticket) : Except Why (State × Mark) :=
  match ten d 0 with
  | none => .error badDesc
  | some x =>
    match rowElems s site x tk.m0 tk.m1 tk.n0 tk.n1 false with
    | .error w => .error w
    | .ok rs =>
      let cand := ((numsFrom tk.m0 rs.length).zip rs).flatMap fun e =>
        let bad := e.2.any fun c => c.2.mark.isSome
        bestOf d (e.2.map fun c => { rho := tk.rho, row := e.1, col := c.1, narrowed := c.2.v, full := c.2.v, bad := bad })
      let s := modRun s d.ref fun x => { x with staged := x.staged ++ cand, rooted := addOnce x.rooted tk.tile }
      let s := match findRun s d.ref with | some d => topkRoot s d tk | none => s
      .ok (closeTile s d.ref tk.tile, firstMark (rs.map fun r => firstMark (r.map fun e => e.2.mark)))

/-- A ticket of ROW_STATS. -/
def runRowStats (s : State) (site : Site) (d : DRun) (tk : Ticket) : Except Why (State × Mark) :=
  match ten d 0 with
  | none => .error badDesc
  | some x =>
    match rowElems s site x tk.m0 tk.m1 tk.n0 tk.n1 false with
    | .error w => .error w
    | .ok rs =>
      let s := noteStats s d 0 tk.rho tk.sigma tk.m0
        (rs.map fun r => rowStat (dRowStat d.raw) (r.map fun e => some (e.2.v, e.2.mark.isSome)))
      .ok (closeTile s d.ref tk.tile, firstMark (rs.map fun r => firstMark (r.map fun e => e.2.mark)))

/-! ## SPADD (R83, R84, R193) -/

/-- The combine functions of R84. -/
def mergeVal (code : Nat) (a b : Val) : Val :=
  let pick (other : Bool) : Val := if valIsNan a then a else if valIsNan b then b else if other then b else a
  match code with
  | 0 => match a, b with
    | .int x, .int y => .int (clampInt (-2147483648) 2147483647 (x + y))
    | _, _ => .num (f32Num (f32Add (f32Of (valNum a)) (f32Of (valNum b))))
  | 1 => pick (numLt (valNum a) (valNum b))
  | 2 => pick (numLt (valNum b) (valNum a))
  | _ => a

/-- Two sorted streams merged (R83): `n` bounds the steps. -/
def mergeRow (code : Nat) : Nat → List (Nat × Elem) → List (Nat × Elem) → List (Nat × Elem)
  | 0, _, _ => []
  | _ + 1, [], b => b
  | _ + 1, a, [] => a
  | n + 1, x :: a, y :: b =>
    if x.1 < y.1 then x :: mergeRow code n a (y :: b)
    else if y.1 < x.1 then y :: mergeRow code n (x :: a) b
    else (x.1, { v := mergeVal code x.2.v y.2.v, mark := orMark x.2.mark y.2.mark }) :: mergeRow code n a b

/-- A ticket of SPADD. A dense Y takes 0 where neither operand holds an entry. -/
def runSpadd (s : State) (site : Site) (d : DRun) (l : Nat) (tk : Ticket) : Except Why (State × Mark) :=
  match ten d 0, ten d 1, ten d 2 with
  | some a, some b, some y =>
    match rowElems s site a tk.m0 tk.m1 0 d.n true, rowElems s site b tk.m0 tk.m1 0 d.n true with
    | .error w, _ => .error w
    | _, .error w => .error w
    | .ok ra, .ok rb =>
      let rows := ((numsFrom tk.m0 (tk.m1 - tk.m0)).zip (ra.zip rb)).map fun e =>
        (e.1, mergeRow (dVariant d.raw % 4) (e.2.1.length + e.2.2.length + 1) e.2.1 e.2.2)
      let zero : Val := if d.isInt then .int 0 else .num numZero
      let out := rows.map fun e =>
        let bad := e.2.any fun x => x.2.mark.isSome
        ({ outer := [e.1], c0 := 0, vals := (numsFrom 0 d.n).map fun c =>
            match e.2.find? fun x => x.1 == c with
            | some x => some (scaleOut d.raw x.2.v, bad)
            | none => if y.fmt = 0 then some (scaleOut d.raw zero, bad) else none } : OutRow)
      .ok (pathRows s d { engine := l, home := homeOf d tk.tile } tk out,
           firstMark (rows.map fun e => firstMark (e.2.map fun x => x.2.mark)))
  | _, _, _ => .error badDesc

/-! ## GATHER (R194) -/

/-- The rows that a GATHER ticket copies: output row, table row, the index entry's poison. -/
def gatherRows (s : State) (site : Site) (d : DRun) (x : TView) (h : HpfHeader) (tk : Ticket) :
    Except Why (List (Nat × Nat × Mark)) :=
  match levelsOf s site x h with
  | .error w => .error w
  | .ok ls =>
    match ls.getLast? with
    | none => .ok []
    | some c =>
      match walkLevels s site x h { whole := true } (rowDim x) (fullRange h) ls.dropLast
          { idx := (fullRange h).map fun _ => 0, pos := 0, mark := none } with
      | .error w => .error w
      | .ok ps =>
        let slots := dParam0 d.raw
        let meets (p : Nat) : Bool := !(var0 d.raw) || (decide (p * slots < tk.m1) && decide (tk.m0 < p * slots + slots))
        match mapE (fun p : Entry => match children s site x h { whole := true } c p.pos 0 c.size with
            | .error w => .error w
            | .ok kids =>
              if var0 d.raw && decide (slots < kids.length) then .error badDesc
              else .ok (((numsFrom 0 kids.length).zip kids).map fun k =>
                (if var0 d.raw then p.pos * slots + k.1 else k.2.pos,
                 nth 0 p.idx c.dim * c.size + k.2.crd, orMark p.mark k.2.mark))) (ps.filter fun p => meets p.pos) with
        | .error w => .error w
        | .ok l => .ok (l.flatten.filter fun e => decide (tk.m0 ≤ e.1) && decide (e.1 < tk.m1))

/-- A ticket of GATHER. -/
def runGather (s : State) (site : Site) (d : DRun) (l : Nat) (tk : Ticket) : Except Why (State × Mark) :=
  match ten d 0, ten d 1 with
  | some x, some tb =>
    match x.hdr with
    | none => .error badDesc
    | some h =>
      match gatherRows s site d x h tk with
      | .error w => .error w
      | .ok rs =>
        match mapE (fun e : Nat × Nat × Mark => match tableRow s site tb d.n e.2.1 with
            | .error w => .error w
            | .ok r => .ok (e.1, r.map fun c => { c with mark := orMark e.2.2 c.mark })) rs with
        | .error w => .error w
        | .ok rows =>
          let n := tk.m1 - tk.m0
          let vis := (numsFrom tk.m0 n).flatMap fun i => match rows.find? fun e => e.1 == i with
            | some e => e.2.map fun c => ({ mark := c.mark } : Visit)
            | none => List.replicate d.n {}
          let bad := mmcPoison d.n 8 (n * d.n) [vis]
          let out := rows.map fun e =>
            let vals := ((numsFrom 0 e.2.length).zip e.2).map fun c => some (c.2.v, nth false bad ((e.1 - tk.m0) * d.n + c.1))
            ({ outer := [e.1], c0 := 0, vals := vals } : OutRow)
          .ok (pathRows s d { engine := l, home := homeOf d tk.tile } tk out,
               firstMark (rows.map fun e => firstMark (e.2.map (·.mark))))
  | _, _ => .error badDesc

/-! ## COPY, CONVERT, FILL, TRANSPOSE_COPY (R61 to R65, R198) -/

/-- The row parts of elements m0 to m1 - 1 in walk order of a shape: outer index, first column, count. A block of an MX
type belongs to the chunk that holds its first element. -/
def chunkRows (sizes : List Nat) (mx : Bool) (m0 m1 : Nat) : List (List Nat × Nat × Nat) :=
  let n := sizes.headD 0
  if m1 ≤ m0 ∨ n = 0 then []
  else
    ((numsFrom (m0 / n) ((m1 - 1) / n + 1 - m0 / n)).map fun r =>
      let a := m0 - r * n
      let z := min n (m1 - r * n)
      let a := if mx then alignUp a 32 else a
      let z := if mx then min n (alignUp z 32) else z
      (unlin (sizes.drop 1) r, a, z - a)).filter fun e => e.2.2 != 0

/-- The elements that a CONVERT of a tensor with arrays delivers (R62 to R65): each coordinate once, its repeated values
summed, with whether it was repeated. -/
def convElems (s : State) (site : Site) (x : TView) : Except Why (List (List Nat × Val × Mark × Bool)) :=
  match tvElems s site x with
  | .error w => .error w
  | .ok l =>
    let isInt := etyIsInt (etyOf x)
    let same (i : List Nat) : List Elem := (l.filter fun e => e.1 == i).map (·.2)
    let first := (numsFrom 0 l.length).zip l |>.filter fun e => !((l.take e.1).any fun f => f.1 == e.2.1)
    .ok (first.map fun e =>
      let g := same e.2.1
      let v0 := e.2.2.v
      let v := if g.length ≤ 1 then v0
        else if isInt then .int ((g.drop 1).foldl (fun a x => i64Add a (match x.v with | .int y => y | .num _ => 0)) (match v0 with | .int y => y | .num _ => 0))
        else .num (f32Num ((g.drop 1).foldl (fun a x => f32Of (numAdd (f32Num a) (valNum x.v))) (f32Of (valNum v0))))
      (e.2.1, v, firstMark (g.map (·.mark)), decide (1 < g.length)))

/-- The value that a copy opcode takes to an index of a dense destination. -/
def moveElem (s : State) (site : Site) (x : TView) (conv : List (List Nat × Val × Mark × Bool)) (idx : List Nat) :
    Except Why Elem :=
  if x.fmt = 0 then denseElem s site x idx
  else .ok (match conv.find? fun e => e.1 == idx with
    | some e => { v := e.2.1, mark := e.2.2.1 }
    | none => { v := if etyIsInt (etyOf x) then .int 0 else .num numZero, mark := none })

/-- The entries that a 160-row range of a sparse CONVERT keeps (R63, R64). -/
def convStaged (s : State) (site : Site) (x : TView) (conv : List (List Nat × Val × Mark × Bool)) (tk : Ticket) :
    Except Why (List Staged × Mark) :=
  let up := x.sizes.drop 1
  let all : Except Why (List (List Nat × Val × Mark × Bool)) :=
    if x.fmt = 0 then
      mapE (fun i => match denseElem s site x i with
        | .error w => .error w
        | .ok e => .ok (i, e.v, e.mark, false))
        ((numsFrom tk.m0 (tk.m1 - tk.m0)).flatMap fun r => (numsFrom 0 (x.sizes.headD 0)).map fun c => c :: unlin up r)
    else .ok (conv.filter fun e => decide (tk.m0 ≤ rowNumber (e.1.drop 1) up) && decide (rowNumber (e.1.drop 1) up < tk.m1))
  match all with
  | .error w => .error w
  | .ok l => .ok ((l.filter fun e => e.2.2.2 || !valIsZero e.2.1).map fun e =>
      { rho := tk.rho, row := rowNumber (e.1.drop 1) up, col := e.1.headD 0, narrowed := e.2.1, full := e.2.1,
        bad := e.2.2.1.isSome }, firstMark (l.map fun e => e.2.2.1))

/-- A ticket of COPY or CONVERT. -/
def runMove (s : State) (site : Site) (d : DRun) (l : Nat) (tk : Ticket) : Except Why (State × Mark) :=
  match ten d 0, ten d 2 with
  | some x, some y =>
    match (if x.fmt = 0 ∨ d.op = 0x1A then .ok [] else convElems s site x) with
    | .error w => .error w
    | .ok conv =>
      if y.fmt = 0 then
        match mapE (fun e : List Nat × Nat × Nat => match mapE (fun c => moveElem s site x conv (c :: e.1)) (numsFrom e.2.1 e.2.2) with
            | .error w => .error w
            | .ok r => .ok (e, r)) (chunkRows x.sizes (etyIsMx y.ety) tk.m0 tk.m1) with
        | .error w => .error w
        | .ok rs =>
          let s := putRows s d { engine := l, home := homeOf d tk.tile } tk.tile 2
            (rs.map fun e => { outer := e.1.1, c0 := e.1.2.1, vals := e.2.map fun c => some (c.v, c.mark.isSome) })
          .ok (closeTile s d.ref tk.tile, firstMark (rs.map fun e => firstMark (e.2.map (·.mark))))
      else if d.op = 0x1A then .ok (closeTile s d.ref tk.tile, none)
      else
        match convStaged s site x conv tk with
        | .error w => .error w
        | .ok (st, m) =>
          .ok (closeTile (modRun s d.ref fun r => { r with staged := r.staged ++ st }) d.ref tk.tile, m)
  | _, _ => .error badDesc

/-- FILL's element bits and scale byte (R198). -/
def fillBits (d : DRun) (ety : Nat) : Nat := dParam0 d.raw % 2 ^ etyBits ety
def fillScale (d : DRun) : Nat := bits (dParam0 d.raw) 15 8

/-- A ticket of FILL on a dense tensor. -/
def runFill (s : State) (d : DRun) (l : Nat) (tk : Ticket) : State :=
  match ten d 2 with
  | none => s
  | some y =>
    if y.fmt ≠ 0 then closeTile s d.ref tk.tile
    else
      let w := etyBits y.ety
      let els := (chunkRows y.sizes false tk.m0 tk.m1).flatMap fun e => (numsFrom e.2.1 e.2.2).map fun c =>
        ({ off := denseOff y.strides (c :: e.1) * (w : Int), w := w, v := fillBits d y.ety, bad := false } : OutBits)
      let scs := if etyIsMx y.ety then
          (chunkRows y.sizes true tk.m0 tk.m1).flatMap fun e => (numsFrom 0 (ceilDiv e.2.2 32)).map fun i =>
            ({ off := 8 * (scaleOff y.ety y.sizes ((e.2.1 + 32 * i) :: e.1) : Nat), w := 8, v := fillScale d, bad := false } : OutBits)
        else []
      closeTile (emitBits s d.ref { engine := l, home := homeOf d tk.tile } y (els ++ scs)) d.ref tk.tile

/-- A block of the destination of a TRANSPOSE_COPY as rows, read from the source (R198). -/
def transposeBlock (s : State) (site : Site) (x y : TView) (m0 m1 n0 n1 : Nat) : Except Why (List OutRow × Mark) :=
  let outers := (walkIdx (y.sizes.drop 2)).flatMap fun u => (numsFrom m0 (m1 - m0)).map fun i => i :: u
  match mapE (fun o : List Nat => match mapE (fun c => denseElem s site x (o.headD 0 :: c :: o.drop 1)) (numsFrom n0 (n1 - n0)) with
      | .error w => .error w
      | .ok r => .ok (o, r)) outers with
  | .error w => .error w
  | .ok rs => .ok (rs.map fun e => { outer := e.1, c0 := n0, vals := e.2.map fun c => some (c.v, c.mark.isSome) },
                   firstMark (rs.map fun e => firstMark (e.2.map (·.mark))))

/-- A ticket of TRANSPOSE_COPY; in place, a pair of blocks is read before either is written (R152). -/
def runTranspose (s : State) (site : Site) (d : DRun) (l : Nat) (tk : Ticket) : Except Why (State × Mark) :=
  match ten d 0, ten d 2 with
  | some x, some y =>
    let o (t : Nat) : OutSite := { engine := l, home := homeOf d t }
    if inPlace d then
      if tk.sigma < tk.rho then .ok (closeTile s d.ref tk.tile, none)
      else
        match transposeBlock s site x y tk.m0 tk.m1 tk.n0 tk.n1, transposeBlock s site x y tk.n0 tk.n1 tk.m0 tk.m1 with
        | .error w, _ => .error w
        | _, .error w => .error w
        | .ok (a, ma), .ok (b, mb) =>
          let mate := ((d.tickets.find? fun t => t.rho == tk.sigma && t.sigma == tk.rho).map (·.tile)).getD tk.tile
          let s := putRows s d (o tk.tile) tk.tile 2 a
          let s := if tk.rho = tk.sigma then s else putRows s d (o mate) mate 2 b
          .ok (closeTile s d.ref tk.tile, orMark ma mb)
    else
      match transposeBlock s site x y tk.m0 tk.m1 tk.n0 tk.n1 with
      | .error w => .error w
      | .ok (a, m) => .ok (closeTile (putRows s d (o tk.tile) tk.tile 2 a) d.ref tk.tile, m)
  | _, _ => .error badDesc

/-! ## ROUTE (R195, R196) -/

/-- A run of ROUTE: the keys of local experts with their gate values. -/
def runRoute (s : State) (site : Site) (d : DRun) (tk : Ticket) : Except Why (State × Mark) :=
  match ten d 0, ten d 1 with
  | some x, some g =>
    let n := prodNat x.sizes
    let keys := numsFrom tk.m0 (min tk.m1 n - tk.m0)
    match mapE (fun e => match denseElem s site x (unlin x.sizes e) with
        | .error w => .error w
        | .ok v =>
          let ix := match v.v with | .int i => ofSigned 32 i | .num _ => 0
          if routeTotal d.raw ≤ ix then .error badDesc
          else if routeFirst d.raw ≤ ix ∧ ix < routeFirst d.raw + routeCount d.raw then
            match denseElem s site g (unlin x.sizes e) with
            | .error w => .error w
            | .ok q => .ok (some ({ rho := tk.rho, row := ix, col := e, narrowed := q.v, full := q.v,
                                    bad := (orMark v.mark q.mark).isSome } : Staged), orMark v.mark q.mark)
          else .ok (none, v.mark)) keys with
    | .error w => .error w
    | .ok l =>
      let s := modRun s d.ref fun r => { r with staged := r.staged ++ l.filterMap (·.1) }
      .ok (closeTile s d.ref tk.tile, firstMark (l.map (·.2)))
  | _, _ => .error badDesc

/-! ## Any ticket that does not accumulate -/

/-- What a ticket of a non-accumulating opcode does, with the first poison it read. -/
def runDirect (s : State) (l : Nat) (d : DRun) (tk : Ticket) : Except Why (State × Mark) :=
  let site := memberSite s l
  match d.op with
  | 0x05 => runSpadd s site d l tk
  | 0x08 => runGather s site d l tk
  | 0x0B => runRoute s site d tk
  | 0x11 => runTopk s site d tk
  | 0x12 => runRowStats s site d tk
  | 0x19 => runTranspose s site d l tk
  | 0x1B => .ok (runFill s d l tk, none)
  | _ => runMove s site d l tk

/-! ## The phases of R121 -/

/-- The staged entries that are kept at the end (R120, R121): top-k candidates merged over column tiles. -/
def finalStaged (d : DRun) : List Staged :=
  if dCompress d.raw = 2 then
    (dedup (d.staged.map (·.row))).flatMap fun r =>
      (sortBy (fun a b : Staged => magBefore (a.narrowed, a.col) (b.narrowed, b.col))
        (d.staged.filter fun e => e.row == r)).take (dTopk d.raw)
  else d.staged

/-- The count of a row range (R121): kept entries and segment granules. -/
def rangeCount (d : DRun) (l : List Staged) (rho : Nat) : Nat × Nat × Nat :=
  let wide := match ten d 2 with | some y => (match y.hdr with | some h => h.wide | none => false) | none => false
  let mine := l.filter fun e => e.rho == rho
  let rows := dedup (mine.map (·.row))
  (rho, mine.length, sumNat (rows.map fun r =>
    (fiberRecords wide 0 ((sortBy (fun a b : Staged => decide (a.col < b.col)) (mine.filter fun e => e.row == r)).map
      fun e => (e.col, e.bad))).1.length / 64))

/-- The fields of a value array at its offset, without padding (R45, R191). -/
def valueFields (ety valOff : Nat) (l : List (Option Val × Bool)) : List OutBits :=
  let w := etyBits ety
  if etyIsMx ety then
    let bs := blocks32 l (l.length + 1)
    ((numsFrom 0 bs.length).zip bs).flatMap fun b =>
      let (sc, es) := mxBlock ety (b.2.map fun x => x.1.map valNum)
      let bad := b.2.any (·.2)
      ((numsFrom (32 * b.1) es.length).zip es).map (fun e => ({ off := (8 * valOff + e.1 * w : Nat), w := w, v := e.2, bad := bad } : OutBits)) ++
        [{ off := (8 * (valOff + scaleBase ety l.length + b.1) : Nat), w := 8, v := sc, bad := bad }]
  else
    ((numsFrom 0 l.length).zip l).map fun e =>
      { off := (8 * valOff + e.1 * w : Nat), w := w, v := match e.2.1 with | some v => narrowBits ety v | none => 0, bad := e.2.2 }

/-- Every position of a tensor's last level with its index, ascending. -/
def allPositions (s : State) (site : Site) (t : TView) (h : HpfHeader) : Except Why (List Entry) :=
  match hpfEntries s site t h { whole := true } ((fiberDim h).getD 0) (fullRange h) with
  | .error w => .error w
  | .ok l => .ok (sortBy (fun a b : Entry => decide (a.pos < b.pos)) l)

/-- Header and arrays of a sparse tensor other than the value array, as bytes at their offsets (R191, R198). -/
def arrayBytes (s : State) (site : Site) (t : TView) (rs : List (Nat × Nat)) : Except Why (List (Int × (Byte × Bool)) × Mark) :=
  match mapE (fun e : Nat × Nat => match tvRead s site t (e.1 : Int) e.2 with
      | .error w => .error w
      | .ok (b, m) => .ok (((numsFrom e.1 b.length).zip b).map fun x => ((x.1 : Int), (x.2, m.isSome)), m)) rs with
  | .error w => .error w
  | .ok l => .ok ((l.map (·.1)).flatten, firstMark (l.map (·.2)))

/-- What R56 marks in the copied arrays of a poisoned SDDMM output in S's format: byte offsets that become poisoned, and
segment headers whose POISON bit is set. -/
def sddmmMarks (h : HpfHeader) (ls : List Level) (bad : List Entry) : List (Int × (Byte → Byte × Bool)) :=
  match (ls.filter fun l => l.kind != 0).getLast? with
  | none => []
  | some l =>
    (dedup (bad.map (·.seg))).flatMap fun g =>
      if l.kind = 1 then [(((h.segOff + 64 * g + 9 : Nat) : Int), fun b => (b ||| 0x10, false))]
      else
        let per := groupsOf h 2 l.size
        [(((l.sub + 8 * g : Nat) : Int), fun b => (b, true)),
         (((l.sub + alignUp (8 * (l.parents * per)) 64 + 64 * g : Nat) : Int), fun b => (b, true))]

/-- An SDDMM output in S's own format (R191, R56). -/
def placeSddmm (s : State) (d : DRun) (y x : TView) (h : HpfHeader) : Except Why (State × Mark) :=
  let hm := d.members.headD 0
  let site := memberSite s hm
  match levelsOf s site x h, arrayRanges s site x h, allPositions s site x h with
  | .error w, _, _ => .error w
  | _, .error w, _ => .error w
  | _, _, .error w => .error w
  | .ok ls, .ok rs, .ok ps =>
    match arrayBytes s site x ((0, 64) :: rs.take 3) with
    | .error w => .error w
    | .ok (bytes, m) =>
      let find (e : Entry) : Option Staged := if e.tail then none
        else d.staged.find? fun q => q.col == nth 0 e.idx 0 && q.row == nth 0 e.idx 1
      let marks := sddmmMarks h ls (ps.filter fun e => ((find e).map (·.bad)).getD false)
      let bytes := bytes.map fun b =>
        let b := if b.1 = 4 then (b.1, (BitVec.ofNat 8 (field (bits b.2.1.toNat 7 4) 4 + y.ety), b.2.2)) else b
        match marks.find? fun e => e.1 == b.1 with
        | some e => (b.1, ((e.2 b.2.1).1, b.2.2 || (e.2 b.2.1).2))
        | none => b
      let o : OutSite := { engine := hm, home := hm }
      let s := emitBytes s d.ref o y bytes
      .ok (emitBits s d.ref o y (valueFields y.ety h.valOff (ps.map fun e => match find e with
        | some q => (some q.full, q.bad)
        | none => (none, false))), m)

/-- One routed key's entries (R195): token, gate, poison; where it went: slot r of the dispatch fiber, or overflow. -/
structure Routed where
  e : Nat
  t : Nat
  gate : F32
  bad : Bool
  slot : Option Nat
deriving DecidableEq, Repr

/-- The routing of the sorted keys of one expert (R195). -/
def routeExpert (k cap : Nat) (l : List Staged) : List Routed :=
  (l.foldl (fun (a : List Routed × Nat) q =>
    let t := q.col / max 1 k
    if a.1.any fun x => x.t == t then
      (a.1.map fun x => if x.t = t then { x with gate := f32Add x.gate (f32Of (valNum q.full)), bad := x.bad || q.bad } else x, a.2)
    else if a.2 < cap then (a.1 ++ [{ e := q.row, t := t, gate := f32Of (valNum q.full), bad := q.bad, slot := some a.2 }], a.2 + 1)
    else (a.1 ++ [{ e := q.row, t := t, gate := f32Of (valNum q.full), bad := q.bad, slot := none }], a.2)) ([], 0)).1

/-- ROUTE's outputs (R195, R196): dispatch, combine and overflow fibers and the shape records. -/
def placeRoute (s : State) (d : DRun) : State :=
  let k := d.n
  let t := d.m
  let f := routeFirst d.raw
  let n := routeCount d.raw
  let cap := ceilDiv (t * k * routeCf d.raw) (256 * routeTotal d.raw)
  let keys := sortBy (fun a b : Staged => decide (a.row < b.row) || (a.row == b.row && decide (a.col < b.col))) d.staged
  let rs := (numsFrom f n).flatMap fun e => routeExpert k cap (keys.filter fun q => q.row == e)
  let val (r : Routed) : Option Val := some (.num (f32Num r.gate))
  let kept := rs.filterMap fun r => r.slot.map fun i => (r, i)
  let put (s : State) (slot : Nat) (sizes : List Nat) (es : List HEntry) : State := match ten d slot with
    | some y => (match y.hdr with | some h => emitImage s d y (buildHpf h sizes es) | none => s)
    | none => s
  let s := put s 2 [n, t] (kept.map fun e => { idx := [e.1.t, e.1.e - f], v := val e.1, bad := e.1.bad })
  let s := put s 3 [t, n * cap] (kept.map fun e => { idx := [(e.1.e - f) * cap + e.2, e.1.t], v := val e.1, bad := e.1.bad })
  let s := put s 6 [n, t] ((rs.filter fun r => r.slot.isNone).map fun r => { idx := [r.t, r.e - f], v := val r, bad := r.bad })
  match ten d 7 with
  | none => s
  | some y =>
    let h := d.members.headD 0
    emitBytes s d.ref { engine := h, home := h } y ((numsFrom 0 n).flatMap fun e =>
      let r := (kept.filter fun x => x.1.e == f + e).length
      let recd := leBytes 4 0xFFFFFFFF ++ leBytes 4 r ++ leBytes 12 (2 ^ 96 - 1)
      ((numsFrom (32 * e) 20).zip recd).map fun b => ((b.1 : Int), (b.2, false)))

/-- A sparse COPY (R198): header and arrays unchanged. -/
def placeCopy (s : State) (d : DRun) (x y : TView) : Except Why (State × Mark) :=
  match x.hdr with
  | none => .error badDesc
  | some h =>
    let hm := d.members.headD 0
    let site := memberSite s hm
    match arrayRanges s site x h with
    | .error w => .error w
    | .ok rs =>
      match arrayBytes s site x ((0, 64) :: rs) with
      | .error w => .error w
      | .ok (b, m) => .ok (emitBytes s d.ref { engine := hm, home := hm } y b, m)

/-- A sparse FILL (R198): every stored value, a tail slot 0, and every scale of an MX type. -/
def placeFill (s : State) (d : DRun) (y : TView) : Except Why (State × Mark) :=
  match y.hdr with
  | none => .error badDesc
  | some h =>
    let hm := d.members.headD 0
    match allPositions s (memberSite s hm) y h with
    | .error w => .error w
    | .ok ps =>
      let w := etyBits h.ety
      let els := ((numsFrom 0 ps.length).zip ps).map fun e =>
        ({ off := (8 * h.valOff + e.1 * w : Nat), w := w, v := if e.2.tail then 0 else fillBits d h.ety, bad := false } : OutBits)
      let scs := if etyIsMx h.ety then
          (numsFrom 0 (ceilDiv ps.length 32)).map fun i =>
            ({ off := (8 * (h.valOff + scaleBase h.ety ps.length + i) : Nat), w := 8, v := fillScale d, bad := false } : OutBits)
        else []
      .ok (emitBits s d.ref { engine := hm, home := hm } y (els ++ scs), none)

/-- The sparse or exchange image of a CONVERT, a compressor output or an SPADD (R61, R63, R64, R121, R495). -/
def placeImage (s : State) (d : DRun) (y : TView) : State :=
  let st := finalStaged d
  match y.hdr, y.xhdr with
  | some h, _ =>
    if d.op = 0x18 then
      let st := if y.fmt = 6 then keepNm (nmOf h.nm).1 (nmOf h.nm).2 st else st
      emitImage s d y (buildHpf h h.sizes (stagedEntries y.sizes st))
    else emitImage s d y (buildHpf h [d.m, d.n] (stagedEntries [d.n, d.m] st))
  | none, some x => emitImage s d y (buildExchange x (stagedEntries y.sizes st))
  | none, none => s

/-- The placement phase of a descriptor (R121). -/
def placeOutput (s : State) (d : DRun) : Except Why (State × Mark) :=
  match d.op, ten d 0, ten d 2, ten d 3 with
  | 0x0B, _, _, _ => .ok (placeRoute s d, none)
  | 0x1A, some x, some y, _ => placeCopy s d x y
  | 0x1B, _, some y, _ => placeFill s d y
  | 0x03, _, some y, some x => (match x.hdr with | some h => placeSddmm s d y x h | none => .error badDesc)
  | _, _, some y, _ => .ok (placeImage s d y, none)
  | _, _, _, _ => .error badDesc

end Sys2Proof.Machine
end

