-- ==== Sys2Proof/Machine/Certs.lean ====
section
/-! DEFINITION. Certificates and the bundle (14 R430 to R436), and the peer key slots of the configuration block (12 R373). -/

namespace Sys2Proof.Machine

/-- SHAKE256 with 512 bits of output. -/
def shake512 (l : List Byte) : List Byte := Config.shake256 64 l

/-- The certificate of a kind in a bundle (R434): kinds 1 to 4. -/
def certOf (b : List Byte) (kind : Nat) : List Byte := (b.drop (2112 + 5376 * (kind - 1))).take 5376

/-- KEY_LEN bytes of KEY (R435): 1,952 for ML-DSA-65, 1,184 for ML-KEM-768. -/
def certKey (b : List Byte) (kind : Nat) : List Byte := ((certOf b kind).drop 96).take (if kind = 3 then 1184 else 1952)

/-- The vendor root key of a bundle (R434). -/
def rootKey (b : List Byte) : List Byte := (b.drop 64).take 1952

/-- The issuer's key of a kind (R435). -/
def issuerKey (b : List Byte) (kind : Nat) : List Byte :=
  if kind = 1 then rootKey b else if kind = 3 then certKey b 2 else certKey b 1

/-- The checks of R435 on one certificate. -/
def certOk (b : List Byte) (kind : Nat) : Bool :=
  let c := certOf b kind
  leAt c 0 4 == 0x5443534C && leAt c 4 1 == kind && leAt c 5 1 == (if kind = 3 then 2 else 1) &&
  leAt c 6 2 == (if kind = 3 then 1184 else 1952) && (c.drop 32).take 64 == shake512 (issuerKey b kind) &&
  Config.mlDsaVerify (issuerKey b kind) (c.take 2048) ((c.drop 2048).take 3309) "AS2-CERT"

/-- SUBJECT_SN of a certificate. -/
def certSn (b : List Byte) (kind : Nat) : List Byte := ((certOf b kind).drop 8).take 16

/-- The verification of a bundle up to the vendor root (R435). -/
def bundleOk (b : List Byte) : Bool :=
  shake512 (rootKey b) == Config.romRootDigest && leAt b 0 4 == 0x444E4253 && leAt b 4 4 == 1 &&
  certOk b 1 && certOk b 2 && certOk b 3 && certOk b 4 &&
  certSn b 2 == (b.drop 8).take 16 && certSn b 3 == (b.drop 8).take 16 && certSn b 4 == (b.drop 8).take 16

/-- The digest of a module's identity key (R436). -/
def idDigest (b : List Byte) : List Byte := shake512 (certKey b 2)

/-- Block offset of a peer key slot (R373). -/
def slotEntry (i : Nat) : Nat := 0x11000 + 128 * i

/-- The digest of a valid peer key slot. -/
def slotDigest (s : State) (i : Nat) : Option (List Byte) :=
  if i < 64 ∧ bit (cfgField s (slotEntry i) 1) 0 then some (cfgBytes s (slotEntry i + 64) 64) else none

/-- The key slot digest that the live group table names for a rank (R350, R351). -/
def rankDigest (s : State) (d : Nat) : Option (List Byte) :=
  match tblFind s.peers.routes d with
  | none => none
  | some r => slotDigest s r.keySlot

end Sys2Proof.Machine
end

