-- ==== Sys2Proof/Machine/Sessions.lean ====
section
/-! DEFINITION. Sessions of the host port and the messages that serve both links: KEY_INIT (10 R323 to R327), closing
(R328), ACK, PING, retransmission, abandonment and notices (R318 to R322). -/

namespace Sys2Proof.Machine

/-! ## KEY_INIT -/

/-- A KEY_REPLY of OP HELLO without a bundle part (R325): OP, STATUS, and zeros. -/
def helloError (status : Nat) : List Byte := leBytes 1 0 ++ leBytes 1 status ++ leBytes 2 0 ++ leBytes 40 0

/-- A KEY_REPLY of OP ENCAP or CLOSE that opens nothing (R325): SESSION 0xFF. -/
def encapError (op status : Nat) : List Byte := leBytes 1 op ++ leBytes 1 status ++ leBytes 1 0xFF ++ leBytes 37 0

/-- Checks 1, 3, 5 and 6 of R317 on a KEY_INIT before a session exists (R324, R325): 0 when all pass. Before READY no
age is checked, since MT is not yet PTP time (R285, R343). -/
def openCheck (s : State) (lk : Link) (d : Datagram) (typ : Nat) : Nat :=
  if d.version ≠ 1 ∨ d.peer ≠ linkPeer lk ∨ d.body.length > 8272 then 1
  else if d.tag ≠ openTag (dgHeader d) d.body then 3
  else if isReady s && !ageOk lk (now s) d.mt then 5
  else if d.typ ≠ typ then 6
  else 0

/-- The common part of a KEY_INIT body is well formed (R325, R326). -/
def keyInitOk (d : Datagram) (op len : Nat) : Bool :=
  d.session == 0xFF && d.body.length == len && leAt d.body 0 1 == op && decide (leAt d.body 1 1 ≤ 31) &&
  decide (leAt d.body 2 1 ≤ 1) && leAt d.body 3 1 == 0

/-- The parts of a KEY_REPLY HELLO: up to 8,192 bytes of the bundle each (R324, R325). -/
def helloParts (nonceM bundle : List Byte) (off part parts : Nat) : Nat → List (List Byte)
  | 0 => []
  | k + 1 =>
    (leBytes 1 0 ++ leBytes 1 0 ++ leBytes 1 part ++ leBytes 1 parts ++ nonceM ++ leBytes 4 bundle.length ++
      leBytes 4 off ++ (bundle.drop off).take 8192) :: helloParts nonceM bundle (off + 8192) (part + 1) parts k

/-- Every part of the answer to a HELLO, sent in order. -/
def sendHelloParts (s : State) (lk : Link) (nonceM : List Byte) : State :=
  let b := bundleBytes s
  let n := max 1 (ceilDiv b.length 8192)
  (helloParts nonceM b 0 0 n n).foldl (fun s x => sendOpen s lk 0x71 x) s

/-- Nonces still valid: issued within the last 1 s (R324). -/
def freshNonces (t : Nat) (l : List (List Byte × Nat)) : List (List Byte × Nat) :=
  l.filter fun e => decide (t ≤ e.2 + 2500000000)

/-- KEY_INIT_HELLO (R324): a HELLO of a valid key is answered with a fresh NONCE_M and the bundle in parts. At most
1,000 are answered per second, and at most 256 nonces held, the oldest leaving first (log 15). -/
def execKeyInitHello (t : Nat) (d : Datagram) (nonce : List Byte) (s : State) : Host.Outcome State Fault Refusal :=
  let s := atMt s t
  if !linkUp s .host then .next s
  else
    let s := countRx s .host
    let c := openCheck s .host d 0x70
    if c ≠ 0 then .next (impDrop s .host c)
    else if !isReady s then .next (sendOpen s .host 0x71 (helloError 5))
    else if !keyInitOk d 0 36 || !keyValid s (leAt d.body 1 1) then .next (sendOpen s .host 0x71 (helloError 1))
    else
      let recent := s.host.helloTimes.filter fun x => decide (now s < x + 2500000000)
      if recent.length ≥ 1000 then .next s
      else
        let s := modHost s fun h => { h with helloTimes := now s :: recent,
                                             nonces := (nonce, now s) :: (freshNonces (now s) h.nonces).take 255 }
        .next (sendHelloParts s .host nonce)

/-- The first free session number above the one last assigned, wrapping (R323). -/
def freeNumber (s : State) : Option Nat :=
  ((numsFrom 1 64).map fun i => (s.host.lastNum + i) % 64).find? fun n => !(s.host.sessions.any fun x => x.num == n)

/-- A session's keys cut from the 136 derived bytes (R327), as the module sees them when it is the responder. -/
def withKeys (se : Session) (k : List Byte) : Session :=
  { se with tagRx := k.take 32, tagTx := (k.drop 32).take 32, encRx := (k.drop 64).take 32,
            encTx := (k.drop 96).take 32, saltRx := (k.drop 128).take 4, saltTx := (k.drop 132).take 4 }

/-- The keys of a shared secret over a transcript (R327). -/
def deriveKeys (secret tr : List Byte) : List Byte := Config.kmac256 136 secret tr "IMP-KDF"

/-- KEY_INIT_ENCAP (R323, R324, R327): nonce, signature and free number are checked in that order; the keys are
derived, an older session of the key closes, the session opens and KEY_REPLY with CONFIRM goes out under its tag. -/
def execKeyInitEncap (t : Nat) (d : Datagram) (s : State) : Host.Outcome State Fault Refusal :=
  let s := atMt s t
  if !linkUp s .host then .next s
  else
    let s := countRx s .host
    let c := openCheck s .host d 0x70
    if c ≠ 0 then .next (impDrop s .host c)
    else
      let refuse (s : State) (status : Nat) : Host.Outcome State Fault Refusal :=
        .next (sendOpen s .host 0x71 (encapError 1 status))
      let ki := leAt d.body 1 1
      if !isReady s then refuse s 5
      else if !keyInitOk d 1 4465 || !keyValid s ki then refuse s 1
      else
        let nonceH := (d.body.drop 4).take 32
        let nonceM := (d.body.drop 36).take 32
        if !((freshNonces (now s) s.host.nonces).any fun e => e.1 == nonceM) then refuse s 3
        else
          let s := modHost s fun h => { h with nonces := h.nonces.filter fun e => e.1 != nonceM }
          let ct := (d.body.drop 68).take 1088
          let enc := leAt d.body 2 1
          let tr := transcript s nonceH nonceM ki enc ct
          if !Config.mlDsaVerify (keyPublic s ki) tr ((d.body.drop 1156).take 3309) "IMP-KEY_INIT" then refuse s 2
          else
            let old := s.host.sessions.filter fun x => x.key == ki
            if old.isEmpty && decide (s.host.sessions.length ≥ 64) then refuse s 4
            else
              let s := old.foldl (fun s x => closeSession s x.num) s
              match freeNumber s with
              | none => refuse s 4
              | some num =>
                let gen := (s.host.genCount + 1) % 2 ^ 32
                let keys := deriveKeys (Config.mlKemDecap s.sec.kemSeed ct) tr
                let se := withKeys { num := num, gen := gen, key := ki, enc := enc == 1, lastRx := now s } keys
                let s := modHost s fun h => { h with sessions := h.sessions ++ [se], lastNum := num, genCount := gen }
                let confirm := Config.kmac256 32 se.tagTx tr "IMP-CONFIRM"
                .next (sendPlain s .host num 0x71
                  (leBytes 1 1 ++ leBytes 1 0 ++ leBytes 1 num ++ leBytes 1 0 ++ leBytes 4 gen ++ confirm) false)

/-- KEY_INIT_CLOSE (R325, R328): sent under the session's tag; answered with KEY_REPLY CLOSE, STATUS 0, and the session
closes. -/
def execKeyInitClose (t : Nat) (d : Datagram) (s : State) : Host.Outcome State Fault Refusal :=
  match receive (atMt s t) .host d 0x70 false false with
  | (s, .drop) => .next s
  | (s, .act se body) =>
    if leAt body 0 1 = 2 then
      let s := sendPlain s .host se.num 0x71
        (leBytes 1 2 ++ leBytes 1 0 ++ leBytes 1 se.num ++ leBytes 1 0 ++ leBytes 4 se.gen) false
      .next (closeSession s se.num)
    else .next (sendOpen s .host 0x71 (encapError 2 1))

/-- SESSION_IDLE_TIMEOUT (R328): 5 s without an accepted message. -/
def execSessionIdleTimeout (t session : Nat) (s : State) : Host.Outcome State Fault Refusal :=
  let s := atMt s t
  match findSess s .host session with
  | none => .next s
  | some se => if se.lastRx + 12500000000 ≤ now s then .next (closeSession s session) else .next s

/-! ## ACK, PING, timers -/

/-- ACK (R319, R320): acknowledged messages leave the held list, and the round-trip estimate is updated. -/
def execAck (t : Nat) (lk : Link) (d : Datagram) (s : State) : Host.Outcome State Fault Refusal :=
  match receive (atMt s t) lk d 0x60 false false with
  | (s, .drop) => .next s
  | (s, .act se body) =>
    let s := modSess s lk se.num (takeAck (now s) body)
    .next (flushHeld s lk se.num 4096)

/-- PING (R329, R348): answered with RESPONSE set and the same 8-byte body; a PING reply is only received. -/
def execPing (t : Nat) (lk : Link) (d : Datagram) (s : State) : Host.Outcome State Fault Refusal :=
  match receive (atMt s t) lk d 0x7F false false with
  | (s, .drop) => .next s
  | (s, .act se body) =>
    if d.response || body.length != 8 then .next s else .next (sendPlain s lk se.num 0x7F body true)

/-- RETRANSMIT_TIMEOUT (R320): SEQ, MT and body are repeated under a new XMIT, and the timeout doubles up to 2 ms. -/
def execRetransmitTimeout (t : Nat) (lk : Link) (session seq : Nat) (s : State) : Host.Outcome State Fault Refusal :=
  let s := atMt s t
  match findSess s lk session with
  | none => .next s
  | some se =>
    match se.held.find? fun h => h.seq == seq && h.tries != 0 with
    | none => .next s
    | some h =>
      if linkUp s lk && decide (h.lastTx + h.timeout ≤ now s) then
        let h' := { h with lastTx := now s, timeout := min 5000000 (2 * h.timeout), tries := h.tries + 1 }
        let se := { se with held := se.held.map fun x => if x.seq = seq then h' else x }
        .next (transmit (putSess s lk se) lk se h.typ h.body h.repeatBit false seq h.firstTx)
      else .next s

/-- MESSAGE_ABANDON (R321, R322): 10 ms (100 ms on a peer link, R349) after its first transmission a message is abandoned and LOW passes it; a notice
is sent again as a new message with REPEAT while its session holds the bridle, else it waits. -/
def execMessageAbandon (t : Nat) (lk : Link) (session seq : Nat) (s : State) : Host.Outcome State Fault Refusal :=
  let s := atMt s t
  match findSess s lk session with
  | none => .next s
  | some se =>
    match se.held.find? fun h => h.seq == seq && h.tries != 0 with
    | none => .next s
    | some h =>
      if h.firstTx + ageLimit lk ≤ now s then
        let se := { se with held := se.held.filter fun x => x.seq != seq }
        let s := putSess s lk { se with txLow := sessLow se }
        let s := match h.notice with
          | none => s
          | some n =>
            if isOwner s se.num se.gen then sendNotice s se.num (n.1 / 4096) (n.1 % 4096) n.2 true
            else modHost s fun x => { x with returned := x.returned ++ [n] }
        .next (flushHeld s lk session 4096)
      else .next s

/-! ## Notices -/

/-- Whether a queue leads toward the owner (R289). -/
def ownerQueue (pool queue : Nat) : Bool :=
  (pool == 4 && decide (8 ≤ queue) && decide (queue ≤ 11)) || (decide (pool < 4) && queue == 136)

/-- NOTICE_SEND (R289, R297, R322): the transport engine polls a queue toward the owner. Notices that an earlier owner
did not acknowledge go first, with REPEAT; else the queue's head item is read and sent; an empty queue gives IDLE. -/
def execNoticeSend (t pool queue : Nat) (s : State) : Host.Outcome State Fault Refusal :=
  let s := atMt s t
  match s.host.owner with
  | none => .next s
  | some (num, gen) =>
    match findSess s .host num with
    | none => .next s
    | some se =>
      if !ownerQueue pool queue || !isOwner s num gen || !linkUp s .host || decide (se.held.length ≥ 4096) then .next s
      else
        match s.host.returned.find? fun n => n.1 == qKey pool queue with
        | some n =>
          let s := modHost s fun h => { h with returned := h.returned.erase n }
          .next (sendNotice s num pool queue n.2 true)
        | none =>
          match pdkItems s pool queue with
          | [] => .next s
          | it :: rest => .next (sendNotice (setQueue s pool queue rest) num pool queue it false)

end Sys2Proof.Machine
end

