-- ==== Sys2Proof/Machine/Peer.lean ====
section
/-! DEFINITION. Peer ports (11 R344 to R364): training, lane swaps and loss of a link, peer sessions, peer writes and
reductions as they arrive, forwarding. -/

namespace Sys2Proof.Machine

/-! ## The group's readiness (R354, R363) -/

/-- Whether a port is configured toward some rank of the live group (R351; log 26). -/
def portConfigured (s : State) (p : Nat) : Bool :=
  s.peers.routes.any fun e => decide (e.1 < s.peers.size) && e.1 != s.peers.rank && e.2.primary == p

/-- Whether a port has an open session. -/
def sessionOpen (s : State) (p : Nat) : Bool := (peerPortOf s p).session.isSome

/-- Whether every port configured toward a rank has an open session. -/
def groupIsReady (s : State) : Bool :=
  cfgGroupId s != 0 && (List.range 4).any (portConfigured s) && (List.range 4).all fun p => !portConfigured s p || sessionOpen s p

/-- READY of PRT_GROUP_CTRL and its event (R363). -/
def noteGroupReady (s : State) : State :=
  let r := groupIsReady s
  if r = s.peers.ready then s
  else post { s with peers := { s.peers with ready := r } } { code := 0x0043, params := [flag r] }

/-! ## Opening a session (R350) -/

/-- Ranks that a port is configured toward. -/
def portRanks (s : State) (p : Nat) : List Nat :=
  (s.peers.routes.filter fun e => decide (e.1 < s.peers.size) && e.1 != s.peers.rank && e.2.primary == p).map (·.1)

/-- As the lower-ranked module, a port's HELLO (R324, R350): its nonce is a free value. -/
def startHello (s : State) (p : Nat) : State :=
  if isReady s && (peerPortOf s p).state == 3 && (portRanks s p).any fun d => decide (s.peers.rank < d) then
    let (s, l) := freeBytes s 32
    let nonce := l.map (·.1)
    let s := modPeerPort s p fun q => { q with nonceOut := nonce, parts := [], opening := none }
    sendOpen s (.peer p) 0x70 (leBytes 1 0 ++ leBytes 1 s.peers.rank ++ leBytes 1 0 ++ leBytes 1 0 ++ nonce)
  else s

/-- Every trained port's HELLO. -/
def helloAll (s : State) : State := (List.range 4).foldl startHello s

/-- A port in MISMATCH (R350). -/
def mismatch (s : State) (p : Nat) : State :=
  modPeerPort s p fun q => { q with state := if q.session.isNone then 4 else q.state, opening := none }

/-- An open peer session (R350, R353, R363). -/
def openPeer (s : State) (p : Nat) (se : Session) (far : Nat) : State :=
  let s := modPeerPort s p fun q => { q with session := some se, state := 5, farRank := far, opening := none, parts := [] }
  noteGroupReady s

/-- The transcript of a peer session (R324, R350): the ENCAP body's further bytes follow CT. -/
def peerTranscript (nonceH nonceM : List Byte) (rank enc : Nat) (ct extra bundle : List Byte) : List Byte :=
  shake512 (nonceH ++ nonceM ++ leBytes 1 rank ++ leBytes 1 enc ++ ct ++ extra ++ shake512 bundle)

/-- What a HELLO does (R350): answered with a nonce and the bundle, or with NO_KEY. -/
def peerHello (s : State) (p : Nat) (d : Datagram) (nonce : List Byte) : State :=
  let rank := leAt d.body 1 1
  if s.peers.size ≤ rank ∨ (rankDigest s rank).isNone then mismatch (sendOpen s (.peer p) 0x71 (helloError 1)) p
  else
    let s := modPeerPort s p fun q => { q with nonces := (nonce, now s) :: (freshNonces (now s) q.nonces).take 255 }
    sendHelloParts s (.peer p) nonce

/-- The group ID and generation of an ENCAP body (R350). -/
def sameGroup (s : State) (body : List Byte) : Bool :=
  leAt body 6417 4 == cfgGroupId s && leAt body 6421 1 == s.peers.gen

/-- What an ENCAP does (R324, R327, R350). -/
def peerEncap (s : State) (p : Nat) (d : Datagram) : State :=
  let body := d.body
  let rank := leAt body 1 1
  let pub := (body.drop 4465).take 1952
  let far := tblFind s.peers.routes rank
  let known := decide (rank < s.peers.size) && rankDigest s rank == some (shake512 pub) &&
    (far.map (·.primary)) == some p && sameGroup s body
  let nonceH := (body.drop 4).take 32
  let nonceM := (body.drop 36).take 32
  let ct := (body.drop 68).take 1088
  let enc := leAt body 2 1
  let tr := peerTranscript nonceH nonceM rank enc ct ((body.drop 4465).take 1957) (bundleBytes s)
  let refuse (s : State) (status : Nat) : State := sendOpen s (.peer p) 0x71 (encapError 1 status)
  if !known then mismatch (refuse s 1) p
  else if !((freshNonces (now s) (peerPortOf s p).nonces).any fun e => e.1 == nonceM) then refuse s 3
  else
    let s := modPeerPort s p fun q => { q with nonces := q.nonces.filter fun e => e.1 != nonceM }
    if !Config.mlDsaVerify pub tr ((body.drop 1156).take 3309) "IMP-KEY_INIT" then refuse s 2
    else
      let gen := (s.host.genCount + 1) % 2 ^ 32
      let keys := deriveKeys (Config.mlKemDecap s.sec.kemSeed ct) tr
      let se := withKeys { num := p, gen := gen, key := rank, enc := enc == 1, lastRx := now s } keys
      let s := openPeer (modHost s fun h => { h with genCount := gen }) p se rank
      sendPlain s (.peer p) p 0x71
        (leBytes 1 1 ++ leBytes 1 0 ++ leBytes 1 p ++ leBytes 1 0 ++ leBytes 4 gen ++ Config.kmac256 32 se.tagTx tr "IMP-CONFIRM") false

/-- The body of a KEY_INIT is well formed (R325, R326, R350). -/
def peerInitOk (d : Datagram) (op len : Nat) : Bool :=
  d.session == 0xFF && d.body.length == len && leAt d.body 0 1 == op && decide (leAt d.body 2 1 ≤ 1) && leAt d.body 3 1 == 0

/-! ## Routes after a change of a link -/

/-- Ranks of the group other than the module's own that some port reaches (R352). -/
def reachable (s : State) : List Nat :=
  (List.range 64).filter fun d => decide (d < s.peers.size) && d != s.peers.rank && (nextHop s d).isSome

/-- Whether a unit has sent a write toward a rank whose descriptor has not completed (R362). -/
def wroteToward (d : Nat) (u : WorkUnit) : Bool := u.runs.any fun r => !r.complete && r.peerSent.any fun e => e.1 == d

/-- A rank that has become unreachable (R361, R362). -/
def rankGone (s : State) (d : Nat) : State :=
  let s := addCauses s (wroteToward d) reasonPeerLost (resRank d)
  (s.peers.rounds.filter fun e => e.2.first.isSome && (winRanks (getWin s e.1)).contains d).foldl
    (fun s e => abandonRound s e.1 d true) s

/-- A message that was held for a lost link leaves by the alternate route, its content unchanged (R352). -/
def resend (s : State) (h : Held) : State :=
  if h.typ = 0x20 then
    match nextHop s (parsePeer h.body).dstRank with
    | none => s
    | some p => sendSeq s (.peer p) p 0x20 h.body false none
  else s

/-- RESOURCE of a peer link: the rank at its far end. -/
def farRes (s : State) (p : Nat) : Nat :=
  if (peerPortOf s p).farRank = 0xFF then resNone else resRank (peerPortOf s p).farRank

/-- A port without its session, its held messages returned (R348, R352, R361, R362, R363). -/
def dropSession (s : State) (p : Nat) : State :=
  let before := reachable s
  let held := match (peerPortOf s p).session with | none => [] | some se => se.held
  let s := modPeerPort s p fun q => { q with session := none, farRank := 0xFF, opening := none, parts := [] }
  let s := held.foldl resend s
  let after := reachable s
  noteGroupReady ((before.filter fun d => !after.contains d).foldl rankGone s)

/-- A peer link declared lost (R348): the port retrains. -/
def losePeer (s : State) (p : Nat) : State :=
  let s := postFault s 0x0F (farRes s p) 0xFFFF
  let s := dropSession s p
  modPeerPort s p fun q => { q with state := 1, lostSeen := true }

/-! ## Training and lanes -/

/-- PEER_LINK_TRAIN (R345, R351): the pattern on lane 8 is sent; a partner that returns it is linked, another is FOREIGN. -/
def trainPort (s : State) (p : Nat) (pattern : Bool) : State :=
  let s := modHost s fun h => { h with sent := .peerPattern (now s) p :: h.sent }
  startHello (modPeerPort s p fun q => { q with state := if pattern then 3 else 2 }) p

/-- PEER_LINK_TRAIN (R345). -/
def execPeerLinkTrain (t port : Nat) (pattern : Bool) (s : State) : Host.Outcome State Fault Refusal :=
  let s := atMt s t
  if s.ctl.powered && decide (port < 4) && cfgGroupId s != 0 && decide ((peerPortOf s port).state ≤ 2) then
    .next (trainPort s port pattern)
  else .next s

/-- PEER_LANE_FAIL (R347, R348): lane 8 takes the failed lane's place; without it the link is lost; an unused lane 8 that
fails is recorded. -/
def execPeerLaneFail (t port lane : Nat) (s : State) : Host.Outcome State Fault Refusal :=
  let s := atMt s t
  let q := peerPortOf s port
  if !s.ctl.powered || decide (4 ≤ port) || decide (8 < lane) || decide (q.state < 3) || (lane == q.spareFor) then .next s
  else
    let s := postFault s 0x0E (farRes s port) lane
    if lane = 8 ∧ q.spareFor = 0xF then .next (modPeerPort s port fun q => { q with spareFailed := true })
    else if lane < 8 ∧ q.spareFor = 0xF ∧ q.spareFailed = false then
      .next (modPeerPort s port fun q => { q with spareFor := lane, state := 6 })
    else .next (losePeer (if lane = 8 then modPeerPort s port fun q => { q with spareFailed := true } else s) port)

/-- PEER_RETRAIN_DONE (R347). -/
def execPeerRetrainDone (t port : Nat) (s : State) : Host.Outcome State Fault Refusal :=
  let s := atMt s t
  let q := peerPortOf s port
  if q.state = 6 then
    let s := modPeerPort s port fun q => { q with state := if q.session.isSome then 5 else 3 }
    let s := post s { code := 0x0041, params := [port, q.spareFor] }
    .next (if q.session.isSome then flushHeld s (.peer port) port 4096 else startHello s port)
  else .next s

/-- Whether a cause of a link's loss stands (R348): silence of 1 ms needs an open session. -/
def lossStands (s : State) (p : Nat) (why : PeerLoss) : Bool :=
  let q := peerPortOf s p
  decide (3 ≤ q.state) &&
  (match why with
   | .laneNoSpare => q.spareFor != 0xF || q.spareFailed
   | .allLanes => true
   | .silent => q.session.any fun se => decide (se.lastRx + 2500000 ≤ now s)
   | .sessionClosed => q.session.isSome)

/-- PEER_LINK_LOST (R348). -/
def execPeerLinkLost (t port : Nat) (why : PeerLoss) (s : State) : Host.Outcome State Fault Refusal :=
  let s := atMt s t
  if decide (port < 4) && lossStands s port why then .next (losePeer s port) else .next s

/-- PEER_PING_TIMER (R348): every 100 us while nothing else is to be sent; the body's 8 bytes are free values. -/
def execPeerPingTimer (t port : Nat) (s : State) : Host.Outcome State Fault Refusal :=
  let s := atMt s t
  let q := peerPortOf s port
  if q.state == 5 && (q.session.any fun se => se.held.isEmpty) && decide (q.lastPing + 250000 ≤ now s) then
    let (s, l) := freeBytes s 8
    .next (sendPlain (modPeerPort s port fun q => { q with lastPing := now s }) (.peer port) port 0x7F (l.map (·.1)) false)
  else .next s

/-! ## KEY_INIT and KEY_REPLY -/

/-- A peer's KEY_INIT before a session (R325, R349, R350): it comes from the lower-ranked module only. -/
def peerInit (s : State) (p : Nat) (d : Datagram) (nonce : List Byte) : State :=
  let s := countRx s (.peer p)
  let c := openCheck s (.peer p) d 0x70
  if c ≠ 0 then impDrop s (.peer p) c
  else if s.peers.rank ≤ leAt d.body 1 1 then impDrop s (.peer p) 6
  else if !isReady s then sendOpen s (.peer p) 0x71 (helloError 5)
  else if peerInitOk d 0 36 then peerHello s p d nonce
  else if peerInitOk d 1 6422 then peerEncap s p d
  else mismatch (sendOpen s (.peer p) 0x71 (helloError 1)) p

/-- A CLOSE under the session's tag (R325, R348): answered, and the link is lost. -/
def peerClose (s : State) (p : Nat) (d : Datagram) : State :=
  match receive s (.peer p) d 0x70 false false with
  | (s, .drop) => s
  | (s, .act se body) =>
    if leAt body 0 1 = 2 then
      losePeer (sendPlain s (.peer p) p 0x71
        (leBytes 1 2 ++ leBytes 1 0 ++ leBytes 1 p ++ leBytes 1 0 ++ leBytes 4 se.gen) false) p
    else s

/-- PEER_KEY_INIT (R350). -/
def execPeerKeyInit (t port : Nat) (d : Datagram) (nonce _rnd : List Byte) (s : State) : Host.Outcome State Fault Refusal :=
  let s := atMt s t
  if decide (4 ≤ port) || !linkUp s (.peer port) then .next s
  else if d.session = 0xFF then .next (peerInit s port d nonce)
  else .next (peerClose s port d)

/-- The bundle assembled from its parts, once they are all there (R325). -/
def wholeBundle (len : Nat) (parts : List (Nat × List Byte)) : Option (List Byte) :=
  let l := sortBy (fun a b : Nat × List Byte => decide (a.1 < b.1)) parts
  let go := l.foldl (fun (b : List Byte) e => if e.1 = b.length then b ++ e.2 else b) []
  if go.length = len ∧ len ≠ 0 then some go else none

/-- The rank at a port's far end that a bundle proves (R350): its key slot holds the identity key's digest. -/
def provenRank (s : State) (p : Nat) (b : List Byte) : Option Nat :=
  (portRanks s p).find? fun d => decide (s.peers.rank < d) && rankDigest s d == some (idDigest b)

/-- The initiator's ENCAP (R324, R327, R350). -/
def sendEncap (s : State) (p far : Nat) (nonceM b rnd : List Byte) : State :=
  let me := s.peers.rank
  let enc := flag Config.peerEnc
  let nonceH := (peerPortOf s p).nonceOut
  let (secret, ct) := Config.mlKemEncap (certKey b 3) rnd
  let extra := certKey (bundleBytes s) 2 ++ leBytes 4 (cfgGroupId s) ++ leBytes 1 s.peers.gen
  let tr := peerTranscript nonceH nonceM me enc ct extra b
  let sig := Config.mlDsaSign s.sec.idSeed tr "IMP-KEY_INIT" rnd
  let k := deriveKeys secret tr
  let r := withKeys { num := p, gen := 0, key := far, enc := enc == 1, lastRx := now s } k
  let se := { r with tagRx := r.tagTx, tagTx := r.tagRx, encRx := r.encTx, encTx := r.encRx, saltRx := r.saltTx, saltTx := r.saltRx }
  let s := modPeerPort s p fun q => { q with opening := some (se, far, Config.kmac256 32 se.tagRx tr "IMP-CONFIRM") }
  sendOpen s (.peer p) 0x70
    (leBytes 1 1 ++ leBytes 1 me ++ leBytes 1 enc ++ leBytes 1 0 ++ nonceH ++ nonceM ++ ct ++ sig ++ extra)

/-- A KEY_REPLY before the session (R324, R325, R350): the bundle's parts are gathered and verified, or a refusal puts the
port in MISMATCH. -/
def replyOpen (s : State) (p : Nat) (d : Datagram) (rnd : List Byte) : State :=
  let s := countRx s (.peer p)
  let c := openCheck s (.peer p) d 0x71
  if c ≠ 0 then impDrop s (.peer p) c
  else if leAt d.body 1 1 ≠ 0 then (if leAt d.body 1 1 = 5 then s else mismatch s p)
  else if leAt d.body 0 1 = 0 ∧ (peerPortOf s p).nonceOut.isEmpty = false then
    let s := modPeerPort s p fun q =>
      { q with parts := (q.parts.filter fun e => e.1 != leAt d.body 40 4) ++ [(leAt d.body 40 4, d.body.drop 44)] }
    match wholeBundle (leAt d.body 36 4) (peerPortOf s p).parts with
    | none => s
    | some b =>
      match bundleOk b, provenRank s p b with
      | true, some far => sendEncap s p far ((d.body.drop 4).take 32) b rnd
      | _, _ => mismatch s p
  else s

/-- The final KEY_REPLY under the new session's tag (R324, R350): a valid CONFIRM opens the session. -/
def replyFinal (s : State) (p : Nat) (d : Datagram) : State :=
  let s := countRx s (.peer p)
  match (peerPortOf s p).opening with
  | none => impDrop s (.peer p) 2
  | some (se, far, confirm) =>
    let se := { se with gen := d.gen }
    if d.version ≠ 1 ∨ d.peer = false ∨ 8272 < d.body.length then impDrop s (.peer p) 1
    else if !tagOk se d then impDrop s (.peer p) 3
    else if !ageOk (.peer p) (now s) d.mt then impDrop s (.peer p) 5
    else if d.typ ≠ 0x71 then impDrop s (.peer p) 6
    else
      let body := plainBody se d
      if leAt body 0 1 = 1 ∧ leAt body 1 1 = 0 ∧ (body.drop 8).take 32 = confirm then
        openPeer s p { se with lastRx := now s, rxHigh := d.xmit, rxXmits := [d.xmit] } far
      else mismatch s p

/-- PEER_KEY_REPLY (R350). -/
def execPeerKeyReply (t port : Nat) (d : Datagram) (_nonce rnd : List Byte) (s : State) : Host.Outcome State Fault Refusal :=
  let s := atMt s t
  if decide (4 ≤ port) || !linkUp s (.peer port) then .next s
  else if d.session = 0xFF then .next (replyOpen s port d rnd)
  else .next (replyFinal s port d)

/-! ## Peer messages -/

/-- A NACK of a destination to a source (R349, R357; log 17): REF_SEQ holds the PSEQ, REF_WU_ID the two ranks. -/
def peerNack (s : State) (b : PeerBody) (reason detail : Nat) : State :=
  match nextHop s b.srcRank with
  | none => s
  | some p => sendSeq s (.peer p) p 0x61 (nackBody b.pseq 0x20 reason (s.peers.rank + 256 * b.srcRank) 0 detail) false none

/-- Whether a PSEQ of a source was acted on before (R357), by the method of R317 for XMIT. -/
def pseqSeen (s : State) (rank n : Nat) : Bool :=
  match tblFind s.peers.pseqRx rank with
  | none => false
  | some (high, l) => l.contains n || (serialLt n high && serialLt ((n + 4096) % 2 ^ 32) high)

/-- A PSEQ noted as acted on. -/
def notePseq (s : State) (rank n : Nat) : State :=
  let (high, l) := tblGet (0, []) s.peers.pseqRx rank
  let h := if serialLt high n then n else high
  let kept := (n :: l).filter fun x => !(serialLt ((x + 4096) % 2 ^ 32) h)
  { s with peers := { s.peers with pseqRx := tblSet s.peers.pseqRx rank (h, kept) } }

/-- A message forwarded (R352): HOPS counts, and at 8 the message is dropped and counted. -/
def forwardPeer (s : State) (p : Nat) (b : PeerBody) (body : List Byte) : State :=
  if b.hops ≥ 8 then modCtr s (.peer p) fun c => { c with ipDrop := cap32 (c.ipDrop + 1) }
  else
    match nextHop s b.dstRank with
    | none => s
    | some q => sendSeq s (.peer q) q 0x20 (setBytes body 1 (leBytes 1 (b.hops + 1))) false none

/-- The bytes of a peer write with their poison (R357). -/
def bodyBytes (b : PeerBody) : List (Byte × Bool) :=
  ((numsFrom b.offset b.data.length).zip b.data).map fun e => (e.2, b.poison.contains (e.1 / 64 - b.offset / 64))

/-- A DATA write at its destination (R355, R357): it lands, or is refused with a NACK and settles its PSEQ (log 26). -/
def actData (s : State) (b : PeerBody) : State :=
  let w := b.window % 16
  let x := getWin s w
  let refuse (r v : Nat) : State := pseqLand (peerNack s b r v) b.srcRank b.pseq w false
  if b.len = 0 ∨ b.offset % 64 + b.len > 8192 ∨ b.data.length ≠ b.len then refuse 2 0
  else if x.kind ≠ 2 ∨ (winRanks x).contains b.srcRank = false ∨ winBytes x < b.offset + b.len then refuse 1 0
  else
    let va := winBase x + b.offset
    match (pagesOf va b.len).find? fun e => match descXlate s 4 x.job e.1 true with | .ok _ _ => false | _ => true with
    | some e => refuse 6 e.1
    | none =>
      let s := { s with peers := { s.peers with landing := s.peers.landing ++ [(b.srcRank, b.pseq, w)] } }
      vWrite (tlbFillRange s 4 x.job va b.len) 4 1000 (.peer b.srcRank b.pseq w) x.job va (bodyBytes b)

/-- Elements of a message: number and bytes of each, and whether any is poisoned. -/
def bodyElems (b : PeerBody) (n : Nat) : List (Nat × List Byte × Bool) :=
  let l := bodyBytes b
  (numsFrom 0 (b.data.length / n)).map fun i =>
    (b.offset / 4 + i, ((l.drop (n * i)).take n).map (·.1), ((l.drop (n * i)).take n).any (·.2))

/-- A LEAF (R359): of the round now open, of the next one, or stale (R418). -/
def actLeaf (s : State) (b : PeerBody) : State :=
  let w := b.window % 16
  let x := getWin s w
  let rd := getRound s w
  let vs := (bodyElems b 8).map fun e =>
    ({ lo := b.treeLo, hi := b.treeHi, elem := e.1, v := leafOf (x.etype == 14) e.2.1, bad := e.2.2 } : RoundVal)
  if x.kind ≠ 4 ∨ (winRanks x).contains b.srcRank = false then s
  else if b.gen = rd.gen then roundFeed s w x vs
  else if b.gen = (rd.gen + 1) % 2 ^ 32 then setRound s w { rd with early := rd.early ++ vs }
  else staleDrop s 1

/-- A RESULT (R359): it lands in the window's own range. -/
def actResult (s : State) (b : PeerBody) : State :=
  let w := b.window % 16
  let x := getWin s w
  let rd := getRound s w
  if x.kind ≠ 4 ∨ (winRanks x).contains b.srcRank = false then s
  else if b.gen ≠ rd.gen then staleDrop s 1
  else
    let s := setRound s w { rd with poisoned := rd.poisoned || b.poison != [] }
    vWrite s 4 1000 (.result w b.gen (b.offset / 4) (b.data.length / 4)) x.job (winBase x + b.offset) (bodyBytes b)

/-- Whether a PSEQ sent toward a rank belongs to a unit that has been discarded (R418). -/
def pseqStale (s : State) (rank n : Nat) : Bool :=
  s.peers.out.any fun o => o.dst == rank && o.pseq == n &&
    (match findUnit s o.ref.wu with | none => true | some u => u.decided)

/-- A LANDED (R357, R358): in an ACCEPT window it is a descriptor's final one; else it reports this module's own writes. -/
def actLanded (s : State) (b : PeerBody) : State :=
  let w := b.window % 16
  if (getWin s w).kind = 2 then
    if s.peers.finals.contains (b.srcRank, b.pseq) then s
    else
      let fs := s.peers.finals ++ [(b.srcRank, b.pseq)]
      let s := { s with peers := { s.peers with finals := fs, finalsWait := s.peers.finalsWait ++ [(b.srcRank, w, b.pseq)] } }
      actFinals s b.srcRank
  else
    let s := if pseqStale s b.srcRank b.pseq then staleDrop s 1 else s
    let hit (o : PeerOut) : Bool := o.dst == b.srcRank && (o.pseq == b.pseq || serialLt o.pseq b.pseq)
    { s with peers := { s.peers with out := s.peers.out.filter fun o => !hit o } }

/-- A ROUND_ABORT (R361). -/
def actAbortRound (s : State) (b : PeerBody) : State :=
  let w := b.window % 16
  if (getWin s w).kind ≠ 4 then s
  else if b.gen ≠ (getRound s w).gen then staleDrop s 1
  else abandonRound s w (nth b.srcRank (winRanks (getWin s w)) b.treeLo) false

/-- A peer message whose destination is this module, acted on once (R357). -/
def peerAct (s : State) (b : PeerBody) : State :=
  if b.pkind = 3 then actLanded s b
  else if pseqSeen s b.srcRank b.pseq then s
  else
    let s := notePseq s b.srcRank b.pseq
    match b.pkind with
    | 0 => actData s b
    | 1 => pseqLand (actLeaf s b) b.srcRank b.pseq (b.window % 16) false
    | 2 => pseqLand (actResult s b) b.srcRank b.pseq (b.window % 16) false
    | 4 => pseqLand (actAbortRound s b) b.srcRank b.pseq (b.window % 16) false
    | _ => s

/-- A peer MEM_WRITE as it arrives at a port (R349, R352, R357): acted on, or forwarded. -/
def peerArrive (s : State) (p : Nat) (d : Datagram) : State :=
  match receive s (.peer p) d 0x20 true false with
  | (s, .drop) => s
  | (s, .act se body) =>
    let b := parsePeer body
    sendAck (if b.dstRank = s.peers.rank then peerAct s b else forwardPeer s p b body) (.peer p) se.num

/-- PEER_DATA (R357). -/
def execPeerData (t port : Nat) (d : Datagram) (s : State) : Host.Outcome State Fault Refusal := .next (peerArrive (atMt s t) port d)

/-- PEER_LANDED (R358). -/
def execPeerLanded (t port : Nat) (d : Datagram) (s : State) : Host.Outcome State Fault Refusal := .next (peerArrive (atMt s t) port d)

/-- PEER_LEAF (R359). -/
def execPeerLeaf (t port : Nat) (d : Datagram) (s : State) : Host.Outcome State Fault Refusal := .next (peerArrive (atMt s t) port d)

/-- PEER_RESULT (R359). -/
def execPeerResult (t port : Nat) (d : Datagram) (s : State) : Host.Outcome State Fault Refusal := .next (peerArrive (atMt s t) port d)

/-- ROUND_ABORT (R361). -/
def execRoundAbort (t port : Nat) (d : Datagram) (s : State) : Host.Outcome State Fault Refusal := .next (peerArrive (atMt s t) port d)

/-- PEER_FORWARD (R352). -/
def execPeerForward (t port : Nat) (d : Datagram) (s : State) : Host.Outcome State Fault Refusal := .next (peerArrive (atMt s t) port d)

/-- The reason and RESOURCE of a unit whose write a destination refused (R357, R407). -/
def nackWhy (reason detail : Nat) : Why :=
  if reason = 1 then (reasonDescInvalid, resNone) else if reason = 6 then (reasonPageAbsent, resPage detail)
  else (reasonHwFault, resModule)

/-- A NACK at its source (R357): the writing unit is discarded; for another rank it goes on. -/
def actPeerNack (s : State) (body : List Byte) : State :=
  let who := leAt body 8 4
  let src := who / 256 % 256
  if src ≠ s.peers.rank then
    match nextHop s src with
    | none => s
    | some q => sendSeq s (.peer q) q 0x61 body false none
  else
    match s.peers.out.find? fun o => o.dst == who % 256 && o.pseq == leAt body 0 4 with
    | none => s
    | some o =>
      let w := nackWhy (leAt body 5 1) (leAt body 16 8)
      let s := { s with peers := { s.peers with out := s.peers.out.filter fun x => x != o } }
      addCause s o.ref.wu w.1 w.2

/-- PEER_NACK (R357). -/
def execPeerNack (t port : Nat) (d : Datagram) (s : State) : Host.Outcome State Fault Refusal :=
  match receive (atMt s t) (.peer port) d 0x61 true false with
  | (s, .drop) => .next s
  | (s, .act se body) => .next (sendAck (actPeerNack s body) (.peer port) se.num)

/-- The listed rank that a round still waits for: the lowest position that no value held here covers. -/
def missingRank (s : State) (w : Nat) : Nat :=
  let ranks := winRanks (getWin s w)
  let rd := getRound s w
  ((numsFrom 0 ranks.length).zip ranks).findSome? (fun e =>
    if e.2 != s.peers.rank && !(rd.vals.any fun v => decide (v.lo ≤ e.1) && decide (e.1 < v.hi)) then some e.2 else none)
    |>.getD s.peers.rank

/-- ROUND_TIMEOUT (R361): CFG_PEER_RED_WAIT after the first contribution. -/
def execRoundTimeout (t window : Nat) (s : State) : Host.Outcome State Fault Refusal :=
  let s := atMt s t
  match (tblFind s.peers.rounds window).bind (·.first) with
  | none => .next s
  | some m => if m + cfgPeerRedWait s ≤ now s then .next (abandonRound s window (missingRank s window) true) else .next s

/-- What counter a discarded peer frame raises (R346, R463): 1 length, 2 check sequence, 3 address, VLAN, EtherType or
PAUSE. -/
def peerVerdict (s : State) (f : FrameInfo) (dstRank : Nat) : Nat :=
  if f.len < 64 ∨ 9216 < f.len then 1
  else if !f.fcsGood then 2
  else if f.pause || f.vlan.isSome || f.etherType != 0x88B5 || f.dst != 0 || dstRank != s.peers.rank then 3
  else 0

/-- PEER_FRAME_DISCARD (R346). -/
def execPeerFrameDiscard (t port : Nat) (f : FrameInfo) (dstRank : Nat) (s : State) : Host.Outcome State Fault Refusal :=
  let s := atMt s t
  if decide (4 ≤ port) || !linkUp s (.peer port) then .next s
  else
    match peerVerdict s f dstRank with
    | 1 => .next (modCtr s (.peer port) fun c => { c with dropLen := cap32 (c.dropLen + 1) })
    | 2 => .next (modCtr s (.peer port) fun c => { c with dropFcs := cap32 (c.dropFcs + 1) })
    | 3 => .next (modCtr s (.peer port) fun c => { c with dropAddr := cap32 (c.dropAddr + 1) })
    | _ => .next s

end Sys2Proof.Machine
end

