-- ==== Sys2Proof/Machine/Disable.lean ====
section
/-! DEFINITION. The disable rule (13 R425, R426) and what it ends: jobs (08 R260, R266; 15 R459, R460), windows (11 R355,
R356), the group (11 R364), clusters (13 R426); the job table and the translation-invalidate register (08 R264). -/

namespace Sys2Proof.Machine

/-! ## Windows (R355, R356) -/

/-- A window with one of its registers written (R355): registers 0 to 7 at offsets +0x00 to +0x1C; GEN is RO. -/
def windowSet (x : Window) (reg v : Nat) : Window :=
  match reg with
  | 0 => { x with kind := bits v 31 29, etype := bits v 19 16, job := bits v 15 0 }
  | 1 => { x with vaPage := bits v 26 0 }
  | 2 => { x with pages := bits v 15 0 }
  | 3 => { x with dest := bits v 5 0 }
  | 4 => { x with ranksLo := v % 2 ^ 32 }
  | 5 => { x with ranksHi := v % 2 ^ 32 }
  | 7 => { x with ctr := bits v 15 0 }
  | _ => x

/-- Whether two windows' ranges overlap. -/
def windowsMeet (a b : Window) : Bool :=
  a.job == b.job && decide (winBase a < winBase b + winBytes b) && decide (winBase b < winBase a + winBytes a)

/-- Whether a window may stand as written (R356). -/
def windowOk (s : State) (w : Nat) (x : Window) : Bool :=
  decide (x.kind ≤ 4) && (x.kind != 4 || x.etype == 13 || x.etype == 14) &&
  (x.kind == 0 || !(s.peers.windows.any fun e => e.1 != w && e.2.kind != 0 && windowsMeet x e.2)) &&
  decide (x.ranksLo + 2 ^ 32 * x.ranksHi < 2 ^ s.peers.size)

/-- Offset of a window's register (R355). -/
def windowOff (w reg : Nat) : Nat := 0x033000 + 0x20 * w + 4 * reg

/-! ## What a disabling write changes at once -/

/-- The job slot named by MOD_JOB_SEL or any other. -/
def getSlot (s : State) (i : Nat) : JobSlot := tblGet {} s.disp.jobs i

/-- The state with a job slot set. -/
def setSlot (s : State) (i : Nat) (j : JobSlot) : State := { s with disp := { s.disp with jobs := tblSet s.disp.jobs i j } }

/-- The register's new value as a disable begins (R425 step 1), or none where the write has no effect (R356, R426, R460). -/
def disableWrite (s : State) : DisableKind → Option State
  | .job i id =>
    let j := getSlot s i
    if j.valid ∧ j.jobId = id then some (setSlot s i { j with valid := false, closing := true }) else none
  | .window w reg v =>
    let x := windowSet (getWin s w) reg v
    if w < 16 ∧ reg < 8 ∧ reg ≠ 6 ∧ windowOk s w x then
      some { s with peers := { s.peers with windows := tblSet s.peers.windows w x } }
    else none
  | .group => some s
  | .retire l => if l < 512 ∧ served s l then some s else none

/-- The disable in progress starts (R425): its register, its deadline. -/
def beginDisable (s : State) (k : DisableKind) (off : Nat) (who : Option (Nat × Nat × Nat)) (rest : List Disable) : State :=
  let d : Disable := { kind := k, off := off, deadline := now s + cfgDisableTimeout s, timedOut := false, who := who }
  { s with disp := { s.disp with disables := d :: rest, disableOff := off } }

/-- A message whose writes have all landed is reported received (R319, R425). -/
def disableAck (s : State) (who : Option (Nat × Nat × Nat)) : State :=
  match who with
  | none => s
  | some (num, gen, seq) =>
    if s.disp.disables.any fun d => decide (d.who = who) then s else lateLanded s .host num gen seq

/-- A disabling write (R425): it begins at once, or waits behind the one in progress. -/
def disable (s : State) (k : DisableKind) (off : Nat) (who : Option (Nat × Nat × Nat)) : State :=
  match s.disp.disables with
  | [] =>
    (match disableWrite s k with
     | none => s
     | some s => beginDisable s k off none [])
  | l => { s with disp := { s.disp with disables := l ++ [{ kind := k, off := off, deadline := 0, timedOut := false, who := who }] } }

/-! ## Units that use a function -/

/-- Whether a unit uses what is being disabled (R266, R356, R364, R426). -/
def usesFunction (k : DisableKind) (u : WorkUnit) : Bool :=
  match k with
  | .job _ id => hJob u.header == id
  | .window w _ _ => u.windows.contains w
  | .group => !u.windows.isEmpty
  | .retire l => u.touched.contains l

/-- RESOURCE of a function (R407). -/
def functionRes : DisableKind → Nat
  | .job _ id => resJob id
  | .window w _ _ => resWindow w
  | .group => resModule
  | .retire l => resCluster l

/-- DISABLE_TIMEOUT (R425 step 4): units still using the function are discarded with DISABLE_FORCED. -/
def execDisableTimeout (t : Nat) (s : State) : Host.Outcome State Fault Refusal :=
  let s := atMt s t
  match s.disp.disables with
  | [] => .next s
  | d :: rest =>
    if d.deadline ≤ now s ∧ d.timedOut = false then
      let s := addCauses s (fun u => usesFunction d.kind u && !u.decided) reasonDisableForced (functionRes d.kind)
      .next { s with disp := { s.disp with disables := { d with timedOut := true } :: rest } }
    else .next s

/-! ## The end of a disable -/

/-- A job's end (R246, R266): residency, weight caches, translations, the slot. -/
def endJob (s : State) (i id : Nat) : State :=
  let s := { s with disp := { s.disp with residency := s.disp.residency.filter fun e => !(e.2.1 == id) } }
  let s := { s with hbm := { s.hbm with caches := [], tlb := s.hbm.tlb.filter fun e => e.job != id } }
  setSlot s i { getSlot s i with closing := false }

/-- The staged group adopted (R364 steps 3 to 5): rounds and sessions end, every window is OFF; each pair of ranks counts its
PSEQs anew (log 26). -/
def adoptGroup (s : State) : State :=
  let s := (List.range 4).foldl (fun s p =>
    modPeerPort s p fun q => { q with session := none, farRank := 0xFF, opening := none, parts := [],
                                      state := if q.state = 5 ∨ q.state = 4 then 3 else q.state }) s
  let s := noteGroupReady s
  let p := s.peers
  let s := { s with peers := { p with rank := p.newRank, size := p.newSize, gen := p.newGen, routes := p.stage, windows := [],
                                      rounds := [], pseqTx := [], pseqRx := [], pseqLanded := [], out := [], landing := [],
                                      finals := [], finalsWait := [] } }
  helloAll s

/-- A retired cluster (R413, R426): failed without retest, its number remounted or absent. -/
def retireCluster (s : State) (l : Nat) : State :=
  if served s l then
    let p := physOf s l
    let s := modClu (makeOff s p) p fun c => { c with role := .retired, halter := true }
    beginRemount s l p
  else s

/-- The last step of a disable (R425 step 5). -/
def endFunction (s : State) : DisableKind → State
  | .job i id => endJob s i id
  | .window _ _ _ => s
  | .group => adoptGroup s
  | .retire l => retireCluster s l

/-- The next waiting disable begins (R425), its message then reported received; one without effect is passed over. -/
def nextDisable (s : State) : List Disable → State
  | [] => { s with disp := { s.disp with disables := [] } }
  | d :: rest =>
    match disableWrite s d.kind with
    | none => nextDisable (disableAck { s with disp := { s.disp with disables := rest } } d.who) rest
    | some s => disableAck (beginDisable s d.kind d.off none rest) d.who

/-- Whether a disable can finish: no unit uses the function, or each that does has had its discard decided. -/
def disableOver (s : State) (d : Disable) : Bool := !(s.disp.units.any fun u => usesFunction d.kind u && !u.decided)

/-- DISABLE_DONE (R425 step 5). -/
def execDisableDone (t : Nat) (s : State) : Host.Outcome State Fault Refusal :=
  let s := atMt s t
  match s.disp.disables with
  | [] => .next s
  | d :: rest =>
    if disableOver s d then
      let s := endFunction s d.kind
      let s := post s { code := 0x000B, res := functionRes d.kind, params := [d.off] }
      .next (nextDisable s rest)
    else .next s

/-! ## Registers that start a disable -/

/-- WINDOW_WRITE (R355, R356). -/
def execWindowWrite (t window reg v : Nat) (s : State) : Host.Outcome State Fault Refusal :=
  let s := atMt s t
  if isReady s then .next (disable s (.window window reg v) (windowOff window reg) none) else .next s

/-- GROUP_COMMIT (R354, R364). -/
def execGroupCommit (t : Nat) (s : State) : Host.Outcome State Fault Refusal :=
  let s := atMt s t
  if isReady s then .next (disable s .group 0x032800 none) else .next s

/-- A write of FLT_CLU_CMD (R426, R428): only GO with OP 1 has an effect. -/
def writeCluCmd (s : State) (v : Nat) (who : Option (Nat × Nat × Nat)) : State :=
  if bit v 31 ∧ bits v 15 12 = 1 then disable s (.retire (bits v 8 0)) 0x070120 who else s

/-- CLUSTER_RETIRE (R426). -/
def execClusterRetire (t v : Nat) (s : State) : Host.Outcome State Fault Refusal :=
  let s := atMt s t
  if isReady s then .next (writeCluCmd s v none) else .next s

/-! ## The job table (R459, R460) -/

/-- TILE_CHOICE as a write leaves it (R215, R459): 3 leaves the field unchanged. -/
def tileChoice (j : JobSlot) (v : Nat) : JobSlot := if bits v 17 16 = 3 then j else { j with choice := bits v 17 16 }

/-- Whether the opening of a slot is refused (R460). -/
def openRefused (s : State) (i : Nat) (j : JobSlot) (id : Nat) : Bool :=
  (s.disp.jobs.any fun e => e.1 != i && (e.2.valid || e.2.closing) && e.2.jobId == id) ||
  j.closing || decide (serviceCap s < rootOf j + 2097152)

/-- A write of MOD_JOB_CTRL (R215, R459, R460). -/
def writeJobCtrl (s : State) (v : Nat) (who : Option (Nat × Nat × Nat)) : State :=
  let i := s.disp.jobSel
  let j := tileChoice (getSlot s i) v
  let id := bits v 15 0
  if j.valid then
    (if bit v 31 then setSlot s i j else disable (setSlot s i j) (.job i j.jobId) 0x00110C who)
  else if bit v 31 then
    (if openRefused s i j id then setSlot s i { j with refused := true, jobId := if j.closing then j.jobId else id }
     else setSlot s i { j with valid := true, refused := false, jobId := id })
  else setSlot s i { j with jobId := if j.closing then j.jobId else id }

/-- JOB_OPEN (R260, R460). -/
def execJobOpen (t v : Nat) (s : State) : Host.Outcome State Fault Refusal :=
  let s := atMt s t
  if isReady s then .next (writeJobCtrl s v none) else .next s

/-- JOB_CLOSE (R266, R460). -/
def execJobClose (t v : Nat) (s : State) : Host.Outcome State Fault Refusal :=
  let s := atMt s t
  if isReady s then .next (writeJobCtrl s v none) else .next s

/-- TILE_CHOICE_SET (R215, R459). -/
def execTileChoiceSet (t v : Nat) (s : State) : Host.Outcome State Fault Refusal :=
  let s := atMt s t
  if isReady s then .next (writeJobCtrl s v none) else .next s

/-- A write of MOD_TLB_INV (R264): every translation cache drops the job's entries. -/
def tlbInvalidate (s : State) (v : Nat) : State :=
  { s with hbm := { s.hbm with tlb := s.hbm.tlb.filter fun e => e.job != bits v 15 0 } }

/-- MOD_TLB_INV (R264). -/
def execModTlbInv (t v : Nat) (s : State) : Host.Outcome State Fault Refusal :=
  let s := atMt s t
  if isReady s then .next (tlbInvalidate s v) else .next s

end Sys2Proof.Machine
end

