-- ==== Sys2Proof/Machine/HostNet.lean ====
section
/-! DEFINITION. The host port below IMP: frames, ARP, neighbour discovery, echo and next hops (10 R304 to R309), PTP
(09 R285), and paths A and B (10 R310 to R313). -/

namespace Sys2Proof.Machine

/-- CFG_HOST_MAC (R374). -/
def cfgMac (s : State) : List Byte := cfgBytes s 0xA8 6

/-- Whether IPv4 is enabled: its address is not 0.0.0.0 (R306). -/
def ipv4On (s : State) : Bool := (cfgIpv4 s).any (· != 0)

/-- Whether IPv6 is enabled: its address is not :: (R306). -/
def ipv6On (s : State) : Bool := (cfgIpv6 s).any (· != 0)

/-- The link-local address of R304, PRESUMED formed from the MAC by the modified EUI-64 of IPv6 (log 14). -/
def linkLocal (s : State) : List Byte :=
  match cfgMac s with
  | a :: b :: c :: r => [0xFE, 0x80, 0, 0, 0, 0, 0, 0, a ^^^ 2, b, c, 0xFF, 0xFE] ++ r
  | _ => []

/-- Whether an address is one of the module's own (R304, R306). -/
def ownIp (s : State) (ip : List Byte) : Bool :=
  (ipv4On s && ip == cfgIpv4 s) || (ipv6On s && (ip == cfgIpv6 s || ip == linkLocal s))

/-- Whether one more ARP, neighbour or echo answer is within 10,000 per second (R307). -/
def replyAllowed (s : State) : Bool :=
  decide ((s.host.replyTimes.filter fun x => decide (now s < x + 2500000000)).length < 10000)

/-- An answer counted against the limit of R307. -/
def noteReply (s : State) : State :=
  modHost s fun h => { h with replyTimes := now s :: h.replyTimes.filter fun x => decide (now s < x + 2500000000) }

/-- Why R305 discards a frame: 1 length, 2 check sequence, 3 destination, tag or PAUSE; 0 accepts it. -/
def frameVerdict (s : State) (f : FrameInfo) : Nat :=
  if f.len < 64 ∨ f.len > 9216 then 1
  else if !f.fcsGood then 2
  else if f.dst = 3 ∨ f.pause then 3
  else if cfgHostVlan s = 0 then (if f.vlan.isSome then 3 else 0)
  else if f.vlan = some (cfgHostVlan s) then 0 else 3

/-- HOST_FRAME_DISCARD (R305, R310): the discard is counted by its cause; the standby path discards every frame it
receives, which no counter of R463 counts. -/
def execHostFrameDiscard (t : Nat) (f : FrameInfo) (standby : Bool) (s : State) : Host.Outcome State Fault Refusal :=
  let s := atMt s t
  if !linkUp s .host || standby then .next s
  else
    match frameVerdict s f with
    | 1 => .next (modCtr s .host fun c => { c with dropLen := cap32 (c.dropLen + 1) })
    | 2 => .next (modCtr s .host fun c => { c with dropFcs := cap32 (c.dropFcs + 1) })
    | 3 => .next (modCtr s .host fun c => { c with dropAddr := cap32 (c.dropAddr + 1) })
    | _ => .next s

/-- ARP_REQUEST (R307): a request for the module's IPv4 address is answered, within the limit. -/
def execArpRequest (t : Nat) (target senderIp senderMac : List Byte) (s : State) : Host.Outcome State Fault Refusal :=
  let s := atMt s t
  if !linkUp s .host then .next s
  else
    let s := countRx s .host
    if ipv4On s && target == cfgIpv4 s && replyAllowed s then
      .next (putSent (noteReply s) .host (.arpReply (now s) target senderIp senderMac))
    else .next s

/-- The next-hop table with an address resolved (R307): at most 256 entries, the oldest resolution leaving first. -/
def resolveHop (s : State) (ip mac : List Byte) : State :=
  modHost s fun h =>
    let l := h.nextHops.filter fun e => e.1 != ip
    { h with nextHops := (ip, mac, now s) :: l.take 255 }

/-- ARP_REPLY (R307): a reply or advertisement resolves a next hop. -/
def execArpReply (t : Nat) (ip mac : List Byte) (s : State) : Host.Outcome State Fault Refusal :=
  let s := atMt s t
  if linkUp s .host then .next (resolveHop (countRx s .host) ip mac) else .next s

/-- NEIGHBOR_SOLICITATION (R307): a solicitation for an own IPv6 address is answered, within the limit. -/
def execNeighborSolicitation (t : Nat) (target senderIp senderMac : List Byte) (s : State) :
    Host.Outcome State Fault Refusal :=
  let s := atMt s t
  if !linkUp s .host then .next s
  else
    let s := countRx s .host
    if ipv6On s && (target == cfgIpv6 s || target == linkLocal s) && replyAllowed s then
      .next (putSent (noteReply s) .host (.neighborAdvert (now s) target (senderIp ++ senderMac)))
    else .next s

/-- ECHO_REQUEST (R307): an echo request to an own address is answered with the same payload, within the limit. -/
def execEchoRequest (t : Nat) (dst src payload : List Byte) (s : State) : Host.Outcome State Fault Refusal :=
  let s := atMt s t
  if !linkUp s .host then .next s
  else
    let s := countRx s .host
    if ownIp s dst && replyAllowed s then
      .next (putSent (noteReply s) .host (.echoReply (now s) dst src payload))
    else .next s

/-- NEXT_HOP_REFRESH (R307): 60 s after its resolution an entry is resolved anew by a request. -/
def execNextHopRefresh (t : Nat) (ip : List Byte) (s : State) : Host.Outcome State Fault Refusal :=
  let s := atMt s t
  match s.host.nextHops.find? fun e => e.1 == ip with
  | none => .next s
  | some e =>
    if linkUp s .host && decide (e.2.2 + 150000000000 ≤ now s) then .next (putSent s .host (.arpRequest (now s) ip))
    else .next s

/-! ## PTP -/

/-- PTP_MESSAGE (R285, R309): the offset found is corrected by slewing, and above 1 us an MT_OFFSET event is posted. -/
def execPtpMessage (t : Nat) (offsetNs : Int) (s : State) : Host.Outcome State Fault Refusal :=
  let s := atMt s t
  if linkUp s .host && s.clock.ptp == 1 then
    let s := { s with clock := { s.clock with offsetNs := offsetNs } }
    if isReady s && decide (offsetNs.natAbs > 1000) then
      .next (post s { code := 0x0030, params := [ofSigned 64 offsetNs] })
    else .next s
  else .next s

/-- MT goes into holdover and the loss is posted (R285). -/
def ptpHoldover (s : State) : State :=
  if s.clock.ptp = 1 then
    post { s with clock := { s.clock with ptp := 2 } } { code := 0x0031, params := [0] }
  else s

/-- PTP_LOSS (R285). -/
def execPtpLoss (t : Nat) (s : State) : Host.Outcome State Fault Refusal := .next (ptpHoldover (atMt s t))

/-- PTP_RECOVERY (R285): holdover ends and the recovery is posted. -/
def execPtpRecovery (t : Nat) (s : State) : Host.Outcome State Fault Refusal :=
  let s := atMt s t
  if s.clock.ptp = 2 ∧ linkUp s .host then
    .next (post { s with clock := { s.clock with ptp := 1 } } { code := 0x0031, params := [1] })
  else .next s

/-! ## Paths A and B -/

/-- The announcements after a change of the active path (R311): one for each enabled address. -/
def announcePath (s : State) (path : Nat) : State :=
  let s := if ipv4On s then putSent s .host (.gratuitousArp (now s) path (cfgIpv4 s)) else s
  if ipv6On s then
    putSent (putSent s .host (.unsolicitedAdvert (now s) path (cfgIpv6 s))) .host
      (.unsolicitedAdvert (now s) path (linkLocal s))
  else s

/-- A HOST_PATH event (R313, R469): 0 lost, 1 failover, 2 recovered, 3 port down. -/
def postPath (s : State) (what path : Nat) : State := post s { code := 0x0040, params := [what, path] }

/-- Held messages of every host session go out once the port carries frames again (R313). -/
def flushAll (s : State) : State :=
  s.host.sessions.foldl (fun s se => flushHeld s .host se.num se.held.length) s

/-- The active path is declared lost (R311, R313): a trained standby path takes over, else the port is down. -/
def loseHostPath (s : State) (path : Nat) : State :=
  let s := postFault (modHost s fun h => { h with lostSeen := true }) 0x10 resNone path
  let s := postPath s 0 path
  if s.host.standby = 2 then
    let s := modHost s fun h => { h with active := 1 - path, standby := 1 }
    postPath (announcePath s (1 - path)) 1 (1 - path)
  else
    let s := ptpHoldover (modHost s fun h => { h with down := true })
    capOpen (postPath s 3 path) 3 resNone

/-- HOST_PATH_LOSS (R311, R313). -/
def execHostPathLoss (t : Nat) (path : Nat) (s : State) : Host.Outcome State Fault Refusal :=
  let s := atMt s t
  if linkUp s .host && path == s.host.active then .next (loseHostPath s path) else .next s

/-- HOST_PATH_RETRAIN (R311): a lost path that retrains becomes the standby path; with the port down, it carries the
port again. -/
def execHostPathRetrain (t : Nat) (path : Nat) (s : State) : Host.Outcome State Fault Refusal :=
  let s := atMt s t
  if !s.ctl.powered || decide (path > 1) || s.ctl.modState == .haltedConfig then .next s
  else if s.host.down then
    let s := modHost s fun h => { h with down := false, standby := if path = h.active then h.standby else 1, active := path }
    let s := capClose (postPath (announcePath s path) 2 path) 3 resNone
    .next (flushAll s)
  else if path ≠ s.host.active ∧ s.host.standby ≠ 2 then
    .next (postPath (modHost s fun h => { h with standby := 2 }) 2 path)
  else .next s

/-- A write of PRT_HOST_PATH (R312): SWITCH makes a trained standby path active; LOST_SEEN is RW1C. -/
def writeHostPath (s : State) (v : Nat) : State :=
  let s := if bit v 1 then modHost s fun h => { h with lostSeen := false } else s
  if bit v 7 && s.host.standby == 2 && !s.host.down then
    let p := 1 - s.host.active
    postPath (announcePath (modHost s fun h => { h with active := p }) p) 1 p
  else s

/-- HOST_PATH_SWITCH (R312). -/
def execHostPathSwitch (t : Nat) (v : Nat) (s : State) : Host.Outcome State Fault Refusal :=
  .next (writeHostPath (atMt s t) v)

/-- The standby path is lost (R312). -/
def loseStandby (s : State) : State :=
  if s.host.standby = 0 then s
  else
    let s := modHost s fun h => { h with standby := 0 }
    postPath (postFault s 0x10 resNone (1 - s.host.active)) 0 (1 - s.host.active)

/-- STANDBY_PATH_LOSS (R312). -/
def execStandbyPathLoss (t : Nat) (s : State) : Host.Outcome State Fault Refusal :=
  let s := atMt s t
  if s.ctl.powered then .next (loseStandby s) else .next s

end Sys2Proof.Machine
end

