-- ==== Sys2Proof/Machine/Tickets.lean ====
section
/-! DEFINITION. Tickets on the clusters (07 R224 to R228): takes, passes with shift and repeat (04 R97 to R105), drains
and the wide buffer (R101), checkpoints (03 R88, R90), tree nodes (R122, R123), tile completion (R226), and the phases of a
compressed output (R121). -/

namespace Sys2Proof.Machine

/-! ## Inboxes -/

/-- One item of an inbox as the cluster controller reads it (R224, R297, R302, R418): a notice is kept, a poisoned one
discards its unit, one of no unit in flight is dropped, a marker goes on to the event queue. -/
def takeInboxItem (s : State) (p : Nat) (it : Item) (bad : Bool) : State :=
  if it.kind = 1 then forwardMarker s it
  else if !((findUnit s it.wuId).any fun u => u.epoch == it.epoch) then staleDrop s 1
  else if bad || it.poison then addCauseK s it.wuId reasonPoison resNone [0]
  else
    match it.notice with
    | none => s
    | some n => modClu s p fun c => { c with notices := c.notices ++ [n] }

/-- A cluster reads every item of its inbox. -/
def drainInbox (s : State) (p : Nat) : State :=
  let b := inboxOf p
  (pdkItems s b.1 b.2).foldl (fun s it => takeInboxItem s p it false) (setQueue s b.1 b.2 [])

/-! ## Takes (R224, R225, R227) -/

/-- Pieces of a tile. -/
def piecesOf (d : DRun) (tile : Nat) : Nat := (tileRun d tile).length

/-- Bytes of a leaf and of an inbox slot (R222). -/
def leafSize (d : DRun) : Nat := 1024 * (if accumulates d && d.comp then 160 else 320)

/-- Slots of the tree inbox in each member (R222): the rest of the working region. -/
def inboxSlots (d : DRun) : Nat :=
  let pmax := d.tickets.foldl (fun a t => max a (piecesOf d t.tile)) 1
  (dWorkLen d.raw - (regionNeed d false pmax - pmax * leafSize d)) / leafSize d

/-- Slots that a home holds for tiles whose first piece is taken and whose root has not left step 6 (R227). -/
def slotsUsed (d : DRun) (home : Nat) : Nat :=
  let open_ := (d.taken.filterMap fun r => d.tickets[r]?).filter fun t => t.kappa == 0
  sumNat ((open_.filter fun t => homeOf d t.tile == home && !(d.rooted.contains t.tile) && decide (1 < piecesOf d t.tile)).map
    fun t => piecesOf d t.tile)

/-- Whether a take that returns this ticket need not wait for its home's inbox (R227). -/
def inboxRoom (d : DRun) (tk : Ticket) : Bool :=
  tk.kappa != 0 || decide (piecesOf d tk.tile ≤ 1) ||
  decide (slotsUsed d (homeOf d tk.tile) + piecesOf d tk.tile ≤ inboxSlots d)

/-- The descriptor that a member takes from (R225): the earliest-issued one whose notice it still holds. -/
def takesFrom (s : State) (c : Cluster) (r : DescRef) : Bool :=
  match findUnit s r.wu with
  | none => true
  | some u => match u.runs.find? fun d => c.notices.any fun n => n.ref == d.ref with
    | none => true
    | some d => d.ref == r || !(u.runs.any fun x => x.ref == r)

/-- Whether a member has room for one more ticket (R225): it runs none, or runs the last pass of its one ticket. -/
def hasRoom (c : Cluster) : Bool :=
  match c.running, c.nextUp with
  | none, _ => true
  | some x, none => x.pass + 1 == x.passes.length
  | some _, some _ => false

/-- A member stops taking from a descriptor. -/
def stopTaking (s : State) (p : Nat) (r : DescRef) : State :=
  modClu s p fun c => { c with notices := c.notices.filter fun n => n.ref != r }

/-- An accumulating ticket starts on a cluster, or waits as the next one (R225). -/
def startRunning (s : State) (p : Nat) (x : Running) : State :=
  modClu s p fun c => match c.running with
    | none => { c with running := some x, ticket := x.number, idleSince := now s }
    | some _ => { c with nextUp := some x }

/-- A leaf joins the tree of its tile at the home (R123, R227). -/
def putLeaf (s : State) (r : DescRef) (tk : Ticket) (vals : List (Option LeafVal)) (bad : List Bool) : State :=
  let e : TreeEntry := { tile := tk.tile, lo := tk.kappa, hi := tk.kappa + 1, vals := vals, bad := bad }
  modRun s r fun d => { d with trees := d.trees ++ [e] }

/-- The values of a finished ticket go to the output path, or as a leaf to their tree (R101, R122, R226). -/
def ticketValues (s : State) (d : DRun) (l : Nat) (tk : Ticket) (vals : List (Option LeafVal)) (bad : List Bool) : State :=
  if piecesOf d tk.tile ≤ 1 then finishTile s d l tk.tile vals bad else putLeaf s d.ref tk vals bad

/-- Trace records of a ticket (R470). -/
def traceTicket (s : State) (kind l : Nat) (d : DRun) (number : Nat) (data : List Byte) : State :=
  let ep := match findUnit s d.ref.wu with | some u => u.epoch | none => 0
  trace s kind (some l) d.ref.wu ep d.ref.idx number data

/-- What an accumulating ticket reads. -/
def readTicket (s : State) (site : Site) (d : DRun) (tk : Ticket) : Except Why (Reading × List (Option Term)) :=
  if isProduct d.op then (readProduct s site d tk).map fun r => (r, [])
  else if d.op = 0x10 then (readReduce s site d tk).map fun r => (r, [])
  else readScan s site d tk

/-- A taken ticket runs (R224): an accumulating one enters the cluster's passes, any other does its work. -/
def runTicket (s : State) (d : DRun) (l number rank : Nat) (tk : Ticket) : State :=
  let site := memberSite s l
  if accumulates d then
    match readTicket s site d tk with
    | .error w => ticketCause s d rank w
    | .ok (rd, lead) =>
      let s := poisonCause s d rank (readMark rd)
      startRunning s (physOf s l) (fillPass d (runningOf d rank number tk rd lead))
  else if d.op = 0x10 then
    match winLeaf s site d tk with
    | .error w => ticketCause s d rank w
    | .ok (vals, m) =>
      traceTicket (ticketValues (poisonCause s d rank m) d l tk vals (List.replicate vals.length m.isSome)) 2 l d number []
  else
    match runDirect s l d tk with
    | .error w => ticketCause s d rank w
    | .ok (s, m) => traceTicket (poisonCause s d rank m) 2 l d number []

/-- The take of a member whose fetch-add returned a ticket. -/
def takeTicket (s : State) (d : DRun) (l number rank : Nat) (tk : Ticket) : State :=
  let s := modRun s d.ref fun x => { x with taken := x.taken ++ [rank] }
  let s := modUnit s d.ref.wu fun u => { u with mtStart := some (u.mtStart.getD (now s)) }
  let s := traceTicket s 1 l d number []
  match findRun s d.ref with
  | some d => runTicket s d l number rank tk
  | none => s

/-- TICKET_TAKE (R224, R225, R227): the fetch-add of the take counter hands out the next ticket; a moved epoch or a count
past T ends the member's takes. A first piece waits for its home's inbox: its take has then not yet happened. -/
def execTicketTake (t l : Nat) (r : DescRef) (s : State) : Host.Outcome State Fault Refusal :=
  let s := atMt s t
  let p := physOf s l
  if !served s l || (getClu s p).halter || (getClu s p).power != .active then .next s
  else
    let s := drainInbox s p
    let c := getClu s p
    match c.notices.find? fun n => n.ref == r with
    | none => .next s
    | some n =>
      if !hasRoom c || !takesFrom s c r then .next s
      else
        let v := (getCtr s (takeCtr n.pair)).value.toNat
        let next : Option (DRun × Nat × Ticket) := match findRun s r with
          | none => none
          | some d => match d.order[v]? with
            | none => none
            | some k => (d.tickets[k]?).map fun tk => (d, k, tk)
        if next.any fun e => !inboxRoom e.1 e.2.2 then .next s
        else
          match fetchAdd s (takeCtr n.pair) 1 (some n.epoch), next with
          | (s, some _), some (d, k, tk) => .next (takeTicket s d l v k tk)
          | (s, _), _ => .next (stopTaking s p r)

/-! ## Passes (R97, R99, R104, R105) -/

/-- Counters of one attempt of a pass (R87, R496): stall cycles, useful MACs, peak MACs of the unstalled span cycles. -/
def countAttempt (s : State) (p : Nat) (x : Running) (span stall : Nat) : State :=
  modClu s p fun c => { c with stall := cap32 (c.stall + stall), useful := c.useful + nth 0 x.useful x.pass,
                               peak := c.peak + x.rate * (span - stall), idleSince := now s }

/-- The pass closes (R97, R105): its tile becomes the drain tile, the next pass starts at the initial shift, or the ticket
ends and the next one starts. -/
def closePass (s : State) (p l : Nat) (d : DRun) (x : Running) : State :=
  let last := x.pass + 1 == x.passes.length
  let dr : Drain := { ref := x.ref, rank := x.rank, tk := x.tk, pass := x.pass, last := last, shift := x.shift, acc := x.fill,
                      bad := nth [] x.bads x.pass, live := x.live }
  let marked := d.isInt && x.fill.any (·.mark)
  let s := modRun s d.ref fun y => { y with shift := max y.shift x.shift, scaled := y.scaled || decide (dInitShift d.raw < x.shift),
                                            satPersist := y.satPersist || marked }
  let s := traceTicket s 3 l d x.number (leBytes 4 x.pass ++ leBytes 1 x.shift)
  if last then
    let s := traceTicket s 2 l d x.number (leBytes 8 x.cycles ++ leBytes 8 x.stalls)
    modClu s p fun c => { c with drain := some dr, running := c.nextUp, nextUp := none, idleSince := now s,
                                 ticket := match c.nextUp with | some y => y.number | none => 0xFFFFFFFF }
  else
    let y := fillPass d { x with pass := x.pass + 1, shift := if d.isInt then dInitShift d.raw else 0 }
    modClu s p fun c => { c with drain := some dr, running := some y }

/-- PASS_END (R88, R97, R104, R105): at the end of an attempt the residue check runs, then the saturation test closes the
pass or repeats it one shift higher. The swap waits for the previous drain: until it finishes the pass has not ended. -/
def execPassEnd (t l spanCycles stallCycles : Nat) (s : State) : Host.Outcome State Fault Refusal :=
  let s := atMt s t
  let p := physOf s l
  match (getClu s p).running with
  | none => .next s
  | some x =>
    match findRun s x.ref with
    | none => .next s
    | some d =>
      let retry := d.isInt && x.fill.any (·.mark) && decide (x.shift < 8)
      if d.isInt && !(x.fill.all residueOk) then .next (declareFailed s p 0x03)
      else if !retry && (getClu s p).drain.isSome then .next s
      else
        let s := countAttempt s p x spanCycles stallCycles
        let x := { x with cycles := x.cycles + spanCycles, stalls := x.stalls + stallCycles }
        if retry then .next (modClu s p fun c => { c with running := some (fillPass d { x with shift := x.shift + 1 }) })
        else .next (closePass s p l d x)

/-! ## Drains (R101) -/

/-- A drained value with the wide buffer's entry in front (R101, R106, R109). -/
def wideAdd (first : Bool) (w : LeafVal × Bool) (v : LeafVal × Bool) : LeafVal × Bool :=
  if first then v else (leafCombine false w.1 v.1, w.2 || v.2)

/-- Whether a leaf stands at a sticky limit (R106, R107). -/
def leafLimit : LeafVal → Bool
  | .i64 v => v == i64Max || v == i64Min
  | _ => false

/-- DRAIN_DONE (R97, R101): only pass or last pass to the output path, others to the wide buffer. -/
def execDrainDone (t l : Nat) (s : State) : Host.Outcome State Fault Refusal :=
  let s := atMt s t
  let p := physOf s l
  let c := getClu s p
  match c.drain with
  | none => .next s
  | some dr =>
    let s := modClu s p fun c => { c with drain := none, wide := [] }
    match findRun s dr.ref with
    | none => .next s
    | some d =>
      let vals := ((numsFrom 0 dr.acc.length).zip dr.acc).map fun e =>
        wideAdd (dr.pass == 0) (nth (.i64 0, false) c.wide e.1) (widen d.isInt dr.shift e.2, nth false dr.bad e.1)
      let s := if vals.any fun v => leafLimit v.1 then modRun s d.ref fun y => { y with satPersist := true } else s
      if dr.last then
        .next (ticketValues s d l dr.tk ((dr.live.zip vals).map fun e => if e.1 then some e.2.1 else none) (vals.map (·.2)))
      else .next (modClu s p fun c => { c with wide := vals })

/-! ## Checkpoints (R88, R90) -/

/-- RESIDUE_CHECKPOINT (R88, R92, R399): each unsaturated integer entry is compared with its residue entry. The operand is
an entry that an upset of the surroundings changed, with the bits it flipped. -/
def execResidueCheckpoint (t l : Nat) (upset : Option (Nat × F32)) (s : State) : Host.Outcome State Fault Refusal :=
  let s := atMt s t
  let p := physOf s l
  match (getClu s p).running with
  | none => .next s
  | some x =>
    match findRun s x.ref with
    | none => .next s
    | some d =>
      if !d.isInt then .next s
      else
        let fill := match upset with
          | none => x.fill
          | some (i, m) => modAt x.fill i fun a => { a with v := a.v ^^^ m }
        if fill.all residueOk then .next (modClu s p fun c => { c with running := some { x with fill := fill } })
        else .next (declareFailed s p 0x03)

/-- CHECKSUM_CHECKPOINT (R90, R92, R399): floating accumulators against the checksum lanes; `fails` is the outcome that the
surroundings' upset of an accumulator or lane brings about, since a fault-free tile never fails. -/
def execChecksumCheckpoint (t l : Nat) (fails : Bool) (s : State) : Host.Outcome State Fault Refusal :=
  let s := atMt s t
  let p := physOf s l
  match (getClu s p).running with
  | none => .next s
  | some x =>
    match findRun s x.ref with
    | none => .next s
    | some d => if !d.isInt && fails then .next (declareFailed s p 0x04) else .next s

/-! ## Trees (R122, R123, R227) -/

/-- Two children of a node combined, left then right (R123). -/
def combineEntries (isMax : Bool) (a b : TreeEntry) : TreeEntry :=
  { tile := a.tile, lo := a.lo, hi := b.hi,
    vals := (a.vals.zip b.vals).map fun e => match e.1, e.2 with
      | some x, some y => some (leafCombine isMax x y)
      | _, _ => none,
    bad := (a.bad.zip b.bad).map fun e => e.1 || e.2 }

/-- The children of a node that have arrived, if the range is a node of the tile's tree. -/
def nodeChildren (d : DRun) (tile lo hi : Nat) : Option (TreeEntry × TreeEntry) :=
  let m := treeMid lo hi
  if hi ≤ lo + 1 ∨ treeParent 8 0 (piecesOf d tile) lo m ≠ some (lo, hi) then none
  else
    match d.trees.find? fun e => e.tile == tile && e.lo == lo && e.hi == m,
          d.trees.find? fun e => e.tile == tile && e.lo == m && e.hi == hi with
    | some a, some b => some (a, b)
    | _, _ => none

/-- TREE_NODE (R123, R227): the home combines the two children, after its own drains; the root goes to the output path. -/
def execTreeNode (t : Nat) (r : DescRef) (tile lo hi : Nat) (s : State) : Host.Outcome State Fault Refusal :=
  let s := atMt s t
  match findRun s r with
  | none => .next s
  | some d =>
    let h := homeOf d tile
    let c := getClu s (physOf s h)
    if !served s h || c.halter || c.drain.isSome then .next s
    else
      match nodeChildren d tile lo hi with
      | none => .next s
      | some (a, b) =>
        let e := combineEntries (dRedKind d.raw == 1 && d.op == 0x10) a b
        let limit := e.vals.any fun o => match o with | some v => leafLimit v | none => false
        let s := modRun s r fun x =>
          { x with trees := (x.trees.filter fun y => y != a && y != b) ++ [e], satPersist := x.satPersist || limit }
        let s := traceTicket s 4 h d r.ticket []
        if lo = 0 ∧ hi = piecesOf d tile then
          .next (match findRun s r with | some d => finishTile s d h tile e.vals e.bad | none => s)
        else .next s

/-! ## Tiles and phases (R121, R226) -/

/-- Whether a descriptor's outputs are written together when its last tile leaves its root (R181; 2:4 outputs; TOPK). -/
def writesLate (d : DRun) : Bool :=
  dCompress d.raw == 3 || !d.held.isEmpty || (outViews d).any fun tv => tv.fmt == 0 && mustHold tv d.tickets

/-- TILE_DONE (R226): a tile whose output has left step 6 adds 1 to the done counter. -/
def execTileDone (t : Nat) (r : DescRef) (tile : Nat) (s : State) : Host.Outcome State Fault Refusal :=
  let s := atMt s t
  match findRun s r with
  | none => .next s
  | some d =>
    match d.pair with
    | none => .next s
    | some p =>
      let all := decide (d.rooted.length ≥ d.tiles)
      if !d.rooted.contains tile || d.done.contains tile || (isPhased d && d.phase != 2) || (writesLate d && !all) then .next s
      else
        match fetchAdd s (doneCtr p) 1 (some d.pairEpoch) with
        | (s, none) => .next s
        | (s, some _) => .next (modRun s r fun x => { x with done := x.done ++ [tile] })

/-- COMPRESS_COUNT (R121): every row-range home counts its kept entries and segment granules. -/
def execCompressCount (t : Nat) (r : DescRef) (s : State) : Host.Outcome State Fault Refusal :=
  let s := atMt s t
  match findRun s r with
  | none => .next s
  | some d =>
    if isPhased d && d.phase == 0 && d.tiles != 0 && decide (d.rooted.length ≥ d.tiles) then
      let l := finalStaged d
      let cs := (dedup (d.tickets.map (·.rho))).map (rangeCount d l)
      .next (modRun s r fun x => { x with counts := cs, phase := 1 })
    else .next s

/-- COMPRESS_PLACE (R121): the output is written at its final positions. -/
def execCompressPlace (t : Nat) (r : DescRef) (s : State) : Host.Outcome State Fault Refusal :=
  let s := atMt s t
  match findRun s r with
  | none => .next s
  | some d =>
    if isPhased d && d.phase == 1 then
      let s := modRun s r fun x => { x with phase := 2 }
      match placeOutput s d with
      | .error w => .next (ticketCause s d d.tickets.length w)
      | .ok (s, m) => .next (poisonCause s d d.tickets.length m)
    else .next s

end Sys2Proof.Machine
end

