-- ==== Sys2Proof/Machine/Streams.lean ====
section
/-! DEFINITION. Streams, the pony path, multicast and the weight caches (08 R234 to R247), the HBM controllers and parity
engines (R249 to R259), and the loss of a pseudo-channel or a stack (R255 to R257, 13 R403). -/

namespace Sys2Proof.Machine

/-! ## Stream requests -/

/-- Requests of an engine now outstanding (R236): reads not arrived and writes not landed. -/
def engineOpen (s : State) (p : Nat) : Nat :=
  (getClu s p).outstanding.length + (s.hbm.pending.filter fun w => w.src == p).length

/-- A stream read at a physical address (R245, R249): through the die's weight cache on a CACHEABLE_WEIGHT page. -/
def streamBytes (s : State) (die pa leaf n : Nat) : State × List (Byte × Bool) :=
  if bit leaf 3 then
    let lines := (numsFrom (pa / 256) ((pa + n - 1) / 256 + 1 - pa / 256)).map fun i => 256 * i
    let s := lines.foldl (fun s a => cacheTouch s die a) s
    (s, cacheBytes s die pa n)
  else (s, paRead s pa n)

/-- A unit notes that it has written a window (R356, R364). -/
def touchWindow (s : State) (wu w : Nat) : State := modUnit s wu fun u => { u with windows := addOnce u.windows w }

/-- Whole aligned elements of 4 bytes in a run at an offset of a window (R359). -/
def windowElems (off : Nat) (l : List (Byte × Bool)) : List (Nat × Word × Bool) :=
  let skip := alignUp off 4 - off
  (numsFrom 0 ((l.length - skip) / 4)).map fun i =>
    let b := (l.drop (skip + 4 * i)).take 4
    ((off + skip) / 4 + i, BitVec.ofNat 32 (leNat (b.map (·.1))), b.any (·.2))

/-- The first listed rank of a window that is unreachable (R361, R362). -/
def lostRank (s : State) (x : Window) : Option Nat :=
  (winRanks x).find? fun d => d != s.peers.rank && (nextHop s d).isNone

/-- A checked write of a descriptor leaves the cluster (R235, R355, R356): to memory, or by its window's kind. -/
def sendWrite (s : State) (p die : Nat) (q : StreamReq) : State :=
  let wins := match findRun s q.ref with | some d => d.wins | none => []
  let plain (s : State) : State := vWrite s die p (.unit q.ref) q.job q.va q.bytes
  match winOf wins q.job q.va with
  | none => plain s
  | some (w, x) =>
    let s := touchWindow s q.ref.wu w
    let off := q.va - winBase x
    match x.kind with
    | 1 => sendDataTo s w x.dest off q.bytes q.ref
    | 3 => ((winRanks x).filter (· != s.peers.rank)).foldl (fun s d => sendDataTo s w d off q.bytes q.ref) (plain s)
    | 4 =>
      (match lostRank s x with
       | some d => addCause s q.ref.wu reasonPeerLost (resRank d)
       | none =>
         let ep := match findUnit s q.ref.wu with | some u => u.epoch | none => 0
         contribute s w x q.ref ep (windowElems off q.bytes))
    | _ => plain s

/-- STREAM_REQUEST_ISSUE (R234 to R236, R262, R355): the request at the front of the walk leaves once fewer than 256 are
outstanding, its page checked first; a refused page discards the unit and sends nothing. -/
def execStreamRequestIssue (t p : Nat) (s : State) : Host.Outcome State Fault Refusal :=
  let s := atMt s t
  let c := getClu s p
  match c.walk with
  | [] => .next s
  | q :: rest =>
    if c.power != .active || c.halter || decide (engineOpen s p ≥ 256) then .next s
    else
      let die := dieOfPhys p
      let s := setClu s p { c with walk := rest, idleSince := now s }
      match descXlate s die q.job q.va q.write with
      | .ok pa leaf =>
        let s := touchRange (tlbFill s die q.job q.va) q.ref.wu die q.job q.va q.len
        if q.write then .next (sendWrite s p die q)
        else
          let (s, l) := streamBytes s die pa leaf q.len
          .next (modClu s p fun c => { c with outstanding := c.outstanding ++ [{ q with tag := c.nextTag, bytes := l }],
                                              nextTag := c.nextTag + 1 })
      | x => let w := xlateWhy q.job q.va x
             .next (addCauseK s q.ref.wu w.1 w.2 [0, q.ref.idx, q.ref.ticket])

/-- One delivered piece of a read: source bit, scratchpad bit, width, all of whole bytes (R235). -/
def landPiece (q : StreamReq) (c : Cluster) (e : Nat × Nat × Nat) : Cluster :=
  cluWrite c (e.2.1 / 8) ((q.bytes.drop (e.1 / 8 - q.va)).take (e.2.2 / 8))

/-- Whether a read delivers poison, in the granules of its bytes. -/
def pieceBad (q : StreamReq) : Bool :=
  q.pieces.any fun e => ((q.bytes.drop (e.1 / 8 - q.va)).take (e.2.2 / 8)).any (·.2)

/-- STREAM_READ_ARRIVAL (R237, R267): the data lands in slot 4; poison that a PRELOAD copies into its resident buffer
discards the unit. -/
def execStreamReadArrival (t p tag : Nat) (s : State) : Host.Outcome State Fault Refusal :=
  let s := atMt s t
  let c := getClu s p
  match c.outstanding.find? fun q => q.tag == tag && !q.write with
  | none => .next s
  | some q =>
    let c := q.pieces.foldl (landPiece q) { c with outstanding := c.outstanding.filter fun x => x.tag != tag || x.write }
    let s := setClu s p { c with idleSince := now s }
    if pieceBad q then .next (addCauseK s q.ref.wu reasonPoison (resPage q.va) [0, q.ref.idx, q.ref.ticket]) else .next s

/-! ## Pony path (R240, R241) -/

/-- The descriptor on whose behalf a cluster's controller works, if a ticket runs. -/
def ponyRef (c : Cluster) : Option DescRef := c.running.map (·.ref)

/-- A cause for the unit of a pony transfer. -/
def ponyCause (s : State) (r : Option DescRef) (w : Why) : State :=
  match r with
  | some x => addCause s x.wu w.1 w.2
  | none => s

/-- PONY_TRANSFER (R240, R253, R262, R267): up to 256 bytes between memory and the scratchpad, past the weight cache. -/
def execPonyTransfer (t p : Nat) (write : Bool) (job va spadOff len : Nat) (s : State) : Host.Outcome State Fault Refusal :=
  let s := atMt s t
  let c := getClu s p
  let die := dieOfPhys p
  let r := ponyRef c
  if len = 0 ∨ 256 < len ∨ c.power ≠ .active ∨ c.halter = true then .next s
  else if write then
    match vWriteCheck s die job va len with
    | some w => .next (ponyCause s r w)
    | none =>
      let s := noteReads s p (runWords (spadAddr spadOff) len)
      let s := tlbFillRange s die job va len
      let s := match r with | some x => touchRange s x.wu die job va len | none => s
      let who : Writer := match r with | some x => .unit x | none => .nobody
      .next (vWrite s die p who job va (spadRead c.spad spadOff len))
  else
    match vRead s die job va len with
    | .error w => .next (ponyCause s r w)
    | .ok l =>
      let s := tlbFillRange s die job va len
      let s := match r with | some x => touchRange s x.wu die job va len | none => s
      .next (modClu s p fun c => cluWrite c spadOff l)

/-! ## The weight cache (R245, R247) -/

/-- A line dropped from a die's cache. -/
def dropLine (s : State) (die pa : Nat) : State :=
  { s with hbm := { s.hbm with caches := tblMod [] s.hbm.caches die fun l => l.filter fun c => c.pa != pa } }

/-- An upset of a cached line (R247, R401): one bit is corrected and counted; more invalidate the line. -/
def upsetLine (s : State) (die pa : Nat) (n : Nat) : State :=
  if (cacheLines s die).any (fun c => c.pa == pa) = false ∨ n = 0 then s
  else if n = 1 then
    postFault { s with hbm := { s.hbm with cacheCe := tblInc s.hbm.cacheCe die } } 0x01 (resDie die) 0xFFFF
  else postFault (dropLine s die pa) 0x02 (resDie die) 0xFFFF

/-- WEIGHT_CACHE_READ (R245 to R247): the lines of a read are served by the die's cache, absent ones fetched and filled; an
upset of the first line is corrected, or the line is fetched again. -/
def execWeightCacheRead (t die pa len : Nat) (upset : Option Nat) (s : State) : Host.Outcome State Fault Refusal :=
  let s := atMt s t
  if decide (3 < die) || len == 0 || decide (serviceCap s < pa + len) || !s.ctl.powered then .next s
  else
    let s := match upset with
      | none => s
      | some n => upsetLine s die (pa - pa % 256) n
    .next ((numsFrom (pa / 256) ((pa + len - 1) / 256 + 1 - pa / 256)).foldl (fun s i => cacheTouch s die (256 * i)) s)

/-! ## Granules (R249, R250, R254) -/

/-- The stack that holds a data address. -/
def stackOf (da : Nat) : Nat := dataStack (rowOf da) (da / 4096 % 19)

/-- Whether a granule is stored and not marked poisoned: what a decode can find an error in. -/
def decodable (s : State) (da : Nat) : Bool :=
  !dataLost s (rowOf da) (da / 4096 % 19) && !s.hbm.poison.contains (da / 64)

/-- A data unit reaches the retirement threshold (R259). -/
def noteRetire (s : State) (unit : Nat) : State :=
  { s with hbm := { s.hbm with retireDue := addOnce s.hbm.retireDue unit } }

/-- An uncorrectable granule (R254, R259, R401): counted, reported, reconstructed and written back; where the
reconstruction fails its bytes are unspecified and poisoned. -/
def reconGranule (s : State) (da : Nat) : State :=
  let a := da / 64 * 64
  let n := rowOf a
  let d := a / 4096 % 19
  let s := { s with hbm := { s.hbm with ue := tblInc s.hbm.ue (stackOf a) } }
  let s := noteRetire (postFault s 0x11 (resStack (stackOf a)) (stackOf a)) (a / 4096)
  if (numsFrom (a % 4096) 64).any (reconBad s n d) then
    let (s, l) := freeBytes s 64
    landPoison (landBytes s a l) [(a / 64, true, true)]
  else
    let l := (numsFrom (a % 4096) 64).map fun o => (reconstruct s n d o, false)
    landBytes s a l

/-- A granule corrected by the controller's code (R249). -/
def correctGranule (s : State) (da : Nat) : State :=
  { s with hbm := { s.hbm with ce := tblInc s.hbm.ce (stackOf da) } }

/-- HBM_READ (R249, R250, R254): a granule's decode; up to 3 symbols are corrected, more are reconstructed. -/
def execHbmRead (t pa : Nat) (res : Decode64) (s : State) : Host.Outcome State Fault Refusal :=
  let s := atMt s t
  let da := dataAddr s pa
  if decide (serviceCap s ≤ pa) || !s.ctl.powered || !decodable s da then .next s
  else
    match res with
    | .clean => .next s
    | .corrected n => if n = 0 then .next s else if n ≤ 3 then .next (correctGranule s da) else .next (reconGranule s da)
    | .uncorrectable => .next (reconGranule s da)

/-- A patrol visit's corrected granule (R258, R259): rewritten, and counted toward the retirement of its unit within 7
days. -/
def patrolHit (s : State) (da : Nat) : State :=
  let g := da / 64
  let s := correctGranule s da
  let hits := (tblGet [] s.hbm.scrubHits g ++ [now s]).filter fun x => decide (now s ≤ x + 1512000000000000)
  let s := { s with hbm := { s.hbm with scrubHits := tblSet s.hbm.scrubHits g hits } }
  if hits.length ≥ cfgHbmRetireCe s then noteRetire s (da / 4096) else s

/-- PATROL_SCRUB_VISIT (R258): the patrol reads one granule of the service space. -/
def execPatrolScrubVisit (t pa : Nat) (res : Decode64) (s : State) : Host.Outcome State Fault Refusal :=
  let s := atMt s t
  let da := dataAddr s pa
  if decide (serviceCap s ≤ pa) || !s.ctl.powered then .next s
  else
    let s := { s with hbm := { s.hbm with scrubProgress := pa * 65536 / serviceCap s } }
    if !decodable s da then .next s
    else
      match res with
      | .clean => .next s
      | .corrected n => if n = 0 then .next s else if n ≤ 3 then .next (patrolHit s da) else .next (reconGranule s da)
      | .uncorrectable => .next (reconGranule s da)

/-! ## Parity engines (R253) -/

/-- Writers without repeats. -/
def writersOf (l : List PendingWrite) : List Writer :=
  l.foldl (fun a w => if a.contains w.who then a else a ++ [w.who]) []

/-- PARITY_WRITE (R253): the pending writes of a stripe row land in arrival order, and each writer whose last piece has
landed is served (R319, R357, R359). -/
def execParityWrite (t row : Nat) (s : State) : Host.Outcome State Fault Refusal :=
  let s := atMt s t
  let ws := s.hbm.pending.filter fun w => pendingRow s w == row
  if ws.isEmpty then .next s
  else .next ((writersOf ws).foldl writerLanded (landRow s row))

/-! ## Retirement (R259) -/

/-- Free pool frames (HBM_POOL_FREE): 0 in Single Guard. -/
def poolFrames (s : State) : Nat := if cfgSingleGuard s then 0 else 2048 - s.hbm.poolUsed

/-- Data frames with data in a stripe row. -/
def rowFrames (n : Nat) : List Nat := dedup ((numsFrom (19 * n) 19).map fun u => u / 512)

/-- The service frame that now lies in a data frame. -/
def frameUser (s : State) (f : Nat) : Option Nat :=
  match s.hbm.frameMap.find? fun e => e.2 == f with
  | some e => some e.1
  | none => if f < serviceCap s / 2097152 ∧ (tblFind s.hbm.frameMap f).isNone then some f else none

/-- The contents of a data frame copied into a pool frame (R259 steps 2 and 3): data with its parity, and poison. -/
def copyFrame (s : State) (src dst : Nat) : State :=
  let a := 2097152 * src
  let z := 2097152 * dst
  if nothingLost s then
    let cells := s.hbm.data.filter fun e => decide (a ≤ e.1) && decide (e.1 < a + 2097152)
    let bad := s.hbm.poison.filter fun g => decide (a ≤ 64 * g) && decide (64 * g < a + 2097152)
    let s := cells.foldl (fun s e => landBytes s (z + (e.1 - a)) [(e.2, false)]) s
    landPoison s (bad.map fun g => (z / 64 + (g - a / 64), true, true))
  else
    let l := (numsFrom a 2097152).map (dataByte s)
    landPoison (landBytes s z l) (runGranules z l)

/-- One frame retired into the next free pool frame (R259). -/
def retireFrame (s : State) (f : Nat) : State :=
  match frameUser s f with
  | none => s
  | some u =>
    let q := 737280 + s.hbm.poolUsed
    let s := copyFrame s f q
    let s := { s with hbm := { s.hbm with frameMap := tblSet s.hbm.frameMap u q, poolUsed := s.hbm.poolUsed + 1 } }
    let s := { s with flash := { s.flash with retiredPending := s.flash.retiredPending ++ [u] } }
    post s { code := 0x0004, params := [u, poolFrames s] }

/-- PAGE_RETIRE (R259): the frames of the unit's row move to pool frames; without a pool, or without enough of it, the unit
joins the lost region. -/
def execPageRetire (t unit : Nat) (s : State) : Host.Outcome State Fault Refusal :=
  let s := atMt s t
  if s.hbm.retireDue.contains unit then
    let s := { s with hbm := { s.hbm with retireDue := s.hbm.retireDue.filter (· != unit) } }
    let fs := (rowFrames (unit / 19)).filter fun f => (frameUser s f).isSome
    if fs.isEmpty then .next s
    else if fs.length ≤ poolFrames s then .next (fs.foldl retireFrame s)
    else
      let stack := dataStack (unit / 19) (unit % 19)
      let s := { s with hbm := { s.hbm with lostUnits := addOnce s.hbm.lostUnits (stack * 2 ^ 25 + unit / 19) } }
      let s := post s { code := 0x0004, params := [((frameUser s (unit / 512)).getD (unit / 512)), poolFrames s] }
      .next (capOpen s 2 (resStack stack))
  else .next s

/-- RETIREMENT_APPEND (R259): retirements made are appended to the configuration flash. -/
def execRetirementAppend (t : Nat) (s : State) : Host.Outcome State Fault Refusal :=
  let s := atMt s t
  if s.ctl.powered then
    .next { s with flash := { s.flash with retired := s.flash.retired ++ s.flash.retiredPending, retiredPending := [] } }
  else .next s

/-! ## Lost regions (R255 to R257, R403, R427) -/

/-- RESOURCE of a lost region (R407). -/
def regionRes (r : LostRegion) : Nat := match r.pc with | none => resStack r.stack | some c => resPseudo r.stack c

/-- A region becomes lost (R255, R256, R427): in Full Guard its rebuild starts at once. -/
def loseRegion (s : State) (r : LostRegion) : State :=
  let keep (q : LostRegion) : Bool := !(r.pc.isNone && q.stack == r.stack)
  let s := { s with hbm := { s.hbm with lost := (s.hbm.lost.filter keep) ++ [r],
                                        rebuilding := s.hbm.rebuilding || !cfgSingleGuard s,
                                        rebuildProgress := if s.hbm.rebuilding then s.hbm.rebuildProgress else 0 } }
  capOpen s 2 (regionRes r)

/-- Whether a region lies in one already lost. -/
def regionKnown (s : State) (stack : Nat) (pc : Option Nat) : Bool :=
  s.hbm.lost.any fun q => q.stack == stack && (q.pc == none || q.pc == pc)

/-- PSEUDO_CHANNEL_FAIL (R255, R403): the units that have used the channel are discarded. -/
def execPseudoChannelFail (t stack pc : Nat) (s : State) : Host.Outcome State Fault Refusal :=
  let s := atMt s t
  if !s.ctl.powered || decide (20 ≤ stack) || decide (64 ≤ pc) || regionKnown s stack (some pc) then .next s
  else
    let res := resPseudo stack pc
    let s := postFault s 0x12 res stack
    let s := addCauses s (fun u => u.touchedPcs.any fun e => e.1 == 64 * stack + pc) reasonHwFault res
    .next (loseRegion s { stack := stack, pc := some pc, rebuilt := false })

/-- Every unit in flight is discarded after a stack's loss (R255, R403). -/
def failStack (s : State) (stack mech : Nat) : State :=
  let s := postFault s mech (resStack stack) stack
  loseRegion (addCauses s (fun _ => true) reasonHwFault (resStack stack)) { stack := stack, pc := none, rebuilt := false }

/-- STACK_FAIL (R255, R256, R403). -/
def execStackFail (t stack : Nat) (s : State) : Host.Outcome State Fault Refusal :=
  let s := atMt s t
  if !s.ctl.powered || decide (20 ≤ stack) || regionKnown s stack none then .next s else .next (failStack s stack 0x13)

/-- The bytes of a row at one offset after a rebuild (R256): units that are lost no longer hold their reconstruction, and a
parity unit that is lost no longer holds the parity of the data. -/
def rebuildAt (b a : State) (n o : Nat) : State :=
  let a := (numsFrom 0 19).foldl (fun (a : State) d =>
    if dataLost b n d && !dataLost a n d then
      { a with hbm := { a.hbm with data := cellSet a.hbm.data (unitByte n d o) (reconstruct b n d o) } }
    else a) a
  if parityLost b n && !parityLost a n then
    let x := (numsFrom 0 19).foldl (fun x d => x ^^^ cellGet a.hbm.data (unitByte n d o)) (0 : Byte)
    { a with hbm := { a.hbm with parity := cellSet a.hbm.parity (4096 * n + o) x } }
  else a

/-- The poison of a row's granules at one granule offset after a rebuild (R254, R256). -/
def rebuildPoison (b a : State) (n g : Nat) : State :=
  let a := (numsFrom 0 19).foldl (fun (a : State) d =>
    if dataLost b n d && !dataLost a n d then landPoison a [(unitByte n d (64 * g) / 64, true, reconBad b n d (64 * g))] else a) a
  if parityLost b n && !parityLost a n then
    let bad := (numsFrom 0 19).any fun d => a.hbm.poison.contains (unitByte n d (64 * g) / 64)
    let k := 64 * n + g
    { a with hbm := { a.hbm with poisonSeen := if bad then addOnce a.hbm.poisonSeen k else a.hbm.poisonSeen.filter (· != k) } }
  else a

/-- The state with its first lost region that is not rebuilt now rebuilt into the distributed spare (R256, R257). -/
def rebuildRegion (s : State) (r : LostRegion) : State :=
  let others := s.hbm.lost.filter fun q => q != r
  let holes := (others.filter fun q => !q.rebuilt).map (·.pc) ++ others.flatMap (·.holes)
  let done (q : LostRegion) : LostRegion := if q = r then { q with rebuilt := true, holes := holes } else q
  let a := { s with hbm := { s.hbm with lost := s.hbm.lost.map done } }
  let keys := dedup (s.hbm.data.map (fun e => 4096 * rowOf e.1 + e.1 % 4096) ++ s.hbm.parity.map (·.1))
  let a := keys.foldl (fun a k => rebuildAt s a (k / 4096) (k % 4096)) a
  let grs := dedup (s.hbm.poisonSeen ++ s.hbm.poison.map fun g => 64 * rowOf (64 * g) + g % 64)
  grs.foldl (fun a k => rebuildPoison s a (k / 64) (k % 64)) a

/-- REBUILD_COMPLETE (R256, R257, R427): only in Full Guard does a rebuild run. -/
def execRebuildComplete (t : Nat) (s : State) : Host.Outcome State Fault Refusal :=
  let s := atMt s t
  match s.hbm.rebuilding, s.hbm.lost.find? fun q => !q.rebuilt with
  | true, some r =>
    let s := rebuildRegion s r
    let more := s.hbm.lost.any fun q => !q.rebuilt
    let s := { s with hbm := { s.hbm with rebuilding := more, rebuildProgress := if more then 0 else 65535 } }
    .next (capClose (post s { code := 0x0005, res := regionRes r }) 2 (regionRes r))
  | _, _ => .next s

/-! ## Multicast (R242 to R244) -/

/-- A region read by a cluster and written by another at one offset. -/
def deliver (s : State) (l off : Nat) (data : List (Byte × Bool)) : State := modClu s (physOf s l) fun c => cluWrite c off data

/-- MULTICAST_SEND (R242, R243, R267): each receiver that accepts writes the region; the others wait for their time limit. -/
def execMulticastSend (t sender srcOff len dstOff : Nat) (receivers accepted : List Nat) (origin : Origin) (s : State) :
    Host.Outcome State Fault Refusal :=
  let s := atMt s t
  let c := getClu s (physOf s sender)
  if !served s sender || c.halter || c.power != .active || len == 0 || decide (spadSize < len) then .next s
  else
    let s := noteReads s (physOf s sender) (runWords (spadAddr srcOff) len)
    let data := spadRead c.spad srcOff len
    let due := now s + cfgMcastWait s
    .next (receivers.foldl (fun s l =>
      if accepted.contains l then deliver s l dstOff data
      else modClu s (physOf s l) fun c => { c with mcastWait := c.mcastWait ++ [(dstOff, len, due, origin)] }) s)

/-- What a refetch from an origin delivers (R243). -/
def refetch (s : State) (l len : Nat) : Origin → Except Why (List (Byte × Bool))
  | .hbm job va => vRead s (dieOfPhys (physOf s l)) job va len
  | .spad o off => .ok (spadRead (getClu s (physOf s o)).spad off len)

/-- MULTICAST_WAIT_EXPIRY (R243): the receiver is dropped from the delivery, the miss is counted, and it refetches. -/
def execMulticastWaitExpiry (t receiver : Nat) (s : State) : Host.Outcome State Fault Refusal :=
  let s := atMt s t
  let p := physOf s receiver
  let c := getClu s p
  match c.mcastWait.find? fun e => decide (e.2.2.1 ≤ now s) with
  | none => .next s
  | some e =>
    let s := setClu s p { c with mcastWait := c.mcastWait.erase e, mcastMiss := cap32 (c.mcastMiss + 1) }
    match refetch s receiver e.2.1 e.2.2.2 with
    | .ok l => .next (deliver s receiver e.1 l)
    | .error w => .next (ponyCause s (ponyRef c) w)

end Sys2Proof.Machine
end

