-- ==== Sys2Proof/Machine/FaultCmds.lean ====
section
/-! DEFINITION. Heartbeats (09 R286, R287), the failure, remount and retest of clusters (13 R410 to R413), Yarrow (R423, R424;
15 R467), supervisors (12 R367 to R369), X's duplicated units (13 R421), and the masked faults of links, PLLs and regulators
(R403, R419, R420; 12 R388). -/

namespace Sys2Proof.Machine

/-! ## Heartbeats -/

/-- The requester number of a sender of heartbeats (R272). -/
def beaterReq : Beater → Nat
  | .cluster p => p
  | .dieSup d => 544 + d

/-- Whether a sender is expected to send heartbeats (R286, R287). -/
def beats (s : State) : Beater → Bool
  | .cluster p => decide (p < 544) && ((getClu s p).power == .active || (getClu s p).power == .gated) && !(getClu s p).halter
  | .dieSup d => decide (d < 4) && !s.ctl.dieSupLost.contains d

/-- HEARTBEAT (R286, R287). -/
def execHeartbeat (t : Nat) (who : Beater) (s : State) : Host.Outcome State Fault Refusal :=
  let s := atMt s t
  if isReady s && beats s who then
    let s := modReins s fun r => { r with lastBeat := tblSet r.lastBeat (beaterReq who) (now s) }
    match who with
    | .cluster p => .next (modClu s p fun c => { c with wokeAt := none })
    | .dieSup _ => .next s
  else .next s

/-- A die supervisor lost as a whole (R369, R403, R427). -/
def loseDieSup (s : State) (d : Nat) : State :=
  let s := postFault s 0x17 (resDie d) 0xFFFF
  let s := addCauses s (fun u => u.touched.any fun l => l / 128 == d) reasonHwFault (resDie d)
  let s := { s with ctl := { s.ctl with dieSupLost := addOnce s.ctl.dieSupLost d } }
  capOpen s 4 (resDie d)

/-- HEARTBEAT_TIMEOUT (R286): three heartbeats of 100 us missed. -/
def execHeartbeatTimeout (t : Nat) (who : Beater) (s : State) : Host.Outcome State Fault Refusal :=
  let s := atMt s t
  if isReady s && beats s who && decide (tblGet 0 s.reins.lastBeat (beaterReq who) + 750000 ≤ now s) then
    match who with
    | .cluster p => if (getClu s p).wokeAt.isNone then .next (declareFailed s p 0x08) else .next s
    | .dieSup d => .next (loseDieSup s d)
  else .next s

/-- WAKE_HEARTBEAT_TIMEOUT (R287): 10 us after the wake reached the cluster. -/
def execWakeHeartbeatTimeout (t p : Nat) (s : State) : Host.Outcome State Fault Refusal :=
  let s := atMt s t
  match (getClu s p).wokeAt with
  | none => .next s
  | some m => if p < 544 ∧ isReady s ∧ m + 25000 ≤ now s then .next (declareFailed s p 0x08) else .next s

/-! ## Failed clusters -/

/-- CLUSTER_FAIL_DECLARE (R403, R410 to R412): by one of the mechanisms 0x03 to 0x0A. -/
def execClusterFailDeclare (t p mech : Nat) (s : State) : Host.Outcome State Fault Refusal :=
  let s := atMt s t
  if isReady s ∧ p < 544 ∧ 3 ≤ mech ∧ mech ≤ 0x0A then .next (declareFailed s p mech) else .next s

/-- Rows that failed a march mapped out (R162): none when some bank has no spare left. -/
def mapOutRows (s : State) (p : Nat) : List (Nat × Nat) → Option State
  | [] => some s
  | (bank, row) :: r =>
    let c := getClu s p
    if sparesUsed c bank ≥ 48 then none
    else
      let n := sparesUsed c bank
      let s := setClu s p { c with remap := c.remap.filter (fun e => !(e.1 == bank && e.2.1 == row)) ++ [(bank, row, n)],
                                   spareUsed := tblSet c.spareUsed bank (n + 1) }
      let e : RepairEntry := { cluster := p, bank := bank, row := row, field := true }
      mapOutRows { s with flash := { s.flash with repairPending := s.flash.repairPending ++ [e] } } p r

/-- SPARE_TEST_DONE (R411 steps 4 to 6, R412): the woken spare takes the logical number, or is failed and the number absent. -/
def execSpareTestDone (t g : Nat) (pass : Bool) (badRows : List (Nat × Nat)) (s : State) : Host.Outcome State Fault Refusal :=
  let s := atMt s t
  match s.clu.remounts.find? fun r => r.l / 16 == g with
  | none => .next s
  | some r =>
    if (getClu s r.spare).power ≠ .active then .next s
    else
      match pass, mapOutRows s r.spare badRows with
      | true, some s =>
        let s := { s with clu := { s.clu with remounts := s.clu.remounts.filter fun x => x.l != r.l } }
        .next (serveBy s r.l r.spare r.failed r.buffers)
      | _, _ => .next (declareFailed s r.spare 0x1A)

/-- RETEST (R412, R413): a cluster that passes becomes its group's spare, and takes an absent number of the group. -/
def execRetest (t p : Nat) (pass : Bool) (badRows : List (Nat × Nat)) (s : State) : Host.Outcome State Fault Refusal :=
  let s := atMt s t
  if (getClu s p).role ≠ .failedRetest then .next s
  else
    match pass, mapOutRows s p badRows with
    | true, some s =>
      let s := modClu s p fun c => { c with role := .spare, halter := false, power := .off }
      match (numsFrom (16 * groupOf p) 16).find? fun l => (getLmap s l).absent with
      | none => .next s
      | some l => .next (startRemount s l (getLmap s l).p p [])
    | _, _ =>
      let s := postFault s 0x19 resNone p
      .next (modClu s p fun c => { c with role := .failed })

/-! ## Yarrow -/

/-- Whether a physical cluster may be visited now (R423): idle and in no footprint held or reserved, or a spare held OFF. -/
def mayVisit (s : State) (p : Nat) : Bool :=
  let c := getClu s p
  let asked := s.clu.yarrowResult == 1 && s.clu.yarrowReq == p
  let reserved (l : Nat) : Bool := s.disp.units.any fun u => atLayer u && (footprint s u).contains l
  isReady s && decide (p < 544) && !c.halter && (s.clu.yarrowOn || asked) &&
  (match c.role, logicalOf s p with
   | .serving, some l => (c.power == .gated || c.power == .asleep) && !physHeld s p && !reserved l
   | .spare, _ => c.power == .off && !(s.clu.remounts.any fun r => r.spare == p)
   | _, _ => false)

/-- The result of a requested visit (R467, R474): 2 passed, 3 failed. -/
def yarrowAnswer (s : State) (p r : Nat) : State :=
  if s.clu.yarrowResult = 1 ∧ s.clu.yarrowReq = p then
    kyendYarrowEnds { s with clu := { s.clu with yarrowResult := r } } p (if r = 2 then "passed" else "failed")
  else s

/-- YARROW_VISIT (R423, R424): a visit leaves a serving cluster ACTIVE and a spare OFF; a failed one fails the cluster with
code 0x19; an interrupted one counts as not done. -/
def execYarrowVisit (t p : Nat) (res : VisitResult) (s : State) : Host.Outcome State Fault Refusal :=
  let s := atMt s t
  if mayVisit s p then
    let woken := if (getClu s p).role = .spare then s else makeActive s p
    match res with
    | .passed => .next (yarrowAnswer (modClu woken p fun c => { c with lastVisit := now s }) p 2)
    | .interrupted => .next woken
    | .failed =>
      let s := { woken with clu := { woken.clu with yarrowFails := min 65535 (woken.clu.yarrowFails + 1) } }
      .next (declareFailed (yarrowAnswer s p 3) p 0x19)
  else .next s

/-- A write of DBG_YARROW_CMD (R467): GO requests a visit unless one is waiting. -/
def writeYarrow (s : State) (v : Nat) : State :=
  if bit v 31 ∧ bits v 9 0 < 544 ∧ s.clu.yarrowResult ≠ 1 then
    { s with clu := { s.clu with yarrowReq := bits v 9 0, yarrowResult := 1, yarrowAt := now s } }
  else s

/-- DBG_YARROW_CMD (R467): the block exists only in development mode. -/
def execDbgYarrowCmd (t v : Nat) (s : State) : Host.Outcome State Fault Refusal :=
  let s := atMt s t
  if isReady s && cfgDevMode s then .next (writeYarrow s v) else .next s

/-- YARROW_REQUEST_CANCEL (R467): a request not completed within 10 s. -/
def execYarrowRequestCancel (t : Nat) (s : State) : Host.Outcome State Fault Refusal :=
  let s := atMt s t
  if s.clu.yarrowResult = 1 ∧ s.clu.yarrowAt + 25000000000 ≤ now s then
    .next (kyendYarrowEnds { s with clu := { s.clu with yarrowResult := 0 } } s.clu.yarrowReq "cancelled")
  else .next s

/-! ## Supervisors -/

/-- Members of a die supervisor's vote. -/
def dieMembers (s : State) (d : Nat) : List Nat := tblGet [0, 1, 2] s.ctl.dieVote d

/-- SUPERVISOR_VOTE_MISMATCH (R367 to R369): the core leaves the vote; the module's hot spare takes its place; a die goes on
with two, and with two already is lost. -/
def execSupervisorVoteMismatch (t : Nat) (which : VoteSet) (core : Nat) (s : State) : Host.Outcome State Fault Refusal :=
  let s := atMt s t
  match which with
  | .module =>
    if s.ctl.powered ∧ s.ctl.modVote.contains core ∧ 3 ≤ s.ctl.modVote.length then
      let s := postFault s 0x16 resModule 0xFFFF
      let rest := s.ctl.modVote.filter (· != core)
      match s.ctl.modSpare with
      | some x => .next { s with ctl := { s.ctl with modVote := rest ++ [x], modSpare := none } }
      | none => .next { s with ctl := { s.ctl with modVote := rest } }
    else .next s
  | .die d =>
    if s.ctl.powered ∧ d < 4 ∧ (dieMembers s d).contains core ∧ s.ctl.dieSupLost.contains d = false then
      let s := postFault s 0x16 (resDie d) 0xFFFF
      if (dieMembers s d).length ≤ 2 then .next (loseDieSup s d)
      else .next { s with ctl := { s.ctl with dieVote := tblSet s.ctl.dieVote d ((dieMembers s d).filter (· != core)) } }
    else .next s

/-- Cores 0 to 3 of the module supervisor that neither vote nor stand by. -/
def idleCore (s : State) : Option Nat :=
  (List.range 4).find? fun c => !s.ctl.modVote.contains c && s.ctl.modSpare != some c

/-- SUPERVISOR_RESYNC_DONE (R367, R380): a die's core rejoins the vote; a core of the module supervisor rejoins it, or becomes
the spare. A core that failed Primrose stays out until the next start. -/
def execSupervisorResyncDone (t : Nat) (which : VoteSet) (s : State) : Host.Outcome State Fault Refusal :=
  let s := atMt s t
  match which with
  | .module =>
    if s.ctl.powered ∧ s.ctl.failedCores.contains 4 = false then
      match idleCore s with
      | none => .next s
      | some c =>
        if s.ctl.modVote.length < 3 then .next { s with ctl := { s.ctl with modVote := s.ctl.modVote ++ [c] } }
        else .next { s with ctl := { s.ctl with modSpare := some c } }
    else .next s
  | .die d =>
    if s.ctl.powered ∧ d < 4 ∧ s.ctl.failedCores.contains d = false ∧ s.ctl.dieSupLost.contains d = false then
      .next { s with ctl := { s.ctl with dieVote := tblErase s.ctl.dieVote d } }
    else .next s

/-- DIE_SUPERVISOR_LOSS (R369). -/
def execDieSupervisorLoss (t die : Nat) (s : State) : Host.Outcome State Fault Refusal :=
  let s := atMt s t
  if s.ctl.powered ∧ die < 4 ∧ s.ctl.dieSupLost.contains die = false then .next (loseDieSup s die) else .next s

/-- DIE_SUPERVISOR_RELOAD_DONE (R369, R427). -/
def execDieSupervisorReloadDone (t die : Nat) (s : State) : Host.Outcome State Fault Refusal :=
  let s := atMt s t
  if s.ctl.dieSupLost.contains die then
    let vote := if s.ctl.failedCores.contains die then tblSet s.ctl.dieVote die [0, 1] else tblErase s.ctl.dieVote die
    let s := { s with ctl := { s.ctl with dieSupLost := s.ctl.dieSupLost.filter (· != die), dieVote := vote } }
    let s := modReins s fun r => { r with lastBeat := tblSet r.lastBeat (544 + die) (now s) }
    .next (capClose s 4 (resDie die))
  else .next s

/-! ## X's duplicated units -/

/-- X_UNIT_MISMATCH (R403, R421, R427): the dispatcher or the walker discards every unit and restarts; the transport and
crypto engines drop the message being processed, which then has no effect. -/
def execXUnitMismatch (t : Nat) (unit : XUnit) (s : State) : Host.Outcome State Fault Refusal :=
  let s := atMt s t
  if !isReady s then .next s
  else
    let s := postFault s 0x18 resModule 0xFFFF
    match unit with
    | .dispatcher | .tileWalker =>
      let s := addCauses s (fun _ => true) reasonHwFault resModule
      .next (capOpen { s with disp := { s.disp with restarting := true } } 5 resModule)
    | .transport | .crypto => .next s

/-- DISPATCHER_RESTART_DONE (R421, R427). -/
def execDispatcherRestartDone (t : Nat) (s : State) : Host.Outcome State Fault Refusal :=
  let s := atMt s t
  if s.disp.restarting then .next (capClose { s with disp := { s.disp with restarting := false } } 5 resModule) else .next s

/-! ## Links, PLLs, regulators -/

/-- NOC_FLIT_CRC_FAIL (R419): the flit is retried; more than 16 retries within 1 ms fail the link, which is routed around. -/
def execNocFlitCrcFail (t die link : Nat) (s : State) : Host.Outcome State Fault Refusal :=
  let s := atMt s t
  if s.ctl.powered ∧ die < 4 ∧ link < 256 then
    let k := 256 * die + link
    let l := now s :: (tblGet [] s.flt.nocRetries k).filter fun m => decide (now s < m + 2500000)
    let dead := if 16 < l.length then addOnce s.flt.nocDead k else s.flt.nocDead
    .next (postFault { s with flt := { s.flt with nocRetries := tblSet s.flt.nocRetries k l, nocDead := dead } } 0x0C (resDie die) 0xFFFF)
  else .next s

/-- DIE_LANE_FAIL (R420): a spare lane of the UCIe module takes over, four times at most. -/
def execDieLaneFail (t pair unit lane : Nat) (s : State) : Host.Outcome State Fault Refusal :=
  let s := atMt s t
  if s.ctl.powered ∧ unit < 4096 then
    let k := 4096 * pair + unit
    let n := tblGet 0 s.flt.dieLanes k + 1
    let s := postFault { s with flt := { s.flt with dieLanes := tblSet s.flt.dieLanes k n } } 0x0D resNone lane
    .next (if n ≤ 4 then post s { code := 0x0042, params := [pair, lane] } else s)
  else .next s

/-- REGULATOR_PHASE_FAIL (R388): masked by the other phases of the rail. -/
def execRegulatorPhaseFail (t rail : Nat) (s : State) : Host.Outcome State Fault Refusal :=
  let s := atMt s t
  if s.ctl.powered then
    .next (postFault { s with flt := { s.flt with phases := addOnce s.flt.phases rail } } 0x15 resNone 0xFFFF)
  else .next s

/-- The loss of a group's PLL (R403): every unit that touched a cluster of the group is discarded, and each of its clusters is
handled as failed, the spare first. -/
def loseGroup (s : State) (g : Nat) : State :=
  let res := resCluster (16 * g)
  let s := postFault s 0x14 res 0xFFFF
  let s := modGroup (tallyGroup s g) g fun x => { x with pllOn := false }
  let ps := (numsFrom (17 * g) 17).filter fun p => (logicalOf s p).isNone
  let qs := (numsFrom (17 * g) 17).filter fun p => (logicalOf s p).isSome
  (ps ++ qs).foldl (fun s p => if (getClu s p).halter then s else failPhys s p 0x14 res) s

/-- PLL_LOCK_LOSS (R384, R403): as the loss of what the PLL clocks. -/
def execPllLockLoss (t : Nat) (pll : Pll) (s : State) : Host.Outcome State Fault Refusal :=
  let s := atMt s t
  if !s.ctl.powered then .next s
  else
    match pll with
    | .group g => if g < 32 then .next (loseGroup s g) else .next s
    | .noc d =>
      if d < 4 then
        let s := postFault s 0x14 (resDie d) 0xFFFF
        .next (addCauses s (fun u => u.touched.any fun l => l / 128 == d) reasonHwFault (resDie d))
      else .next s
    | .hbm k => if k < 20 ∧ regionKnown s k none = false then .next (failStack s k 0x14) else .next s
    | .hostPath p =>
      if p < 2 ∧ linkUp s .host ∧ p = s.host.active then .next (loseHostPath (postFault s 0x14 resNone 0xFFFF) p)
      else .next (loseStandby (postFault s 0x14 resNone 0xFFFF))
    | .peerPort p =>
      if p < 4 ∧ 3 ≤ (peerPortOf s p).state then .next (losePeer (postFault s 0x14 (farRes s p) 0xFFFF) p) else .next s

end Sys2Proof.Machine
end

