-- ==== Sys2Proof/Machine/Requests.lean ====
section
/-! DEFINITION. The owner's work and memory messages (06 R163, R164; 08 R263; 09 R298; 10 R331 to R336; 13 R416, R417), and
METER_READ (14 R441, R451). -/

namespace Sys2Proof.Machine

/-- A NACK that names a unit (R334). -/
def nackUnit (s : State) (num seq typ reason wu epoch detail : Nat) : State :=
  sendSeq s .host num 0x61 (nackBody seq typ reason wu epoch detail) false none

/-! ## SUBMIT -/

/-- Entries of the retired-identifier table still in quarantine (R417). -/
def quarantined (s : State) : Nat := (s.disp.retired.filter fun e => !e.ended).length

/-- Why an identifier is refused (R334, R417): NACK reason and DETAIL, or none. -/
def idRefusal (s : State) (wu epoch : Nat) : Option (Nat × Nat) :=
  if (findUnit s wu).isSome then some (4, 0)
  else
    match s.disp.retired.find? fun e => e.wuId == wu with
    | some e =>
      if !e.ended then some (4, 1)
      else if epoch ≠ (e.epoch + 1) % 256 then some (2, 4)
      else if s.disp.units.length + quarantined s ≥ 131072 then some (4, 2) else none
    | none => if s.disp.units.length + quarantined s ≥ 131072 then some (4, 2) else none

/-- Why a SUBMIT body's length is refused (R164): NACK reason and DETAIL, or none. -/
def lengthRefusal (body : List Byte) : Option (Nat × Nat) :=
  if hIndirect body then (if body.length ≠ 32 then some (2, 12) else none)
  else if 4096 < body.length then some (3, body.length)
  else if body.length < 32 ∨ body.length ≠ 32 + 128 * hDescCount body + 64 * hTensorCount body then some (2, 12)
  else none

/-- A chain placed in the submission queue of its class (R163, R207, R416, R441): it is in flight from now on. -/
def placeChain (s : State) (body : List Byte) : State :=
  let wu := hWu body
  let epoch := hEpoch body
  let s := pdkAppend s 4 (hClass body) { hasWu := true, source := 550, wuId := wu, epoch := epoch, payload := body }
  let u : WorkUnit := { wuId := wu, epoch := epoch, header := body.take 32, arrival := s.disp.arrivalNext }
  let kept := s.disp.retired.filter fun e => e.wuId != wu
  let s := { s with disp := { s.disp with units := s.disp.units ++ [u], arrivalNext := s.disp.arrivalNext + 1, retired := kept } }
  { s with meter := { s.meter with arrivalTap := s.meter.arrivalTap ++ [.submitArrival wu epoch (now s)] } }

/-- A chain dropped from a full submission queue with its QUEUE_FULL notice (R298, R416, R417). -/
def dropChain (s : State) (body : List Byte) : State :=
  let wu := hWu body
  let epoch := hEpoch body
  let u : WorkUnit := { wuId := wu, epoch := epoch, header := body.take 32, arrival := 0 }
  let s := pdkDrop s 4 (hClass body) (some wu)
  let cell := discardCell u { mt := now s, reason := reasonQueueFull, resource := resClass (hClass body) } (now s)
  let s := pdkAppend s 4 9 { hasWu := true, source := 550, wuId := wu, epoch := epoch, payload := cell }
  let kept := s.disp.retired.filter fun e => e.wuId != wu
  retire { s with disp := { s.disp with retired := kept } } wu epoch

/-- What a SUBMIT does (R164, R298, R334, R336, R417). -/
def actSubmit (seq : Nat) (s : State) (se : Session) (body : List Byte) : State :=
  let wu := hWu body
  let epoch := hEpoch body
  if !isOwner s se.num se.gen then nackUnit s se.num seq 0x10 1 wu epoch 0
  else
    match lengthRefusal body with
    | some (r, x) => nackUnit s se.num seq 0x10 r wu epoch x
    | none =>
      match idRefusal s wu epoch with
      | some (r, x) => nackUnit s se.num seq 0x10 r wu epoch x
      | none =>
        if pdkFits s 4 (hClass body) (cellsOfPayload body) then placeChain s body
        else if pdkFits s 4 9 1 then dropChain s body
        else nackUnit s se.num seq 0x10 5 wu epoch (hClass body)

/-- SUBMIT (R164). -/
def execSubmit (t : Nat) (d : Datagram) (s : State) : Host.Outcome State Fault Refusal :=
  .next (hostMessage (atMt s t) d 0x10 (actSubmit d.seq))

/-! ## ABORT -/

/-- Whether one epoch is older than another, modulo 256. -/
def epochOlder (a b : Nat) : Bool := decide (0 < (b + 256 - a % 256) % 256) && decide ((b + 256 - a % 256) % 256 < 128)

/-- What an ABORT does (R335, R336, R404). -/
def actAbort (seq : Nat) (s : State) (se : Session) (body : List Byte) : State :=
  let wu := leAt body 0 4
  let epoch := leAt body 4 1
  if !isOwner s se.num se.gen then nackUnit s se.num seq 0x13 1 wu epoch 0
  else if body.length ≠ 8 then nackUnit s se.num seq 0x13 2 wu epoch 0
  else if leAt body 5 3 ≠ 0 then nackUnit s se.num seq 0x13 2 wu epoch 5
  else
    match findUnit s wu with
    | none => nackUnit s se.num seq 0x13 9 wu epoch 0
    | some u =>
      if u.epoch = epoch then (if u.decided then s else addCause s wu reasonOwnerAbort resNone)
      else if epochOlder epoch u.epoch then staleDrop s 1
      else nackUnit s se.num seq 0x13 9 wu epoch 0

/-- ABORT (R335). -/
def execAbort (t : Nat) (d : Datagram) (s : State) : Host.Outcome State Fault Refusal :=
  .next (hostMessage (atMt s t) d 0x13 (actAbort d.seq))

/-! ## MEM_WRITE and MEM_READ -/

/-- The first virtual address of a range that a memory message may not touch (R263): absent or poisoned entries, no open
job, and for an observer a page without SHARED_READ. -/
def memRefusal (s : State) (owner : Bool) (job va n : Nat) : Option Nat :=
  (pagesOf va n).findSome? fun e =>
    match translate s 4 job e.1 with
    | .ok _ leaf => if owner || bit leaf 4 then none else some e.1
    | _ => some e.1

/-- Whether a range breaks R331. -/
def badRange (va n : Nat) : Bool := n == 0 || decide (8192 < n) || decide (8192 < va % 64 + n)

/-- What a MEM_WRITE does (R263, R319, R331): it is reported received once it has landed, or once refused. -/
def actMemWrite (seq : Nat) (s : State) (se : Session) (body : List Byte) : State :=
  let va := leAt body 0 6
  let job := leAt body 6 2
  let n := leAt body 8 2
  let refuse (s : State) (r x : Nat) : State := lateLanded (sendNack s se.num seq 0x20 r x) .host se.num se.gen seq
  if !isOwner s se.num se.gen then refuse s 1 0
  else if body.length < 16 then refuse s 2 0
  else if badRange va n || body.length ≠ 16 + n then refuse s 2 8
  else if leAt body 10 6 ≠ 0 then refuse s 2 10
  else
    match memRefusal s true job va n with
    | some x => refuse s 6 x
    | none =>
      let s := tlbFillRange s 4 job va n
      vWrite s 4 1000 (.host se.num se.gen seq) job va ((body.drop 16).map fun b => (b, false))

/-- MEM_WRITE (R331). -/
def execMemWrite (t : Nat) (d : Datagram) (s : State) : Host.Outcome State Fault Refusal :=
  match receive (atMt s t) .host d 0x20 true true with
  | (s, .drop) => .next s
  | (s, .act se body) => .next (actMemWrite d.seq s se body)

/-- POISON of MEM_DATA (R331). -/
def poisonMap (va : Nat) (l : List (Byte × Bool)) : Nat := granuleBits (poisonGranules va l)

/-- What a MEM_READ does (R263, R331). -/
def actMemRead (seq : Nat) (s : State) (se : Session) (body : List Byte) : State :=
  let va := leAt body 0 6
  let job := leAt body 6 2
  let n := leAt body 8 2
  if body.length ≠ 16 then sendNack s se.num seq 0x21 2 0
  else if badRange va n then sendNack s se.num seq 0x21 2 8
  else if leAt body 10 2 ≠ 0 then sendNack s se.num seq 0x21 2 10
  else
    match memRefusal s (isOwner s se.num se.gen) job va n with
    | some x => sendNack s se.num seq 0x21 6 x
    | none =>
      let s := tlbFillRange s 4 job va n
      let l := (pagesOf va n).flatMap fun e => match translate s 4 job e.1 with
        | .ok pa _ => paRead s pa e.2
        | _ => []
      sendSeq s .host se.num 0x22
        (leBytes 6 va ++ leBytes 2 job ++ leBytes 2 n ++ leBytes 2 0 ++ leBytes 4 (leAt body 12 4) ++
          leBytes 16 (poisonMap va l) ++ l.map (·.1)) false none

/-- MEM_READ (R331). -/
def execMemRead (t : Nat) (d : Datagram) (s : State) : Host.Outcome State Fault Refusal :=
  .next (hostMessage (atMt s t) d 0x21 (actMemRead d.seq))

/-! ## METER_READ -/

/-- A METER_RECORD without data (R452). -/
def meterEmpty (tag status recordNo : Nat) : List Byte :=
  leBytes 4 tag ++ leBytes 1 status ++ leBytes 1 0 ++ leBytes 2 0 ++ leBytes 2 1 ++ leBytes 2 0 ++ leBytes 4 0 ++
  leBytes 8 recordNo ++ leBytes 4 0 ++ leBytes 4 0

/-- What a METER_READ does (R441, R451, R453): a READ_REQUEST tap record; while the die is silent, the relay answers. -/
def actMeterRead (seq : Nat) (s : State) (se : Session) (body : List Byte) : State :=
  if body.length ≠ 32 then sendNack s se.num seq 0x50 2 0
  else
    let rq : TapRecord := .readRequest (now s) se.num se.gen (isOwner s se.num se.gen) body
    let s := { s with meter := { s.meter with arrivalTap := s.meter.arrivalTap ++ [rq] } }
    if s.meter.linkOk then { s with meter := { s.meter with waiting := s.meter.waiting ++ [(se.num, se.gen, now s)] } }
    else sendSeq s .host se.num 0x51 (meterEmpty (leAt body 4 4) 2 0) false none

/-- METER_READ (R451). -/
def execMeterRead (t : Nat) (d : Datagram) (s : State) : Host.Outcome State Fault Refusal :=
  .next (hostMessage (atMt s t) d 0x50 (actMeterRead d.seq))

end Sys2Proof.Machine
end

