-- ==== Sys2Proof/Machine/Meter.lean ====
section
/-! DEFINITION. The metrology die and its relay (14 R440 to R454): the taps, the pending table, intervals, records, the ring,
and the reading of records. Each tap command takes the oldest record of its tap. -/

namespace Sys2Proof.Machine

/-- The meter changed. -/
def modMeter (s : State) (f : Meter → Meter) : State := { s with meter := f s.meter }

/-- One second of MT. -/
def oneSecond : Nat := 2500000000

/-! ## Latency bins (R444) -/

/-- The edges e_1 to e_32, in ticks. -/
def binEdgesLow : List Nat :=
  [25000, 32422, 42048, 54532, 70722, 91718, 118949, 154263, 200063, 259459, 336490, 436391, 565951, 733976, 951887, 1234492,
   1601001, 2076323, 2692763, 3492218, 4529023, 5873646, 7617474, 9879028, 12812015, 16615777, 21548839, 27946479, 36243517,
   47003864, 60958852, 79056942]

/-- The edges e_33 to e_63, in ticks. -/
def binEdgesHigh : List Nat :=
  [102528177, 132967793, 172444634, 223641765, 290038825, 376148525, 487823356, 632653354, 820481968, 1064075066, 1379988580,
   1789693737, 2321036361, 3010129431, 3903807515, 5062809911, 6565908819, 8515263141, 11043361758, 14322028209, 18574098769,
   24088567627, 31240228532, 40515147844, 52543700283, 68143412684, 88374527626, 114612063374, 148639267714, 192768817313,
   250000000000]

/-- The bin of a latency (R444): how many edges it has reached. -/
def latencyBin (l : Nat) : Nat := ((binEdgesLow ++ binEdgesHigh).filter fun e => decide (e ≤ l)).length

/-! ## Intervals and credits -/

/-- The interval length in ticks (R442). -/
def intervalTicks (m : Meter) : Nat := m.intervalS * oneSecond

/-- The interval that an event at an MT is credited to (R442): its own, or the open one when its own is closed. -/
def creditInterval (m : Meter) (mt : Nat) : Nat := max m.interval (mt / intervalTicks m)

/-- An event credited to its interval; LATE when its own interval is closed (R442). -/
def gather (m : Meter) (mt : Nat) (f : Gather → Gather) : Meter :=
  let late := decide (mt / intervalTicks m < m.interval)
  { m with gathers := tblMod {} m.gathers (creditInterval m mt) fun g => let g := f g; { g with late := g.late || late } }

/-- The last MT the die has seen on any tap (R446). -/
def seen (m : Meter) (mt : Nat) : Meter := { m with lastSeen := some mt }

/-- The key of a unit's account (R443): 8 x CONTRACT_ID + CLASS. -/
def accountKey (word : Nat) : Nat := 8 * bits word 11 0 + bits word 14 12

/-- The credit of a unit at its departure (R443, R444). -/
def creditUnit (m : Meter) (word emits start stop mt : Nat) (arrival : Option Nat) : Meter :=
  let busy := stop - start
  gather m mt fun g =>
    if bit word 15 then
      { g with accounts := tblMod {} g.accounts (accountKey word) fun a =>
          let a := { a with units := a.units + 1, emits := a.emits + emits, busy := a.busy + busy }
          match arrival with
          | some x => { a with bins := tblMod 0 a.bins (latencyBin (mt - x)) (· + 1) }
          | none => { a with untimed := a.untimed + 1 } }
    else { g with unmetered := g.unmetered + busy }

/-- The arrival MT of an entry of the pending table (R443). -/
def pendingArrival (m : Meter) (wu epoch : Nat) : Option Nat :=
  (m.pending.find? fun e => e.1 == wu && e.2.1 == epoch).map fun e => e.2.2

/-- SUBMIT_ARRIVAL (R443): the arrival tap's oldest record, a SUBMIT_ARRIVAL, enters the pending table. -/
def execSubmitArrival (t : Nat) (s : State) : Host.Outcome State Fault Refusal :=
  let s := atMt s t
  match s.meter.arrivalTap with
  | .submitArrival wu epoch mt :: rest =>
    let l := s.meter.pending.filter fun e => !(e.1 == wu)
    let full := decide (262144 ≤ l.length)
    let m := seen { s.meter with arrivalTap := rest, pending := (if full then l.drop 1 else l) ++ [(wu, epoch, mt)] } mt
    let m := if full then gather m mt fun g => { g with evicted := cap32 (g.evicted + 1) } else m
    .next { s with meter := m }
  | _ => .next s

/-- COMPLETE_DEPARTURE (R443): the entry leaves the table; the unit is credited, or its departure waits for its event. -/
def execCompleteDeparture (t : Nat) (s : State) : Host.Outcome State Fault Refusal :=
  let s := atMt s t
  match s.meter.departTap with
  | .completeDeparture wu epoch mt :: rest =>
    let arrival := pendingArrival s.meter wu epoch
    let l := s.meter.pending.filter fun e => !(e.1 == wu && e.2.1 == epoch)
    let m := seen { s.meter with departTap := rest, pending := l } mt
    let m := match m.events.find? fun r => match r with
        | .completeEvent w e _ _ _ _ _ _ => w == wu && e == epoch
        | _ => false with
      | some (.completeEvent w e word emits st a b x) =>
        creditUnit { m with events := m.events.erase (.completeEvent w e word emits st a b x) } word emits a b mt arrival
      | _ => { m with departs := m.departs ++ [{ wu := wu, epoch := epoch, mt := mt, arrival := arrival }] }
    .next { s with meter := m }
  | _ => .next s

/-- COMPLETE_EVENT (R441, R443): kept until the unit's departure, or matched with one that waits. -/
def execCompleteEvent (t : Nat) (s : State) : Host.Outcome State Fault Refusal :=
  let s := atMt s t
  match s.meter.completionTap with
  | .completeEvent wu epoch word emits st a b mt :: rest =>
    let m := seen { s.meter with completionTap := rest } mt
    let m := match m.departs.find? fun d => d.wu == wu && d.epoch == epoch with
      | some d => creditUnit { m with departs := m.departs.erase d } word emits a b d.mt d.arrival
      | none => { m with events := m.events ++ [.completeEvent wu epoch word emits st a b mt] }
    .next { s with meter := m }
  | _ => .next s

/-- PENDING_EXPIRY (R443): an entry leaves the table 200 s after its arrival. -/
def execPendingExpiry (t wu epoch : Nat) (s : State) : Host.Outcome State Fault Refusal :=
  let s := atMt s t
  match pendingArrival s.meter wu epoch with
  | some a =>
    if a + 200 * oneSecond ≤ now s then
      .next (modMeter s fun m => { m with pending := m.pending.filter fun e => !(e.1 == wu && e.2.1 == epoch) })
    else .next s
  | none => .next s

/-- UNMATCHED_TIMEOUT (R443): a departure without its event for 1 s is counted and credits nothing. -/
def execUnmatchedTimeout (t wu epoch : Nat) (s : State) : Host.Outcome State Fault Refusal :=
  let s := atMt s t
  match s.meter.departs.find? fun d => d.wu == wu && d.epoch == epoch with
  | some d =>
    if d.mt + oneSecond < now s then
      .next (modMeter s fun m =>
        gather { m with departs := m.departs.erase d } d.mt fun g => { g with unmatched := cap32 (g.unmatched + 1) })
    else .next s
  | none => .next s

/-- FAULT_LOG_TAP (R441, R446): a CAPACITY record opens or ends a reduced-capacity interval; a FAULT record is passed on. -/
def execFaultLogTap (t : Nat) (s : State) : Host.Outcome State Fault Refusal :=
  let s := atMt s t
  match s.meter.faultTap with
  | .faultLog c :: rest =>
    let mt := leAt c 8 8
    let res := leAt c 4 4
    let cond := leAt c 24 8
    let m := seen { s.meter with faultTap := rest } mt
    if leAt c 0 2 ≠ 0x0009 then .next { s with meter := m }
    else if leAt c 3 1 = 0 then
      let slot : CapSlot := { res := res, start := mt, stop := none, condition := cond, extent := leAt c 32 8 }
      .next { s with meter := { m with caps := m.caps ++ [slot] } }
    else
      .next { s with meter := { m with caps := m.caps.map fun k =>
        if k.res = res ∧ k.condition = cond ∧ k.stop.isNone then { k with stop := some mt } else k } }
  | _ => .next s

/-- A MODULE_SILENT interval of the die's own (R446). -/
def silentSlot (a b : Nat) : CapSlot := { res := 0, start := a, stop := some b, condition := 6, extent := 0 }

/-- TIME_TAP (R441, R442, R446): the die sees MT, from step 8 on. A stretch of more than 20 ms without one, and the span of a
power loss, are MODULE_SILENT; what was still open before a power loss ended with it (log 28). The first one opens the interval that
holds it. -/
def execTimeTap (t dieClock : Nat) (s : State) : Host.Outcome State Fault Refusal :=
  let s := atMt s t
  if isReady s || (s.ctl.powered && s.ctl.modState == .starting && s.ctl.step == 8) then
    let m := s.meter
    let mt := now s
    let m := match m.lastTime with
      | some a => if a + 50000000 < mt then { m with caps := m.caps ++ [silentSlot a mt] } else m
      | none =>
        let m := { m with interval := mt / intervalTicks m, baseMt := mt, baseClock := dieClock }
        match m.storedMt with
        | some a =>
          let ended := m.caps.map fun (k : CapSlot) => if k.stop.isNone then { k with stop := some a } else k
          { m with caps := ended ++ [silentSlot a mt], storedMt := none }
        | none => m
    .next { s with meter := seen { m with lastTime := some mt, lastTimeClock := dieClock } mt }
  else .next s

/-! ## Records -/

/-- The 128-byte header of a record (R447). -/
def recordHeader (s : State) (rtype flags recNo mtFrom mtTo bodyLen : Nat) : List Byte :=
  let fw := s.meter.newFw.getD Config.meterFirmwareDigest
  leBytes 4 0x4452434D ++ leBytes 1 rtype ++ leBytes 1 flags ++ leBytes 2 0 ++ leBytes 8 recNo ++ serialBytes s ++
  leBytes 8 mtFrom ++ leBytes 8 mtTo ++ leBytes 8 s.meter.lastClock ++ leBytes 4 s.meter.serviceCount ++ leBytes 4 bodyLen ++
  fw.take 64 ++ List.replicate (64 - min 64 fw.length) 0

/-- A record signed by the meter key (R447). -/
def signedRecord (l rnd : List Byte) : List Byte := l ++ Config.mlDsaSign Config.meterSeed l "AS2-METER" rnd

/-- One account's share of the energy (R445). -/
def energyShare (e b busy : Nat) : Nat := if b = 0 then 0 else e * busy / b

/-- The sum of BUSY of an interval (R445). -/
def busySum (g : Gather) : Nat := sumNat (g.accounts.map fun a => a.2.busy) + g.unmetered

/-- One entry of an INTERVAL body (R448): 304 bytes. -/
def intervalEntry (e b : Nat) (a : Nat × Account) : List Byte :=
  leBytes 2 (a.1 / 8) ++ leBytes 1 (a.1 % 8) ++ [0] ++ leBytes 4 a.2.units ++ leBytes 8 a.2.emits ++ leBytes 8 a.2.busy ++
  leBytes 8 (energyShare e b a.2.busy) ++ leBytes 4 a.2.untimed ++ leBytes 12 0 ++
  ((numsFrom 0 64).map fun i => leBytes 4 (tblGet 0 a.2.bins i)).flatten

/-- One capacity slot of a body (R448): 32 bytes. -/
def capSlotBytes (k : CapSlot) : List Byte :=
  leBytes 8 k.start ++ leBytes 8 (k.stop.getD 0xFFFFFFFFFFFFFFFF) ++ leBytes 4 k.condition ++ leBytes 4 k.extent ++ leBytes 8 0

/-- The ticks of [lo, hi) that some reduced-capacity interval covers; the list in rising order of start (R448, log 28). -/
def coveredTicks (hi : Nat) : Nat → List (Nat × Nat) → Nat
  | _, [] => 0
  | lo, (a, b) :: rest =>
    let a := max lo (min a hi)
    let b := max a (min b hi)
    (b - a) + coveredTicks hi b rest

/-- REDUCED_TICKS of an interval (R448): what an earlier record carried counts from the interval's start, the rest whole. -/
def reducedTicks (caps : List CapSlot) (lo hi : Nat) : Nat :=
  let l := caps.map fun k => (if k.carried then max lo k.start else k.start, k.stop.getD hi)
  coveredTicks hi 0 (sortBy (fun x y => decide (x.1 < y.1)) l)

/-- The capacity intervals that a record up to `hi` carries (R446, R448). -/
def capsUpTo (m : Meter) (hi : Nat) : List CapSlot := m.caps.filter fun k => decide (k.start < hi)

/-- The bytes of the ring of 28 MiB. -/
def ringBytes : Nat := 29360128

/-- The bytes that uncollected records hold (R450). -/
def uncollectedBytes (m : Meter) : Nat := sumNat ((m.ring.filter fun r => !r.2.2).map fun r => r.2.1.length)

/-- Collected records reused, oldest first, until a record fits (R450). -/
def reuseRing (need : Nat) : List (Nat × List Byte × Bool) → List (Nat × List Byte × Bool)
  | [] => []
  | r :: rest =>
    if r.2.2 && decide (ringBytes < need + sumNat ((r :: rest).map fun x => x.2.1.length)) then reuseRing need rest
    else r :: rest

/-- The length of an INTERVAL record with a number of entries (R447, R448). -/
def intervalLength (entries : Nat) : Nat := 128 + 64 + 512 + 304 * entries + 3309

/-- Whether MT advanced by more than 500 ppm more or less than the die's own clock, of 62.5 ticks a count (R447). -/
def timeSuspect (m : Meter) : Bool :=
  let dm := 2 * ((m.lastTime.getD m.baseMt : Nat) - (m.baseMt : Nat) : Int)
  let dc := 125 * ((m.lastTimeClock : Nat) - (m.baseClock : Nat) : Int)
  decide (500 * dc.natAbs < 1000000 * (dm - dc).natAbs)

/-- An interval's amounts added to the cumulative totals (R449). -/
def addTotals (m : Meter) (g : Gather) (e b : Nat) : Tbl Totals :=
  g.accounts.foldl (fun l a => tblMod {} l a.1 fun x =>
    { emits := x.emits + a.2.emits, units := x.units + a.2.units, energy := x.energy + energyShare e b a.2.busy,
      busy := x.busy + a.2.busy }) m.totals

/-- The close of the open interval (R442, R445, R447 to R450): energy is attributed, the totals are committed, and the record
is written unless it does not fit beside the uncollected ones. -/
def closeInterval (s : State) (dieClock e vmin vmax : Nat) (rnd : List Byte) (partial_ : Bool) : State :=
  let m := s.meter
  let len := intervalTicks m
  let lo := m.interval * len
  let hi := (m.interval + 1) * len
  let upTo := if partial_ then max lo (min hi (m.lastSeen.getD lo)) else hi
  let g := tblGet {} m.gathers m.interval
  let b := max (busySum g) len
  let used := sumNat (g.accounts.map fun a => energyShare e b a.2.busy) + energyShare e b g.unmetered
  let idle := e - used
  let caps := capsUpTo m hi
  let reduced := reducedTicks caps lo upTo
  let suspect := timeSuspect m
  let entries := g.accounts.filter fun a => decide (0 < a.2.units)
  let size := intervalLength entries.length
  let fits := decide (uncollectedBytes m + size ≤ ringBytes)
  let flags := flag suspect + field (flag (decide (0 < m.unrecorded))) 1 + field (flag partial_) 2 +
    field (flag (decide (16 < caps.length))) 3 + field (flag g.late) 4
  let body := leBytes 8 e ++ leBytes 8 idle ++ leBytes 8 reduced ++ leBytes 8 g.unmetered ++ leBytes 4 g.evicted ++
    leBytes 4 g.unmatched ++ leBytes 4 entries.length ++ leBytes 4 (min 16 caps.length) ++ leBytes 4 vmin ++ leBytes 4 vmax ++
    leBytes 4 m.unrecorded ++ leBytes 4 0 ++ ((caps.take 16).map capSlotBytes).flatten ++
    List.replicate (32 * (16 - min 16 caps.length)) 0 ++ (entries.map (intervalEntry e b)).flatten
  let open_ := m.caps.filter fun (k : CapSlot) => match k.stop with
    | none => true
    | some x => decide (hi ≤ x)
  let kept := open_.map fun (k : CapSlot) => if k.start < hi then { k with carried := true } else k
  let m := { m with
    lastClock := dieClock, baseMt := m.lastTime.getD m.baseMt, baseClock := m.lastTimeClock, suspect := suspect, caps := kept
    gathers := tblErase m.gathers m.interval, interval := m.interval + 1, totals := addTotals m g e b
    totalE := m.totalE + e, totalIdle := m.totalIdle + idle, totalReduced := m.totalReduced + reduced }
  if fits then
    let no := m.recordNo + 1
    let rec_ := signedRecord (recordHeader { s with meter := m } 1 flags no lo hi body.length ++ body) rnd
    { s with meter := { m with recordNo := no, ring := reuseRing size m.ring ++ [(no, rec_, false)], unrecorded := 0,
                               totalRecorded := m.totalRecorded + 1 } }
  else
    { s with meter := { m with unrecorded := cap32 (m.unrecorded + 1), totalUnrecorded := m.totalUnrecorded + 1,
                               serviceLog := m.serviceLog ++ ["STORAGE_FULL"] } }

/-- Whether the open interval may close (R442): a TIME tap 20 ms past its boundary, or 2 s past it by the die's own clock. -/
def closeDue (m : Meter) (dieClock : Nat) : Bool :=
  match m.lastTime with
  | none => false
  | some a =>
    let edge := (m.interval + 1) * intervalTicks m
    decide (edge + 50000000 ≤ a) || decide (edge + 2 * oneSecond ≤ a + (dieClock - m.lastTimeClock) * 125 / 2)

/-- INTERVAL_CLOSE (R442). -/
def execIntervalClose (t dieClock energyMj vminMv vmaxMv : Nat) (rnd : List Byte) (s : State) :
    Host.Outcome State Fault Refusal :=
  let s := atMt s t
  if closeDue s.meter dieClock then .next (closeInterval s dieClock energyMj vminMv vmaxMv rnd false) else .next s

/-- METER_HOLDUP (R446): the open interval closes early with PARTIAL, the totals are committed and the last MT seen is stored. -/
def execMeterHoldup (t dieClock energyMj vminMv vmaxMv : Nat) (rnd : List Byte) (s : State) :
    Host.Outcome State Fault Refusal :=
  let s := atMt s t
  if s.meter.lastTime.isSome then
    let s := closeInterval s dieClock energyMj vminMv vmaxMv rnd true
    .next (modMeter s fun m => { m with storedMt := m.lastSeen, lastTime := none })
  else .next s

/-! ## Reading records (R451, R452) -/

/-- One METER_RECORD with data (R452). -/
def meterPart (tag recNo parts i : Nat) (r : List Byte) : List Byte :=
  leBytes 4 tag ++ leBytes 1 0 ++ leBytes 1 0 ++ leBytes 2 i ++ leBytes 2 parts ++ leBytes 2 0 ++ leBytes 4 r.length ++
  leBytes 8 recNo ++ leBytes 4 (8192 * i) ++ leBytes 4 0 ++ (r.drop (8192 * i)).take 8192

/-- The messages of one record (R452). -/
def recordParts (tag recNo : Nat) (r : List Byte) : List (List Byte) :=
  let n := ceilDiv r.length 8192
  (numsFrom 0 n).map fun i => meterPart tag recNo n i r

/-- Whether a METER_READ body is malformed (R451). -/
def meterMalformed (b : List Byte) : Bool :=
  let kind := leAt b 0 1
  let first := leAt b 8 8
  let count := leAt b 16 4
  leAt b 1 3 != 0 || leAt b 28 4 != 0 ||
  (match kind with
   | 1 => count == 0 || decide (16 < count)
   | 2 => count == 0 || decide (256 < count) || decide (4095 < first)
   | 3 => count != 1 || first != 0
   | _ => true)

/-- A TOTALS record's unsigned bytes (R447, R449). -/
def totalsRecord (s : State) (first count : Nat) : List Byte :=
  let m := s.meter
  let entry (k : Nat) : List Byte :=
    let x := tblGet {} m.totals k
    leBytes 8 x.emits ++ leBytes 8 x.units ++ leBytes 8 x.energy ++ leBytes 8 x.busy
  let body := leBytes 8 m.totalE ++ leBytes 8 m.totalIdle ++ leBytes 8 m.totalReduced ++ leBytes 8 m.totalRecorded ++
    leBytes 8 m.totalUnrecorded ++ leBytes 8 m.totalCollected ++ leBytes 16 0 ++ leBytes 4 first ++ leBytes 4 count ++
    ((numsFrom (8 * first) (8 * count)).map entry).flatten
  let mt := m.lastSeen.getD 0
  recordHeader s 2 0 m.recordNo mt mt body.length ++ body

/-- An IDENTITY record's unsigned bytes (R447, R449). -/
def identityRecord (s : State) : List Byte :=
  let body := certOf s.flash.certs 4 ++ leBytes 4 s.meter.intervalS
  let mt := s.meter.lastSeen.getD 0
  recordHeader s 3 0 0 mt mt body.length ++ body

/-- The messages that answer a request (R451, R452). -/
def meterAnswer (s : State) (b rnd : List Byte) : List (List Byte) :=
  let tag := leAt b 4 4
  let first := leAt b 8 8
  let count := leAt b 16 4
  if meterMalformed b then [meterEmpty tag 3 0]
  else if leAt b 0 1 = 1 then
    (numsFrom first count).flatMap fun no =>
      match s.meter.ring.find? fun r => r.1 == no with
      | some r => recordParts tag no r.2.1
      | none => [meterEmpty tag 1 no]
  else if leAt b 0 1 = 2 then recordParts tag s.meter.recordNo (signedRecord (totalsRecord s first count) rnd)
  else recordParts tag 0 (signedRecord (identityRecord s) rnd)

/-- ACK_THROUGH of the owner (R451): records up to it are collected, never beyond the last one written. -/
def collect (m : Meter) (ack : Nat) : Meter :=
  let hit (r : Nat × List Byte × Bool) : Bool := !r.2.2 && decide (r.1 ≤ ack)
  { m with ring := m.ring.map fun r => if hit r then (r.1, r.2.1, true) else r
           totalCollected := m.totalCollected + (m.ring.filter hit).length }

/-- Something came over the record link (R453): the relay takes the die for reporting again. -/
def linkHeard (s : State) : State :=
  let s := if s.meter.silent then post s { code := 0x0080, params := [0] } else s
  modMeter s fun m => { m with linkOk := true, silent := false, lastReport := now s }

/-- READ_REQUEST (R451, R452): the arrival tap's oldest record, a READ_REQUEST, is served and its answer sent to its session,
unless the relay has answered in the die's place. -/
def execReadRequest (t : Nat) (rnd : List Byte) (s : State) : Host.Outcome State Fault Refusal :=
  let s := atMt s t
  match s.meter.arrivalTap with
  | .readRequest mt num gen owner body :: rest =>
    let m := seen { s.meter with arrivalTap := rest } mt
    let m := if owner && !meterMalformed body then collect m (leAt body 20 8) else m
    let wanted := m.waiting.contains (num, gen, mt)
    let m := { m with waiting := m.waiting.erase (num, gen, mt) }
    let s := { s with meter := m }
    if wanted && s.ctl.powered then
      let l := if mt + oneSecond < now s then [meterEmpty (leAt body 4 4) 2 0] else meterAnswer s body rnd
      let s := linkHeard s
      match findSess s .host num with
      | some se =>
        if se.gen = gen then .next (l.foldl (fun s b => sendSeq s .host num 0x51 b false none) s) else .next s
      | none => .next s
    else .next s
  | _ => .next s

/-! ## The relay (R446, R453), service (R454) -/

/-- The relay's figures as the die reports them (R453): SERVICE_COUNT, STORAGE_FULL, last and oldest record, free KiB, interval
length, total E. -/
def relayFigures (m : Meter) : List Nat :=
  let g := tblGet {} m.gathers m.interval
  let entries := (g.accounts.filter fun a => decide (0 < a.2.units)).length
  let full := decide (ringBytes < uncollectedBytes m + intervalLength entries)
  let oldest := ((m.ring.find? fun r => !r.2.2).map fun r => r.1).getD 0
  [m.serviceCount, flag full, m.recordNo, oldest, (ringBytes - uncollectedBytes m) / 1024, m.intervalS, m.totalE]

/-- METER_STATUS_REPORT (R446, R453): the firmware digest and the status reach the relay. -/
def execMeterStatusReport (t voltCv watt : Nat) (s : State) : Host.Outcome State Fault Refusal :=
  let s := atMt s t
  if s.ctl.powered then
    let s := linkHeard s
    let fw := s.meter.newFw.getD Config.meterFirmwareDigest
    let s := { s with sec := { s.sec with meterFw := some fw } }
    .next (modMeter s fun m =>
      { m with relay := relayFigures m, timeSuspect := m.suspect, voltCv := voltCv, watt := watt })
  else .next s

/-- The tag of a waiting request (R452), from its record on the tap. -/
def waitingTag (m : Meter) (w : Nat × Nat × Nat) : Nat :=
  (m.arrivalTap.findSome? fun r => match r with
    | .readRequest mt num gen _ body => if (num, gen, mt) = w then some (leAt body 4 4) else none
    | _ => none).getD 0

/-- METER_SILENT (R453): nothing from the die for 1 s. Requests whose answer has not begun are answered METER_SILENT. -/
def execMeterSilent (t : Nat) (s : State) : Host.Outcome State Fault Refusal :=
  let s := atMt s t
  if s.ctl.powered && !s.meter.silent && decide (s.meter.lastReport + oneSecond ≤ now s) then
    let w := s.meter.waiting
    let tags := w.map fun x => (x, waitingTag s.meter x)
    let s := modMeter s fun m => { m with linkOk := false, silent := true, waiting := [] }
    let s := post s { code := 0x0080, params := [1] }
    .next (tags.foldl (fun s x =>
      match findSess s .host x.1.1 with
      | some se => if se.gen = x.1.2.1 then sendSeq s .host x.1.1 0x51 (meterEmpty x.2 2 0) false none else s
      | none => s) s)
  else .next s

/-- Two intervals' gatherings put together, when service changes the interval length. -/
def mergeGather (a b : Gather) : Gather :=
  let acc := b.accounts.foldl (fun l x => tblMod {} l x.1 fun y =>
    { units := y.units + x.2.units, emits := y.emits + x.2.emits, busy := y.busy + x.2.busy, untimed := y.untimed + x.2.untimed,
      bins := x.2.bins.foldl (fun t e => tblMod 0 t e.1 (· + e.2)) y.bins }) a.accounts
  { accounts := acc, unmetered := a.unmetered + b.unmetered, evicted := cap32 (a.evicted + b.evicted),
    unmatched := cap32 (a.unmatched + b.unmatched), late := a.late || b.late }

/-- SERVICE_SESSION (R442, R447, R454): SERVICE_COUNT rises; service may set the interval length, with what has been gathered
going to the interval that is open under it (log 28), or replace the firmware. -/
def execServiceSession (t : Nat) (act : ServiceAct) (s : State) : Host.Outcome State Fault Refusal :=
  let s := modMeter (atMt s t) fun m =>
    { m with serviceCount := cap32 (m.serviceCount + 1), serviceLog := m.serviceLog ++ ["SERVICE_SESSION"] }
  match act with
  | .inspect => .next s
  | .setInterval n =>
    .next (modMeter s fun m =>
      let m := { m with intervalS := n }
      let k := m.lastTime.getD 0 / intervalTicks m
      let all := m.gathers.foldl (fun g x => mergeGather g x.2) {}
      { m with interval := k, gathers := if m.gathers.isEmpty then [] else [(k, all)] })
  | .newFirmware d => .next (modMeter s fun m => { m with newFw := some d })

end Sys2Proof.Machine
end

