-- ==== Sys2Proof/Machine/PaddockCmds.lean ====
section
/-! DEFINITION. The Paddock's own operations (09 R288 to R302): a producer's packet, a consumer's read, a flush. -/

namespace Sys2Proof.Machine

/-! ## Producers -/

/-- Whether a source may write a queue (R289): the producers of the table. 548 and 544 to 547 are the supervisors, 549 the
dispatcher, 550 the transport engine. -/
def mayProduce (pool queue source : Nat) : Bool :=
  let sup := decide (544 ≤ source) && decide (source ≤ 548)
  if pool = 4 then
    (if queue ≤ 7 then source == 550
     else if queue = 8 then source == 549
     else if queue = 9 then source == 549 || source == 550
     else if queue = 10 then sup || source == 549
     else if queue = 11 then source == 548 || source == 549 || source == 550
     else false)
  else if queue ≤ 135 then source == 549 || (decide (544 ≤ source) && decide (source ≤ 547))
  else if queue = 136 then (decide (source < 544) && dieOfPhys source == pool) || source == 544 + pool
  else false

/-- Whether a producer waits for room (R290) rather than lose a packet. -/
def waitsForRoom (pool queue source : Nat) : Bool :=
  (decide (pool < 4) && decide (queue ≤ 135)) || (pool == 4 && (queue == 8 || queue == 9) && source == 549)

/-- PADDOCK_PACKET_WRITE (R290, R292, R294, R295): a waiting producer starts only a packet that fits; a haltered cluster's
packet is refused (R410). -/
def execPaddockPacketWrite (t pool queue source : Nat) (wu : Option (Nat × Nat)) (payload : List Byte) (s : State) :
    Host.Outcome State Fault Refusal :=
  let s := atMt s t
  let it : Item := { source := source, hasWu := wu.isSome, wuId := (wu.map (·.1)).getD 0, epoch := (wu.map (·.2)).getD 0,
                     payload := payload }
  if !isReady s || !mayProduce pool queue source || decide (4096 < payload.length) || reqHaltered s source then .next s
  else if waitsForRoom pool queue source && !pdkFits s pool queue (cellsOfPayload payload) then .next s
  else .next (pdkPut s pool queue it)

/-! ## Consumers -/

/-- Words that a read corrects are counted per pool and reported (R302, R401). -/
def noteCorrected (s : State) (pool n : Nat) : State :=
  if n = 0 then s
  else
    let s := { s with pdk := { s.pdk with ce := tblMod 0 s.pdk.ce pool fun v => cap32 (v + n) } }
    postFault s 0x01 resNone 0xFFFF

/-- The head item of a queue with an uncorrectable word: its tag is delivered with POISON (R302). -/
def markHead (s : State) (pool queue : Nat) : State :=
  match pdkItems s pool queue with
  | [] => s
  | it :: rest => postFault (setQueue s pool queue ({ it with poison := true } :: rest)) 0x02 resNone 0xFFFF

/-- A cluster controller reads the head of its inbox. -/
def readInbox (s : State) (pool queue : Nat) : State :=
  match pdkItems s pool queue with
  | [] => s
  | it :: rest => takeInboxItem (setQueue s pool queue rest) (136 * pool + queue) it false

/-- The transport engine reads a queue toward the owner and sends the item (R289, R302, R322). -/
def readToOwner (s : State) (pool queue : Nat) : State :=
  match s.host.owner, pdkItems s pool queue with
  | some o, it :: rest =>
    if isOwner s o.1 o.2 then sendNotice (setQueue s pool queue rest) o.1 pool queue it false else s
  | _, _ => s

/-- Whether a queue's consumer can read it now. -/
def consumerReady (s : State) (pool queue : Nat) : Bool :=
  if pool = 4 ∧ queue ≤ 7 then !s.disp.restarting && decide ((candidates s).length < 4096)
  else if pool < 4 ∧ queue ≤ 135 then
    decide ((getClu s (136 * pool + queue)).power = .active) && !(getClu s (136 * pool + queue)).halter
  else match s.host.owner with
    | some o => isOwner s o.1 o.2
    | none => false

/-- PADDOCK_ITEM_READ (R297, R299, R302): the queue's consumer reads one item; an empty queue gives IDLE, which changes
nothing. `corrected` words are corrected, and `bad` says that some word is uncorrectable. -/
def execPaddockItemRead (t pool queue corrected : Nat) (bad : Bool) (s : State) : Host.Outcome State Fault Refusal :=
  let s := atMt s t
  if !isReady s || (pdkLimit pool queue).isNone || (pdkItems s pool queue).isEmpty || !consumerReady s pool queue then .next s
  else
    let s := noteCorrected s pool corrected
    let s := if bad then markHead s pool queue else s
    if pool = 4 ∧ queue ≤ 7 then .next (readChain s queue false)
    else if pool < 4 ∧ queue ≤ 135 then .next (readInbox s pool queue)
    else .next (readToOwner s pool queue)

/-! ## Flush (R301) -/

/-- Whether the owner may flush a queue: submission, event and trace queues. -/
def mayFlush (pool queue : Nat) : Bool :=
  (pool == 4 && (decide (queue ≤ 7) || queue == 10 || queue == 11)) || (decide (pool < 4) && queue == 136)

/-- A write of PDK_FLUSH (R301, R405): every item and marker is freed, freed chains are discarded with OWNER_ABORT. -/
def flushQueue (s : State) (v : Nat) : State :=
  let pool := bits v 14 12
  let queue := bits v 11 0
  if mayFlush pool queue then
    let l := pdkItems s pool queue
    let s := setQueue s pool queue []
    let gone (u : WorkUnit) : Bool := u.queued && l.any fun i => i.kind == 2 && i.wuId == u.wuId && i.epoch == u.epoch
    let s := if pool = 4 ∧ queue ≤ 7 then addCauses s gone reasonOwnerAbort (resClass queue) else s
    post s { code := 0x0070, params := [pool, queue, l.length] }
  else s

/-- PDK_FLUSH (R301). -/
def execPdkFlush (t v : Nat) (s : State) : Host.Outcome State Fault Refusal :=
  let s := atMt s t
  if isReady s then .next (flushQueue s v) else .next s

end Sys2Proof.Machine
end

