-- ==== Sys2Proof/Machine/ReinsCmds.lean ====
section
/-! DEFINITION. The Reins (09 R269 to R283): counter operations and barrier arrivals of firmware as the homes apply them,
withdrawals, the owner's reset of a counter, and plane errors. -/

namespace Sys2Proof.Machine

/-! ## Application at a home (R274, R275) -/

/-- Whether an operation comes before the one its home applied last (R274): (release MT, requester) rising. -/
def outOfOrder (s : State) (home req sent : Nat) : Bool :=
  match tblFind s.reins.lastApplied home with
  | none => false
  | some (m, r) => decide (releaseMt req home sent < m) || (releaseMt req home sent == m && decide (req < r))

/-- Whether a home can apply an operation now: the Reins are up, its sender exists and is not haltered (R410), its release
has come and it keeps the order of R274. -/
def mayApply (s : State) (home req sent : Nat) : Bool :=
  isReady s && decide (req < 550) && !reqHaltered s req && decide (releaseMt req home sent ≤ now s) &&
  !outOfOrder s home req sent

/-- MT at which the response of an operation reaches its sender (R275): the latency and the time behind others. -/
def responseMt (s : State) (n req sent : Nat) : Nat :=
  sent + ctrLatency req n + (now s - releaseMt req (ctrHome n) sent)

/-- FETCH_ADD (R276, R277). -/
def execFetchAdd (t req ctr addend sent : Nat) (epoch : Option Nat) (s : State) : Host.Outcome State Fault Refusal :=
  let s := atMt s t
  if ctr < 65536 ∧ mayApply s (ctrHome ctr) req sent then
    let at_ := responseMt s ctr req sent
    let (s, v) := fetchAdd (noteApplied s (ctrHome ctr) req sent) ctr addend epoch
    .next (respond s req ctr v none at_)
  else .next s

/-- A compare-swap as a home applies it (R276): the old value, or none when refused. -/
def compareSwap (s : State) (n e v : Nat) (ep : Option Nat) : State × Option Nat :=
  if refusedEpoch s n ep then (s, none)
  else
    let old := (getCtr s n).value
    (if old.toNat = e % 2 ^ 32 then setCtrValue s n (BitVec.ofNat 32 v) else s, some old.toNat)

/-- COMPARE_SWAP (R276, R277). -/
def execCompareSwap (t req ctr expected value sent : Nat) (epoch : Option Nat) (s : State) : Host.Outcome State Fault Refusal :=
  let s := atMt s t
  if ctr < 65536 ∧ mayApply s (ctrHome ctr) req sent then
    let at_ := responseMt s ctr req sent
    let (s, v) := compareSwap (noteApplied s (ctrHome ctr) req sent) ctr expected value epoch
    .next (respond s req ctr v none at_)
  else .next s

/-- Waits a requester may hold at once (R279). -/
def waitLimit (req : Nat) : Nat := if req = 549 then 4096 else 4

/-- Waits of a requester in a home's wait table (R279). -/
def waitsHeld (s : State) (home req : Nat) : Nat :=
  (s.reins.waits.filter fun w => w.req == req && ctrHome w.ctr == home).length

/-- COMPARE_WAIT (R276, R277, R279): answered at once when satisfied or refused, else held. -/
def execCompareWait (t req ctr target sent : Nat) (equal : Bool) (epoch : Option Nat) (s : State) :
    Host.Outcome State Fault Refusal :=
  let s := atMt s t
  if ctr < 65536 ∧ mayApply s (ctrHome ctr) req sent ∧ waitsHeld s (ctrHome ctr) req < waitLimit req then
    let at_ := responseMt s ctr req sent
    let s := noteApplied s (ctrHome ctr) req sent
    let w : Wait := { ctr := ctr, req := req, target := target % 2 ^ 32, equal := equal, epoch := epoch, ref := none }
    let v := (getCtr s ctr).value
    if refusedEpoch s ctr epoch then .next (respond s req ctr none none at_)
    else if waitHolds w v then .next (respond s req ctr (some v.toNat) none at_)
    else .next (modReins s fun r => { r with waits := r.waits ++ [w] })
  else .next s

/-- COUNTER_READ (R276, R277): the value and the epoch. -/
def execCounterRead (t req ctr sent : Nat) (epoch : Option Nat) (s : State) : Host.Outcome State Fault Refusal :=
  let s := atMt s t
  if ctr < 65536 ∧ mayApply s (ctrHome ctr) req sent then
    let at_ := responseMt s ctr req sent
    let s := noteApplied s (ctrHome ctr) req sent
    if refusedEpoch s ctr epoch then .next (respond s req ctr none none at_)
    else .next (respond s req ctr (some (getCtr s ctr).value.toNat) (some (getCtr s ctr).epoch) at_)
  else .next s

/-! ## Barriers (R281 to R283) -/

/-- BARRIER_ARRIVAL (R282): an arrival that no descriptor stands behind; a refused one changes nothing. -/
def execBarrierArrival (t req bar parties sent : Nat) (s : State) : Host.Outcome State Fault Refusal :=
  let s := atMt s t
  if bar < 4096 ∧ 1 ≤ parties ∧ parties ≤ 65536 ∧ mayApply s 4 req sent then
    .next (arriveBarrier (noteApplied s 4 req sent) bar parties { req := req, ref := none }).1
  else .next s

/-- ARRIVAL_WITHDRAW (R283): the unreleased arrivals of a unit whose discard is decided. -/
def execArrivalWithdraw (t wu : Nat) (s : State) : Host.Outcome State Fault Refusal :=
  let s := atMt s t
  match findUnit s wu with
  | none => .next s
  | some u => if u.decided then .next (withdrawArrivals s wu) else .next s

/-! ## The owner's reset (R280) -/

/-- A write of RN_CTR_CMD (R280): no effect while RN_CTR_SEL names a work counter. -/
def resetCtr (s : State) (v : Nat) : State :=
  let n := s.reins.ctrSel
  if n < 0xF000 then setCtrValue (advanceEpoch s n) n (BitVec.ofNat 32 v) else s

/-- RN_CTR_CMD (R277, R280). -/
def execRnCtrCmd (t v : Nat) (s : State) : Host.Outcome State Fault Refusal :=
  let s := atMt s t
  if isReady s then .next (resetCtr s v) else .next s

/-! ## Planes (R270, R271) -/

/-- The RESOURCE that a receiver's supervisor names: its die, or the module on X. -/
def receiverRes (r : Nat) : Nat := if reqDie r < 4 then resDie (reqDie r) else resModule

/-- Plane errors of a plane within the last 1 ms (R271). -/
def recentErrors (s : State) (plane : Nat) : List Nat :=
  (tblGet [] s.reins.errTimes plane).filter fun m => decide (now s < m + 2500000)

/-- PLANE_ERROR (R270, R271, R401): counted and reported; the plane leaves the vote on the 17th within 1 ms. -/
def execPlaneError (t receiver plane : Nat) (how : PlaneFault) (s : State) : Host.Outcome State Fault Refusal :=
  let s := atMt s t
  match how with
  | .crc | .differs | .late =>
    if isReady s ∧ plane < 3 ∧ receiver < 550 then
      let l := now s :: recentErrors s plane
      let s := modReins s fun r => { r with planeErr := tblInc r.planeErr plane, errTimes := tblSet r.errTimes plane l }
      let s := postFault s 0x0B (receiverRes receiver) 0xFFFF
      if 16 < l.length ∧ s.reins.inVote.contains plane then
        .next (modReins s fun r => { r with inVote := r.inVote.filter (· != plane), resync := addOnce r.resync plane })
      else .next s
    else .next s

/-- PLANE_RESYNC_DONE (R271): the plane holds the voted state again and returns to the vote. -/
def execPlaneResyncDone (t plane : Nat) (s : State) : Host.Outcome State Fault Refusal :=
  let s := atMt s t
  if s.reins.resync.contains plane then
    .next (modReins s fun r => { r with inVote := sortBy (fun a b => decide (a < b)) (addOnce r.inVote plane),
                                        resync := r.resync.filter (· != plane), errTimes := tblErase r.errTimes plane })
  else .next s

end Sys2Proof.Machine
end

