-- ==== Sys2Proof/Machine/Power.lean ====
section
/-! DEFINITION. Power states of clusters (12 R385 to R387), frequency steps and the cap (R390 to R392, R395), thermal limits
and droops (R393, R394), the supply (R389), and power-down. -/

namespace Sys2Proof.Machine

/-! ## Cluster power states (R385, R386) -/

/-- Whether a cluster has a ticket or a pending scratchpad access (R385). -/
def cluBusy (c : Cluster) : Bool :=
  c.running.isSome || c.nextUp.isSome || c.drain.isSome || !c.walk.isEmpty || !c.outstanding.isEmpty || !c.mcastWait.isEmpty

/-- CLUSTER_GATE (R385): 64 idle group-clock cycles. -/
def execClusterGate (t p : Nat) (s : State) : Host.Outcome State Fault Refusal :=
  let s := atMt s t
  let c := getClu s p
  if p < 544 ∧ c.role = .serving ∧ c.power = .active ∧ cluBusy c = false ∧
     64 ≤ cyclesIn (getGroup s (groupOf p)) (now s - c.idleSince) then
    .next (modClu (tallyActive s p) p fun c => { c with power := .gated, idleSince := now s })
  else .next s

/-- CLUSTER_SLEEP (R385, R386): GATED for CFG_SLEEP_AFTER while not held. -/
def execClusterSleep (t p : Nat) (s : State) : Host.Outcome State Fault Refusal :=
  let s := atMt s t
  let c := getClu s p
  if p < 544 ∧ c.power = .gated ∧ c.wakeDue = none ∧ physHeld s p = false ∧ c.idleSince + cfgSleepAfter s ≤ now s then
    .next (modClu (modGroup s (groupOf p) fun g => { g with idleSince := now s }) p fun c =>
      { c with power := .asleep, idleSince := now s })
  else .next s

/-- Whether a wake of a kind can bring a cluster to ACTIVE now (R385): a dispatcher's or Farrier's wake after its time; a ticket
from GATED; a scrub or a visit from GATED or ASLEEP. -/
def wakeReady (s : State) (c : Cluster) (why : WakeCause) : Bool :=
  !c.halter &&
  (match c.wakeDue with
   | some d => decide (d ≤ now s)
   | none =>
     match why with
     | .wake => false
     | .ticket => c.power == .gated
     | .scrub | .visit => c.power == .gated || c.power == .asleep)

/-- CLUSTER_WAKE (R385, R470). -/
def execClusterWake (t p : Nat) (why : WakeCause) (s : State) : Host.Outcome State Fault Refusal :=
  let s := atMt s t
  let c := getClu s p
  if p < 544 ∧ c.power ≠ .active ∧ wakeReady s c why then
    let s := if c.power = .asleep ∧ c.wokeAt = none then modClu s p fun c => { c with wokeAt := some (now s) } else s
    let s := makeActive s p
    match logicalOf s p with
    | some l => .next (trace s 6 (some l) 0 0 0 0 [])
    | none => .next s
  else .next s

/-- GROUP_PLL_STOP (R387): every cluster ASLEEP or OFF for CFG_SLEEP_AFTER, none waking. -/
def execGroupPllStop (t g : Nat) (s : State) : Host.Outcome State Fault Refusal :=
  let s := atMt s t
  let idle (p : Nat) : Bool :=
    ((getClu s p).power == .asleep || (getClu s p).power == .off) && (getClu s p).wakeDue.isNone
  if g < 32 ∧ (getGroup s g).pllOn ∧ (numsFrom (17 * g) 17).all idle ∧ (getGroup s g).idleSince + cfgSleepAfter s ≤ now s then
    .next (modGroup s g fun x => { x with pllOn := false })
  else .next s

/-! ## The cap and the step (R390 to R392, R395) -/

/-- Measured power of a step (R391): the estimate made in Primrose. -/
def estimate (s : State) (k : Nat) : Nat := nth 0 s.pwr.estimates k

/-- Whether the dies' throttle has ended (R393): every junction below 98 degrees for 10 ms. -/
def coolLongEnough (s : State) : Bool :=
  match s.pwr.coolSince with
  | some m => decide (m + 25000000 ≤ now s)
  | none => false

/-- The target of one evaluation (R391, R393). -/
def targetStep (s : State) (meanW : Nat) : Nat :=
  let k := s.pwr.step
  if s.pwr.cap < meanW ∨ s.pwr.hot then min 7 (k + 1)
  else if 0 < k ∧ 100 * estimate s (k - 1) ≤ 95 * s.pwr.cap then k - 1
  else k

/-- POWER_EVALUATION (R391, R393, R395). -/
def execPowerEvaluation (t meanW : Nat) (s : State) : Host.Outcome State Fault Refusal :=
  let s := atMt s t
  if isReady s then
    let s := if s.pwr.hot && coolLongEnough s then { s with pwr := { s.pwr with hot := false, coolSince := none } } else s
    let k := targetStep s meanW
    let overs := if s.pwr.cap < meanW then cap32 (s.pwr.capOver + 1) else s.pwr.capOver
    .next { s with pwr := { s.pwr with inputW := min 4095 meanW, target := k, capOver := overs } }
  else .next s

/-- Whether a cluster of a group is held by a layer (R392). -/
def groupHeld (s : State) (g : Nat) : Bool := (numsFrom (17 * g) 17).any (physHeld s)

/-- Trace records of a step change, one from each clocked serving cluster of the group (R470). -/
def traceStep (s : State) (g : Nat) : State :=
  (numsFrom (16 * g) 16).foldl (fun s l =>
    let c := getClu s (physOf s l)
    if served s l && (c.power == .active || c.power == .gated) then trace s 7 (some l) 0 0 0 0 [] else s) s

/-- GROUP_STEP_SWITCH (R392): an unheld group takes the target step; after the last one the step is in force and PWR_STEP
is posted. -/
def execGroupStepSwitch (t g : Nat) (s : State) : Host.Outcome State Fault Refusal :=
  let s := atMt s t
  if isReady s ∧ g < 32 ∧ (getGroup s g).step ≠ s.pwr.target ∧ groupHeld s g = false then
    let s := modGroup (tallyGroup s g) g fun x => { x with step := s.pwr.target }
    let s := traceStep s g
    if s.pwr.target ≠ s.pwr.step ∧ (List.range 32).all fun h => (getGroup s h).step == s.pwr.target then
      let old := s.pwr.step
      .next (post { s with pwr := { s.pwr with step := s.pwr.target } } { code := 0x0020, params := [old, s.pwr.target] })
    else .next s
  else .next s

/-- A write of PWR_CAP (R395): CAP_W outside 1,200 to 3,000 leaves it unchanged. -/
def writeCap (s : State) (v : Nat) : State :=
  let w := bits v 11 0
  if 1200 ≤ w ∧ w ≤ 3000 then { s with pwr := { s.pwr with cap := w } } else s

/-- PWR_CAP_WRITE (R395). -/
def execPwrCapWrite (t v : Nat) (s : State) : Host.Outcome State Fault Refusal :=
  let s := atMt s t
  if isReady s then .next (writeCap s v) else .next s

/-! ## Power-down (R389, R393, R398) -/

/-- The AO domain powers every other domain down (R389): work in flight is lost without notices, and appends not yet written
are lost. The flash and the metrology die keep what they hold; the model's own records stay. -/
def powerDown (s : State) : State :=
  { pending := s.pending
    ctl := { down := true, halt := s.ctl.halt }
    flash := { s.flash with repairPending := [], retiredPending := [] }
    host := { sent := s.host.sent }
    meter := { s.meter with waiting := [], linkOk := false, silent := false, lastReport := 0, timeSuspect := false, voltCv := 0, watt := 0, relay := [] }
    kyend := { s.kyend with busy := none }
    free := s.free }

/-- SUPPLY_OUT_OF_RANGE (R389): below 40 V or above 58 V for 100 us. -/
def execSupplyOutOfRange (t mv : Nat) (s : State) : Host.Outcome State Fault Refusal :=
  let s := atMt s t
  if mv < 40000 ∨ 58000 < mv then
    let d := powerDown s
    .next { d with pwr := { d.pwr with supplyMv := mv } }
  else .next s

/-- REFERENCE_CLOCK_FAIL (R398). -/
def execReferenceClockFail (t : Nat) (s : State) : Host.Outcome State Fault Refusal :=
  let s := atMt s t
  if s.ctl.powered then .next (powerDown s) else .next s

/-- SUPPLY_LOW (R389): 40 V to 44 V. -/
def execSupplyLow (t mv : Nat) (s : State) : Host.Outcome State Fault Refusal :=
  let s := atMt s t
  if isReady s ∧ 40000 ≤ mv ∧ mv < 44000 then
    .next (post { s with pwr := { s.pwr with supplyMv := mv, low := true } } { code := 0x0023, params := [mv] })
  else .next s

/-- SUPPLY_LOW_END (R389). -/
def execSupplyLowEnd (t mv : Nat) (s : State) : Host.Outcome State Fault Refusal :=
  let s := atMt s t
  if isReady s ∧ s.pwr.low ∧ 44000 ≤ mv ∧ mv ≤ 56000 then
    .next (post { s with pwr := { s.pwr with supplyMv := mv, low := false } } { code := 0x0023, fin := true, params := [mv] })
  else .next s

/-- SUPPLY_RESTORED (R389): back within 44 V to 56 V for 1 s after a power-down; the module starts anew from step 1. -/
def execSupplyRestored (t mv : Nat) (s : State) : Host.Outcome State Fault Refusal :=
  let s := atMt s t
  if s.ctl.down ∧ 44000 ≤ mv ∧ mv ≤ 56000 then
    .next { s with ctl := {}, clock := {}, pwr := { s.pwr with supplyMv := mv } }
  else .next s

/-! ## Thermal limits (R393) -/

/-- A junction's temperature measured (R465). Die indices are 0 to 8. -/
def noteTemp (s : State) (die c : Nat) : State :=
  { s with pwr := { s.pwr with temp := tblSet s.pwr.temp die c, peak := tblMod 0 s.pwr.peak die fun x => max x c } }

/-- Groups of a compute die. -/
def dieGroups (die : Nat) : List Nat := if die < 4 then numsFrom (8 * die) 8 else []

/-- The groups of a die stretched (R393), with the event at the start. -/
def startStretch (s : State) (die c : Nat) : State :=
  if (dieGroups die).all fun g => (getGroup s g).thermal then s
  else
    let s := (dieGroups die).foldl (fun s g =>
      modGroup (tallyGroup s g) g fun x => { x with thermal := true, thermalSince := now s }) s
    post s { code := 0x0022, params := [die, c] }

/-- Stretched cycles of a thermal stretch not yet counted (R393, R395). -/
def stretchDue (s : State) (g : Nat) : Nat :=
  let x := getGroup s g
  if x.thermal && x.pllOn then cyclesIn x (now s - x.thermalSince) else 0

/-- The stretch of a die's groups ends (R393), its cycles counted. -/
def endStretch (s : State) (die c : Nat) : State :=
  if (dieGroups die).any fun g => (getGroup s g).thermal then
    let s := (dieGroups die).foldl (fun s g =>
      let n := stretchDue s g
      modGroup (tallyGroup s g) g fun x => { x with thermal := false, stretchCyc := cap32 (x.stretchCyc + n) }) s
    post s { code := 0x0022, fin := true, params := [die, c] }
  else s

/-- THERMAL_LIMIT (R393): 100, 104 and 105 degrees. -/
def execThermalLimit (t die tempC : Nat) (s : State) : Host.Outcome State Fault Refusal :=
  let s := atMt s t
  if !isReady s || decide (8 < die) then .next s
  else
    let s := noteTemp s die tempC
    if 105 ≤ tempC then .next (powerDown s)
    else
      let s := if 100 ≤ tempC then { s with pwr := { s.pwr with hot := true, coolSince := none } } else s
      .next (if 104 ≤ tempC then startStretch s die tempC else s)

/-- THERMAL_RECOVER (R393): below 102 degrees the stretch ends; once every junction has been below 98 for 10 ms so does the
throttle. -/
def execThermalRecover (t die tempC : Nat) (s : State) : Host.Outcome State Fault Refusal :=
  let s := atMt s t
  if !isReady s || decide (8 < die) then .next s
  else
    let s := noteTemp s die tempC
    let s := if tempC < 102 then endStretch s die tempC else s
    let cool := s.pwr.temp.all fun e => decide (e.2 < 98)
    let since := if s.pwr.hot && cool then some (s.pwr.coolSince.getD (now s)) else none
    let s := { s with pwr := { s.pwr with coolSince := since } }
    .next (if coolLongEnough s then { s with pwr := { s.pwr with hot := false, coolSince := none } } else s)

/-! ## Droops (R394) -/

/-- DROOP_DETECT (R394, R469): stretched cycles are counted; above 1 % of the cycles of 1 ms, PWR_DROOP is posted. -/
def execDroopDetect (t g stretched inLastMs cyclesInMs : Nat) (s : State) : Host.Outcome State Fault Refusal :=
  let s := atMt s t
  if isReady s ∧ g < 32 then
    let s := modGroup s g fun x => { x with droop := true, stretchCyc := cap32 (x.stretchCyc + stretched) }
    .next (if cyclesInMs < 100 * inLastMs then post s { code := 0x0021, params := [g, inLastMs] } else s)
  else .next s

/-- DROOP_END (R394). -/
def execDroopEnd (t g : Nat) (s : State) : Host.Outcome State Fault Refusal :=
  let s := atMt s t
  if g < 32 then .next (modGroup s g fun x => { x with droop := false }) else .next s

end Sys2Proof.Machine
end

