-- ==== Sys2Proof/Machine/Start.lean ====
section
/-! DEFINITION. The configuration block and its checks (12 R370 to R377), firmware images (R381 to R383), the start sequence
(R378 to R380) and its end at READY (09 R285, R303; 08 R268; 11 R363; 13 R429). -/

namespace Sys2Proof.Machine

/-! ## The configuration block (R371 to R375) -/

/-- Bits of a byte of the block that are not reserved (R371, R373, R374). -/
def blockMask (a : Nat) : Nat :=
  if a < 16 then (if a = 6 ∨ a = 7 then 0 else 255)
  else if a < 64 then 0
  else if a < 128 then 255
  else if a < 0x100 then
    (match a with
     | 0x80 => 0x31 | 0x81 => 1 | 0x82 => 0 | 0x83 => 0
     | 0x89 => 0x0F | 0x8A => 0 | 0x8B => 0 | 0x8E => 0 | 0x8F => 0 | 0x92 => 0 | 0x93 => 0 | 0x96 => 0 | 0x97 => 0
     | 0x9B => 0 | 0xA1 => 7 | 0xA2 => 0x3F | 0xA3 => 0 | 0xA5 => 0x0F | 0xAE => 0 | 0xAF => 0
     | 0xB5 => 0 | 0xB6 => 0 | 0xB7 => 0 | 0xBC => 0 | 0xBD => 0 | 0xBE => 0 | 0xBF => 0 | 0xF7 => 0
     | _ => if (0xD1 ≤ a ∧ a ≤ 0xDF) ∨ 0xF8 ≤ a then 0 else 255)
  else if a < 0x1000 then 0
  else if a < 0x11000 then
    let o := (a - 0x1000) % 2048
    (if o = 0 then 1 else if o = 1 then 255 else if o < 4 then 0 else if o ≤ 1955 then 255 else 0)
  else if a < 0x13000 then
    let o := (a - 0x11000) % 128
    (if o = 0 then 1 else if o < 64 then 0 else 255)
  else if a < 0x13100 then (match a % 4 with | 0 => 255 | 1 => 0x3F | _ => 0)
  else 0

/-- Whether every reserved bit of a block is 0. -/
def reservedClear (c : Cells) : Bool :=
  c.all fun e => decide (131072 ≤ e.1) || e.2 &&& (~~~ (BitVec.ofNat 8 (blockMask e.1))) == 0

/-- A little-endian field of a block. -/
def blkField (c : Cells) (off n : Nat) : Nat := leNat (cellRead c off n)

/-- A value in its range, or 0 for its default (R373). -/
def inRangeOr0 (v lo hi : Nat) : Bool := v == 0 || (decide (lo ≤ v) && decide (v ≤ hi))

/-- A port number of a route (R351). -/
def portOk (p : Nat) : Bool := decide (p ≤ 3) || p == 15

/-- PRIMARY and ALT of a route of the block. -/
def blkPrimary (c : Cells) (d : Nat) : Nat := bits (blkField c (0x13000 + 4 * d) 4) 3 0
def blkAlt (c : Cells) (d : Nat) : Nat := bits (blkField c (0x13000 + 4 * d) 4) 7 4

/-- The group rules of R351. -/
def groupOk (c : Cells) : Bool :=
  let size := blkField c 0xF4 1
  let rank := blkField c 0xF5 1
  blkField c 0xF0 4 == 0 ||
  (decide (1 ≤ size) && decide (size ≤ 64) && decide (rank < size) && blkPrimary c rank == 15 && blkAlt c rank == 15 &&
   (List.range size).all fun d => portOk (blkPrimary c d) && portOk (blkAlt c d))

/-- The field ranges of R374, and R214 and R306. -/
def rangesOk (c : Cells) : Bool :=
  decide (bits (blkField c 0x80 4) 5 4 ≤ 2) && inRangeOr0 (bits (blkField c 0x88 4) 11 0) 1200 3000 &&
  inRangeOr0 (blkField c 0x8C 2) 10 10000 && inRangeOr0 (blkField c 0x90 2) 1 1000 &&
  inRangeOr0 (bits (blkField c 0x94 1) 3 0) 2 15 && inRangeOr0 (bits (blkField c 0x94 1) 7 4) 2 15 &&
  inRangeOr0 (blkField c 0x95 1) 1 64 && inRangeOr0 (blkField c 0x98 3) 1 10000 &&
  inRangeOr0 (blkField c 0x9C 4) 9600 3000000 && decide (bits (blkField c 0xA4 2) 11 0 ≤ 4094) &&
  !bit (blkField c 0xA8 1) 0 && decide (blkField c 0xB4 1 ≤ 32) && decide (blkField c 0xD0 1 ≤ 128) &&
  (blkField c 0xB0 4 != 0 || blkField c 0xC0 16 != 0) &&
  ((List.range 32).any fun i => bit (blkField c (0x1000 + 2048 * i) 1) 0)

/-- The rules of R375 on a block. -/
def blockOk (c : Cells) : Bool :=
  blkField c 0 4 == 0x47464341 && blkField c 4 2 == 1 && blkField c 12 4 == 131072 && blkField c 8 4 != 0 &&
  reservedClear c && rangesOk c && groupOk c

/-- The clause of R375 that a block breaks first (R475). -/
def blockClause (c : Cells) : String :=
  if !(blkField c 0 4 == 0x47464341 && blkField c 4 2 == 1 && blkField c 12 4 == 131072 && blkField c 8 4 != 0) then "header values"
  else if !reservedClear c then "reserved bits"
  else if !rangesOk c then "field range"
  else "group"

/-- The DIGEST of a block (R371). -/
def blockDigestOk (c : Cells) : Bool := cellRead c 64 64 == shake512 (cellRead c 0 64 ++ cellRead c 128 130944)

/-- The repair table's rules (R161) and the retirement list's (R375). -/
def flashTablesOk (f : Flash) : Bool :=
  (f.repair.all fun e => decide (e.cluster < 544) && decide (e.bank < 64) && decide (e.row < 3072) &&
    decide ((f.repair.filter fun x => x.cluster == e.cluster && x.bank == e.bank).length ≤ 48) &&
    (f.repair.filter fun x => x.cluster == e.cluster && x.bank == e.bank && x.row == e.row).length == 1) &&
  dedup f.retired == f.retired

/-- SEQUENCE of a slot that is a candidate (R372): 0 otherwise. -/
def slotSeq (c : Cells) : Nat := if blkField c 0 4 = 0x47464341 then blkField c 8 4 else 0

/-- The slot that step 2 takes (R372): whether it is B, and whether the older one had to be used. -/
def chooseSlot (f : Flash) : Option (Bool × Bool) :=
  let a := slotSeq f.slotA
  let b := slotSeq f.slotB
  let first := decide (a < b)
  let blk (x : Bool) := if x then f.slotB else f.slotA
  let seq (x : Bool) := if x then b else a
  if seq first ≠ 0 ∧ blockDigestOk (blk first) then some (first, false)
  else if seq (!first) ≠ 0 ∧ blockDigestOk (blk (!first)) then some (!first, true)
  else none

/-- Nonzero bytes of a list as cells. -/
def cellsAt : Nat → List Byte → Cells
  | _, [] => []
  | a, b :: r => if b = 0 then cellsAt (a + 1) r else (a, b) :: cellsAt (a + 1) r

/-! ## Firmware images (R381) -/

/-- LENGTH, FW_VERSION and STEPPINGS of an image. -/
def imgLength (l : List Byte) : Nat := leAt l 12 4
def imgVersion (l : List Byte) : Nat := leAt l 4 4
def imgSteppings (l : List Byte) : Nat := leAt l 8 1

/-- VENDOR_KEY of an image. -/
def imgKey (l : List Byte) : List Byte := (l.drop 3440).take 1952

/-- Whether an image passes its own digest (R381). -/
def imgDigestOk (l : List Byte) : Bool :=
  leAt l 0 4 == 0x57465341 && decide (8193 ≤ imgLength l) && decide (imgLength l ≤ 8388608) &&
  decide (imgLength l ≤ l.length) && (l.drop 64).take 64 == shake512 (l.take 64 ++ (l.take (imgLength l)).drop 8192)

/-- RESULT of an image's checks (R381, R382): 0 when it may run. Stepping B0 is number 1. -/
def imgCheck (l : List Byte) (floor : Nat) : Nat :=
  if shake512 (imgKey l) ≠ Config.romRootDigest then 5
  else if !Config.mlDsaVerify (imgKey l) (l.take 128) ((l.drop 128).take 3309) "AS2-FW" then 5
  else if !imgDigestOk l then 3
  else if imgVersion l < floor then 6
  else if !bit (imgSteppings l) 1 then 7
  else 0

/-- M_FW of an image (R438). -/
def imgMeasure (l : List Byte) : List Byte := shake512 (l.take (imgLength l))

/-! ## Steps 1 to 5 -/

/-- The flash as service or manufacture left it. -/
def flashOf (i : FlashImage) : Flash :=
  { slotA := cellsOf i.slotA, slotB := cellsOf i.slotB, helper := i.helper, certs := i.certs, image := i.image,
    imageValid := imgDigestOk i.image, repair := i.repair, retired := i.retired }

/-- A halt (R378, R475): the domains other than AO come to nothing, and the AO domain keeps the step and the check. -/
def haltAt (s : State) (m : ModState) (step : Nat) (why : String) : State :=
  { s with ctl := { s.ctl with modState := m, step := step, halt := some (step, why), powered := false } }

/-- Step 2 (R372, R375): the block in force. -/
def startConfig (s : State) : Except String State :=
  match chooseSlot s.flash with
  | none => .error "no slot passes its digest"
  | some (b, fallback) =>
    let blk := if b then s.flash.slotB else s.flash.slotA
    if !blockOk blk then .error (blockClause blk)
    else if !flashTablesOk s.flash then .error "repair table or retirement list"
    else
      let ev := if fallback then [(0x0060, 0, 0, flag b)] else []
      let s := { s with ctl := { s.ctl with cfg := blk, runningB := b, cfgFallback := fallback, readyEvents := ev } }
      let s := kyendSay s ["baud " ++ toString (cfgUartBaud s)]
      .ok { s with kyend := { s.kyend with baud := cfgUartBaud s } }

/-- Step 3 (R379, R381): the image in force. -/
def startImage (s : State) : Except String State :=
  let l := s.flash.image
  if imgCheck l (cfgFwFloor s) = 0 then
    .ok { s with ctl := { s.ctl with fwVersion := imgVersion l, fwMeasure := imgMeasure l } }
  else .error ("RESULT " ++ toString (imgCheck l (cfgFwFloor s)))

/-- Step 4 (R431): the keys. -/
def startKeys (s : State) (puf : List Byte) : Except String State :=
  match Config.pufRecover puf s.flash.helper with
  | none => .error "helper data"
  | some k =>
    let id := (Config.shake256 32 (k ++ asciiBytes "AS2-ID")).take 32
    let kem := (Config.shake256 64 (k ++ asciiBytes "AS2-KEM")).take 64
    let b := bundleBytes s
    if Config.mlDsaPublic id = certKey b 2 ∧ Config.mlKemPublic kem = certKey b 3 then
      .ok { s with sec := { s.sec with idSeed := id, kemSeed := kem, keysOk := true, bundleOk := bundleOk b } }
    else .error "identity or KEM key"

/-! ## Steps 6 and 7 -/

/-- A PRIMROSE_DEGRADED event to post at READY (R380). -/
def degrade (s : State) (res p0 : Nat) : State :=
  { s with ctl := { s.ctl with degraded := true, readyEvents := s.ctl.readyEvents ++ [(0x000A, 0, res, p0)] } }

/-- Routes of the block in force (R351). -/
def cfgRoutes (s : State) : Tbl Route :=
  (List.range (cfgField s 0xF4 1)).map fun d =>
    (d, { primary := blkPrimary s.ctl.cfg d, alt := blkAlt s.ctl.cfg d, keySlot := bits (cfgField s (0x13000 + 4 * d) 4) 13 8 })

/-- The host port after training (R343, R380). -/
def startHost (s : State) (failed : List Nat) : State :=
  let s := failed.foldl (fun s p => degrade s resNone p) s
  let a := failed.contains 0
  let b := failed.contains 1
  modHost s fun h => { h with down := a && b, active := if a && !b then 1 else 0, standby := if a || b then 0 else 2 }

/-- A peer lane that fails training (R380): lane 8 is in use from READY. -/
def startPeerLane (s : State) (e : Nat × Nat) : State :=
  let s := degrade s resNone e.2
  let s := { s with flt := { s.flt with lapsePeer := addOnce s.flt.lapsePeer e.1 } }
  modPeerPort s e.1 fun q => if e.2 = 8 then { q with spareFailed := true } else { q with spareFor := e.2 }

/-- The group and the peer ports after training (R345, R351, R354, R363). -/
def startPeers (s : State) (i : StartInputs) : State :=
  if cfgGroupId s = 0 then s
  else
    let r := cfgRoutes s
    let p := s.peers
    let size := cfgField s 0xF4 1
    let rank := cfgField s 0xF5 1
    let gen := cfgField s 0xF6 1
    let s := { s with peers := { p with rank := rank, size := size, gen := gen, newRank := rank, newSize := size, newGen := gen,
                                        routes := r, stage := r } }
    let s := i.failPeerLanes.foldl startPeerLane s
    (List.range 4).foldl (fun s q => trainPort s q (i.peerPattern.contains q)) s

/-- Retired frames take pool frames in the order of the list (R259, R268). -/
def startFrames (s : State) : State :=
  if cfgSingleGuard s then s
  else
    let l := s.flash.retired.take 2048
    let m := ((numsFrom 0 l.length).zip l).foldl (fun (t : Tbl Nat) e => tblSet t e.2 (737280 + e.1)) []
    { s with hbm := { s.hbm with frameMap := m, poolUsed := l.length } }

/-- A stack that fails training or Primrose (R268, R380): rebuilt with nothing to copy, or a lost region in Single Guard; the
guarantee lapses for HBM until the next start. -/
def startStack (s : State) (k : Nat) : State :=
  let r : LostRegion := { stack := k, pc := none, rebuilt := !cfgSingleGuard s }
  { degrade s (resStack k) k with hbm := { s.hbm with lost := s.hbm.lost ++ [r] }, flt := { s.flt with lapseHbm := true } }

/-- A repair entry applied to its cluster (R161, R162). -/
def applyRepair (s : State) (e : RepairEntry) : State :=
  modClu s e.cluster fun c =>
    let n := sparesUsed c e.bank
    { c with remap := c.remap ++ [(e.bank, e.row, n)], spareUsed := tblSet c.spareUsed e.bank (n + 1) }

/-- A cluster that fails Primrose (R380, R461): a spare is out; a serving one awaits its remount onto the group's spare, or its
number is absent. -/
def failPrimrose (s : State) (p : Nat) : State :=
  let l := logicalOf s p
  let s := degrade s (match l with | some x => resCluster x | none => resNone) p
  let s := modClu s p fun c => { c with role := .failed, power := .off, halter := true, fails := 1, lastMech := 0x1A }
  match l with
  | none => s
  | some l =>
    if (s.ctl.readyRemounts.any fun x => x / 16 == l / 16) || (findSpare s (l / 16)).isNone then
      setLmap s l { p := p, unserved := false, absent := true }
    else
      let s := { s with ctl := { s.ctl with readyRemounts := s.ctl.readyRemounts ++ [l] } }
      setLmap s l { p := p, unserved := true, absent := false }

/-- A row that fails the march (R162): mapped out, or the cluster fails. -/
def startRow (s : State) (e : Nat × Nat × Nat) : State :=
  match mapOutRows s e.1 [e.2] with
  | some s => s
  | none => if (getClu s e.1).halter then s else failPrimrose s e.1

/-- Clusters that fail Primrose, each group's spare before its serving clusters. -/
def startClusters (s : State) (l : List Nat) : State :=
  let spares := l.filter fun p => p % 17 == 16
  let others := l.filter fun p => p % 17 != 16
  (spares ++ others).foldl (fun s p => if decide (p < 544) && !(getClu s p).halter then failPrimrose s p else s) s

/-- Reins planes, supervisors and die links (R303, R367, R380). -/
def startControl (s : State) (i : StartInputs) : State :=
  let s := i.failPlanes.foldl (fun s p =>
    modReins (degrade s resNone p) fun r => { r with inVote := r.inVote.filter (· != p) }) s
  let s := i.failDieSup.foldl (fun s d =>
    let s := degrade s (resDie d) 0xFFFF
    { s with ctl := { s.ctl with dieVote := tblSet s.ctl.dieVote d [0, 1], failedCores := addOnce s.ctl.failedCores d } }) s
  let s := if i.failModSup then
      (let s := degrade s resModule 0xFFFF
       { s with ctl := { s.ctl with modVote := [1, 2, 3], modSpare := none, failedCores := addOnce s.ctl.failedCores 4 } })
    else s
  i.failDieLanes.foldl (fun s e =>
    let s := degrade s resNone e.1
    { s with flt := { s.flt with dieLanes := tblMod 0 s.flt.dieLanes (4096 * e.1 + e.2) (· + 1) } }) s

/-- Figures measured at the start (R391, R462, R465). -/
def startFigures (s : State) (i : StartInputs) : State :=
  let tp := (numsFrom 0 9).map fun d => (d, nth 0 i.temps d)
  let st := (numsFrom 0 20).map fun k => (k, nth 0 i.temps (9 + k))
  { s with pwr := { s.pwr with estimates := i.stepPower, temp := tp, peak := tp }
           hbm := { s.hbm with temp := st } }

/-- Steps 6 and 7 (R162, R268, R343, R379, R380). -/
def startPrimrose (s : State) (i : StartInputs) : State :=
  let s := startPeers (startHost s i.failHostPaths) i
  let s := i.failStacks.foldl startStack (startFrames s)
  let s := s.flash.repair.foldl applyRepair s
  let s := i.badRows.foldl startRow s
  startFigures (startControl (startClusters s i.failClusters) i) i

/-- START_SEQUENCE (R379): steps 1 to 7; the module then waits at step 8. -/
def execStartSequence (t : Nat) (i : StartInputs) (s : State) : Host.Outcome State Fault Refusal :=
  let s := atMt s t
  if s.ctl.modState ≠ .starting ∨ s.ctl.powered ∨ s.ctl.down then .next s
  else
    let s := { s with pwr := { s.pwr with supplyMv := i.supplyMv } }
    if i.supplyMv < 44000 ∨ 56000 < i.supplyMv then .next s
    else
      let s := kyendPrompt s
      let s := match i.flash with | some f => { s with flash := flashOf f } | none => s
      match startConfig s with
      | .error e => .next (haltAt s .haltedConfig 2 e)
      | .ok s =>
        match startImage s with
        | .error e => .next (haltAt s .haltedFirmware 3 e)
        | .ok s =>
          match startKeys s i.puf with
          | .error e => .next (haltAt s .haltedHardware 4 e)
          | .ok s =>
            if i.diesStart = false then .next (haltAt s .haltedHardware 5 "X or a compute die")
            else
              let s := { s with ctl := { s.ctl with powered := true } }
              let s := startPrimrose s i
              .next { s with ctl := { s.ctl with step := 8 } }

/-! ## Steps 8 and 9 -/

/-- The step in force at READY (R390): step 0, or the highest allowed under the cap. -/
def readyStep (s : State) : Nat := ((List.range 8).find? fun k => decide (estimate s k ≤ s.pwr.cap)).getD 7

/-- The power manager at READY (R390, R395). -/
def readyPower (s : State) : State :=
  let s := { s with pwr := { s.pwr with cap := cfgPowerCap s } }
  let k := readyStep s
  let s := { s with pwr := { s.pwr with step := k, target := k } }
  (List.range 32).foldl (fun s g => modGroup s g fun x => { x with step := k }) s

/-- The remounts that are the first act after READY (R380, R411), and intervals of reduced capacity that begin there
(R427). -/
def readyRemount (s : State) : State :=
  let s := s.ctl.readyRemounts.foldl (fun s l =>
    match findSpare s (l / 16) with
    | some q => startRemount s l (getLmap s l).p q []
    | none => s) s
  let s := (List.range 512).foldl (fun s l =>
    if (getLmap s l).absent then capOpen (makeAbsent s l (getLmap s l).p []) 1 (resCluster l)
    else if (getLmap s l).unserved then capOpen s 1 (resCluster l) else s) s
  (s.hbm.lost.filter fun r => !r.rebuilt).foldl (fun s r => capOpen s 2 (regionRes r)) s

/-- READY (R378, R379 step 9): the events of the start are posted. -/
def enterReady (s : State) : State :=
  let s := { s with ctl := { s.ctl with modState := .ready, step := 9 } }
  let s := s.ctl.readyEvents.foldl (fun s e =>
    let ev : Event := { code := e.1, res := e.2.2.1, params := if e.1 = 0x000A then [] else [e.2.2.2] }
    if e.1 = 0x000A then postFault (post s ev) 0x1A e.2.2.1 e.2.2.2 else post s ev) s
  let s := modReins s fun r => { r with lastBeat := (List.range 4).map fun d => (544 + d, now s) }
  helloAll (readyRemount (readyPower s))

/-- PTP_LOCK (R285, R379): MT steps once to PTP time, the step is recorded, and the module enters READY. -/
def execPtpLock (t ptp : Nat) (s : State) : Host.Outcome State Fault Refusal :=
  let s := atMt s t
  if s.ctl.modState = .starting ∧ s.ctl.step = 8 ∧ linkUp s .host then
    let s := { s with clock := { s.clock with mt := ptp, ptp := 1 } }
    let e : Event := { code := 0x0031, params := [2] }
    .next (enterReady (faultLog (post s e) e))
  else .next s

/-! ## The loader (R377, R381 to R383) -/

/-- The loader's result and phase (R381). -/
def loadEnds (s : State) (result phase : Nat) : State :=
  { s with ctl := { s.ctl with loadResult := result, loadPhase := phase } }

/-- The source's first n bytes as the loader reads them (R262, R382). -/
def loadRead (s : State) (n : Nat) : Option (List Byte) :=
  match vRead s 4 s.ctl.loadJob (s.ctl.loadVaHi * 2 ^ 32 + s.ctl.loadVaLo) n with
  | .error _ => none
  | .ok l => if l.any (·.2) then none else some (l.map (·.1))

/-- What the loader does with the bytes it has read: a read that fails ends it with RESULT 2 (R381, R382). -/
def loadWith (s : State) (q : Option (List Byte)) (f : List Byte → State) : State :=
  match q with
  | none => loadEnds s 2 6
  | some l => f l

/-- The checks of a block that has been read, and its staging in the other slot (R377, R382). -/
def stageBlock (s : State) (l : List Byte) : State :=
  let c := cellsAt 0 l
  if !blockDigestOk c then loadEnds s 3 6
  else if !blockOk c then loadEnds s 4 6
  else if blkField c 8 4 ≠ cfgField s 8 4 + 1 then loadEnds s 8 6
  else if imgVersion s.flash.image < blkField c 0x84 4 then loadEnds s 9 6
  else
    let f := if s.ctl.runningB then { s.flash with slotA := c } else { s.flash with slotB := c }
    let s := { s with flash := f, ctl := { s.ctl with staged := some (cellRead c 64 64) } }
    post (loadEnds s 0 5) { code := 0x0061, params := [blkField c 8 4] }

/-- A configuration block loaded (R377, R382). -/
def loadConfig (s : State) : State := loadWith s (loadRead s 131072) (stageBlock s)

/-- The checks of an image that has been read, and its cut-over (R382, R383); `changed` says that the source changed
between its two reads. -/
def stageImage (s : State) (changed : Bool) (l : List Byte) : State :=
  let r := imgCheck l (cfgFwFloor s)
  if r ≠ 0 then loadEnds s r 6
  else if changed then
    let s := { s with flash := { s.flash with image := [], imageValid := false } }
    loadEnds s 0x0A 6
  else
    let old := s.ctl.fwVersion
    let s := { s with flash := { s.flash with image := l, imageValid := true } }
    let s := { s with ctl := { s.ctl with fwVersion := imgVersion l, fwMeasure := imgMeasure l, oldBanks := true } }
    postFrom (loadEnds s 0 5) 549 { code := 0x0062, params := [old, imgVersion l] }

/-- A firmware image loaded and cut over (R382, R383): its first 8,192 bytes give its length. -/
def loadImage (s : State) (changed : Bool) : State :=
  loadWith s (loadRead s 8192) fun h =>
    loadWith s (loadRead s (max 8192 (min 8388608 (imgLength h)))) (stageImage s changed)

/-- A write of MOD_LOAD_CMD (R381, R382): JOB_ID and KIND are stored; GO starts the loader, or is BUSY. -/
def writeLoadCmd (s : State) (v : Nat) (changed : Bool) : State :=
  let s := { s with ctl := { s.ctl with loadJob := bits v 31 16, loadKind := bits v 1 1 } }
  if !bit v 0 then s
  else if 1 ≤ s.ctl.loadPhase ∧ s.ctl.loadPhase ≤ 4 then { s with ctl := { s.ctl with loadResult := 1 } }
  else if s.ctl.loadKind = 0 then loadConfig s
  else loadImage s changed

/-- CFG_LOAD (R377, R381). -/
def execCfgLoad (t v : Nat) (s : State) : Host.Outcome State Fault Refusal :=
  let s := atMt s t
  if isReady s then .next (writeLoadCmd s v false) else .next s

/-- FW_LOAD (R382, R383). -/
def execFwLoad (t v : Nat) (changed : Bool) (s : State) : Host.Outcome State Fault Refusal :=
  let s := atMt s t
  if isReady s then .next (writeLoadCmd s v changed) else .next s

/-- Whether a unit is bound to an earlier firmware version (R383). -/
def boundToOld (s : State) (u : WorkUnit) : Bool := u.mtIssue.isSome && u.fwVersion != s.ctl.fwVersion

/-- CODE_BANK_FREE (R383). -/
def execCodeBankFree (t : Nat) (s : State) : Host.Outcome State Fault Refusal :=
  let s := atMt s t
  if s.ctl.oldBanks && !(s.disp.units.any (boundToOld s)) then .next { s with ctl := { s.ctl with oldBanks := false } }
  else .next s

end Sys2Proof.Machine
end

