-- ==== Sys2Proof/Machine/Regs.lean ====
section
/-! DEFINITION. The management registers (00 R8, R9; 15 R455 to R467; and the tables of R280, R300, R301, R312, R353 to R355,
R376, R381, R395, R428, R439, R453), the messages that read and write them (10 R332), and attestation (14 R438, R439). -/

namespace Sys2Proof.Machine

/-! ## Values shown by several registers -/

/-- A RW1C field after a write (R8): each 1 bit clears its bit. -/
def rw1c (old v : Nat) : Nat := old - (old &&& v)

/-- STATE of MOD_STATE (R381). -/
def stateCode : ModState → Nat
  | .starting => 0
  | .ready => 1
  | .haltedConfig => 2
  | .haltedFirmware => 3
  | .haltedHardware => 4

/-- ROLE of CLU_STATE (R461). -/
def roleCode : Role → Nat
  | .serving => 0
  | .spare => 1
  | .failedRetest => 2
  | .failed => 3
  | .retired => 4

/-- POWER of CLU_STATE (R385, R461). -/
def powerCode : PowerState → Nat
  | .active => 0
  | .gated => 1
  | .asleep => 2
  | .off => 3

/-- A lost HBM region exists (R255, R427): until its rebuild completes, or a unit added alone (R259). -/
def hbmRegionLost (s : State) : Bool := (s.hbm.lost.any fun r => !r.rebuilt) || !s.hbm.lostUnits.isEmpty

/-- Some peer port has no usable lane 8 (R380, R428). -/
def lapsePeer (s : State) : Bool :=
  !s.flt.lapsePeer.isEmpty || (List.range 4).any fun p => (peerPortOf s p).spareFailed || (peerPortOf s p).spareFor != 0xF

/-- Bits 7 to 1 of FLT_GUARANTEE (R428): NO_HOT_SPARE, LAPSE_PEER, LAPSE_DIE_LINK, LAPSE_HOST, LAPSE_HBM, LAPSE_REINS,
LAPSE_DIE_SUP. -/
def lapses (s : State) : Nat :=
  field (flag s.ctl.modSpare.isNone) 7 + field (flag (lapsePeer s)) 6 +
  field (flag (s.flt.dieLanes.any fun e => decide (4 ≤ e.2))) 5 + field (flag (s.host.standby != 2 || s.host.down)) 4 +
  field (flag (hbmRegionLost s || s.flt.lapseHbm)) 3 + field (flag (s.reins.inVote.length != 3)) 2 +
  field (flag ((List.range 4).any fun d => decide ((dieMembers s d).length < 3) || s.ctl.dieSupLost.contains d)) 1

/-- FLT_GUARANTEE (R428): HELD when nothing has lapsed. -/
def guaranteeReg (s : State) : Nat := lapses s + flag (lapses s == 0)

/-- Word i of a byte string. -/
def wordAt (l : List Byte) (i : Nat) : Nat := leAt l (4 * i) 4

/-- M_FW_FLASH (R438): all zero when FLASH_VALID is 0. -/
def flashMeasure (s : State) : List Byte :=
  if s.flash.imageValid then imgMeasure s.flash.image else List.replicate 64 0

/-- D_METER (R438). -/
def meterDigest (s : State) : List Byte := shake512 (certKey s.flash.certs 4)

/-- OWNER of SEC_SESSIONS (R439). -/
def ownerNumber (s : State) : Nat :=
  match s.host.owner with
  | some (n, g) => if isOwner s n g then n else 0xFF
  | none => 0xFF

/-! ## Reading -/

/-- The Identity block (R458). -/
def readId (s : State) (x : Nat) : Nat :=
  match x with
  | 0x0 => 0x4C455354
  | 0x4 => 0x00021600
  | 0x8 => 1
  | 0xC => s.ctl.fwVersion
  | _ => if 0x10 ≤ x ∧ x < 0x20 then wordAt (serialBytes s) ((x - 0x10) / 4) else 0

/-- MOD_STATE (R381). -/
def modStateReg (s : State) : Nat :=
  field (flag s.ctl.cfgFallback) 17 + field (flag s.ctl.degraded) 16 + field (s.ctl.step % 16) 8 + stateCode s.ctl.modState

/-- MOD_JOB_CTRL (R459). -/
def jobCtrlReg (j : JobSlot) : Nat :=
  field (flag j.valid) 31 + field (flag j.refused) 30 + field (j.choice % 4) 16 + j.jobId % 65536

/-- The Module block (R381, R459), by offset. -/
def readMod (s : State) (off : Nat) : Nat :=
  match off with
  | 0x001000 => modStateReg s
  | 0x001010 => now s % 2 ^ 32
  | 0x001014 => now s / 2 ^ 32 % 2 ^ 32
  | 0x001100 => s.disp.jobSel
  | 0x001104 => (getSlot s s.disp.jobSel).rootLo
  | 0x001108 => (getSlot s s.disp.jobSel).rootHi
  | 0x00110C => jobCtrlReg (getSlot s s.disp.jobSel)
  | 0x001114 => (s.disp.jobs.filter fun e => e.2.valid).length
  | 0x001200 => s.ctl.loadVaLo
  | 0x001204 => s.ctl.loadVaHi
  | 0x001208 => field s.ctl.loadJob 16 + field s.ctl.loadKind 1
  | 0x00120C => field (s.ctl.loadResult % 256) 24 + field (flag s.flash.imageValid) 8 + s.ctl.loadPhase % 16
  | _ => 0

/-- CLU_STATE (R461). -/
def cluStateReg (s : State) (p : Nat) : Nat :=
  let c := getClu s p
  let l := if c.role = .serving then (logicalOf s p).getD 0x1FF else 0x1FF
  field (roleCode c.role) 20 + field (powerCode c.power) 18 + field (flag c.halter) 17 + field (flag (physHeld s p)) 16 + l

/-- CLU_SPARE_ROWS (R159, R461): the unused spare rows of the bank that has fewest. -/
def spareRowsReg (c : Cluster) : Nat := 48 - (c.spareUsed.foldl (fun n e => max n e.2) 0)

/-- Register `r` of physical cluster `p` (R461). -/
def readCluster (s : State) (p r : Nat) : Nat :=
  let c := getClu s p
  match r with
  | 0x00 => cluStateReg s p
  | 0x04 => c.ticket
  | 0x08 => c.stall
  | 0x0C => cap32 (c.activeCyc + pendingActive s p)
  | 0x10 => c.useful % 2 ^ 32
  | 0x14 => c.useful / 2 ^ 32 % 2 ^ 32
  | 0x18 => c.peak % 2 ^ 32
  | 0x1C => c.peak / 2 ^ 32 % 2 ^ 32
  | 0x20 => c.spdCe
  | 0x24 => c.spdUe
  | 0x28 => spareRowsReg c
  | 0x2C => c.mcastMiss
  | 0x30 => field (min c.fails 0xFFFF) 16 + c.lastMech % 256
  | _ => 0

/-- CLU_LMAP (R461). -/
def lmapReg (s : State) (l : Nat) : Nat :=
  let m := getLmap s l
  field (flag m.absent) 31 + field (flag m.unserved) 30 + m.p

/-- The Clusters block (R461), by offset in the block. -/
def readClu (s : State) (x : Nat) : Nat :=
  if x < 0x40 * 544 then readCluster s (x / 0x40) (x % 0x40)
  else if 0xC000 ≤ x ∧ x < 0xC000 + 4 * 512 then lmapReg s ((x - 0xC000) / 4)
  else 0

/-- Lost pseudo-channels of a stack (R462). -/
def lostPcs (s : State) (k : Nat) : List Nat :=
  (List.range 64).filter fun c => s.hbm.lost.any fun r => r.stack == k && (match r.pc with | none => true | some x => x == c)

/-- STATE of HBM_STATUS (R462). -/
def stackState (s : State) (k : Nat) : Nat :=
  if s.hbm.lost.any fun r => r.stack == k && r.pc.isNone then 2 else if (lostPcs s k).isEmpty then 0 else 1

/-- A map of numbers below 32 as bits. -/
def bitMap (l : List Nat) : Nat := sumNat (l.map fun i => 2 ^ i)

/-- Register `r` of stack `k` (R462). -/
def readStack (s : State) (k r : Nat) : Nat :=
  match r with
  | 0x00 => field (stackState s k) 16 + field (lostPcs s k).length 8 + tblGet 0 s.hbm.temp k % 256
  | 0x04 => tblGet 0 s.hbm.ce k
  | 0x08 => tblGet 0 s.hbm.ue k
  | 0x0C => tblGet 0 s.hbm.odecc k
  | 0x10 => bitMap ((lostPcs s k).filter fun c => decide (c < 32))
  | 0x14 => bitMap (((lostPcs s k).filter fun c => decide (32 ≤ c)).map fun c => c - 32)
  | _ => 0

/-- The HBM block (R462), by offset in the block. -/
def readHbm (s : State) (x : Nat) : Nat :=
  if x < 0x400 * 20 then readStack s (x / 0x400) (x % 0x400)
  else
    match x with
    | 0x7000 => field (flag s.hbm.rebuilding) 1 + flag (cfgSingleGuard s)
    | 0x7004 => s.hbm.rebuildProgress % 65536
    | 0x7008 => poolFrames s
    | 0x700C => s.hbm.scrubProgress % 65536
    | _ => 0

/-- A port's counters (R463), by offset from its base. -/
def readCounters (c : PortCounters) (x : Nat) : Nat :=
  match x with
  | 0x100 => c.rxFrames
  | 0x104 => c.txFrames
  | 0x108 => c.dropFcs
  | 0x10C => c.dropLen
  | 0x110 => c.dropAddr
  | 0x114 => c.fecCorr
  | 0x118 => c.fecUncorr
  | 0x11C => c.ipDrop
  | _ => if 0x140 ≤ x ∧ x < 0x158 then tblGet 0 c.impDrop ((x - 0x140) / 4 + 1) else 0

/-- PRT_HOST_PATH (R312). -/
def hostPathReg (s : State) : Nat := field s.host.standby 2 + field (flag s.host.lostSeen) 1 + s.host.active

/-- The HOST port's registers. PRT_LANES shows the eight lanes of the active path. -/
def readHostPort (s : State) (x : Nat) : Nat :=
  match x with
  | 0x010 => hostPathReg s
  | 0x120 => if s.host.down then 0 else 0xFF
  | _ => readCounters s.host.ctr x

/-- PRT_LANES of a peer port (R347, R463): no lane of a link that is down or in training is locked; a replaced lane is not, nor a
failed lane 8. -/
def peerLanes (q : PeerPort) : Nat :=
  if q.state < 2 then 0
  else 0x1FF - (if q.spareFor < 8 then 2 ^ q.spareFor else 0) - (if q.spareFailed then 0x100 else 0)

/-- PRT_PEER_STATUS (R353). -/
def peerStatusReg (q : PeerPort) : Nat :=
  field (q.farRank % 256) 24 + field (q.spareFor % 16) 20 + field (flag q.spareFailed) 19 + field (flag q.lostSeen) 15 +
  q.state % 16

/-- A peer port's registers (R353, R463). -/
def readPeerPort (s : State) (n x : Nat) : Nat :=
  let q := peerPortOf s n
  match x with
  | 0x000 => peerStatusReg q
  | 0x120 => peerLanes q
  | _ => readCounters q.ctr x

/-- PRT_WIN registers (R355). -/
def readWindow (x : Window) (reg : Nat) : Nat :=
  match reg with
  | 0 => field x.kind 29 + field x.etype 16 + x.job
  | 1 => x.vaPage
  | 2 => x.pages
  | 3 => x.dest
  | 4 => x.ranksLo
  | 5 => x.ranksHi
  | 6 => x.gen % 2 ^ 32
  | _ => x.ctr

/-- PRT_ROUTE_STAGE (R354). -/
def routeReg (s : State) (d : Nat) : Nat :=
  match tblFind s.peers.stage d with
  | some r => field r.keySlot 8 + field r.alt 4 + r.primary
  | none => 0

/-- The Ports block (R312, R353 to R355, R463), by offset in the block. -/
def readPrt (s : State) (x : Nat) : Nat :=
  let p := s.peers
  if x < 0x800 then readHostPort s x
  else if x < 0x2800 then readPeerPort s (x / 0x800 - 1) (x % 0x800)
  else if x = 0x2800 then field (p.rank % 256) 24 + field (p.size % 256) 16 + field (p.gen % 256) 8 + field (flag p.ready) 1
  else if x = 0x2804 then field (p.newRank % 256) 24 + field (p.newSize % 256) 16 + field (p.newGen % 256) 8
  else if 0x2900 ≤ x ∧ x < 0x2A00 then routeReg s ((x - 0x2900) / 4)
  else if 0x3000 ≤ x ∧ x < 0x3200 then readWindow (getWin s ((x - 0x3000) / 0x20)) (x % 0x20 / 4)
  else 0

/-- The Reins block (R280, R464), by offset in the block. -/
def readRn (s : State) (x : Nat) : Nat :=
  let c := getCtr s s.reins.ctrSel
  let b := getBar s s.reins.barSel
  match x with
  | 0x00 => bitMap s.reins.inVote
  | 0x04 => tblGet 0 s.reins.planeErr 0
  | 0x08 => tblGet 0 s.reins.planeErr 1
  | 0x0C => tblGet 0 s.reins.planeErr 2
  | 0x10 => s.reins.ctrSel
  | 0x14 => c.value.toNat
  | 0x18 => c.epoch % 256
  | 0x20 => s.reins.barSel
  | 0x24 => field (b.gen % 256) 24 + b.arrivals.length
  | 0x28 => b.parties
  | _ => 0

/-- PDK_Q_COUNT (R300): the marker counts as one item of one cell. A count too large for its field reads as all ones. -/
def queueCountReg (s : State) (pool queue : Nat) : Nat :=
  let l := pdkItems s pool queue
  field (min 0xFFFF (sumNat (l.map fun i => if i.marker then 1 else i.cells))) 16 + min 0xFFFF l.length

/-- The Paddock block (R300, R301, R464), by offset in the block. -/
def readPdk (s : State) (x : Nat) : Nat :=
  if x < 0x5000 then queueCountReg s (x / 0x1000) (x % 0x1000 / 4)
  else if 0xF100 ≤ x ∧ x < 0xF114 then tblGet 0 s.pdk.ce ((x - 0xF100) / 4)
  else if 0xF120 ≤ x ∧ x < 0xF134 then poolFree s ((x - 0xF120) / 4)
  else 0

/-- PWR_GROUP (R395). -/
def groupReg (s : State) (g : Nat) : Nat :=
  let x := getGroup s g
  field (flag (x.droop || x.thermal)) 2 + field (flag (x.step == s.pwr.step)) 1 + flag x.pllOn

/-- The Power block (R395, R465), by offset in the block. -/
def readPwr (s : State) (x : Nat) : Nat :=
  let p := s.pwr
  match x with
  | 0x00 => p.cap
  | 0x04 => p.inputW
  | 0x08 => field (flag (p.target != p.step)) 8 + field (p.target % 8) 4 + p.step % 8
  | 0x0C => p.capOver
  | 0x10 => field (min 0xFFFF (p.supplyMv / 10)) 16 + p.currentDa % 65536
  | _ =>
    if 0x100 ≤ x ∧ x < 0x180 then groupReg s ((x - 0x100) / 4)
    else if 0x200 ≤ x ∧ x < 0x280 then
      cap32 ((getGroup s ((x - 0x200) / 4)).stretchCyc + stretchDue s ((x - 0x200) / 4))
    else if 0x300 ≤ x ∧ x < 0x324 then
      field (tblGet 0 p.peak ((x - 0x300) / 4) % 256) 8 + tblGet 0 p.temp ((x - 0x300) / 4) % 256
    else 0

/-- FLT_SPARE_MAP (R428). -/
def spareMapReg (s : State) : Nat := bitMap ((List.range 32).filter fun g => (findSpare s g).isSome)

/-- The Faults and events block (R428, R466), by offset in the block. -/
def readFlt (s : State) (x : Nat) : Nat :=
  match x with
  | 0x000 => s.flt.logHead
  | 0x100 => guaranteeReg s
  | 0x104 => s.flt.staleDrop
  | 0x108 => capacityReg s
  | 0x10C => spareMapReg s
  | 0x110 => field (min s.clu.yarrowFails 0xFFFF) 16 + flag s.clu.yarrowOn
  | 0x124 => field (flag (!s.disp.disables.isEmpty)) 24 + s.disp.disableOff
  | _ =>
    if 0x8000 ≤ x then wordAt (tblGet [] s.flt.log ((x - 0x8000) / 0x40)) (x % 0x40 / 4) else 0

/-- The Security block (R439), by offset in the block. -/
def readSec (s : State) (x : Nat) : Nat :=
  let i := x % 0x40 / 4
  match x / 0x40 with
  | 0 => wordAt Config.romMeasurement i
  | 1 => wordAt s.ctl.fwMeasure i
  | 2 => wordAt (flashMeasure s) i
  | 3 => wordAt (cfgBytes s 64 64) i
  | 4 => wordAt (s.sec.meterFw.getD []) i
  | 5 => wordAt (idDigest s.flash.certs) i
  | 6 => wordAt (meterDigest s) i
  | 7 => wordAt (s.ctl.staged.getD []) i
  | _ =>
    match x with
    | 0x200 => field s.sec.attests 16 + field (flag s.sec.meterFw.isSome) 3 + field (flag s.sec.bundleOk) 2 +
        field (flag s.sec.keysOk) 1 + flag (cfgDevMode s)
    | 0x204 => field (ownerNumber s) 8 + s.host.sessions.length % 128
    | _ => 0

/-- The Meter relay block (R453), by offset in the block. -/
def readMtr (s : State) (x : Nat) : Nat :=
  let r (i : Nat) : Nat := nth 0 s.meter.relay i
  match x with
  | 0x00 => field (min 0xFFFF (r 0)) 16 + field (flag s.meter.timeSuspect) 2 + field (r 1 % 2) 1 + flag s.meter.linkOk
  | 0x04 => r 2 % 2 ^ 32
  | 0x08 => r 3 % 2 ^ 32
  | 0x0C => r 4 % 2 ^ 32
  | 0x10 => r 5 % 4096
  | 0x14 => r 6 % 2 ^ 32
  | 0x18 => r 6 / 2 ^ 32 % 2 ^ 32
  | 0x1C => field (s.meter.voltCv % 65536) 16 + s.meter.watt % 65536
  | _ => 0

/-- The Debug block (R467), by offset in the block. -/
def readDbg (s : State) (x : Nat) : Nat :=
  match x with
  | 0x00 => s.clu.trace
  | 0x14 => field s.clu.yarrowReq 10 + s.clu.yarrowResult
  | _ => 0

/-- Whether an offset lies in a block that is present (R332, R455). -/
def offValid (s : State) (off : Nat) : Bool :=
  decide (off < 0x0B3100) || (decide (0x0F0000 ≤ off) && decide (off < 0x100000) && cfgDevMode s)

/-- A register's value (R8, R455): reserved registers and write-only fields read as 0. -/
def readReg (s : State) (off : Nat) : Nat :=
  if off < 0x001000 then readId s off
  else if off < 0x010000 then readMod s off
  else if off < 0x020000 then readClu s (off - 0x010000)
  else if off < 0x030000 then readHbm s (off - 0x020000)
  else if off < 0x040000 then readPrt s (off - 0x030000)
  else if off < 0x050000 then readRn s (off - 0x040000)
  else if off < 0x060000 then readPdk s (off - 0x050000)
  else if off < 0x070000 then readPwr s (off - 0x060000)
  else if off < 0x080000 then readFlt s (off - 0x070000)
  else if off < 0x090000 then readSec s (off - 0x080000)
  else if off < 0x0A0000 then readMtr s (off - 0x090000)
  else if off < 0x0B3100 then cfgField s (off - 0x0A0000) 4
  else if 0x0F0000 ≤ off ∧ off < 0x100000 ∧ cfgDevMode s then readDbg s (off - 0x0F0000)
  else 0

/-! ## Writing -/

/-- The session, generation and sequence of the MGMT_WRITE that a write belongs to, or none. -/
abbrev Who := Option (Nat × Nat × Nat)

/-- Writes to the Module block (R381, R459, R460). -/
def writeMod (s : State) (off v : Nat) (who : Who) : State :=
  let i := s.disp.jobSel
  let j := getSlot s i
  match off with
  | 0x001100 => { s with disp := { s.disp with jobSel := bits v 9 0 } }
  | 0x001104 => if j.valid || j.closing then s else setSlot s i { j with rootLo := field (bits v 31 6) 6 }
  | 0x001108 => if j.valid || j.closing then s else setSlot s i { j with rootHi := bits v 8 0 }
  | 0x00110C => writeJobCtrl s v who
  | 0x001110 => tlbInvalidate s v
  | 0x001200 => { s with ctl := { s.ctl with loadVaLo := v % 2 ^ 32 } }
  | 0x001204 => { s with ctl := { s.ctl with loadVaHi := bits v 15 0 } }
  | 0x001208 => writeLoadCmd s v false
  | _ => s

/-- Writes to a physical cluster's counters (R461). CLU_ACTIVE counts up to now before it is cleared. -/
def writeCluster (s : State) (p r v : Nat) : State :=
  match r with
  | 0x08 => modClu s p fun c => { c with stall := rw1c c.stall v }
  | 0x0C => modClu (tallyActive s p) p fun c => { c with activeCyc := rw1c c.activeCyc v }
  | 0x20 => modClu s p fun c => { c with spdCe := rw1c c.spdCe v }
  | 0x24 => modClu s p fun c => { c with spdUe := rw1c c.spdUe v }
  | 0x2C => modClu s p fun c => { c with mcastMiss := rw1c c.mcastMiss v }
  | _ => s

/-- Writes to a stack's counters (R462). -/
def writeStack (s : State) (k r v : Nat) : State :=
  let clear (l : Tbl Nat) : Tbl Nat := tblMod 0 l k fun x => rw1c x v
  match r with
  | 0x04 => { s with hbm := { s.hbm with ce := clear s.hbm.ce } }
  | 0x08 => { s with hbm := { s.hbm with ue := clear s.hbm.ue } }
  | 0x0C => { s with hbm := { s.hbm with odecc := clear s.hbm.odecc } }
  | _ => s

/-- A port's counters with one cleared (R463). -/
def writeCounters (c : PortCounters) (x v : Nat) : PortCounters :=
  match x with
  | 0x100 => { c with rxFrames := rw1c c.rxFrames v }
  | 0x104 => { c with txFrames := rw1c c.txFrames v }
  | 0x108 => { c with dropFcs := rw1c c.dropFcs v }
  | 0x10C => { c with dropLen := rw1c c.dropLen v }
  | 0x110 => { c with dropAddr := rw1c c.dropAddr v }
  | 0x114 => { c with fecCorr := rw1c c.fecCorr v }
  | 0x118 => { c with fecUncorr := rw1c c.fecUncorr v }
  | 0x11C => { c with ipDrop := rw1c c.ipDrop v }
  | _ =>
    if 0x140 ≤ x ∧ x < 0x158 then { c with impDrop := tblMod 0 c.impDrop ((x - 0x140) / 4 + 1) fun n => rw1c n v } else c

/-- Writes to the Ports block (R312, R353 to R356, R364, R463). -/
def writePrt (s : State) (x v : Nat) (who : Who) : State :=
  let p := s.peers
  if x < 0x800 then
    (if x = 0x010 then writeHostPath s v else modHost s fun h => { h with ctr := writeCounters h.ctr x v })
  else if x < 0x2800 then
    modPeerPort s (x / 0x800 - 1) fun q =>
      if x % 0x800 = 0 then { q with lostSeen := q.lostSeen && !bit v 15 }
      else { q with ctr := writeCounters q.ctr (x % 0x800) v }
  else if x = 0x2800 then (if bit v 0 then disable s .group 0x032800 who else s)
  else if x = 0x2804 then
    { s with peers := { p with newRank := bits v 31 24, newSize := bits v 23 16, newGen := bits v 15 8 } }
  else if 0x2900 ≤ x ∧ x < 0x2A00 then
    let r : Route := { primary := bits v 3 0, alt := bits v 7 4, keySlot := bits v 13 8 }
    { s with peers := { p with stage := tblSet p.stage ((x - 0x2900) / 4) r } }
  else if 0x3000 ≤ x ∧ x < 0x3200 then
    disable s (.window ((x - 0x3000) / 0x20) (x % 0x20 / 4) (v % 2 ^ 32)) (0x030000 + x) who
  else s

/-- Writes to the Reins block (R280, R464). -/
def writeRn (s : State) (x v : Nat) : State :=
  let plane (p : Nat) : State := modReins s fun r => { r with planeErr := tblMod 0 r.planeErr p fun n => rw1c n v }
  match x with
  | 0x04 => plane 0
  | 0x08 => plane 1
  | 0x0C => plane 2
  | 0x10 => modReins s fun r => { r with ctrSel := bits v 15 0 }
  | 0x1C => resetCtr s (v % 2 ^ 32)
  | 0x20 => modReins s fun r => { r with barSel := bits v 11 0 }
  | _ => s

/-- Writes to the Paddock block (R301, R464). -/
def writePdk (s : State) (x v : Nat) : State :=
  if x = 0xF000 then flushQueue s v
  else if 0xF100 ≤ x ∧ x < 0xF114 then
    { s with pdk := { s.pdk with ce := tblMod 0 s.pdk.ce ((x - 0xF100) / 4) fun n => rw1c n v } }
  else s

/-- PWR_STRETCH_CYC cleared (R395, R456): the cycles of a thermal stretch under way count up to now first. -/
def writeStretch (s : State) (g v : Nat) : State :=
  let n := stretchDue s g
  modGroup s g fun x =>
    { x with stretchCyc := rw1c (cap32 (x.stretchCyc + n)) v, thermalSince := if x.thermal then now s else x.thermalSince }

/-- Writes to the Power block (R395). -/
def writePwr (s : State) (x v : Nat) : State :=
  if x = 0 then writeCap s v
  else if x = 0x0C then { s with pwr := { s.pwr with capOver := rw1c s.pwr.capOver v } }
  else if 0x200 ≤ x ∧ x < 0x280 then writeStretch s ((x - 0x200) / 4) v
  else s

/-- Writes to the Faults and events block (R426, R428). -/
def writeFlt (s : State) (x v : Nat) (who : Who) : State :=
  match x with
  | 0x104 => { s with flt := { s.flt with staleDrop := rw1c s.flt.staleDrop v } }
  | 0x110 => { s with clu := { s.clu with yarrowOn := bit v 0 } }
  | 0x120 => writeCluCmd s v who
  | _ => s

/-- Writes to the Debug block (R467). -/
def writeDbg (s : State) (x v : Nat) : State :=
  match x with
  | 0x00 => { s with clu := { s.clu with trace := bits v 7 0 } }
  | 0x10 => writeYarrow s v
  | _ => s

/-- A register written (R8, R9, R455, R457): writes to read-only and reserved fields have no effect. -/
def writeReg (s : State) (off v : Nat) (who : Who) : State :=
  if off < 0x001000 then s
  else if off < 0x010000 then writeMod s off v who
  else if off < 0x020000 then
    (if off - 0x010000 < 0x40 * 544 then writeCluster s ((off - 0x010000) / 0x40) (off % 0x40) v else s)
  else if off < 0x030000 then
    (if off - 0x020000 < 0x400 * 20 then writeStack s ((off - 0x020000) / 0x400) (off % 0x400) v else s)
  else if off < 0x040000 then writePrt s (off - 0x030000) v who
  else if off < 0x050000 then writeRn s (off - 0x040000) v
  else if off < 0x060000 then writePdk s (off - 0x050000) v
  else if off < 0x070000 then writePwr s (off - 0x060000) v
  else if off < 0x080000 then writeFlt s (off - 0x070000) v who
  else if 0x0F0000 ≤ off ∧ off < 0x100000 ∧ cfgDevMode s then writeDbg s (off - 0x0F0000) v
  else s

/-- REGISTER_WRITE (R8, R455): a write of the owner or of the monitor reaching a register. -/
def execRegisterWrite (t off v : Nat) (s : State) : Host.Outcome State Fault Refusal :=
  let s := atMt s t
  if isReady s && offValid s off && decide (off % 4 = 0) then .next (writeReg s off v none) else .next s

/-! ## MGMT_READ and MGMT_WRITE (R332, R340, R456, R457) -/

/-- The byte offset of the first bad field of a management body with the given total length, or none (R332, R334). -/
def mgmtBad (body : List Byte) (len : Nat) : Option Nat :=
  if body.length ≠ len then some 0
  else if leAt body 0 4 % 4 ≠ 0 then some 0
  else if leAt body 3 1 ≠ 0 then some 3
  else if leAt body 4 2 = 0 ∨ 256 < leAt body 4 2 then some 4
  else if leAt body 6 2 ≠ 0 then some 6
  else none

/-- The first offset of a range that no present block holds (R332). -/
def firstInvalid (s : State) (off count : Nat) : Option Nat :=
  ((numsFrom 0 count).map fun i => off + 4 * i).find? fun x => !offValid s x

/-- What a MGMT_READ does (R332, R456). -/
def actMgmtRead (seq : Nat) (s : State) (se : Session) (body : List Byte) : State :=
  match mgmtBad body 12 with
  | some x => sendNack s se.num seq 0x30 2 x
  | none =>
    let off := leAt body 0 3
    let n := leAt body 4 2
    match firstInvalid s off n with
    | some x => sendNack s se.num seq 0x30 0x0A x
    | none =>
      sendSeq s .host se.num 0x32
        (leBytes 4 off ++ leBytes 2 n ++ leBytes 2 0 ++ leBytes 4 (leAt body 8 4) ++ leBytes 4 0 ++ leBytes 8 (now s) ++
          ((numsFrom 0 n).map fun i => leBytes 4 (readReg s (off + 4 * i))).flatten) false none

/-- MGMT_READ (R332). -/
def execMgmtRead (t : Nat) (d : Datagram) (s : State) : Host.Outcome State Fault Refusal :=
  .next (hostMessage (atMt s t) d 0x30 (actMgmtRead d.seq))

/-- What a MGMT_WRITE does (R332, R336, R425, R457): its registers in rising order; one whose disabling write waits is
reported received only when that write takes effect. -/
def actMgmtWrite (seq : Nat) (s : State) (se : Session) (body : List Byte) : State :=
  let done (s : State) : State := lateLanded s .host se.num se.gen seq
  if !isOwner s se.num se.gen then done (sendNack s se.num seq 0x31 1 0)
  else
    match mgmtBad body (8 + 4 * leAt body 4 2) with
    | some x => done (sendNack s se.num seq 0x31 2 x)
    | none =>
      let off := leAt body 0 3
      let n := leAt body 4 2
      match firstInvalid s off n with
      | some x => done (sendNack s se.num seq 0x31 0x0A x)
      | none =>
        let who : Who := some (se.num, se.gen, seq)
        let s := (numsFrom 0 n).foldl (fun s i => writeReg s (off + 4 * i) (leAt body (8 + 4 * i) 4) who) s
        disableAck s who

/-- MGMT_WRITE (R332). -/
def execMgmtWrite (t : Nat) (d : Datagram) (s : State) : Host.Outcome State Fault Refusal :=
  match receive (atMt s t) .host d 0x31 true true with
  | (s, .drop) => .next s
  | (s, .act se body) => .next (actMgmtWrite d.seq s se body)

/-! ## Attestation (R438) -/

/-- A 64-byte measurement in its place of a report. -/
def measure64 (l : List Byte) : List Byte := l.take 64 ++ List.replicate (64 - min 64 l.length) 0

/-- FLAGS of a report (R438). -/
def attestFlags (s : State) : Nat :=
  flag (cfgDevMode s) + field (flag (s.disp.units.any (boundToOld s))) 1 + field (flag s.ctl.cfgFallback) 2 +
  field (flag s.ctl.degraded) 3 + field (flag s.flash.imageValid) 4

/-- The 640-byte report (R438). -/
def attestReport (s : State) (se : Session) (body : List Byte) : List Byte :=
  leBytes 4 0x54525441 ++ leBytes 4 (leAt body 32 4) ++ leBytes 8 (now s) ++ body.take 32 ++ serialBytes s ++ leBytes 1 1 ++
  leBytes 1 (stateCode s.ctl.modState) ++ leBytes 1 (attestFlags s) ++ leBytes 1 se.key ++ leBytes 4 se.gen ++
  leBytes 4 s.ctl.fwVersion ++ leBytes 4 (imgVersion s.flash.image) ++ leBytes 4 (cfgField s 8 4) ++ leBytes 4 (cfgFwFloor s) ++
  leBytes 4 (guaranteeReg s) ++ leBytes 4 (nth 0 s.meter.relay 0) ++ measure64 Config.romMeasurement ++
  measure64 s.ctl.fwMeasure ++ measure64 (flashMeasure s) ++ measure64 (cfgBytes s 64 64) ++
  measure64 (s.sec.meterFw.getD []) ++ measure64 (idDigest s.flash.certs) ++ measure64 (meterDigest s) ++
  measure64 (s.ctl.staged.getD []) ++ List.replicate 32 0

/-- What an ATTEST does (R438): the report, signed by the identity key. -/
def actAttest (rnd : List Byte) (seq : Nat) (s : State) (se : Session) (body : List Byte) : State :=
  if body.length ≠ 40 then sendNack s se.num seq 0x58 2 0
  else if leAt body 36 4 ≠ 0 then sendNack s se.num seq 0x58 2 36
  else
    let r := attestReport s se body
    let s := { s with sec := { s.sec with attests := min 0xFFFF (s.sec.attests + 1) } }
    sendSeq s .host se.num 0x59 (r ++ Config.mlDsaSign s.sec.idSeed r "AS2-ATTEST" rnd) false none

/-- ATTEST (R438). -/
def execAttest (t : Nat) (d : Datagram) (rnd : List Byte) (s : State) : Host.Outcome State Fault Refusal :=
  .next (hostMessage (atMt s t) d 0x58 (actAttest rnd d.seq))

end Sys2Proof.Machine
end

