-- ==== Sys2Proof/Machine/KyendCmds.lean ====
section
/-! DEFINITION. The Kyend monitor (15 R472 to R476): its line editor and its commands. Field names that R474 does not spell are
the model's (log 30). -/

namespace Sys2Proof.Machine

/-! ## Numbers as the monitor prints and reads them (00 R5, 15 R473) -/

/-- A hexadecimal digit. -/
def hexDigit (n : Nat) : Char := Char.ofNat (if n < 10 then 48 + n else 55 + n)

/-- Hexadecimal digits, most significant first, with an underscore every four from the right (R5). -/
def hexChars : Nat → Nat → List Char
  | 0, _ => []
  | k + 1, v =>
    let d := hexDigit (v / 16 ^ k % 16)
    if k % 4 = 0 ∧ k ≠ 0 then d :: '_' :: hexChars k v else d :: hexChars k v

/-- A number of k hexadecimal digits (R5). -/
def hexText (k v : Nat) : String := "0x" ++ String.ofList (hexChars k v)

/-- A number in decimal. -/
def decText (n : Nat) : String := toString n

/-- A Bool as 0 or 1. -/
def flagText (b : Bool) : String := if b then "1" else "0"

/-- The value of a hexadecimal digit's character. -/
def hexValue (c : Nat) : Option Nat :=
  if 48 ≤ c ∧ c ≤ 57 then some (c - 48)
  else if 65 ≤ c ∧ c ≤ 70 then some (c - 55)
  else if 97 ≤ c ∧ c ≤ 102 then some (c - 87)
  else none

/-- Digits in a base, read from the left. -/
def readDigits (base : Nat) : Nat → List Nat → Option Nat
  | v, [] => some v
  | v, c :: rest =>
    match hexValue c with
    | some d => if d < base then readDigits base (v * base + d) rest else none
    | none => none

/-- A number as typed (R473): decimal, or hexadecimal with the prefix 0x, in which underscores are ignored. -/
def readNumber (w : List Nat) : Option Nat :=
  match w with
  | 48 :: 120 :: rest =>
    let l := rest.filter fun c => c != 95
    if l.isEmpty then none else readDigits 16 0 l
  | [] => none
  | l => readDigits 10 0 l

/-- The words of a line (R473). -/
def splitWords (l : List Nat) : List (List Nat) :=
  (l.foldr (fun c acc =>
    if c = 32 then [] :: acc
    else match acc with
      | [] => [[c]]
      | w :: rest => (c :: w) :: rest) [[]]).filter fun w => !w.isEmpty

/-- The character codes of a word. -/
def codes (w : String) : List Nat := w.toList.map Char.toNat

/-! ## Commands -/

/-- Outside READY and STARTING from step 5 on, only the AO domain runs (R475). -/
def aoOnly (s : State) : Bool := !(isReady s || (s.ctl.modState == .starting && s.ctl.powered && decide (5 ≤ s.ctl.step)))

/-- A failed command (R473). -/
def monError (s : State) (why : String) : State := kyendPrompt (kyendSay s ["error: " ++ why])

/-- A command's lines, then the prompt. -/
def monPrint (s : State) (l : List String) : State := kyendPrompt (kyendSay s l)

/-- A command that needs more than the AO domain (R475). -/
def monFull (s : State) (l : List String) : State := if aoOnly s then monError s "not available" else monPrint s l

/-- A command of development mode (R474, R475). -/
def monDev (s : State) (f : State → State) : State :=
  if aoOnly s then monError s "not available" else if !cfgDevMode s then monError s "development mode only" else f s

/-- The commands available now (R474, R475). -/
def helpLines (s : State) : List String :=
  if aoOnly s then ["help", "id", "state", "temps", "power", "log [n]"]
  else
    ["help", "id", "state", "clusters", "clusters G<g>", "hbm", "ports", "temps", "power", "time", "owner", "log [n]", "meter",
     "peek <offset> [count]"] ++
    (if cfgDevMode s then ["poke <offset> <value>", "trace [mask]", "yarrow <n>"] else [])

/-- `help`. -/
def monHelp (s : State) : State := monPrint s (helpLines s)

/-- A version as major.minor.patch (R381). -/
def versionText (v : Nat) : String :=
  decText (bits v 31 24) ++ "." ++ decText (bits v 23 16) ++ "." ++ decText (bits v 15 0)

/-- The serial number, byte 0 first. -/
def serialText (s : State) : String := hexText 32 (leNat (serialBytes s).reverse)

/-- `id`. -/
def monId (s : State) : State :=
  monPrint s ["part=AS2-1600-LQ stepping=B0 fw=" ++ (if aoOnly s then "unknown" else versionText s.ctl.fwVersion) ++
    " serial=" ++ serialText s]

/-- The name of a module state (R378). -/
def stateText : ModState → String
  | .starting => "STARTING"
  | .ready => "READY"
  | .haltedConfig => "HALTED_CONFIG"
  | .haltedFirmware => "HALTED_FIRMWARE"
  | .haltedHardware => "HALTED_HARDWARE"

/-- The owner's session number, or vacant. -/
def ownerText (s : State) : String := if ownerNumber s = 0xFF then "vacant" else decText (ownerNumber s)

/-- `state`. -/
def monState (s : State) : State :=
  monPrint s ["state=" ++ stateText s.ctl.modState ++ " step=" ++ decText s.ctl.step ++ " degraded=" ++ flagText s.ctl.degraded ++
    " cfg_fallback=" ++ flagText s.ctl.cfgFallback ++ " guarantee=" ++
    (if guaranteeReg s = 1 then "held" else hexText 8 (guaranteeReg s)) ++ " owner=" ++ ownerText s ++
    " sessions=" ++ decText s.host.sessions.length]

/-- Physical clusters of some roles. -/
def roleCount (s : State) (l : List Role) : Nat := ((List.range 544).filter fun p => l.contains (getClu s p).role).length

/-- `clusters`. -/
def monClusters (s : State) : State :=
  monFull s ["serving=" ++ decText (512 - absentCount s - unservedCount s) ++ " spares=" ++ decText (roleCount s [.spare]) ++
    " failed=" ++ decText (roleCount s [.failedRetest, .failed, .retired]) ++ " absent=" ++ decText (absentCount s) ++
    " unserved=" ++ decText (unservedCount s)]

/-- The name of a role (R461). -/
def roleText : Role → String
  | .serving => "serving"
  | .spare => "spare"
  | .failedRetest => "failed_retest"
  | .failed => "failed"
  | .retired => "retired"

/-- The name of a power state (R385). -/
def powerText : PowerState → String
  | .active => "ACTIVE"
  | .gated => "GATED"
  | .asleep => "ASLEEP"
  | .off => "OFF"

/-- One line of `clusters G<g>`. -/
def clusterLine (s : State) (p : Nat) : String :=
  let c := getClu s p
  let l := match c.role, logicalOf s p with
    | .serving, some l => "L" ++ decText l
    | _, _ => "-"
  "cluster=P" ++ decText p ++ " logical=" ++ l ++ " role=" ++ roleText c.role ++ " power=" ++ powerText c.power ++
    " last_mech=" ++ hexText 2 c.lastMech

/-- `clusters G<g>`. -/
def monClustersGroup (s : State) (g : Nat) : State :=
  if 32 ≤ g && !aoOnly s then monError s "bad argument" else monFull s ((numsFrom (17 * g) 17).map (clusterLine s))

/-- One line of `hbm`. -/
def stackLine (s : State) (k : Nat) : String :=
  let v := readStack s k 0
  "stack=" ++ decText k ++ " state=" ++ decText (bits v 17 16) ++ " lost_pc=" ++ decText (bits v 15 8) ++ " temp=" ++
    decText (bits v 7 0) ++ " ce=" ++ decText (readStack s k 4) ++ " ue=" ++ decText (readStack s k 8)

/-- `hbm`. -/
def monHbm (s : State) : State :=
  monFull s ((List.range 20).map (stackLine s) ++
    ["guard=" ++ (if cfgSingleGuard s then "single" else "full") ++ " pool_free=" ++ decText (poolFrames s) ++ " rebuild=" ++
      decText s.hbm.rebuildProgress])

/-- The FEC counters of a port. -/
def fecText (c : PortCounters) : String := " fec_corr=" ++ decText c.fecCorr ++ " fec_uncorr=" ++ decText c.fecUncorr

/-- The line of a peer port. -/
def peerLine (s : State) (n : Nat) : String :=
  let q := peerPortOf s n
  "port=PEER" ++ decText n ++ " state=" ++ decText q.state ++ " far_rank=" ++ (if q.farRank = 0xFF then "-" else decText q.farRank) ++
    " spare_for=" ++ (if q.spareFor = 0xF then "-" else decText q.spareFor) ++ " spare_failed=" ++ flagText q.spareFailed ++ fecText q.ctr

/-- `ports`. -/
def monPorts (s : State) : State :=
  monFull s (["port=HOST state=" ++ (if s.host.down then "down" else "up") ++ " path=" ++ (if s.host.active = 0 then "A" else "B") ++
    " standby=" ++ decText s.host.standby ++ fecText s.host.ctr] ++ (List.range 4).map (peerLine s))

/-- The name of a die index (R465). -/
def dieText (d : Nat) : String := if d < 4 then "C" ++ decText d else if d < 8 then "M" ++ decText (d - 4) else "X"

/-- `temps`. -/
def monTemps (s : State) : State :=
  monPrint s ((List.range 9).map (fun d => "die=" ++ dieText d ++ " temp=" ++ decText (tblGet 0 s.pwr.temp d) ++ " peak=" ++
      decText (tblGet 0 s.pwr.peak d)) ++
    (List.range 20).map fun k => "stack=" ++ decText k ++ " temp=" ++ decText (tblGet 0 s.hbm.temp k))

/-- A number of hundredths with two digits after the point. -/
def centiText (n : Nat) : String := decText (n / 100) ++ "." ++ decText (n / 10 % 10) ++ decText (n % 10)

/-- `power`. -/
def monPower (s : State) : State :=
  monPrint s ["input=" ++ decText s.pwr.inputW ++ " cap=" ++ decText s.pwr.cap ++ " step=" ++ decText s.pwr.step ++ " pending=" ++
    flagText (s.pwr.target != s.pwr.step) ++ " supply_v=" ++ centiText (s.pwr.supplyMv / 10) ++ " supply_a=" ++
    decText (s.pwr.currentDa / 10) ++ "." ++ decText (s.pwr.currentDa % 10)]

/-- `time`. -/
def monTime (s : State) : State :=
  monFull s ["mt=" ++ hexText 16 (now s) ++ " ptp=" ++
    (if s.clock.ptp = 1 then "locked" else if s.clock.ptp = 2 then "holdover" else "unlocked")]

/-- `owner`. -/
def monOwner (s : State) : State :=
  monFull s (match s.host.owner with
    | some (n, g) =>
      if isOwner s n g then
        let key := match findSess s .host n with
          | some se => decText se.key
          | none => "-"
        ["owner=" ++ decText n ++ " key=" ++ key ++ " lease_end=" ++ decText s.host.leaseEnd]
      else ["owner=vacant"]
    | none => ["owner=vacant"])

/-- One line of `log`. -/
def logLine (s : State) (r : Nat) : String :=
  let c := tblGet [] s.flt.log (r % 512)
  "record=" ++ decText r ++ " mt_cause=" ++ decText (leAt c 8 8) ++ " code=" ++ hexText 4 (leAt c 0 2) ++ " mech=" ++
    hexText 2 (leAt c 2 1) ++ " resource=" ++ hexText 8 (leAt c 4 4)

/-- `log [n]`: in a halted state, the halt record (R475). -/
def monLog (s : State) (n : Nat) : State :=
  if n = 0 ∨ 512 < n then monError s "bad argument"
  else
    match s.ctl.modState, s.ctl.halt with
    | .starting, _ | .ready, _ | _, none =>
      let k := min n (min s.flt.logHead 512)
      monPrint s ((numsFrom (s.flt.logHead - k) k).map (logLine s))
    | _, some (step, why) => monPrint s ["step=" ++ decText step ++ " check=" ++ why]

/-- `meter`. -/
def monMeter (s : State) : State :=
  let r (x : Nat) : Nat := readMtr s x
  monFull s ["service_count=" ++ decText (bits (r 0) 31 16) ++ " time_suspect=" ++ decText (bits (r 0) 2 2) ++ " storage_full=" ++
    decText (bits (r 0) 1 1) ++ " link_ok=" ++ decText (bits (r 0) 0 0) ++ " last_rec=" ++ decText (r 4) ++ " oldest=" ++
    decText (r 8) ++ " free_kib=" ++ decText (r 0xC) ++ " interval_s=" ++ decText (r 0x10) ++ " energy_mj=" ++
    decText (r 0x14 + 2 ^ 32 * r 0x18) ++ " volt_cv=" ++ decText (bits (r 0x1C) 31 16) ++ " watt=" ++ decText (bits (r 0x1C) 15 0)]

/-- One register as `peek` and `poke` print it. -/
def regLine (s : State) (off : Nat) : String := hexText 6 off ++ ": " ++ hexText 8 (readReg s off)

/-- `peek <offset> [count]`. -/
def monPeek (s : State) (off n : Nat) : State :=
  if aoOnly s then monError s "not available"
  else if n = 0 ∨ 64 < n ∨ off % 4 ≠ 0 ∨ (firstInvalid s off n).isSome then monError s "bad argument"
  else monPrint s ((numsFrom 0 n).map fun i => regLine s (off + 4 * i))

/-- `poke <offset> <value>` (R476): only the Debug block. -/
def monPoke (s : State) (off v : Nat) : State :=
  monDev s fun s =>
    if off < 0x0F0000 ∨ 0x100000 ≤ off ∨ off % 4 ≠ 0 ∨ 2 ^ 32 ≤ v then monError s "bad argument"
    else
      let s := writeReg s off v none
      monPrint s [regLine s off]

/-- `trace [mask]`. -/
def monTrace (s : State) (mask : Option Nat) : State :=
  monDev s fun s =>
    match mask with
    | none => monPrint s ["enable=" ++ hexText 2 s.clu.trace]
    | some m =>
      if 256 ≤ m then monError s "bad argument"
      else
        let s := writeReg s 0x0F0000 m none
        monPrint s ["enable=" ++ hexText 2 s.clu.trace]

/-- `yarrow <n>`: the command runs until its visit has ended or is cancelled; while another request is waiting it is not
available (R467). -/
def monYarrow (s : State) (p : Nat) : State :=
  monDev s fun s =>
    if 544 ≤ p then monError s "bad argument"
    else if s.clu.yarrowResult = 1 then monError s "not available"
    else
      let s := writeReg s 0x0F0010 (2 ^ 31 + p) none
      { s with kyend := { s.kyend with busy := some p } }

/-- One command at a time (R473): while one runs, nothing else is taken. -/
def monTake (s : State) (f : State → State) : State := if s.kyend.busy.isSome then s else f s

/-! ## Lines -/

/-- The group number of a word G<g>. -/
def groupWord (w : List Nat) : Option Nat :=
  match w with
  | 71 :: rest => readNumber rest
  | _ => none

/-- A command with number arguments that were not read. -/
def badArgument (s : State) : State := monError s "bad argument"

/-- A line's command and words run (R473, R474). -/
def runCommand (s : State) (cmd : List Nat) (args : List (List Nat)) : State :=
  let n (w : List Nat) : Option Nat := readNumber w
  if cmd = codes "help" then (if args.isEmpty then monHelp s else badArgument s)
  else if cmd = codes "id" then (if args.isEmpty then monId s else badArgument s)
  else if cmd = codes "state" then (if args.isEmpty then monState s else badArgument s)
  else if cmd = codes "clusters" then
    (match args with
     | [] => monClusters s
     | [w] => (match groupWord w with | some g => monClustersGroup s g | none => badArgument s)
     | _ => badArgument s)
  else if cmd = codes "hbm" then (if args.isEmpty then monHbm s else badArgument s)
  else if cmd = codes "ports" then (if args.isEmpty then monPorts s else badArgument s)
  else if cmd = codes "temps" then (if args.isEmpty then monTemps s else badArgument s)
  else if cmd = codes "power" then (if args.isEmpty then monPower s else badArgument s)
  else if cmd = codes "time" then (if args.isEmpty then monTime s else badArgument s)
  else if cmd = codes "owner" then (if args.isEmpty then monOwner s else badArgument s)
  else if cmd = codes "log" then
    (match args with
     | [] => monLog s 16
     | [w] => (match n w with | some x => monLog s x | none => badArgument s)
     | _ => badArgument s)
  else if cmd = codes "meter" then (if args.isEmpty then monMeter s else badArgument s)
  else if cmd = codes "peek" then
    (match args with
     | [w] => (match n w with | some x => monPeek s x 1 | none => badArgument s)
     | [w, c] => (match n w, n c with | some x, some y => monPeek s x y | _, _ => badArgument s)
     | _ => badArgument s)
  else if cmd = codes "poke" then
    (match args with
     | [w, c] => (match n w, n c with | some x, some y => monPoke s x y | _, _ => badArgument s)
     | _ => badArgument s)
  else if cmd = codes "trace" then
    (match args with
     | [] => monTrace s none
     | [w] => (match n w with | some x => monTrace s (some x) | none => badArgument s)
     | _ => badArgument s)
  else if cmd = codes "yarrow" then
    (match args with
     | [w] => (match n w with | some x => monYarrow s x | none => badArgument s)
     | _ => badArgument s)
  else monError s "unknown command"

/-- A line at its end (R473). -/
def runLine (s : State) (l : List Nat) : State :=
  match splitWords l with
  | [] => kyendPrompt s
  | w :: args => runCommand s w args

/-- A received character (R473): echoed; CR and LF end the line, BS and DEL erase, a character beyond 128 is discarded. -/
def takeCharacter (s : State) (c : Nat) : State :=
  let s := kyendSay s [String.ofList [Char.ofNat c]]
  let k := s.kyend
  if c = 13 ∨ c = 10 then runLine { s with kyend := { k with line := [] } } k.line
  else if c = 8 ∨ c = 127 then { s with kyend := { k with line := k.line.dropLast } }
  else if k.line.length < 128 then { s with kyend := { k with line := k.line ++ [c] } }
  else s

/-- KYEND_CHARACTER (R473). -/
def execKyendCharacter (t c : Nat) (s : State) : Host.Outcome State Fault Refusal :=
  .next (monTake (atMt s t) fun s => takeCharacter s c)

/-- KYEND_HELP (R474). -/
def execKyendHelp (t : Nat) (s : State) : Host.Outcome State Fault Refusal := .next (monTake (atMt s t) monHelp)

/-- KYEND_ID (R474). -/
def execKyendId (t : Nat) (s : State) : Host.Outcome State Fault Refusal := .next (monTake (atMt s t) monId)

/-- KYEND_STATE (R474). -/
def execKyendState (t : Nat) (s : State) : Host.Outcome State Fault Refusal := .next (monTake (atMt s t) monState)

/-- KYEND_CLUSTERS (R474). -/
def execKyendClusters (t : Nat) (s : State) : Host.Outcome State Fault Refusal := .next (monTake (atMt s t) monClusters)

/-- KYEND_CLUSTERS_GROUP (R474). -/
def execKyendClustersGroup (t g : Nat) (s : State) : Host.Outcome State Fault Refusal :=
  .next (monTake (atMt s t) fun s => monClustersGroup s g)

/-- KYEND_HBM (R474). -/
def execKyendHbm (t : Nat) (s : State) : Host.Outcome State Fault Refusal := .next (monTake (atMt s t) monHbm)

/-- KYEND_PORTS (R474). -/
def execKyendPorts (t : Nat) (s : State) : Host.Outcome State Fault Refusal := .next (monTake (atMt s t) monPorts)

/-- KYEND_TEMPS (R474). -/
def execKyendTemps (t : Nat) (s : State) : Host.Outcome State Fault Refusal := .next (monTake (atMt s t) monTemps)

/-- KYEND_POWER (R474). -/
def execKyendPower (t : Nat) (s : State) : Host.Outcome State Fault Refusal := .next (monTake (atMt s t) monPower)

/-- KYEND_TIME (R474). -/
def execKyendTime (t : Nat) (s : State) : Host.Outcome State Fault Refusal := .next (monTake (atMt s t) monTime)

/-- KYEND_OWNER (R474). -/
def execKyendOwner (t : Nat) (s : State) : Host.Outcome State Fault Refusal := .next (monTake (atMt s t) monOwner)

/-- KYEND_LOG (R474). -/
def execKyendLog (t n : Nat) (s : State) : Host.Outcome State Fault Refusal :=
  .next (monTake (atMt s t) fun s => monLog s n)

/-- KYEND_METER (R474). -/
def execKyendMeter (t : Nat) (s : State) : Host.Outcome State Fault Refusal := .next (monTake (atMt s t) monMeter)

/-- KYEND_PEEK (R474). -/
def execKyendPeek (t off count : Nat) (s : State) : Host.Outcome State Fault Refusal :=
  .next (monTake (atMt s t) fun s => monPeek s off count)

/-- KYEND_POKE (R474). -/
def execKyendPoke (t off v : Nat) (s : State) : Host.Outcome State Fault Refusal :=
  .next (monTake (atMt s t) fun s => monPoke s off v)

/-- KYEND_TRACE (R474). -/
def execKyendTrace (t : Nat) (mask : Option Nat) (s : State) : Host.Outcome State Fault Refusal :=
  .next (monTake (atMt s t) fun s => monTrace s mask)

/-- KYEND_YARROW (R474). -/
def execKyendYarrow (t p : Nat) (s : State) : Host.Outcome State Fault Refusal :=
  .next (monTake (atMt s t) fun s => monYarrow s p)

end Sys2Proof.Machine
end

