-- ==== Sys2Proof/Machine/Dispatch.lean ====
section
/-! DEFINITION. The dispatch of a command to its meaning: one arm per row of spec/opcode_table.json. -/

namespace Sys2Proof.Machine

def exec (i : Instr) (s : State) : Host.Outcome State Fault Refusal :=
  match i with
  | .startSequence t inp => Sys2Proof.Machine.execStartSequence t inp s
  | .ptpLock t ptp => Sys2Proof.Machine.execPtpLock t ptp s
  | .ptpMessage t offsetNs => Sys2Proof.Machine.execPtpMessage t offsetNs s
  | .ptpLoss t => Sys2Proof.Machine.execPtpLoss t s
  | .ptpRecovery t => Sys2Proof.Machine.execPtpRecovery t s
  | .supplyOutOfRange t mv => Sys2Proof.Machine.execSupplyOutOfRange t mv s
  | .supplyLow t mv => Sys2Proof.Machine.execSupplyLow t mv s
  | .supplyRestored t mv => Sys2Proof.Machine.execSupplyRestored t mv s
  | .referenceClockFail t => Sys2Proof.Machine.execReferenceClockFail t s
  | .hostFrameDiscard t f standby => Sys2Proof.Machine.execHostFrameDiscard t f standby s
  | .arpRequest t target senderIp senderMac => Sys2Proof.Machine.execArpRequest t target senderIp senderMac s
  | .arpReply t ip mac => Sys2Proof.Machine.execArpReply t ip mac s
  | .neighborSolicitation t target senderIp senderMac => Sys2Proof.Machine.execNeighborSolicitation t target senderIp senderMac s
  | .echoRequest t dst src payload => Sys2Proof.Machine.execEchoRequest t dst src payload s
  | .nextHopRefresh t ip => Sys2Proof.Machine.execNextHopRefresh t ip s
  | .keyInitHello t d nonce => Sys2Proof.Machine.execKeyInitHello t d nonce s
  | .keyInitEncap t d => Sys2Proof.Machine.execKeyInitEncap t d s
  | .keyInitClose t d => Sys2Proof.Machine.execKeyInitClose t d s
  | .sessionIdleTimeout t session => Sys2Proof.Machine.execSessionIdleTimeout t session s
  | .claim t d => Sys2Proof.Machine.execClaim t d s
  | .electionClose t => Sys2Proof.Machine.execElectionClose t s
  | .leaseRenew t d => Sys2Proof.Machine.execLeaseRenew t d s
  | .leaseExpiry t => Sys2Proof.Machine.execLeaseExpiry t s
  | .release t d => Sys2Proof.Machine.execRelease t d s
  | .submit t d => Sys2Proof.Machine.execSubmit t d s
  | .abort t d => Sys2Proof.Machine.execAbort t d s
  | .memWrite t d => Sys2Proof.Machine.execMemWrite t d s
  | .memRead t d => Sys2Proof.Machine.execMemRead t d s
  | .mgmtRead t d => Sys2Proof.Machine.execMgmtRead t d s
  | .mgmtWrite t d => Sys2Proof.Machine.execMgmtWrite t d s
  | .registerWrite t off v => Sys2Proof.Machine.execRegisterWrite t off v s
  | .meterRead t d => Sys2Proof.Machine.execMeterRead t d s
  | .attest t d rnd => Sys2Proof.Machine.execAttest t d rnd s
  | .ack t lk d => Sys2Proof.Machine.execAck t lk d s
  | .ping t lk d => Sys2Proof.Machine.execPing t lk d s
  | .retransmitTimeout t lk session seq => Sys2Proof.Machine.execRetransmitTimeout t lk session seq s
  | .messageAbandon t lk session seq => Sys2Proof.Machine.execMessageAbandon t lk session seq s
  | .noticeSend t pool queue => Sys2Proof.Machine.execNoticeSend t pool queue s
  | .hostPathLoss t path => Sys2Proof.Machine.execHostPathLoss t path s
  | .hostPathRetrain t path => Sys2Proof.Machine.execHostPathRetrain t path s
  | .hostPathSwitch t v => Sys2Proof.Machine.execHostPathSwitch t v s
  | .chainChoose t cls => Sys2Proof.Machine.execChainChoose t cls s
  | .layerStart t wu => Sys2Proof.Machine.execLayerStart t wu s
  | .denseMm t wu => Sys2Proof.Machine.execDenseMm t wu s
  | .spmm t wu => Sys2Proof.Machine.execSpmm t wu s
  | .sddmm t wu => Sys2Proof.Machine.execSddmm t wu s
  | .spgemm t wu => Sys2Proof.Machine.execSpgemm t wu s
  | .spadd t wu => Sys2Proof.Machine.execSpadd t wu s
  | .gather t wu => Sys2Proof.Machine.execGather t wu s
  | .scatterAdd t wu => Sys2Proof.Machine.execScatterAdd t wu s
  | .embedBag t wu => Sys2Proof.Machine.execEmbedBag t wu s
  | .route t wu => Sys2Proof.Machine.execRoute t wu s
  | .combine t wu => Sys2Proof.Machine.execCombine t wu s
  | .reduce t wu => Sys2Proof.Machine.execReduce t wu s
  | .topk t wu => Sys2Proof.Machine.execTopk t wu s
  | .rowStats t wu => Sys2Proof.Machine.execRowStats t wu s
  | .convert t wu => Sys2Proof.Machine.execConvert t wu s
  | .transposeCopy t wu => Sys2Proof.Machine.execTransposeCopy t wu s
  | .copy t wu => Sys2Proof.Machine.execCopy t wu s
  | .fill t wu => Sys2Proof.Machine.execFill t wu s
  | .barrier t wu => Sys2Proof.Machine.execBarrier t wu s
  | .signal t wu => Sys2Proof.Machine.execSignal t wu s
  | .wait t wu => Sys2Proof.Machine.execWait t wu s
  | .ticketLoop t wu => Sys2Proof.Machine.execTicketLoop t wu s
  | .preload t wu => Sys2Proof.Machine.execPreload t wu s
  | .releaseBuf t wu => Sys2Proof.Machine.execReleaseBuf t wu s
  | .layerEnd t wu => Sys2Proof.Machine.execLayerEnd t wu s
  | .workCounterAlloc t r => Sys2Proof.Machine.execWorkCounterAlloc t r s
  | .ticketNoticePost t r => Sys2Proof.Machine.execTicketNoticePost t r s
  | .ticketTake t l r => Sys2Proof.Machine.execTicketTake t l r s
  | .passEnd t l spanCycles stallCycles => Sys2Proof.Machine.execPassEnd t l spanCycles stallCycles s
  | .drainDone t l => Sys2Proof.Machine.execDrainDone t l s
  | .residueCheckpoint t l upset => Sys2Proof.Machine.execResidueCheckpoint t l upset s
  | .checksumCheckpoint t l fails => Sys2Proof.Machine.execChecksumCheckpoint t l fails s
  | .treeNode t r tile lo hi => Sys2Proof.Machine.execTreeNode t r tile lo hi s
  | .tileDone t r tile => Sys2Proof.Machine.execTileDone t r tile s
  | .compressCount t r => Sys2Proof.Machine.execCompressCount t r s
  | .compressPlace t r => Sys2Proof.Machine.execCompressPlace t r s
  | .descriptorComplete t r => Sys2Proof.Machine.execDescriptorComplete t r s
  | .layerEndComplete t wu => Sys2Proof.Machine.execLayerEndComplete t wu s
  | .discardDecision t wu => Sys2Proof.Machine.execDiscardDecision t wu s
  | .memberTicketDrop t l wu => Sys2Proof.Machine.execMemberTicketDrop t l wu s
  | .discardRelease t wu => Sys2Proof.Machine.execDiscardRelease t wu s
  | .quarantineEnd t wuId => Sys2Proof.Machine.execQuarantineEnd t wuId s
  | .retiredEntryExpiry t wuId => Sys2Proof.Machine.execRetiredEntryExpiry t wuId s
  | .streamRequestIssue t p => Sys2Proof.Machine.execStreamRequestIssue t p s
  | .streamReadArrival t p tag => Sys2Proof.Machine.execStreamReadArrival t p tag s
  | .ponyTransfer t p write job va spadOff len => Sys2Proof.Machine.execPonyTransfer t p write job va spadOff len s
  | .weightCacheRead t die pa len upset => Sys2Proof.Machine.execWeightCacheRead t die pa len upset s
  | .hbmRead t pa res => Sys2Proof.Machine.execHbmRead t pa res s
  | .parityWrite t row => Sys2Proof.Machine.execParityWrite t row s
  | .multicastSend t sender srcOff len dstOff receivers accepted origin => Sys2Proof.Machine.execMulticastSend t sender srcOff len dstOff receivers accepted origin s
  | .multicastWaitExpiry t receiver => Sys2Proof.Machine.execMulticastWaitExpiry t receiver s
  | .slotAccess t p frame slot a upsets => Sys2Proof.Machine.execSlotAccess t p frame slot a upsets s
  | .farrierWriteBack t p frame => Sys2Proof.Machine.execFarrierWriteBack t p frame s
  | .scrubSweep t p upsets => Sys2Proof.Machine.execScrubSweep t p upsets s
  | .rowMapOut t p bank row => Sys2Proof.Machine.execRowMapOut t p bank row s
  | .repairAppend t => Sys2Proof.Machine.execRepairAppend t s
  | .patrolScrubVisit t pa res => Sys2Proof.Machine.execPatrolScrubVisit t pa res s
  | .pageRetire t unit => Sys2Proof.Machine.execPageRetire t unit s
  | .retirementAppend t => Sys2Proof.Machine.execRetirementAppend t s
  | .pseudoChannelFail t stack pc => Sys2Proof.Machine.execPseudoChannelFail t stack pc s
  | .stackFail t stack => Sys2Proof.Machine.execStackFail t stack s
  | .rebuildComplete t => Sys2Proof.Machine.execRebuildComplete t s
  | .fetchAdd t req ctr addend sent epoch => Sys2Proof.Machine.execFetchAdd t req ctr addend sent epoch s
  | .compareSwap t req ctr expected value sent epoch => Sys2Proof.Machine.execCompareSwap t req ctr expected value sent epoch s
  | .compareWait t req ctr target sent equal epoch => Sys2Proof.Machine.execCompareWait t req ctr target sent equal epoch s
  | .counterRead t req ctr sent epoch => Sys2Proof.Machine.execCounterRead t req ctr sent epoch s
  | .barrierArrival t req bar parties sent => Sys2Proof.Machine.execBarrierArrival t req bar parties sent s
  | .arrivalWithdraw t wu => Sys2Proof.Machine.execArrivalWithdraw t wu s
  | .rnCtrCmd t v => Sys2Proof.Machine.execRnCtrCmd t v s
  | .planeError t receiver plane how => Sys2Proof.Machine.execPlaneError t receiver plane how s
  | .planeResyncDone t plane => Sys2Proof.Machine.execPlaneResyncDone t plane s
  | .paddockPacketWrite t pool queue source wu payload => Sys2Proof.Machine.execPaddockPacketWrite t pool queue source wu payload s
  | .paddockItemRead t pool queue corrected bad => Sys2Proof.Machine.execPaddockItemRead t pool queue corrected bad s
  | .pdkFlush t v => Sys2Proof.Machine.execPdkFlush t v s
  | .heartbeat t who => Sys2Proof.Machine.execHeartbeat t who s
  | .heartbeatTimeout t who => Sys2Proof.Machine.execHeartbeatTimeout t who s
  | .wakeHeartbeatTimeout t p => Sys2Proof.Machine.execWakeHeartbeatTimeout t p s
  | .clusterFailDeclare t p mech => Sys2Proof.Machine.execClusterFailDeclare t p mech s
  | .spareTestDone t g pass badRows => Sys2Proof.Machine.execSpareTestDone t g pass badRows s
  | .retest t p pass badRows => Sys2Proof.Machine.execRetest t p pass badRows s
  | .yarrowVisit t p res => Sys2Proof.Machine.execYarrowVisit t p res s
  | .clusterGate t p => Sys2Proof.Machine.execClusterGate t p s
  | .clusterSleep t p => Sys2Proof.Machine.execClusterSleep t p s
  | .clusterWake t p why => Sys2Proof.Machine.execClusterWake t p why s
  | .groupPllStop t g => Sys2Proof.Machine.execGroupPllStop t g s
  | .powerEvaluation t meanW => Sys2Proof.Machine.execPowerEvaluation t meanW s
  | .groupStepSwitch t g => Sys2Proof.Machine.execGroupStepSwitch t g s
  | .pwrCapWrite t v => Sys2Proof.Machine.execPwrCapWrite t v s
  | .thermalLimit t die tempC => Sys2Proof.Machine.execThermalLimit t die tempC s
  | .thermalRecover t die tempC => Sys2Proof.Machine.execThermalRecover t die tempC s
  | .droopDetect t g stretched inLastMs cyclesInMs => Sys2Proof.Machine.execDroopDetect t g stretched inLastMs cyclesInMs s
  | .regulatorPhaseFail t rail => Sys2Proof.Machine.execRegulatorPhaseFail t rail s
  | .pllLockLoss t pll => Sys2Proof.Machine.execPllLockLoss t pll s
  | .supervisorVoteMismatch t which core => Sys2Proof.Machine.execSupervisorVoteMismatch t which core s
  | .supervisorResyncDone t which => Sys2Proof.Machine.execSupervisorResyncDone t which s
  | .dieSupervisorLoss t die => Sys2Proof.Machine.execDieSupervisorLoss t die s
  | .xUnitMismatch t unit => Sys2Proof.Machine.execXUnitMismatch t unit s
  | .dispatcherRestartDone t => Sys2Proof.Machine.execDispatcherRestartDone t s
  | .nocFlitCrcFail t die link => Sys2Proof.Machine.execNocFlitCrcFail t die link s
  | .dieLaneFail t pair unit lane => Sys2Proof.Machine.execDieLaneFail t pair unit lane s
  | .peerLinkTrain t port pattern => Sys2Proof.Machine.execPeerLinkTrain t port pattern s
  | .peerLaneFail t port lane => Sys2Proof.Machine.execPeerLaneFail t port lane s
  | .peerRetrainDone t port => Sys2Proof.Machine.execPeerRetrainDone t port s
  | .peerLinkLost t port why => Sys2Proof.Machine.execPeerLinkLost t port why s
  | .peerPingTimer t port => Sys2Proof.Machine.execPeerPingTimer t port s
  | .peerKeyInit t port d nonce rnd => Sys2Proof.Machine.execPeerKeyInit t port d nonce rnd s
  | .peerData t port d => Sys2Proof.Machine.execPeerData t port d s
  | .peerNack t port d => Sys2Proof.Machine.execPeerNack t port d s
  | .peerLanded t port d => Sys2Proof.Machine.execPeerLanded t port d s
  | .peerLeaf t port d => Sys2Proof.Machine.execPeerLeaf t port d s
  | .peerResult t port d => Sys2Proof.Machine.execPeerResult t port d s
  | .roundAbort t port d => Sys2Proof.Machine.execRoundAbort t port d s
  | .roundTimeout t window => Sys2Proof.Machine.execRoundTimeout t window s
  | .peerForward t port d => Sys2Proof.Machine.execPeerForward t port d s
  | .windowWrite t window reg v => Sys2Proof.Machine.execWindowWrite t window reg v s
  | .groupCommit t => Sys2Proof.Machine.execGroupCommit t s
  | .jobOpen t v => Sys2Proof.Machine.execJobOpen t v s
  | .jobClose t v => Sys2Proof.Machine.execJobClose t v s
  | .tileChoiceSet t v => Sys2Proof.Machine.execTileChoiceSet t v s
  | .modTlbInv t v => Sys2Proof.Machine.execModTlbInv t v s
  | .clusterRetire t v => Sys2Proof.Machine.execClusterRetire t v s
  | .disableTimeout t => Sys2Proof.Machine.execDisableTimeout t s
  | .disableDone t => Sys2Proof.Machine.execDisableDone t s
  | .cfgLoad t v => Sys2Proof.Machine.execCfgLoad t v s
  | .fwLoad t v changed => Sys2Proof.Machine.execFwLoad t v changed s
  | .codeBankFree t => Sys2Proof.Machine.execCodeBankFree t s
  | .dbgYarrowCmd t v => Sys2Proof.Machine.execDbgYarrowCmd t v s
  | .submitArrival t => Sys2Proof.Machine.execSubmitArrival t s
  | .readRequest t rnd => Sys2Proof.Machine.execReadRequest t rnd s
  | .timeTap t dieClock => Sys2Proof.Machine.execTimeTap t dieClock s
  | .completeDeparture t => Sys2Proof.Machine.execCompleteDeparture t s
  | .completeEvent t => Sys2Proof.Machine.execCompleteEvent t s
  | .faultLogTap t => Sys2Proof.Machine.execFaultLogTap t s
  | .intervalClose t dieClock energyMj vminMv vmaxMv rnd => Sys2Proof.Machine.execIntervalClose t dieClock energyMj vminMv vmaxMv rnd s
  | .pendingExpiry t wu epoch => Sys2Proof.Machine.execPendingExpiry t wu epoch s
  | .unmatchedTimeout t wu epoch => Sys2Proof.Machine.execUnmatchedTimeout t wu epoch s
  | .meterHoldup t dieClock energyMj vminMv vmaxMv rnd => Sys2Proof.Machine.execMeterHoldup t dieClock energyMj vminMv vmaxMv rnd s
  | .meterStatusReport t voltCv watt => Sys2Proof.Machine.execMeterStatusReport t voltCv watt s
  | .meterSilent t => Sys2Proof.Machine.execMeterSilent t s
  | .serviceSession t act => Sys2Proof.Machine.execServiceSession t act s
  | .kyendCharacter t c => Sys2Proof.Machine.execKyendCharacter t c s
  | .kyendHelp t => Sys2Proof.Machine.execKyendHelp t s
  | .kyendId t => Sys2Proof.Machine.execKyendId t s
  | .kyendState t => Sys2Proof.Machine.execKyendState t s
  | .kyendClusters t => Sys2Proof.Machine.execKyendClusters t s
  | .kyendClustersGroup t g => Sys2Proof.Machine.execKyendClustersGroup t g s
  | .kyendHbm t => Sys2Proof.Machine.execKyendHbm t s
  | .kyendPorts t => Sys2Proof.Machine.execKyendPorts t s
  | .kyendTemps t => Sys2Proof.Machine.execKyendTemps t s
  | .kyendPower t => Sys2Proof.Machine.execKyendPower t s
  | .kyendTime t => Sys2Proof.Machine.execKyendTime t s
  | .kyendOwner t => Sys2Proof.Machine.execKyendOwner t s
  | .kyendLog t n => Sys2Proof.Machine.execKyendLog t n s
  | .kyendMeter t => Sys2Proof.Machine.execKyendMeter t s
  | .kyendPeek t off count => Sys2Proof.Machine.execKyendPeek t off count s
  | .kyendPoke t off v => Sys2Proof.Machine.execKyendPoke t off v s
  | .kyendTrace t mask => Sys2Proof.Machine.execKyendTrace t mask s
  | .kyendYarrow t p => Sys2Proof.Machine.execKyendYarrow t p s
  | .supplyLowEnd t mv => Sys2Proof.Machine.execSupplyLowEnd t mv s
  | .standbyPathLoss t => Sys2Proof.Machine.execStandbyPathLoss t s
  | .peerKeyReply t port d nonce rnd => Sys2Proof.Machine.execPeerKeyReply t port d nonce rnd s
  | .peerFrameDiscard t port f dstRank => Sys2Proof.Machine.execPeerFrameDiscard t port f dstRank s
  | .dieSupervisorReloadDone t die => Sys2Proof.Machine.execDieSupervisorReloadDone t die s
  | .yarrowRequestCancel t => Sys2Proof.Machine.execYarrowRequestCancel t s
  | .droopEnd t g => Sys2Proof.Machine.execDroopEnd t g s

end Sys2Proof.Machine
end

