-- ==== Sys2Proof/Safety.lean ====
section
/-! DEFINITION. What a safe run of the block is, in the terms the statements use: a command that completes, a step that
stops, the canonical form of every memory, and the parts of the state a command leaves as they were. -/

namespace Sys2Proof.Safety

open Sys2Proof.Machine

/-- The command completes in this state: exec answers a next state, and the next state has the property. -/
def Answers (c : Instr) (s : State) (P : State → Prop) : Prop := ∃ t, exec c s = .next t ∧ P t

/-- Every memory of the module is in its one canonical form: service memory and its parity (08 R251), the two slots of
the configuration flash and the block in force (12 R370 to R376), and every scratchpad (05 R127). -/
def MemoryWf (s : State) : Prop :=
  Memory.wf s.hbm.data = true ∧ Memory.wf s.hbm.parity = true ∧
  Memory.wf s.flash.slotA = true ∧ Memory.wf s.flash.slotB = true ∧ Memory.wf s.ctl.cfg = true ∧
  ∀ e ∈ s.clu.phys, Memory.wf e.2.spad.bytes = true

/-- The parts of the state. -/
inductive Part where
  | pending | ctl | flash | clock | host | disp | reins | pdk | clu | hbm | pwr | flt | peers | sec | meter | kyend | free
deriving DecidableEq, Repr

/-- A part is the same in two states. -/
def Part.same (s t : State) : Part → Prop
  | .pending => t.pending = s.pending
  | .ctl => t.ctl = s.ctl
  | .flash => t.flash = s.flash
  | .clock => t.clock = s.clock
  | .host => t.host = s.host
  | .disp => t.disp = s.disp
  | .reins => t.reins = s.reins
  | .pdk => t.pdk = s.pdk
  | .clu => t.clu = s.clu
  | .hbm => t.hbm = s.hbm
  | .pwr => t.pwr = s.pwr
  | .flt => t.flt = s.flt
  | .peers => t.peers = s.peers
  | .sec => t.sec = s.sec
  | .meter => t.meter = s.meter
  | .kyend => t.kyend = s.kyend
  | .free => t.free = s.free

/-- Every part that the list does not name is the same in both states: the frame of an operation that writes only those. -/
structure SameBut (m : List Part) (s t : State) : Prop where
  same : ∀ p, p ∉ m → p.same s t

/-- The Module Time of the happening a command stands for: its first operand (log 1). -/
def timeOf : Instr → Nat
  | .startSequence t .. => t
  | .ptpLock t .. => t
  | .ptpMessage t .. => t
  | .ptpLoss t => t
  | .ptpRecovery t => t
  | .supplyOutOfRange t .. => t
  | .supplyLow t .. => t
  | .supplyRestored t .. => t
  | .referenceClockFail t => t
  | .hostFrameDiscard t .. => t
  | .arpRequest t .. => t
  | .arpReply t .. => t
  | .neighborSolicitation t .. => t
  | .echoRequest t .. => t
  | .nextHopRefresh t .. => t
  | .keyInitHello t .. => t
  | .keyInitEncap t .. => t
  | .keyInitClose t .. => t
  | .sessionIdleTimeout t .. => t
  | .claim t .. => t
  | .electionClose t => t
  | .leaseRenew t .. => t
  | .leaseExpiry t => t
  | .release t .. => t
  | .submit t .. => t
  | .abort t .. => t
  | .memWrite t .. => t
  | .memRead t .. => t
  | .mgmtRead t .. => t
  | .mgmtWrite t .. => t
  | .registerWrite t .. => t
  | .meterRead t .. => t
  | .attest t .. => t
  | .ack t .. => t
  | .ping t .. => t
  | .retransmitTimeout t .. => t
  | .messageAbandon t .. => t
  | .noticeSend t .. => t
  | .hostPathLoss t .. => t
  | .hostPathRetrain t .. => t
  | .hostPathSwitch t .. => t
  | .chainChoose t .. => t
  | .layerStart t .. => t
  | .denseMm t .. => t
  | .spmm t .. => t
  | .sddmm t .. => t
  | .spgemm t .. => t
  | .spadd t .. => t
  | .gather t .. => t
  | .scatterAdd t .. => t
  | .embedBag t .. => t
  | .route t .. => t
  | .combine t .. => t
  | .reduce t .. => t
  | .topk t .. => t
  | .rowStats t .. => t
  | .convert t .. => t
  | .transposeCopy t .. => t
  | .copy t .. => t
  | .fill t .. => t
  | .barrier t .. => t
  | .signal t .. => t
  | .wait t .. => t
  | .ticketLoop t .. => t
  | .preload t .. => t
  | .releaseBuf t .. => t
  | .layerEnd t .. => t
  | .workCounterAlloc t .. => t
  | .ticketNoticePost t .. => t
  | .ticketTake t .. => t
  | .passEnd t .. => t
  | .drainDone t .. => t
  | .residueCheckpoint t .. => t
  | .checksumCheckpoint t .. => t
  | .treeNode t .. => t
  | .tileDone t .. => t
  | .compressCount t .. => t
  | .compressPlace t .. => t
  | .descriptorComplete t .. => t
  | .layerEndComplete t .. => t
  | .discardDecision t .. => t
  | .memberTicketDrop t .. => t
  | .discardRelease t .. => t
  | .quarantineEnd t .. => t
  | .retiredEntryExpiry t .. => t
  | .streamRequestIssue t .. => t
  | .streamReadArrival t .. => t
  | .ponyTransfer t .. => t
  | .weightCacheRead t .. => t
  | .hbmRead t .. => t
  | .parityWrite t .. => t
  | .multicastSend t .. => t
  | .multicastWaitExpiry t .. => t
  | .slotAccess t .. => t
  | .farrierWriteBack t .. => t
  | .scrubSweep t .. => t
  | .rowMapOut t .. => t
  | .repairAppend t => t
  | .patrolScrubVisit t .. => t
  | .pageRetire t .. => t
  | .retirementAppend t => t
  | .pseudoChannelFail t .. => t
  | .stackFail t .. => t
  | .rebuildComplete t => t
  | .fetchAdd t .. => t
  | .compareSwap t .. => t
  | .compareWait t .. => t
  | .counterRead t .. => t
  | .barrierArrival t .. => t
  | .arrivalWithdraw t .. => t
  | .rnCtrCmd t .. => t
  | .planeError t .. => t
  | .planeResyncDone t .. => t
  | .paddockPacketWrite t .. => t
  | .paddockItemRead t .. => t
  | .pdkFlush t .. => t
  | .heartbeat t .. => t
  | .heartbeatTimeout t .. => t
  | .wakeHeartbeatTimeout t .. => t
  | .clusterFailDeclare t .. => t
  | .spareTestDone t .. => t
  | .retest t .. => t
  | .yarrowVisit t .. => t
  | .clusterGate t .. => t
  | .clusterSleep t .. => t
  | .clusterWake t .. => t
  | .groupPllStop t .. => t
  | .powerEvaluation t .. => t
  | .groupStepSwitch t .. => t
  | .pwrCapWrite t .. => t
  | .thermalLimit t .. => t
  | .thermalRecover t .. => t
  | .droopDetect t .. => t
  | .regulatorPhaseFail t .. => t
  | .pllLockLoss t .. => t
  | .supervisorVoteMismatch t .. => t
  | .supervisorResyncDone t .. => t
  | .dieSupervisorLoss t .. => t
  | .xUnitMismatch t .. => t
  | .dispatcherRestartDone t => t
  | .nocFlitCrcFail t .. => t
  | .dieLaneFail t .. => t
  | .peerLinkTrain t .. => t
  | .peerLaneFail t .. => t
  | .peerRetrainDone t .. => t
  | .peerLinkLost t .. => t
  | .peerPingTimer t .. => t
  | .peerKeyInit t .. => t
  | .peerData t .. => t
  | .peerNack t .. => t
  | .peerLanded t .. => t
  | .peerLeaf t .. => t
  | .peerResult t .. => t
  | .roundAbort t .. => t
  | .roundTimeout t .. => t
  | .peerForward t .. => t
  | .windowWrite t .. => t
  | .groupCommit t => t
  | .jobOpen t .. => t
  | .jobClose t .. => t
  | .tileChoiceSet t .. => t
  | .modTlbInv t .. => t
  | .clusterRetire t .. => t
  | .disableTimeout t => t
  | .disableDone t => t
  | .cfgLoad t .. => t
  | .fwLoad t .. => t
  | .codeBankFree t => t
  | .dbgYarrowCmd t .. => t
  | .submitArrival t => t
  | .readRequest t .. => t
  | .timeTap t .. => t
  | .completeDeparture t => t
  | .completeEvent t => t
  | .faultLogTap t => t
  | .intervalClose t .. => t
  | .pendingExpiry t .. => t
  | .unmatchedTimeout t .. => t
  | .meterHoldup t .. => t
  | .meterStatusReport t .. => t
  | .meterSilent t => t
  | .serviceSession t .. => t
  | .kyendCharacter t .. => t
  | .kyendHelp t => t
  | .kyendId t => t
  | .kyendState t => t
  | .kyendClusters t => t
  | .kyendClustersGroup t .. => t
  | .kyendHbm t => t
  | .kyendPorts t => t
  | .kyendTemps t => t
  | .kyendPower t => t
  | .kyendTime t => t
  | .kyendOwner t => t
  | .kyendLog t .. => t
  | .kyendMeter t => t
  | .kyendPeek t .. => t
  | .kyendPoke t .. => t
  | .kyendTrace t .. => t
  | .kyendYarrow t .. => t
  | .supplyLowEnd t .. => t
  | .standbyPathLoss t => t
  | .peerKeyReply t .. => t
  | .peerFrameDiscard t .. => t
  | .dieSupervisorReloadDone t .. => t
  | .yarrowRequestCancel t => t
  | .droopEnd t .. => t

/-- The parts of the state that a command may write, time itself apart: what its rules change, and what those changes bring
with them (a message sent, an event posted, a record for the metrology die). -/
def mayWrite : Instr → List Part
  | .startSequence .. => [.ctl, .flash, .host, .reins, .clu, .hbm, .pwr, .flt, .peers, .sec, .kyend, .free]
  | .ptpLock .. => [.ctl, .clock, .host, .reins, .pdk, .clu, .pwr, .flt, .peers, .meter, .free]
  | .ptpMessage .. => [.clock, .pdk]
  | .ptpLoss _ => [.clock, .pdk]
  | .ptpRecovery _ => [.clock, .pdk]
  | .supplyOutOfRange .. => [.ctl, .flash, .clock, .host, .disp, .reins, .pdk, .clu, .hbm, .pwr, .flt, .peers, .sec, .meter, .kyend]
  | .supplyLow .. => [.pdk, .pwr]
  | .supplyRestored .. => [.ctl, .clock, .pwr]
  | .referenceClockFail _ => [.ctl, .flash, .clock, .host, .disp, .reins, .pdk, .clu, .hbm, .pwr, .flt, .peers, .sec, .meter, .kyend]
  | .hostFrameDiscard .. => [.host, .peers]
  | .arpRequest .. => [.host, .peers]
  | .arpReply .. => [.host, .peers]
  | .neighborSolicitation .. => [.host, .peers]
  | .echoRequest .. => [.host, .peers]
  | .nextHopRefresh .. => [.host, .peers]
  | .keyInitHello .. => [.host, .peers]
  | .keyInitEncap .. => [.host, .peers]
  | .keyInitClose .. => [.host, .peers]
  | .sessionIdleTimeout .. => [.host, .peers]
  | .claim .. => [.host, .peers, .meter]
  | .electionClose _ => [.host, .peers, .meter]
  | .leaseRenew .. => [.host, .peers, .meter]
  | .leaseExpiry _ => [.host, .pdk, .peers]
  | .release .. => [.host, .peers, .meter]
  | .submit .. => [.host, .disp, .pdk, .peers, .meter]
  | .abort .. => [.host, .disp, .flt, .peers, .meter]
  | .memWrite .. => [.host, .hbm, .peers, .meter]
  | .memRead .. => [.host, .hbm, .peers, .meter]
  | .mgmtRead .. => [.host, .peers, .meter]
  | .mgmtWrite .. => [.ctl, .flash, .host, .disp, .reins, .pdk, .clu, .hbm, .pwr, .flt, .peers, .meter]
  | .registerWrite .. => [.ctl, .flash, .host, .disp, .reins, .pdk, .clu, .hbm, .pwr, .flt, .peers]
  | .meterRead .. => [.host, .peers, .meter]
  | .attest .. => [.host, .peers, .sec, .meter]
  | .ack .. => [.host, .peers, .meter]
  | .ping .. => [.host, .peers]
  | .retransmitTimeout .. => [.host, .peers]
  | .messageAbandon .. => [.host, .peers, .meter]
  | .noticeSend .. => [.host, .pdk, .peers, .meter]
  | .hostPathLoss .. => [.clock, .host, .pdk, .flt, .peers, .meter]
  | .hostPathRetrain .. => [.host, .pdk, .flt, .peers, .meter]
  | .hostPathSwitch .. => [.host, .pdk, .peers]
  | .chainChoose .. => [.disp, .pdk]
  | .layerStart .. => [.disp, .clu, .pwr]
  | .denseMm .. => [.disp, .reins, .pdk, .clu]
  | .spmm .. => [.disp, .reins, .pdk, .clu]
  | .sddmm .. => [.disp, .reins, .pdk, .clu]
  | .spgemm .. => [.disp, .reins, .pdk, .clu]
  | .spadd .. => [.disp, .reins, .pdk, .clu]
  | .gather .. => [.disp, .reins, .pdk, .clu]
  | .scatterAdd .. => [.disp, .reins, .pdk, .clu]
  | .embedBag .. => [.disp, .reins, .pdk, .clu]
  | .route .. => [.disp, .reins, .pdk, .clu]
  | .combine .. => [.disp, .reins, .pdk, .clu]
  | .reduce .. => [.disp, .reins, .pdk, .clu]
  | .topk .. => [.disp, .reins, .pdk, .clu]
  | .rowStats .. => [.disp, .reins, .pdk, .clu]
  | .convert .. => [.disp, .reins, .pdk, .clu]
  | .transposeCopy .. => [.disp, .reins, .pdk, .clu]
  | .copy .. => [.disp, .reins, .pdk, .clu]
  | .fill .. => [.disp, .reins, .pdk, .clu]
  | .barrier .. => [.disp, .reins, .pdk, .clu]
  | .signal .. => [.disp, .reins, .pdk, .clu]
  | .wait .. => [.disp, .reins, .pdk, .clu]
  | .ticketLoop .. => [.disp, .reins, .pdk, .clu]
  | .preload .. => [.disp, .reins, .pdk, .clu]
  | .releaseBuf .. => [.disp, .reins, .pdk, .clu]
  | .layerEnd .. => [.disp, .reins, .pdk, .clu]
  | .workCounterAlloc .. => [.disp, .reins]
  | .ticketNoticePost .. => [.disp, .pdk]
  | .ticketTake .. => [.disp, .reins, .pdk, .clu, .flt]
  | .passEnd .. => [.disp, .pdk, .clu, .pwr, .flt, .meter]
  | .drainDone .. => [.disp, .clu]
  | .residueCheckpoint .. => [.disp, .pdk, .clu, .pwr, .flt, .meter]
  | .checksumCheckpoint .. => [.disp, .pdk, .clu, .pwr, .flt, .meter]
  | .treeNode .. => [.disp, .pdk, .clu]
  | .tileDone .. => [.disp, .reins]
  | .compressCount .. => [.disp]
  | .compressPlace .. => [.disp, .clu]
  | .descriptorComplete .. => [.host, .disp, .reins, .pdk, .clu, .hbm, .peers, .meter, .free]
  | .layerEndComplete .. => [.host, .disp, .reins, .pdk, .clu, .hbm, .peers, .meter, .free]
  | .discardDecision .. => [.host, .disp, .reins, .peers, .meter]
  | .memberTicketDrop .. => [.disp, .clu]
  | .discardRelease .. => [.disp, .pdk, .clu, .hbm, .free]
  | .quarantineEnd .. => [.disp]
  | .retiredEntryExpiry .. => [.disp]
  | .streamRequestIssue .. => [.host, .disp, .clu, .hbm, .peers, .meter]
  | .streamReadArrival .. => [.disp, .clu]
  | .ponyTransfer .. => [.disp, .pdk, .clu, .hbm, .flt, .meter]
  | .weightCacheRead .. => [.pdk, .hbm, .flt, .meter]
  | .hbmRead .. => [.pdk, .hbm, .flt, .meter, .free]
  | .parityWrite .. => [.host, .disp, .reins, .hbm, .peers, .meter]
  | .multicastSend .. => [.pdk, .clu, .flt, .meter]
  | .multicastWaitExpiry .. => [.disp, .clu]
  | .slotAccess .. => [.disp, .pdk, .clu, .flt, .meter]
  | .farrierWriteBack .. => [.clu]
  | .scrubSweep .. => [.pdk, .clu, .flt, .meter]
  | .rowMapOut .. => [.flash, .disp, .pdk, .clu, .pwr, .flt, .meter]
  | .repairAppend _ => [.flash]
  | .patrolScrubVisit .. => [.pdk, .hbm, .flt, .meter, .free]
  | .pageRetire .. => [.flash, .pdk, .hbm, .flt, .meter]
  | .retirementAppend _ => [.flash]
  | .pseudoChannelFail .. => [.disp, .pdk, .hbm, .flt, .meter]
  | .stackFail .. => [.disp, .pdk, .hbm, .flt, .meter]
  | .rebuildComplete _ => [.pdk, .hbm, .flt, .meter]
  | .fetchAdd .. => [.disp, .reins]
  | .compareSwap .. => [.disp, .reins]
  | .compareWait .. => [.reins]
  | .counterRead .. => [.reins]
  | .barrierArrival .. => [.disp, .reins]
  | .arrivalWithdraw .. => [.reins]
  | .rnCtrCmd .. => [.disp, .reins]
  | .planeError .. => [.reins, .pdk, .flt, .meter]
  | .planeResyncDone .. => [.reins]
  | .paddockPacketWrite .. => [.pdk]
  | .paddockItemRead .. => [.host, .disp, .pdk, .clu, .flt, .peers, .meter]
  | .pdkFlush .. => [.disp, .pdk]
  | .heartbeat .. => [.reins, .clu]
  | .heartbeatTimeout .. => [.ctl, .disp, .pdk, .clu, .pwr, .flt, .meter]
  | .wakeHeartbeatTimeout .. => [.disp, .pdk, .clu, .pwr, .flt, .meter]
  | .clusterFailDeclare .. => [.disp, .pdk, .clu, .pwr, .flt, .meter]
  | .spareTestDone .. => [.flash, .disp, .pdk, .clu, .pwr, .flt, .meter]
  | .retest .. => [.flash, .pdk, .clu, .pwr, .flt, .meter]
  | .yarrowVisit .. => [.disp, .pdk, .clu, .pwr, .flt, .meter, .kyend]
  | .clusterGate .. => [.clu]
  | .clusterSleep .. => [.clu, .pwr]
  | .clusterWake .. => [.pdk, .clu, .pwr]
  | .groupPllStop .. => [.pwr]
  | .powerEvaluation .. => [.pwr]
  | .groupStepSwitch .. => [.pdk, .clu, .pwr]
  | .pwrCapWrite .. => [.pwr]
  | .thermalLimit .. => [.ctl, .flash, .clock, .host, .disp, .reins, .pdk, .clu, .hbm, .pwr, .flt, .peers, .sec, .meter, .kyend]
  | .thermalRecover .. => [.pdk, .clu, .pwr]
  | .droopDetect .. => [.pdk, .pwr]
  | .regulatorPhaseFail .. => [.pdk, .flt, .meter]
  | .pllLockLoss .. => [.clock, .host, .disp, .pdk, .clu, .hbm, .pwr, .flt, .peers, .meter]
  | .supervisorVoteMismatch .. => [.ctl, .disp, .pdk, .flt, .meter]
  | .supervisorResyncDone .. => [.ctl]
  | .dieSupervisorLoss .. => [.ctl, .disp, .pdk, .flt, .meter]
  | .xUnitMismatch .. => [.disp, .pdk, .flt, .meter]
  | .dispatcherRestartDone _ => [.disp, .pdk, .flt, .meter]
  | .nocFlitCrcFail .. => [.pdk, .flt, .meter]
  | .dieLaneFail .. => [.pdk, .flt, .meter]
  | .peerLinkTrain .. => [.host, .peers, .free]
  | .peerLaneFail .. => [.host, .disp, .pdk, .flt, .peers, .meter]
  | .peerRetrainDone .. => [.host, .pdk, .peers, .meter, .free]
  | .peerLinkLost .. => [.host, .disp, .pdk, .flt, .peers, .meter]
  | .peerPingTimer .. => [.host, .peers, .free]
  | .peerKeyInit .. => [.host, .disp, .pdk, .flt, .peers, .meter]
  | .peerData .. => [.host, .disp, .reins, .hbm, .flt, .peers, .meter]
  | .peerNack .. => [.host, .disp, .peers, .meter]
  | .peerLanded .. => [.host, .disp, .reins, .hbm, .flt, .peers, .meter]
  | .peerLeaf .. => [.host, .disp, .reins, .hbm, .flt, .peers, .meter]
  | .peerResult .. => [.host, .disp, .reins, .hbm, .flt, .peers, .meter]
  | .roundAbort .. => [.host, .disp, .reins, .hbm, .flt, .peers, .meter]
  | .roundTimeout .. => [.host, .disp, .peers, .meter]
  | .peerForward .. => [.host, .disp, .reins, .hbm, .flt, .peers, .meter]
  | .windowWrite .. => [.disp, .peers]
  | .groupCommit _ => [.disp, .peers]
  | .jobOpen .. => [.disp, .peers]
  | .jobClose .. => [.disp, .peers]
  | .tileChoiceSet .. => [.disp, .peers]
  | .modTlbInv .. => [.hbm]
  | .clusterRetire .. => [.disp, .peers]
  | .disableTimeout _ => [.disp]
  | .disableDone _ => [.host, .disp, .pdk, .clu, .hbm, .pwr, .flt, .peers, .meter, .free]
  | .cfgLoad .. => [.ctl, .flash, .pdk]
  | .fwLoad .. => [.ctl, .flash, .pdk]
  | .codeBankFree _ => [.ctl]
  | .dbgYarrowCmd .. => [.clu]
  | .submitArrival _ => [.meter]
  | .readRequest .. => [.host, .pdk, .peers, .meter]
  | .timeTap .. => [.meter]
  | .completeDeparture _ => [.meter]
  | .completeEvent _ => [.meter]
  | .faultLogTap _ => [.meter]
  | .intervalClose .. => [.meter]
  | .pendingExpiry .. => [.meter]
  | .unmatchedTimeout .. => [.meter]
  | .meterHoldup .. => [.meter]
  | .meterStatusReport .. => [.pdk, .sec, .meter]
  | .meterSilent _ => [.host, .pdk, .peers, .meter]
  | .serviceSession .. => [.meter]
  | .kyendCharacter .. => [.ctl, .flash, .host, .disp, .reins, .pdk, .clu, .hbm, .pwr, .flt, .peers, .kyend]
  | .kyendHelp _ => [.kyend]
  | .kyendId _ => [.kyend]
  | .kyendState _ => [.kyend]
  | .kyendClusters _ => [.kyend]
  | .kyendClustersGroup .. => [.kyend]
  | .kyendHbm _ => [.kyend]
  | .kyendPorts _ => [.kyend]
  | .kyendTemps _ => [.kyend]
  | .kyendPower _ => [.kyend]
  | .kyendTime _ => [.kyend]
  | .kyendOwner _ => [.kyend]
  | .kyendLog .. => [.kyend]
  | .kyendMeter _ => [.kyend]
  | .kyendPeek .. => [.kyend]
  | .kyendPoke .. => [.ctl, .flash, .host, .disp, .reins, .pdk, .clu, .hbm, .pwr, .flt, .peers, .kyend]
  | .kyendTrace .. => [.ctl, .flash, .host, .disp, .reins, .pdk, .clu, .hbm, .pwr, .flt, .peers, .kyend]
  | .kyendYarrow .. => [.ctl, .flash, .host, .disp, .reins, .pdk, .clu, .hbm, .pwr, .flt, .peers, .kyend]
  | .supplyLowEnd .. => [.pdk, .pwr]
  | .standbyPathLoss _ => [.host, .pdk, .flt, .meter]
  | .peerKeyReply .. => [.host, .pdk, .peers]
  | .peerFrameDiscard .. => [.host, .peers]
  | .dieSupervisorReloadDone .. => [.ctl, .reins, .pdk, .flt, .meter]
  | .yarrowRequestCancel _ => [.clu, .kyend]
  | .droopEnd .. => [.pwr]

/-- The event queue (09 R289: pool 4, queue 10) has room for n more one-cell items, in a Paddock whose queue table stands in
key order, as every reachable one does. -/
def Room (s : State) (n : Nat) : Prop :=
  (s.pdk.queues.map (·.1)).Pairwise (· < ·) ∧ itemCells (pdkItems s 4 10) + n ≤ 16384 ∧ poolUsedCells s 4 + n ≤ 262144

/-- From the first state to the second exactly these events were appended to the event queue, in this order, each as the
64-byte cell of 15 R468. -/
def Posted (s t : State) (es : List Event) : Prop :=
  (pdkItems t 4 10).map (·.payload) = (pdkItems s 4 10).map (·.payload) ++ es.map fun e => eventCell e (now t)

/-- A run of n steps that meets no fault and no refusal. -/
def SafeRun : Nat → State → Prop
  | 0, _ => True
  | n + 1, s => ∃ t, step s = .next t ∧ SafeRun n t

/-! ## What statements about commands say -/

/-- From the first state to the second exactly the units that a test picks gain one cause of discard (R405). -/
def Marked (s u : State) (p : WorkUnit → Bool) (reason res : Nat) : Prop :=
  u.disp.units = s.disp.units.map fun w =>
    if p w then { w with causes := w.causes ++ [{ mt := now u, reason := reason, resource := res }] } else w

/-- What a cluster's failure does (R403, R410, R413). -/
def ClusterDown (s u : State) (p mech : Nat) : Prop :=
  (getClu u p).power = .off ∧ (getClu u p).halter = true ∧ (getClu u p).role = failedRole (getClu s p) mech ∧
  (getClu u p).fails = (getClu s p).fails + 1 ∧ (getClu u p).lastMech = mech ∧ (getClu u p).running = none ∧
  (∀ l, logicalOf s p = some l → served u l = false ∧ Marked s u (touchedBy mech l) reasonHwFault (resCluster l)) ∧
  (Room s 4 → ∃ es, Posted s u
    ({ code := 0x0001, mech := mech, params := [p], res := ((logicalOf s p).map resCluster).getD resNone } :: es))

/-- A sequenced message of a type and body stands on a session of the host port until it is acknowledged. -/
def Queued (u : State) (num typ : Nat) (body : List Byte) : Prop :=
  ∃ x, findSess u .host num = some x ∧ ∃ h ∈ x.held, h.typ = typ ∧ h.body = body

/-- A session's next sequence is none that it still holds. -/
def FreshSeq (x : Session) : Prop := ∀ h ∈ x.held, h.seq ≠ x.txNext

/-- A sequenced datagram of a host session that passes every check of R317 and is none the session has had (R319). -/
def HostAccepts (s : State) (d : Datagram) (typ : Nat) (se : Session) : Prop :=
  linkUp s .host = true ∧ impCheck s .host d typ = 0 ∧ findSess s .host d.session = some se ∧ seenBefore { se with rxLow := if serialLt se.rxLow d.low then d.low else se.rxLow } d.seq = false

/-- An unsequenced datagram of an open session that passes every check of R317. -/
def LinkAccepts (s : State) (lk : Link) (d : Datagram) (typ : Nat) (se : Session) : Prop :=
  linkUp s lk = true ∧ impCheck s lk d typ = 0 ∧ findSess s lk d.session = some se

/-- The body of a GRANT (R333). -/
def grantBody (se : Session) (cause t : Nat) : List Byte :=
  leBytes 1 se.num ++ leBytes 1 cause ++ leBytes 2 0 ++ leBytes 4 se.gen ++ leBytes 8 (t + 5000000000) ++ leBytes 8 t

/-- The command completes by printing these lines and then the prompt, and changes nothing else but the time. -/
def Prints (c : Instr) (s : State) (l : List String) : Prop :=
  Answers c s fun u => u = { atMt s (timeOf c) with kyend := { s.kyend with out := "kyend> " :: (l.reverse ++ s.kyend.out) } }

/-- The commands of the monitor. -/
def isMonitor : Instr → Bool
  | .kyendCharacter .. | .kyendHelp .. | .kyendId .. | .kyendState .. | .kyendClusters .. | .kyendClustersGroup .. | .kyendHbm ..
  | .kyendPorts .. | .kyendTemps .. | .kyendPower .. | .kyendTime .. | .kyendOwner .. | .kyendLog .. | .kyendMeter ..
  | .kyendPeek .. | .kyendPoke .. | .kyendTrace .. | .kyendYarrow .. => true
  | _ => false

/-- Every stored parity byte is the exclusive or of the 19 data bytes of its row at its offset. -/
def ParityHolds (s : State) : Prop :=
  ∀ n o, o < 4096 → parityByte s n o = (numsFrom 0 19).foldl (fun x i => x ^^^ cellGet s.hbm.data (unitByte n i o)) 0

/-- A sequenced datagram of a peer port's session that passes every check of R317 and is none the session has had
(R319, R349). -/
def PeerAccepts (s : State) (p : Nat) (d : Datagram) (typ : Nat) (se : Session) : Prop :=
  linkUp s (.peer p) = true ∧ impCheck s (.peer p) d typ = 0 ∧ findSess s (.peer p) d.session = some se ∧
  seenBefore { se with rxLow := if serialLt se.rxLow d.low then d.low else se.rxLow } d.seq = false

/-- Such a peer write of a kind for this module whose PSEQ it has not acted on (R357). -/
def PeerMessage (s : State) (p : Nat) (d : Datagram) (se : Session) (kind : Nat) (b : PeerBody) : Prop :=
  PeerAccepts s p d 0x20 se ∧ b = parsePeer (plainBody se d) ∧ b.pkind = kind ∧ b.dstRank = s.peers.rank ∧
  (kind = 3 ∨ pseqSeen s b.srcRank b.pseq = false)

/-- A sequenced message of a type and body stands on a peer port's session until it is acknowledged. -/
def PeerQueued (u : State) (p typ : Nat) (body : List Byte) : Prop :=
  ∃ x, findSess u (.peer p) p = some x ∧ ∃ h ∈ x.held, h.typ = typ ∧ h.body = body

/-- A peer port after the loss of its link (R348): it retrains, without a session. -/
def PortLost (u : State) (p : Nat) : Prop :=
  (peerPortOf u p).state = 1 ∧ (peerPortOf u p).session = none ∧ (peerPortOf u p).farRank = 0xFF ∧ (peerPortOf u p).lostSeen = true ∧
  u.peers.ready = groupIsReady u

/-- A cluster that may take a ticket of a descriptor now (R224, R225, R227): it serves its number and runs, its inbox is
empty, it holds the descriptor's notice, and it has room. -/
def MayTake (s : State) (l : Nat) (r : DescRef) (n : TicketNotice) : Prop :=
  served s l = true ∧ (getClu s (physOf s l)).halter = false ∧ (getClu s (physOf s l)).power = .active ∧
  pdkItems s (inboxOf (physOf s l)).1 (inboxOf (physOf s l)).2 = [] ∧
  (getClu s (physOf s l)).notices.find? (fun n => n.ref == r) = some n ∧
  hasRoom (getClu s (physOf s l)) = true ∧ takesFrom s (getClu s (physOf s l)) r = true

/-- Whether the values of a finished tile reach their output without a further read (R111, R190). -/
def pathOpen (d : DRun) (tile : Nat) : Prop :=
  (tileRun d tile).head? ≠ none ∧ (d.op = 0x10 ∨ (addsC d = false ∧ (ten d 2).isSome = true))

/-- The 24 issue commands: time, work unit, opcode (R183). -/
def issueOp : Instr → Option (Nat × Nat × Nat)
  | .denseMm t w => some (t, w, 0x01)
  | .spmm t w => some (t, w, 0x02)
  | .sddmm t w => some (t, w, 0x03)
  | .spgemm t w => some (t, w, 0x04)
  | .spadd t w => some (t, w, 0x05)
  | .gather t w => some (t, w, 0x08)
  | .scatterAdd t w => some (t, w, 0x09)
  | .embedBag t w => some (t, w, 0x0A)
  | .route t w => some (t, w, 0x0B)
  | .combine t w => some (t, w, 0x0C)
  | .reduce t w => some (t, w, 0x10)
  | .topk t w => some (t, w, 0x11)
  | .rowStats t w => some (t, w, 0x12)
  | .convert t w => some (t, w, 0x18)
  | .transposeCopy t w => some (t, w, 0x19)
  | .copy t w => some (t, w, 0x1A)
  | .fill t w => some (t, w, 0x1B)
  | .barrier t w => some (t, w, 0x20)
  | .signal t w => some (t, w, 0x21)
  | .wait t w => some (t, w, 0x22)
  | .ticketLoop t w => some (t, w, 0x23)
  | .preload t w => some (t, w, 0x30)
  | .releaseBuf t w => some (t, w, 0x31)
  | .layerEnd t w => some (t, w, 0x3F)
  | _ => none

/-- A descriptor without what its issue itself may change at once. -/
def runCore (d : DRun) : DRun := { d with pairEpoch := 0, phase := 0, waiting := false, clashOut := [], clashIn := [], held := [] }

/-- A work unit without that of its descriptors, and without causes of a discard. -/
def unitCore (u : WorkUnit) : WorkUnit := { u with runs := u.runs.map runCore, causes := [] }

/-- The ticket count a TICKET_LOOP takes at issue (R200); 0 for any other opcode. -/
def issueLimit (s : State) (x : WorkUnit) : Except Why Nat :=
  if dOp (nextRaw x) = 0x23 then loopLimit s (hJob x.header) (nextRaw x) else .ok 0

/-- A descriptor may issue, passes its checks as d, and a TICKET_LOOP has n tickets (R169, R185, R200, R204). -/
def Issues (s : State) (t wu op : Nat) (x : WorkUnit) (d : DRun) (n : Nat) : Prop :=
  findUnit s wu = some x ∧ mayIssue (atMt s t) x op = true ∧ issueRun (atMt s t) x (nextRef x) (nextRaw x) = .ok d ∧
  windowFrozen (atMt s t) d = false ∧ issueLimit (atMt s t) x = .ok n

/-- The unit with a descriptor issued. -/
def issuedUnit (x : WorkUnit) (d : DRun) (n : Nat) (mt fw : Nat) : WorkUnit :=
  { advanceUnit x (nextRaw x) n with runs := x.runs ++ [d], mtIssue := some (x.mtIssue.getD mt), fwVersion := if x.mtIssue.isNone then fw else x.fwVersion }

/-- FP32 bits of a NaN (02 R28). -/
def isNan32 (a : F32) : Prop := a.toNat / 2 ^ 23 % 256 = 255 ∧ a.toNat % 2 ^ 23 ≠ 0

/-- FP32 bits of an infinity (02 R28). -/
def isInf32 (a : F32) : Prop := a = 0x7F800000 ∨ a = 0xFF800000

/-- FP32 bits of +0 or −0 (02 R28). -/
def isZero32 (a : F32) : Prop := a = 0 ∨ a = 0x80000000

end Sys2Proof.Safety
end

