-- ==== Sys2Proof/Certificates/Slice0/Obligations.lean ====
section
/-! DEFINITION. The statements for the provers: what each family of commands does, over every state and operands that
meet the hypotheses. Each docstring says what is stated; OBLIGATIONS.json names what it rests on. -/

open Sys2Proof Sys2Proof.Machine Sys2Proof.Safety

/-- For every command c and state s, a step of s with c at the front of its queue of pending commands is exec of c on
s with the rest of the queue. With nothing pending a step answers the same state. The queue and its idling are the
model's own choice (log 1). -/
def Obligations.StepTakesFrontCommand : Prop :=
  (∀ (c : Instr) (rest : List Instr) (s : State), step { s with pending := c :: rest } = exec c { s with pending := rest }) ∧ (∀ s : State, s.pending = [] → step s = .next s)

/-- For every command and every state, exec answers a next state: no command ends in a fault or a refusal. The queue
of pending commands is the same before and after. That a command whose event cannot happen there only lets time pass
is the model's choice (log 2). -/
def Obligations.EveryCommandAnswers : Prop :=
  ∀ c s, ∃ u, exec c s = .next u ∧ u.pending = s.pending

/-- For every command c that answers a next state u from s, every part of the state outside mayWrite c is the same in
u as in s with Module Time brought forward to the command's time. The parts are the queue, control and start, flash,
the clock, the host port, the dispatcher, the Reins, the Paddock, the clusters, HBM, power, faults, the peer ports,
security, the meter, the monitor, and the count of free values read. -/
def Obligations.CommandFrames : Prop :=
  ∀ c s u, exec c s = .next u → SameBut (mayWrite c) (atMt s (timeOf c)) u

/-- If service memory, its parity, both flash slots, the configuration block in force and every scratchpad list their
bytes at strictly rising addresses with no byte equal to what an unlisted address reads as, then they do so after
every step that answers a next state. The canonical form is the model's (logs 5, 11, 12). -/
def Obligations.MemoryWfKept : Prop :=
  ∀ s u, MemoryWf s → step s = .next u → MemoryWf u

/-- At reset every memory has its canonical form, the module is STARTING, no host session is open and the bridle is
vacant, no unit is in flight, the window table and every Paddock queue are empty, every counter and barrier is 0,
service memory reads 0, and a spare cluster is OFF while every other one is ASLEEP. The values that the spec gives
only for READY are taken at reset as the model's choice (log 4). -/
def Obligations.ResetState : Prop :=
  MemoryWf State.reset ∧ State.reset.pending = [] ∧ State.reset.ctl.modState = .starting ∧ State.reset.host.sessions = [] ∧
  State.reset.host.owner = none ∧ State.reset.disp.units = [] ∧ State.reset.peers.windows = [] ∧
  (∀ n, getCtr State.reset n = { value := 0, epoch := 0 }) ∧ (∀ b, getBar State.reset b = { gen := 0, parties := 0, arrivals := [] }) ∧
  (∀ p q, pdkItems State.reset p q = []) ∧ (∀ a, cellGet State.reset.hbm.data a = 0) ∧
  (∀ p, (getClu State.reset p).power = if p % 17 = 16 then .off else .asleep)

/-- A PTP message keeps its offset and posts an event above 1,000 ns; loss and recovery of PTP move between locked and
holdover, each with its event; at step 8 of the start PTP_LOCK sets Module Time once and makes the module READY. A
supply from 40 V to under 44 V sets the low mark and posts the event, its end clears it; outside 40 V to 58 V, or
without its reference clock, the module powers down and loses its sessions, work, memory and queues but keeps its
flash; a restored supply brings the control state back to that of reset. -/
def Obligations.ClockAndSupply : Prop :=
  (∀ s t off, linkUp s .host = true → s.clock.ptp = 1 → Answers (.ptpMessage t off) s fun u =>
    u.clock = { mt := max (now s) t, ptp := 1, offsetNs := off } ∧
    (isReady s = true → 1000 < off.natAbs → Room s 1 → Posted s u [{ code := 0x0030, params := [ofSigned 64 off] }]) ∧
    (off.natAbs ≤ 1000 → u.pdk = s.pdk)) ∧
  (∀ s t, s.clock.ptp = 1 → Answers (.ptpLoss t) s fun u =>
    u.clock = { s.clock with mt := max (now s) t, ptp := 2 } ∧
    (Room s 1 → Posted s u [{ code := 0x0031, params := [0] }])) ∧
  (∀ s t, s.clock.ptp = 2 → linkUp s .host = true → Answers (.ptpRecovery t) s fun u =>
    u.clock = { s.clock with mt := max (now s) t, ptp := 1 } ∧
    (Room s 1 → Posted s u [{ code := 0x0031, params := [1] }])) ∧
  (∀ s t ptp, s.ctl.modState = .starting → s.ctl.step = 8 → linkUp s .host = true → Answers (.ptpLock t ptp) s fun u =>
    u.clock = { s.clock with mt := ptp, ptp := 1 } ∧ u.ctl = { s.ctl with modState := .ready, step := 9 }) ∧
  (∀ s t mv, isReady s = true → 40000 ≤ mv → mv < 44000 → Answers (.supplyLow t mv) s fun u =>
    u.pwr = { s.pwr with supplyMv := mv, low := true } ∧
    (Room s 1 → Posted s u [{ code := 0x0023, params := [mv] }])) ∧
  (∀ s t mv, isReady s = true → s.pwr.low = true → 44000 ≤ mv → mv ≤ 56000 → Answers (.supplyLowEnd t mv) s fun u =>
    u.pwr = { s.pwr with supplyMv := mv, low := false } ∧
    (Room s 1 → Posted s u [{ code := 0x0023, fin := true, params := [mv] }])) ∧
  (∀ s t mv, mv < 40000 ∨ 58000 < mv → Answers (.supplyOutOfRange t mv) s fun u =>
    u.ctl.down = true ∧ u.ctl.powered = false ∧ u.ctl.modState = .starting ∧ u.disp = State.reset.disp ∧ u.pdk = State.reset.pdk ∧
    u.reins = State.reset.reins ∧ u.hbm = State.reset.hbm ∧ u.clu = State.reset.clu ∧ u.host.sessions = [] ∧
    u.host.owner = none ∧ u.host.sent = s.host.sent ∧ u.flash.slotA = s.flash.slotA ∧ u.flash.slotB = s.flash.slotB ∧
    u.flash.image = s.flash.image ∧ u.flash.repair = s.flash.repair ∧ u.flash.retired = s.flash.retired) ∧
  (∀ s t, s.ctl.powered = true → Answers (.referenceClockFail t) s fun u =>
    u.ctl.down = true ∧ u.ctl.powered = false ∧ u.disp = State.reset.disp ∧ u.pdk = State.reset.pdk ∧ u.host.sent = s.host.sent) ∧
  (∀ s t mv, s.ctl.down = true → 44000 ≤ mv → mv ≤ 56000 → Answers (.supplyRestored t mv) s fun u =>
    u.ctl = State.reset.ctl ∧ u.clock = State.reset.clock ∧ u.pwr = { s.pwr with supplyMv := mv } ∧ u.flash = s.flash)

/-- A frame shorter than 64 or longer than 9,216 bytes, with a bad check sequence, or not for the module's address or
VLAN is counted in the matching drop counter and changes nothing else of the port. Requests for the module's own
addresses are answered while fewer than 10,000 answers were sent in the last second. An ARP reply puts its sender in
front of a next-hop table of at most 256 entries; an entry 60 s old may be refreshed by a request. -/
def Obligations.HostLinkFrames : Prop :=
  (∀ s t f, linkUp s .host = true →
    ((f.len < 64 ∨ 9216 < f.len) → Answers (.hostFrameDiscard t f false) s fun u =>
      u.host = { s.host with ctr := { s.host.ctr with dropLen := cap32 (s.host.ctr.dropLen + 1) } }) ∧
    (64 ≤ f.len → f.len ≤ 9216 → f.fcsGood = false → Answers (.hostFrameDiscard t f false) s fun u =>
      u.host = { s.host with ctr := { s.host.ctr with dropFcs := cap32 (s.host.ctr.dropFcs + 1) } }) ∧
    (64 ≤ f.len → f.len ≤ 9216 → f.fcsGood = true →
      (f.dst = 3 ∨ f.pause = true ∨ (cfgHostVlan s = 0 ∧ f.vlan.isSome = true) ∨ (cfgHostVlan s ≠ 0 ∧ f.vlan ≠ some (cfgHostVlan s))) →
      Answers (.hostFrameDiscard t f false) s fun u =>
        u.host = { s.host with ctr := { s.host.ctr with dropAddr := cap32 (s.host.ctr.dropAddr + 1) } })) ∧
  (∀ s t sip smac, linkUp s .host = true → ipv4On s = true → replyAllowed (atMt s t) = true →
    Answers (.arpRequest t (cfgIpv4 s) sip smac) s fun u =>
      u.host = { s.host with
        sent := .arpReply (now u) (cfgIpv4 s) sip smac :: s.host.sent
        replyTimes := now u :: s.host.replyTimes.filter (fun x => decide (now u < x + 2500000000))
        ctr := { s.host.ctr with rxFrames := cap32 (s.host.ctr.rxFrames + 1), txFrames := cap32 (s.host.ctr.txFrames + 1) } }) ∧
  (∀ s t target sip smac, linkUp s .host = true → ipv6On s = true → (target = cfgIpv6 s ∨ target = linkLocal s) →
    replyAllowed (atMt s t) = true → Answers (.neighborSolicitation t target sip smac) s fun u =>
      u.host = { s.host with
        sent := .neighborAdvert (now u) target (sip ++ smac) :: s.host.sent
        replyTimes := now u :: s.host.replyTimes.filter (fun x => decide (now u < x + 2500000000))
        ctr := { s.host.ctr with rxFrames := cap32 (s.host.ctr.rxFrames + 1), txFrames := cap32 (s.host.ctr.txFrames + 1) } }) ∧
  (∀ s t dst src l, linkUp s .host = true → ownIp s dst = true → replyAllowed (atMt s t) = true →
    Answers (.echoRequest t dst src l) s fun u =>
      u.host = { s.host with
        sent := .echoReply (now u) dst src l :: s.host.sent
        replyTimes := now u :: s.host.replyTimes.filter (fun x => decide (now u < x + 2500000000))
        ctr := { s.host.ctr with rxFrames := cap32 (s.host.ctr.rxFrames + 1), txFrames := cap32 (s.host.ctr.txFrames + 1) } }) ∧
  (∀ s t ip mac, linkUp s .host = true → Answers (.arpReply t ip mac) s fun u =>
      u.host = { s.host with
        nextHops := (ip, mac, now u) :: (s.host.nextHops.filter fun e => e.1 != ip).take 255
        ctr := { s.host.ctr with rxFrames := cap32 (s.host.ctr.rxFrames + 1) } }) ∧
  (∀ s t ip mac m, linkUp s .host = true → s.host.nextHops.find? (fun e => e.1 == ip) = some (ip, mac, m) →
    m + 150000000000 ≤ max (now s) t → Answers (.nextHopRefresh t ip) s fun u =>
      u.host = { s.host with
        sent := .arpRequest (now u) ip :: s.host.sent
        ctr := { s.host.ctr with txFrames := cap32 (s.host.ctr.txFrames + 1) } })

/-- Loss of the active path with a trained standby makes the standby active and keeps sessions and PTP lock; without
one the port is down and a locked clock goes to holdover. A retrained other path becomes the trained standby. A path
switch exchanges the two. Loss of the standby leaves none. Each change posts its events. -/
def Obligations.HostPaths : Prop :=
  (∀ s t, linkUp s .host = true → s.host.standby = 2 → Answers (.hostPathLoss t s.host.active) s fun u =>
      u.host.active = 1 - s.host.active ∧ u.host.standby = 1 ∧ u.host.lostSeen = true ∧ u.host.down = s.host.down ∧
      u.host.sessions = s.host.sessions ∧ u.clock.ptp = s.clock.ptp ∧
      (Room s 3 → Posted s u [{ code := 0x0001, mech := 0x10, res := resNone, params := [s.host.active] },
        { code := 0x0040, params := [0, s.host.active] }, { code := 0x0040, params := [1, 1 - s.host.active] }])) ∧
  (∀ s t, linkUp s .host = true → s.host.standby ≠ 2 → Answers (.hostPathLoss t s.host.active) s fun u =>
      u.host = { s.host with lostSeen := true, down := true } ∧ (s.clock.ptp = 1 → u.clock.ptp = 2)) ∧
  (∀ s t path, s.ctl.powered = true → path ≤ 1 → s.ctl.modState ≠ .haltedConfig → s.host.down = false → path ≠ s.host.active →
    s.host.standby ≠ 2 → Answers (.hostPathRetrain t path) s fun u =>
      u.host = { s.host with standby := 2 } ∧ (Room s 1 → Posted s u [{ code := 0x0040, params := [2, path] }])) ∧
  (∀ s t v, bit v 7 = true → s.host.standby = 2 → s.host.down = false → Answers (.hostPathSwitch t v) s fun u =>
      u.host.active = 1 - s.host.active ∧ u.host.standby = 2 ∧ u.host.sessions = s.host.sessions ∧
      (Room s 1 → Posted s u [{ code := 0x0040, params := [1, 1 - s.host.active] }])) ∧
  (∀ s t, s.ctl.powered = true → s.host.standby ≠ 0 → Answers (.standbyPathLoss t) s fun u =>
      u.host = { s.host with standby := 0 } ∧
      (Room s 2 → Posted s u [{ code := 0x0001, mech := 0x10, res := resNone, params := [1 - s.host.active] },
        { code := 0x0040, params := [0, 1 - s.host.active] }]))

/-- A serving ACTIVE cluster idle for 64 group-clock cycles gates; a GATED one not held for CFG_SLEEP_AFTER sleeps; a
cluster whose wake is due becomes ACTIVE with its group's PLL running; a PLL stops once every cluster of its group has
been ASLEEP or OFF for CFG_SLEEP_AFTER with none waking. No other cluster or group changes. -/
def Obligations.ClusterPowerStates : Prop :=
  (∀ s t p c, getClu s p = c → p < 544 → c.role = .serving → c.power = .active → cluBusy c = false →
    64 ≤ cyclesIn (getGroup s (groupOf p)) (max (now s) t - c.idleSince) → Answers (.clusterGate t p) s fun u =>
      getClu u p = { c with power := .gated, idleSince := now u, activeSince := now u,
                            activeCyc := cap32 (c.activeCyc + cyclesIn (getGroup s (groupOf p)) (now u - c.activeSince)) } ∧
      (∀ q, q ≠ p → getClu u q = getClu s q)) ∧
  (∀ s t p c, getClu s p = c → p < 544 → c.power = .gated → c.wakeDue = none → physHeld s p = false →
    c.idleSince + cfgSleepAfter s ≤ max (now s) t → Answers (.clusterSleep t p) s fun u =>
      getClu u p = { c with power := .asleep, idleSince := now u } ∧ (∀ q, q ≠ p → getClu u q = getClu s q) ∧
      getGroup u (groupOf p) = { getGroup s (groupOf p) with idleSince := now u }) ∧
  (∀ s t p c d, getClu s p = c → p < 544 → c.power ≠ .active → c.halter = false → c.wakeDue = some d → d ≤ max (now s) t →
    Answers (.clusterWake t p .wake) s fun u =>
      (getClu u p).power = .active ∧ (getClu u p).wakeDue = none ∧ (getClu u p).idleSince = now u ∧
      (getClu u p).activeSince = now u ∧ (getGroup u (groupOf p)).pllOn = true ∧ (∀ q, q ≠ p → getClu u q = getClu s q)) ∧
  (∀ s t g, g < 32 → (getGroup s g).pllOn = true →
    (∀ p, 17 * g ≤ p → p < 17 * g + 17 → ((getClu s p).power = .asleep ∨ (getClu s p).power = .off) ∧ (getClu s p).wakeDue = none) →
    (getGroup s g).idleSince + cfgSleepAfter s ≤ max (now s) t → Answers (.groupPllStop t g) s fun u =>
      getGroup u g = { getGroup s g with pllOn := false } ∧ (∀ h, h ≠ g → getGroup u h = getGroup s h))

/-- R391. At an evaluation of a READY module that no junction holds over its cap, the target becomes one step down
from the step in force when the mean input power exceeds the cap, one step up when the estimate for it is at most 95 %
of the cap, and otherwise the step in force, replacing any pending target. -/
def Obligations.PowerEvaluation : Prop :=
  ∀ s t p, isReady s = true → s.pwr.hot = false → Answers (.powerEvaluation t p) s fun u =>
    u.pwr = { s.pwr with
      inputW := min 4095 p
      capOver := if s.pwr.cap < p then cap32 (s.pwr.capOver + 1) else s.pwr.capOver
      target := if s.pwr.cap < p then min 7 (s.pwr.step + 1)
        else if 0 < s.pwr.step ∧ 100 * estimate s (s.pwr.step - 1) ≤ 95 * s.pwr.cap then s.pwr.step - 1
        else s.pwr.step }

/-- While a junction is hot, an evaluation treats the cap as exceeded. A group no cluster of which is held switches to
the target; when the last group has switched, the step in force becomes the target and the step event is posted with
both steps. A write of the cap outside 1,200 to 3,000 changes nothing. -/
def Obligations.PowerSteps : Prop :=
  (∀ s t p, isReady s = true → s.pwr.hot = true → s.pwr.coolSince = none → Answers (.powerEvaluation t p) s fun u =>
    u.pwr.target = min 7 (s.pwr.step + 1) ∧ u.pwr.hot = true) ∧
  (∀ s t g, isReady s = true → g < 32 → (getGroup s g).step ≠ s.pwr.target → groupHeld s g = false →
    Answers (.groupStepSwitch t g) s fun u =>
      getGroup u g = { getGroup s g with step := s.pwr.target } ∧ (∀ h, h ≠ g → getGroup u h = getGroup s h) ∧
      u.pwr.target = s.pwr.target ∧
      (s.pwr.target ≠ s.pwr.step → (∀ h, h < 32 → h ≠ g → (getGroup s h).step = s.pwr.target) →
        u.pwr.step = s.pwr.target ∧
        (bit s.clu.trace 7 = false → Room s 1 → Posted s u [{ code := 0x0020, params := [s.pwr.step, s.pwr.target] }])) ∧
      (∀ h, h < 32 → h ≠ g → (getGroup s h).step ≠ s.pwr.target → u.pwr.step = s.pwr.step)) ∧
  (∀ s t v, isReady s = true → Answers (.pwrCapWrite t v) s fun u =>
    u.pwr = (if 1200 ≤ bits v 11 0 ∧ bits v 11 0 ≤ 3000 then { s.pwr with cap := bits v 11 0 } else s.pwr))

/-- From 100 °C the power manager is hot; at 104 °C every group of the die stretches its cycles and an event is
posted; from 105 °C the module powers down; below 102 °C the groups of the die stop stretching. A droop marks its
group, counts its stretched cycles and posts an event above 1 % of its cycles; the end of the droop clears the mark.
Only the group named changes. -/
def Obligations.ThermalAndDroop : Prop :=
  (∀ s t die c, isReady s = true → die ≤ 8 → 100 ≤ c → c < 104 → Answers (.thermalLimit t die c) s fun u =>
    u.pwr.hot = true ∧ u.pwr.coolSince = none ∧ u.pwr.groups = s.pwr.groups ∧ tblGet 0 u.pwr.temp die = c ∧
    tblGet 0 u.pwr.peak die = max (tblGet 0 s.pwr.peak die) c ∧ u.pdk = s.pdk) ∧
  (∀ s t die, isReady s = true → die < 4 → (∃ g, 8 * die ≤ g ∧ g < 8 * die + 8 ∧ (getGroup s g).thermal = false) →
    Answers (.thermalLimit t die 104) s fun u =>
      u.pwr.hot = true ∧ (∀ g, 8 * die ≤ g → g < 8 * die + 8 → (getGroup u g).thermal = true ∧ (getGroup u g).thermalSince = now u) ∧
      (∀ g, g < 8 * die ∨ 8 * die + 8 ≤ g → getGroup u g = getGroup s g) ∧
      (Room s 1 → Posted s u [{ code := 0x0022, params := [die, 104] }])) ∧
  (∀ s t die c, isReady s = true → die ≤ 8 → 105 ≤ c → Answers (.thermalLimit t die c) s fun u =>
    u.ctl.down = true ∧ u.ctl.powered = false ∧ u.disp = State.reset.disp ∧ u.pdk = State.reset.pdk ∧ u.host.sent = s.host.sent) ∧
  (∀ s t die c, isReady s = true → die < 4 → c < 102 → (∃ g, 8 * die ≤ g ∧ g < 8 * die + 8 ∧ (getGroup s g).thermal = true) →
    Answers (.thermalRecover t die c) s fun u =>
      (∀ g, 8 * die ≤ g → g < 8 * die + 8 → (getGroup u g).thermal = false) ∧
      (∀ g, g < 8 * die ∨ 8 * die + 8 ≤ g → getGroup u g = getGroup s g) ∧
      (Room s 1 → Posted s u [{ code := 0x0022, fin := true, params := [die, c] }])) ∧
  (∀ s t g k n m, isReady s = true → g < 32 → Answers (.droopDetect t g k n m) s fun u =>
    getGroup u g = { getGroup s g with droop := true, stretchCyc := cap32 ((getGroup s g).stretchCyc + k) } ∧
    (∀ h, h ≠ g → getGroup u h = getGroup s h) ∧
    (m < 100 * n → Room s 1 → Posted s u [{ code := 0x0021, params := [g, n] }]) ∧ (100 * n ≤ m → u.pdk = s.pdk)) ∧
  (∀ s t g, g < 32 → Answers (.droopEnd t g) s fun u =>
    getGroup u g = { getGroup s g with droop := false } ∧ (∀ h, h ≠ g → getGroup u h = getGroup s h))

/-- Each operation that its home may apply has the effect and response of the counter table: fetch-add adds modulo
2^32, compare-swap stores on equality, both answering the old value; compare-wait answers at once when satisfied and
is held otherwise; read answers value and epoch. No other counter and no barrier changes; waits that a fetch-add
satisfies leave the table. Under an expected epoch that differs from the counter's, each has no effect and is answered
REFUSED. -/
def Obligations.ReinsCounters : Prop :=
  (∀ s t req ctr a sent e, ctr < 65536 → mayApply (atMt s t) (ctrHome ctr) req sent = true → refusedEpoch s ctr e = false →
    Answers (.fetchAdd t req ctr a sent e) s fun u =>
      getCtr u ctr = { getCtr s ctr with value := (getCtr s ctr).value + BitVec.ofNat 32 a } ∧
      (∀ n, n ≠ ctr → getCtr u n = getCtr s n) ∧ u.reins.barriers = s.reins.barriers ∧
      u.reins.waits = s.reins.waits.filter (fun w => !(w.ctr == ctr && waitHolds w (getCtr u ctr).value)) ∧
      u.reins.responses.getLast? = some { req := req, ctr := ctr, value := some (getCtr s ctr).value.toNat, epoch := none, arrives := responseMt (atMt s t) ctr req sent }) ∧
  (∀ s t req ctr x v sent e, ctr < 65536 → mayApply (atMt s t) (ctrHome ctr) req sent = true → refusedEpoch s ctr e = false →
    Answers (.compareSwap t req ctr x v sent e) s fun u =>
      getCtr u ctr = (if (getCtr s ctr).value.toNat = x % 2 ^ 32 then { getCtr s ctr with value := BitVec.ofNat 32 v } else getCtr s ctr) ∧
      (∀ n, n ≠ ctr → getCtr u n = getCtr s n) ∧ u.reins.barriers = s.reins.barriers ∧
      u.reins.responses.getLast? = some { req := req, ctr := ctr, value := some (getCtr s ctr).value.toNat, epoch := none, arrives := responseMt (atMt s t) ctr req sent }) ∧
  (∀ s t req ctr x sent eq e, ctr < 65536 → mayApply (atMt s t) (ctrHome ctr) req sent = true →
    waitsHeld s (ctrHome ctr) req < waitLimit req → refusedEpoch s ctr e = false → Answers (.compareWait t req ctr x sent eq e) s fun u =>
      u.reins.counters = s.reins.counters ∧
      (if (if eq = true then (getCtr s ctr).value.toNat = x % 2 ^ 32 else x % 2 ^ 32 ≤ (getCtr s ctr).value.toNat) then
        u.reins.waits = s.reins.waits ∧
        u.reins.responses = s.reins.responses ++ [{ req := req, ctr := ctr, value := some (getCtr s ctr).value.toNat, epoch := none, arrives := responseMt (atMt s t) ctr req sent }]
      else
        u.reins.waits = s.reins.waits ++ [{ ctr := ctr, req := req, target := x % 2 ^ 32, equal := eq, epoch := e, ref := none }] ∧
        u.reins.responses = s.reins.responses)) ∧
  (∀ s t req ctr sent e, ctr < 65536 → mayApply (atMt s t) (ctrHome ctr) req sent = true → refusedEpoch s ctr e = false →
    Answers (.counterRead t req ctr sent e) s fun u =>
      u.reins.counters = s.reins.counters ∧ u.reins.waits = s.reins.waits ∧
      u.reins.responses = s.reins.responses ++ [{ req := req, ctr := ctr, value := some (getCtr s ctr).value.toNat, epoch := some (getCtr s ctr).epoch, arrives := responseMt (atMt s t) ctr req sent }]) ∧
  (∀ s t req ctr sent x a y v eq, ctr < 65536 → mayApply (atMt s t) (ctrHome ctr) req sent = true → x < 256 → x ≠ (getCtr s ctr).epoch →
    waitsHeld s (ctrHome ctr) req < waitLimit req →
    ∀ c ∈ [Instr.fetchAdd t req ctr a sent (some x), .compareSwap t req ctr y v sent (some x), .compareWait t req ctr y sent eq (some x), .counterRead t req ctr sent (some x)],
      Answers c s fun u =>
        u.reins.counters = s.reins.counters ∧ u.reins.waits = s.reins.waits ∧ u.reins.barriers = s.reins.barriers ∧
        u.reins.responses = s.reins.responses ++ [{ req := req, ctr := ctr, value := none, epoch := none, arrives := responseMt (atMt s t) ctr req sent }])

/-- The first arrival sets the party count; at the count the generation advances by 1 modulo 256 and arrivals and
parties clear; an arrival with another count changes no barrier. Withdrawing a decided unit's arrivals removes exactly
those and clears the party count when none is left. -/
def Obligations.ReinsBarriers : Prop :=
  (∀ s t req b p sent, b < 4096 → 1 ≤ p → p ≤ 65536 → mayApply (atMt s t) 4 req sent = true →
    ((getBar s b).arrivals = [] ∨ (getBar s b).parties = p) →
    Answers (.barrierArrival t req b p sent) s fun u =>
      getBar u b = (if (getBar s b).arrivals.length + 1 < p then
          { getBar s b with parties := p, arrivals := (getBar s b).arrivals ++ [{ req := req, ref := none }] }
        else { gen := ((getBar s b).gen + 1) % 256, parties := 0, arrivals := [] }) ∧
      (∀ c, c ≠ b → getBar u c = getBar s c) ∧ u.reins.counters = s.reins.counters ∧ u.reins.waits = s.reins.waits) ∧
  (∀ s t req b p sent, b < 4096 → 1 ≤ p → p ≤ 65536 → mayApply (atMt s t) 4 req sent = true →
    (getBar s b).arrivals ≠ [] → (getBar s b).parties ≠ p →
    Answers (.barrierArrival t req b p sent) s fun u => u.reins.barriers = s.reins.barriers ∧ u.disp = s.disp) ∧
  (∀ s t wu x, findUnit s wu = some x → x.decided = true → Answers (.arrivalWithdraw t wu) s fun u =>
    ∀ b, (getBar u b).gen = (getBar s b).gen ∧
      (getBar u b).arrivals = (getBar s b).arrivals.filter (fun a => !(match a.ref with | some r => r.wu == wu | none => false)) ∧
      ((getBar u b).arrivals ≠ [] → (getBar u b).parties = (getBar s b).parties) ∧
      ((getBar s b).arrivals ≠ [] → (getBar u b).arrivals = [] → (getBar u b).parties = 0))

/-- A counter command on an owner's counter sets its value, advances its epoch and ends the waits on it; on a work
counter it changes nothing. A plane error is counted, and the seventeenth within the window takes the plane out of the
vote; a resynchronised plane votes again. Counters, barriers and waits are untouched by plane errors. -/
def Obligations.ReinsMaintenance : Prop :=
  (∀ s t v, isReady s = true → s.reins.ctrSel < 0xF000 → Answers (.rnCtrCmd t v) s fun u =>
    getCtr u s.reins.ctrSel = { value := BitVec.ofNat 32 v, epoch := ((getCtr s s.reins.ctrSel).epoch + 1) % 256 } ∧
    (∀ n, n ≠ s.reins.ctrSel → getCtr u n = getCtr s n) ∧ (∀ w ∈ u.reins.waits, w.ctr ≠ s.reins.ctrSel) ∧
    (∀ w ∈ s.reins.waits, w.ctr ≠ s.reins.ctrSel → w ∈ u.reins.waits)) ∧
  (∀ s t v, isReady s = true → 0xF000 ≤ s.reins.ctrSel → Answers (.rnCtrCmd t v) s fun u => u.reins = s.reins) ∧
  (∀ s t r p how, isReady s = true → p < 3 → r < 550 → Answers (.planeError t r p how) s fun u =>
    tblGet 0 u.reins.planeErr p = cap32 (tblGet 0 s.reins.planeErr p + 1) ∧
    u.reins.inVote = (if 16 < (recentErrors (atMt s t) p).length + 1 then s.reins.inVote.filter (· != p) else s.reins.inVote) ∧
    u.reins.counters = s.reins.counters ∧ u.reins.barriers = s.reins.barriers ∧ u.reins.waits = s.reins.waits ∧
    (Room s 1 → Posted s u [{ code := 0x0001, mech := 0x0B, res := receiverRes r, params := [0xFFFF] }])) ∧
  (∀ s t p, s.reins.resync.contains p = true → Answers (.planeResyncDone t p) s fun u =>
    p ∈ u.reins.inVote ∧ p ∉ u.reins.resync ∧ u.reins.counters = s.reins.counters ∧ u.reins.barriers = s.reins.barriers ∧
    u.reins.waits = s.reins.waits)

/-- A packet that fits is appended with its tag and sequence number; one that does not fit opens a GAP marker of count
1 behind the queue. A consumer reads the front item of a cluster inbox, keeping its notice. A flush empties its queue
and posts the flush event with the number of items. No other queue changes. -/
def Obligations.PaddockOperations : Prop :=
  (∀ s t p q src pl, isReady s = true → mayProduce p q src = true → pl.length ≤ 4096 → reqHaltered s src = false →
    pdkFits s p q (cellsOfPayload pl) = true → Answers (.paddockPacketWrite t p q src none pl) s fun u =>
      pdkItems u p q = pdkItems s p q ++ [{ source := src, cells := cellsOfPayload pl, mt := now u, payload := pl,
                                            seq := tblGet 0 s.pdk.seqNext (1024 * p + src) }] ∧
      (∀ i j, qKey i j ≠ qKey p q → pdkItems u i j = pdkItems s i j) ∧ u.pdk.markerSeq = s.pdk.markerSeq) ∧
  (∀ s t p q src wu pl, isReady s = true → mayProduce p q src = true → pl.length ≤ 4096 → reqHaltered s src = false →
    pdkFits s p q (cellsOfPayload pl) = false → waitsForRoom p q src = false → (pdkLimit p q).isSome = true →
    (∀ i ∈ pdkItems s p q, i.marker = false) → Answers (.paddockPacketWrite t p q src wu pl) s fun u =>
      (∃ m, pdkItems u p q = pdkItems s p q ++ [m] ∧ m.kind = 1 ∧ m.marker = true ∧ leAt m.payload 0 4 = 1) ∧
      (∀ i j, qKey i j ≠ qKey p q → pdkItems u i j = pdkItems s i j) ∧ u.pdk.seqNext = s.pdk.seqNext) ∧
  (∀ s t p q it rest, isReady s = true → p < 4 → q ≤ 135 → pdkItems s p q = it :: rest → consumerReady s p q = true →
    it.kind ≠ 1 → it.poison = false → (∃ w, findUnit s it.wuId = some w ∧ w.epoch = it.epoch) →
    Answers (.paddockItemRead t p q 0 false) s fun u =>
      pdkItems u p q = rest ∧ (∀ i j, qKey i j ≠ qKey p q → pdkItems u i j = pdkItems s i j) ∧
      ∀ n, it.notice = some n → (getClu u (136 * p + q)).notices = (getClu s (136 * p + q)).notices ++ [n]) ∧
  (∀ s t v p q, isReady s = true → p = bits v 14 12 → q = bits v 11 0 → mayFlush p q = true →
    Answers (.pdkFlush t v) s fun u =>
      (qKey p q ≠ qKey 4 10 → pdkItems u p q = [] ∧
        (Room s 1 → Posted s u [{ code := 0x0070, params := [p, q, (pdkItems s p q).length] }])) ∧
      (qKey p q = qKey 4 10 → Room s 1 → (pdkItems u 4 10).map (·.payload) =
        [eventCell { code := 0x0070, params := [p, q, (pdkItems s p q).length] } (now u)]))

/-- R294. For every visible queue: when the queue's cells, its marker not counted, plus the packet's would exceed the
limit, or the pool has fewer free cells than the packet needs, the items queued, the marker apart, are exactly those
before. Otherwise the packet is appended whole. No other queue changes. -/
def Obligations.PaddockDrops : Prop :=
  ∀ s p q it lim, pdkLimit p q = some lim →
    ((lim < itemCells (pdkItems s p q) + cellsOfPayload it.payload ∨ poolFree s p < cellsOfPayload it.payload) →
      (pdkItems (pdkPut s p q it) p q).filter (fun i => !i.marker) = (pdkItems s p q).filter (fun i => !i.marker)) ∧
    (itemCells (pdkItems s p q) + cellsOfPayload it.payload ≤ lim → cellsOfPayload it.payload ≤ poolFree s p →
      ∃ i, pdkItems (pdkPut s p q it) p q = pdkItems s p q ++ [i] ∧ i.payload = it.payload ∧ i.cells = cellsOfPayload it.payload) ∧
    (∀ i j, qKey i j ≠ qKey p q → pdkItems (pdkPut s p q it) i j = pdkItems s i j)

/-- A heartbeat renews its sender's time and ends a wake's wait for it. A cluster silent for 300 µs, or for 10 µs
after its wake, is declared failed. A silent die supervisor is lost, and every unit that touched its die gets cause
HW_FAULT. That the timeout may be declared from 300 µs on is the model's reading (log 25). -/
def Obligations.Heartbeats : Prop :=
  (∀ s t w, isReady s = true → beats s w = true → Answers (.heartbeat t w) s fun u =>
    tblGet 0 u.reins.lastBeat (beaterReq w) = now u ∧ (∀ p, w = .cluster p → (getClu u p).wokeAt = none) ∧
    ∀ q, w ≠ .cluster q → getClu u q = getClu s q) ∧
  (∀ s t p, isReady s = true → beats s (.cluster p) = true → tblGet 0 s.reins.lastBeat p + 750000 ≤ max (now s) t →
    (getClu s p).wokeAt = none → Answers (.heartbeatTimeout t (.cluster p)) s fun u => ClusterDown s u p 0x08) ∧
  (∀ s t d, isReady s = true → beats s (.dieSup d) = true → tblGet 0 s.reins.lastBeat (544 + d) + 750000 ≤ max (now s) t →
    Answers (.heartbeatTimeout t (.dieSup d)) s fun u => u.ctl.dieSupLost.contains d = true ∧
      Marked s u (fun w => w.touched.any fun l => l / 128 == d) reasonHwFault (resDie d)) ∧
  (∀ s t p m, isReady s = true → p < 544 → (getClu s p).halter = false → (getClu s p).wokeAt = some m →
    m + 25000 ≤ max (now s) t → Answers (.wakeHeartbeatTimeout t p) s fun u => ClusterDown s u p 0x08)

/-- A declared failure powers the cluster off behind its halter, marks its logical number unserved, and gives exactly
the units that touched it a cause HW_FAULT. A spare that passes its test serves the number with an empty scratchpad;
one that fails is down too. A passed retest makes a cluster a spare again, a failed one leaves it failed with an
event. -/
def Obligations.ClusterFailures : Prop :=
  (∀ s t p mech, isReady s = true → p < 544 → 3 ≤ mech → mech ≤ 0x0A → (getClu s p).halter = false →
    Answers (.clusterFailDeclare t p mech) s fun u => ClusterDown s u p mech) ∧
  (∀ s t g r, s.clu.remounts.find? (fun r => r.l / 16 == g) = some r → (getClu s r.spare).power = .active →
    Answers (.spareTestDone t g true []) s fun u =>
      getLmap u r.l = { p := r.spare, unserved := false, absent := false } ∧
      getClu u r.spare = { getClu s r.spare with role := .serving, halter := false, spad := {} } ∧
      (∀ q, q ≠ r.spare → getClu u q = getClu s q) ∧ (∀ x ∈ u.clu.remounts, x.l ≠ r.l)) ∧
  (∀ s t g r rows, s.clu.remounts.find? (fun r => r.l / 16 == g) = some r → (getClu s r.spare).power = .active →
    (getClu s r.spare).halter = false → Answers (.spareTestDone t g false rows) s fun u => ClusterDown s u r.spare 0x1A) ∧
  (∀ s t p, (getClu s p).role = .failedRetest → (∀ l, (getLmap s l).absent = false) → Answers (.retest t p true []) s fun u =>
    getClu u p = { getClu s p with role := .spare, halter := false, power := .off } ∧
    ∀ q, q ≠ p → getClu u q = getClu s q) ∧
  (∀ s t p rows, (getClu s p).role = .failedRetest → Answers (.retest t p false rows) s fun u =>
    getClu u p = { getClu s p with role := .failed } ∧ (∀ q, q ≠ p → getClu u q = getClu s q) ∧
    (Room s 1 → Posted s u [{ code := 0x0001, mech := 0x19, res := resNone, params := [p] }]))

/-- A passed visit leaves the cluster ACTIVE and answers a request for it; an interrupted visit of a spare leaves it
OFF and changes no other cluster; a failed visit takes the cluster down with mechanism 0x19. A debug request in
developer mode names the next visit; it lapses after 10 s. -/
def Obligations.YarrowVisits : Prop :=
  (∀ s t p, mayVisit (atMt s t) p = true → (getClu s p).role = .serving → Answers (.yarrowVisit t p .passed) s fun u =>
    (getClu u p).power = .active ∧ (∀ q, q ≠ p → getClu u q = getClu s q) ∧
    (s.clu.yarrowResult = 1 → s.clu.yarrowReq = p → u.clu.yarrowResult = 2) ∧
    (s.clu.yarrowResult ≠ 1 → u.clu.yarrowResult = s.clu.yarrowResult) ∧ u.clu.yarrowFails = s.clu.yarrowFails) ∧
  (∀ s t p, mayVisit (atMt s t) p = true → (getClu s p).role = .spare → Answers (.yarrowVisit t p .interrupted) s fun u =>
    (getClu u p).power = .off ∧ (∀ q, q ≠ p → getClu u q = getClu s q) ∧ u.clu = s.clu) ∧
  (∀ s t p, mayVisit (atMt s t) p = true → Answers (.yarrowVisit t p .failed) s fun u =>
    (getClu u p).power = .off ∧ (getClu u p).halter = true ∧ (getClu u p).lastMech = 0x19 ∧
    (getClu u p).fails = (getClu s p).fails + 1 ∧ u.clu.yarrowFails = min 65535 (s.clu.yarrowFails + 1) ∧
    (∀ l, logicalOf s p = some l → served u l = false)) ∧
  (∀ s t v, isReady s = true → cfgDevMode s = true → bit v 31 = true → bits v 9 0 < 544 → s.clu.yarrowResult ≠ 1 →
    Answers (.dbgYarrowCmd t v) s fun u =>
      u.clu = { s.clu with yarrowReq := bits v 9 0, yarrowResult := 1, yarrowAt := now u }) ∧
  (∀ s t, s.clu.yarrowResult = 1 → s.clu.yarrowAt + 25000000000 ≤ max (now s) t → Answers (.yarrowRequestCancel t) s fun u =>
    u.clu = { s.clu with yarrowResult := 0 })

/-- An outvoted module core gives way to the hot spare; an outvoted die core leaves its vote, or with two members the
die supervisor is lost. A resynchronised core votes again or becomes the spare. A lost die supervisor discards the
units that touched its die and reduces capacity until it is reloaded. A mismatch of dispatcher or tile walker restarts
the dispatcher and discards every unit in flight; one of the transport or cipher unit only posts the fault. -/
def Obligations.Supervisors : Prop :=
  (∀ s t c x, s.ctl.powered = true → s.ctl.modVote.contains c = true → 3 ≤ s.ctl.modVote.length → s.ctl.modSpare = some x →
    Answers (.supervisorVoteMismatch t .module c) s fun u =>
      u.ctl = { s.ctl with modVote := s.ctl.modVote.filter (· != c) ++ [x], modSpare := none } ∧
      (Room s 1 → Posted s u [{ code := 0x0001, mech := 0x16, res := resModule, params := [0xFFFF] }])) ∧
  (∀ s t d c, s.ctl.powered = true → d < 4 → (dieMembers s d).contains c = true → s.ctl.dieSupLost.contains d = false →
    Answers (.supervisorVoteMismatch t (.die d) c) s fun u =>
      (2 < (dieMembers s d).length → dieMembers u d = (dieMembers s d).filter (· != c) ∧ u.ctl.dieSupLost = s.ctl.dieSupLost) ∧
      ((dieMembers s d).length ≤ 2 → u.ctl.dieSupLost.contains d = true ∧
        Marked s u (fun w => w.touched.any fun l => l / 128 == d) reasonHwFault (resDie d))) ∧
  (∀ s t c, s.ctl.powered = true → s.ctl.failedCores.contains 4 = false → idleCore s = some c →
    Answers (.supervisorResyncDone t .module) s fun u =>
      u.ctl = if s.ctl.modVote.length < 3 then { s.ctl with modVote := s.ctl.modVote ++ [c] } else { s.ctl with modSpare := some c }) ∧
  (∀ s t d, s.ctl.powered = true → d < 4 → s.ctl.failedCores.contains d = false → s.ctl.dieSupLost.contains d = false →
    Answers (.supervisorResyncDone t (.die d)) s fun u => u.ctl = { s.ctl with dieVote := tblErase s.ctl.dieVote d }) ∧
  (∀ s t d, s.ctl.powered = true → d < 4 → s.ctl.dieSupLost.contains d = false → Answers (.dieSupervisorLoss t d) s fun u =>
    u.ctl = { s.ctl with dieSupLost := addOnce s.ctl.dieSupLost d } ∧
    Marked s u (fun w => w.touched.any fun l => l / 128 == d) reasonHwFault (resDie d) ∧
    (u.flt.capacity.any fun c => c.1 == 4 && c.2.1 == resDie d) = true) ∧
  (∀ s t d, s.ctl.dieSupLost.contains d = true → Answers (.dieSupervisorReloadDone t d) s fun u =>
    u.ctl.dieSupLost = s.ctl.dieSupLost.filter (· != d) ∧ tblGet 0 u.reins.lastBeat (544 + d) = now u ∧
    (u.flt.capacity.any fun c => c.1 == 4 && c.2.1 == resDie d) = false) ∧
  (∀ s t x, isReady s = true → (x = .dispatcher ∨ x = .tileWalker) → Answers (.xUnitMismatch t x) s fun u =>
    u.disp.restarting = true ∧ Marked s u (fun _ => true) reasonHwFault resModule ∧
    (u.flt.capacity.any fun c => c.1 == 5 && c.2.1 == resModule) = true) ∧
  (∀ s t x, isReady s = true → (x = .transport ∨ x = .crypto) → Answers (.xUnitMismatch t x) s fun u =>
    u.disp = s.disp ∧ u.host = s.host ∧
    (Room s 1 → Posted s u [{ code := 0x0001, mech := 0x18, res := resModule, params := [0xFFFF] }])) ∧
  (∀ s t, s.disp.restarting = true → Answers (.dispatcherRestartDone t) s fun u =>
    u.disp = { s.disp with restarting := false } ∧ (u.flt.capacity.any fun c => c.1 == 5 && c.2.1 == resModule) = false)

/-- A failed regulator phase, a flit retried, and a die-link lane that fails are counted and posted as faults and
change no unit; a link with 16 or more retries within 1 ms counts as dead; a failed lane also posts the spare in use
while a spare is left. Loss of lock of a die's NoC PLL gives exactly the units that touched the die a cause HW_FAULT.
-/
def Obligations.MaskedFaults : Prop :=
  (∀ s t rail, s.ctl.powered = true → Answers (.regulatorPhaseFail t rail) s fun u =>
    u.flt.phases = addOnce s.flt.phases rail ∧ u.disp = s.disp ∧ u.clu = s.clu ∧ u.pwr = s.pwr ∧
    (Room s 1 → Posted s u [{ code := 0x0001, mech := 0x15, res := resNone, params := [0xFFFF] }])) ∧
  (∀ s t d l k m, s.ctl.powered = true → d < 4 → l < 256 → k = 256 * d + l →
    m = ((tblGet [] s.flt.nocRetries k).filter fun x => decide (max (now s) t < x + 2500000)).length →
    Answers (.nocFlitCrcFail t d l) s fun u =>
      u.flt.nocDead = (if 16 ≤ m then addOnce s.flt.nocDead k else s.flt.nocDead) ∧ u.disp = s.disp ∧ u.clu = s.clu ∧
      (Room s 1 → Posted s u [{ code := 0x0001, mech := 0x0C, res := resDie d, params := [0xFFFF] }])) ∧
  (∀ s t pair un lane n, s.ctl.powered = true → un < 4096 → n = tblGet 0 s.flt.dieLanes (4096 * pair + un) →
    Answers (.dieLaneFail t pair un lane) s fun u =>
      tblGet 0 u.flt.dieLanes (4096 * pair + un) = n + 1 ∧ u.disp = s.disp ∧
      (Room s 2 → Posted s u ({ code := 0x0001, mech := 0x0D, res := resNone, params := [lane] } ::
        if n < 4 then [{ code := 0x0042, params := [pair, lane] }] else []))) ∧
  (∀ s t d, s.ctl.powered = true → d < 4 → Answers (.pllLockLoss t (.noc d)) s fun u =>
    Marked s u (fun w => w.touched.any fun l => l / 128 == d) reasonHwFault (resDie d) ∧ u.clu = s.clu ∧
    (Room s 1 → Posted s u [{ code := 0x0001, mech := 0x14, res := resDie d, params := [0xFFFF] }]))

/-- A CLAIM accepted while no owner holds the bridle and no election runs opens one of 200 ms with its claimant; while
an owner holds it, the claimant gets a NACK naming the owner. When the election closes, the first claimant by priority
and order whose session is still open becomes owner with a lease of 2 s and, if alone, gets its GRANT. -/
def Obligations.BridleElections : Prop :=
  (∀ s t d se, HostAccepts (atMt s t) d 0x01 se → plainBody se d = [] → s.host.election = none →
    (∀ o, s.host.owner = some o → isOwner (atMt s t) o.1 o.2 = false) → Answers (.claim t d) s fun u =>
      u.host.election = some { closeAt := now u + 500000000, entrants := [(se.num, se.gen, se.key, d.seq)] } ∧
      u.host.owner = s.host.owner ∧ u.host.leaseEnd = s.host.leaseEnd) ∧
  (∀ s t d se o, HostAccepts (atMt s t) d 0x01 se → plainBody se d = [] → s.host.owner = some o →
    isOwner (atMt s t) o.1 o.2 = true → FreshSeq se → Answers (.claim t d) s fun u =>
      u.host.election = s.host.election ∧ u.host.owner = some o ∧ u.host.leaseEnd = s.host.leaseEnd ∧
      Queued u se.num 0x61 (nackBody d.seq 0x01 7 0 0 o.1)) ∧
  (∀ s t e w rest se, s.host.election = some e → e.closeAt ≤ max (now s) t →
    sortBy (entrantFirst s) (e.entrants.filter fun x => s.host.sessions.any fun y => y.num == x.1 && y.gen == x.2.1) = w :: rest →
    findSess s .host w.1 = some se → FreshSeq se → Answers (.electionClose t) s fun u =>
      u.host.election = none ∧ u.host.owner = some (se.num, se.gen) ∧ u.host.leaseEnd = now u + 5000000000 ∧
      (rest = [] → Queued u se.num 0x02 (grantBody se 0 (now u))))

/-- The owner's LEASE sets the lease end 2 s ahead and is answered by a GRANT. A lease that has ended leaves the
bridle vacant with an event and closes no session. A RELEASE of 0xFF leaves it vacant; one naming another open session
makes that session owner with a fresh lease. -/
def Obligations.BridleLease : Prop :=
  (∀ s t d se, HostAccepts (atMt s t) d 0x04 se → plainBody se d = [] → isOwner (atMt s t) se.num se.gen = true → FreshSeq se →
    Answers (.leaseRenew t d) s fun u =>
      u.host.owner = some (se.num, se.gen) ∧ u.host.leaseEnd = now u + 5000000000 ∧ Queued u se.num 0x02 (grantBody se 1 (now u))) ∧
  (∀ s t o, s.host.owner = some o → s.host.leaseEnd < max (now s) t → Answers (.leaseExpiry t) s fun u =>
    u.host.owner = none ∧ u.host.leaseEnd = s.host.leaseEnd ∧ u.host.sessions.map (·.num) = s.host.sessions.map (·.num) ∧
    (Room s 1 → Posted s u [{ code := 0x0050, params := [o.1] }])) ∧
  (∀ s t d se, HostAccepts (atMt s t) d 0x03 se → plainBody se d = [0xFF, 0, 0, 0, 0, 0, 0, 0] → isOwner (atMt s t) se.num se.gen = true →
    Answers (.release t d) s fun u => u.host.owner = none) ∧
  (∀ s t d se x b, HostAccepts (atMt s t) d 0x03 se → plainBody se d = [b, 0, 0, 0, 0, 0, 0, 0] → b ≠ 0xFF → b.toNat ≠ se.num →
    isOwner (atMt s t) se.num se.gen = true → findSess s .host b.toNat = some x → Answers (.release t d) s fun u =>
      u.host.owner = some (x.num, x.gen) ∧ u.host.leaseEnd = now u + 5000000000)

/-- A valid HELLO adds a fresh nonce to at most 256 and sends the bundle in 8,192-byte parts. A valid ENCAP consumes
its nonce and, when the signature over the transcript holds, opens one session under a new generation with the four
keys derived from the decapsulated secret; otherwise no session opens. CLOSE, or 5 s without an accepted message,
removes the session and, if it owned it, frees the bridle. Signatures, key exchange and hashes are opaque functions
(log 6). -/
def Obligations.HostSessions : Prop :=
  (∀ s t d nonce, linkUp s .host = true → openCheck (atMt s t) .host d 0x70 = 0 → isReady s = true →
    keyInitOk d 0 36 = true → keyValid s (leAt d.body 1 1) = true →
    (s.host.helloTimes.filter fun x => decide (max (now s) t < x + 2500000000)).length < 1000 →
    Answers (.keyInitHello t d nonce) s fun u =>
      u.host.nonces = (nonce, now u) :: (freshNonces (now u) s.host.nonces).take 255 ∧ u.host.sessions = s.host.sessions ∧
      u.host.sent.length = s.host.sent.length + max 1 (ceilDiv (bundleBytes s).length 8192)) ∧
  (∀ s t d ki tr, linkUp s .host = true → openCheck (atMt s t) .host d 0x70 = 0 → isReady s = true →
    keyInitOk d 1 4465 = true → ki = leAt d.body 1 1 → keyValid s ki = true →
    ((freshNonces (max (now s) t) s.host.nonces).any fun e => e.1 == (d.body.drop 36).take 32) = true →
    (∀ x ∈ s.host.sessions, x.key ≠ ki) → s.host.sessions.length < 64 → (freeNumber s).isSome = true →
    tr = transcript s ((d.body.drop 4).take 32) ((d.body.drop 36).take 32) ki (leAt d.body 2 1) ((d.body.drop 68).take 1088) →
    Answers (.keyInitEncap t d) s fun u =>
      u.host.nonces = s.host.nonces.filter (fun e => e.1 != (d.body.drop 36).take 32) ∧
      if Config.mlDsaVerify (keyPublic s ki) tr ((d.body.drop 1156).take 3309) "IMP-KEY_INIT" = true then
        u.host.genCount = (s.host.genCount + 1) % 2 ^ 32 ∧ some u.host.lastNum = freeNumber s ∧
        ∃ x, findSess u .host u.host.lastNum = some x ∧ x.key = ki ∧ x.gen = u.host.genCount ∧ x.enc = (leAt d.body 2 1 == 1) ∧
          ∀ k, k = deriveKeys (Config.mlKemDecap s.sec.kemSeed ((d.body.drop 68).take 1088)) tr →
            x.tagRx = k.take 32 ∧ x.tagTx = (k.drop 32).take 32 ∧ x.encRx = (k.drop 64).take 32 ∧ x.encTx = (k.drop 96).take 32
      else u.host.sessions = s.host.sessions ∧ u.host.genCount = s.host.genCount) ∧
  (∀ s t d se, LinkAccepts (atMt s t) .host d 0x70 se → leAt (plainBody se d) 0 1 = 2 → Answers (.keyInitClose t d) s fun u =>
    (∀ x ∈ u.host.sessions, x.num ≠ se.num) ∧ (s.host.owner = some (se.num, se.gen) → u.host.owner = none)) ∧
  (∀ s t n se, findSess s .host n = some se → se.lastRx + 12500000000 ≤ max (now s) t → Answers (.sessionIdleTimeout t n) s fun u =>
    (∀ x ∈ u.host.sessions, x.num ≠ n) ∧ (s.host.owner = some (se.num, se.gen) → u.host.owner = none))

/-- An ACK removes from the session exactly the sent messages it reports. A PING request is answered by one response
that carries its body. A message unacknowledged past its timeout is sent once more with the timeout doubled up to 2
ms. One past its age limit is given up; a notice so given up by a session that is not the owner's returns to be sent
to the owner. -/
def Obligations.SessionTraffic : Prop :=
  (∀ s t lk d se, LinkAccepts (atMt s t) lk d 0x60 se → Answers (.ack t lk d) s fun u =>
    ∃ y, findSess u lk se.num = some y ∧ y.held.map (·.seq) =
      (se.held.filter fun h => !(decide (h.tries ≠ 0) && ackReports (plainBody se d) h.seq)).map (·.seq)) ∧
  (∀ s t lk d se, LinkAccepts (atMt s t) lk d 0x7F se → d.response = false → (plainBody se d).length = 8 →
    Answers (.ping t lk d) s fun u =>
      ∃ low mt x b tag, u.host.sent = .imp (now u) lk se.num se.gen 0x7F se.enc false true 0 low mt x b tag :: s.host.sent ∧
        (se.enc = false → b = plainBody se d)) ∧
  (∀ s t lk n q se h, findSess s lk n = some se → (se.held.find? fun h => h.seq == q && h.tries != 0) = some h →
    linkUp s lk = true → h.lastTx + h.timeout ≤ max (now s) t → Answers (.retransmitTimeout t lk n q) s fun u =>
      (∃ y, findSess u lk n = some y ∧ y.held = se.held.map fun x => if x.seq = q then
        { h with lastTx := now u, timeout := min 5000000 (2 * h.timeout), tries := h.tries + 1 } else x) ∧
      u.host.sent.length = s.host.sent.length + 1) ∧
  (∀ s t lk n q se h, findSess s lk n = some se → (se.held.find? fun h => h.seq == q && h.tries != 0) = some h →
    h.firstTx + ageLimit lk ≤ max (now s) t → (∀ i, h.notice = some i → isOwner (atMt s t) se.num se.gen = false) →
    Answers (.messageAbandon t lk n q) s fun u =>
      (∃ y, findSess u lk n = some y ∧ y.held.map (·.seq) = (se.held.filter fun x => x.seq != q).map (·.seq)) ∧
      u.host.returned = s.host.returned ++ h.notice.toList)

/-- With an owner, a link that is up and room among the session's 4,096 held messages, the front item of an owner's
queue leaves it as a message of its type and body on the owner's session; a notice that was returned goes first and
the queue is left alone. -/
def Obligations.NoticesToOwner : Prop :=
  (∀ s t p q n g se it rest, s.host.owner = some (n, g) → findSess s .host n = some se → isOwner (atMt s t) n g = true →
    ownerQueue p q = true → linkUp s .host = true → se.held.length < 4096 → FreshSeq se →
    (s.host.returned.find? fun x => x.1 == qKey p q) = none → pdkItems s p q = it :: rest → Answers (.noticeSend t p q) s fun u =>
      pdkItems u p q = rest ∧ (∀ i j, qKey i j ≠ qKey p q → pdkItems u i j = pdkItems s i j) ∧
      Queued u n (noticeType p q it) (noticeBody p q it)) ∧
  (∀ s t p q n g se it, s.host.owner = some (n, g) → findSess s .host n = some se → isOwner (atMt s t) n g = true →
    ownerQueue p q = true → linkUp s .host = true → se.held.length < 4096 → FreshSeq se →
    (s.host.returned.find? fun x => x.1 == qKey p q) = some it → Answers (.noticeSend t p q) s fun u =>
      u.pdk = s.pdk ∧ u.host.returned = s.host.returned.erase it ∧
      Queued u n (noticeType p q it.2) (noticeBody p q it.2))

/-- An accepted SUBMIT of the owner puts its chain at the back of its class's queue, records the unit with the next
arrival number and passes its arrival to the meter; a refused identifier is answered by a NACK with its detail and
changes neither the units nor the queues. An ABORT of a unit in flight under its epoch gives exactly that unit a cause
OWNER_ABORT. LEASE, RELEASE, SUBMIT and ABORT of another session are answered NACK RIGHTS without effect. -/
def Obligations.UnitRequests : Prop :=
  (∀ s t d se b, HostAccepts (atMt s t) d 0x10 se → b = plainBody se d → isOwner (atMt s t) se.num se.gen = true →
    lengthRefusal b = none → idRefusal s (hWu b) (hEpoch b) = none → pdkFits s 4 (hClass b) (cellsOfPayload b) = true →
    Answers (.submit t d) s fun u =>
      u.disp.units = s.disp.units ++ [{ wuId := hWu b, epoch := hEpoch b, header := b.take 32, arrival := s.disp.arrivalNext }] ∧
      u.disp.arrivalNext = s.disp.arrivalNext + 1 ∧ u.disp.retired = s.disp.retired.filter (fun e => e.wuId != hWu b) ∧
      (∃ it, pdkItems u 4 (hClass b) = pdkItems s 4 (hClass b) ++ [it] ∧ it.payload = b ∧ it.wuId = hWu b ∧ it.epoch = hEpoch b) ∧
      u.meter.arrivalTap = s.meter.arrivalTap ++ [.submitArrival (hWu b) (hEpoch b) (now u)]) ∧
  (∀ s t d se b r x, HostAccepts (atMt s t) d 0x10 se → b = plainBody se d → isOwner (atMt s t) se.num se.gen = true →
    lengthRefusal b = none → idRefusal s (hWu b) (hEpoch b) = some (r, x) → FreshSeq se → Answers (.submit t d) s fun u =>
      u.disp = s.disp ∧ u.pdk = s.pdk ∧ Queued u se.num 0x61 (nackBody d.seq 0x10 r (hWu b) (hEpoch b) x)) ∧
  (∀ s t d se b x, HostAccepts (atMt s t) d 0x13 se → b = plainBody se d → isOwner (atMt s t) se.num se.gen = true →
    b.length = 8 → leAt b 5 3 = 0 → findUnit s (leAt b 0 4) = some x → x.epoch = leAt b 4 1 → x.decided = false →
    Answers (.abort t d) s fun u => Marked s u (fun w => w.wuId == leAt b 0 4) reasonOwnerAbort resNone ∧ u.pdk = s.pdk) ∧
  (∀ s t d se typ, HostAccepts (atMt s t) d typ se → isOwner (atMt s t) se.num se.gen = false → FreshSeq se →
    (∀ c ∈ [(Instr.leaseRenew t d, 0x04), (.release t d, 0x03)], c.2 = typ → Answers c.1 s fun u =>
      u.host.owner = s.host.owner ∧ u.host.leaseEnd = s.host.leaseEnd ∧ Queued u se.num 0x61 (nackBody d.seq typ 1 0 0 0)) ∧
    (typ = 0x10 → Answers (.submit t d) s fun u => u.disp = s.disp ∧ u.pdk = s.pdk ∧
      Queued u se.num 0x61 (nackBody d.seq typ 1 (hWu (plainBody se d)) (hEpoch (plainBody se d)) 0)) ∧
    (typ = 0x13 → Answers (.abort t d) s fun u => u.disp = s.disp ∧ u.pdk = s.pdk ∧
      Queued u se.num 0x61 (nackBody d.seq typ 1 (leAt (plainBody se d) 0 4) (leAt (plainBody se d) 4 1) 0)))

/-- An owner's MEM_WRITE within one page and frame becomes one pending write of its bytes to the translated address,
memory itself unchanged until it lands. A MEM_READ by the owner, or of a page observers may read, is answered with its
address, length, poison map and bytes; an observer's read of another page is answered NACK with the address. -/
def Obligations.MemoryMessages : Prop :=
  (∀ s t d se b va n pa leaf, HostAccepts (atMt s t) d 0x20 se → b = plainBody se d → isOwner (atMt s t) se.num se.gen = true →
    va = leAt b 0 6 → n = leAt b 8 2 → badRange va n = false → b.length = 16 + n → leAt b 10 6 = 0 →
    va % 2097152 + n ≤ 2097152 → Sys2Proof.Machine.translate s 4 (leAt b 6 2) va = .ok pa leaf → pa % 4096 + n ≤ 4096 →
    Answers (.memWrite t d) s fun u =>
      u.hbm.pending = s.hbm.pending ++ [{ src := 1000, pa := pa, bytes := (b.drop 16).map fun x => (x, false), who := .host se.num se.gen d.seq }] ∧
      u.hbm.data = s.hbm.data ∧ u.hbm.poison = s.hbm.poison) ∧
  (∀ s t d se b va n pa leaf l, HostAccepts (atMt s t) d 0x21 se → b = plainBody se d → va = leAt b 0 6 → n = leAt b 8 2 →
    b.length = 16 → badRange va n = false → leAt b 10 2 = 0 → va % 2097152 + n ≤ 2097152 → Sys2Proof.Machine.translate s 4 (leAt b 6 2) va = .ok pa leaf →
    (isOwner (atMt s t) se.num se.gen = true ∨ bit leaf 4 = true) → FreshSeq se → l = paRead s pa n → Answers (.memRead t d) s fun u =>
      u.hbm.data = s.hbm.data ∧ u.hbm.pending = s.hbm.pending ∧
      Queued u se.num 0x22 (leBytes 6 va ++ leBytes 2 (leAt b 6 2) ++ leBytes 2 n ++ leBytes 2 0 ++ leBytes 4 (leAt b 12 4) ++
        leBytes 16 (poisonMap va l) ++ l.map (·.1))) ∧
  (∀ s t d se b va n pa leaf, HostAccepts (atMt s t) d 0x21 se → b = plainBody se d → va = leAt b 0 6 → n = leAt b 8 2 →
    b.length = 16 → badRange va n = false → leAt b 10 2 = 0 → va % 2097152 + n ≤ 2097152 → Sys2Proof.Machine.translate s 4 (leAt b 6 2) va = .ok pa leaf →
    isOwner (atMt s t) se.num se.gen = false → bit leaf 4 = false → FreshSeq se → Answers (.memRead t d) s fun u =>
      u.hbm = s.hbm ∧ Queued u se.num 0x61 (nackBody d.seq 0x21 6 0 0 va))

/-- A valid MGMT_READ is answered with Module Time and each register's value and changes no register; an invalid
offset is answered by a NACK that names it. The owner's write of the counter selector sets it and nothing else of the
Reins, clusters, power or dispatcher. A write by any other session changes none of these. -/
def Obligations.Management : Prop :=
  (∀ s t d se b off n, HostAccepts (atMt s t) d 0x30 se → b = plainBody se d → mgmtBad b 12 = none → off = leAt b 0 3 →
    n = leAt b 4 2 → firstInvalid s off n = none → FreshSeq se → Answers (.mgmtRead t d) s fun u =>
      u.ctl = s.ctl ∧ u.clu = s.clu ∧ u.reins = s.reins ∧ u.pwr = s.pwr ∧
      Queued u se.num 0x32 (leBytes 4 off ++ leBytes 2 n ++ leBytes 2 0 ++ leBytes 4 (leAt b 8 4) ++ leBytes 4 0 ++ leBytes 8 (now u) ++
        ((numsFrom 0 n).map fun i => leBytes 4 (readReg (receive (atMt s t) .host d 0x30 true false).1 (off + 4 * i))).flatten)) ∧
  (∀ s t d se b off n x, HostAccepts (atMt s t) d 0x30 se → b = plainBody se d → mgmtBad b 12 = none → off = leAt b 0 3 →
    n = leAt b 4 2 → firstInvalid s off n = some x → FreshSeq se → Answers (.mgmtRead t d) s fun u =>
      Queued u se.num 0x61 (nackBody d.seq 0x30 0x0A 0 0 x)) ∧
  (∀ s t d se b, HostAccepts (atMt s t) d 0x31 se → b = plainBody se d → isOwner (atMt s t) se.num se.gen = true →
    mgmtBad b 12 = none → leAt b 4 2 = 1 → leAt b 0 3 = 0x040010 → Answers (.mgmtWrite t d) s fun u =>
      u.reins = { s.reins with ctrSel := bits (leAt b 8 4) 15 0 } ∧ u.clu = s.clu ∧ u.pwr = s.pwr ∧ u.disp = s.disp) ∧
  (∀ s t d se, HostAccepts (atMt s t) d 0x31 se → isOwner (atMt s t) se.num se.gen = false → FreshSeq se → Answers (.mgmtWrite t d) s fun u =>
      u.reins = s.reins ∧ u.clu = s.clu ∧ u.pwr = s.pwr ∧ u.disp = s.disp ∧ u.flt = s.flt ∧ u.ctl = s.ctl)

/-- A write to the Identity block changes nothing. A write to a cluster's stall counter clears the bits it writes as
1, of that cluster only; likewise a stack's corrected-error counter. A write of the job selector sets its 10 bits. In
developer mode a write of the trace register sets its 8 enables. -/
def Obligations.RegisterWrites : Prop :=
  (∀ s t off v, isReady s = true → off < 0x1000 → off % 4 = 0 → Answers (.registerWrite t off v) s fun u =>
    u = { s with clock := u.clock }) ∧
  (∀ s t p v, isReady s = true → p < 544 → Answers (.registerWrite t (0x010008 + 0x40 * p) v) s fun u =>
    getClu u p = { getClu s p with stall := (getClu s p).stall - ((getClu s p).stall &&& v) } ∧ (∀ q, q ≠ p → getClu u q = getClu s q)) ∧
  (∀ s t k v, isReady s = true → k < 20 → Answers (.registerWrite t (0x020004 + 0x400 * k) v) s fun u =>
    tblGet 0 u.hbm.ce k = tblGet 0 s.hbm.ce k - (tblGet 0 s.hbm.ce k &&& v) ∧ (∀ j, j ≠ k → tblGet 0 u.hbm.ce j = tblGet 0 s.hbm.ce j) ∧
    u.hbm.ue = s.hbm.ue ∧ u.hbm.data = s.hbm.data) ∧
  (∀ s t v, isReady s = true → Answers (.registerWrite t 0x001100 v) s fun u => u.disp = { s.disp with jobSel := bits v 9 0 }) ∧
  (∀ s t v, isReady s = true → cfgDevMode s = true → Answers (.registerWrite t 0x0F0000 v) s fun u => u.clu = { s.clu with trace := bits v 7 0 })

/-- A METER_READ of 32 bytes is passed to the metrology die and waits for its answer; with the record link down it is
answered at once as silent. An ATTEST is counted and answered with its report followed by a signature over it. Signing
is an opaque function (log 6). -/
def Obligations.MeterAndAttest : Prop :=
  (∀ s t d se b, HostAccepts (atMt s t) d 0x50 se → b = plainBody se d → b.length = 32 → s.meter.linkOk = true →
    Answers (.meterRead t d) s fun u =>
      u.meter.waiting = s.meter.waiting ++ [(se.num, se.gen, now u)] ∧
      u.meter.arrivalTap = s.meter.arrivalTap ++ [.readRequest (now u) se.num se.gen (isOwner (atMt s t) se.num se.gen) b]) ∧
  (∀ s t d se b, HostAccepts (atMt s t) d 0x50 se → b = plainBody se d → b.length = 32 → s.meter.linkOk = false → FreshSeq se →
    Answers (.meterRead t d) s fun u => u.meter.waiting = s.meter.waiting ∧ Queued u se.num 0x51 (meterEmpty (leAt b 4 4) 2 0)) ∧
  (∀ s t d se b rnd r, HostAccepts (atMt s t) d 0x58 se → b = plainBody se d → b.length = 40 → leAt b 36 4 = 0 → FreshSeq se →
    r = attestReport (atMt s t) se b → Answers (.attest t d rnd) s fun u =>
      u.sec.attests = min 0xFFFF (s.sec.attests + 1) ∧ Queued u se.num 0x59 (r ++ Config.mlDsaSign s.sec.idSeed r "AS2-ATTEST" rnd))

/-- A chosen chain leaves its queue and, when its header and body are valid, gives the unit its descriptors and
tensors; an invalid header gives the unit a cause DESC_INVALID instead. A unit whose layer may start holds its
footprint, each member of which is ACTIVE or waking. -/
def Obligations.ChainsAndLayers : Prop :=
  (∀ s t c it rest x b ds, isReady s = true → s.disp.restarting = false → c < 8 → pdkItems s 4 c = it :: rest → it.kind ≠ 1 →
    (candidates s).length < 4096 → findUnit s it.wuId = some x → x.queued = true → x.epoch = it.epoch → it.poison = false →
    headerOk x.header = true → chainBody s x.header it.payload = .ok b → ds = records 128 (hDescCount x.header) b →
    ds.getLast?.map dOp = some 0x3F → loopsOk ds = true → Answers (.chainChoose t c) s fun u =>
      pdkItems u 4 c = rest ∧ findUnit u it.wuId = some { x with
        queued := false, descs := ds
        tensors := records 64 (hTensorCount x.header) (b.drop (128 * hDescCount x.header)) }) ∧
  (∀ s t c it rest x, isReady s = true → s.disp.restarting = false → c < 8 → pdkItems s 4 c = it :: rest → it.kind ≠ 1 →
    (candidates s).length < 4096 → findUnit s it.wuId = some x → x.queued = true → x.epoch = it.epoch → it.poison = false →
    headerOk x.header = false → Answers (.chainChoose t c) s fun u =>
      pdkItems u 4 c = rest ∧ findUnit u it.wuId = some { x with
        queued := false, causes := x.causes ++ [{ mt := now u, reason := badDesc.1, resource := badDesc.2 }] }) ∧
  (∀ s t wu x, findUnit s wu = some x → mayStart (atMt s t) x = true → Answers (.layerStart t wu) s fun u =>
    findUnit u wu = some { x with started := true, holds := footprint s x, touched := dedup (x.touched ++ footprint s x) } ∧
    ∀ l ∈ footprint s x, (getClu u (physOf s l)).power = .active ∨ (getClu u (physOf s l)).wakeDue.isSome = true)

/-- A descriptor with tickets gets the next free pair, both counters at 0 with their epochs advanced by 1, and keeps
the take counter's epoch. Its notice with pair, epoch and ticket count is appended to the inbox of every member once
all have room. -/
def Obligations.WorkCountersAndNotices : Prop :=
  (∀ s t r x d p, liveRun s r = some (x, d) → freePair s = some p → d.tickets ≠ [] → d.pair = none → s.disp.restarting = false →
    p < 2048 → Answers (.workCounterAlloc t r) s fun u =>
      (∀ n, n = takeCtr p ∨ n = doneCtr p → getCtr u n = { value := 0, epoch := ((getCtr s n).epoch + 1) % 256 }) ∧
      u.reins.lastPair = p ∧ u.reins.pairsUsed = s.reins.pairsUsed ++ [p] ∧
      ((∀ w ∈ s.reins.waits, w.ctr ≠ takeCtr p ∧ w.ctr ≠ doneCtr p) →
        findRun u r = some { d with pair := some p, pairEpoch := (getCtr u (takeCtr p)).epoch })) ∧
  (∀ s t r x d p, liveRun s r = some (x, d) → d.pair = some p → d.posted = false → s.disp.restarting = false →
    (∀ l ∈ d.members, pdkFits s (inboxOf (physOf s l)).1 (inboxOf (physOf s l)).2 1 = true) → Answers (.ticketNoticePost t r) s fun u =>
      findRun u r = some { d with posted := true } ∧
      ∀ l ∈ d.members, ∃ it ∈ pdkItems u (inboxOf (physOf s l)).1 (inboxOf (physOf s l)).2, it.wuId = x.wuId ∧ it.epoch = x.epoch ∧
        it.notice = some { ref := r, pair := p, epoch := d.pairEpoch, count := d.tickets.length })

/-- For each of the 24 issue commands: when the unit's next descriptor may issue and passes its checks, the unit
advances (entering, repeating or leaving a loop), keeps the issued descriptor last among those of its layer and the
Module Time of its first issue, HBM and the peer ports are left alone, and so are the Reins unless the opcode is
BARRIER, SIGNAL or WAIT. A descriptor that breaks a rule only gives its unit the cause found. One that may not issue
lets time pass. A WAIT that its counter satisfies is held by none, else it joins the wait table with the counter's
epoch; a SIGNAL behind completed descriptors adds its operand to its counter; a BARRIER behind completed descriptors
arrives at its barrier. When SIGNAL and BARRIER act is the model's reading (log 20). -/
def Obligations.DescriptorIssue : Prop :=
  (∀ c t wu op s x d n, issueOp c = some (t, wu, op) → Issues s t wu op x d n → Answers c s fun u =>
    (∃ y, findUnit u wu = some y ∧ unitCore y = unitCore (issuedUnit x d n (now u) s.ctl.fwVersion)) ∧
    u.hbm = s.hbm ∧ u.peers = s.peers ∧
    (dOp (nextRaw x) ≠ 0x20 → dOp (nextRaw x) ≠ 0x21 → dOp (nextRaw x) ≠ 0x22 → u.reins = s.reins)) ∧
  (∀ c t wu op s x w, issueOp c = some (t, wu, op) → findUnit s wu = some x → mayIssue (atMt s t) x op = true →
    issueRun (atMt s t) x (nextRef x) (nextRaw x) = .error w → Answers c s fun u =>
      findUnit u wu = some { x with causes := x.causes ++ [{ mt := now u, reason := w.1, resource := w.2, key := [0, (nextRef x).idx, (nextRef x).ticket] }] } ∧
      u.hbm = s.hbm ∧ u.reins = s.reins ∧ u.clu = s.clu) ∧
  (∀ c t wu op s x, issueOp c = some (t, wu, op) → findUnit s wu = some x → mayIssue (atMt s t) x op = false →
    Answers c s fun u => u = atMt s t) ∧
  (∀ s t wu x d n k, Issues s t wu 0x22 x d n → dOp (nextRaw x) = 0x22 → k = dCounter (nextRaw x) → Answers (.wait t wu) s fun u =>
    if (if var0 (nextRaw x) then (getCtr s k).value.toNat = bits (dParam0 (nextRaw x)) 31 0 else bits (dParam0 (nextRaw x)) 31 0 ≤ (getCtr s k).value.toNat)
    then u.reins = s.reins
    else u.reins.waits = s.reins.waits ++ [{ ctr := k, req := 549, target := bits (dParam0 (nextRaw x)) 31 0, equal := var0 (nextRaw x), epoch := some (getCtr s k).epoch, ref := some (nextRef x) }] ∧ u.reins.counters = s.reins.counters) ∧
  (∀ s t wu x d n k, Issues s t wu 0x21 x d n → dOp (nextRaw x) = 0x21 → k = dCounter (nextRaw x) → x.runs.all (·.complete) = true →
    (getCtr s k).epoch < 256 → Answers (.signal t wu) s fun u =>
      getCtr u k = { getCtr s k with value := (getCtr s k).value + BitVec.ofNat 32 (bits (dParam0 (nextRaw x)) 31 0) } ∧
      ∀ m, m ≠ k → getCtr u m = getCtr s m) ∧
  (∀ s t wu x d n b p, Issues s t wu 0x20 x d n → dOp (nextRaw x) = 0x20 → b = dBarrier (nextRaw x) → p = dParam0 (nextRaw x) →
    x.runs.all (·.complete) = true → ((getBar s b).arrivals = [] ∨ (getBar s b).parties = p) → Answers (.barrier t wu) s fun u =>
      getBar u b = (if (getBar s b).arrivals.length + 1 < p then
          { getBar s b with parties := p, arrivals := (getBar s b).arrivals ++ [{ req := 549, ref := some (nextRef x) }] }
        else { gen := ((getBar s b).gen + 1) % 256, parties := 0, arrivals := [] }) ∧
      u.reins.counters = s.reins.counters)

/-- A cluster that may take a ticket adds 1 to the descriptor's take counter and to no other, touching neither HBM nor
the peer ports. An accumulating ticket then runs from its first pass with its number and rank, unless reading its
operands found a cause, which the unit then has. A count past the last ticket, or a moved epoch, removes the
descriptor's notices from the cluster; a moved epoch changes no counter. -/
def Obligations.TicketTakes : Prop :=
  (∀ s t l r n d v k tk, MayTake s l r n → v = (getCtr s (takeCtr n.pair)).value.toNat → findRun s r = some d → d.order[v]? = some k →
    d.tickets[k]? = some tk → inboxRoom d tk = true → n.epoch % 256 = (getCtr s (takeCtr n.pair)).epoch → Answers (.ticketTake t l r) s fun u =>
      getCtr u (takeCtr n.pair) = { getCtr s (takeCtr n.pair) with value := (getCtr s (takeCtr n.pair)).value + 1 } ∧
      (∀ m, m ≠ takeCtr n.pair → getCtr u m = getCtr s m) ∧ u.hbm = s.hbm ∧ u.peers = s.peers) ∧
  (∀ s t l r n d v k tk, MayTake s l r n → v = (getCtr s (takeCtr n.pair)).value.toNat → findRun s r = some d → d.order[v]? = some k →
    d.tickets[k]? = some tk → inboxRoom d tk = true → n.epoch % 256 = (getCtr s (takeCtr n.pair)).epoch → accumulates d = true →
    (getClu s (physOf s l)).running = none → (∀ w ∈ s.reins.waits, w.ctr ≠ takeCtr n.pair) → Answers (.ticketTake t l r) s fun u =>
      (∃ x d', (getClu u (physOf s l)).running = some x ∧ x.ref = r ∧ x.number = v ∧ x.rank = k ∧ x.tk = tk ∧ x.pass = 0 ∧
        findRun u r = some d' ∧ d'.taken = d.taken ++ [k]) ∨
      ∃ y, findUnit u r.wu = some y ∧ y.causes ≠ []) ∧
  (∀ s t l r n d v, MayTake s l r n → v = (getCtr s (takeCtr n.pair)).value.toNat → findRun s r = some d → d.order[v]? = none →
    n.epoch % 256 = (getCtr s (takeCtr n.pair)).epoch → Answers (.ticketTake t l r) s fun u =>
      getCtr u (takeCtr n.pair) = { getCtr s (takeCtr n.pair) with value := (getCtr s (takeCtr n.pair)).value + 1 } ∧
      (getClu u (physOf s l)).notices = (getClu s (physOf s l)).notices.filter fun n => n.ref != r) ∧
  (∀ s t l r n d, MayTake s l r n → findRun s r = some d → (∀ tk ∈ d.tickets, inboxRoom d tk = true) →
    n.epoch % 256 ≠ (getCtr s (takeCtr n.pair)).epoch → Answers (.ticketTake t l r) s fun u =>
      u.reins = s.reins ∧ u.disp = s.disp ∧ (getClu u (physOf s l)).running = (getClu s (physOf s l)).running ∧
      (getClu u (physOf s l)).notices = (getClu s (physOf s l)).notices.filter fun n => n.ref != r)

/-- An integer pass with a saturation mark and shift below 8 repeats with the shift raised by 1, its cycles, stalls
and useful work counted. Otherwise, with the drain free, its tile becomes the drain tile and the next pass starts at
the initial shift, or after the last pass the next ticket runs. A residue that fails at a pass end or checkpoint
declares the cluster failed with mechanism 0x03, a checksum failure with 0x04; checks that hold change nothing of the
running ticket. -/
def Obligations.PassesAndCheckpoints : Prop :=
  (∀ s t l p x d span stall, p = physOf s l → (getClu s p).running = some x → findRun s x.ref = some d → d.isInt = true →
    x.fill.all residueOk = true → x.fill.any (·.mark) = true → x.shift < 8 → Answers (.passEnd t l span stall) s fun u =>
      (getClu u p).running = some (fillPass d { x with shift := x.shift + 1, cycles := x.cycles + span, stalls := x.stalls + stall }) ∧
      (getClu u p).drain = (getClu s p).drain ∧ (getClu u p).stall = cap32 ((getClu s p).stall + stall) ∧
      (getClu u p).useful = (getClu s p).useful + nth 0 x.useful x.pass ∧ u.disp = s.disp) ∧
  (∀ s t l p x d span stall, p = physOf s l → (getClu s p).running = some x → findRun s x.ref = some d →
    (d.isInt = false ∨ (x.fill.all residueOk = true ∧ (x.fill.any (·.mark) = false ∨ 8 ≤ x.shift))) → (getClu s p).drain = none →
    Answers (.passEnd t l span stall) s fun u =>
      (getClu u p).drain = some { ref := x.ref, rank := x.rank, tk := x.tk, pass := x.pass, last := x.pass + 1 == x.passes.length, shift := x.shift, acc := x.fill, bad := nth [] x.bads x.pass, live := x.live } ∧
      (if x.pass + 1 = x.passes.length then (getClu u p).running = (getClu s p).nextUp ∧ (getClu u p).nextUp = none
       else (getClu u p).running = some (fillPass d { x with pass := x.pass + 1, shift := (if d.isInt then dInitShift d.raw else 0), cycles := x.cycles + span, stalls := x.stalls + stall }))) ∧
  (∀ s t l p x d, p = physOf s l → (getClu s p).running = some x → findRun s x.ref = some d → d.isInt = true →
    x.fill.all residueOk = false → (getClu s p).halter = false →
    (∀ span stall, Answers (.passEnd t l span stall) s fun u => ClusterDown s u p 0x03) ∧
    Answers (.residueCheckpoint t l none) s fun u => ClusterDown s u p 0x03) ∧
  (∀ s t l p x d, p = physOf s l → (getClu s p).running = some x → findRun s x.ref = some d → d.isInt = true →
    x.fill.all residueOk = true → Answers (.residueCheckpoint t l none) s fun u => (getClu u p).running = some x ∧ u.disp = s.disp) ∧
  (∀ s t l p x d fails, p = physOf s l → (getClu s p).running = some x → findRun s x.ref = some d → d.isInt = false →
    (getClu s p).halter = false → Answers (.checksumCheckpoint t l fails) s fun u =>
      if fails = true then ClusterDown s u p 0x04 else u = atMt s t)

/-- A drain that is not the last adds its widened values to the wide buffer; the last one of a split tile becomes a
leaf of its tree and clears the buffer; that of a whole tile takes the tile through the output path. A node combines
its two children left then right; at the root the tile leaves the tree. A tile done adds 1 to the done counter once. A
compressed output is first counted by every row range, then placed. HBM is not written by any of these before its
stream requests. -/
def Obligations.DrainsTreesTiles : Prop :=
  (∀ s t l p c dr d, p = physOf s l → c = getClu s p → c.drain = some dr → findRun s dr.ref = some d → dr.last = false →
    Answers (.drainDone t l) s fun u => (getClu u p).drain = none ∧ (getClu u p).running = c.running ∧
      (getClu u p).wide = ((numsFrom 0 dr.acc.length).zip dr.acc).map fun e =>
        wideAdd (dr.pass == 0) (nth (.i64 0, false) c.wide e.1) (widen d.isInt dr.shift e.2, nth false dr.bad e.1)) ∧
  (∀ s t l p c dr d vals, p = physOf s l → c = getClu s p → c.drain = some dr → findRun s dr.ref = some d → dr.last = true →
    1 < piecesOf d dr.tk.tile → vals = (((numsFrom 0 dr.acc.length).zip dr.acc).map fun e =>
        wideAdd (dr.pass == 0) (nth (.i64 0, false) c.wide e.1) (widen d.isInt dr.shift e.2, nth false dr.bad e.1)) →
    Answers (.drainDone t l) s fun u => (getClu u p).drain = none ∧ (getClu u p).wide = [] ∧ ∃ d', findRun u dr.ref = some d' ∧
      d'.trees = d.trees ++ [{ tile := dr.tk.tile, lo := dr.tk.kappa, hi := dr.tk.kappa + 1, vals := (dr.live.zip vals).map (fun e => if e.1 then some e.2.1 else none), bad := vals.map (·.2) }]) ∧
  (∀ s t l p c dr d, p = physOf s l → c = getClu s p → c.drain = some dr → findRun s dr.ref = some d → dr.last = true →
    piecesOf d dr.tk.tile ≤ 1 → pathOpen d dr.tk.tile → Answers (.drainDone t l) s fun u =>
      (∃ d', findRun u dr.ref = some d' ∧ dr.tk.tile ∈ d'.rooted) ∧ u.hbm = s.hbm ∧ u.reins = s.reins) ∧
  (∀ s t r d tile lo hi a b e, findRun s r = some d → served s (homeOf d tile) = true →
    (getClu s (physOf s (homeOf d tile))).halter = false → (getClu s (physOf s (homeOf d tile))).drain = none →
    nodeChildren d tile lo hi = some (a, b) → e = combineEntries (dRedKind d.raw == 1 && d.op == 0x10) a b →
    (¬ (lo = 0 ∧ hi = piecesOf d tile) → Answers (.treeNode t r tile lo hi) s fun u => u.clu = s.clu ∧ ∃ d', findRun u r = some d' ∧
      d'.trees = (d.trees.filter fun y => y != a && y != b) ++ [e] ∧ d'.rooted = d.rooted) ∧
    ((lo = 0 ∧ hi = piecesOf d tile) → pathOpen d tile → Answers (.treeNode t r tile lo hi) s fun u =>
      ∃ d', findRun u r = some d' ∧ tile ∈ d'.rooted)) ∧
  (∀ s t r d p tile, findRun s r = some d → d.pair = some p → tile ∈ d.rooted → tile ∉ d.done → (isPhased d = true → d.phase = 2) →
    (writesLate d = true → d.tiles ≤ d.rooted.length) → d.pairEpoch % 256 = (getCtr s (doneCtr p)).epoch →
    (∀ w ∈ s.reins.waits, w.ctr ≠ doneCtr p) → Answers (.tileDone t r tile) s fun u =>
      getCtr u (doneCtr p) = { getCtr s (doneCtr p) with value := (getCtr s (doneCtr p)).value + 1 } ∧
      findRun u r = some { d with done := d.done ++ [tile] }) ∧
  (∀ s t r d, findRun s r = some d → isPhased d = true → d.phase = 0 → d.tiles ≠ 0 → d.tiles ≤ d.rooted.length →
    Answers (.compressCount t r) s fun u => u.clu = s.clu ∧ u.hbm = s.hbm ∧
      findRun u r = some { d with phase := 1, counts := (dedup (d.tickets.map (·.rho))).map (rangeCount d (finalStaged d)) }) ∧
  (∀ s t r d, findRun s r = some d → isPhased d = true → d.phase = 1 → Answers (.compressPlace t r) s fun u =>
    u.hbm = s.hbm ∧ u.reins = s.reins ∧ findRun u r = some { d with phase := 2 })

/-- A descriptor whose work is done is complete and frees its counter pair. A LAYER_END whose layer is done frees the
unit's clusters when descriptors follow; at the end of the chain the unit leaves, its identifier enters quarantine
with its epoch, and its completion notice is appended to the completion queue. -/
def Obligations.Completion : Prop :=
  (∀ s t r x d, liveRun s r = some (x, d) → s.disp.restarting = false → d.op ≠ 0x3F → ((d.op = 0x20 ∨ d.op = 0x21) → d.phase ≠ 0) →
    runDone (atMt s t) x d = true → Answers (.descriptorComplete t r) s fun u =>
      (∃ e, findRun u r = some e ∧ e.complete = true) ∧ (∀ p, d.pair = some p → u.reins.pairsUsed.contains p = false)) ∧
  (∀ s t wu x d, findUnit s wu = some x → x.runs.getLast? = some d → d.op = 0x3F → d.complete = false → healthy x = true →
    x.decided = false → s.disp.restarting = false → runDone (atMt s t) x d = true → x.next < x.descs.length →
    Answers (.layerEndComplete t wu) s fun u =>
      ∃ y, findUnit u wu = some y ∧ y.runs = [] ∧ y.holds = [] ∧ y.started = false ∧ y.mtEnd = now u) ∧
  (∀ s t wu x d, findUnit s wu = some x → x.runs.getLast? = some d → d.op = 0x3F → d.complete = false → healthy x = true →
    x.decided = false → s.disp.restarting = false → runDone (atMt s t) x d = true → x.descs.length ≤ x.next →
    pdkFits s 4 8 1 = true → Answers (.layerEndComplete t wu) s fun u =>
      findUnit u wu = none ∧ (∃ l, u.disp.retired = l ++ [{ wuId := wu, epoch := x.epoch, mt := now u, ended := false }]) ∧
      ∃ it, pdkItems u 4 8 = pdkItems s 4 8 ++ [it] ∧ it.wuId = wu ∧ it.epoch = x.epoch ∧ leAt it.payload 0 4 = wu % 2 ^ 32)

/-- A unit with a cause is decided: no wait of it is held and its open counter pairs are freed. Each held member drops
exactly that unit's tickets and confirms. When it may be released, the unit leaves, its identifier enters quarantine,
and one notice with the chosen cause is appended to the discard queue. -/
def Obligations.Discards : Prop :=
  (∀ s t wu x, findUnit s wu = some x → x.decided = false → x.causes ≠ [] → Answers (.discardDecision t wu) s fun u =>
    (∃ y, findUnit u wu = some y ∧ y.decided = true ∧ y.epoch = x.epoch) ∧
    (∀ w ∈ u.reins.waits, ∀ r, w.ref = some r → r.wu ≠ wu) ∧
    (∀ d ∈ x.runs, ∀ p, d.pair = some p → d.complete = false → u.reins.pairsUsed.contains p = false)) ∧
  (∀ s t l wu x, findUnit s wu = some x → x.decided = true → x.holds.contains l = true → x.confirmed.contains l = false →
    Answers (.memberTicketDrop t l wu) s fun u =>
      findUnit u wu = some { x with confirmed := x.confirmed ++ [l] } ∧
      getClu u (physOf s l) = dropTickets wu (getClu s (physOf s l)) ∧ (∀ q, q ≠ physOf s l → getClu u q = getClu s q)) ∧
  (∀ s t wu x c, findUnit s wu = some x → noticeCause x.causes = some c → releasable s x = true → Answers (.discardRelease t wu) s fun u =>
    findUnit u wu = none ∧ (∃ l, u.disp.retired = l ++ [{ wuId := wu, epoch := x.epoch, mt := now u, ended := false }]) ∧
    ∃ it, pdkItems u 4 9 = pdkItems s 4 9 ++ [it] ∧ it.wuId = wu ∧ it.epoch = x.epoch ∧ it.payload = discardCell x c (now u))

/-- The end of a quarantine marks exactly the named identifier's entries that are at least 20 ms old; the expiry
removes exactly the named identifier's entries that are at least 10 s old. -/
def Obligations.IdentifierQuarantine : Prop :=
  (∀ s t wu, Answers (.quarantineEnd t wu) s fun u => u.disp = { s.disp with
    retired := s.disp.retired.map fun e => if e.wuId = wu ∧ e.mt + 50000000 ≤ now u then { e with ended := true } else e }) ∧
  (∀ s t wu, Answers (.retiredEntryExpiry t wu) s fun u => u.disp = { s.disp with
    retired := s.disp.retired.filter fun e => !(e.wuId == wu && decide (e.mt + 25000000000 ≤ now u)) })

/-- An arrival joins the pending table, the oldest of a full table of 262,144 leaving and being counted. A departure
and the completion event of the same unit together credit the unit's account: one unit, its emissions, its busy time
and one latency bin, or the unmetered time when the header is not metered; either alone is kept until the other comes.
A pending arrival expires after 200 s; a departure unmatched for 1 s is counted. A capacity record of the fault log
opens or closes a reduction. A TIME tap more than 20 ms after the last records silence. Choices of interval and order
are the model's (log 28). -/
def Obligations.MeterTapsAndTime : Prop :=
  (∀ s t wu ep mt rest, s.meter.arrivalTap = .submitArrival wu ep mt :: rest → s.meter.pending.length < 262144 →
    Answers (.submitArrival t) s fun u => u.meter = { s.meter with
      arrivalTap := rest, lastSeen := some mt, pending := s.meter.pending.filter (fun e => e.1 != wu) ++ [(wu, ep, mt)] }) ∧
  (∀ s t wu ep mt rest, s.meter.arrivalTap = .submitArrival wu ep mt :: rest → 262144 ≤ s.meter.pending.length →
    (∀ e ∈ s.meter.pending, e.1 ≠ wu) → Answers (.submitArrival t) s fun u =>
      u.meter.pending = s.meter.pending.drop 1 ++ [(wu, ep, mt)] ∧
      (tblGet {} u.meter.gathers (creditInterval s.meter mt)).evicted = cap32 ((tblGet {} s.meter.gathers (creditInterval s.meter mt)).evicted + 1)) ∧
  (∀ s t wu ep mt rest w em st a b x v, s.meter.departTap = .completeDeparture wu ep mt :: rest →
    s.meter.events = [.completeEvent wu ep w em st a b x] → bit w 15 = true → pendingArrival s.meter wu ep = some v →
    Answers (.completeDeparture t) s fun u =>
      u.meter.events = [] ∧ (∀ e ∈ u.meter.pending, ¬(e.1 = wu ∧ e.2.1 = ep)) ∧
      ∃ g h, g = tblGet {} (tblGet {} s.meter.gathers (creditInterval s.meter mt)).accounts (accountKey w) ∧
        h = tblGet {} (tblGet {} u.meter.gathers (creditInterval s.meter mt)).accounts (accountKey w) ∧
        h.units = g.units + 1 ∧ h.emits = g.emits + em ∧ h.busy = g.busy + (b - a) ∧ h.untimed = g.untimed ∧
        tblGet 0 h.bins (latencyBin (mt - v)) = tblGet 0 g.bins (latencyBin (mt - v)) + 1) ∧
  (∀ s t wu ep mt rest, s.meter.departTap = .completeDeparture wu ep mt :: rest → s.meter.events = [] →
    Answers (.completeDeparture t) s fun u =>
      u.meter.gathers = s.meter.gathers ∧ u.meter.departTap = rest ∧
      u.meter.departs = s.meter.departs ++ [{ wu := wu, epoch := ep, mt := mt, arrival := pendingArrival s.meter wu ep }]) ∧
  (∀ s t wu ep w em st a b mt rest, s.meter.completionTap = .completeEvent wu ep w em st a b mt :: rest → s.meter.departs = [] →
    Answers (.completeEvent t) s fun u =>
      u.meter.gathers = s.meter.gathers ∧ u.meter.completionTap = rest ∧
      u.meter.events = s.meter.events ++ [.completeEvent wu ep w em st a b mt]) ∧
  (∀ s t wu ep w em st a b mt rest d, s.meter.completionTap = .completeEvent wu ep w em st a b mt :: rest →
    s.meter.departs = [d] → d.wu = wu → d.epoch = ep → bit w 15 = false → Answers (.completeEvent t) s fun u =>
      u.meter.departs = [] ∧ u.meter.events = s.meter.events ∧
      (tblGet {} u.meter.gathers (creditInterval s.meter d.mt)).accounts = (tblGet {} s.meter.gathers (creditInterval s.meter d.mt)).accounts ∧
      (tblGet {} u.meter.gathers (creditInterval s.meter d.mt)).unmetered =
        (tblGet {} s.meter.gathers (creditInterval s.meter d.mt)).unmetered + (b - a)) ∧
  (∀ s t wu ep a, pendingArrival s.meter wu ep = some a → a + 200 * oneSecond ≤ max (now s) t →
    Answers (.pendingExpiry t wu ep) s fun u =>
      u.meter = { s.meter with pending := s.meter.pending.filter fun e => !(e.1 == wu && e.2.1 == ep) }) ∧
  (∀ s t d, s.meter.departs = [d] → d.mt + oneSecond < max (now s) t → Answers (.unmatchedTimeout t d.wu d.epoch) s fun u =>
      u.meter.departs = [] ∧ u.meter.totals = s.meter.totals ∧
      (tblGet {} u.meter.gathers (creditInterval s.meter d.mt)).accounts = (tblGet {} s.meter.gathers (creditInterval s.meter d.mt)).accounts ∧
      (tblGet {} u.meter.gathers (creditInterval s.meter d.mt)).unmatched =
        cap32 ((tblGet {} s.meter.gathers (creditInterval s.meter d.mt)).unmatched + 1)) ∧
  (∀ s t c rest, s.meter.faultTap = .faultLog c :: rest → leAt c 0 2 = 0x0009 → leAt c 3 1 = 0 → Answers (.faultLogTap t) s fun u =>
      u.meter.faultTap = rest ∧ u.meter.caps = s.meter.caps ++
        [{ res := leAt c 4 4, start := leAt c 8 8, stop := none, condition := leAt c 24 8, extent := leAt c 32 8 }]) ∧
  (∀ s t c rest k, s.meter.faultTap = .faultLog c :: rest → leAt c 0 2 = 0x0009 → leAt c 3 1 = 1 → s.meter.caps = [k] →
    k.res = leAt c 4 4 → k.condition = leAt c 24 8 → k.stop = none → Answers (.faultLogTap t) s fun u =>
      u.meter.faultTap = rest ∧ u.meter.caps = [{ k with stop := some (leAt c 8 8) }]) ∧
  (∀ s t n a, isReady s = true → s.meter.lastTime = some a → Answers (.timeTap t n) s fun u =>
      u.meter.lastTime = some (now u) ∧ u.meter.lastTimeClock = n ∧ u.meter.gathers = s.meter.gathers ∧
      u.meter.caps = s.meter.caps ++ (if a + 50000000 < now u then
        [{ res := 0, start := a, stop := some (now u), condition := 6, extent := 0 }] else []))

/-- An interval that is due closes into one signed record at the end of the ring or, with the ring full, unrecorded
with STORAGE_FULL; no uncollected record is lost, and energy adds up. At hold-up the open interval closes too. A
status report brings the figures of the relay; 1 s without one declares the die silent with an event. A service
session is counted and removes no record. A read of one record answers its bytes; a collect by the owner marks records
up to its number as collected. Choices where the spec is silent are the model's (log 28). -/
def Obligations.MeterRecords : Prop :=
  (∀ s t k e v w r, closeDue s.meter k = true → Answers (.intervalClose t k e v w r) s fun u =>
    u.meter.interval = s.meter.interval + 1 ∧ u.meter.totalE = s.meter.totalE + e ∧
    u.meter.totalRecorded + u.meter.totalUnrecorded = s.meter.totalRecorded + s.meter.totalUnrecorded + 1 ∧
    (∀ x ∈ s.meter.ring, x.2.2 = false → x ∈ u.meter.ring) ∧
    ((∃ y, u.meter.ring.getLast? = some (s.meter.recordNo + 1, y, false) ∧ u.meter.recordNo = s.meter.recordNo + 1 ∧ u.meter.unrecorded = 0) ∨
     (u.meter.ring = s.meter.ring ∧ u.meter.recordNo = s.meter.recordNo ∧ u.meter.unrecorded = cap32 (s.meter.unrecorded + 1) ∧
      "STORAGE_FULL" ∈ u.meter.serviceLog))) ∧
  (∀ s t k e v w r, s.meter.lastTime ≠ none → Answers (.meterHoldup t k e v w r) s fun u =>
    u.meter.interval = s.meter.interval + 1 ∧ u.meter.totalE = s.meter.totalE + e ∧ u.meter.storedMt = s.meter.lastSeen ∧
    u.meter.lastTime = none) ∧
  (∀ s t v w, s.ctl.powered = true → Answers (.meterStatusReport t v w) s fun u =>
    u.meter.linkOk = true ∧ u.meter.silent = false ∧ u.meter.lastReport = now u ∧ u.meter.voltCv = v ∧ u.meter.watt = w ∧
    u.meter.relay = relayFigures s.meter ∧ u.meter.timeSuspect = s.meter.suspect ∧
    u.sec.meterFw = some (s.meter.newFw.getD Config.meterFirmwareDigest)) ∧
  (∀ s t, s.ctl.powered = true → s.meter.silent = false → s.meter.lastReport + oneSecond ≤ max (now s) t → s.meter.waiting = [] →
    Room s 1 → Answers (.meterSilent t) s fun u =>
      u.meter = { s.meter with linkOk := false, silent := true } ∧ Posted s u [{ code := 0x0080, params := [1] }]) ∧
  (∀ s t act, Answers (.serviceSession t act) s fun u =>
    u.meter.serviceCount = cap32 (s.meter.serviceCount + 1) ∧ u.meter.ring = s.meter.ring ∧ u.meter.totals = s.meter.totals ∧
    (∀ n, act = .setInterval n → u.meter.intervalS = n) ∧ (∀ d, act = .newFirmware d → u.meter.newFw = some d)) ∧
  (∀ s t r mt num gen b rest se rec_, s.ctl.powered = true →
    s.meter.arrivalTap = .readRequest mt num gen false b :: rest → s.meter.waiting = [(num, gen, mt)] →
    max (now s) t ≤ mt + oneSecond → meterMalformed b = false → leAt b 0 1 = 1 → leAt b 16 4 = 1 →
    (leAt b 8 8, rec_) ∈ s.meter.ring.map (fun x => (x.1, x.2.1)) → (s.meter.ring.map (·.1)).Nodup → 0 < rec_.length → rec_.length ≤ 8192 →
    s.meter.silent = false → findSess s .host num = some se → se.gen = gen → FreshSeq se → Answers (.readRequest t r) s fun u =>
      u.meter.arrivalTap = rest ∧ u.meter.ring = s.meter.ring ∧ u.meter.linkOk = true ∧
      Queued u num 0x51 (leBytes 4 (leAt b 4 4) ++ leBytes 1 0 ++ leBytes 1 0 ++ leBytes 2 0 ++ leBytes 2 1 ++ leBytes 2 0 ++
        leBytes 4 rec_.length ++ leBytes 8 (leAt b 8 8) ++ leBytes 4 0 ++ leBytes 4 0 ++ rec_)) ∧
  (∀ s t r mt num gen b rest, s.meter.arrivalTap = .readRequest mt num gen true b :: rest → meterMalformed b = false →
    s.meter.waiting = [] → Answers (.readRequest t r) s fun u =>
      u.meter.arrivalTap = rest ∧ u.meter.ring = s.meter.ring.map fun x => if x.1 ≤ leAt b 20 8 then (x.1, x.2.1, true) else x)

/-- Outside a Yarrow run, each report command prints its lines and the prompt and changes nothing but time: identity,
time, state, clusters, one group's 17 clusters, 21 HBM lines, 5 ports, 29 temperatures, power, owner, meter, help, the
last log records, and registers by offset. A printable character joins a line of at most 128 and is echoed, backspace
removes the last, return runs the line, and input during a Yarrow run is ignored. The spelling of fields not given by
the spec is the model's (log 30). -/
def Obligations.MonitorReports : Prop :=
  (∀ s t, s.kyend.busy = none → aoOnly s = false →
    Prints (.kyendId t) s ["part=AS2-1600-LQ stepping=B0 fw=" ++ versionText s.ctl.fwVersion ++ " serial=" ++ serialText s] ∧
    Prints (.kyendTime t) s ["mt=" ++ hexText 16 (max (now s) t) ++ " ptp=" ++
      (if s.clock.ptp = 1 then "locked" else if s.clock.ptp = 2 then "holdover" else "unlocked")] ∧
    (∃ l, Prints (.kyendState t) s ["state=" ++ stateText s.ctl.modState ++ l]) ∧
    (∃ l, Prints (.kyendClusters t) s ["serving=" ++ decText (512 - absentCount s - unservedCount s) ++ l]) ∧
    (∀ g < 32, Prints (.kyendClustersGroup t g) s ((numsFrom (17 * g) 17).map (clusterLine s))) ∧
    (∀ g, 32 ≤ g → Prints (.kyendClustersGroup t g) s ["error: bad argument"]) ∧
    (∃ l, l.length = 21 ∧ Prints (.kyendHbm t) s l) ∧ (∃ l, l.length = 5 ∧ Prints (.kyendPorts t) s l) ∧
    (∃ l, l.length = 29 ∧ Prints (.kyendTemps t) s l) ∧
    (∃ l, Prints (.kyendPower t) s ["input=" ++ decText s.pwr.inputW ++ " cap=" ++ decText s.pwr.cap ++ " step=" ++ decText s.pwr.step ++ l]) ∧
    (s.host.owner = none → Prints (.kyendOwner t) s ["owner=vacant"]) ∧
    (∃ l, Prints (.kyendMeter t) s ["service_count=" ++ l]) ∧
    (∃ l, l.length = (if cfgDevMode s = true then 17 else 14) ∧ Prints (.kyendHelp t) s l) ∧
    (∀ n, 1 ≤ n → n ≤ 512 → s.ctl.halt = none → ∃ l, l.length = min n (min s.flt.logHead 512) ∧ Prints (.kyendLog t n) s l) ∧
    (∀ off n, 1 ≤ n → n ≤ 64 → off % 4 = 0 → firstInvalid s off n = none → Prints (.kyendPeek t off n) s
      ((numsFrom 0 n).map fun i => hexText 6 (off + 4 * i) ++ ": " ++ hexText 8 (readReg (atMt s t) (off + 4 * i))))) ∧
  (∀ s t c, s.kyend.busy = none → 32 < c → c < 127 → Answers (.kyendCharacter t c) s fun u =>
    u.kyend = { s.kyend with line := if s.kyend.line.length < 128 then s.kyend.line ++ [c] else s.kyend.line,
                             out := String.ofList [Char.ofNat c] :: s.kyend.out }) ∧
  (∀ s t, s.kyend.busy = none → Answers (.kyendCharacter t 8) s fun u => u.kyend.line = s.kyend.line.dropLast) ∧
  (∀ s t p c, s.kyend.busy = some p → Answers (.kyendCharacter t c) s fun u => u = atMt s t) ∧
  (∀ s t, s.kyend.busy = none → s.kyend.line = codes "state" → Answers (.kyendCharacter t 13) s fun u =>
    u.kyend.line = [] ∧ ∃ l, u.kyend.out = "kyend> " :: ("state=" ++ stateText s.ctl.modState ++ l) :: String.ofList [Char.ofNat 13] :: s.kyend.out)

/-- In developer mode poke and trace set the trace enables, poke outside the debug block is refused, and yarrow
requests a visit and waits for it, one at a time. Outside developer mode no command of the monitor, and no character
typed, changes anything but the time and the monitor itself. -/
def Obligations.MonitorWrites : Prop :=
  (∀ s t, s.kyend.busy = none → aoOnly s = false → cfgDevMode s = true →
    (∀ v, v < 256 → Answers (.kyendPoke t 0x0F0000 v) s fun u => u.clu = { s.clu with trace := v } ∧
      u.kyend.out = "kyend> " :: ("0x0F_0000: " ++ hexText 8 v) :: s.kyend.out ∧ u.ctl = s.ctl ∧ u.host = s.host) ∧
    (∀ v, v < 256 → Answers (.kyendTrace t (some v)) s fun u => u.clu = { s.clu with trace := v } ∧
      u.kyend.out = "kyend> " :: ("enable=" ++ hexText 2 v) :: s.kyend.out) ∧
    Prints (.kyendTrace t none) s ["enable=" ++ hexText 2 s.clu.trace] ∧
    (∀ off v, (off < 0x0F0000 ∨ 0x100000 ≤ off) → Prints (.kyendPoke t off v) s ["error: bad argument"]) ∧
    (∀ p, p < 544 → s.clu.yarrowResult ≠ 1 → Answers (.kyendYarrow t p) s fun u =>
      u.kyend = { s.kyend with busy := some p } ∧ u.clu.yarrowReq = p ∧ u.clu.yarrowResult = 1) ∧
    (∀ p, s.clu.yarrowResult = 1 → p < 544 → Prints (.kyendYarrow t p) s ["error: not available"])) ∧
  (∀ s c u, isMonitor c = true → cfgDevMode s = false → exec c s = .next u → u = { atMt s (timeOf c) with kyend := u.kyend })

/-- Outside 44 V to 56 V the start waits. Otherwise it takes the flash it is given, chooses a slot and halts at step 2
when no slot, block or table is good, at step 3 when the image fails, at step 4 when the identity key cannot be
recovered or does not match, at step 5 when a die fails to start; else it reaches step 8 powered, with its keys
proven. That steps 1 to 8 are one command is the model's choice (log 27). -/
def Obligations.StartSequence : Prop :=
  (∀ s t i, s.ctl.modState = .starting → s.ctl.powered = false → s.ctl.down = false → (i.supplyMv < 44000 ∨ 56000 < i.supplyMv) →
    Answers (.startSequence t i) s fun u => u = { atMt s t with pwr := { s.pwr with supplyMv := i.supplyMv } }) ∧
  (∀ s t i f, s.ctl.modState = .starting → s.ctl.powered = false → s.ctl.down = false → 44000 ≤ i.supplyMv → i.supplyMv ≤ 56000 →
    f = (i.flash.map flashOf).getD s.flash → Answers (.startSequence t i) s fun u =>
      u.flash = { f with repairPending := u.flash.repairPending } ∧ now u = max (now s) t ∧
      (chooseSlot f = none → u.ctl.modState = .haltedConfig ∧ u.ctl.step = 2 ∧ u.ctl.powered = false) ∧
      (∀ b older c, chooseSlot f = some (b, older) → c = (if b then f.slotB else f.slotA) →
        ((blockOk c = false ∨ flashTablesOk f = false) → u.ctl.modState = .haltedConfig ∧ u.ctl.step = 2 ∧ u.ctl.powered = false) ∧
        (blockOk c = true → flashTablesOk f = true → u.ctl.cfg = c ∧ u.ctl.cfgFallback = older ∧
          (imgCheck f.image (blkField c 0x84 4) ≠ 0 → u.ctl.modState = .haltedFirmware ∧ u.ctl.step = 3 ∧ u.ctl.powered = false) ∧
          (imgCheck f.image (blkField c 0x84 4) = 0 → u.ctl.fwVersion = imgVersion f.image ∧
            (Config.pufRecover i.puf f.helper = none → u.ctl.modState = .haltedHardware ∧ u.ctl.step = 4 ∧ u.ctl.powered = false) ∧
            (∀ k, Config.pufRecover i.puf f.helper = some k →
              (u.ctl.modState = .haltedHardware ∧ u.ctl.step = 4 ∧ u.ctl.powered = false) ∨
              (u.sec.keysOk = true ∧
                if i.diesStart = true then u.ctl.modState = .starting ∧ u.ctl.step = 8 ∧ u.ctl.powered = true
                else u.ctl.modState = .haltedHardware ∧ u.ctl.step = 5 ∧ u.ctl.powered = false))))))

/-- A configuration load that cannot be read, or whose digest, fields, sequence or firmware floor fails, ends in phase
6 with its result and changes no flash; else the other slot holds the block, the block in force is unchanged and the
event is posted. A firmware load is refused likewise with its result; a source that changed invalidates the image in
flash; else the image and version in force are the new ones and the old code banks stand until no unit uses them. A
load while another runs sets BUSY. That a load is one command is the model's choice (log 27). -/
def Obligations.Loader : Prop :=
  (∀ s t v r, isReady s = true → bit v 0 = true → bits v 1 1 = 0 → (s.ctl.loadPhase = 0 ∨ 5 ≤ s.ctl.loadPhase) → Room s 1 →
    r = vRead s 4 (bits v 31 16) (s.ctl.loadVaHi * 2 ^ 32 + s.ctl.loadVaLo) 131072 → Answers (.cfgLoad t v) s fun u =>
      u.ctl.loadJob = bits v 31 16 ∧ u.ctl.loadKind = 0 ∧ u.ctl.cfg = s.ctl.cfg ∧ u.flash.image = s.flash.image ∧
      (∀ e, r = .error e → u.ctl.loadResult = 2 ∧ u.ctl.loadPhase = 6 ∧ u.flash = s.flash) ∧
      (∀ l, r = .ok l → (∃ x ∈ l, x.2 = true) → u.ctl.loadResult = 2 ∧ u.ctl.loadPhase = 6 ∧ u.flash = s.flash) ∧
      (∀ l c, r = .ok l → (∀ x ∈ l, x.2 = false) → c = cellsAt 0 (l.map (·.1)) →
        if blockDigestOk c = false then u.ctl.loadResult = 3 ∧ u.ctl.loadPhase = 6 ∧ u.flash = s.flash
        else if blockOk c = false then u.ctl.loadResult = 4 ∧ u.ctl.loadPhase = 6 ∧ u.flash = s.flash
        else if blkField c 8 4 ≠ cfgField s 8 4 + 1 then u.ctl.loadResult = 8 ∧ u.ctl.loadPhase = 6 ∧ u.flash = s.flash
        else if imgVersion s.flash.image < blkField c 0x84 4 then u.ctl.loadResult = 9 ∧ u.ctl.loadPhase = 6 ∧ u.flash = s.flash
        else u.ctl.loadResult = 0 ∧ u.ctl.loadPhase = 5 ∧
          u.flash = (if s.ctl.runningB = true then { s.flash with slotA := c } else { s.flash with slotB := c }) ∧
          Posted s u [{ code := 0x0061, params := [blkField c 8 4] }])) ∧
  (∀ s t v ch r, isReady s = true → bit v 0 = true → bits v 1 1 = 1 → (s.ctl.loadPhase = 0 ∨ 5 ≤ s.ctl.loadPhase) →
    r = vRead s 4 (bits v 31 16) (s.ctl.loadVaHi * 2 ^ 32 + s.ctl.loadVaLo) 8192 → Answers (.fwLoad t v ch) s fun u =>
      u.ctl.loadJob = bits v 31 16 ∧ u.ctl.loadKind = 1 ∧ u.ctl.cfg = s.ctl.cfg ∧ u.flash.slotA = s.flash.slotA ∧ u.flash.slotB = s.flash.slotB ∧
      (∀ e, r = .error e → u.ctl.loadResult = 2 ∧ u.ctl.loadPhase = 6 ∧ u.flash = s.flash ∧ u.ctl.fwVersion = s.ctl.fwVersion) ∧
      (∀ h l, r = .ok h → (∀ x ∈ h, x.2 = false) →
        vRead s 4 (bits v 31 16) (s.ctl.loadVaHi * 2 ^ 32 + s.ctl.loadVaLo) (max 8192 (min 8388608 (imgLength (h.map (·.1))))) = .ok l →
        (∀ x ∈ l, x.2 = false) →
        if imgCheck (l.map (·.1)) (cfgFwFloor s) ≠ 0 then
          u.ctl.loadResult = imgCheck (l.map (·.1)) (cfgFwFloor s) ∧ u.ctl.loadPhase = 6 ∧ u.flash = s.flash ∧ u.ctl.fwVersion = s.ctl.fwVersion
        else if ch = true then u.ctl.loadResult = 0x0A ∧ u.ctl.loadPhase = 6 ∧ u.flash.imageValid = false ∧ u.ctl.fwVersion = s.ctl.fwVersion
        else u.ctl.loadResult = 0 ∧ u.ctl.loadPhase = 5 ∧ u.flash.image = l.map (·.1) ∧ u.flash.imageValid = true ∧
          u.ctl.fwVersion = imgVersion (l.map (·.1)) ∧ u.ctl.oldBanks = true)) ∧
  (∀ s t v, isReady s = true → bit v 0 = true → 1 ≤ s.ctl.loadPhase → s.ctl.loadPhase ≤ 4 →
    ∀ c ∈ [Instr.cfgLoad t v, .fwLoad t v false], Answers c s fun u => u.ctl.loadResult = 1 ∧ u.ctl.loadPhase = s.ctl.loadPhase ∧ u.flash = s.flash) ∧
  (∀ s t, s.ctl.oldBanks = true → (∀ x ∈ s.disp.units, x.mtIssue ≠ none → x.fwVersion = s.ctl.fwVersion) →
    Answers (.codeBankFree t) s fun u => u = { atMt s t with ctl := { s.ctl with oldBanks := false } })

/-- A valid window write acts at once and its users drain under one disable with its deadline; an invalid one changes
nothing. A group commit, a retirement and the closing of a job slot wait behind a disable; a further one queues behind
the first. A job opens in a free slot and its tile choice may be set; a timed-out disable gives exactly its users a
cause DISABLE_FORCED; a job whose users are gone closes, its translations, cache lines and residency ending, with an
event. A TLB invalidation drops exactly its job's entries. Which units use a function is the model's reading (log 26).
-/
def Obligations.DisableRule : Prop :=
  (∀ s t w reg v x, isReady s = true → s.disp.disables = [] → w < 16 → reg < 8 → reg ≠ 6 → x = windowSet (getWin s w) reg v → windowOk s w x = true →
    Answers (.windowWrite t w reg v) s fun u => getWin u w = x ∧ (∀ w' ≠ w, getWin u w' = getWin s w') ∧ u.disp.disableOff = 0x033000 + 0x20 * w + 4 * reg ∧
      u.disp.disables = [{ kind := .window w reg v, off := 0x033000 + 0x20 * w + 4 * reg, deadline := now u + cfgDisableTimeout s, timedOut := false }]) ∧
  (∀ s t w reg v, isReady s = true → s.disp.disables = [] → (reg = 6 ∨ windowOk s w (windowSet (getWin s w) reg v) = false) →
    Answers (.windowWrite t w reg v) s fun u => u = atMt s t) ∧
  (∀ s t, isReady s = true → s.disp.disables = [] → Answers (.groupCommit t) s fun u => u.peers = s.peers ∧
    u.disp = { s.disp with disableOff := 0x032800,
                           disables := [{ kind := .group, off := 0x032800, deadline := now u + cfgDisableTimeout s, timedOut := false }] }) ∧
  (∀ s t v l, isReady s = true → s.disp.disables = [] → bit v 31 = true → bits v 15 12 = 1 → l = bits v 8 0 → l < 512 → served s l = true →
    Answers (.clusterRetire t v) s fun u => u.clu = s.clu ∧
      u.disp = { s.disp with disableOff := 0x070120,
                             disables := [{ kind := .retire l, off := 0x070120, deadline := now u + cfgDisableTimeout s, timedOut := false }] }) ∧
  (∀ s t v i j, isReady s = true → i = s.disp.jobSel → j = getSlot s i → j.valid = false → bit v 31 = true → bits v 17 16 < 3 →
    openRefused s i { j with choice := bits v 17 16 } (bits v 15 0) = false → Answers (.jobOpen t v) s fun u =>
      getSlot u i = { j with valid := true, refused := false, jobId := bits v 15 0, choice := bits v 17 16 } ∧
      (∀ i' ≠ i, getSlot u i' = getSlot s i') ∧ u.disp.disables = s.disp.disables) ∧
  (∀ s t v i j, isReady s = true → s.disp.disables = [] → i = s.disp.jobSel → j = getSlot s i → j.valid = true → bit v 31 = false → bits v 17 16 = 3 →
    Answers (.jobClose t v) s fun u => getSlot u i = { j with valid := false, closing := true } ∧ (∀ i' ≠ i, getSlot u i' = getSlot s i') ∧
      u.disp.disables = [{ kind := .job i j.jobId, off := 0x00110C, deadline := now u + cfgDisableTimeout s, timedOut := false }]) ∧
  (∀ s t v i j, isReady s = true → i = s.disp.jobSel → j = getSlot s i → j.valid = true → bit v 31 = true → bits v 17 16 < 3 →
    Answers (.tileChoiceSet t v) s fun u => getSlot u i = { j with choice := bits v 17 16 } ∧ (∀ i' ≠ i, getSlot u i' = getSlot s i')) ∧
  (∀ s t d rest, isReady s = true → s.disp.disables = d :: rest → Answers (.groupCommit t) s fun u =>
    u.disp = { s.disp with disables := s.disp.disables ++ [{ kind := .group, off := 0x032800, deadline := 0, timedOut := false }] } ∧ u.peers = s.peers) ∧
  (∀ s t d rest, s.disp.disables = d :: rest → d.timedOut = false → d.deadline ≤ max (now s) t → Answers (.disableTimeout t) s fun u =>
    Marked s u (fun x => usesFunction d.kind x && !x.decided) reasonDisableForced (functionRes d.kind) ∧
    u.disp.disables = { d with timedOut := true } :: rest) ∧
  (∀ s t d i id, s.disp.disables = [d] → d.kind = .job i id → (∀ x ∈ s.disp.units, hJob x.header = id → x.decided = true) → Room s 1 →
    Answers (.disableDone t) s fun u => u.disp.disables = [] ∧ u.hbm.caches = [] ∧ (∀ e ∈ u.hbm.tlb, e.job ≠ id) ∧
      (∀ e ∈ u.disp.residency, e.2.1 ≠ id) ∧ getSlot u i = { getSlot s i with closing := false } ∧
      Posted s u [{ code := 0x000B, res := resJob id, params := [d.off] }]) ∧
  (∀ s t v, isReady s = true → Answers (.modTlbInv t v) s fun u =>
    u = { atMt s t with hbm := { s.hbm with tlb := s.hbm.tlb.filter fun e => e.job != bits v 15 0 } })

/-- For every 257 bits of data and poison, the stored word of 267 bits decodes to them without error; with any one bit
flipped it decodes to them as corrected; with any two bits flipped it is uncorrectable and reads as poisoned. -/
def Obligations.StoredWords : Prop :=
  ∀ d : BitVec 257,
    decodeWord (encodeWord d) = (d, .none) ∧
    (∀ i < 267, decodeWord (encodeWord d ^^^ BitVec.ofNat 267 (2 ^ i)) = (d, .corrected)) ∧
    (∀ i j, i < j → j < 267 → ∃ e, decodeWord (encodeWord d ^^^ BitVec.ofNat 267 (2 ^ i) ^^^ BitVec.ofNat 267 (2 ^ j)) = (e, .uncorrectable) ∧
      e.getLsbD 256 = true)

/-- R104. Adding an integer product to an unmarked entry forms the exact sum; above 2,147,483,647 the entry holds
0x7FFFFFFF, below -2,147,483,648 it holds 0x80000000, and either sets the mark; otherwise the entry holds the sum
unmarked. A marked entry keeps value and mark under every further list of products. At every shift s the product
enters as the floor of its quotient by 2^s; at s = 0 that is the product itself. -/
def Obligations.IntegerAccumulation : Prop :=
  (∀ (comp : Bool) (s : Nat) (a : Acc) (x y p : Int), a.mark = false → p = a.v.toInt + x * y / 2 ^ s →
    (2147483647 < p → (accAdd true comp s a ⟨.int x, .int y⟩).v = 0x7FFFFFFF ∧ (accAdd true comp s a ⟨.int x, .int y⟩).mark = true) ∧
    (p < -2147483648 → (accAdd true comp s a ⟨.int x, .int y⟩).v = 0x80000000 ∧ (accAdd true comp s a ⟨.int x, .int y⟩).mark = true) ∧
    (-2147483648 ≤ p → p ≤ 2147483647 →
      (accAdd true comp s a ⟨.int x, .int y⟩).v.toInt = p ∧ (accAdd true comp s a ⟨.int x, .int y⟩).mark = false)) ∧
  (∀ (comp : Bool) (s : Nat) (a : Acc) (l : List (Int × Int)), a.mark = true →
    ((l.map fun e => Term.mk (.int e.1) (.int e.2)).foldl (accAdd true comp s) a).v = a.v ∧
    ((l.map fun e => Term.mk (.int e.1) (.int e.2)).foldl (accAdd true comp s) a).mark = true)

/-- From an empty entry, after any list of integer products at any shift from 0 to 8, the residue entry kept apart
from the multiplier agrees with the accumulated value, or the entry is marked and skipped: without an upset no cluster
is declared failed by its residue check. -/
def Obligations.ResidueChecks : Prop :=
  ∀ (comp : Bool) (s : Nat) (l : List (Int × Int)), s ≤ 8 →
    residueOk ((l.map fun e => Term.mk (.int e.1) (.int e.2)).foldl (accAdd true comp s) {}) = true

/-- R34. For all FP32 operands: a NaN on either side of a sum or product gives 0x7FC00000 whatever its payload and
sign; an infinity times a zero of any signs, and the sum of opposite infinities, give it too. The sum of +0 and -0 is
+0. -/
def Obligations.FloatSpecials : Prop :=
  ∀ a b : F32,
    (isNan32 a ∨ isNan32 b → f32Add a b = 0x7FC00000 ∧ f32Mul a b = 0x7FC00000) ∧
    (isInf32 a → isZero32 b → f32Mul a b = 0x7FC00000 ∧ f32Mul b a = 0x7FC00000) ∧
    (isInf32 a → isInf32 b → a ≠ b → f32Add a b = 0x7FC00000) ∧
    (isZero32 a → isZero32 b → a ≠ b → f32Add a b = 0)

/-- A full-word slot write stores its bytes and poison, changes no other word and takes the word out of the write-
back; a read of sound words changes only the frame count. A write-back of one word leaves its data without error. A
scrub that finds a corrected word counts it, queues its write-back and posts the fault. A row over its threshold takes
the bank's next spare with its repair entry and event; with no spare left the cluster is declared failed with
mechanism 0x09. The append moves pending repair entries to flash. -/
def Obligations.Scratchpad : Prop :=
  (∀ s t p frame slot pl li i data bad, (getClu s p).power = .active → slotAllows slot true = true →
    (getClu s p).lastFrame ≤ 8 * frame + slot → pl < 48 → li < 64 → i < 64 → data.length = 32 →
    Memory.wf (getClu s p).spad.bytes = true →
    Answers (.slotAccess t p frame slot ⟨false, pl, li, true, [i], List.range 32, [data], [bad]⟩ []) s fun u =>
      spadWord (getClu u p).spad (64 * (64 * pl + li) + i) = (data, bad, .none) ∧
      (∀ w, w ≠ 64 * (64 * pl + li) + i → spadWord (getClu u p).spad w = spadWord (getClu s p).spad w) ∧
      64 * (64 * pl + li) + i ∉ (getClu u p).writeBack ∧ (∀ q ≠ p, getClu u q = getClu s q) ∧ u.pdk = s.pdk ∧ u.disp = s.disp ∧ u.hbm = s.hbm) ∧
  (∀ s t p frame slot a, (getClu s p).power = .active → slotAllows slot false = true → a.write = false →
    (getClu s p).lastFrame ≤ 8 * frame + slot → (getClu s p).spad.upset = [] → (getClu s p).spad.poison = [] →
    Answers (.slotAccess t p frame slot a []) s fun u =>
      u = setClu (atMt s t) p { getClu s p with lastFrame := 8 * frame + slot, idleSince := now u }) ∧
  (∀ s t p frame w, (getClu s p).writeBack = [w] → (getClu s p).power = .active → frame % 2 = 1 → Memory.wf (getClu s p).spad.bytes = true →
    Answers (.farrierWriteBack t p frame) s fun u => (getClu u p).writeBack = [] ∧
      spadWord (getClu u p).spad w = ((spadWord (getClu s p).spad w).1, (spadWord (getClu s p).spad w).2.1, .none) ∧
      (∀ w', w' ≠ w → spadWord (getClu u p).spad w' = spadWord (getClu s p).spad w')) ∧
  (∀ s t p w m, (getClu s p).power ≠ .off → (getClu s p).spad.upset = [(w, m)] → (spadWord (getClu s p).spad w).2.2 = .corrected →
    Room s 1 → Answers (.scrubSweep t p []) s fun u => (getClu u p).spdCe = cap32 ((getClu s p).spdCe + 1) ∧
      w ∈ (getClu u p).writeBack ∧ (bankOf w, bankRowOf w, now u) ∈ (getClu u p).scrubCe ∧ (getClu u p).lastScrub = now u ∧
      (getClu u p).power = (getClu s p).power ∧ (getClu u p).spad = (getClu s p).spad ∧
      Posted s u [{ code := 0x0001, mech := 0x01, res := cluRes s p, params := [p] }]) ∧
  (∀ s t p bank row, (getClu s p).power ≠ .off → (bank, row) ∈ (getClu s p).mapDue → sparesUsed (getClu s p) bank < 48 → Room s 1 →
    Answers (.rowMapOut t p bank row) s fun u =>
      (bank, row, sparesUsed (getClu s p) bank) ∈ (getClu u p).remap ∧ sparesUsed (getClu u p) bank = sparesUsed (getClu s p) bank + 1 ∧
      (bank, row) ∉ (getClu u p).mapDue ∧
      u.flash = { s.flash with repairPending := s.flash.repairPending ++ [{ cluster := p, bank := bank, row := row, field := true }] } ∧
      Posted s u [{ code := 0x0003, params := [p, bank, row, sparesUsed (getClu s p) bank] }]) ∧
  (∀ s t p bank row, (getClu s p).power ≠ .off → (bank, row) ∈ (getClu s p).mapDue → 48 ≤ sparesUsed (getClu s p) bank →
    (getClu s p).halter = false → Answers (.rowMapOut t p bank row) s fun u => ClusterDown s u p 0x09) ∧
  (∀ s t, s.ctl.powered = true → Answers (.repairAppend t) s fun u =>
    u.flash = { s.flash with repair := s.flash.repair ++ s.flash.repairPending, repairPending := [] })

/-- A read request that translates leaves the walk and waits with its bytes under its tag; one that does not translate
gives its unit the cause. Bytes that arrive are written to the scratchpad at their place. A pony read fills the
scratchpad, a pony write becomes a pending write and leaves memory until it lands. A cache read puts its line first in
a set of at most 16. A multicast delivers the sender's bytes to each receiver it reaches and leaves the others waiting
for it. -/
def Obligations.Streams : Prop :=
  (∀ s t p q rest pa leaf, (getClu s p).walk = q :: rest → (getClu s p).power = .active → (getClu s p).halter = false →
    engineOpen s p < 256 → q.write = false → descXlate s (dieOfPhys p) q.job q.va false = .ok pa leaf → bit leaf 3 = false →
    Answers (.streamRequestIssue t p) s fun u => (getClu u p).walk = rest ∧ (getClu u p).spad = (getClu s p).spad ∧
      (getClu u p).outstanding = (getClu s p).outstanding ++ [{ q with tag := (getClu s p).nextTag, bytes := paRead s pa q.len }] ∧
      u.hbm.data = s.hbm.data ∧ u.hbm.pending = s.hbm.pending) ∧
  (∀ s t p q rest x w, (getClu s p).walk = q :: rest → (getClu s p).power = .active → (getClu s p).halter = false →
    engineOpen s p < 256 → (∀ pa leaf, descXlate s (dieOfPhys p) q.job q.va q.write ≠ .ok pa leaf) → findUnit s q.ref.wu = some x →
    w = xlateWhy q.job q.va (descXlate s (dieOfPhys p) q.job q.va q.write) → Answers (.streamRequestIssue t p) s fun u =>
      (getClu u p).walk = rest ∧ (getClu u p).outstanding = (getClu s p).outstanding ∧ u.hbm = s.hbm ∧ u.peers = s.peers ∧
      ∃ y c, findUnit u q.ref.wu = some y ∧ y.causes = x.causes ++ [c] ∧ c.reason = w.1 ∧ c.resource = w.2 ∧ c.mt = now u) ∧
  (∀ s t p q a n, (getClu s p).outstanding = [q] → q.write = false → q.pieces = [(8 * q.va, 8 * a, 8 * n)] →
    (∀ b ∈ q.bytes, b.2 = false) → Answers (.streamReadArrival t p q.tag) s fun u =>
      (getClu u p).outstanding = [] ∧ (getClu u p).spad = spadWrite (getClu s p).spad a (q.bytes.take n) ∧ u.disp = s.disp ∧ u.hbm = s.hbm) ∧
  (∀ s t p job va off len l, 0 < len → len ≤ 256 → (getClu s p).power = .active → (getClu s p).halter = false →
    vRead s (dieOfPhys p) job va len = .ok l → Answers (.ponyTransfer t p false job va off len) s fun u =>
      (getClu u p).spad = spadWrite (getClu s p).spad off l ∧ u.hbm.data = s.hbm.data ∧ u.hbm.pending = s.hbm.pending) ∧
  (∀ s t p job va off len, 0 < len → len ≤ 256 → (getClu s p).power = .active → (getClu s p).halter = false →
    vWriteCheck s (dieOfPhys p) job va len = none → Answers (.ponyTransfer t p true job va off len) s fun u =>
      (getClu u p).spad = (getClu s p).spad ∧ u.hbm.data = s.hbm.data ∧ u.hbm.parity = s.hbm.parity ∧ ∃ l, u.hbm.pending = s.hbm.pending ++ l) ∧
  (∀ s t die pa, die ≤ 3 → pa % 256 = 0 → pa + 256 ≤ serviceCap s → s.ctl.powered = true → (∀ c ∈ cacheLines s die, c.pa ≠ pa) →
    Answers (.weightCacheRead t die pa 256 none) s fun u => (cacheLines u die).head? = some (fetchLine s pa) ∧
      (((cacheLines s die).filter fun c => cacheSet c.pa == cacheSet pa).length ≤ 16 →
        ((cacheLines u die).filter fun c => cacheSet c.pa == cacheSet pa).length ≤ 16) ∧ u.hbm.data = s.hbm.data) ∧
  (∀ s t l a n b r o, served s l = true → (getClu s (physOf s l)).power = .active → (getClu s (physOf s l)).halter = false →
    0 < n → n ≤ spadSize → (getClu s (physOf s l)).spad.upset = [] → physOf s r ≠ physOf s l → Answers (.multicastSend t l a n b [r] [r] o) s fun u =>
      (getClu u (physOf s r)).spad = spadWrite (getClu s (physOf s r)).spad b (spadRead (getClu s (physOf s l)).spad a n) ∧
      (getClu u (physOf s l)).spad = (getClu s (physOf s l)).spad ∧ u.hbm = s.hbm) ∧
  (∀ s t l a n b r o, served s l = true → (getClu s (physOf s l)).power = .active → (getClu s (physOf s l)).halter = false →
    0 < n → n ≤ spadSize → (getClu s (physOf s l)).spad.upset = [] → Answers (.multicastSend t l a n b [r] [] o) s fun u =>
      (getClu u (physOf s r)).mcastWait = (getClu s (physOf s r)).mcastWait ++ [(b, n, now u + cfgMcastWait s, o)] ∧
      (getClu u (physOf s r)).spad = (getClu s (physOf s r)).spad) ∧
  (∀ s t r b n due o off, (getClu s (physOf s r)).mcastWait = [(b, n, due, .spad o off)] → due ≤ max (now s) t →
    Answers (.multicastWaitExpiry t r) s fun u => (getClu u (physOf s r)).mcastWait = [] ∧
      (getClu u (physOf s r)).mcastMiss = cap32 ((getClu s (physOf s r)).mcastMiss + 1) ∧
      (getClu u (physOf s r)).spad = spadWrite (getClu s (physOf s r)).spad b (spadRead (getClu s (physOf s o)).spad off n))

/-- If every stored parity byte is the exclusive or of its row's 19 data bytes and nothing is lost, it is so after
every parity write that lands a pending write; while it is so, the byte reconstructed from the other 18 and the parity
is the stored byte; and it is so at reset. -/
def Obligations.ParityKept : Prop :=
  (∀ s t row u, MemoryWf s → nothingLost s = true → ParityHolds s →
    exec (.parityWrite t row) s = .next u → ParityHolds u) ∧
  (∀ s n d o, ParityHolds s → d < 19 → o < 4096 → reconstruct s n d o = cellGet s.hbm.data (unitByte n d o)) ∧
  ParityHolds State.reset

/-- A corrected read counts one error of its stack; an uncorrectable one counts, marks its unit for retirement and
posts the fault. A patrol visit advances and marks a granule corrected too often. A pending write lands exactly its
bytes. A retirement moves a frame to the pool with its flash entry and event, or loses the unit where only the pool
guards it. A failed pseudo-channel or stack is lost, and the units that touched it get a cause HW_FAULT; a rebuilt
region ends the loss. -/
def Obligations.HbmMemory : Prop :=
  (∀ s t pa k, pa < serviceCap s → s.ctl.powered = true → decodable s (dataAddr s pa) = true → 1 ≤ k → k ≤ 3 →
    Answers (.hbmRead t pa (.corrected k)) s fun u =>
      u = { atMt s t with hbm := { s.hbm with ce := tblInc s.hbm.ce (stackOf (dataAddr s pa)) } }) ∧
  (∀ s t pa da, da = dataAddr s pa → pa < serviceCap s → s.ctl.powered = true → decodable s da = true → Room s 1 →
    ∀ c ∈ [Instr.hbmRead t pa .uncorrectable, .patrolScrubVisit t pa .uncorrectable], Answers c s fun u =>
      u.hbm.ue = tblInc s.hbm.ue (stackOf da) ∧ u.hbm.ce = s.hbm.ce ∧ da / 4096 ∈ u.hbm.retireDue ∧
      Posted s u [{ code := 0x0001, mech := 0x11, res := resStack (stackOf da), params := [stackOf da] }]) ∧
  (∀ s t pa da k, da = dataAddr s pa → pa < serviceCap s → s.ctl.powered = true → decodable s da = true → 1 ≤ k → k ≤ 3 →
    Answers (.patrolScrubVisit t pa (.corrected k)) s fun u =>
      u.hbm.scrubProgress = pa * 65536 / serviceCap s ∧ u.hbm.ce = tblInc s.hbm.ce (stackOf da) ∧
      now u ∈ tblGet [] u.hbm.scrubHits (da / 64) ∧ u.hbm.data = s.hbm.data ∧
      (da / 4096 ∈ u.hbm.retireDue ↔ da / 4096 ∈ s.hbm.retireDue ∨ cfgHbmRetireCe s ≤ (tblGet [] u.hbm.scrubHits (da / 64)).length)) ∧
  (∀ s t w, s.hbm.pending = [w] → w.who = .nobody → w.bytes ≠ [] → nothingLost s = true → MemoryWf s →
    Answers (.parityWrite t (rowOf (dataAddr s w.pa))) s fun u => u.hbm.pending = [] ∧
      (∀ i (h : i < w.bytes.length), cellGet u.hbm.data (dataAddr s w.pa + i) = w.bytes[i].1) ∧
      (∀ a, (a < dataAddr s w.pa ∨ dataAddr s w.pa + w.bytes.length ≤ a) → cellGet u.hbm.data a = cellGet s.hbm.data a) ∧
      u.disp = s.disp ∧ u.host = s.host ∧ u.pdk = s.pdk ∧ u.clu = s.clu) ∧
  (∀ s t unit f v, unit ∈ s.hbm.retireDue → (rowFrames (unit / 19)).filter (fun f => (frameUser s f).isSome) = [f] → frameUser s f = some v →
    cfgSingleGuard s = false → s.hbm.poolUsed < 2048 → Room s 1 → Answers (.pageRetire t unit) s fun u =>
      tblGet 0 u.hbm.frameMap v = 737280 + s.hbm.poolUsed ∧ u.hbm.poolUsed = s.hbm.poolUsed + 1 ∧ unit ∉ u.hbm.retireDue ∧
      u.flash = { s.flash with retiredPending := s.flash.retiredPending ++ [v] } ∧
      Posted s u [{ code := 0x0004, params := [v, 2047 - s.hbm.poolUsed] }]) ∧
  (∀ s t unit, unit ∈ s.hbm.retireDue → (rowFrames (unit / 19)).filter (fun f => (frameUser s f).isSome) ≠ [] → cfgSingleGuard s = true →
    Answers (.pageRetire t unit) s fun u => unit ∉ u.hbm.retireDue ∧ u.hbm.frameMap = s.hbm.frameMap ∧
      dataStack (unit / 19) (unit % 19) * 2 ^ 25 + unit / 19 ∈ u.hbm.lostUnits) ∧
  (∀ s t, s.ctl.powered = true → Answers (.retirementAppend t) s fun u =>
    u.flash = { s.flash with retired := s.flash.retired ++ s.flash.retiredPending, retiredPending := [] }) ∧
  (∀ s t k c, s.ctl.powered = true → k < 20 → c < 64 → regionKnown s k (some c) = false → Answers (.pseudoChannelFail t k c) s fun u =>
    Marked s u (fun x => x.touchedPcs.any fun e => e.1 == 64 * k + c) reasonHwFault (resPseudo k c) ∧
    { stack := k, pc := some c, rebuilt := false } ∈ u.hbm.lost ∧ (cfgSingleGuard s = false → u.hbm.rebuilding = true)) ∧
  (∀ s t k, s.ctl.powered = true → k < 20 → regionKnown s k none = false → Answers (.stackFail t k) s fun u =>
    Marked s u (fun _ => true) reasonHwFault (resStack k) ∧ u.hbm.data = s.hbm.data ∧
    { stack := k, pc := none, rebuilt := false } ∈ u.hbm.lost ∧ (cfgSingleGuard s = false → u.hbm.rebuilding = true)) ∧
  (∀ s t r, s.hbm.rebuilding = true → s.hbm.lost = [r] → r.rebuilt = false → Room s 1 → s.flt.capacity = [] → Answers (.rebuildComplete t) s fun u =>
    u.hbm.lost = [{ r with rebuilt := true, holes := [] }] ∧ u.hbm.rebuilding = false ∧ u.hbm.rebuildProgress = 65535 ∧
    Posted s u [{ code := 0x0005, res := regionRes r }])

/-- A DATA write of a rank of the window becomes one pending write at the window's address and awaits its landing; a
repeated PSEQ changes nothing. A LANDED settles every outstanding write up to its PSEQ, or on a receiving window adds
1 to the window's counter. A message for another rank goes out at the next hop with one hop more, or is dropped at 8
hops. A peer NACK ends the write it names and gives its unit the cause. Details the spec leaves open are the model's
(logs 17, 26). -/
def Obligations.PeerWrites : Prop :=
  (∀ s t p d se b x va pa leaf, PeerMessage (atMt s t) p d se 0 b → x = getWin s (b.window % 16) → x.kind = 2 →
    (winRanks x).contains b.srcRank = true → b.offset + b.len ≤ winBytes x → b.len ≠ 0 → b.offset % 64 + b.len ≤ 8192 →
    b.data.length = b.len → va = winBase x + b.offset → va % 2097152 + b.len ≤ 2097152 → descXlate s 4 x.job va true = .ok pa leaf →
    pa % 4096 + b.len ≤ 4096 → Answers (.peerData t p d) s fun u =>
      u.hbm.pending = s.hbm.pending ++ [{ src := 1000, pa := pa, bytes := bodyBytes b, who := .peer b.srcRank b.pseq (b.window % 16) }] ∧
      u.hbm.data = s.hbm.data ∧ u.peers.landing = s.peers.landing ++ [(b.srcRank, b.pseq, b.window % 16)] ∧ u.disp = s.disp) ∧
  (∀ s t p d se b, PeerAccepts (atMt s t) p d 0x20 se → b = parsePeer (plainBody se d) → b.pkind ≠ 3 → b.dstRank = s.peers.rank →
    pseqSeen s b.srcRank b.pseq = true → Answers (.peerData t p d) s fun u =>
      u.hbm = s.hbm ∧ u.disp = s.disp ∧ u.reins = s.reins ∧ u.peers.rounds = s.peers.rounds ∧ u.peers.pseqLanded = s.peers.pseqLanded) ∧
  (∀ s t p d se b, PeerMessage (atMt s t) p d se 3 b → (getWin s (b.window % 16)).kind ≠ 2 → Answers (.peerLanded t p d) s fun u =>
    u.peers.out = (s.peers.out.filter fun o => !(o.dst == b.srcRank && (o.pseq == b.pseq || serialLt o.pseq b.pseq))) ∧
    u.hbm = s.hbm ∧ u.disp = s.disp ∧ u.reins = s.reins) ∧
  (∀ s t p d se b, PeerMessage (atMt s t) p d se 3 b → (getWin s (b.window % 16)).kind = 2 → s.peers.finals.contains (b.srcRank, b.pseq) = false →
    s.peers.finalsWait = [] → (b.pseq = landedOf s b.srcRank ∨ serialLt b.pseq (landedOf s b.srcRank) = true) → Answers (.peerLanded t p d) s fun u =>
      getCtr u (getWin s (b.window % 16)).ctr = { getCtr s (getWin s (b.window % 16)).ctr with value := (getCtr s (getWin s (b.window % 16)).ctr).value + 1 } ∧
      (∀ n, n ≠ (getWin s (b.window % 16)).ctr → getCtr u n = getCtr s n) ∧ u.peers.finalsWait = [] ∧
      (b.srcRank, b.pseq) ∈ u.peers.finals ∧ u.hbm = s.hbm) ∧
  (∀ s t p d se b q y, PeerAccepts (atMt s t) p d 0x20 se → b = parsePeer (plainBody se d) → b.dstRank ≠ s.peers.rank → b.hops < 8 →
    nextHop s b.dstRank = some q → q ≠ p → findSess s (.peer q) q = some y → FreshSeq y → Answers (.peerForward t p d) s fun u =>
      PeerQueued u q 0x20 (setBytes (plainBody se d) 1 (leBytes 1 (b.hops + 1))) ∧ u.hbm = s.hbm ∧ u.disp = s.disp) ∧
  (∀ s t p d se b, PeerAccepts (atMt s t) p d 0x20 se → b = parsePeer (plainBody se d) → b.dstRank ≠ s.peers.rank → 8 ≤ b.hops →
    Answers (.peerForward t p d) s fun u => (peerPortOf u p).ctr.ipDrop = cap32 ((peerPortOf s p).ctr.ipDrop + 1) ∧
      (∀ q, q ≠ p → peerPortOf u q = peerPortOf s q) ∧ u.hbm = s.hbm ∧ u.disp = s.disp) ∧
  (∀ s t p d se b o w, PeerAccepts (atMt s t) p d 0x61 se → b = plainBody se d → leAt b 8 4 / 256 % 256 = s.peers.rank →
    (s.peers.out.find? fun o => o.dst == leAt b 8 4 % 256 && o.pseq == leAt b 0 4) = some o → w = nackWhy (leAt b 5 1) (leAt b 16 8) →
    Answers (.peerNack t p d) s fun u => Marked s u (fun x => x.wuId == o.ref.wu) w.1 w.2 ∧
      u.peers.out = (s.peers.out.filter fun x => x != o) ∧ u.hbm = s.hbm)

/-- A LEAF value of the present round for a node this rank owns joins the round's values; one of the next round is
kept for it. A RESULT becomes one pending write of its bytes. An abort, or a round open too long, gives the units that
wrote to it a cause PEER_LOST naming the rank and opens the round anew under its generation. The layout of leaf data
is the model's (log 17). -/
def Obligations.PeerReductions : Prop :=
  (∀ s t p d se b w x me z v, PeerMessage (atMt s t) p d se 1 b → w = b.window % 16 → x = getWin s w → x.kind = 4 →
    (winRanks x).contains b.srcRank = true → b.gen = (getRound s w).gen → (winRanks x).findIdx? (· == s.peers.rank) = some me →
    ((bodyElems b 8).map fun e => ({ lo := b.treeLo, hi := b.treeHi, elem := e.1, v := leafOf (x.etype == 14) e.2.1, bad := e.2.2 } : RoundVal)) = [v] →
    (v.lo, v.hi) ≠ (0, (winRanks x).length) → treeParent 8 0 (winRanks x).length v.lo v.hi = some (me, z) →
    (∀ y ∈ (getRound s w).vals, y.elem ≠ v.elem) → Answers (.peerLeaf t p d) s fun u =>
      (getRound u w).vals = (getRound s w).vals ++ [v] ∧ (getRound u w).first.isSome = true ∧ u.hbm = s.hbm) ∧
  (∀ s t p d se b w x, PeerMessage (atMt s t) p d se 1 b → w = b.window % 16 → x = getWin s w → x.kind = 4 →
    (winRanks x).contains b.srcRank = true → b.gen = ((getRound s w).gen + 1) % 2 ^ 32 → b.gen ≠ (getRound s w).gen →
    Answers (.peerLeaf t p d) s fun u => u.hbm = s.hbm ∧ (getRound u w).vals = (getRound s w).vals ∧
      (getRound u w).early = (getRound s w).early ++
        (bodyElems b 8).map fun e => { lo := b.treeLo, hi := b.treeHi, elem := e.1, v := leafOf (x.etype == 14) e.2.1, bad := e.2.2 }) ∧
  (∀ s t p d se b w x va pa leaf, PeerMessage (atMt s t) p d se 2 b → w = b.window % 16 → x = getWin s w → x.kind = 4 →
    (winRanks x).contains b.srcRank = true → b.gen = (getRound s w).gen → b.data ≠ [] → va = winBase x + b.offset →
    va % 2097152 + b.data.length ≤ 2097152 → Sys2Proof.Machine.translate s 4 x.job va = .ok pa leaf → pa % 4096 + b.data.length ≤ 4096 →
    Answers (.peerResult t p d) s fun u => u.hbm.pending = s.hbm.pending ++
        [{ src := 1000, pa := pa, bytes := bodyBytes b, who := .result w b.gen (b.offset / 4) (b.data.length / 4) }] ∧
      u.hbm.data = s.hbm.data ∧ (getRound u w).vals = (getRound s w).vals ∧
      (getRound u w).poisoned = ((getRound s w).poisoned || b.poison != [])) ∧
  (∀ s t p d se b w x, PeerMessage (atMt s t) p d se 4 b → w = b.window % 16 → x = getWin s w → x.kind = 4 → b.gen = (getRound s w).gen →
    s.peers.finalsWait = [] → Answers (.roundAbort t p d) s fun u =>
      Marked s u (fun y => (getRound s w).writers.contains (y.wuId, y.epoch)) reasonPeerLost (resRank (nth b.srcRank (winRanks x) b.treeLo)) ∧
      getRound u w = { gen := b.gen } ∧ u.hbm = s.hbm) ∧
  (∀ s t w m, (tblFind s.peers.rounds w).bind (·.first) = some m → m + cfgPeerRedWait s ≤ max (now s) t → Answers (.roundTimeout t w) s fun u =>
    Marked s u (fun y => (getRound s w).writers.contains (y.wuId, y.epoch)) reasonPeerLost (resRank (missingRank s w)) ∧
    getRound u w = { gen := (getRound s w).gen } ∧ u.hbm = s.hbm)

/-- A port whose partner returns the pattern links, otherwise it is foreign, and a rank with higher partners sends its
HELLO. A failed lane takes lane 8 in its place and retrains; lane 8 failing leaves none; a second failed lane, or a
loss that stands, ends the link and its session. A finished retraining restores the session's state with its event. A
quiet session pings every 100 µs. A bad frame is counted by its first fault. Choices of HELLO and PING content are the
model's (log 26). -/
def Obligations.PeerPorts : Prop :=
  (∀ s t p pattern, s.ctl.powered = true → p < 4 → cfgGroupId s ≠ 0 → (peerPortOf s p).state ≤ 2 → Answers (.peerLinkTrain t p pattern) s fun u =>
    (peerPortOf u p).state = (if pattern then 3 else 2) ∧ Sent.peerPattern (now u) p ∈ u.host.sent ∧
    (∀ q, q ≠ p → peerPortOf u q = peerPortOf s q) ∧
    ((isReady s && pattern && (portRanks s p).any fun d => decide (s.peers.rank < d)) = true → u.host.sent.length = s.host.sent.length + 2 ∧ u.free = s.free + 32)) ∧
  (∀ s t p lane, s.ctl.powered = true → p < 4 → 3 ≤ (peerPortOf s p).state → (peerPortOf s p).spareFor = 0xF → (peerPortOf s p).spareFailed = false → Room s 1 →
    (lane < 8 → Answers (.peerLaneFail t p lane) s fun u => peerPortOf u p = { peerPortOf s p with spareFor := lane, state := 6 } ∧
      Posted s u [{ code := 0x0001, mech := 0x0E, res := farRes s p, params := [lane] }]) ∧
    Answers (.peerLaneFail t p 8) s fun u => peerPortOf u p = { peerPortOf s p with spareFailed := true } ∧
      Posted s u [{ code := 0x0001, mech := 0x0E, res := farRes s p, params := [8] }]) ∧
  (∀ s t p lane, s.ctl.powered = true → p < 4 → 3 ≤ (peerPortOf s p).state → lane < 8 → lane ≠ (peerPortOf s p).spareFor → (peerPortOf s p).spareFor ≠ 0xF →
    Answers (.peerLaneFail t p lane) s fun u => PortLost u p) ∧
  (∀ s t p, (peerPortOf s p).state = 6 → Room s 1 → Answers (.peerRetrainDone t p) s fun u =>
    (peerPortOf u p).state = (if (peerPortOf s p).session.isSome then 5 else 3) ∧ (peerPortOf u p).spareFor = (peerPortOf s p).spareFor ∧
    Posted s u [{ code := 0x0041, params := [p, (peerPortOf s p).spareFor] }]) ∧
  (∀ s t p why, p < 4 → lossStands (atMt s t) p why = true → Answers (.peerLinkLost t p why) s fun u => PortLost u p) ∧
  (∀ s t p se, (peerPortOf s p).state = 5 → (peerPortOf s p).session = some se → se.held = [] → (peerPortOf s p).lastPing + 250000 ≤ max (now s) t →
    s.ctl.powered = true → Answers (.peerPingTimer t p) s fun u => (peerPortOf u p).lastPing = now u ∧ u.free = s.free + 8 ∧
      ∃ low mt x b tag, u.host.sent = .imp (now u) (.peer p) se.num se.gen 0x7F se.enc false false 0 low mt x b tag :: s.host.sent) ∧
  (∀ s t p f d, p < 4 → linkUp s (.peer p) = true → peerVerdict s f d ≠ 0 → Answers (.peerFrameDiscard t p f d) s fun u =>
    (peerPortOf u p).ctr = (let c := (peerPortOf s p).ctr
      match peerVerdict s f d with
      | 1 => { c with dropLen := cap32 (c.dropLen + 1) }
      | 2 => { c with dropFcs := cap32 (c.dropFcs + 1) }
      | _ => { c with dropAddr := cap32 (c.dropAddr + 1) }) ∧ (peerPortOf u p).session = (peerPortOf s p).session)

/-- A HELLO of a lower rank is answered with the bundle under a fresh nonce. An ENCAP under a standing nonce opens a
session with the derived keys exactly when the sender's key has the digest of its rank and its signature over the
transcript holds. Bundle parts are gathered until whole; a whole bundle that proves its rank is answered with the key
exchange, any other ends the attempt. The answer that confirms the transcript opens the session; a CLOSE ends it.
Cryptography is opaque (log 6); the choices of log 26 are the model's. -/
def Obligations.PeerSessions : Prop :=
  (∀ s t p d nonce rnd, p < 4 → linkUp s (.peer p) = true → d.session = 0xFF → openCheck (atMt s t) (.peer p) d 0x70 = 0 →
    leAt d.body 1 1 < s.peers.rank → isReady s = true → peerInitOk d 0 36 = true → leAt d.body 1 1 < s.peers.size →
    (rankDigest s (leAt d.body 1 1)).isSome = true → Answers (.peerKeyInit t p d nonce rnd) s fun u =>
      (peerPortOf u p).nonces = (nonce, now u) :: (freshNonces (now u) (peerPortOf s p).nonces).take 255 ∧
      (peerPortOf u p).session = (peerPortOf s p).session ∧
      u.host.sent.length = s.host.sent.length + max 1 (ceilDiv (bundleBytes s).length 8192)) ∧
  (∀ s t p d nonce rnd r b pub tr k, p < 4 → linkUp s (.peer p) = true → d.session = 0xFF → openCheck (atMt s t) (.peer p) d 0x70 = 0 →
    b = d.body → r = leAt b 1 1 → r < s.peers.rank → isReady s = true → peerInitOk d 1 6422 = true → pub = (b.drop 4465).take 1952 →
    r < s.peers.size → (tblFind s.peers.routes r).map (·.primary) = some p → sameGroup s b = true →
    ((freshNonces (max (now s) t) (peerPortOf s p).nonces).any fun e => e.1 == (b.drop 36).take 32) = true →
    tr = peerTranscript ((b.drop 4).take 32) ((b.drop 36).take 32) r (leAt b 2 1) ((b.drop 68).take 1088) ((b.drop 4465).take 1957) (bundleBytes s) →
    k = deriveKeys (Config.mlKemDecap s.sec.kemSeed ((b.drop 68).take 1088)) tr → Answers (.peerKeyInit t p d nonce rnd) s fun u =>
      if rankDigest s r = some (shake512 pub) ∧ Config.mlDsaVerify pub tr ((b.drop 1156).take 3309) "IMP-KEY_INIT" = true then
        u.host.genCount = (s.host.genCount + 1) % 2 ^ 32 ∧ u.peers.ready = groupIsReady u ∧ (peerPortOf u p).state = 5 ∧
        (peerPortOf u p).farRank = r ∧ (∀ e ∈ (peerPortOf u p).nonces, e.1 ≠ (b.drop 36).take 32) ∧
        ∃ x, (peerPortOf u p).session = some x ∧ x.key = r ∧ x.gen = u.host.genCount ∧ x.enc = (leAt b 2 1 == 1) ∧
          x.tagRx = k.take 32 ∧ x.tagTx = (k.drop 32).take 32 ∧ x.encRx = (k.drop 64).take 32 ∧ x.encTx = (k.drop 96).take 32
      else u.host.genCount = s.host.genCount ∧ (peerPortOf u p).session = (peerPortOf s p).session ∧
        (rankDigest s r ≠ some (shake512 pub) → (peerPortOf s p).session = none → (peerPortOf u p).state = 4)) ∧
  (∀ s t p d nonce rnd se, p < 4 → LinkAccepts (atMt s t) (.peer p) d 0x70 se → d.session ≠ 0xFF → leAt (plainBody se d) 0 1 = 2 →
    Answers (.peerKeyInit t p d nonce rnd) s fun u => PortLost u p) ∧
  (∀ s t p d nonce rnd, p < 4 → linkUp s (.peer p) = true → d.session = 0xFF → openCheck (atMt s t) (.peer p) d 0x71 = 0 →
    leAt d.body 1 1 = 0 → leAt d.body 0 1 = 0 → (peerPortOf s p).nonceOut ≠ [] →
    wholeBundle (leAt d.body 36 4) (((peerPortOf s p).parts.filter fun e => e.1 != leAt d.body 40 4) ++ [(leAt d.body 40 4, d.body.drop 44)]) = none →
    Answers (.peerKeyReply t p d nonce rnd) s fun u =>
      (peerPortOf u p).parts = ((peerPortOf s p).parts.filter fun e => e.1 != leAt d.body 40 4) ++ [(leAt d.body 40 4, d.body.drop 44)] ∧
      (peerPortOf u p).session = (peerPortOf s p).session ∧ (peerPortOf u p).opening = (peerPortOf s p).opening) ∧
  (∀ s t p d nonce rnd b, p < 4 → linkUp s (.peer p) = true → d.session = 0xFF → openCheck (atMt s t) (.peer p) d 0x71 = 0 →
    leAt d.body 1 1 = 0 → leAt d.body 0 1 = 0 → (peerPortOf s p).nonceOut ≠ [] →
    wholeBundle (leAt d.body 36 4) (((peerPortOf s p).parts.filter fun e => e.1 != leAt d.body 40 4) ++ [(leAt d.body 40 4, d.body.drop 44)]) = some b →
    Answers (.peerKeyReply t p d nonce rnd) s fun u => (peerPortOf u p).session = (peerPortOf s p).session ∧
      if bundleOk b = true ∧ (provenRank s p b).isSome = true then u.host.sent.length = s.host.sent.length + 1 ∧
        ∃ x far c, provenRank s p b = some far ∧ (peerPortOf u p).opening = some (x, far, c) ∧ x.key = far ∧ x.enc = Config.peerEnc
      else u.host.sent = s.host.sent ∧ (peerPortOf u p).opening = none ∧
        ((peerPortOf s p).session = none → (peerPortOf u p).state = 4)) ∧
  (∀ s t p d nonce rnd x far c, p < 4 → linkUp s (.peer p) = true → d.session ≠ 0xFF → (peerPortOf s p).opening = some (x, far, c) →
    d.version = 1 → d.peer = true → d.body.length ≤ 8272 → tagOk { x with gen := d.gen } d = true → ageOk (.peer p) (max (now s) t) d.mt = true → d.typ = 0x71 →
    leAt (plainBody { x with gen := d.gen } d) 0 1 = 1 → leAt (plainBody { x with gen := d.gen } d) 1 1 = 0 →
    ((plainBody { x with gen := d.gen } d).drop 8).take 32 = c → Answers (.peerKeyReply t p d nonce rnd) s fun u =>
      (peerPortOf u p).session = some { x with gen := d.gen, lastRx := now u, rxHigh := d.xmit, rxXmits := [d.xmit] } ∧
      (peerPortOf u p).state = 5 ∧ (peerPortOf u p).farRank = far ∧ u.peers.ready = groupIsReady u)
end

