-- ==== Sys2Proof/Laws/Memory.lean ====
section
/-! SUPPORT. The laws of byte memory: what a read sees after a write, and that every operation keeps the canonical form. -/

namespace Sys2Proof.Laws

open Sys2Proof.Machine

/-- A memory whose addresses all lie above a bound, in canonical form. -/
def WfAbove (lo : Nat) (c : Cells) : Prop := Memory.wf c = true ∧ ∀ e ∈ c, lo < e.1

theorem wf_cons {a : Nat} {v : Byte} {r : Cells} :
    Memory.wf ((a, v) :: r) = true ↔ v ≠ 0 ∧ WfAbove a r := by
  induction r generalizing a v with
  | nil => simp [Memory.wf, WfAbove]
  | cons e r ih =>
    obtain ⟨b, w⟩ := e
    simp only [Memory.wf, WfAbove, Bool.and_eq_true, decide_eq_true_eq, bne_iff_ne, ne_eq, List.mem_cons, forall_eq_or_imp]
    constructor
    · rintro ⟨⟨hab, hv⟩, hw⟩
      refine ⟨hv, hw, hab, fun e he => ?_⟩
      exact lt_trans hab ((ih.mp hw).2.2 e he)
    · rintro ⟨hv, hw, hab, -⟩
      exact ⟨⟨hab, hv⟩, hw⟩

/-- A key below every address of a canonical memory is not listed. -/
theorem cellGet_below {c : Cells} {lo x : Nat} (h : ∀ e ∈ c, lo < e.1) (hx : x ≤ lo) : cellGet c x = 0 := by
  induction c with
  | nil => rfl
  | cons e r ih =>
    obtain ⟨k, v⟩ := e
    have hk : lo < k := h (k, v) (by simp)
    have : k ≠ x := by omega
    simp only [cellGet, this, if_false]
    exact ih fun e he => h e (by simp [he])

theorem mem_cellSet {c : Cells} {x : Nat} {b : Byte} {e : Host.Cell} (h : e ∈ cellSet c x b) : e = (x, b) ∨ e ∈ c := by
  induction c with
  | nil => unfold cellSet at h; split at h <;> simp_all
  | cons y r ih =>
    obtain ⟨k, v⟩ := y
    unfold cellSet at h
    (repeat' split at h) <;> simp_all
    all_goals tauto

/-- A byte write keeps the canonical form. -/
theorem cellSet_wf {c : Cells} (h : Memory.wf c = true) (x : Nat) (b : Byte) : Memory.wf (cellSet c x b) = true := by
  induction c with
  | nil => unfold cellSet; split <;> simp_all [Memory.wf]
  | cons y r ih =>
    obtain ⟨k, v⟩ := y
    have ⟨hv, hr, hk⟩ := wf_cons.mp h
    unfold cellSet
    by_cases hxk : x < k
    · simp only [hxk, if_true]
      split
      · exact h
      · refine wf_cons.mpr ⟨by assumption, h, fun e he => ?_⟩
        rcases List.mem_cons.mp he with rfl | he
        · exact hxk
        · exact lt_trans hxk (hk e he)
    · simp only [hxk, if_false]
      by_cases he : x = k
      · subst he
        simp only [if_true]
        split
        · exact hr
        · exact wf_cons.mpr ⟨by assumption, hr, hk⟩
      · simp only [he, if_false]
        refine wf_cons.mpr ⟨hv, ih hr, fun e h' => ?_⟩
        rcases mem_cellSet h' with rfl | h'
        · simp only; omega
        · exact hk e h'

/-- Writing several bytes keeps the canonical form. -/
theorem cellWrite_wf {c : Cells} (h : Memory.wf c = true) (a : Nat) (l : List Byte) : Memory.wf (cellWrite c a l) = true := by
  induction l generalizing c a with
  | nil => exact h
  | cons b bs ih => exact ih (cellSet_wf h a b) (a + 1)

theorem cellsOf_fold_wf {c : Cells} (h : Memory.wf c = true) (l : List Host.Cell) :
    Memory.wf (l.foldl (fun c e => cellSet c e.1 e.2) c) = true := by
  induction l generalizing c with
  | nil => exact h
  | cons e l ih => exact ih (cellSet_wf h e.1 e.2)

/-- A memory made from pairs is in canonical form. -/
theorem cellsOf_wf (l : List Host.Cell) : Memory.wf (cellsOf l) = true := cellsOf_fold_wf rfl l

/-- A read of the byte just written sees it. -/
theorem cellGet_cellSet_same {c : Cells} (h : Memory.wf c = true) (x : Nat) (b : Byte) : cellGet (cellSet c x b) x = b := by
  induction c with
  | nil => unfold cellSet; split <;> simp_all [cellGet]
  | cons y r ih =>
    obtain ⟨k, v⟩ := y
    have ⟨_, hr, hk⟩ := wf_cons.mp h
    unfold cellSet
    by_cases hxk : x < k
    · simp only [hxk, if_true]
      split
      · subst b
        have : k ≠ x := by omega
        simp only [cellGet, this, if_false]
        exact cellGet_below hk (le_of_lt hxk)
      · simp [cellGet]
    · simp only [hxk, if_false]
      by_cases he : x = k
      · subst he
        simp only [if_true]
        split
        · subst b; exact cellGet_below hk le_rfl
        · simp [cellGet]
      · simp only [he, if_false, cellGet, Ne.symm he]
        exact ih hr

/-- A byte write leaves every other byte alone. -/
theorem cellGet_cellSet_other (c : Cells) {x y : Nat} (b : Byte) (h : y ≠ x) : cellGet (cellSet c x b) y = cellGet c y := by
  induction c with
  | nil => unfold cellSet; split <;> simp_all [cellGet, Ne.symm]
  | cons e r ih =>
    obtain ⟨k, v⟩ := e
    have hxy : x ≠ y := Ne.symm h
    unfold cellSet
    by_cases hxk : x < k
    · simp only [hxk, if_true]
      split <;> simp [cellGet, hxy]
    · simp only [hxk, if_false]
      by_cases he : x = k
      · subst he
        simp only [if_true]
        split <;> simp [cellGet, hxy]
      · simp only [he, if_false, cellGet]
        rw [ih]

/-- A write of several bytes leaves every byte outside them alone. -/
theorem cellGet_cellWrite_other (c : Cells) (a : Nat) (l : List Byte) {y : Nat} (h : y < a ∨ a + l.length ≤ y) :
    cellGet (cellWrite c a l) y = cellGet c y := by
  induction l generalizing c a with
  | nil => rfl
  | cons b bs ih =>
    simp only [List.length_cons] at h
    simp only [cellWrite]
    rw [ih _ _ (by omega), cellGet_cellSet_other _ _ (by omega)]

/-- A read of bytes just written sees them. -/
theorem cellGet_cellWrite_same {c : Cells} (hc : Memory.wf c = true) (a : Nat) (l : List Byte) {i : Nat} (h : i < l.length) :
    cellGet (cellWrite c a l) (a + i) = l[i] := by
  induction l generalizing c a i with
  | nil => simp at h
  | cons b bs ih =>
    simp only [cellWrite]
    cases i with
    | zero =>
      rw [cellGet_cellWrite_other _ _ _ (by omega)]
      simpa using cellGet_cellSet_same hc a b
    | succ i =>
      have := ih (cellSet_wf hc a b) (a + 1) (i := i) (by simpa using h)
      simpa [Nat.add_assoc, Nat.add_comm 1 i] using this

/-! ## Tables -/

/-- What a table holds at the key just set. -/
@[simp] theorem tblGet_tblSet_same {α : Type} (d : α) (t : Tbl α) (x : Nat) (a : α)  : tblGet d (tblSet t x a) x = a := by
  induction t with
  | nil => simp [tblSet, tblGet]
  | cons e r ih =>
    obtain ⟨k, v⟩ := e
    unfold tblSet
    by_cases h1 : x < k
    · simp [h1, tblGet]
    · by_cases h2 : x = k
      · simp [h2, tblGet]
      · simp [h1, h2, tblGet, Ne.symm h2, ih]

/-- Setting a key leaves every other key alone. -/
theorem tblGet_tblSet_other {α : Type} (d : α) (t : Tbl α) {x y : Nat} (a : α) (h : y ≠ x) :
    tblGet d (tblSet t x a) y = tblGet d t y := by
  have hxy : x ≠ y := Ne.symm h
  induction t with
  | nil => simp [tblSet, tblGet, hxy]
  | cons e r ih =>
    obtain ⟨k, v⟩ := e
    unfold tblSet
    by_cases h1 : x < k
    · simp [h1, tblGet, hxy]
    · by_cases h2 : x = k
      · subst h2; simp [tblGet, hxy]
      · simp [h1, h2, tblGet, ih]

theorem mem_tblSet {α : Type} {t : Tbl α} {x : Nat} {a : α} {e : Nat × α} (h : e ∈ tblSet t x a) : e = (x, a) ∨ e ∈ t := by
  induction t with
  | nil => simpa [tblSet] using h
  | cons y r ih =>
    obtain ⟨k, v⟩ := y
    unfold tblSet at h
    (repeat' split at h) <;> simp only [List.mem_cons] at h ⊢
    · tauto
    · tauto
    · rcases h with h | h
      · exact .inr (.inl h)
      · rcases ih h with h | h
        · exact .inl h
        · exact .inr (.inr h)

/-- A property of every listed entry and of the default holds of what a table holds at any key. -/
theorem tblGet_of_all {α : Type} {P : α → Prop} {d : α} {t : Tbl α} (h : ∀ e ∈ t, P e.2) (hd : P d) (x : Nat) :
    P (tblGet d t x) := by
  induction t with
  | nil => exact hd
  | cons e r ih =>
    obtain ⟨k, v⟩ := e
    unfold tblGet
    split
    · exact h (k, v) (by simp)
    · exact ih fun e he => h e (by simp [he])

end Sys2Proof.Laws
end

