-- ==== Sys2Proof/Laws/Keeps.lean ====
section
/-! SUPPORT. What every command keeps: the queue's rest stays as it is and every memory stays in canonical form. The
relation and its rules; one lemma for each operation of the machine stands in the files of Laws/Keeps. -/

namespace Sys2Proof.Laws

open Sys2Proof.Machine Sys2Proof.Safety

/-- From the first state to the second the queue is unchanged, the memories stay canonical, and every part the list does
not name is the same. -/
structure Keeps (m : List Part) (s t : State) : Prop where
  queue : t.pending = s.pending
  memory : MemoryWf s → MemoryWf t
  parts : SameBut m s t

/-- A cluster's scratchpad stays canonical. -/
def CluKeeps (c d : Cluster) : Prop := Memory.wf c.spad.bytes = true → Memory.wf d.spad.bytes = true

theorem SameBut.refl (m : List Part) (s : State) : SameBut m s s := ⟨fun p _ => by cases p <;> rfl⟩

theorem SameBut.trans {m : List Part} {s t u : State} (h : SameBut m s t) (k : SameBut m t u) : SameBut m s u := ⟨fun p hp => by
  have a := h.same p hp
  have b := k.same p hp
  cases p <;> exact Eq.trans b a⟩

theorem SameBut.mono {m n : List Part} {s t : State} (h : SameBut m s t) (hm : m ⊆ n) : SameBut n s t :=
  ⟨fun p hp => h.same p fun k => hp (hm k)⟩

/-- A record update that writes no part outside a list has that list for its frame. -/
theorem SameBut.lit {M : List Part} {s : State} {ctl flash clock host disp reins pdk clu hbm pwr flt peers sec meter kyend free} (hctl : Part.ctl ∈ M ∨ ctl = s.ctl) (hflash : Part.flash ∈ M ∨ flash = s.flash) (hclock : Part.clock ∈ M ∨ clock = s.clock) (hhost : Part.host ∈ M ∨ host = s.host) (hdisp : Part.disp ∈ M ∨ disp = s.disp) (hreins : Part.reins ∈ M ∨ reins = s.reins) (hpdk : Part.pdk ∈ M ∨ pdk = s.pdk) (hclu : Part.clu ∈ M ∨ clu = s.clu) (hhbm : Part.hbm ∈ M ∨ hbm = s.hbm) (hpwr : Part.pwr ∈ M ∨ pwr = s.pwr) (hflt : Part.flt ∈ M ∨ flt = s.flt) (hpeers : Part.peers ∈ M ∨ peers = s.peers) (hsec : Part.sec ∈ M ∨ sec = s.sec) (hmeter : Part.meter ∈ M ∨ meter = s.meter) (hkyend : Part.kyend ∈ M ∨ kyend = s.kyend) (hfree : Part.free ∈ M ∨ free = s.free) :
    SameBut M s ⟨s.pending, ctl, flash, clock, host, disp, reins, pdk, clu, hbm, pwr, flt, peers, sec, meter, kyend, free⟩ := ⟨fun p hp => by
  cases p
  · rfl
  · exact hctl.resolve_left hp
  · exact hflash.resolve_left hp
  · exact hclock.resolve_left hp
  · exact hhost.resolve_left hp
  · exact hdisp.resolve_left hp
  · exact hreins.resolve_left hp
  · exact hpdk.resolve_left hp
  · exact hclu.resolve_left hp
  · exact hhbm.resolve_left hp
  · exact hpwr.resolve_left hp
  · exact hflt.resolve_left hp
  · exact hpeers.resolve_left hp
  · exact hsec.resolve_left hp
  · exact hmeter.resolve_left hp
  · exact hkyend.resolve_left hp
  · exact hfree.resolve_left hp⟩

theorem Keeps.refl (m : List Part) (s : State) : Keeps m s s := ⟨rfl, id, SameBut.refl m s⟩

theorem Keeps.trans {m : List Part} {s t u : State} (h : Keeps m s t) (k : Keeps m t u) : Keeps m s u :=
  ⟨k.queue.trans h.queue, fun w => k.memory (h.memory w), SameBut.trans h.parts k.parts⟩

theorem Keeps.mono {m n : List Part} {s t : State} (h : Keeps m s t) (hm : m ⊆ n) : Keeps n s t :=
  ⟨h.queue, h.memory, SameBut.mono h.parts hm⟩

/-- A record update of a state: the memories the update leaves as they were, or canonical, stay canonical. -/
theorem Keeps.lit {M : List Part} {z s : State} {ctl flash clock host disp reins pdk clu hbm pwr flt peers sec meter kyend free}
    (h : Keeps M z s) (h1 : ctl.cfg = s.ctl.cfg) (h2 : flash.slotA = s.flash.slotA) (h3 : flash.slotB = s.flash.slotB)
    (h4 : clu.phys = s.clu.phys) (h5 : hbm.data = s.hbm.data) (h6 : hbm.parity = s.hbm.parity)
    (hctl : Part.ctl ∈ M ∨ ctl = s.ctl) (hflash : Part.flash ∈ M ∨ flash = s.flash) (hclock : Part.clock ∈ M ∨ clock = s.clock) (hhost : Part.host ∈ M ∨ host = s.host) (hdisp : Part.disp ∈ M ∨ disp = s.disp) (hreins : Part.reins ∈ M ∨ reins = s.reins) (hpdk : Part.pdk ∈ M ∨ pdk = s.pdk) (hclu : Part.clu ∈ M ∨ clu = s.clu) (hhbm : Part.hbm ∈ M ∨ hbm = s.hbm) (hpwr : Part.pwr ∈ M ∨ pwr = s.pwr) (hflt : Part.flt ∈ M ∨ flt = s.flt) (hpeers : Part.peers ∈ M ∨ peers = s.peers) (hsec : Part.sec ∈ M ∨ sec = s.sec) (hmeter : Part.meter ∈ M ∨ meter = s.meter) (hkyend : Part.kyend ∈ M ∨ kyend = s.kyend) (hfree : Part.free ∈ M ∨ free = s.free) :
    Keeps M z ⟨s.pending, ctl, flash, clock, host, disp, reins, pdk, clu, hbm, pwr, flt, peers, sec, meter, kyend, free⟩ := by
  refine h.trans ⟨rfl, fun m => ?_, (SameBut.lit hctl hflash hclock hhost hdisp hreins hpdk hclu hhbm hpwr hflt hpeers hsec hmeter hkyend hfree)⟩
  unfold MemoryWf at *
  simp only [h1, h2, h3, h4, h5, h6]
  exact m

/-! The same for each set of parts that one update of the machine writes. -/

theorem Keeps.putCtl {M : List Part} {z s : State} {xctl} (h : Keeps M z s) (hctlcfg : xctl.cfg = s.ctl.cfg) (hctl : Part.ctl ∈ M) :
    Keeps M z { s with ctl := xctl } :=
  h.lit hctlcfg rfl rfl rfl rfl rfl (.inl hctl) (.inr rfl) (.inr rfl) (.inr rfl) (.inr rfl) (.inr rfl) (.inr rfl) (.inr rfl) (.inr rfl) (.inr rfl) (.inr rfl) (.inr rfl) (.inr rfl) (.inr rfl) (.inr rfl) (.inr rfl)

theorem Keeps.putFlash {M : List Part} {z s : State} {xflash} (h : Keeps M z s) (hflashslotA : xflash.slotA = s.flash.slotA) (hflashslotB : xflash.slotB = s.flash.slotB) (hflash : Part.flash ∈ M) :
    Keeps M z { s with flash := xflash } :=
  h.lit rfl hflashslotA hflashslotB rfl rfl rfl (.inr rfl) (.inl hflash) (.inr rfl) (.inr rfl) (.inr rfl) (.inr rfl) (.inr rfl) (.inr rfl) (.inr rfl) (.inr rfl) (.inr rfl) (.inr rfl) (.inr rfl) (.inr rfl) (.inr rfl) (.inr rfl)

theorem Keeps.putClock {M : List Part} {z s : State} {xclock} (h : Keeps M z s) (hclock : Part.clock ∈ M) :
    Keeps M z { s with clock := xclock } :=
  h.lit rfl rfl rfl rfl rfl rfl (.inr rfl) (.inr rfl) (.inl hclock) (.inr rfl) (.inr rfl) (.inr rfl) (.inr rfl) (.inr rfl) (.inr rfl) (.inr rfl) (.inr rfl) (.inr rfl) (.inr rfl) (.inr rfl) (.inr rfl) (.inr rfl)

theorem Keeps.putHost {M : List Part} {z s : State} {xhost} (h : Keeps M z s) (hhost : Part.host ∈ M) :
    Keeps M z { s with host := xhost } :=
  h.lit rfl rfl rfl rfl rfl rfl (.inr rfl) (.inr rfl) (.inr rfl) (.inl hhost) (.inr rfl) (.inr rfl) (.inr rfl) (.inr rfl) (.inr rfl) (.inr rfl) (.inr rfl) (.inr rfl) (.inr rfl) (.inr rfl) (.inr rfl) (.inr rfl)

theorem Keeps.putDisp {M : List Part} {z s : State} {xdisp} (h : Keeps M z s) (hdisp : Part.disp ∈ M) :
    Keeps M z { s with disp := xdisp } :=
  h.lit rfl rfl rfl rfl rfl rfl (.inr rfl) (.inr rfl) (.inr rfl) (.inr rfl) (.inl hdisp) (.inr rfl) (.inr rfl) (.inr rfl) (.inr rfl) (.inr rfl) (.inr rfl) (.inr rfl) (.inr rfl) (.inr rfl) (.inr rfl) (.inr rfl)

theorem Keeps.putReins {M : List Part} {z s : State} {xreins} (h : Keeps M z s) (hreins : Part.reins ∈ M) :
    Keeps M z { s with reins := xreins } :=
  h.lit rfl rfl rfl rfl rfl rfl (.inr rfl) (.inr rfl) (.inr rfl) (.inr rfl) (.inr rfl) (.inl hreins) (.inr rfl) (.inr rfl) (.inr rfl) (.inr rfl) (.inr rfl) (.inr rfl) (.inr rfl) (.inr rfl) (.inr rfl) (.inr rfl)

theorem Keeps.putPdk {M : List Part} {z s : State} {xpdk} (h : Keeps M z s) (hpdk : Part.pdk ∈ M) :
    Keeps M z { s with pdk := xpdk } :=
  h.lit rfl rfl rfl rfl rfl rfl (.inr rfl) (.inr rfl) (.inr rfl) (.inr rfl) (.inr rfl) (.inr rfl) (.inl hpdk) (.inr rfl) (.inr rfl) (.inr rfl) (.inr rfl) (.inr rfl) (.inr rfl) (.inr rfl) (.inr rfl) (.inr rfl)

theorem Keeps.putClu {M : List Part} {z s : State} {xclu} (h : Keeps M z s) (hcluphys : xclu.phys = s.clu.phys) (hclu : Part.clu ∈ M) :
    Keeps M z { s with clu := xclu } :=
  h.lit rfl rfl rfl hcluphys rfl rfl (.inr rfl) (.inr rfl) (.inr rfl) (.inr rfl) (.inr rfl) (.inr rfl) (.inr rfl) (.inl hclu) (.inr rfl) (.inr rfl) (.inr rfl) (.inr rfl) (.inr rfl) (.inr rfl) (.inr rfl) (.inr rfl)

theorem Keeps.putHbm {M : List Part} {z s : State} {xhbm} (h : Keeps M z s) (hhbmdata : xhbm.data = s.hbm.data) (hhbmparity : xhbm.parity = s.hbm.parity) (hhbm : Part.hbm ∈ M) :
    Keeps M z { s with hbm := xhbm } :=
  h.lit rfl rfl rfl rfl hhbmdata hhbmparity (.inr rfl) (.inr rfl) (.inr rfl) (.inr rfl) (.inr rfl) (.inr rfl) (.inr rfl) (.inr rfl) (.inl hhbm) (.inr rfl) (.inr rfl) (.inr rfl) (.inr rfl) (.inr rfl) (.inr rfl) (.inr rfl)

theorem Keeps.putPwr {M : List Part} {z s : State} {xpwr} (h : Keeps M z s) (hpwr : Part.pwr ∈ M) :
    Keeps M z { s with pwr := xpwr } :=
  h.lit rfl rfl rfl rfl rfl rfl (.inr rfl) (.inr rfl) (.inr rfl) (.inr rfl) (.inr rfl) (.inr rfl) (.inr rfl) (.inr rfl) (.inr rfl) (.inl hpwr) (.inr rfl) (.inr rfl) (.inr rfl) (.inr rfl) (.inr rfl) (.inr rfl)

theorem Keeps.putFlt {M : List Part} {z s : State} {xflt} (h : Keeps M z s) (hflt : Part.flt ∈ M) :
    Keeps M z { s with flt := xflt } :=
  h.lit rfl rfl rfl rfl rfl rfl (.inr rfl) (.inr rfl) (.inr rfl) (.inr rfl) (.inr rfl) (.inr rfl) (.inr rfl) (.inr rfl) (.inr rfl) (.inr rfl) (.inl hflt) (.inr rfl) (.inr rfl) (.inr rfl) (.inr rfl) (.inr rfl)

theorem Keeps.putPeers {M : List Part} {z s : State} {xpeers} (h : Keeps M z s) (hpeers : Part.peers ∈ M) :
    Keeps M z { s with peers := xpeers } :=
  h.lit rfl rfl rfl rfl rfl rfl (.inr rfl) (.inr rfl) (.inr rfl) (.inr rfl) (.inr rfl) (.inr rfl) (.inr rfl) (.inr rfl) (.inr rfl) (.inr rfl) (.inr rfl) (.inl hpeers) (.inr rfl) (.inr rfl) (.inr rfl) (.inr rfl)

theorem Keeps.putSec {M : List Part} {z s : State} {xsec} (h : Keeps M z s) (hsec : Part.sec ∈ M) :
    Keeps M z { s with sec := xsec } :=
  h.lit rfl rfl rfl rfl rfl rfl (.inr rfl) (.inr rfl) (.inr rfl) (.inr rfl) (.inr rfl) (.inr rfl) (.inr rfl) (.inr rfl) (.inr rfl) (.inr rfl) (.inr rfl) (.inr rfl) (.inl hsec) (.inr rfl) (.inr rfl) (.inr rfl)

theorem Keeps.putMeter {M : List Part} {z s : State} {xmeter} (h : Keeps M z s) (hmeter : Part.meter ∈ M) :
    Keeps M z { s with meter := xmeter } :=
  h.lit rfl rfl rfl rfl rfl rfl (.inr rfl) (.inr rfl) (.inr rfl) (.inr rfl) (.inr rfl) (.inr rfl) (.inr rfl) (.inr rfl) (.inr rfl) (.inr rfl) (.inr rfl) (.inr rfl) (.inr rfl) (.inl hmeter) (.inr rfl) (.inr rfl)

theorem Keeps.putKyend {M : List Part} {z s : State} {xkyend} (h : Keeps M z s) (hkyend : Part.kyend ∈ M) :
    Keeps M z { s with kyend := xkyend } :=
  h.lit rfl rfl rfl rfl rfl rfl (.inr rfl) (.inr rfl) (.inr rfl) (.inr rfl) (.inr rfl) (.inr rfl) (.inr rfl) (.inr rfl) (.inr rfl) (.inr rfl) (.inr rfl) (.inr rfl) (.inr rfl) (.inr rfl) (.inl hkyend) (.inr rfl)

theorem Keeps.putFree {M : List Part} {z s : State} {xfree} (h : Keeps M z s) (hfree : Part.free ∈ M) :
    Keeps M z { s with free := xfree } :=
  h.lit rfl rfl rfl rfl rfl rfl (.inr rfl) (.inr rfl) (.inr rfl) (.inr rfl) (.inr rfl) (.inr rfl) (.inr rfl) (.inr rfl) (.inr rfl) (.inr rfl) (.inr rfl) (.inr rfl) (.inr rfl) (.inr rfl) (.inr rfl) (.inl hfree)

theorem Keeps.putHbmPwr {M : List Part} {z s : State} {xhbm} {xpwr} (h : Keeps M z s) (hhbmdata : xhbm.data = s.hbm.data) (hhbmparity : xhbm.parity = s.hbm.parity) (hhbm : Part.hbm ∈ M) (hpwr : Part.pwr ∈ M) :
    Keeps M z { s with hbm := xhbm, pwr := xpwr } :=
  h.lit rfl rfl rfl rfl hhbmdata hhbmparity (.inr rfl) (.inr rfl) (.inr rfl) (.inr rfl) (.inr rfl) (.inr rfl) (.inr rfl) (.inr rfl) (.inl hhbm) (.inl hpwr) (.inr rfl) (.inr rfl) (.inr rfl) (.inr rfl) (.inr rfl) (.inr rfl)

theorem Keeps.putHbmFlt {M : List Part} {z s : State} {xhbm} {xflt} (h : Keeps M z s) (hhbmdata : xhbm.data = s.hbm.data) (hhbmparity : xhbm.parity = s.hbm.parity) (hhbm : Part.hbm ∈ M) (hflt : Part.flt ∈ M) :
    Keeps M z { s with hbm := xhbm, flt := xflt } :=
  h.lit rfl rfl rfl rfl hhbmdata hhbmparity (.inr rfl) (.inr rfl) (.inr rfl) (.inr rfl) (.inr rfl) (.inr rfl) (.inr rfl) (.inr rfl) (.inl hhbm) (.inr rfl) (.inl hflt) (.inr rfl) (.inr rfl) (.inr rfl) (.inr rfl) (.inr rfl)

theorem Keeps.putFltMeter {M : List Part} {z s : State} {xflt} {xmeter} (h : Keeps M z s) (hflt : Part.flt ∈ M) (hmeter : Part.meter ∈ M) :
    Keeps M z { s with flt := xflt, meter := xmeter } :=
  h.lit rfl rfl rfl rfl rfl rfl (.inr rfl) (.inr rfl) (.inr rfl) (.inr rfl) (.inr rfl) (.inr rfl) (.inr rfl) (.inr rfl) (.inr rfl) (.inr rfl) (.inl hflt) (.inr rfl) (.inr rfl) (.inl hmeter) (.inr rfl) (.inr rfl)

theorem Keeps.putCtlFlash {M : List Part} {z s : State} {xctl} {xflash} (h : Keeps M z s) (hctlcfg : xctl.cfg = s.ctl.cfg) (hflashslotA : xflash.slotA = s.flash.slotA) (hflashslotB : xflash.slotB = s.flash.slotB) (hctl : Part.ctl ∈ M) (hflash : Part.flash ∈ M) :
    Keeps M z { s with ctl := xctl, flash := xflash } :=
  h.lit hctlcfg hflashslotA hflashslotB rfl rfl rfl (.inl hctl) (.inl hflash) (.inr rfl) (.inr rfl) (.inr rfl) (.inr rfl) (.inr rfl) (.inr rfl) (.inr rfl) (.inr rfl) (.inr rfl) (.inr rfl) (.inr rfl) (.inr rfl) (.inr rfl) (.inr rfl)

theorem Keeps.putCtlClockPwr {M : List Part} {z s : State} {xctl} {xclock} {xpwr} (h : Keeps M z s) (hctlcfg : xctl.cfg = s.ctl.cfg) (hctl : Part.ctl ∈ M) (hclock : Part.clock ∈ M) (hpwr : Part.pwr ∈ M) :
    Keeps M z { s with ctl := xctl, clock := xclock, pwr := xpwr } :=
  h.lit hctlcfg rfl rfl rfl rfl rfl (.inl hctl) (.inr rfl) (.inl hclock) (.inr rfl) (.inr rfl) (.inr rfl) (.inr rfl) (.inr rfl) (.inr rfl) (.inl hpwr) (.inr rfl) (.inr rfl) (.inr rfl) (.inr rfl) (.inr rfl) (.inr rfl)

theorem Keeps.putDispMeter {M : List Part} {z s : State} {xdisp} {xmeter} (h : Keeps M z s) (hdisp : Part.disp ∈ M) (hmeter : Part.meter ∈ M) :
    Keeps M z { s with disp := xdisp, meter := xmeter } :=
  h.lit rfl rfl rfl rfl rfl rfl (.inr rfl) (.inr rfl) (.inr rfl) (.inr rfl) (.inl hdisp) (.inr rfl) (.inr rfl) (.inr rfl) (.inr rfl) (.inr rfl) (.inr rfl) (.inr rfl) (.inr rfl) (.inl hmeter) (.inr rfl) (.inr rfl)

theorem Keeps.putFlashHbm {M : List Part} {z s : State} {xflash} {xhbm} (h : Keeps M z s) (hflashslotA : xflash.slotA = s.flash.slotA) (hflashslotB : xflash.slotB = s.flash.slotB) (hhbmdata : xhbm.data = s.hbm.data) (hhbmparity : xhbm.parity = s.hbm.parity) (hflash : Part.flash ∈ M) (hhbm : Part.hbm ∈ M) :
    Keeps M z { s with flash := xflash, hbm := xhbm } :=
  h.lit rfl hflashslotA hflashslotB rfl hhbmdata hhbmparity (.inr rfl) (.inl hflash) (.inr rfl) (.inr rfl) (.inr rfl) (.inr rfl) (.inr rfl) (.inr rfl) (.inl hhbm) (.inr rfl) (.inr rfl) (.inr rfl) (.inr rfl) (.inr rfl) (.inr rfl) (.inr rfl)

theorem Keeps.putDispHbm {M : List Part} {z s : State} {xdisp} {xhbm} (h : Keeps M z s) (hhbmdata : xhbm.data = s.hbm.data) (hhbmparity : xhbm.parity = s.hbm.parity) (hdisp : Part.disp ∈ M) (hhbm : Part.hbm ∈ M) :
    Keeps M z { s with disp := xdisp, hbm := xhbm } :=
  h.lit rfl rfl rfl rfl hhbmdata hhbmparity (.inr rfl) (.inr rfl) (.inr rfl) (.inr rfl) (.inl hdisp) (.inr rfl) (.inr rfl) (.inr rfl) (.inl hhbm) (.inr rfl) (.inr rfl) (.inr rfl) (.inr rfl) (.inr rfl) (.inr rfl) (.inr rfl)

/-- The same where the update writes memories. -/
theorem Keeps.store {M : List Part} {z s : State} {ctl flash clock host disp reins pdk clu hbm pwr flt peers sec meter kyend free}
    (h : Keeps M z s) (hm : MemoryWf s → MemoryWf ⟨s.pending, ctl, flash, clock, host, disp, reins, pdk, clu, hbm, pwr, flt, peers, sec, meter, kyend, free⟩)
    (hctl : Part.ctl ∈ M ∨ ctl = s.ctl) (hflash : Part.flash ∈ M ∨ flash = s.flash) (hclock : Part.clock ∈ M ∨ clock = s.clock) (hhost : Part.host ∈ M ∨ host = s.host) (hdisp : Part.disp ∈ M ∨ disp = s.disp) (hreins : Part.reins ∈ M ∨ reins = s.reins) (hpdk : Part.pdk ∈ M ∨ pdk = s.pdk) (hclu : Part.clu ∈ M ∨ clu = s.clu) (hhbm : Part.hbm ∈ M ∨ hbm = s.hbm) (hpwr : Part.pwr ∈ M ∨ pwr = s.pwr) (hflt : Part.flt ∈ M ∨ flt = s.flt) (hpeers : Part.peers ∈ M ∨ peers = s.peers) (hsec : Part.sec ∈ M ∨ sec = s.sec) (hmeter : Part.meter ∈ M ∨ meter = s.meter) (hkyend : Part.kyend ∈ M ∨ kyend = s.kyend) (hfree : Part.free ∈ M ∨ free = s.free) :
    Keeps M z ⟨s.pending, ctl, flash, clock, host, disp, reins, pdk, clu, hbm, pwr, flt, peers, sec, meter, kyend, free⟩ :=
  h.trans ⟨rfl, hm, (SameBut.lit hctl hflash hclock hhost hdisp hreins hpdk hclu hhbm hpwr hflt hpeers hsec hmeter hkyend hfree)⟩

/-- An update of the service memory that keeps data and parity canonical. -/
theorem Keeps.storeHbm {M : List Part} {z s : State} {hbm : Hbm} (h : Keeps M z s)
    (hd : Memory.wf s.hbm.data = true → Memory.wf hbm.data = true)
    (hp : Memory.wf s.hbm.parity = true → Memory.wf hbm.parity = true) (hM : Part.hbm ∈ M) : Keeps M z { s with hbm := hbm } :=
  h.trans ⟨rfl, fun m => ⟨hd m.1, hp m.2.1, m.2.2⟩, SameBut.lit (.inr rfl) (.inr rfl) (.inr rfl) (.inr rfl) (.inr rfl) (.inr rfl) (.inr rfl) (.inr rfl) (.inl hM) (.inr rfl) (.inr rfl) (.inr rfl) (.inr rfl) (.inr rfl) (.inr rfl) (.inr rfl)⟩

/-- An update of the flash that keeps the two slots canonical. -/
theorem Keeps.storeFlash {M : List Part} {z s : State} {flash : Flash} (h : Keeps M z s)
    (ha : Memory.wf s.flash.slotA = true → Memory.wf flash.slotA = true)
    (hb : Memory.wf s.flash.slotB = true → Memory.wf flash.slotB = true) (hM : Part.flash ∈ M) : Keeps M z { s with flash := flash } :=
  h.trans ⟨rfl, fun m => ⟨m.1, m.2.1, ha m.2.2.1, hb m.2.2.2.1, m.2.2.2.2⟩, SameBut.lit (.inr rfl) (.inl hM) (.inr rfl) (.inr rfl) (.inr rfl) (.inr rfl) (.inr rfl) (.inr rfl) (.inr rfl) (.inr rfl) (.inr rfl) (.inr rfl) (.inr rfl) (.inr rfl) (.inr rfl) (.inr rfl)⟩

/-- An update of the control state whose block in force is a canonical memory. -/
theorem Keeps.storeCfg {M : List Part} {z s : State} {ctl : Control} (h : Keeps M z s) (hc : MemoryWf s → Memory.wf ctl.cfg = true)
    (hM : Part.ctl ∈ M) : Keeps M z { s with ctl := ctl } :=
  h.trans ⟨rfl, fun m => ⟨m.1, m.2.1, m.2.2.1, m.2.2.2.1, hc m, m.2.2.2.2.2⟩, SameBut.lit (.inl hM) (.inr rfl) (.inr rfl) (.inr rfl) (.inr rfl) (.inr rfl) (.inr rfl) (.inr rfl) (.inr rfl) (.inr rfl) (.inr rfl) (.inr rfl) (.inr rfl) (.inr rfl) (.inr rfl) (.inr rfl)⟩

theorem Keeps.ite {M : List Part} {z s t : State} {c : Prop} [Decidable c] (hs : Keeps M z s) (ht : Keeps M z t) : Keeps M z (if c then s else t) := by
  split
  · exact hs
  · exact ht

theorem Keeps.foldl {α : Type} {M : List Part} {s t : State} {f : State → α → State} {l : List α}
    (h : Keeps M s t) (hf : ∀ u x, Keeps M s u → Keeps M s (f u x)) : Keeps M s (l.foldl f t) := by
  induction l generalizing t with
  | nil => exact h
  | cons x l ih => exact ih (hf t x h)

theorem Keeps.foldl_fst {M : List Part} {α β : Type} {s : State} {t : State × β} {f : State × β → α → State × β} {l : List α}
    (h : Keeps M s t.1) (hf : ∀ u x, Keeps M s u.1 → Keeps M s (f u x).1) : Keeps M s (l.foldl f t).1 := by
  induction l generalizing t with
  | nil => exact h
  | cons x l ih => exact ih (hf t x h)

/-- What a command's outcome keeps: its next state, if it answers one, keeps the queue and the memories. -/
structure OutKeeps (M : List Part) (z : State) (o : Host.Outcome State Fault Refusal) : Prop where
  keeps : ∀ t, o = .next t → Keeps M z t

theorem OutKeeps.next {M : List Part} {z t : State} (h : Keeps M z t) : OutKeeps M z (.next t) := ⟨fun u e => by
  rw [← Host.Outcome.next.inj e]
  exact h⟩

theorem OutKeeps.ite {M : List Part} {z : State} {c : Prop} [Decidable c] {o q : Host.Outcome State Fault Refusal} (ho : OutKeeps M z o)
    (hq : OutKeeps M z q) : OutKeeps M z (if c then o else q) := by
  split
  · exact ho
  · exact hq

theorem CluKeeps.refl (c : Cluster) : CluKeeps c c := id

theorem CluKeeps.upd {c d : Cluster} (h : d.spad.bytes = c.spad.bytes) : CluKeeps c d := fun m => by rw [h]; exact m

theorem CluKeeps.trans {c d e : Cluster} (h : CluKeeps c d) (k : CluKeeps d e) : CluKeeps c e := fun m => k (h m)

theorem CluKeeps.foldl {α : Type} {c d : Cluster} {f : Cluster → α → Cluster} {l : List α}
    (h : CluKeeps c d) (hf : ∀ u x, CluKeeps c u → CluKeeps c (f u x)) : CluKeeps c (l.foldl f d) := by
  induction l generalizing d with
  | nil => exact h
  | cons x l ih => exact ih (hf d x h)

/-- A canonical state's cluster has a canonical scratchpad. -/
theorem getClu_wf {s : State} (h : MemoryWf s) (p : Nat) : Memory.wf (getClu s p).spad.bytes = true := by
  refine tblGet_of_all (P := fun c : Cluster => Memory.wf c.spad.bytes = true) h.2.2.2.2.2 ?_ p
  unfold clusterDefault
  split <;> rfl

theorem setClu_parts {M : List Part} (s : State) (p : Nat) (c : Cluster) (hM : Part.clu ∈ M) : SameBut M s (setClu s p c) :=
  SameBut.lit (.inr rfl) (.inr rfl) (.inr rfl) (.inr rfl) (.inr rfl) (.inr rfl) (.inr rfl) (.inl hM) (.inr rfl) (.inr rfl) (.inr rfl) (.inr rfl) (.inr rfl) (.inr rfl) (.inr rfl) (.inr rfl)

theorem setClu_keeps {M : List Part} {s t : State} (h : Keeps M s t) (p : Nat) (c : Cluster) (hc : CluKeeps (getClu t p) c)
    (hM : Part.clu ∈ M) : Keeps M s (setClu t p c) := by
  refine h.trans ⟨rfl, fun m => ?_, setClu_parts t p c hM⟩
  obtain ⟨m1, m2, m3, m4, m5, m6⟩ := m
  refine ⟨m1, m2, m3, m4, m5, fun e he => ?_⟩
  rcases mem_tblSet he with rfl | he
  · exact hc (getClu_wf ⟨m1, m2, m3, m4, m5, m6⟩ p)
  · exact m6 e he

/-- A cluster made from one of an earlier state is set in a later one. -/
theorem setClu_from {M : List Part} {z s t : State} (hs : Keeps M z s) (h : Keeps M z t) (p : Nat) (c : Cluster) (hc : CluKeeps (getClu s p) c)
    (hM : Part.clu ∈ M) : Keeps M z (setClu t p c) := by
  refine ⟨h.queue, fun m => ?_, SameBut.trans h.parts (setClu_parts t p c hM)⟩
  obtain ⟨m1, m2, m3, m4, m5, m6⟩ := h.memory m
  refine ⟨m1, m2, m3, m4, m5, fun e he => ?_⟩
  rcases mem_tblSet he with rfl | he
  · exact hc (getClu_wf (hs.memory m) p)
  · exact m6 e he

theorem modClu_keeps {M : List Part} {s t : State} (h : Keeps M s t) (p : Nat) (f : Cluster → Cluster) (hf : ∀ c, CluKeeps c (f c))
    (hM : Part.clu ∈ M) : Keeps M s (modClu t p f) := setClu_keeps h p _ (hf _) hM

end Sys2Proof.Laws
end

