-- ==== Sys2Proof/Laws/KeepsOps.lean ====
section
/-! SUPPORT. What the shared operations, the host port, service memory and the scratchpads keep: the queue, and the canonical form of every memory. -/

set_option linter.unusedTactic false
set_option linter.unreachableTactic false

namespace Sys2Proof.Laws

open Sys2Proof.Machine Sys2Proof.Safety

theorem atMt_keeps {z : State} {M : List Part} {s : State} {t : Nat} (hz : Keeps M z s) (hclock : Part.clock ∈ M) : Keeps M z (atMt s t) := by
  unfold atMt
  repeat'
    first
      | with_reducible assumption
      | dsimp only
      | split
      | (with_reducible refine Keeps.putClock ?_ hclock)

theorem setLmap_keeps {z : State} {M : List Part} {s : State} {l : Nat} {m : LMap} (hz : Keeps M z s) (hclu : Part.clu ∈ M) : Keeps M z (setLmap s l m) := by
  unfold setLmap
  repeat'
    first
      | with_reducible assumption
      | dsimp only
      | split
      | (with_reducible refine Keeps.putClu ?_ rfl hclu)

theorem modPeerPort_keeps {z : State} {M : List Part} {s : State} {n : Nat} {f : PeerPort → PeerPort} (hz : Keeps M z s) (hpeers : Part.peers ∈ M) : Keeps M z (modPeerPort s n f) := by
  unfold modPeerPort
  repeat'
    first
      | with_reducible assumption
      | dsimp only
      | split
      | (with_reducible refine Keeps.putPeers ?_ hpeers)

theorem modHost_keeps {z : State} {M : List Part} {s : State} {f : HostPort → HostPort} (hz : Keeps M z s) (hhost : Part.host ∈ M) : Keeps M z (modHost s f) := by
  unfold modHost
  repeat'
    first
      | with_reducible assumption
      | dsimp only
      | split
      | (with_reducible refine Keeps.putHost ?_ hhost)

theorem setQueue_keeps {z : State} {M : List Part} {s : State} {pool : Nat} {queue : Nat} {l : List Item} (hz : Keeps M z s) (hpdk : Part.pdk ∈ M) : Keeps M z (setQueue s pool queue l) := by
  unfold setQueue
  repeat'
    first
      | with_reducible assumption
      | dsimp only
      | split
      | (with_reducible refine Keeps.putPdk ?_ hpdk)

theorem pdkAppend_keeps {z : State} {M : List Part} {s : State} {pool : Nat} {queue : Nat} {it : Item} (hz : Keeps M z s) (hpdk : Part.pdk ∈ M) : Keeps M z (pdkAppend s pool queue it) := by
  unfold pdkAppend
  repeat'
    first
      | with_reducible assumption
      | (with_reducible apply setQueue_keeps)
      | dsimp only
      | split
      | (with_reducible refine Keeps.putPdk ?_ hpdk)

theorem pdkDrop_keeps {z : State} {M : List Part} {s : State} {pool : Nat} {queue : Nat} {wu : Option Nat} (hz : Keeps M z s) (hpdk : Part.pdk ∈ M) : Keeps M z (pdkDrop s pool queue wu) := by
  unfold pdkDrop
  repeat'
    first
      | with_reducible assumption
      | (with_reducible apply setQueue_keeps)
      | dsimp only
      | split
      | (with_reducible refine Keeps.putPdk ?_ hpdk)

theorem pdkPut_keeps {z : State} {M : List Part} {s : State} {pool : Nat} {queue : Nat} {it : Item} (hz : Keeps M z s) (hpdk : Part.pdk ∈ M) : Keeps M z (pdkPut s pool queue it) := by
  unfold pdkPut
  repeat'
    first
      | with_reducible assumption
      | (with_reducible apply pdkAppend_keeps)
      | (with_reducible apply pdkDrop_keeps)
      | dsimp only
      | split

theorem postFrom_keeps {z : State} {M : List Part} {s : State} {src : Nat} {e : Event} (hz : Keeps M z s) (hpdk : Part.pdk ∈ M) : Keeps M z (postFrom s src e) := by
  unfold postFrom
  repeat'
    first
      | with_reducible assumption
      | (with_reducible apply pdkPut_keeps)
      | dsimp only
      | split

theorem post_keeps {z : State} {M : List Part} {s : State} {e : Event} (hz : Keeps M z s) (hpdk : Part.pdk ∈ M) : Keeps M z (post s e) := by
  unfold post
  repeat'
    first
      | with_reducible assumption
      | (with_reducible apply postFrom_keeps)
      | dsimp only
      | split

theorem faultLog_keeps {z : State} {M : List Part} {s : State} {e : Event} (hz : Keeps M z s) (hflt : Part.flt ∈ M) (hmeter : Part.meter ∈ M) : Keeps M z (faultLog s e) := by
  unfold faultLog
  repeat'
    first
      | with_reducible assumption
      | dsimp only
      | split
      | (with_reducible refine Keeps.putFltMeter ?_ hflt hmeter)

theorem postFault_keeps {z : State} {M : List Part} {s : State} {mech : Nat} {res : Nat} {p0 : Nat} (hz : Keeps M z s) (hpdk : Part.pdk ∈ M) (hflt : Part.flt ∈ M) (hmeter : Part.meter ∈ M) : Keeps M z (postFault s mech res p0) := by
  unfold postFault
  repeat'
    first
      | with_reducible assumption
      | (with_reducible apply faultLog_keeps)
      | (with_reducible apply post_keeps)
      | dsimp only
      | split

theorem capOpen_keeps {z : State} {M : List Part} {s : State} {cond : Nat} {res : Nat} (hz : Keeps M z s) (hpdk : Part.pdk ∈ M) (hflt : Part.flt ∈ M) (hmeter : Part.meter ∈ M) : Keeps M z (capOpen s cond res) := by
  unfold capOpen
  repeat'
    first
      | with_reducible assumption
      | (with_reducible apply faultLog_keeps)
      | (with_reducible apply post_keeps)
      | dsimp only
      | split
      | (with_reducible refine Keeps.putFlt ?_ hflt)

theorem capClose_keeps {z : State} {M : List Part} {s : State} {cond : Nat} {res : Nat} (hz : Keeps M z s) (hpdk : Part.pdk ∈ M) (hflt : Part.flt ∈ M) (hmeter : Part.meter ∈ M) : Keeps M z (capClose s cond res) := by
  unfold capClose
  repeat'
    first
      | with_reducible assumption
      | (with_reducible apply faultLog_keeps)
      | (with_reducible apply post_keeps)
      | dsimp only
      | split
      | (with_reducible refine Keeps.putFlt ?_ hflt)

theorem kyendSay_keeps {z : State} {M : List Part} {s : State} {l : List String} (hz : Keeps M z s) (hkyend : Part.kyend ∈ M) : Keeps M z (kyendSay s l) := by
  unfold kyendSay
  repeat'
    first
      | with_reducible assumption
      | dsimp only
      | split
      | (with_reducible refine Keeps.putKyend ?_ hkyend)

theorem kyendPrompt_keeps {z : State} {M : List Part} {s : State} (hz : Keeps M z s) (hkyend : Part.kyend ∈ M) : Keeps M z (kyendPrompt s) := by
  unfold kyendPrompt
  repeat'
    first
      | with_reducible assumption
      | (with_reducible apply kyendSay_keeps)
      | dsimp only
      | split

theorem kyendYarrowEnds_keeps {z : State} {M : List Part} {s : State} {p : Nat} {answer : String} (hz : Keeps M z s) (hkyend : Part.kyend ∈ M) : Keeps M z (kyendYarrowEnds s p answer) := by
  unfold kyendYarrowEnds
  repeat'
    first
      | with_reducible assumption
      | (with_reducible apply kyendPrompt_keeps)
      | (with_reducible apply kyendSay_keeps)
      | dsimp only
      | split
      | (with_reducible refine Keeps.putKyend ?_ hkyend)

theorem trace_keeps {z : State} {M : List Part} {s : State} {kind : Nat} {l : Option Nat} {wu : Nat} {epoch : Nat} {idx : Nat} {ticket : Nat} {data : List Byte} (hz : Keeps M z s) (hpdk : Part.pdk ∈ M) : Keeps M z (trace s kind l wu epoch idx ticket data) := by
  unfold trace
  repeat'
    first
      | with_reducible assumption
      | (with_reducible apply pdkPut_keeps)
      | dsimp only
      | split

theorem modUnit_keeps {z : State} {M : List Part} {s : State} {wu : Nat} {f : WorkUnit → WorkUnit} (hz : Keeps M z s) (hdisp : Part.disp ∈ M) : Keeps M z (modUnit s wu f) := by
  unfold modUnit
  repeat'
    first
      | with_reducible assumption
      | dsimp only
      | split
      | (with_reducible refine Keeps.putDisp ?_ hdisp)

theorem modRun_keeps {z : State} {M : List Part} {s : State} {r : DescRef} {f : DRun → DRun} (hz : Keeps M z s) (hdisp : Part.disp ∈ M) : Keeps M z (modRun s r f) := by
  unfold modRun
  repeat'
    first
      | with_reducible assumption
      | (with_reducible apply modUnit_keeps)
      | dsimp only
      | split

theorem addCause_keeps {z : State} {M : List Part} {s : State} {wu : Nat} {reason : Nat} {res : Nat} (hz : Keeps M z s) (hdisp : Part.disp ∈ M) : Keeps M z (addCause s wu reason res) := by
  unfold addCause
  repeat'
    first
      | with_reducible assumption
      | (with_reducible apply modUnit_keeps)
      | dsimp only
      | split

theorem addCauseK_keeps {z : State} {M : List Part} {s : State} {wu : Nat} {reason : Nat} {res : Nat} {key : List Nat} (hz : Keeps M z s) (hdisp : Part.disp ∈ M) : Keeps M z (addCauseK s wu reason res key) := by
  unfold addCauseK
  repeat'
    first
      | with_reducible assumption
      | (with_reducible apply modUnit_keeps)
      | dsimp only
      | split

theorem addCauses_keeps {z : State} {M : List Part} {s : State} {p : WorkUnit → Bool} {reason : Nat} {res : Nat} (hz : Keeps M z s) (hdisp : Part.disp ∈ M) : Keeps M z (addCauses s p reason res) := by
  unfold addCauses
  repeat'
    first
      | with_reducible assumption
      | dsimp only
      | split
      | (with_reducible refine Keeps.putDisp ?_ hdisp)

theorem modReins_keeps {z : State} {M : List Part} {s : State} {f : Reins → Reins} (hz : Keeps M z s) (hreins : Part.reins ∈ M) : Keeps M z (modReins s f) := by
  unfold modReins
  repeat'
    first
      | with_reducible assumption
      | dsimp only
      | split
      | (with_reducible refine Keeps.putReins ?_ hreins)

theorem respond_keeps {z : State} {M : List Part} {s : State} {req : Nat} {n : Nat} {v : Option Nat} {e : Option Nat} {arrives : Nat} (hz : Keeps M z s) (hreins : Part.reins ∈ M) : Keeps M z (respond s req n v e arrives) := by
  unfold respond
  repeat'
    first
      | with_reducible assumption
      | (with_reducible apply modReins_keeps)
      | dsimp only
      | split

theorem answerWait_keeps {z : State} {M : List Part} {s : State} {w : Wait} {v : Option Nat} (hz : Keeps M z s) (hdisp : Part.disp ∈ M) (hreins : Part.reins ∈ M) : Keeps M z (answerWait s w v) := by
  unfold answerWait
  repeat'
    first
      | with_reducible assumption
      | (with_reducible apply respond_keeps)
      | (with_reducible apply modRun_keeps)
      | (with_reducible apply addCause_keeps)
      | dsimp only
      | split

theorem answerWaits_keeps {z : State} {M : List Part} {s : State} {n : Nat} (hz : Keeps M z s) (hdisp : Part.disp ∈ M) (hreins : Part.reins ∈ M) : Keeps M z (answerWaits s n) := by
  unfold answerWaits
  repeat'
    first
      | with_reducible assumption
      | (with_reducible apply modReins_keeps)
      | (with_reducible apply answerWait_keeps)
      | (with_reducible refine Keeps.foldl ?_ ?_)
      | intro _
      | dsimp only
      | split

theorem setCtrValue_keeps {z : State} {M : List Part} {s : State} {n : Nat} {v : Word} (hz : Keeps M z s) (hdisp : Part.disp ∈ M) (hreins : Part.reins ∈ M) : Keeps M z (setCtrValue s n v) := by
  unfold setCtrValue
  repeat'
    first
      | with_reducible assumption
      | (with_reducible apply answerWaits_keeps)
      | (with_reducible apply modReins_keeps)
      | dsimp only
      | split

theorem advanceEpoch_keeps {z : State} {M : List Part} {s : State} {n : Nat} (hz : Keeps M z s) (hdisp : Part.disp ∈ M) (hreins : Part.reins ∈ M) : Keeps M z (advanceEpoch s n) := by
  unfold advanceEpoch
  repeat'
    first
      | with_reducible assumption
      | (with_reducible apply modReins_keeps)
      | (with_reducible apply answerWait_keeps)
      | (with_reducible refine Keeps.foldl ?_ ?_)
      | intro _
      | dsimp only
      | split

theorem noteApplied_keeps {z : State} {M : List Part} {s : State} {home : Nat} {req : Nat} {sent : Nat} (hz : Keeps M z s) (hreins : Part.reins ∈ M) : Keeps M z (noteApplied s home req sent) := by
  unfold noteApplied
  repeat'
    first
      | with_reducible assumption
      | (with_reducible apply modReins_keeps)
      | dsimp only
      | split

theorem fetchAdd_fst_keeps {z : State} {M : List Part} {s : State} {n : Nat} {a : Nat} {e : Option Nat} (hz : Keeps M z s) (hdisp : Part.disp ∈ M) (hreins : Part.reins ∈ M) : Keeps M z (fetchAdd s n a e).1 := by
  unfold fetchAdd
  repeat'
    first
      | with_reducible assumption
      | (with_reducible apply setCtrValue_keeps)
      | dsimp only
      | split

theorem fetchAdd_keeps {z t' : State} {v' : Option Nat} {M : List Part} {s : State} {n : Nat} {a : Nat} {e : Option Nat} (e' : fetchAdd s n a e = (t', v')) (hz : Keeps M z s) (hdisp : Part.disp ∈ M) (hreins : Part.reins ∈ M) : Keeps M z t' := by
  have k' := fetchAdd_fst_keeps (s := s) (n := n) (a := a) (e := e) hz hdisp hreins
  rw [e'] at k'
  exact k'

theorem setBar_keeps {z : State} {M : List Part} {s : State} {b : Nat} {x : Barrier} (hz : Keeps M z s) (hreins : Part.reins ∈ M) : Keeps M z (setBar s b x) := by
  unfold setBar
  repeat'
    first
      | with_reducible assumption
      | (with_reducible apply modReins_keeps)
      | dsimp only
      | split

theorem arriveBarrier_fst_keeps {z : State} {M : List Part} {s : State} {b : Nat} {parties : Nat} {a : Arrival} (hz : Keeps M z s) (hdisp : Part.disp ∈ M) (hreins : Part.reins ∈ M) : Keeps M z (arriveBarrier s b parties a).1 := by
  unfold arriveBarrier
  repeat'
    first
      | with_reducible assumption
      | (with_reducible apply setBar_keeps)
      | (with_reducible apply modRun_keeps)
      | (with_reducible refine Keeps.foldl ?_ ?_)
      | intro _
      | dsimp only
      | split

theorem arriveBarrier_keeps {z t' : State} {v' : Bool} {M : List Part} {s : State} {b : Nat} {parties : Nat} {a : Arrival} (e' : arriveBarrier s b parties a = (t', v')) (hz : Keeps M z s) (hdisp : Part.disp ∈ M) (hreins : Part.reins ∈ M) : Keeps M z t' := by
  have k' := arriveBarrier_fst_keeps (s := s) (b := b) (parties := parties) (a := a) hz hdisp hreins
  rw [e'] at k'
  exact k'

theorem withdrawArrivals_keeps {z : State} {M : List Part} {s : State} {wu : Nat} (hz : Keeps M z s) (hreins : Part.reins ∈ M) : Keeps M z (withdrawArrivals s wu) := by
  unfold withdrawArrivals
  repeat'
    first
      | with_reducible assumption
      | (with_reducible apply modReins_keeps)
      | dsimp only
      | split

theorem freeBytes_fst_keeps {z : State} {M : List Part} {s : State} {n : Nat} (hz : Keeps M z s) (hfree : Part.free ∈ M) : Keeps M z (freeBytes s n).1 := by
  unfold freeBytes
  repeat'
    first
      | with_reducible assumption
      | dsimp only
      | split
      | (with_reducible refine Keeps.putFree ?_ hfree)

theorem freeBytes_keeps {z t' : State} {v' : List (Byte × Bool)} {M : List Part} {s : State} {n : Nat} (e' : freeBytes s n = (t', v')) (hz : Keeps M z s) (hfree : Part.free ∈ M) : Keeps M z t' := by
  have k' := freeBytes_fst_keeps (s := s) (n := n) hz hfree
  rw [e'] at k'
  exact k'

theorem modCtr_keeps {z : State} {M : List Part} {s : State} {lk : Link} {f : PortCounters → PortCounters} (hz : Keeps M z s) (hhost : Part.host ∈ M) (hpeers : Part.peers ∈ M) : Keeps M z (modCtr s lk f) := by
  unfold modCtr
  repeat'
    first
      | with_reducible assumption
      | (with_reducible apply modHost_keeps)
      | (with_reducible apply modPeerPort_keeps)
      | dsimp only
      | split

theorem countRx_keeps {z : State} {M : List Part} {s : State} {lk : Link} (hz : Keeps M z s) (hhost : Part.host ∈ M) (hpeers : Part.peers ∈ M) : Keeps M z (countRx s lk) := by
  unfold countRx
  repeat'
    first
      | with_reducible assumption
      | (with_reducible apply modCtr_keeps)
      | dsimp only
      | split

theorem impDrop_keeps {z : State} {M : List Part} {s : State} {lk : Link} {check : Nat} (hz : Keeps M z s) (hhost : Part.host ∈ M) (hpeers : Part.peers ∈ M) : Keeps M z (impDrop s lk check) := by
  unfold impDrop
  repeat'
    first
      | with_reducible assumption
      | (with_reducible apply modCtr_keeps)
      | dsimp only
      | split

theorem putSent_keeps {z : State} {M : List Part} {s : State} {lk : Link} {x : Sent} (hz : Keeps M z s) (hhost : Part.host ∈ M) (hpeers : Part.peers ∈ M) : Keeps M z (putSent s lk x) := by
  unfold putSent
  repeat'
    first
      | with_reducible assumption
      | (with_reducible apply modCtr_keeps)
      | (with_reducible apply modHost_keeps)
      | dsimp only
      | split

theorem putSess_keeps {z : State} {M : List Part} {s : State} {lk : Link} {se : Session} (hz : Keeps M z s) (hhost : Part.host ∈ M) (hpeers : Part.peers ∈ M) : Keeps M z (putSess s lk se) := by
  unfold putSess
  repeat'
    first
      | with_reducible assumption
      | (with_reducible apply modHost_keeps)
      | (with_reducible apply modPeerPort_keeps)
      | dsimp only
      | split

theorem modSess_keeps {z : State} {M : List Part} {s : State} {lk : Link} {num : Nat} {f : Session → Session} (hz : Keeps M z s) (hhost : Part.host ∈ M) (hpeers : Part.peers ∈ M) : Keeps M z (modSess s lk num f) := by
  unfold modSess
  repeat'
    first
      | with_reducible assumption
      | (with_reducible apply putSess_keeps)
      | dsimp only
      | split

theorem transmit_keeps {z : State} {M : List Part} {s : State} {lk : Link} {se : Session} {typ : Nat} {body : List Byte} {repeatBit : Bool} {response : Bool} {seq : Nat} {mt : Nat} (hz : Keeps M z s) (hhost : Part.host ∈ M) (hpeers : Part.peers ∈ M) : Keeps M z (transmit s lk se typ body repeatBit response seq mt) := by
  unfold transmit
  repeat'
    first
      | with_reducible assumption
      | (with_reducible apply putSent_keeps)
      | (with_reducible apply putSess_keeps)
      | dsimp only
      | split

theorem departTap_keeps {z : State} {M : List Part} {s : State} {typ : Nat} {repeatBit : Bool} {body : List Byte} (hz : Keeps M z s) (hmeter : Part.meter ∈ M) : Keeps M z (departTap s typ repeatBit body) := by
  unfold departTap
  repeat'
    first
      | with_reducible assumption
      | dsimp only
      | split
      | (with_reducible refine Keeps.putMeter ?_ hmeter)

theorem flushHeld_keeps {z : State} {M : List Part} {s : State} {lk : Link} {num : Nat} {a3 : Nat} (hz : Keeps M z s) (hhost : Part.host ∈ M) (hpeers : Part.peers ∈ M) (hmeter : Part.meter ∈ M) : Keeps M z (flushHeld s lk num a3) := by
  induction a3 generalizing s with
  | zero =>
    unfold flushHeld
    repeat'
      first
        | with_reducible assumption
        | (with_reducible apply transmit_keeps)
        | (with_reducible apply putSess_keeps)
        | (with_reducible apply departTap_keeps)
        | dsimp only
        | split

  | succ k ih =>
    unfold flushHeld
    repeat'
      first
        | with_reducible assumption
        | (with_reducible apply ih)
        | (with_reducible apply transmit_keeps)
        | (with_reducible apply putSess_keeps)
        | (with_reducible apply departTap_keeps)
        | dsimp only
        | split

theorem sendSeq_keeps {z : State} {M : List Part} {s : State} {lk : Link} {num : Nat} {typ : Nat} {body : List Byte} {repeatBit : Bool} {notice : Option (Nat × Item)} (hz : Keeps M z s) (hhost : Part.host ∈ M) (hpeers : Part.peers ∈ M) (hmeter : Part.meter ∈ M) : Keeps M z (sendSeq s lk num typ body repeatBit notice) := by
  unfold sendSeq
  repeat'
    first
      | with_reducible assumption
      | (with_reducible apply flushHeld_keeps)
      | (with_reducible apply putSess_keeps)
      | dsimp only
      | split

theorem sendPlain_keeps {z : State} {M : List Part} {s : State} {lk : Link} {num : Nat} {typ : Nat} {body : List Byte} {response : Bool} (hz : Keeps M z s) (hhost : Part.host ∈ M) (hpeers : Part.peers ∈ M) : Keeps M z (sendPlain s lk num typ body response) := by
  unfold sendPlain
  repeat'
    first
      | with_reducible assumption
      | (with_reducible apply transmit_keeps)
      | dsimp only
      | split

theorem sendOpen_keeps {z : State} {M : List Part} {s : State} {lk : Link} {typ : Nat} {body : List Byte} (hz : Keeps M z s) (hhost : Part.host ∈ M) (hpeers : Part.peers ∈ M) : Keeps M z (sendOpen s lk typ body) := by
  unfold sendOpen
  repeat'
    first
      | with_reducible assumption
      | (with_reducible apply putSent_keeps)
      | dsimp only
      | split

theorem sendAck_keeps {z : State} {M : List Part} {s : State} {lk : Link} {num : Nat} (hz : Keeps M z s) (hhost : Part.host ∈ M) (hpeers : Part.peers ∈ M) : Keeps M z (sendAck s lk num) := by
  unfold sendAck
  repeat'
    first
      | with_reducible assumption
      | (with_reducible apply sendPlain_keeps)
      | dsimp only
      | split

theorem lateLanded_keeps {z : State} {M : List Part} {s : State} {lk : Link} {num : Nat} {gen : Nat} {seq : Nat} (hz : Keeps M z s) (hhost : Part.host ∈ M) (hpeers : Part.peers ∈ M) : Keeps M z (lateLanded s lk num gen seq) := by
  unfold lateLanded
  repeat'
    first
      | with_reducible assumption
      | (with_reducible apply sendAck_keeps)
      | (with_reducible apply putSess_keeps)
      | dsimp only
      | split

theorem receive_fst_keeps {z : State} {M : List Part} {s : State} {lk : Link} {d : Datagram} {typ : Nat} {sequenced : Bool} {late : Bool} (hz : Keeps M z s) (hhost : Part.host ∈ M) (hpeers : Part.peers ∈ M) : Keeps M z (receive s lk d typ sequenced late).1 := by
  unfold receive
  repeat'
    first
      | with_reducible assumption
      | (with_reducible apply countRx_keeps)
      | (with_reducible apply impDrop_keeps)
      | (with_reducible apply putSess_keeps)
      | (with_reducible apply sendAck_keeps)
      | dsimp only
      | split

theorem receive_keeps {z t' : State} {v' : Rx} {M : List Part} {s : State} {lk : Link} {d : Datagram} {typ : Nat} {sequenced : Bool} {late : Bool} (e' : receive s lk d typ sequenced late = (t', v')) (hz : Keeps M z s) (hhost : Part.host ∈ M) (hpeers : Part.peers ∈ M) : Keeps M z t' := by
  have k' := receive_fst_keeps (s := s) (lk := lk) (d := d) (typ := typ) (sequenced := sequenced) (late := late) hz hhost hpeers
  rw [e'] at k'
  exact k'

theorem sendNack_keeps {z : State} {M : List Part} {s : State} {num : Nat} {seq : Nat} {typ : Nat} {reason : Nat} {detail : Nat} (hz : Keeps M z s) (hhost : Part.host ∈ M) (hpeers : Part.peers ∈ M) (hmeter : Part.meter ∈ M) : Keeps M z (sendNack s num seq typ reason detail) := by
  unfold sendNack
  repeat'
    first
      | with_reducible assumption
      | (with_reducible apply sendSeq_keeps)
      | dsimp only
      | split

theorem returnNotices_keeps {z : State} {M : List Part} {s : State} {num : Nat} (hz : Keeps M z s) (hhost : Part.host ∈ M) (hpeers : Part.peers ∈ M) : Keeps M z (returnNotices s num) := by
  unfold returnNotices
  repeat'
    first
      | with_reducible assumption
      | (with_reducible apply modHost_keeps)
      | (with_reducible apply putSess_keeps)
      | dsimp only
      | split

theorem vacateBridle_keeps {z : State} {M : List Part} {s : State} (hz : Keeps M z s) (hhost : Part.host ∈ M) (hpeers : Part.peers ∈ M) : Keeps M z (vacateBridle s) := by
  unfold vacateBridle
  repeat'
    first
      | with_reducible assumption
      | (with_reducible apply modHost_keeps)
      | (with_reducible apply returnNotices_keeps)
      | dsimp only
      | split

theorem grantBridle_keeps {z : State} {M : List Part} {s : State} {se : Session} {cause : Nat} (hz : Keeps M z s) (hhost : Part.host ∈ M) (hpeers : Part.peers ∈ M) (hmeter : Part.meter ∈ M) : Keeps M z (grantBridle s se cause) := by
  unfold grantBridle
  repeat'
    first
      | with_reducible assumption
      | (with_reducible apply modHost_keeps)
      | (with_reducible apply sendSeq_keeps)
      | dsimp only
      | split

theorem closeSession_keeps {z : State} {M : List Part} {s : State} {num : Nat} (hz : Keeps M z s) (hhost : Part.host ∈ M) (hpeers : Part.peers ∈ M) : Keeps M z (closeSession s num) := by
  unfold closeSession
  repeat'
    first
      | with_reducible assumption
      | (with_reducible apply vacateBridle_keeps)
      | (with_reducible apply modHost_keeps)
      | dsimp only
      | split

theorem sendNotice_keeps {z : State} {M : List Part} {s : State} {num : Nat} {pool : Nat} {queue : Nat} {it : Item} {repeatBit : Bool} (hz : Keeps M z s) (hhost : Part.host ∈ M) (hpeers : Part.peers ∈ M) (hmeter : Part.meter ∈ M) : Keeps M z (sendNotice s num pool queue it repeatBit) := by
  unfold sendNotice
  repeat'
    first
      | with_reducible assumption
      | (with_reducible apply sendSeq_keeps)
      | dsimp only
      | split

theorem noteReply_keeps {z : State} {M : List Part} {s : State} (hz : Keeps M z s) (hhost : Part.host ∈ M) : Keeps M z (noteReply s) := by
  unfold noteReply
  repeat'
    first
      | with_reducible assumption
      | (with_reducible apply modHost_keeps)
      | dsimp only
      | split

theorem resolveHop_keeps {z : State} {M : List Part} {s : State} {ip : List Byte} {mac : List Byte} (hz : Keeps M z s) (hhost : Part.host ∈ M) : Keeps M z (resolveHop s ip mac) := by
  unfold resolveHop
  repeat'
    first
      | with_reducible assumption
      | (with_reducible apply modHost_keeps)
      | dsimp only
      | split

theorem ptpHoldover_keeps {z : State} {M : List Part} {s : State} (hz : Keeps M z s) (hclock : Part.clock ∈ M) (hpdk : Part.pdk ∈ M) : Keeps M z (ptpHoldover s) := by
  unfold ptpHoldover
  repeat'
    first
      | with_reducible assumption
      | (with_reducible apply post_keeps)
      | dsimp only
      | split
      | (with_reducible refine Keeps.putClock ?_ hclock)

theorem announcePath_keeps {z : State} {M : List Part} {s : State} {path : Nat} (hz : Keeps M z s) (hhost : Part.host ∈ M) (hpeers : Part.peers ∈ M) : Keeps M z (announcePath s path) := by
  unfold announcePath
  repeat'
    first
      | with_reducible assumption
      | (with_reducible apply putSent_keeps)
      | dsimp only
      | split

theorem postPath_keeps {z : State} {M : List Part} {s : State} {what : Nat} {path : Nat} (hz : Keeps M z s) (hpdk : Part.pdk ∈ M) : Keeps M z (postPath s what path) := by
  unfold postPath
  repeat'
    first
      | with_reducible assumption
      | (with_reducible apply post_keeps)
      | dsimp only
      | split

theorem flushAll_keeps {z : State} {M : List Part} {s : State} (hz : Keeps M z s) (hhost : Part.host ∈ M) (hpeers : Part.peers ∈ M) (hmeter : Part.meter ∈ M) : Keeps M z (flushAll s) := by
  unfold flushAll
  repeat'
    first
      | with_reducible assumption
      | (with_reducible apply flushHeld_keeps)
      | (with_reducible refine Keeps.foldl ?_ ?_)
      | intro _
      | dsimp only
      | split

theorem loseHostPath_keeps {z : State} {M : List Part} {s : State} {path : Nat} (hz : Keeps M z s) (hclock : Part.clock ∈ M) (hhost : Part.host ∈ M) (hpdk : Part.pdk ∈ M) (hflt : Part.flt ∈ M) (hpeers : Part.peers ∈ M) (hmeter : Part.meter ∈ M) : Keeps M z (loseHostPath s path) := by
  unfold loseHostPath
  repeat'
    first
      | with_reducible assumption
      | (with_reducible apply postFault_keeps)
      | (with_reducible apply modHost_keeps)
      | (with_reducible apply postPath_keeps)
      | (with_reducible apply announcePath_keeps)
      | (with_reducible apply ptpHoldover_keeps)
      | (with_reducible apply capOpen_keeps)
      | dsimp only
      | split

theorem writeHostPath_keeps {z : State} {M : List Part} {s : State} {v : Nat} (hz : Keeps M z s) (hhost : Part.host ∈ M) (hpdk : Part.pdk ∈ M) (hpeers : Part.peers ∈ M) : Keeps M z (writeHostPath s v) := by
  unfold writeHostPath
  repeat'
    first
      | with_reducible assumption
      | (with_reducible apply modHost_keeps)
      | (with_reducible apply postPath_keeps)
      | (with_reducible apply announcePath_keeps)
      | dsimp only
      | split

theorem loseStandby_keeps {z : State} {M : List Part} {s : State} (hz : Keeps M z s) (hhost : Part.host ∈ M) (hpdk : Part.pdk ∈ M) (hflt : Part.flt ∈ M) (hmeter : Part.meter ∈ M) : Keeps M z (loseStandby s) := by
  unfold loseStandby
  repeat'
    first
      | with_reducible assumption
      | (with_reducible apply modHost_keeps)
      | (with_reducible apply postPath_keeps)
      | (with_reducible apply postFault_keeps)
      | dsimp only
      | split

theorem sendHelloParts_keeps {z : State} {M : List Part} {s : State} {lk : Link} {nonceM : List Byte} (hz : Keeps M z s) (hhost : Part.host ∈ M) (hpeers : Part.peers ∈ M) : Keeps M z (sendHelloParts s lk nonceM) := by
  unfold sendHelloParts
  repeat'
    first
      | with_reducible assumption
      | (with_reducible apply sendOpen_keeps)
      | (with_reducible refine Keeps.foldl ?_ ?_)
      | intro _
      | dsimp only
      | split

theorem hostMessage_keeps {z : State} {M : List Part} {s : State} {d : Datagram} {typ : Nat} {act : State → Session → List Byte → State} (hz : Keeps M z s) (hf : ∀ a b c, Keeps M z a → Keeps M z (act a b c)) (hhost : Part.host ∈ M) (hpeers : Part.peers ∈ M) : Keeps M z (hostMessage s d typ act) := by
  unfold hostMessage
  repeat'
    first
      | with_reducible assumption
      | (with_reducible apply sendAck_keeps)
      | (with_reducible apply receive_fst_keeps)
      | (with_reducible refine receive_keeps (by assumption) ?_ ?_ ?_)
      | (with_reducible apply hf)
      | dsimp only
      | split

theorem ownerOnly_keeps {z : State} {M : List Part} {typ : Nat} {seq : Nat} {s : State} {se : Session} {act : State → State} (hz : Keeps M z s) (hf : ∀ a, Keeps M z a → Keeps M z (act a)) (hhost : Part.host ∈ M) (hpeers : Part.peers ∈ M) (hmeter : Part.meter ∈ M) : Keeps M z (ownerOnly typ seq s se act) := by
  unfold ownerOnly
  repeat'
    first
      | with_reducible assumption
      | (with_reducible apply sendNack_keeps)
      | (with_reducible apply hf)
      | dsimp only
      | split

theorem actClaim_keeps {z : State} {M : List Part} {seq : Nat} {s : State} {se : Session} {body : List Byte} (hz : Keeps M z s) (hhost : Part.host ∈ M) (hpeers : Part.peers ∈ M) (hmeter : Part.meter ∈ M) : Keeps M z (actClaim seq s se body) := by
  unfold actClaim
  repeat'
    first
      | with_reducible assumption
      | (with_reducible apply sendNack_keeps)
      | (with_reducible apply modHost_keeps)
      | dsimp only
      | split

theorem closeElection_keeps {z : State} {M : List Part} {s : State} {e : Election} (hz : Keeps M z s) (hhost : Part.host ∈ M) (hpeers : Part.peers ∈ M) (hmeter : Part.meter ∈ M) : Keeps M z (closeElection s e) := by
  unfold closeElection
  repeat'
    first
      | with_reducible assumption
      | (with_reducible apply modHost_keeps)
      | (with_reducible apply sendNack_keeps)
      | (with_reducible apply grantBridle_keeps)
      | (with_reducible refine Keeps.foldl ?_ ?_)
      | intro _
      | dsimp only
      | split

theorem actRenew_keeps {z : State} {M : List Part} {seq : Nat} {s : State} {se : Session} {body : List Byte} (hz : Keeps M z s) (hhost : Part.host ∈ M) (hpeers : Part.peers ∈ M) (hmeter : Part.meter ∈ M) : Keeps M z (actRenew seq s se body) := by
  unfold actRenew
  repeat'
    first
      | with_reducible assumption
      | (with_reducible apply ownerOnly_keeps)
      | (with_reducible apply sendNack_keeps)
      | (with_reducible apply grantBridle_keeps)
      | intro _
      | dsimp only
      | split

theorem actRelease_keeps {z : State} {M : List Part} {seq : Nat} {s : State} {se : Session} {body : List Byte} (hz : Keeps M z s) (hhost : Part.host ∈ M) (hpeers : Part.peers ∈ M) (hmeter : Part.meter ∈ M) : Keeps M z (actRelease seq s se body) := by
  unfold actRelease
  repeat'
    first
      | with_reducible assumption
      | (with_reducible apply ownerOnly_keeps)
      | (with_reducible apply sendNack_keeps)
      | (with_reducible apply vacateBridle_keeps)
      | (with_reducible apply grantBridle_keeps)
      | intro _
      | dsimp only
      | split

theorem queueWrite_keeps {z : State} {M : List Part} {s : State} {src : Nat} {who : Writer} {pa : Nat} {l : List (Byte × Bool)} (hz : Keeps M z s) (hhbm : Part.hbm ∈ M) : Keeps M z (queueWrite s src who pa l) := by
  unfold queueWrite
  repeat'
    first
      | with_reducible assumption
      | dsimp only
      | split
      | (with_reducible refine Keeps.putHbm ?_ rfl rfl hhbm)

theorem landBytes_keeps {z : State} {M : List Part} {s : State} {a1 : Nat} {a2 : List (Byte × Bool)} (hz : Keeps M z s) (hhbm : Part.hbm ∈ M) : Keeps M z (landBytes s a1 a2) := by
  induction a2 generalizing s a1 with
  | nil => exact hz
  | cons x r ih =>
    obtain ⟨b, c⟩ := x
    unfold landBytes
    refine ih (Keeps.store hz (fun m => ?_) (.inr rfl) (.inr rfl) (.inr rfl) (.inr rfl) (.inr rfl) (.inr rfl) (.inr rfl) (.inr rfl) (.inl hhbm) (.inr rfl) (.inr rfl) (.inr rfl) (.inr rfl) (.inr rfl) (.inr rfl) (.inr rfl))
    obtain ⟨m1, m2, m3⟩ := m
    have hp : Memory.wf (if parityLost s (rowOf a1) then s.hbm else { s.hbm with parity := cellSet s.hbm.parity (4096 * rowOf a1 + a1 % 4096) (cellGet s.hbm.parity (4096 * rowOf a1 + a1 % 4096) ^^^ (dataByte s a1).1 ^^^ b) }).parity = true := by
      split
      · exact m2
      · exact cellSet_wf m2 _ _
    have hd : Memory.wf (if parityLost s (rowOf a1) then s.hbm else { s.hbm with parity := cellSet s.hbm.parity (4096 * rowOf a1 + a1 % 4096) (cellGet s.hbm.parity (4096 * rowOf a1 + a1 % 4096) ^^^ (dataByte s a1).1 ^^^ b) }).data = true := by
      split <;> exact m1
    split
    · exact ⟨hd, hp, m3⟩
    · exact ⟨cellSet_wf hd _ _, hp, m3⟩

theorem landPoison_keeps {z : State} {M : List Part} {s : State} {gs : List (Nat × Bool × Bool)} (hz : Keeps M z s) (hhbm : Part.hbm ∈ M) : Keeps M z (landPoison s gs) := by
  unfold landPoison
  repeat'
    first
      | with_reducible assumption
      | (with_reducible refine Keeps.foldl ?_ ?_)
      | intro _
      | dsimp only
      | split
      | (with_reducible refine Keeps.putHbm ?_ rfl rfl hhbm)

theorem invalidateLines_keeps {z : State} {M : List Part} {s : State} {pa : Nat} {n : Nat} (hz : Keeps M z s) (hhbm : Part.hbm ∈ M) : Keeps M z (invalidateLines s pa n) := by
  unfold invalidateLines
  repeat'
    first
      | with_reducible assumption
      | dsimp only
      | split
      | (with_reducible refine Keeps.putHbm ?_ rfl rfl hhbm)

theorem landRun_keeps {z : State} {M : List Part} {s : State} {pa : Nat} {l : List (Byte × Bool)} (hz : Keeps M z s) (hhbm : Part.hbm ∈ M) : Keeps M z (landRun s pa l) := by
  unfold landRun
  repeat'
    first
      | with_reducible assumption
      | (with_reducible apply invalidateLines_keeps)
      | (with_reducible apply landPoison_keeps)
      | (with_reducible apply landBytes_keeps)
      | dsimp only
      | split

theorem clearSeen_keeps {z : State} {M : List Part} {s : State} {n : Nat} {ws : List PendingWrite} (hz : Keeps M z s) (hhbm : Part.hbm ∈ M) : Keeps M z (clearSeen s n ws) := by
  unfold clearSeen
  repeat'
    first
      | with_reducible assumption
      | dsimp only
      | split
      | (with_reducible refine Keeps.putHbm ?_ rfl rfl hhbm)

theorem landRow_keeps {z : State} {M : List Part} {s : State} {n : Nat} (hz : Keeps M z s) (hhbm : Part.hbm ∈ M) : Keeps M z (landRow s n) := by
  unfold landRow
  repeat'
    first
      | with_reducible assumption
      | (with_reducible apply landRun_keeps)
      | (with_reducible apply clearSeen_keeps)
      | (with_reducible refine Keeps.foldl ?_ ?_)
      | intro _
      | dsimp only
      | split
      | (with_reducible refine Keeps.putHbm ?_ rfl rfl hhbm)

theorem tlbFill_keeps {z : State} {M : List Part} {s : State} {die : Nat} {job : Nat} {va : Nat} (hz : Keeps M z s) (hhbm : Part.hbm ∈ M) : Keeps M z (tlbFill s die job va) := by
  unfold tlbFill
  repeat'
    first
      | with_reducible assumption
      | dsimp only
      | split
      | (with_reducible refine Keeps.putHbm ?_ rfl rfl hhbm)

theorem vWrite_keeps {z : State} {M : List Part} {s : State} {die : Nat} {src : Nat} {who : Writer} {job : Nat} {va : Nat} {l : List (Byte × Bool)} (hz : Keeps M z s) (hhbm : Part.hbm ∈ M) : Keeps M z (vWrite s die src who job va l) := by
  unfold vWrite
  repeat'
    first
      | with_reducible assumption
      | (with_reducible apply queueWrite_keeps)
      | (with_reducible refine Keeps.foldl_fst ?_ ?_)
      | intro _
      | dsimp only
      | split

theorem tlbFillRange_keeps {z : State} {M : List Part} {s : State} {die : Nat} {job : Nat} {va : Nat} {n : Nat} (hz : Keeps M z s) (hhbm : Part.hbm ∈ M) : Keeps M z (tlbFillRange s die job va n) := by
  unfold tlbFillRange
  repeat'
    first
      | with_reducible assumption
      | (with_reducible apply tlbFill_keeps)
      | (with_reducible refine Keeps.foldl ?_ ?_)
      | intro _
      | dsimp only
      | split

theorem touchRange_keeps {z : State} {M : List Part} {s : State} {wu : Nat} {die : Nat} {job : Nat} {va : Nat} {n : Nat} (hz : Keeps M z s) (hdisp : Part.disp ∈ M) : Keeps M z (touchRange s wu die job va n) := by
  unfold touchRange
  repeat'
    first
      | with_reducible assumption
      | (with_reducible apply modUnit_keeps)
      | dsimp only
      | split

theorem cacheTouch_keeps {z : State} {M : List Part} {s : State} {die : Nat} {pa : Nat} (hz : Keeps M z s) (hhbm : Part.hbm ∈ M) : Keeps M z (cacheTouch s die pa) := by
  unfold cacheTouch
  repeat'
    first
      | with_reducible assumption
      | dsimp only
      | split
      | (with_reducible refine Keeps.putHbm ?_ rfl rfl hhbm)

theorem modGroup_keeps {z : State} {M : List Part} {s : State} {g : Nat} {f : Group → Group} (hz : Keeps M z s) (hpwr : Part.pwr ∈ M) : Keeps M z (modGroup s g f) := by
  unfold modGroup
  repeat'
    first
      | with_reducible assumption
      | dsimp only
      | split
      | (with_reducible refine Keeps.putPwr ?_ hpwr)

theorem startPll_keeps {z : State} {M : List Part} {s : State} {g : Nat} (hz : Keeps M z s) (hpwr : Part.pwr ∈ M) : Keeps M z (startPll s g) := by
  unfold startPll
  repeat'
    first
      | with_reducible assumption
      | (with_reducible apply modGroup_keeps)
      | dsimp only
      | split

theorem tallyActive_keeps {z : State} {M : List Part} {s : State} {p : Nat} (hz : Keeps M z s) (hclu : Part.clu ∈ M) : Keeps M z (tallyActive s p) := by
  unfold tallyActive
  repeat'
    first
      | with_reducible assumption
      | (with_reducible apply modClu_keeps)
      | intro _
      | dsimp only
      | split

theorem tallyGroup_keeps {z : State} {M : List Part} {s : State} {g : Nat} (hz : Keeps M z s) (hclu : Part.clu ∈ M) : Keeps M z (tallyGroup s g) := by
  unfold tallyGroup
  repeat'
    first
      | with_reducible assumption
      | (with_reducible apply tallyActive_keeps)
      | (with_reducible refine Keeps.foldl ?_ ?_)
      | intro _
      | dsimp only
      | split

theorem requestWake_keeps {z : State} {M : List Part} {s : State} {p : Nat} (hz : Keeps M z s) (hclu : Part.clu ∈ M) (hpwr : Part.pwr ∈ M) : Keeps M z (requestWake s p) := by
  unfold requestWake
  repeat'
    first
      | with_reducible assumption
      | (with_reducible refine setClu_keeps ?_ _ _ (CluKeeps.upd rfl) ?_)
      | (with_reducible apply startPll_keeps)
      | dsimp only
      | split

theorem makeActive_keeps {z : State} {M : List Part} {s : State} {p : Nat} (hz : Keeps M z s) (hclu : Part.clu ∈ M) (hpwr : Part.pwr ∈ M) : Keeps M z (makeActive s p) := by
  unfold makeActive
  repeat'
    first
      | with_reducible assumption
      | (with_reducible apply modClu_keeps)
      | (with_reducible apply tallyActive_keeps)
      | (with_reducible apply startPll_keeps)
      | intro _
      | dsimp only
      | split

theorem makeOff_keeps {z : State} {M : List Part} {s : State} {p : Nat} (hz : Keeps M z s) (hclu : Part.clu ∈ M) (hpwr : Part.pwr ∈ M) : Keeps M z (makeOff s p) := by
  unfold makeOff
  repeat'
    first
      | with_reducible assumption
      | (with_reducible apply modClu_keeps)
      | (with_reducible apply modGroup_keeps)
      | (with_reducible apply tallyActive_keeps)
      | exact fun _ => rfl
      | intro _
      | dsimp only
      | split

theorem staleDrop_keeps {z : State} {M : List Part} {s : State} {n : Nat} (hz : Keeps M z s) (hflt : Part.flt ∈ M) : Keeps M z (staleDrop s n) := by
  unfold staleDrop
  repeat'
    first
      | with_reducible assumption
      | dsimp only
      | split
      | (with_reducible refine Keeps.putFlt ?_ hflt)

theorem dropResidency_keeps {z : State} {M : List Part} {s : State} {l : Nat} (hz : Keeps M z s) (hdisp : Part.disp ∈ M) : Keeps M z (dropResidency s l) := by
  unfold dropResidency
  repeat'
    first
      | with_reducible assumption
      | dsimp only
      | split
      | (with_reducible refine Keeps.putDisp ?_ hdisp)

theorem postResidencyLost_keeps {z : State} {M : List Part} {s : State} {l : Nat} {bufs : List Nat} (hz : Keeps M z s) (hpdk : Part.pdk ∈ M) : Keeps M z (postResidencyLost s l bufs) := by
  unfold postResidencyLost
  repeat'
    first
      | with_reducible assumption
      | (with_reducible apply post_keeps)
      | dsimp only
      | split

theorem makeAbsent_keeps {z : State} {M : List Part} {s : State} {l : Nat} {p : Nat} {bufs : List Nat} (hz : Keeps M z s) (hpdk : Part.pdk ∈ M) (hclu : Part.clu ∈ M) : Keeps M z (makeAbsent s l p bufs) := by
  unfold makeAbsent
  repeat'
    first
      | with_reducible assumption
      | (with_reducible apply setLmap_keeps)
      | (with_reducible apply postResidencyLost_keeps)
      | (with_reducible apply post_keeps)
      | dsimp only
      | split

theorem startRemount_keeps {z : State} {M : List Part} {s : State} {l : Nat} {p : Nat} {q : Nat} {bufs : List Nat} (hz : Keeps M z s) (hclu : Part.clu ∈ M) (hpwr : Part.pwr ∈ M) : Keeps M z (startRemount s l p q bufs) := by
  unfold startRemount
  repeat'
    first
      | with_reducible assumption
      | (with_reducible apply setLmap_keeps)
      | (with_reducible apply requestWake_keeps)
      | dsimp only
      | split
      | (with_reducible refine Keeps.putClu ?_ rfl hclu)

theorem beginRemount_keeps {z : State} {M : List Part} {s : State} {l : Nat} {p : Nat} (hz : Keeps M z s) (hdisp : Part.disp ∈ M) (hpdk : Part.pdk ∈ M) (hclu : Part.clu ∈ M) (hpwr : Part.pwr ∈ M) (hflt : Part.flt ∈ M) (hmeter : Part.meter ∈ M) : Keeps M z (beginRemount s l p) := by
  unfold beginRemount
  repeat'
    first
      | with_reducible assumption
      | (with_reducible apply dropResidency_keeps)
      | (with_reducible apply capOpen_keeps)
      | (with_reducible apply startRemount_keeps)
      | (with_reducible apply makeAbsent_keeps)
      | dsimp only
      | split

theorem haltCluster_keeps {z : State} {M : List Part} {s : State} {p : Nat} {mech : Nat} (hz : Keeps M z s) (hclu : Part.clu ∈ M) (hpwr : Part.pwr ∈ M) : Keeps M z (haltCluster s p mech) := by
  unfold haltCluster
  repeat'
    first
      | with_reducible assumption
      | (with_reducible apply makeOff_keeps)
      | (with_reducible apply modClu_keeps)
      | intro _
      | dsimp only
      | split

theorem failPhys_keeps {z : State} {M : List Part} {s : State} {p : Nat} {mech : Nat} {res : Nat} (hz : Keeps M z s) (hdisp : Part.disp ∈ M) (hpdk : Part.pdk ∈ M) (hclu : Part.clu ∈ M) (hpwr : Part.pwr ∈ M) (hflt : Part.flt ∈ M) (hmeter : Part.meter ∈ M) : Keeps M z (failPhys s p mech res) := by
  unfold failPhys
  repeat'
    first
      | with_reducible assumption
      | (with_reducible apply beginRemount_keeps)
      | (with_reducible apply addCauses_keeps)
      | (with_reducible apply haltCluster_keeps)
      | (with_reducible apply makeAbsent_keeps)
      | dsimp only
      | split
      | (with_reducible refine Keeps.putClu ?_ rfl hclu)

theorem declareFailed_keeps {z : State} {M : List Part} {s : State} {p : Nat} {mech : Nat} (hz : Keeps M z s) (hdisp : Part.disp ∈ M) (hpdk : Part.pdk ∈ M) (hclu : Part.clu ∈ M) (hpwr : Part.pwr ∈ M) (hflt : Part.flt ∈ M) (hmeter : Part.meter ∈ M) : Keeps M z (declareFailed s p mech) := by
  unfold declareFailed
  repeat'
    first
      | with_reducible assumption
      | (with_reducible apply failPhys_keeps)
      | (with_reducible apply postFault_keeps)
      | dsimp only
      | split

theorem serveBy_keeps {z : State} {M : List Part} {s : State} {l : Nat} {p : Nat} {failed : Nat} {bufs : List Nat} (hz : Keeps M z s) (hpdk : Part.pdk ∈ M) (hclu : Part.clu ∈ M) (hflt : Part.flt ∈ M) (hmeter : Part.meter ∈ M) : Keeps M z (serveBy s l p failed bufs) := by
  unfold serveBy
  repeat'
    first
      | with_reducible assumption
      | (with_reducible apply modClu_keeps)
      | (with_reducible apply setLmap_keeps)
      | (with_reducible apply capClose_keeps)
      | (with_reducible apply postResidencyLost_keeps)
      | (with_reducible apply post_keeps)
      | exact fun _ => rfl
      | intro _
      | dsimp only
      | split

/-- A scratchpad stays canonical under a write to one word. -/
theorem spadWordWrite_wf {sp : Spad} {w off : Nat} {bytes : List Byte} {bad : Bool} (h : Memory.wf sp.bytes = true) :
    Memory.wf (spadWordWrite sp w off bytes bad).bytes = true := by
  unfold spadWordWrite
  refine cellWrite_wf ?_ _ _
  split
  · exact h
  · exact cellWrite_wf h _ _

theorem spadWriteGo_wf {sp : Spad} {k a : Nat} {l : List (Byte × Bool)} (h : Memory.wf sp.bytes = true) :
    Memory.wf (spadWriteGo sp k a l).bytes = true := by
  induction k generalizing sp a l with
  | zero => exact h
  | succ k ih =>
    unfold spadWriteGo
    split
    · exact h
    · exact ih (spadWordWrite_wf h)

theorem cluWrite_keeps {c d : Cluster} {a : Nat} {l : List (Byte × Bool)} (h : CluKeeps c d) : CluKeeps c (cluWrite d a l) :=
  fun m => spadWriteGo_wf (h m)

theorem maskedWrite_keeps {c d : Cluster} {w : Nat} {mask : List Nat} {data : List Byte} {bad : Bool} (h : CluKeeps c d) :
    CluKeeps c (maskedWrite d w mask data bad) := by
  unfold maskedWrite
  split
  · exact cluWrite_keeps h
  · exact CluKeeps.foldl h fun u x k => cluWrite_keeps k

/-- Flipped stored bits are no bytes. -/
theorem applyUpsets_bytes (sp : Spad) (l : List Upset) : (applyUpsets sp l).bytes = sp.bytes := by
  unfold applyUpsets
  induction l generalizing sp with
  | nil => rfl
  | cons u l ih => rw [List.foldl_cons, ih]

theorem rewriteWord_wf {sp : Spad} {w : Nat} (h : Memory.wf sp.bytes = true) : Memory.wf (rewriteWord sp w).bytes = true :=
  cellWrite_wf h _ _

theorem rewriteWords_wf {sp : Spad} {l : List Nat} (h : Memory.wf sp.bytes = true) :
    Memory.wf (l.foldl rewriteWord sp).bytes = true := by
  induction l generalizing sp with
  | nil => exact h
  | cons w l ih => exact ih (rewriteWord_wf h)

theorem noteWord_keeps {z : State} {M : List Part} {s : State} {p : Nat} {w : Nat} (hz : Keeps M z s) (hpdk : Part.pdk ∈ M) (hclu : Part.clu ∈ M) (hflt : Part.flt ∈ M) (hmeter : Part.meter ∈ M) : Keeps M z (noteWord s p w) := by
  unfold noteWord
  repeat'
    first
      | with_reducible assumption
      | (with_reducible apply modClu_keeps)
      | (with_reducible apply postFault_keeps)
      | (with_reducible apply postFrom_keeps)
      | intro _
      | dsimp only
      | split

theorem noteReads_keeps {z : State} {M : List Part} {s : State} {p : Nat} {ws : List Nat} (hz : Keeps M z s) (hpdk : Part.pdk ∈ M) (hclu : Part.clu ∈ M) (hflt : Part.flt ∈ M) (hmeter : Part.meter ∈ M) : Keeps M z (noteReads s p ws) := by
  unfold noteReads
  repeat'
    first
      | with_reducible assumption
      | (with_reducible apply noteWord_keeps)
      | (with_reducible refine Keeps.foldl ?_ ?_)
      | intro _
      | dsimp only
      | split

theorem noteScrub_keeps {z : State} {M : List Part} {s : State} {p : Nat} {w : Nat} (hz : Keeps M z s) (hclu : Part.clu ∈ M) : Keeps M z (noteScrub s p w) := by
  unfold noteScrub
  repeat'
    first
      | with_reducible assumption
      | (with_reducible apply modClu_keeps)
      | intro _
      | dsimp only
      | split

end Sys2Proof.Laws
end

