-- ==== Sys2Proof/Laws/KeepsUnits.lean ====
section
/-! SUPPORT. What the dispatcher, the tickets and their outputs, the requests and the streams keep: the queue, and the canonical form of every memory. -/

set_option linter.unusedTactic false
set_option linter.unreachableTactic false

namespace Sys2Proof.Laws

open Sys2Proof.Machine Sys2Proof.Safety

theorem sendPeer_keeps {z : State} {M : List Part} {s : State} {b : PeerBody} (hz : Keeps M z s) (hhost : Part.host ∈ M) (hpeers : Part.peers ∈ M) (hmeter : Part.meter ∈ M) : Keeps M z (sendPeer s b) := by
  unfold sendPeer
  repeat'
    first
      | with_reducible assumption
      | (with_reducible apply sendSeq_keeps)
      | dsimp only
      | split

theorem takePseq_fst_keeps {z : State} {M : List Part} {s : State} {dst : Nat} (hz : Keeps M z s) (hpeers : Part.peers ∈ M) : Keeps M z (takePseq s dst).1 := by
  unfold takePseq
  repeat'
    first
      | with_reducible assumption
      | dsimp only
      | split
      | (with_reducible refine Keeps.putPeers ?_ hpeers)

theorem takePseq_keeps {z t' : State} {v' : Nat} {M : List Part} {s : State} {dst : Nat} (e' : takePseq s dst = (t', v')) (hz : Keeps M z s) (hpeers : Part.peers ∈ M) : Keeps M z t' := by
  have k' := takePseq_fst_keeps (s := s) (dst := dst) hz hpeers
  rw [e'] at k'
  exact k'

theorem sendPeerData_fst_keeps {z : State} {M : List Part} {s : State} {kind : Nat} {w : Nat} {dst : Nat} {lo : Nat} {hi : Nat} {gen : Nat} {off : Nat} {l : List (Byte × Bool)} (hz : Keeps M z s) (hhost : Part.host ∈ M) (hpeers : Part.peers ∈ M) (hmeter : Part.meter ∈ M) : Keeps M z (sendPeerData s kind w dst lo hi gen off l).1 := by
  unfold sendPeerData
  repeat'
    first
      | with_reducible assumption
      | (with_reducible apply sendPeer_keeps)
      | (with_reducible apply takePseq_fst_keeps)
      | (with_reducible refine takePseq_keeps (by assumption) ?_ ?_)
      | dsimp only
      | split

theorem sendPeerData_keeps {z t' : State} {v' : Nat} {M : List Part} {s : State} {kind : Nat} {w : Nat} {dst : Nat} {lo : Nat} {hi : Nat} {gen : Nat} {off : Nat} {l : List (Byte × Bool)} (e' : sendPeerData s kind w dst lo hi gen off l = (t', v')) (hz : Keeps M z s) (hhost : Part.host ∈ M) (hpeers : Part.peers ∈ M) (hmeter : Part.meter ∈ M) : Keeps M z t' := by
  have k' := sendPeerData_fst_keeps (s := s) (kind := kind) (w := w) (dst := dst) (lo := lo) (hi := hi) (gen := gen) (off := off) (l := l) hz hhost hpeers hmeter
  rw [e'] at k'
  exact k'

theorem sendDataTo_keeps {z : State} {M : List Part} {s : State} {w : Nat} {dst : Nat} {off : Nat} {l : List (Byte × Bool)} {r : DescRef} (hz : Keeps M z s) (hhost : Part.host ∈ M) (hdisp : Part.disp ∈ M) (hpeers : Part.peers ∈ M) (hmeter : Part.meter ∈ M) : Keeps M z (sendDataTo s w dst off l r) := by
  unfold sendDataTo
  repeat'
    first
      | with_reducible assumption
      | (with_reducible apply addCause_keeps)
      | (with_reducible apply modRun_keeps)
      | (with_reducible apply sendPeerData_fst_keeps)
      | (with_reducible refine sendPeerData_keeps (by assumption) ?_ ?_ ?_ ?_)
      | (with_reducible refine Keeps.foldl ?_ ?_)
      | intro _
      | dsimp only
      | split
      | (with_reducible refine Keeps.putPeers ?_ hpeers)

theorem setRound_keeps {z : State} {M : List Part} {s : State} {w : Nat} {r : Round} (hz : Keeps M z s) (hpeers : Part.peers ∈ M) : Keeps M z (setRound s w r) := by
  unfold setRound
  repeat'
    first
      | with_reducible assumption
      | dsimp only
      | split
      | (with_reducible refine Keeps.putPeers ?_ hpeers)

theorem sendLeaves_keeps {z : State} {M : List Part} {s : State} {w : Nat} {ranks : List Nat} {pos : Nat} {lo : Nat} {hi : Nat} {gen : Nat} {l : List (Nat × LeafVal × Bool)} (hz : Keeps M z s) (hhost : Part.host ∈ M) (hpeers : Part.peers ∈ M) (hmeter : Part.meter ∈ M) : Keeps M z (sendLeaves s w ranks pos lo hi gen l) := by
  unfold sendLeaves
  repeat'
    first
      | with_reducible assumption
      | (with_reducible apply sendPeerData_fst_keeps)
      | (with_reducible refine sendPeerData_keeps (by assumption) ?_ ?_ ?_ ?_)
      | (with_reducible refine Keeps.foldl ?_ ?_)
      | intro _
      | dsimp only
      | split

theorem putResults_keeps {z : State} {M : List Part} {s : State} {w : Nat} {x : Window} {gen : Nat} {l : List (Nat × List Byte × Bool)} (hz : Keeps M z s) (hhost : Part.host ∈ M) (hhbm : Part.hbm ∈ M) (hpeers : Part.peers ∈ M) (hmeter : Part.meter ∈ M) : Keeps M z (putResults s w x gen l) := by
  unfold putResults
  repeat'
    first
      | with_reducible assumption
      | (with_reducible apply vWrite_keeps)
      | (with_reducible apply sendPeerData_fst_keeps)
      | (with_reducible refine sendPeerData_keeps (by assumption) ?_ ?_ ?_ ?_)
      | (with_reducible refine Keeps.foldl ?_ ?_)
      | intro _
      | dsimp only
      | split

theorem roundEmit_keeps {z : State} {M : List Part} {s : State} {w : Nat} {x : Window} {gen : Nat} {outs : List RoundOut} (hz : Keeps M z s) (hhost : Part.host ∈ M) (hhbm : Part.hbm ∈ M) (hpeers : Part.peers ∈ M) (hmeter : Part.meter ∈ M) : Keeps M z (roundEmit s w x gen outs) := by
  unfold roundEmit
  repeat'
    first
      | with_reducible assumption
      | (with_reducible apply sendLeaves_keeps)
      | (with_reducible apply putResults_keeps)
      | (with_reducible refine Keeps.foldl ?_ ?_)
      | intro _
      | dsimp only
      | split

theorem roundFeed_keeps {z : State} {M : List Part} {s : State} {w : Nat} {x : Window} {vs : List RoundVal} (hz : Keeps M z s) (hhost : Part.host ∈ M) (hhbm : Part.hbm ∈ M) (hpeers : Part.peers ∈ M) (hmeter : Part.meter ∈ M) : Keeps M z (roundFeed s w x vs) := by
  unfold roundFeed
  repeat'
    first
      | with_reducible assumption
      | (with_reducible apply roundEmit_keeps)
      | (with_reducible apply setRound_keeps)
      | dsimp only
      | split

theorem contribute_keeps {z : State} {M : List Part} {s : State} {w : Nat} {x : Window} {r : DescRef} {epoch : Nat} {l : List (Nat × Word × Bool)} (hz : Keeps M z s) (hhost : Part.host ∈ M) (hdisp : Part.disp ∈ M) (hhbm : Part.hbm ∈ M) (hpeers : Part.peers ∈ M) (hmeter : Part.meter ∈ M) : Keeps M z (contribute s w x r epoch l) := by
  unfold contribute
  repeat'
    first
      | with_reducible assumption
      | (with_reducible apply modRun_keeps)
      | (with_reducible apply setRound_keeps)
      | (with_reducible apply modUnit_keeps)
      | (with_reducible apply roundFeed_keeps)
      | dsimp only
      | split

theorem endRound_keeps {z : State} {M : List Part} {s : State} {w : Nat} (hz : Keeps M z s) (hhost : Part.host ∈ M) (hdisp : Part.disp ∈ M) (hreins : Part.reins ∈ M) (hhbm : Part.hbm ∈ M) (hpeers : Part.peers ∈ M) (hmeter : Part.meter ∈ M) : Keeps M z (endRound s w) := by
  unfold endRound
  repeat'
    first
      | with_reducible assumption
      | (with_reducible apply addCauses_keeps)
      | (with_reducible apply setRound_keeps)
      | (with_reducible apply roundFeed_keeps)
      | (with_reducible apply contribute_keeps)
      | (with_reducible apply fetchAdd_fst_keeps)
      | (with_reducible refine fetchAdd_keeps (by assumption) ?_ ?_ ?_)
      | (with_reducible refine Keeps.foldl ?_ ?_)
      | intro _
      | dsimp only
      | split
      | (with_reducible refine Keeps.putPeers ?_ hpeers)

theorem resultsLanded_keeps {z : State} {M : List Part} {s : State} {w : Nat} {gen : Nat} {first : Nat} {count : Nat} (hz : Keeps M z s) (hhost : Part.host ∈ M) (hdisp : Part.disp ∈ M) (hreins : Part.reins ∈ M) (hhbm : Part.hbm ∈ M) (hpeers : Part.peers ∈ M) (hmeter : Part.meter ∈ M) : Keeps M z (resultsLanded s w gen first count) := by
  unfold resultsLanded
  repeat'
    first
      | with_reducible assumption
      | (with_reducible apply setRound_keeps)
      | (with_reducible apply endRound_keeps)
      | (with_reducible refine Keeps.foldl ?_ ?_)
      | dsimp only
      | split

theorem abandonRound_keeps {z : State} {M : List Part} {s : State} {w : Nat} {rank : Nat} {tell : Bool} (hz : Keeps M z s) (hhost : Part.host ∈ M) (hdisp : Part.disp ∈ M) (hpeers : Part.peers ∈ M) (hmeter : Part.meter ∈ M) : Keeps M z (abandonRound s w rank tell) := by
  unfold abandonRound
  repeat'
    first
      | with_reducible assumption
      | (with_reducible apply addCauses_keeps)
      | (with_reducible apply setRound_keeps)
      | (with_reducible apply sendPeerData_fst_keeps)
      | (with_reducible refine sendPeerData_keeps (by assumption) ?_ ?_ ?_ ?_)
      | (with_reducible refine Keeps.foldl ?_ ?_)
      | intro _
      | dsimp only
      | split

theorem sendLanded_keeps {z : State} {M : List Part} {s : State} {w : Nat} {dst : Nat} {pseq : Nat} (hz : Keeps M z s) (hhost : Part.host ∈ M) (hpeers : Part.peers ∈ M) (hmeter : Part.meter ∈ M) : Keeps M z (sendLanded s w dst pseq) := by
  unfold sendLanded
  repeat'
    first
      | with_reducible assumption
      | (with_reducible apply sendPeer_keeps)
      | dsimp only
      | split

theorem actFinals_keeps {z : State} {M : List Part} {s : State} {rank : Nat} (hz : Keeps M z s) (hdisp : Part.disp ∈ M) (hreins : Part.reins ∈ M) (hpeers : Part.peers ∈ M) : Keeps M z (actFinals s rank) := by
  unfold actFinals
  repeat'
    first
      | with_reducible assumption
      | (with_reducible apply fetchAdd_fst_keeps)
      | (with_reducible refine fetchAdd_keeps (by assumption) ?_ ?_ ?_)
      | (with_reducible refine Keeps.foldl ?_ ?_)
      | intro _
      | dsimp only
      | split
      | (with_reducible refine Keeps.putPeers ?_ hpeers)

theorem pseqLand_keeps {z : State} {M : List Part} {s : State} {rank : Nat} {pseq : Nat} {w : Nat} {report : Bool} (hz : Keeps M z s) (hhost : Part.host ∈ M) (hdisp : Part.disp ∈ M) (hreins : Part.reins ∈ M) (hpeers : Part.peers ∈ M) (hmeter : Part.meter ∈ M) : Keeps M z (pseqLand s rank pseq w report) := by
  unfold pseqLand
  repeat'
    first
      | with_reducible assumption
      | (with_reducible apply sendLanded_keeps)
      | (with_reducible apply actFinals_keeps)
      | dsimp only
      | split
      | (with_reducible refine Keeps.putPeers ?_ hpeers)

theorem writerLanded_keeps {z : State} {M : List Part} {s : State} {w : Writer} (hz : Keeps M z s) (hhost : Part.host ∈ M) (hdisp : Part.disp ∈ M) (hreins : Part.reins ∈ M) (hhbm : Part.hbm ∈ M) (hpeers : Part.peers ∈ M) (hmeter : Part.meter ∈ M) : Keeps M z (writerLanded s w) := by
  unfold writerLanded
  repeat'
    first
      | with_reducible assumption
      | (with_reducible apply lateLanded_keeps)
      | (with_reducible apply pseqLand_keeps)
      | (with_reducible apply resultsLanded_keeps)
      | dsimp only
      | split

theorem pushWrites_keeps {z : State} {M : List Part} {s : State} {l : Nat} {r : DescRef} {job : Nat} {runs : List (Nat × List (Byte × Bool))} (hz : Keeps M z s) (hclu : Part.clu ∈ M) : Keeps M z (pushWrites s l r job runs) := by
  unfold pushWrites
  repeat'
    first
      | with_reducible assumption
      | (with_reducible apply modClu_keeps)
      | intro _
      | dsimp only
      | split

theorem emitBytes_keeps {z : State} {M : List Part} {s : State} {r : DescRef} {o : OutSite} {tv : TView} {l : List (Int × Byte × Bool)} (hz : Keeps M z s) (hclu : Part.clu ∈ M) : Keeps M z (emitBytes s r o tv l) := by
  unfold emitBytes
  repeat'
    first
      | with_reducible assumption
      | (with_reducible apply modClu_keeps)
      | (with_reducible apply pushWrites_keeps)
      | (with_reducible refine Keeps.foldl ?_ ?_)
      | (with_reducible apply cluWrite_keeps)
      | intro _
      | dsimp only
      | split

theorem emitBits_keeps {z : State} {M : List Part} {s : State} {r : DescRef} {o : OutSite} {tv : TView} {l : List OutBits} (hz : Keeps M z s) (hclu : Part.clu ∈ M) : Keeps M z (emitBits s r o tv l) := by
  unfold emitBits
  repeat'
    first
      | with_reducible assumption
      | (with_reducible apply emitBytes_keeps)
      | dsimp only
      | split

theorem emitRows_keeps {z : State} {M : List Part} {s : State} {r : DescRef} {o : OutSite} {tv : TView} {rows : List OutRow} (hz : Keeps M z s) (hclu : Part.clu ∈ M) : Keeps M z (emitRows s r o tv rows) := by
  unfold emitRows
  repeat'
    first
      | with_reducible assumption
      | (with_reducible apply emitBits_keeps)
      | dsimp only
      | split

theorem emitStats_keeps {z : State} {M : List Part} {s : State} {d : DRun} {o : OutSite} {m0 : Nat} {l : List ((F32 × F32) × Bool)} (hz : Keeps M z s) (hdisp : Part.disp ∈ M) (hclu : Part.clu ∈ M) : Keeps M z (emitStats s d o m0 l) := by
  unfold emitStats
  repeat'
    first
      | with_reducible assumption
      | (with_reducible apply modRun_keeps)
      | (with_reducible apply emitBits_keeps)
      | dsimp only
      | split

theorem noteStats_keeps {z : State} {M : List Part} {s : State} {d : DRun} {b : Nat} {rho : Nat} {sigma : Nat} {m0 : Nat} {l : List ((F32 × F32) × Bool)} (hz : Keeps M z s) (hdisp : Part.disp ∈ M) (hclu : Part.clu ∈ M) : Keeps M z (noteStats s d b rho sigma m0 l) := by
  unfold noteStats
  repeat'
    first
      | with_reducible assumption
      | (with_reducible apply modRun_keeps)
      | (with_reducible apply emitStats_keeps)
      | dsimp only
      | split

theorem emitImage_keeps {z : State} {M : List Part} {s : State} {d : DRun} {tv : TView} {l : List (Byte × Bool)} (hz : Keeps M z s) (hclu : Part.clu ∈ M) : Keeps M z (emitImage s d tv l) := by
  unfold emitImage
  repeat'
    first
      | with_reducible assumption
      | (with_reducible apply emitBytes_keeps)
      | dsimp only
      | split

theorem markOverlaps_keeps {z : State} {M : List Part} {s : State} {wu : Nat} {d : DRun} (hz : Keeps M z s) (hdisp : Part.disp ∈ M) : Keeps M z (markOverlaps s wu d) := by
  unfold markOverlaps
  repeat'
    first
      | with_reducible assumption
      | (with_reducible apply modRun_keeps)
      | (with_reducible refine Keeps.foldl ?_ ?_)
      | intro _
      | dsimp only
      | split

theorem issueCause_keeps {z : State} {M : List Part} {s : State} {r : DescRef} {w : Why} (hz : Keeps M z s) (hdisp : Part.disp ∈ M) : Keeps M z (issueCause s r w) := by
  unfold issueCause
  repeat'
    first
      | with_reducible assumption
      | (with_reducible apply addCauseK_keeps)
      | dsimp only
      | split

theorem preloadInto_keeps {z : State} {M : List Part} {s : State} {d : DRun} {x : TView} {y : TView} {l : Nat} (hz : Keeps M z s) (hdisp : Part.disp ∈ M) (hclu : Part.clu ∈ M) : Keeps M z (preloadInto s d x y l) := by
  unfold preloadInto
  repeat'
    first
      | with_reducible assumption
      | (with_reducible apply issueCause_keeps)
      | (with_reducible apply emitRows_keeps)
      | (with_reducible apply modClu_keeps)
      | (with_reducible refine Keeps.foldl ?_ ?_)
      | (with_reducible apply cluWrite_keeps)
      | intro _
      | dsimp only
      | split

theorem emptyStats_keeps {z : State} {M : List Part} {s : State} {d : DRun} (hz : Keeps M z s) (hdisp : Part.disp ∈ M) (hclu : Part.clu ∈ M) : Keeps M z (emptyStats s d) := by
  unfold emptyStats
  repeat'
    first
      | with_reducible assumption
      | (with_reducible apply emitStats_keeps)
      | (with_reducible refine Keeps.foldl ?_ ?_)
      | intro _
      | dsimp only
      | split

theorem issueWait_keeps {z : State} {M : List Part} {s : State} {d : DRun} (hz : Keeps M z s) (hdisp : Part.disp ∈ M) (hreins : Part.reins ∈ M) : Keeps M z (issueWait s d) := by
  unfold issueWait
  repeat'
    first
      | with_reducible assumption
      | (with_reducible apply modReins_keeps)
      | (with_reducible apply modRun_keeps)
      | dsimp only
      | split

theorem actSync_keeps {z : State} {M : List Part} {s : State} {d : DRun} (hz : Keeps M z s) (hdisp : Part.disp ∈ M) (hreins : Part.reins ∈ M) : Keeps M z (actSync s d) := by
  unfold actSync
  repeat'
    first
      | with_reducible assumption
      | (with_reducible apply modRun_keeps)
      | (with_reducible apply addCause_keeps)
      | (with_reducible apply issueCause_keeps)
      | (with_reducible apply fetchAdd_fst_keeps)
      | (with_reducible apply arriveBarrier_fst_keeps)
      | (with_reducible refine fetchAdd_keeps (by assumption) ?_ ?_ ?_)
      | (with_reducible refine arriveBarrier_keeps (by assumption) ?_ ?_ ?_)
      | dsimp only
      | split

theorem issueEffect_keeps {z : State} {M : List Part} {s : State} {wu : Nat} {d : DRun} (hz : Keeps M z s) (hdisp : Part.disp ∈ M) (hreins : Part.reins ∈ M) (hclu : Part.clu ∈ M) : Keeps M z (issueEffect s wu d) := by
  unfold issueEffect
  repeat'
    first
      | with_reducible assumption
      | (with_reducible apply actSync_keeps)
      | (with_reducible apply issueWait_keeps)
      | (with_reducible apply preloadInto_keeps)
      | (with_reducible apply emptyStats_keeps)
      | (with_reducible refine Keeps.foldl ?_ ?_)
      | intro _
      | dsimp only
      | split

theorem placeRun_keeps {z : State} {M : List Part} {s : State} {u : WorkUnit} {d : DRun} {limit : Nat} (hz : Keeps M z s) (hdisp : Part.disp ∈ M) (hpdk : Part.pdk ∈ M) : Keeps M z (placeRun s u d limit) := by
  unfold placeRun
  repeat'
    first
      | with_reducible assumption
      | (with_reducible apply modUnit_keeps)
      | (with_reducible apply postFrom_keeps)
      | (with_reducible apply trace_keeps)
      | dsimp only
      | split

theorem issueNext_keeps {z : State} {M : List Part} {s : State} {wu : Nat} {op : Nat} (hz : Keeps M z s) (hdisp : Part.disp ∈ M) (hreins : Part.reins ∈ M) (hpdk : Part.pdk ∈ M) (hclu : Part.clu ∈ M) : Keeps M z (issueNext s wu op) := by
  unfold issueNext
  repeat'
    first
      | with_reducible assumption
      | (with_reducible apply issueCause_keeps)
      | (with_reducible apply placeRun_keeps)
      | (with_reducible apply issueEffect_keeps)
      | (with_reducible apply markOverlaps_keeps)
      | dsimp only
      | split

theorem forwardMarker_keeps {z : State} {M : List Part} {s : State} {it : Item} (hz : Keeps M z s) (hpdk : Part.pdk ∈ M) : Keeps M z (forwardMarker s it) := by
  unfold forwardMarker
  repeat'
    first
      | with_reducible assumption
      | (with_reducible apply setQueue_keeps)
      | (with_reducible apply pdkDrop_keeps)
      | dsimp only
      | split

theorem admitChain_keeps {z : State} {M : List Part} {s : State} {it : Item} {bad : Bool} (hz : Keeps M z s) (hdisp : Part.disp ∈ M) : Keeps M z (admitChain s it bad) := by
  unfold admitChain
  repeat'
    first
      | with_reducible assumption
      | (with_reducible apply modUnit_keeps)
      | (with_reducible apply addCauseK_keeps)
      | (with_reducible apply addCause_keeps)
      | dsimp only
      | split

theorem readChain_keeps {z : State} {M : List Part} {s : State} {cls : Nat} {bad : Bool} (hz : Keeps M z s) (hdisp : Part.disp ∈ M) (hpdk : Part.pdk ∈ M) : Keeps M z (readChain s cls bad) := by
  unfold readChain
  repeat'
    first
      | with_reducible assumption
      | (with_reducible apply forwardMarker_keeps)
      | (with_reducible apply setQueue_keeps)
      | (with_reducible apply admitChain_keeps)
      | dsimp only
      | split

theorem allocCtr_keeps {z : State} {M : List Part} {s : State} {n : Nat} (hz : Keeps M z s) (hdisp : Part.disp ∈ M) (hreins : Part.reins ∈ M) : Keeps M z (allocCtr s n) := by
  unfold allocCtr
  repeat'
    first
      | with_reducible assumption
      | (with_reducible apply setCtrValue_keeps)
      | (with_reducible apply advanceEpoch_keeps)
      | dsimp only
      | split

theorem freeRanges_keeps {z : State} {M : List Part} {s : State} {d : DRun} {tv : TView} {marks : Bool} {rs : List (Nat × Nat)} (hz : Keeps M z s) (hclu : Part.clu ∈ M) (hhbm : Part.hbm ∈ M) (hfree : Part.free ∈ M) : Keeps M z (freeRanges s d tv marks rs) := by
  unfold freeRanges
  repeat'
    first
      | with_reducible assumption
      | (with_reducible apply modClu_keeps)
      | (with_reducible apply landRun_keeps)
      | (with_reducible apply freeBytes_fst_keeps)
      | (with_reducible refine freeBytes_keeps (by assumption) ?_ ?_)
      | (with_reducible refine Keeps.foldl ?_ ?_)
      | (with_reducible apply cluWrite_keeps)
      | (with_reducible refine Keeps.foldl_fst ?_ ?_)
      | intro _
      | dsimp only
      | split

theorem freeOutputs_keeps {z : State} {M : List Part} {s : State} {d : DRun} (hz : Keeps M z s) (hclu : Part.clu ∈ M) (hhbm : Part.hbm ∈ M) (hfree : Part.free ∈ M) : Keeps M z (freeOutputs s d) := by
  unfold freeOutputs
  repeat'
    first
      | with_reducible assumption
      | (with_reducible apply freeRanges_keeps)
      | (with_reducible refine Keeps.foldl ?_ ?_)
      | intro _
      | dsimp only
      | split

theorem freeClashes_keeps {z : State} {M : List Part} {s : State} {d : DRun} (hz : Keeps M z s) (hclu : Part.clu ∈ M) (hhbm : Part.hbm ∈ M) (hfree : Part.free ∈ M) : Keeps M z (freeClashes s d) := by
  unfold freeClashes
  repeat'
    first
      | with_reducible assumption
      | (with_reducible apply freeRanges_keeps)
      | (with_reducible refine Keeps.foldl ?_ ?_)
      | intro _
      | dsimp only
      | split

theorem freeCtrs_keeps {z : State} {M : List Part} {s : State} {d : DRun} (hz : Keeps M z s) (hreins : Part.reins ∈ M) : Keeps M z (freeCtrs s d) := by
  unfold freeCtrs
  repeat'
    first
      | with_reducible assumption
      | (with_reducible apply modReins_keeps)
      | dsimp only
      | split

theorem runResidency_keeps {z : State} {M : List Part} {s : State} {job : Nat} {d : DRun} (hz : Keeps M z s) (hdisp : Part.disp ∈ M) : Keeps M z (runResidency s job d) := by
  unfold runResidency
  repeat'
    first
      | with_reducible assumption
      | (with_reducible refine Keeps.foldl ?_ ?_)
      | intro _
      | dsimp only
      | split
      | (with_reducible refine Keeps.putDisp ?_ hdisp)

theorem finishRun_keeps {z : State} {M : List Part} {s : State} {u : WorkUnit} {d : DRun} (hz : Keeps M z s) (hhost : Part.host ∈ M) (hdisp : Part.disp ∈ M) (hreins : Part.reins ∈ M) (hpdk : Part.pdk ∈ M) (hclu : Part.clu ∈ M) (hhbm : Part.hbm ∈ M) (hpeers : Part.peers ∈ M) (hmeter : Part.meter ∈ M) (hfree : Part.free ∈ M) : Keeps M z (finishRun s u d) := by
  unfold finishRun
  repeat'
    first
      | with_reducible assumption
      | (with_reducible apply freeClashes_keeps)
      | (with_reducible apply sendLanded_keeps)
      | (with_reducible apply freeCtrs_keeps)
      | (with_reducible apply runResidency_keeps)
      | (with_reducible apply modUnit_keeps)
      | (with_reducible apply modRun_keeps)
      | (with_reducible apply postFrom_keeps)
      | (with_reducible refine Keeps.foldl ?_ ?_)
      | intro _
      | dsimp only
      | split

theorem retire_keeps {z : State} {M : List Part} {s : State} {wuId : Nat} {epoch : Nat} (hz : Keeps M z s) (hdisp : Part.disp ∈ M) : Keeps M z (retire s wuId epoch) := by
  unfold retire
  repeat'
    first
      | with_reducible assumption
      | dsimp only
      | split
      | (with_reducible refine Keeps.putDisp ?_ hdisp)

theorem dropUnit_keeps {z : State} {M : List Part} {s : State} {wu : Nat} (hz : Keeps M z s) (hdisp : Part.disp ∈ M) : Keeps M z (dropUnit s wu) := by
  unfold dropUnit
  repeat'
    first
      | with_reducible assumption
      | dsimp only
      | split
      | (with_reducible refine Keeps.putDisp ?_ hdisp)

theorem completeUnit_keeps {z : State} {M : List Part} {s : State} {u : WorkUnit} (hz : Keeps M z s) (hdisp : Part.disp ∈ M) (hpdk : Part.pdk ∈ M) (hmeter : Part.meter ∈ M) : Keeps M z (completeUnit s u) := by
  unfold completeUnit
  repeat'
    first
      | with_reducible assumption
      | (with_reducible apply pdkAppend_keeps)
      | (with_reducible apply retire_keeps)
      | (with_reducible apply dropUnit_keeps)
      | dsimp only
      | split
      | (with_reducible refine Keeps.putMeter ?_ hmeter)

theorem poisonCause_keeps {z : State} {M : List Part} {s : State} {d : DRun} {rank : Nat} {m : Mark} (hz : Keeps M z s) (hdisp : Part.disp ∈ M) : Keeps M z (poisonCause s d rank m) := by
  unfold poisonCause
  repeat'
    first
      | with_reducible assumption
      | (with_reducible apply addCauseK_keeps)
      | dsimp only
      | split

theorem ticketCause_keeps {z : State} {M : List Part} {s : State} {d : DRun} {rank : Nat} {w : Why} (hz : Keeps M z s) (hdisp : Part.disp ∈ M) : Keeps M z (ticketCause s d rank w) := by
  unfold ticketCause
  repeat'
    first
      | with_reducible assumption
      | (with_reducible apply addCauseK_keeps)
      | dsimp only
      | split

theorem putRows_keeps {z : State} {M : List Part} {s : State} {d : DRun} {o : OutSite} {tile : Nat} {slot : Nat} {rows : List OutRow} (hz : Keeps M z s) (hdisp : Part.disp ∈ M) (hclu : Part.clu ∈ M) : Keeps M z (putRows s d o tile slot rows) := by
  unfold putRows
  repeat'
    first
      | with_reducible assumption
      | (with_reducible apply modRun_keeps)
      | (with_reducible apply emitRows_keeps)
      | dsimp only
      | split

theorem flushOutputs_keeps {z : State} {M : List Part} {s : State} {d : DRun} (hz : Keeps M z s) (hdisp : Part.disp ∈ M) (hclu : Part.clu ∈ M) : Keeps M z (flushOutputs s d) := by
  unfold flushOutputs
  repeat'
    first
      | with_reducible assumption
      | (with_reducible apply emitRows_keeps)
      | (with_reducible apply modRun_keeps)
      | dsimp only
      | split

theorem lastTile_keeps {z : State} {M : List Part} {s : State} {d : DRun} (hz : Keeps M z s) (hdisp : Part.disp ∈ M) (hclu : Part.clu ∈ M) : Keeps M z (lastTile s d) := by
  unfold lastTile
  repeat'
    first
      | with_reducible assumption
      | (with_reducible apply flushOutputs_keeps)
      | (with_reducible apply emitImage_keeps)
      | dsimp only
      | split

theorem closeTile_keeps {z : State} {M : List Part} {s : State} {r : DescRef} {tile : Nat} (hz : Keeps M z s) (hdisp : Part.disp ∈ M) (hclu : Part.clu ∈ M) : Keeps M z (closeTile s r tile) := by
  unfold closeTile
  repeat'
    first
      | with_reducible assumption
      | (with_reducible apply modRun_keeps)
      | (with_reducible apply lastTile_keeps)
      | dsimp only
      | split

theorem pathRows_keeps {z : State} {M : List Part} {s : State} {d : DRun} {o : OutSite} {tk : Ticket} {rows : List OutRow} (hz : Keeps M z s) (hdisp : Part.disp ∈ M) (hclu : Part.clu ∈ M) : Keeps M z (pathRows s d o tk rows) := by
  unfold pathRows
  repeat'
    first
      | with_reducible assumption
      | (with_reducible apply noteStats_keeps)
      | (with_reducible apply putRows_keeps)
      | (with_reducible apply modRun_keeps)
      | (with_reducible apply closeTile_keeps)
      | dsimp only
      | split

theorem finishTile_keeps {z : State} {M : List Part} {s : State} {d : DRun} {l : Nat} {tile : Nat} {vals : List (Option LeafVal)} {bads : List Bool} (hz : Keeps M z s) (hdisp : Part.disp ∈ M) (hclu : Part.clu ∈ M) : Keeps M z (finishTile s d l tile vals bads) := by
  unfold finishTile
  repeat'
    first
      | with_reducible assumption
      | (with_reducible apply putRows_keeps)
      | (with_reducible apply modRun_keeps)
      | (with_reducible apply closeTile_keeps)
      | (with_reducible apply ticketCause_keeps)
      | (with_reducible apply poisonCause_keeps)
      | (with_reducible apply pathRows_keeps)
      | dsimp only
      | split

theorem topkRoot_keeps {z : State} {M : List Part} {s : State} {d : DRun} {tk : Ticket} (hz : Keeps M z s) (hdisp : Part.disp ∈ M) (hclu : Part.clu ∈ M) : Keeps M z (topkRoot s d tk) := by
  unfold topkRoot
  repeat'
    first
      | with_reducible assumption
      | (with_reducible apply putRows_keeps)
      | (with_reducible apply modRun_keeps)
      | dsimp only
      | split

theorem runTopk_keeps {z t' : State} {v' : Mark} {M : List Part} {s : State} {site : Site} {d : DRun} {tk : Ticket} (e' : runTopk s site d tk = .ok (t', v')) (hz : Keeps M z s) (hdisp : Part.disp ∈ M) (hclu : Part.clu ∈ M) : Keeps M z t' := by
  unfold runTopk at e'
  try dsimp only at e'
  repeat' split at e'
  all_goals (try cases e')
  all_goals repeat'
    first
      | with_reducible assumption
      | (with_reducible apply modRun_keeps)
      | (with_reducible apply topkRoot_keeps)
      | (with_reducible apply closeTile_keeps)
      | dsimp only
      | split

theorem runRowStats_keeps {z t' : State} {v' : Mark} {M : List Part} {s : State} {site : Site} {d : DRun} {tk : Ticket} (e' : runRowStats s site d tk = .ok (t', v')) (hz : Keeps M z s) (hdisp : Part.disp ∈ M) (hclu : Part.clu ∈ M) : Keeps M z t' := by
  unfold runRowStats at e'
  try dsimp only at e'
  repeat' split at e'
  all_goals (try cases e')
  all_goals repeat'
    first
      | with_reducible assumption
      | (with_reducible apply noteStats_keeps)
      | (with_reducible apply closeTile_keeps)
      | dsimp only
      | split

theorem runSpadd_keeps {z t' : State} {v' : Mark} {M : List Part} {s : State} {site : Site} {d : DRun} {l : Nat} {tk : Ticket} (e' : runSpadd s site d l tk = .ok (t', v')) (hz : Keeps M z s) (hdisp : Part.disp ∈ M) (hclu : Part.clu ∈ M) : Keeps M z t' := by
  unfold runSpadd at e'
  try dsimp only at e'
  repeat' split at e'
  all_goals (try cases e')
  all_goals repeat'
    first
      | with_reducible assumption
      | (with_reducible apply pathRows_keeps)
      | dsimp only
      | split

theorem runGather_keeps {z t' : State} {v' : Mark} {M : List Part} {s : State} {site : Site} {d : DRun} {l : Nat} {tk : Ticket} (e' : runGather s site d l tk = .ok (t', v')) (hz : Keeps M z s) (hdisp : Part.disp ∈ M) (hclu : Part.clu ∈ M) : Keeps M z t' := by
  unfold runGather at e'
  try dsimp only at e'
  repeat' split at e'
  all_goals (try cases e')
  all_goals repeat'
    first
      | with_reducible assumption
      | (with_reducible apply pathRows_keeps)
      | dsimp only
      | split

theorem runMove_keeps {z t' : State} {v' : Mark} {M : List Part} {s : State} {site : Site} {d : DRun} {l : Nat} {tk : Ticket} (e' : runMove s site d l tk = .ok (t', v')) (hz : Keeps M z s) (hdisp : Part.disp ∈ M) (hclu : Part.clu ∈ M) : Keeps M z t' := by
  unfold runMove at e'
  try dsimp only at e'
  repeat' split at e'
  all_goals (try cases e')
  all_goals repeat'
    first
      | with_reducible assumption
      | (with_reducible apply putRows_keeps)
      | (with_reducible apply closeTile_keeps)
      | (with_reducible apply modRun_keeps)
      | dsimp only
      | split

theorem runFill_keeps {z : State} {M : List Part} {s : State} {d : DRun} {l : Nat} {tk : Ticket} (hz : Keeps M z s) (hdisp : Part.disp ∈ M) (hclu : Part.clu ∈ M) : Keeps M z (runFill s d l tk) := by
  unfold runFill
  repeat'
    first
      | with_reducible assumption
      | (with_reducible apply closeTile_keeps)
      | (with_reducible apply emitBits_keeps)
      | dsimp only
      | split

theorem runTranspose_keeps {z t' : State} {v' : Mark} {M : List Part} {s : State} {site : Site} {d : DRun} {l : Nat} {tk : Ticket} (e' : runTranspose s site d l tk = .ok (t', v')) (hz : Keeps M z s) (hdisp : Part.disp ∈ M) (hclu : Part.clu ∈ M) : Keeps M z t' := by
  unfold runTranspose at e'
  try dsimp only at e'
  repeat' split at e'
  all_goals (try cases e')
  all_goals repeat'
    first
      | with_reducible assumption
      | (with_reducible apply closeTile_keeps)
      | (with_reducible apply putRows_keeps)
      | dsimp only
      | split

theorem runRoute_keeps {z t' : State} {v' : Mark} {M : List Part} {s : State} {site : Site} {d : DRun} {tk : Ticket} (e' : runRoute s site d tk = .ok (t', v')) (hz : Keeps M z s) (hdisp : Part.disp ∈ M) (hclu : Part.clu ∈ M) : Keeps M z t' := by
  unfold runRoute at e'
  try dsimp only at e'
  repeat' split at e'
  all_goals (try cases e')
  all_goals repeat'
    first
      | with_reducible assumption
      | (with_reducible apply modRun_keeps)
      | (with_reducible apply closeTile_keeps)
      | dsimp only
      | split

theorem runDirect_keeps {z t' : State} {v' : Mark} {M : List Part} {s : State} {l : Nat} {d : DRun} {tk : Ticket} (e' : runDirect s l d tk = .ok (t', v')) (hz : Keeps M z s) (hdisp : Part.disp ∈ M) (hclu : Part.clu ∈ M) : Keeps M z t' := by
  unfold runDirect at e'
  try dsimp only at e'
  repeat' split at e'
  all_goals (try cases e')
  all_goals repeat'
    first
      | with_reducible assumption
      | (with_reducible apply runFill_keeps)
      | (with_reducible refine runSpadd_keeps (by assumption) ?_ ?_ ?_)
      | (with_reducible refine runGather_keeps (by assumption) ?_ ?_ ?_)
      | (with_reducible refine runRoute_keeps (by assumption) ?_ ?_ ?_)
      | (with_reducible refine runTopk_keeps (by assumption) ?_ ?_ ?_)
      | (with_reducible refine runRowStats_keeps (by assumption) ?_ ?_ ?_)
      | (with_reducible refine runTranspose_keeps (by assumption) ?_ ?_ ?_)
      | (with_reducible refine runMove_keeps (by assumption) ?_ ?_ ?_)
      | dsimp only
      | split

theorem placeSddmm_keeps {z t' : State} {v' : Mark} {M : List Part} {s : State} {d : DRun} {y : TView} {x : TView} {h : HpfHeader} (e' : placeSddmm s d y x h = .ok (t', v')) (hz : Keeps M z s) (hclu : Part.clu ∈ M) : Keeps M z t' := by
  unfold placeSddmm at e'
  try dsimp only at e'
  repeat' split at e'
  all_goals (try cases e')
  all_goals repeat'
    first
      | with_reducible assumption
      | (with_reducible apply emitBytes_keeps)
      | (with_reducible apply emitBits_keeps)
      | dsimp only
      | split

theorem placeRoute_keeps {z : State} {M : List Part} {s : State} {d : DRun} (hz : Keeps M z s) (hclu : Part.clu ∈ M) : Keeps M z (placeRoute s d) := by
  unfold placeRoute
  repeat'
    first
      | with_reducible assumption
      | (with_reducible apply emitImage_keeps)
      | (with_reducible apply emitBytes_keeps)
      | dsimp only
      | split

theorem placeCopy_keeps {z t' : State} {v' : Mark} {M : List Part} {s : State} {d : DRun} {x : TView} {y : TView} (e' : placeCopy s d x y = .ok (t', v')) (hz : Keeps M z s) (hclu : Part.clu ∈ M) : Keeps M z t' := by
  unfold placeCopy at e'
  try dsimp only at e'
  repeat' split at e'
  all_goals (try cases e')
  all_goals repeat'
    first
      | with_reducible assumption
      | (with_reducible apply emitBytes_keeps)
      | dsimp only
      | split

theorem placeFill_keeps {z t' : State} {v' : Mark} {M : List Part} {s : State} {d : DRun} {y : TView} (e' : placeFill s d y = .ok (t', v')) (hz : Keeps M z s) (hclu : Part.clu ∈ M) : Keeps M z t' := by
  unfold placeFill at e'
  try dsimp only at e'
  repeat' split at e'
  all_goals (try cases e')
  all_goals repeat'
    first
      | with_reducible assumption
      | (with_reducible apply emitBits_keeps)
      | dsimp only
      | split

theorem placeImage_keeps {z : State} {M : List Part} {s : State} {d : DRun} {y : TView} (hz : Keeps M z s) (hclu : Part.clu ∈ M) : Keeps M z (placeImage s d y) := by
  unfold placeImage
  repeat'
    first
      | with_reducible assumption
      | (with_reducible apply emitImage_keeps)
      | dsimp only
      | split

theorem placeOutput_keeps {z t' : State} {v' : Mark} {M : List Part} {s : State} {d : DRun} (e' : placeOutput s d = .ok (t', v')) (hz : Keeps M z s) (hclu : Part.clu ∈ M) : Keeps M z t' := by
  unfold placeOutput at e'
  try dsimp only at e'
  repeat' split at e'
  all_goals (try cases e')
  all_goals repeat'
    first
      | with_reducible assumption
      | (with_reducible apply placeRoute_keeps)
      | (with_reducible apply placeImage_keeps)
      | (with_reducible refine placeCopy_keeps (by assumption) ?_ ?_)
      | (with_reducible refine placeFill_keeps (by assumption) ?_ ?_)
      | (with_reducible refine placeSddmm_keeps (by assumption) ?_ ?_)
      | dsimp only
      | split

theorem takeInboxItem_keeps {z : State} {M : List Part} {s : State} {p : Nat} {it : Item} {bad : Bool} (hz : Keeps M z s) (hdisp : Part.disp ∈ M) (hpdk : Part.pdk ∈ M) (hclu : Part.clu ∈ M) (hflt : Part.flt ∈ M) : Keeps M z (takeInboxItem s p it bad) := by
  unfold takeInboxItem
  repeat'
    first
      | with_reducible assumption
      | (with_reducible apply forwardMarker_keeps)
      | (with_reducible apply staleDrop_keeps)
      | (with_reducible apply addCauseK_keeps)
      | (with_reducible apply modClu_keeps)
      | intro _
      | dsimp only
      | split

theorem drainInbox_keeps {z : State} {M : List Part} {s : State} {p : Nat} (hz : Keeps M z s) (hdisp : Part.disp ∈ M) (hpdk : Part.pdk ∈ M) (hclu : Part.clu ∈ M) (hflt : Part.flt ∈ M) : Keeps M z (drainInbox s p) := by
  unfold drainInbox
  repeat'
    first
      | with_reducible assumption
      | (with_reducible apply takeInboxItem_keeps)
      | (with_reducible apply setQueue_keeps)
      | (with_reducible refine Keeps.foldl ?_ ?_)
      | intro _
      | dsimp only
      | split

theorem stopTaking_keeps {z : State} {M : List Part} {s : State} {p : Nat} {r : DescRef} (hz : Keeps M z s) (hclu : Part.clu ∈ M) : Keeps M z (stopTaking s p r) := by
  unfold stopTaking
  repeat'
    first
      | with_reducible assumption
      | (with_reducible apply modClu_keeps)
      | intro _
      | dsimp only
      | split

theorem startRunning_keeps {z : State} {M : List Part} {s : State} {p : Nat} {x : Running} (hz : Keeps M z s) (hclu : Part.clu ∈ M) : Keeps M z (startRunning s p x) := by
  unfold startRunning
  repeat'
    first
      | with_reducible assumption
      | (with_reducible apply modClu_keeps)
      | intro _
      | dsimp only
      | split

theorem putLeaf_keeps {z : State} {M : List Part} {s : State} {r : DescRef} {tk : Ticket} {vals : List (Option LeafVal)} {bad : List Bool} (hz : Keeps M z s) (hdisp : Part.disp ∈ M) : Keeps M z (putLeaf s r tk vals bad) := by
  unfold putLeaf
  repeat'
    first
      | with_reducible assumption
      | (with_reducible apply modRun_keeps)
      | dsimp only
      | split

theorem ticketValues_keeps {z : State} {M : List Part} {s : State} {d : DRun} {l : Nat} {tk : Ticket} {vals : List (Option LeafVal)} {bad : List Bool} (hz : Keeps M z s) (hdisp : Part.disp ∈ M) (hclu : Part.clu ∈ M) : Keeps M z (ticketValues s d l tk vals bad) := by
  unfold ticketValues
  repeat'
    first
      | with_reducible assumption
      | (with_reducible apply finishTile_keeps)
      | (with_reducible apply putLeaf_keeps)
      | dsimp only
      | split

theorem traceTicket_keeps {z : State} {M : List Part} {s : State} {kind : Nat} {l : Nat} {d : DRun} {number : Nat} {data : List Byte} (hz : Keeps M z s) (hpdk : Part.pdk ∈ M) : Keeps M z (traceTicket s kind l d number data) := by
  unfold traceTicket
  repeat'
    first
      | with_reducible assumption
      | (with_reducible apply trace_keeps)
      | dsimp only
      | split

theorem runTicket_keeps {z : State} {M : List Part} {s : State} {d : DRun} {l : Nat} {number : Nat} {rank : Nat} {tk : Ticket} (hz : Keeps M z s) (hdisp : Part.disp ∈ M) (hpdk : Part.pdk ∈ M) (hclu : Part.clu ∈ M) : Keeps M z (runTicket s d l number rank tk) := by
  unfold runTicket
  repeat'
    first
      | with_reducible assumption
      | (with_reducible apply ticketCause_keeps)
      | (with_reducible apply poisonCause_keeps)
      | (with_reducible apply startRunning_keeps)
      | (with_reducible apply traceTicket_keeps)
      | (with_reducible apply ticketValues_keeps)
      | (with_reducible refine runDirect_keeps (by assumption) ?_ ?_ ?_)
      | dsimp only
      | split

theorem takeTicket_keeps {z : State} {M : List Part} {s : State} {d : DRun} {l : Nat} {number : Nat} {rank : Nat} {tk : Ticket} (hz : Keeps M z s) (hdisp : Part.disp ∈ M) (hpdk : Part.pdk ∈ M) (hclu : Part.clu ∈ M) : Keeps M z (takeTicket s d l number rank tk) := by
  unfold takeTicket
  repeat'
    first
      | with_reducible assumption
      | (with_reducible apply modRun_keeps)
      | (with_reducible apply modUnit_keeps)
      | (with_reducible apply traceTicket_keeps)
      | (with_reducible apply runTicket_keeps)
      | dsimp only
      | split

theorem countAttempt_keeps {z : State} {M : List Part} {s : State} {p : Nat} {x : Running} {span : Nat} {stall : Nat} (hz : Keeps M z s) (hclu : Part.clu ∈ M) : Keeps M z (countAttempt s p x span stall) := by
  unfold countAttempt
  repeat'
    first
      | with_reducible assumption
      | (with_reducible apply modClu_keeps)
      | intro _
      | dsimp only
      | split

theorem closePass_keeps {z : State} {M : List Part} {s : State} {p : Nat} {l : Nat} {d : DRun} {x : Running} (hz : Keeps M z s) (hdisp : Part.disp ∈ M) (hpdk : Part.pdk ∈ M) (hclu : Part.clu ∈ M) : Keeps M z (closePass s p l d x) := by
  unfold closePass
  repeat'
    first
      | with_reducible assumption
      | (with_reducible apply modRun_keeps)
      | (with_reducible apply traceTicket_keeps)
      | (with_reducible apply modClu_keeps)
      | intro _
      | dsimp only
      | split

theorem nackUnit_keeps {z : State} {M : List Part} {s : State} {num : Nat} {seq : Nat} {typ : Nat} {reason : Nat} {wu : Nat} {epoch : Nat} {detail : Nat} (hz : Keeps M z s) (hhost : Part.host ∈ M) (hpeers : Part.peers ∈ M) (hmeter : Part.meter ∈ M) : Keeps M z (nackUnit s num seq typ reason wu epoch detail) := by
  unfold nackUnit
  repeat'
    first
      | with_reducible assumption
      | (with_reducible apply sendSeq_keeps)
      | dsimp only
      | split

theorem placeChain_keeps {z : State} {M : List Part} {s : State} {body : List Byte} (hz : Keeps M z s) (hdisp : Part.disp ∈ M) (hpdk : Part.pdk ∈ M) (hmeter : Part.meter ∈ M) : Keeps M z (placeChain s body) := by
  unfold placeChain
  repeat'
    first
      | with_reducible assumption
      | (with_reducible apply pdkAppend_keeps)
      | dsimp only
      | split
      | (with_reducible refine Keeps.putDisp ?_ hdisp)
      | (with_reducible refine Keeps.putMeter ?_ hmeter)
      | (with_reducible refine Keeps.putDispMeter ?_ hdisp hmeter)

theorem dropChain_keeps {z : State} {M : List Part} {s : State} {body : List Byte} (hz : Keeps M z s) (hdisp : Part.disp ∈ M) (hpdk : Part.pdk ∈ M) : Keeps M z (dropChain s body) := by
  unfold dropChain
  repeat'
    first
      | with_reducible assumption
      | (with_reducible apply pdkDrop_keeps)
      | (with_reducible apply pdkAppend_keeps)
      | (with_reducible apply retire_keeps)
      | dsimp only
      | split
      | (with_reducible refine Keeps.putDisp ?_ hdisp)

theorem actSubmit_keeps {z : State} {M : List Part} {seq : Nat} {s : State} {se : Session} {body : List Byte} (hz : Keeps M z s) (hhost : Part.host ∈ M) (hdisp : Part.disp ∈ M) (hpdk : Part.pdk ∈ M) (hpeers : Part.peers ∈ M) (hmeter : Part.meter ∈ M) : Keeps M z (actSubmit seq s se body) := by
  unfold actSubmit
  repeat'
    first
      | with_reducible assumption
      | (with_reducible apply nackUnit_keeps)
      | (with_reducible apply placeChain_keeps)
      | (with_reducible apply dropChain_keeps)
      | dsimp only
      | split

theorem actAbort_keeps {z : State} {M : List Part} {seq : Nat} {s : State} {se : Session} {body : List Byte} (hz : Keeps M z s) (hhost : Part.host ∈ M) (hdisp : Part.disp ∈ M) (hflt : Part.flt ∈ M) (hpeers : Part.peers ∈ M) (hmeter : Part.meter ∈ M) : Keeps M z (actAbort seq s se body) := by
  unfold actAbort
  repeat'
    first
      | with_reducible assumption
      | (with_reducible apply nackUnit_keeps)
      | (with_reducible apply addCause_keeps)
      | (with_reducible apply staleDrop_keeps)
      | dsimp only
      | split

theorem actMemWrite_keeps {z : State} {M : List Part} {seq : Nat} {s : State} {se : Session} {body : List Byte} (hz : Keeps M z s) (hhost : Part.host ∈ M) (hhbm : Part.hbm ∈ M) (hpeers : Part.peers ∈ M) (hmeter : Part.meter ∈ M) : Keeps M z (actMemWrite seq s se body) := by
  unfold actMemWrite
  repeat'
    first
      | with_reducible assumption
      | (with_reducible apply lateLanded_keeps)
      | (with_reducible apply sendNack_keeps)
      | (with_reducible apply tlbFillRange_keeps)
      | (with_reducible apply vWrite_keeps)
      | dsimp only
      | split

theorem actMemRead_keeps {z : State} {M : List Part} {seq : Nat} {s : State} {se : Session} {body : List Byte} (hz : Keeps M z s) (hhost : Part.host ∈ M) (hhbm : Part.hbm ∈ M) (hpeers : Part.peers ∈ M) (hmeter : Part.meter ∈ M) : Keeps M z (actMemRead seq s se body) := by
  unfold actMemRead
  repeat'
    first
      | with_reducible assumption
      | (with_reducible apply sendNack_keeps)
      | (with_reducible apply tlbFillRange_keeps)
      | (with_reducible apply sendSeq_keeps)
      | dsimp only
      | split

theorem actMeterRead_keeps {z : State} {M : List Part} {seq : Nat} {s : State} {se : Session} {body : List Byte} (hz : Keeps M z s) (hhost : Part.host ∈ M) (hpeers : Part.peers ∈ M) (hmeter : Part.meter ∈ M) : Keeps M z (actMeterRead seq s se body) := by
  unfold actMeterRead
  repeat'
    first
      | with_reducible assumption
      | (with_reducible apply sendNack_keeps)
      | (with_reducible apply sendSeq_keeps)
      | dsimp only
      | split
      | (with_reducible refine Keeps.putMeter ?_ hmeter)

theorem landPiece_keeps {q : StreamReq} {c d : Cluster} {e : Nat × Nat × Nat} (h : CluKeeps c d) :
    CluKeeps c (landPiece q d e) := cluWrite_keeps h

theorem streamBytes_fst_keeps {z : State} {M : List Part} {s : State} {die : Nat} {pa : Nat} {leaf : Nat} {n : Nat} (hz : Keeps M z s) (hhbm : Part.hbm ∈ M) : Keeps M z (streamBytes s die pa leaf n).1 := by
  unfold streamBytes
  repeat'
    first
      | with_reducible assumption
      | (with_reducible apply cacheTouch_keeps)
      | (with_reducible refine Keeps.foldl ?_ ?_)
      | intro _
      | dsimp only
      | split

theorem streamBytes_keeps {z t' : State} {v' : List (Byte × Bool)} {M : List Part} {s : State} {die : Nat} {pa : Nat} {leaf : Nat} {n : Nat} (e' : streamBytes s die pa leaf n = (t', v')) (hz : Keeps M z s) (hhbm : Part.hbm ∈ M) : Keeps M z t' := by
  have k' := streamBytes_fst_keeps (s := s) (die := die) (pa := pa) (leaf := leaf) (n := n) hz hhbm
  rw [e'] at k'
  exact k'

theorem touchWindow_keeps {z : State} {M : List Part} {s : State} {wu : Nat} {w : Nat} (hz : Keeps M z s) (hdisp : Part.disp ∈ M) : Keeps M z (touchWindow s wu w) := by
  unfold touchWindow
  repeat'
    first
      | with_reducible assumption
      | (with_reducible apply modUnit_keeps)
      | dsimp only
      | split

theorem sendWrite_keeps {z : State} {M : List Part} {s : State} {p : Nat} {die : Nat} {q : StreamReq} (hz : Keeps M z s) (hhost : Part.host ∈ M) (hdisp : Part.disp ∈ M) (hhbm : Part.hbm ∈ M) (hpeers : Part.peers ∈ M) (hmeter : Part.meter ∈ M) : Keeps M z (sendWrite s p die q) := by
  unfold sendWrite
  repeat'
    first
      | with_reducible assumption
      | (with_reducible apply vWrite_keeps)
      | (with_reducible apply touchWindow_keeps)
      | (with_reducible apply sendDataTo_keeps)
      | (with_reducible apply addCause_keeps)
      | (with_reducible apply contribute_keeps)
      | (with_reducible refine Keeps.foldl ?_ ?_)
      | intro _
      | dsimp only
      | split

theorem ponyCause_keeps {z : State} {M : List Part} {s : State} {r : Option DescRef} {w : Why} (hz : Keeps M z s) (hdisp : Part.disp ∈ M) : Keeps M z (ponyCause s r w) := by
  unfold ponyCause
  repeat'
    first
      | with_reducible assumption
      | (with_reducible apply addCause_keeps)
      | dsimp only
      | split

theorem dropLine_keeps {z : State} {M : List Part} {s : State} {die : Nat} {pa : Nat} (hz : Keeps M z s) (hhbm : Part.hbm ∈ M) : Keeps M z (dropLine s die pa) := by
  unfold dropLine
  repeat'
    first
      | with_reducible assumption
      | dsimp only
      | split
      | (with_reducible refine Keeps.putHbm ?_ rfl rfl hhbm)

theorem upsetLine_keeps {z : State} {M : List Part} {s : State} {die : Nat} {pa : Nat} {n : Nat} (hz : Keeps M z s) (hpdk : Part.pdk ∈ M) (hhbm : Part.hbm ∈ M) (hflt : Part.flt ∈ M) (hmeter : Part.meter ∈ M) : Keeps M z (upsetLine s die pa n) := by
  unfold upsetLine
  repeat'
    first
      | with_reducible assumption
      | (with_reducible apply postFault_keeps)
      | (with_reducible apply dropLine_keeps)
      | dsimp only
      | split
      | (with_reducible refine Keeps.putHbm ?_ rfl rfl hhbm)

theorem noteRetire_keeps {z : State} {M : List Part} {s : State} {unit : Nat} (hz : Keeps M z s) (hhbm : Part.hbm ∈ M) : Keeps M z (noteRetire s unit) := by
  unfold noteRetire
  repeat'
    first
      | with_reducible assumption
      | dsimp only
      | split
      | (with_reducible refine Keeps.putHbm ?_ rfl rfl hhbm)

theorem reconGranule_keeps {z : State} {M : List Part} {s : State} {da : Nat} (hz : Keeps M z s) (hpdk : Part.pdk ∈ M) (hhbm : Part.hbm ∈ M) (hflt : Part.flt ∈ M) (hmeter : Part.meter ∈ M) (hfree : Part.free ∈ M) : Keeps M z (reconGranule s da) := by
  unfold reconGranule
  repeat'
    first
      | with_reducible assumption
      | (with_reducible apply noteRetire_keeps)
      | (with_reducible apply postFault_keeps)
      | (with_reducible apply landPoison_keeps)
      | (with_reducible apply landBytes_keeps)
      | (with_reducible apply freeBytes_fst_keeps)
      | (with_reducible refine freeBytes_keeps (by assumption) ?_ ?_)
      | dsimp only
      | split
      | (with_reducible refine Keeps.putHbm ?_ rfl rfl hhbm)

theorem correctGranule_keeps {z : State} {M : List Part} {s : State} {da : Nat} (hz : Keeps M z s) (hhbm : Part.hbm ∈ M) : Keeps M z (correctGranule s da) := by
  unfold correctGranule
  repeat'
    first
      | with_reducible assumption
      | dsimp only
      | split
      | (with_reducible refine Keeps.putHbm ?_ rfl rfl hhbm)

theorem patrolHit_keeps {z : State} {M : List Part} {s : State} {da : Nat} (hz : Keeps M z s) (hhbm : Part.hbm ∈ M) : Keeps M z (patrolHit s da) := by
  unfold patrolHit
  repeat'
    first
      | with_reducible assumption
      | (with_reducible apply correctGranule_keeps)
      | (with_reducible apply noteRetire_keeps)
      | dsimp only
      | split
      | (with_reducible refine Keeps.putHbm ?_ rfl rfl hhbm)

theorem copyFrame_keeps {z : State} {M : List Part} {s : State} {src : Nat} {dst : Nat} (hz : Keeps M z s) (hhbm : Part.hbm ∈ M) : Keeps M z (copyFrame s src dst) := by
  unfold copyFrame
  repeat'
    first
      | with_reducible assumption
      | (with_reducible apply landBytes_keeps)
      | (with_reducible apply landPoison_keeps)
      | (with_reducible refine Keeps.foldl ?_ ?_)
      | intro _
      | dsimp only
      | split

theorem retireFrame_keeps {z : State} {M : List Part} {s : State} {f : Nat} (hz : Keeps M z s) (hflash : Part.flash ∈ M) (hpdk : Part.pdk ∈ M) (hhbm : Part.hbm ∈ M) : Keeps M z (retireFrame s f) := by
  unfold retireFrame
  repeat'
    first
      | with_reducible assumption
      | (with_reducible apply copyFrame_keeps)
      | (with_reducible apply post_keeps)
      | dsimp only
      | split
      | (with_reducible refine Keeps.putFlash ?_ rfl rfl hflash)
      | (with_reducible refine Keeps.putHbm ?_ rfl rfl hhbm)
      | (with_reducible refine Keeps.putFlashHbm ?_ rfl rfl rfl rfl hflash hhbm)

theorem loseRegion_keeps {z : State} {M : List Part} {s : State} {r : LostRegion} (hz : Keeps M z s) (hpdk : Part.pdk ∈ M) (hhbm : Part.hbm ∈ M) (hflt : Part.flt ∈ M) (hmeter : Part.meter ∈ M) : Keeps M z (loseRegion s r) := by
  unfold loseRegion
  repeat'
    first
      | with_reducible assumption
      | (with_reducible apply capOpen_keeps)
      | dsimp only
      | split
      | (with_reducible refine Keeps.putHbm ?_ rfl rfl hhbm)

theorem failStack_keeps {z : State} {M : List Part} {s : State} {stack : Nat} {mech : Nat} (hz : Keeps M z s) (hdisp : Part.disp ∈ M) (hpdk : Part.pdk ∈ M) (hhbm : Part.hbm ∈ M) (hflt : Part.flt ∈ M) (hmeter : Part.meter ∈ M) : Keeps M z (failStack s stack mech) := by
  unfold failStack
  repeat'
    first
      | with_reducible assumption
      | (with_reducible apply postFault_keeps)
      | (with_reducible apply loseRegion_keeps)
      | (with_reducible apply addCauses_keeps)
      | dsimp only
      | split

theorem rebuildAt_keeps {z : State} {M : List Part} {b : State} {a : State} {n : Nat} {o : Nat} (hz : Keeps M z a) (hhbm : Part.hbm ∈ M) : Keeps M z (rebuildAt b a n o) := by
  unfold rebuildAt
  have k : Keeps M z ((numsFrom 0 19).foldl (fun (a : State) d =>
      if dataLost b n d && !dataLost a n d then
        { a with hbm := { a.hbm with data := cellSet a.hbm.data (unitByte n d o) (reconstruct b n d o) } }
      else a) a) := by
    refine Keeps.foldl hz fun u x hu => ?_
    split
    · exact Keeps.storeHbm hu (fun m => cellSet_wf m _ _) id hhbm
    · exact hu
  dsimp only
  split
  · exact Keeps.storeHbm k id (fun m => cellSet_wf m _ _) hhbm
  · exact k

theorem rebuildPoison_keeps {z : State} {M : List Part} {b : State} {a : State} {n : Nat} {g : Nat} (hz : Keeps M z a) (hhbm : Part.hbm ∈ M) : Keeps M z (rebuildPoison b a n g) := by
  unfold rebuildPoison
  repeat'
    first
      | with_reducible assumption
      | (with_reducible apply landPoison_keeps)
      | (with_reducible refine Keeps.foldl ?_ ?_)
      | intro _
      | dsimp only
      | split
      | (with_reducible refine Keeps.putHbm ?_ rfl rfl hhbm)

theorem rebuildRegion_keeps {z : State} {M : List Part} {s : State} {r : LostRegion} (hz : Keeps M z s) (hhbm : Part.hbm ∈ M) : Keeps M z (rebuildRegion s r) := by
  unfold rebuildRegion
  repeat'
    first
      | with_reducible assumption
      | (with_reducible apply rebuildAt_keeps)
      | (with_reducible apply rebuildPoison_keeps)
      | (with_reducible refine Keeps.foldl ?_ ?_)
      | intro _
      | dsimp only
      | split
      | (with_reducible refine Keeps.putHbm ?_ rfl rfl hhbm)

theorem deliver_keeps {z : State} {M : List Part} {s : State} {l : Nat} {off : Nat} {data : List (Byte × Bool)} (hz : Keeps M z s) (hclu : Part.clu ∈ M) : Keeps M z (deliver s l off data) := by
  unfold deliver
  repeat'
    first
      | with_reducible assumption
      | (with_reducible apply modClu_keeps)
      | (with_reducible apply cluWrite_keeps)
      | intro _
      | dsimp only
      | split

end Sys2Proof.Laws
end

