-- ==== Sys2Proof/Laws/KeepsBlocks.lean ====
section
/-! SUPPORT. What the Reins, the Paddock, the peers, power, faults, the start, metrology, the registers and the monitor keep: the queue, and the canonical form of every memory. -/

set_option linter.unusedTactic false
set_option linter.unreachableTactic false

namespace Sys2Proof.Laws

open Sys2Proof.Machine Sys2Proof.Safety

theorem compareSwap_fst_keeps {z : State} {M : List Part} {s : State} {n : Nat} {e : Nat} {v : Nat} {ep : Option Nat} (hz : Keeps M z s) (hdisp : Part.disp ∈ M) (hreins : Part.reins ∈ M) : Keeps M z (compareSwap s n e v ep).1 := by
  unfold compareSwap
  repeat'
    first
      | with_reducible assumption
      | (with_reducible apply setCtrValue_keeps)
      | dsimp only
      | split

theorem compareSwap_keeps {z t' : State} {v' : Option Nat} {M : List Part} {s : State} {n : Nat} {e : Nat} {v : Nat} {ep : Option Nat} (e' : compareSwap s n e v ep = (t', v')) (hz : Keeps M z s) (hdisp : Part.disp ∈ M) (hreins : Part.reins ∈ M) : Keeps M z t' := by
  have k' := compareSwap_fst_keeps (s := s) (n := n) (e := e) (v := v) (ep := ep) hz hdisp hreins
  rw [e'] at k'
  exact k'

theorem resetCtr_keeps {z : State} {M : List Part} {s : State} {v : Nat} (hz : Keeps M z s) (hdisp : Part.disp ∈ M) (hreins : Part.reins ∈ M) : Keeps M z (resetCtr s v) := by
  unfold resetCtr
  repeat'
    first
      | with_reducible assumption
      | (with_reducible apply setCtrValue_keeps)
      | (with_reducible apply advanceEpoch_keeps)
      | dsimp only
      | split

theorem noteCorrected_keeps {z : State} {M : List Part} {s : State} {pool : Nat} {n : Nat} (hz : Keeps M z s) (hpdk : Part.pdk ∈ M) (hflt : Part.flt ∈ M) (hmeter : Part.meter ∈ M) : Keeps M z (noteCorrected s pool n) := by
  unfold noteCorrected
  repeat'
    first
      | with_reducible assumption
      | (with_reducible apply postFault_keeps)
      | dsimp only
      | split
      | (with_reducible refine Keeps.putPdk ?_ hpdk)

theorem markHead_keeps {z : State} {M : List Part} {s : State} {pool : Nat} {queue : Nat} (hz : Keeps M z s) (hpdk : Part.pdk ∈ M) (hflt : Part.flt ∈ M) (hmeter : Part.meter ∈ M) : Keeps M z (markHead s pool queue) := by
  unfold markHead
  repeat'
    first
      | with_reducible assumption
      | (with_reducible apply postFault_keeps)
      | (with_reducible apply setQueue_keeps)
      | dsimp only
      | split

theorem readInbox_keeps {z : State} {M : List Part} {s : State} {pool : Nat} {queue : Nat} (hz : Keeps M z s) (hdisp : Part.disp ∈ M) (hpdk : Part.pdk ∈ M) (hclu : Part.clu ∈ M) (hflt : Part.flt ∈ M) : Keeps M z (readInbox s pool queue) := by
  unfold readInbox
  repeat'
    first
      | with_reducible assumption
      | (with_reducible apply takeInboxItem_keeps)
      | (with_reducible apply setQueue_keeps)
      | dsimp only
      | split

theorem readToOwner_keeps {z : State} {M : List Part} {s : State} {pool : Nat} {queue : Nat} (hz : Keeps M z s) (hhost : Part.host ∈ M) (hpdk : Part.pdk ∈ M) (hpeers : Part.peers ∈ M) (hmeter : Part.meter ∈ M) : Keeps M z (readToOwner s pool queue) := by
  unfold readToOwner
  repeat'
    first
      | with_reducible assumption
      | (with_reducible apply sendNotice_keeps)
      | (with_reducible apply setQueue_keeps)
      | dsimp only
      | split

theorem flushQueue_keeps {z : State} {M : List Part} {s : State} {v : Nat} (hz : Keeps M z s) (hdisp : Part.disp ∈ M) (hpdk : Part.pdk ∈ M) : Keeps M z (flushQueue s v) := by
  unfold flushQueue
  repeat'
    first
      | with_reducible assumption
      | (with_reducible apply setQueue_keeps)
      | (with_reducible apply addCauses_keeps)
      | (with_reducible apply post_keeps)
      | dsimp only
      | split

theorem noteGroupReady_keeps {z : State} {M : List Part} {s : State} (hz : Keeps M z s) (hpdk : Part.pdk ∈ M) (hpeers : Part.peers ∈ M) : Keeps M z (noteGroupReady s) := by
  unfold noteGroupReady
  repeat'
    first
      | with_reducible assumption
      | (with_reducible apply post_keeps)
      | dsimp only
      | split
      | (with_reducible refine Keeps.putPeers ?_ hpeers)

theorem startHello_keeps {z : State} {M : List Part} {s : State} {p : Nat} (hz : Keeps M z s) (hhost : Part.host ∈ M) (hpeers : Part.peers ∈ M) (hfree : Part.free ∈ M) : Keeps M z (startHello s p) := by
  unfold startHello
  repeat'
    first
      | with_reducible assumption
      | (with_reducible apply modPeerPort_keeps)
      | (with_reducible apply sendOpen_keeps)
      | (with_reducible apply freeBytes_fst_keeps)
      | (with_reducible refine freeBytes_keeps (by assumption) ?_ ?_)
      | dsimp only
      | split

theorem helloAll_keeps {z : State} {M : List Part} {s : State} (hz : Keeps M z s) (hhost : Part.host ∈ M) (hpeers : Part.peers ∈ M) (hfree : Part.free ∈ M) : Keeps M z (helloAll s) := by
  unfold helloAll
  repeat'
    first
      | with_reducible assumption
      | (with_reducible apply startHello_keeps)
      | (with_reducible refine Keeps.foldl ?_ ?_)
      | intro _
      | dsimp only
      | split

theorem mismatch_keeps {z : State} {M : List Part} {s : State} {p : Nat} (hz : Keeps M z s) (hpeers : Part.peers ∈ M) : Keeps M z (mismatch s p) := by
  unfold mismatch
  repeat'
    first
      | with_reducible assumption
      | (with_reducible apply modPeerPort_keeps)
      | dsimp only
      | split

theorem openPeer_keeps {z : State} {M : List Part} {s : State} {p : Nat} {se : Session} {far : Nat} (hz : Keeps M z s) (hpdk : Part.pdk ∈ M) (hpeers : Part.peers ∈ M) : Keeps M z (openPeer s p se far) := by
  unfold openPeer
  repeat'
    first
      | with_reducible assumption
      | (with_reducible apply modPeerPort_keeps)
      | (with_reducible apply noteGroupReady_keeps)
      | dsimp only
      | split

theorem peerHello_keeps {z : State} {M : List Part} {s : State} {p : Nat} {d : Datagram} {nonce : List Byte} (hz : Keeps M z s) (hhost : Part.host ∈ M) (hpeers : Part.peers ∈ M) : Keeps M z (peerHello s p d nonce) := by
  unfold peerHello
  repeat'
    first
      | with_reducible assumption
      | (with_reducible apply mismatch_keeps)
      | (with_reducible apply sendOpen_keeps)
      | (with_reducible apply modPeerPort_keeps)
      | (with_reducible apply sendHelloParts_keeps)
      | dsimp only
      | split

theorem peerEncap_keeps {z : State} {M : List Part} {s : State} {p : Nat} {d : Datagram} (hz : Keeps M z s) (hhost : Part.host ∈ M) (hpdk : Part.pdk ∈ M) (hpeers : Part.peers ∈ M) : Keeps M z (peerEncap s p d) := by
  unfold peerEncap
  repeat'
    first
      | with_reducible assumption
      | (with_reducible apply sendOpen_keeps)
      | (with_reducible apply mismatch_keeps)
      | (with_reducible apply modPeerPort_keeps)
      | (with_reducible apply openPeer_keeps)
      | (with_reducible apply modHost_keeps)
      | (with_reducible apply sendPlain_keeps)
      | dsimp only
      | split

theorem rankGone_keeps {z : State} {M : List Part} {s : State} {d : Nat} (hz : Keeps M z s) (hhost : Part.host ∈ M) (hdisp : Part.disp ∈ M) (hpeers : Part.peers ∈ M) (hmeter : Part.meter ∈ M) : Keeps M z (rankGone s d) := by
  unfold rankGone
  repeat'
    first
      | with_reducible assumption
      | (with_reducible apply addCauses_keeps)
      | (with_reducible apply abandonRound_keeps)
      | (with_reducible refine Keeps.foldl ?_ ?_)
      | intro _
      | dsimp only
      | split

theorem resend_keeps {z : State} {M : List Part} {s : State} {h : Held} (hz : Keeps M z s) (hhost : Part.host ∈ M) (hpeers : Part.peers ∈ M) (hmeter : Part.meter ∈ M) : Keeps M z (resend s h) := by
  unfold resend
  repeat'
    first
      | with_reducible assumption
      | (with_reducible apply sendSeq_keeps)
      | dsimp only
      | split

theorem dropSession_keeps {z : State} {M : List Part} {s : State} {p : Nat} (hz : Keeps M z s) (hhost : Part.host ∈ M) (hdisp : Part.disp ∈ M) (hpdk : Part.pdk ∈ M) (hpeers : Part.peers ∈ M) (hmeter : Part.meter ∈ M) : Keeps M z (dropSession s p) := by
  unfold dropSession
  repeat'
    first
      | with_reducible assumption
      | (with_reducible apply modPeerPort_keeps)
      | (with_reducible apply resend_keeps)
      | (with_reducible apply noteGroupReady_keeps)
      | (with_reducible apply rankGone_keeps)
      | (with_reducible refine Keeps.foldl ?_ ?_)
      | intro _
      | dsimp only
      | split

theorem losePeer_keeps {z : State} {M : List Part} {s : State} {p : Nat} (hz : Keeps M z s) (hhost : Part.host ∈ M) (hdisp : Part.disp ∈ M) (hpdk : Part.pdk ∈ M) (hflt : Part.flt ∈ M) (hpeers : Part.peers ∈ M) (hmeter : Part.meter ∈ M) : Keeps M z (losePeer s p) := by
  unfold losePeer
  repeat'
    first
      | with_reducible assumption
      | (with_reducible apply postFault_keeps)
      | (with_reducible apply dropSession_keeps)
      | (with_reducible apply modPeerPort_keeps)
      | dsimp only
      | split

theorem trainPort_keeps {z : State} {M : List Part} {s : State} {p : Nat} {pattern : Bool} (hz : Keeps M z s) (hhost : Part.host ∈ M) (hpeers : Part.peers ∈ M) (hfree : Part.free ∈ M) : Keeps M z (trainPort s p pattern) := by
  unfold trainPort
  repeat'
    first
      | with_reducible assumption
      | (with_reducible apply modHost_keeps)
      | (with_reducible apply startHello_keeps)
      | (with_reducible apply modPeerPort_keeps)
      | dsimp only
      | split

theorem peerInit_keeps {z : State} {M : List Part} {s : State} {p : Nat} {d : Datagram} {nonce : List Byte} (hz : Keeps M z s) (hhost : Part.host ∈ M) (hpdk : Part.pdk ∈ M) (hpeers : Part.peers ∈ M) : Keeps M z (peerInit s p d nonce) := by
  unfold peerInit
  repeat'
    first
      | with_reducible assumption
      | (with_reducible apply countRx_keeps)
      | (with_reducible apply impDrop_keeps)
      | (with_reducible apply sendOpen_keeps)
      | (with_reducible apply peerHello_keeps)
      | (with_reducible apply peerEncap_keeps)
      | (with_reducible apply mismatch_keeps)
      | dsimp only
      | split

theorem peerClose_keeps {z : State} {M : List Part} {s : State} {p : Nat} {d : Datagram} (hz : Keeps M z s) (hhost : Part.host ∈ M) (hdisp : Part.disp ∈ M) (hpdk : Part.pdk ∈ M) (hflt : Part.flt ∈ M) (hpeers : Part.peers ∈ M) (hmeter : Part.meter ∈ M) : Keeps M z (peerClose s p d) := by
  unfold peerClose
  repeat'
    first
      | with_reducible assumption
      | (with_reducible apply losePeer_keeps)
      | (with_reducible apply sendPlain_keeps)
      | (with_reducible apply receive_fst_keeps)
      | (with_reducible refine receive_keeps (by assumption) ?_ ?_ ?_)
      | dsimp only
      | split

theorem sendEncap_keeps {z : State} {M : List Part} {s : State} {p : Nat} {far : Nat} {nonceM : List Byte} {b : List Byte} {rnd : List Byte} (hz : Keeps M z s) (hhost : Part.host ∈ M) (hpeers : Part.peers ∈ M) : Keeps M z (sendEncap s p far nonceM b rnd) := by
  unfold sendEncap
  repeat'
    first
      | with_reducible assumption
      | (with_reducible apply modPeerPort_keeps)
      | (with_reducible apply sendOpen_keeps)
      | dsimp only
      | split

theorem replyOpen_keeps {z : State} {M : List Part} {s : State} {p : Nat} {d : Datagram} {rnd : List Byte} (hz : Keeps M z s) (hhost : Part.host ∈ M) (hpeers : Part.peers ∈ M) : Keeps M z (replyOpen s p d rnd) := by
  unfold replyOpen
  repeat'
    first
      | with_reducible assumption
      | (with_reducible apply countRx_keeps)
      | (with_reducible apply impDrop_keeps)
      | (with_reducible apply mismatch_keeps)
      | (with_reducible apply modPeerPort_keeps)
      | (with_reducible apply sendEncap_keeps)
      | dsimp only
      | split

theorem replyFinal_keeps {z : State} {M : List Part} {s : State} {p : Nat} {d : Datagram} (hz : Keeps M z s) (hhost : Part.host ∈ M) (hpdk : Part.pdk ∈ M) (hpeers : Part.peers ∈ M) : Keeps M z (replyFinal s p d) := by
  unfold replyFinal
  repeat'
    first
      | with_reducible assumption
      | (with_reducible apply countRx_keeps)
      | (with_reducible apply impDrop_keeps)
      | (with_reducible apply openPeer_keeps)
      | (with_reducible apply mismatch_keeps)
      | dsimp only
      | split

theorem peerNack_keeps {z : State} {M : List Part} {s : State} {b : PeerBody} {reason : Nat} {detail : Nat} (hz : Keeps M z s) (hhost : Part.host ∈ M) (hpeers : Part.peers ∈ M) (hmeter : Part.meter ∈ M) : Keeps M z (peerNack s b reason detail) := by
  unfold peerNack
  repeat'
    first
      | with_reducible assumption
      | (with_reducible apply sendSeq_keeps)
      | dsimp only
      | split

theorem notePseq_keeps {z : State} {M : List Part} {s : State} {rank : Nat} {n : Nat} (hz : Keeps M z s) (hpeers : Part.peers ∈ M) : Keeps M z (notePseq s rank n) := by
  unfold notePseq
  repeat'
    first
      | with_reducible assumption
      | dsimp only
      | split
      | (with_reducible refine Keeps.putPeers ?_ hpeers)

theorem forwardPeer_keeps {z : State} {M : List Part} {s : State} {p : Nat} {b : PeerBody} {body : List Byte} (hz : Keeps M z s) (hhost : Part.host ∈ M) (hpeers : Part.peers ∈ M) (hmeter : Part.meter ∈ M) : Keeps M z (forwardPeer s p b body) := by
  unfold forwardPeer
  repeat'
    first
      | with_reducible assumption
      | (with_reducible apply modCtr_keeps)
      | (with_reducible apply sendSeq_keeps)
      | dsimp only
      | split

theorem actData_keeps {z : State} {M : List Part} {s : State} {b : PeerBody} (hz : Keeps M z s) (hhost : Part.host ∈ M) (hdisp : Part.disp ∈ M) (hreins : Part.reins ∈ M) (hhbm : Part.hbm ∈ M) (hpeers : Part.peers ∈ M) (hmeter : Part.meter ∈ M) : Keeps M z (actData s b) := by
  unfold actData
  repeat'
    first
      | with_reducible assumption
      | (with_reducible apply pseqLand_keeps)
      | (with_reducible apply peerNack_keeps)
      | (with_reducible apply vWrite_keeps)
      | (with_reducible apply tlbFillRange_keeps)
      | dsimp only
      | split
      | (with_reducible refine Keeps.putPeers ?_ hpeers)

theorem actLeaf_keeps {z : State} {M : List Part} {s : State} {b : PeerBody} (hz : Keeps M z s) (hhost : Part.host ∈ M) (hhbm : Part.hbm ∈ M) (hflt : Part.flt ∈ M) (hpeers : Part.peers ∈ M) (hmeter : Part.meter ∈ M) : Keeps M z (actLeaf s b) := by
  unfold actLeaf
  repeat'
    first
      | with_reducible assumption
      | (with_reducible apply roundFeed_keeps)
      | (with_reducible apply setRound_keeps)
      | (with_reducible apply staleDrop_keeps)
      | dsimp only
      | split

theorem actResult_keeps {z : State} {M : List Part} {s : State} {b : PeerBody} (hz : Keeps M z s) (hhbm : Part.hbm ∈ M) (hflt : Part.flt ∈ M) (hpeers : Part.peers ∈ M) : Keeps M z (actResult s b) := by
  unfold actResult
  repeat'
    first
      | with_reducible assumption
      | (with_reducible apply staleDrop_keeps)
      | (with_reducible apply setRound_keeps)
      | (with_reducible apply vWrite_keeps)
      | dsimp only
      | split

theorem actLanded_keeps {z : State} {M : List Part} {s : State} {b : PeerBody} (hz : Keeps M z s) (hdisp : Part.disp ∈ M) (hreins : Part.reins ∈ M) (hflt : Part.flt ∈ M) (hpeers : Part.peers ∈ M) : Keeps M z (actLanded s b) := by
  unfold actLanded
  repeat'
    first
      | with_reducible assumption
      | (with_reducible apply actFinals_keeps)
      | (with_reducible apply staleDrop_keeps)
      | dsimp only
      | split
      | (with_reducible refine Keeps.putPeers ?_ hpeers)

theorem actAbortRound_keeps {z : State} {M : List Part} {s : State} {b : PeerBody} (hz : Keeps M z s) (hhost : Part.host ∈ M) (hdisp : Part.disp ∈ M) (hflt : Part.flt ∈ M) (hpeers : Part.peers ∈ M) (hmeter : Part.meter ∈ M) : Keeps M z (actAbortRound s b) := by
  unfold actAbortRound
  repeat'
    first
      | with_reducible assumption
      | (with_reducible apply staleDrop_keeps)
      | (with_reducible apply abandonRound_keeps)
      | dsimp only
      | split

theorem peerAct_keeps {z : State} {M : List Part} {s : State} {b : PeerBody} (hz : Keeps M z s) (hhost : Part.host ∈ M) (hdisp : Part.disp ∈ M) (hreins : Part.reins ∈ M) (hhbm : Part.hbm ∈ M) (hflt : Part.flt ∈ M) (hpeers : Part.peers ∈ M) (hmeter : Part.meter ∈ M) : Keeps M z (peerAct s b) := by
  unfold peerAct
  repeat'
    first
      | with_reducible assumption
      | (with_reducible apply actLanded_keeps)
      | (with_reducible apply notePseq_keeps)
      | (with_reducible apply actData_keeps)
      | (with_reducible apply pseqLand_keeps)
      | (with_reducible apply actLeaf_keeps)
      | (with_reducible apply actResult_keeps)
      | (with_reducible apply actAbortRound_keeps)
      | dsimp only
      | split

theorem peerArrive_keeps {z : State} {M : List Part} {s : State} {p : Nat} {d : Datagram} (hz : Keeps M z s) (hhost : Part.host ∈ M) (hdisp : Part.disp ∈ M) (hreins : Part.reins ∈ M) (hhbm : Part.hbm ∈ M) (hflt : Part.flt ∈ M) (hpeers : Part.peers ∈ M) (hmeter : Part.meter ∈ M) : Keeps M z (peerArrive s p d) := by
  unfold peerArrive
  repeat'
    first
      | with_reducible assumption
      | (with_reducible apply sendAck_keeps)
      | (with_reducible apply peerAct_keeps)
      | (with_reducible apply forwardPeer_keeps)
      | (with_reducible apply receive_fst_keeps)
      | (with_reducible refine receive_keeps (by assumption) ?_ ?_ ?_)
      | dsimp only
      | split

theorem actPeerNack_keeps {z : State} {M : List Part} {s : State} {body : List Byte} (hz : Keeps M z s) (hhost : Part.host ∈ M) (hdisp : Part.disp ∈ M) (hpeers : Part.peers ∈ M) (hmeter : Part.meter ∈ M) : Keeps M z (actPeerNack s body) := by
  unfold actPeerNack
  repeat'
    first
      | with_reducible assumption
      | (with_reducible apply sendSeq_keeps)
      | (with_reducible apply addCause_keeps)
      | dsimp only
      | split
      | (with_reducible refine Keeps.putPeers ?_ hpeers)

theorem setSlot_keeps {z : State} {M : List Part} {s : State} {i : Nat} {j : JobSlot} (hz : Keeps M z s) (hdisp : Part.disp ∈ M) : Keeps M z (setSlot s i j) := by
  unfold setSlot
  repeat'
    first
      | with_reducible assumption
      | dsimp only
      | split
      | (with_reducible refine Keeps.putDisp ?_ hdisp)

theorem disableWrite_keeps {z t' : State} {M : List Part} {s : State} {a1 : DisableKind} (e' : disableWrite s a1 = some t') (hz : Keeps M z s) (hdisp : Part.disp ∈ M) (hpeers : Part.peers ∈ M) : Keeps M z t' := by
  unfold disableWrite at e'
  try dsimp only at e'
  repeat' split at e'
  all_goals (try cases e')
  all_goals repeat'
    first
      | with_reducible assumption
      | (with_reducible apply setSlot_keeps)
      | dsimp only
      | split
      | (with_reducible refine Keeps.putPeers ?_ hpeers)

theorem beginDisable_keeps {z : State} {M : List Part} {s : State} {k : DisableKind} {off : Nat} {who : Option (Nat × Nat × Nat)} {rest : List Disable} (hz : Keeps M z s) (hdisp : Part.disp ∈ M) : Keeps M z (beginDisable s k off who rest) := by
  unfold beginDisable
  repeat'
    first
      | with_reducible assumption
      | dsimp only
      | split
      | (with_reducible refine Keeps.putDisp ?_ hdisp)

theorem disableAck_keeps {z : State} {M : List Part} {s : State} {who : Option (Nat × Nat × Nat)} (hz : Keeps M z s) (hhost : Part.host ∈ M) (hpeers : Part.peers ∈ M) : Keeps M z (disableAck s who) := by
  unfold disableAck
  repeat'
    first
      | with_reducible assumption
      | (with_reducible apply lateLanded_keeps)
      | dsimp only
      | split

theorem disable_keeps {z : State} {M : List Part} {s : State} {k : DisableKind} {off : Nat} {who : Option (Nat × Nat × Nat)} (hz : Keeps M z s) (hdisp : Part.disp ∈ M) (hpeers : Part.peers ∈ M) : Keeps M z (disable s k off who) := by
  unfold disable
  repeat'
    first
      | with_reducible assumption
      | (with_reducible apply beginDisable_keeps)
      | (with_reducible refine disableWrite_keeps (by assumption) ?_ ?_ ?_)
      | dsimp only
      | split
      | (with_reducible refine Keeps.putDisp ?_ hdisp)

theorem endJob_keeps {z : State} {M : List Part} {s : State} {i : Nat} {id : Nat} (hz : Keeps M z s) (hdisp : Part.disp ∈ M) (hhbm : Part.hbm ∈ M) : Keeps M z (endJob s i id) := by
  unfold endJob
  repeat'
    first
      | with_reducible assumption
      | (with_reducible apply setSlot_keeps)
      | dsimp only
      | split
      | (with_reducible refine Keeps.putDisp ?_ hdisp)
      | (with_reducible refine Keeps.putHbm ?_ rfl rfl hhbm)
      | (with_reducible refine Keeps.putDispHbm ?_ rfl rfl hdisp hhbm)

theorem adoptGroup_keeps {z : State} {M : List Part} {s : State} (hz : Keeps M z s) (hhost : Part.host ∈ M) (hpdk : Part.pdk ∈ M) (hpeers : Part.peers ∈ M) (hfree : Part.free ∈ M) : Keeps M z (adoptGroup s) := by
  unfold adoptGroup
  repeat'
    first
      | with_reducible assumption
      | (with_reducible apply modPeerPort_keeps)
      | (with_reducible apply noteGroupReady_keeps)
      | (with_reducible apply helloAll_keeps)
      | (with_reducible refine Keeps.foldl ?_ ?_)
      | intro _
      | dsimp only
      | split
      | (with_reducible refine Keeps.putPeers ?_ hpeers)

theorem retireCluster_keeps {z : State} {M : List Part} {s : State} {l : Nat} (hz : Keeps M z s) (hdisp : Part.disp ∈ M) (hpdk : Part.pdk ∈ M) (hclu : Part.clu ∈ M) (hpwr : Part.pwr ∈ M) (hflt : Part.flt ∈ M) (hmeter : Part.meter ∈ M) : Keeps M z (retireCluster s l) := by
  unfold retireCluster
  repeat'
    first
      | with_reducible assumption
      | (with_reducible apply modClu_keeps)
      | (with_reducible apply makeOff_keeps)
      | (with_reducible apply beginRemount_keeps)
      | intro _
      | dsimp only
      | split

theorem endFunction_keeps {z : State} {M : List Part} {s : State} {a1 : DisableKind} (hz : Keeps M z s) (hhost : Part.host ∈ M) (hdisp : Part.disp ∈ M) (hpdk : Part.pdk ∈ M) (hclu : Part.clu ∈ M) (hhbm : Part.hbm ∈ M) (hpwr : Part.pwr ∈ M) (hflt : Part.flt ∈ M) (hpeers : Part.peers ∈ M) (hmeter : Part.meter ∈ M) (hfree : Part.free ∈ M) : Keeps M z (endFunction s a1) := by
  unfold endFunction
  repeat'
    first
      | with_reducible assumption
      | (with_reducible apply endJob_keeps)
      | (with_reducible apply adoptGroup_keeps)
      | (with_reducible apply retireCluster_keeps)
      | dsimp only
      | split

theorem nextDisable_keeps {z : State} {M : List Part} {s : State} {a1 : List Disable} (hz : Keeps M z s) (hhost : Part.host ∈ M) (hdisp : Part.disp ∈ M) (hpeers : Part.peers ∈ M) : Keeps M z (nextDisable s a1) := by
  induction a1 generalizing s with
  | nil =>
    unfold nextDisable
    repeat'
      first
        | with_reducible assumption
        | (with_reducible apply disableAck_keeps)
        | (with_reducible apply beginDisable_keeps)
        | (with_reducible refine disableWrite_keeps (by assumption) ?_ ?_ ?_)
        | dsimp only
        | split
        | (with_reducible refine Keeps.putDisp ?_ hdisp)

  | cons x l ih =>
    unfold nextDisable
    repeat'
      first
        | with_reducible assumption
        | (with_reducible apply ih)
        | (with_reducible apply disableAck_keeps)
        | (with_reducible apply beginDisable_keeps)
        | (with_reducible refine disableWrite_keeps (by assumption) ?_ ?_ ?_)
        | dsimp only
        | split
        | (with_reducible refine Keeps.putDisp ?_ hdisp)

theorem writeCluCmd_keeps {z : State} {M : List Part} {s : State} {v : Nat} {who : Option (Nat × Nat × Nat)} (hz : Keeps M z s) (hdisp : Part.disp ∈ M) (hpeers : Part.peers ∈ M) : Keeps M z (writeCluCmd s v who) := by
  unfold writeCluCmd
  repeat'
    first
      | with_reducible assumption
      | (with_reducible apply disable_keeps)
      | dsimp only
      | split

theorem writeJobCtrl_keeps {z : State} {M : List Part} {s : State} {v : Nat} {who : Option (Nat × Nat × Nat)} (hz : Keeps M z s) (hdisp : Part.disp ∈ M) (hpeers : Part.peers ∈ M) : Keeps M z (writeJobCtrl s v who) := by
  unfold writeJobCtrl
  repeat'
    first
      | with_reducible assumption
      | (with_reducible apply setSlot_keeps)
      | (with_reducible apply disable_keeps)
      | dsimp only
      | split

theorem tlbInvalidate_keeps {z : State} {M : List Part} {s : State} {v : Nat} (hz : Keeps M z s) (hhbm : Part.hbm ∈ M) : Keeps M z (tlbInvalidate s v) := by
  unfold tlbInvalidate
  repeat'
    first
      | with_reducible assumption
      | dsimp only
      | split
      | (with_reducible refine Keeps.putHbm ?_ rfl rfl hhbm)

theorem traceStep_keeps {z : State} {M : List Part} {s : State} {g : Nat} (hz : Keeps M z s) (hpdk : Part.pdk ∈ M) : Keeps M z (traceStep s g) := by
  unfold traceStep
  repeat'
    first
      | with_reducible assumption
      | (with_reducible apply trace_keeps)
      | (with_reducible refine Keeps.foldl ?_ ?_)
      | intro _
      | dsimp only
      | split

theorem writeCap_keeps {z : State} {M : List Part} {s : State} {v : Nat} (hz : Keeps M z s) (hpwr : Part.pwr ∈ M) : Keeps M z (writeCap s v) := by
  unfold writeCap
  repeat'
    first
      | with_reducible assumption
      | dsimp only
      | split
      | (with_reducible refine Keeps.putPwr ?_ hpwr)

theorem powerDown_keeps {z : State} {M : List Part} {s : State} (hz : Keeps M z s) (hctl : Part.ctl ∈ M) (hflash : Part.flash ∈ M) (hclock : Part.clock ∈ M) (hhost : Part.host ∈ M) (hdisp : Part.disp ∈ M) (hreins : Part.reins ∈ M) (hpdk : Part.pdk ∈ M) (hclu : Part.clu ∈ M) (hhbm : Part.hbm ∈ M) (hpwr : Part.pwr ∈ M) (hflt : Part.flt ∈ M) (hpeers : Part.peers ∈ M) (hsec : Part.sec ∈ M) (hmeter : Part.meter ∈ M) (hkyend : Part.kyend ∈ M) : Keeps M z (powerDown s) := by
  unfold powerDown
  exact Keeps.store hz (fun m => ⟨rfl, rfl, m.2.2.1, m.2.2.2.1, rfl, fun _ he => nomatch he⟩) (.inl hctl) (.inl hflash) (.inl hclock) (.inl hhost) (.inl hdisp) (.inl hreins) (.inl hpdk) (.inl hclu) (.inl hhbm) (.inl hpwr) (.inl hflt) (.inl hpeers) (.inl hsec) (.inl hmeter) (.inl hkyend) (.inr rfl)

theorem noteTemp_keeps {z : State} {M : List Part} {s : State} {die : Nat} {c : Nat} (hz : Keeps M z s) (hpwr : Part.pwr ∈ M) : Keeps M z (noteTemp s die c) := by
  unfold noteTemp
  repeat'
    first
      | with_reducible assumption
      | dsimp only
      | split
      | (with_reducible refine Keeps.putPwr ?_ hpwr)

theorem startStretch_keeps {z : State} {M : List Part} {s : State} {die : Nat} {c : Nat} (hz : Keeps M z s) (hpdk : Part.pdk ∈ M) (hclu : Part.clu ∈ M) (hpwr : Part.pwr ∈ M) : Keeps M z (startStretch s die c) := by
  unfold startStretch
  repeat'
    first
      | with_reducible assumption
      | (with_reducible apply modGroup_keeps)
      | (with_reducible apply tallyGroup_keeps)
      | (with_reducible apply post_keeps)
      | (with_reducible refine Keeps.foldl ?_ ?_)
      | intro _
      | dsimp only
      | split

theorem endStretch_keeps {z : State} {M : List Part} {s : State} {die : Nat} {c : Nat} (hz : Keeps M z s) (hpdk : Part.pdk ∈ M) (hclu : Part.clu ∈ M) (hpwr : Part.pwr ∈ M) : Keeps M z (endStretch s die c) := by
  unfold endStretch
  repeat'
    first
      | with_reducible assumption
      | (with_reducible apply modGroup_keeps)
      | (with_reducible apply tallyGroup_keeps)
      | (with_reducible apply post_keeps)
      | (with_reducible refine Keeps.foldl ?_ ?_)
      | intro _
      | dsimp only
      | split

theorem loseDieSup_keeps {z : State} {M : List Part} {s : State} {d : Nat} (hz : Keeps M z s) (hctl : Part.ctl ∈ M) (hdisp : Part.disp ∈ M) (hpdk : Part.pdk ∈ M) (hflt : Part.flt ∈ M) (hmeter : Part.meter ∈ M) : Keeps M z (loseDieSup s d) := by
  unfold loseDieSup
  repeat'
    first
      | with_reducible assumption
      | (with_reducible apply postFault_keeps)
      | (with_reducible apply addCauses_keeps)
      | (with_reducible apply capOpen_keeps)
      | dsimp only
      | split
      | (with_reducible refine Keeps.putCtl ?_ rfl hctl)

theorem mapOutRows_keeps {z t' : State} {M : List Part} {s : State} {p : Nat} {a2 : List (Nat × Nat)} (e' : mapOutRows s p a2 = some t') (hz : Keeps M z s) (hflash : Part.flash ∈ M) (hclu : Part.clu ∈ M) : Keeps M z t' := by
  induction a2 generalizing s with
  | nil =>
    cases e'
    exact hz
  | cons x l ih =>
    obtain ⟨bank, row⟩ := x
    unfold mapOutRows at e'
    dsimp only at e'
    split at e'
    · cases e'
    · exact ih e' (Keeps.lit (setClu_keeps hz _ _ (CluKeeps.upd rfl) hclu) rfl rfl rfl rfl rfl rfl (.inr rfl) (.inl hflash) (.inr rfl) (.inr rfl) (.inr rfl) (.inr rfl) (.inr rfl) (.inl hclu) (.inr rfl) (.inr rfl) (.inr rfl) (.inr rfl) (.inr rfl) (.inr rfl) (.inr rfl) (.inr rfl))

theorem yarrowAnswer_keeps {z : State} {M : List Part} {s : State} {p : Nat} {r : Nat} (hz : Keeps M z s) (hclu : Part.clu ∈ M) (hkyend : Part.kyend ∈ M) : Keeps M z (yarrowAnswer s p r) := by
  unfold yarrowAnswer
  repeat'
    first
      | with_reducible assumption
      | (with_reducible apply kyendYarrowEnds_keeps)
      | dsimp only
      | split
      | (with_reducible refine Keeps.putClu ?_ rfl hclu)

theorem writeYarrow_keeps {z : State} {M : List Part} {s : State} {v : Nat} (hz : Keeps M z s) (hclu : Part.clu ∈ M) : Keeps M z (writeYarrow s v) := by
  unfold writeYarrow
  repeat'
    first
      | with_reducible assumption
      | dsimp only
      | split
      | (with_reducible refine Keeps.putClu ?_ rfl hclu)

theorem loseGroup_keeps {z : State} {M : List Part} {s : State} {g : Nat} (hz : Keeps M z s) (hdisp : Part.disp ∈ M) (hpdk : Part.pdk ∈ M) (hclu : Part.clu ∈ M) (hpwr : Part.pwr ∈ M) (hflt : Part.flt ∈ M) (hmeter : Part.meter ∈ M) : Keeps M z (loseGroup s g) := by
  unfold loseGroup
  repeat'
    first
      | with_reducible assumption
      | (with_reducible apply postFault_keeps)
      | (with_reducible apply modGroup_keeps)
      | (with_reducible apply tallyGroup_keeps)
      | (with_reducible apply failPhys_keeps)
      | (with_reducible refine Keeps.foldl ?_ ?_)
      | intro _
      | dsimp only
      | split

/-- A byte string laid out from an address is in canonical form. -/
theorem cellsAt_wfAbove {a lo : Nat} {l : List Byte} (h : lo < a) : WfAbove lo (cellsAt a l) := by
  induction l generalizing a lo with
  | nil => exact ⟨rfl, fun e he => nomatch he⟩
  | cons b r ih =>
    unfold cellsAt
    split
    · exact ih (Nat.lt_succ_of_lt h)
    · rename_i hb
      have k := ih (a := a + 1) (lo := a) (Nat.lt_succ_self a)
      refine ⟨wf_cons.mpr ⟨hb, k⟩, fun e he => ?_⟩
      rcases List.mem_cons.mp he with rfl | he
      · exact h
      · exact Nat.lt_trans h (k.2 e he)

theorem cellsAt_wf (a : Nat) (l : List Byte) : Memory.wf (cellsAt a l) = true := by
  cases l with
  | nil => rfl
  | cons b r =>
    unfold cellsAt
    split
    · exact (cellsAt_wfAbove (Nat.lt_succ_self a)).1
    · rename_i hb
      exact wf_cons.mpr ⟨hb, cellsAt_wfAbove (Nat.lt_succ_self a)⟩

theorem haltAt_keeps {z : State} {M : List Part} {s : State} {m : ModState} {step : Nat} {why : String} (hz : Keeps M z s) (hctl : Part.ctl ∈ M) : Keeps M z (haltAt s m step why) := by
  unfold haltAt
  repeat'
    first
      | with_reducible assumption
      | dsimp only
      | split
      | (with_reducible refine Keeps.putCtl ?_ rfl hctl)

theorem startConfig_keeps {z t' : State} {M : List Part} {s : State} (e' : startConfig s = .ok t') (hz : Keeps M z s) (hctl : Part.ctl ∈ M) (hkyend : Part.kyend ∈ M) : Keeps M z t' := by
  unfold startConfig at e'
  try dsimp only at e'
  repeat' split at e'
  all_goals (try cases e')
  all_goals repeat'
    first
      | with_reducible assumption
      | (with_reducible apply kyendSay_keeps)
      | dsimp only
      | split
      | (with_reducible refine Keeps.putCtl ?_ rfl hctl)
      | (with_reducible refine Keeps.putKyend ?_ hkyend)
  all_goals first
    | exact Keeps.storeCfg hz (fun m => m.2.2.2.1) hctl
    | exact Keeps.storeCfg hz (fun m => m.2.2.1) hctl

theorem startImage_keeps {z t' : State} {M : List Part} {s : State} (e' : startImage s = .ok t') (hz : Keeps M z s) (hctl : Part.ctl ∈ M) : Keeps M z t' := by
  unfold startImage at e'
  try dsimp only at e'
  repeat' split at e'
  all_goals (try cases e')
  all_goals repeat'
    first
      | with_reducible assumption
      | dsimp only
      | split
      | (with_reducible refine Keeps.putCtl ?_ rfl hctl)

theorem startKeys_keeps {z t' : State} {M : List Part} {s : State} {puf : List Byte} (e' : startKeys s puf = .ok t') (hz : Keeps M z s) (hsec : Part.sec ∈ M) : Keeps M z t' := by
  unfold startKeys at e'
  try dsimp only at e'
  repeat' split at e'
  all_goals (try cases e')
  all_goals repeat'
    first
      | with_reducible assumption
      | dsimp only
      | split
      | (with_reducible refine Keeps.putSec ?_ hsec)

theorem degrade_keeps {z : State} {M : List Part} {s : State} {res : Nat} {p0 : Nat} (hz : Keeps M z s) (hctl : Part.ctl ∈ M) : Keeps M z (degrade s res p0) := by
  unfold degrade
  repeat'
    first
      | with_reducible assumption
      | dsimp only
      | split
      | (with_reducible refine Keeps.putCtl ?_ rfl hctl)

theorem startHost_keeps {z : State} {M : List Part} {s : State} {failed : List Nat} (hz : Keeps M z s) (hctl : Part.ctl ∈ M) (hhost : Part.host ∈ M) : Keeps M z (startHost s failed) := by
  unfold startHost
  repeat'
    first
      | with_reducible assumption
      | (with_reducible apply degrade_keeps)
      | (with_reducible apply modHost_keeps)
      | (with_reducible refine Keeps.foldl ?_ ?_)
      | intro _
      | dsimp only
      | split

theorem startPeerLane_keeps {z : State} {M : List Part} {s : State} {e : Nat × Nat} (hz : Keeps M z s) (hctl : Part.ctl ∈ M) (hflt : Part.flt ∈ M) (hpeers : Part.peers ∈ M) : Keeps M z (startPeerLane s e) := by
  unfold startPeerLane
  repeat'
    first
      | with_reducible assumption
      | (with_reducible apply degrade_keeps)
      | (with_reducible apply modPeerPort_keeps)
      | dsimp only
      | split
      | (with_reducible refine Keeps.putFlt ?_ hflt)

theorem startPeers_keeps {z : State} {M : List Part} {s : State} {i : StartInputs} (hz : Keeps M z s) (hctl : Part.ctl ∈ M) (hhost : Part.host ∈ M) (hflt : Part.flt ∈ M) (hpeers : Part.peers ∈ M) (hfree : Part.free ∈ M) : Keeps M z (startPeers s i) := by
  unfold startPeers
  repeat'
    first
      | with_reducible assumption
      | (with_reducible apply startPeerLane_keeps)
      | (with_reducible apply trainPort_keeps)
      | (with_reducible refine Keeps.foldl ?_ ?_)
      | intro _
      | dsimp only
      | split
      | (with_reducible refine Keeps.putPeers ?_ hpeers)

theorem startFrames_keeps {z : State} {M : List Part} {s : State} (hz : Keeps M z s) (hhbm : Part.hbm ∈ M) : Keeps M z (startFrames s) := by
  unfold startFrames
  repeat'
    first
      | with_reducible assumption
      | dsimp only
      | split
      | (with_reducible refine Keeps.putHbm ?_ rfl rfl hhbm)

theorem startStack_keeps {z : State} {M : List Part} {s : State} {k : Nat} (hz : Keeps M z s) (hctl : Part.ctl ∈ M) (hhbm : Part.hbm ∈ M) (hflt : Part.flt ∈ M) : Keeps M z (startStack s k) := by
  unfold startStack
  repeat'
    first
      | with_reducible assumption
      | (with_reducible apply degrade_keeps)
      | dsimp only
      | split
      | (with_reducible refine Keeps.putHbmFlt ?_ rfl rfl hhbm hflt)

theorem applyRepair_keeps {z : State} {M : List Part} {s : State} {e : RepairEntry} (hz : Keeps M z s) (hclu : Part.clu ∈ M) : Keeps M z (applyRepair s e) := by
  unfold applyRepair
  repeat'
    first
      | with_reducible assumption
      | (with_reducible apply modClu_keeps)
      | intro _
      | dsimp only
      | split

theorem failPrimrose_keeps {z : State} {M : List Part} {s : State} {p : Nat} (hz : Keeps M z s) (hctl : Part.ctl ∈ M) (hclu : Part.clu ∈ M) : Keeps M z (failPrimrose s p) := by
  unfold failPrimrose
  repeat'
    first
      | with_reducible assumption
      | (with_reducible apply degrade_keeps)
      | (with_reducible apply modClu_keeps)
      | (with_reducible apply setLmap_keeps)
      | intro _
      | dsimp only
      | split
      | (with_reducible refine Keeps.putCtl ?_ rfl hctl)

theorem startRow_keeps {z : State} {M : List Part} {s : State} {e : Nat × Nat × Nat} (hz : Keeps M z s) (hctl : Part.ctl ∈ M) (hflash : Part.flash ∈ M) (hclu : Part.clu ∈ M) : Keeps M z (startRow s e) := by
  unfold startRow
  repeat'
    first
      | with_reducible assumption
      | (with_reducible apply failPrimrose_keeps)
      | (with_reducible refine mapOutRows_keeps (by assumption) ?_ ?_ ?_)
      | dsimp only
      | split

theorem startClusters_keeps {z : State} {M : List Part} {s : State} {l : List Nat} (hz : Keeps M z s) (hctl : Part.ctl ∈ M) (hclu : Part.clu ∈ M) : Keeps M z (startClusters s l) := by
  unfold startClusters
  repeat'
    first
      | with_reducible assumption
      | (with_reducible apply failPrimrose_keeps)
      | (with_reducible refine Keeps.foldl ?_ ?_)
      | intro _
      | dsimp only
      | split

theorem startControl_keeps {z : State} {M : List Part} {s : State} {i : StartInputs} (hz : Keeps M z s) (hctl : Part.ctl ∈ M) (hreins : Part.reins ∈ M) (hflt : Part.flt ∈ M) : Keeps M z (startControl s i) := by
  unfold startControl
  repeat'
    first
      | with_reducible assumption
      | (with_reducible apply modReins_keeps)
      | (with_reducible apply degrade_keeps)
      | (with_reducible refine Keeps.foldl ?_ ?_)
      | intro _
      | dsimp only
      | split
      | (with_reducible refine Keeps.putCtl ?_ rfl hctl)
      | (with_reducible refine Keeps.putFlt ?_ hflt)

theorem startFigures_keeps {z : State} {M : List Part} {s : State} {i : StartInputs} (hz : Keeps M z s) (hhbm : Part.hbm ∈ M) (hpwr : Part.pwr ∈ M) : Keeps M z (startFigures s i) := by
  unfold startFigures
  repeat'
    first
      | with_reducible assumption
      | dsimp only
      | split
      | (with_reducible refine Keeps.putHbmPwr ?_ rfl rfl hhbm hpwr)

theorem startPrimrose_keeps {z : State} {M : List Part} {s : State} {i : StartInputs} (hz : Keeps M z s) (hctl : Part.ctl ∈ M) (hflash : Part.flash ∈ M) (hhost : Part.host ∈ M) (hreins : Part.reins ∈ M) (hclu : Part.clu ∈ M) (hhbm : Part.hbm ∈ M) (hpwr : Part.pwr ∈ M) (hflt : Part.flt ∈ M) (hpeers : Part.peers ∈ M) (hfree : Part.free ∈ M) : Keeps M z (startPrimrose s i) := by
  unfold startPrimrose
  repeat'
    first
      | with_reducible assumption
      | (with_reducible apply startPeers_keeps)
      | (with_reducible apply startHost_keeps)
      | (with_reducible apply startStack_keeps)
      | (with_reducible apply startFrames_keeps)
      | (with_reducible apply applyRepair_keeps)
      | (with_reducible apply startRow_keeps)
      | (with_reducible apply startFigures_keeps)
      | (with_reducible apply startControl_keeps)
      | (with_reducible apply startClusters_keeps)
      | (with_reducible refine Keeps.foldl ?_ ?_)
      | intro _
      | dsimp only
      | split

theorem readyPower_keeps {z : State} {M : List Part} {s : State} (hz : Keeps M z s) (hpwr : Part.pwr ∈ M) : Keeps M z (readyPower s) := by
  unfold readyPower
  repeat'
    first
      | with_reducible assumption
      | (with_reducible apply modGroup_keeps)
      | (with_reducible refine Keeps.foldl ?_ ?_)
      | intro _
      | dsimp only
      | split
      | (with_reducible refine Keeps.putPwr ?_ hpwr)

theorem readyRemount_keeps {z : State} {M : List Part} {s : State} (hz : Keeps M z s) (hpdk : Part.pdk ∈ M) (hclu : Part.clu ∈ M) (hpwr : Part.pwr ∈ M) (hflt : Part.flt ∈ M) (hmeter : Part.meter ∈ M) : Keeps M z (readyRemount s) := by
  unfold readyRemount
  repeat'
    first
      | with_reducible assumption
      | (with_reducible apply startRemount_keeps)
      | (with_reducible apply capOpen_keeps)
      | (with_reducible apply makeAbsent_keeps)
      | (with_reducible refine Keeps.foldl ?_ ?_)
      | intro _
      | dsimp only
      | split

theorem enterReady_keeps {z : State} {M : List Part} {s : State} (hz : Keeps M z s) (hctl : Part.ctl ∈ M) (hhost : Part.host ∈ M) (hreins : Part.reins ∈ M) (hpdk : Part.pdk ∈ M) (hclu : Part.clu ∈ M) (hpwr : Part.pwr ∈ M) (hflt : Part.flt ∈ M) (hpeers : Part.peers ∈ M) (hmeter : Part.meter ∈ M) (hfree : Part.free ∈ M) : Keeps M z (enterReady s) := by
  unfold enterReady
  repeat'
    first
      | with_reducible assumption
      | (with_reducible apply postFault_keeps)
      | (with_reducible apply post_keeps)
      | (with_reducible apply modReins_keeps)
      | (with_reducible apply helloAll_keeps)
      | (with_reducible apply readyRemount_keeps)
      | (with_reducible apply readyPower_keeps)
      | (with_reducible refine Keeps.foldl ?_ ?_)
      | intro _
      | dsimp only
      | split
      | (with_reducible refine Keeps.putCtl ?_ rfl hctl)

theorem loadEnds_keeps {z : State} {M : List Part} {s : State} {result : Nat} {phase : Nat} (hz : Keeps M z s) (hctl : Part.ctl ∈ M) : Keeps M z (loadEnds s result phase) := by
  unfold loadEnds
  repeat'
    first
      | with_reducible assumption
      | dsimp only
      | split
      | (with_reducible refine Keeps.putCtl ?_ rfl hctl)

theorem loadWith_keeps {z : State} {M : List Part} {s : State} {q : Option (List Byte)} {f : List Byte → State} (hz : Keeps M z s) (hf : ∀ a, Keeps M z (f a)) (hctl : Part.ctl ∈ M) : Keeps M z (loadWith s q f) := by
  unfold loadWith
  repeat'
    first
      | with_reducible assumption
      | (with_reducible apply loadEnds_keeps)
      | (with_reducible apply hf)
      | dsimp only
      | split

theorem stageBlock_keeps {z : State} {M : List Part} {s : State} {l : List Byte} (hz : Keeps M z s) (hctl : Part.ctl ∈ M) (hflash : Part.flash ∈ M) (hpdk : Part.pdk ∈ M) : Keeps M z (stageBlock s l) := by
  unfold stageBlock
  dsimp only
  split
  · exact loadEnds_keeps hz hctl
  split
  · exact loadEnds_keeps hz hctl
  split
  · exact loadEnds_keeps hz hctl
  split
  · exact loadEnds_keeps hz hctl
  refine post_keeps (loadEnds_keeps ?_ hctl) hpdk
  have k : Keeps M z { s with flash := if s.ctl.runningB then { s.flash with slotA := cellsAt 0 l } else { s.flash with slotB := cellsAt 0 l } } := by
    split
    · exact Keeps.storeFlash hz (fun _ => cellsAt_wf 0 l) id hflash
    · exact Keeps.storeFlash hz id (fun _ => cellsAt_wf 0 l) hflash
  exact k.trans ⟨rfl, fun m => ⟨m.1, m.2.1, m.2.2.1, m.2.2.2.1, m.2.2.2.2.1, m.2.2.2.2.2⟩, SameBut.lit (.inl hctl) (.inl hflash) (.inr rfl) (.inr rfl) (.inr rfl) (.inr rfl) (.inr rfl) (.inr rfl) (.inr rfl) (.inr rfl) (.inr rfl) (.inr rfl) (.inr rfl) (.inr rfl) (.inr rfl) (.inr rfl)⟩

theorem loadConfig_keeps {z : State} {M : List Part} {s : State} (hz : Keeps M z s) (hctl : Part.ctl ∈ M) (hflash : Part.flash ∈ M) (hpdk : Part.pdk ∈ M) : Keeps M z (loadConfig s) := by
  unfold loadConfig
  exact loadWith_keeps hz (fun l => stageBlock_keeps hz hctl hflash hpdk) hctl

theorem stageImage_keeps {z : State} {M : List Part} {s : State} {changed : Bool} {l : List Byte} (hz : Keeps M z s) (hctl : Part.ctl ∈ M) (hflash : Part.flash ∈ M) (hpdk : Part.pdk ∈ M) : Keeps M z (stageImage s changed l) := by
  unfold stageImage
  repeat'
    first
      | with_reducible assumption
      | (with_reducible apply loadEnds_keeps)
      | (with_reducible apply postFrom_keeps)
      | dsimp only
      | split
      | (with_reducible refine Keeps.putCtl ?_ rfl hctl)
      | (with_reducible refine Keeps.putFlash ?_ rfl rfl hflash)
      | (with_reducible refine Keeps.putCtlFlash ?_ rfl rfl rfl hctl hflash)

theorem loadImage_keeps {z : State} {M : List Part} {s : State} {changed : Bool} (hz : Keeps M z s) (hctl : Part.ctl ∈ M) (hflash : Part.flash ∈ M) (hpdk : Part.pdk ∈ M) : Keeps M z (loadImage s changed) := by
  unfold loadImage
  exact loadWith_keeps hz (fun h => loadWith_keeps hz (fun l => stageImage_keeps hz hctl hflash hpdk) hctl) hctl

theorem writeLoadCmd_keeps {z : State} {M : List Part} {s : State} {v : Nat} {changed : Bool} (hz : Keeps M z s) (hctl : Part.ctl ∈ M) (hflash : Part.flash ∈ M) (hpdk : Part.pdk ∈ M) : Keeps M z (writeLoadCmd s v changed) := by
  unfold writeLoadCmd
  repeat'
    first
      | with_reducible assumption
      | (with_reducible apply loadConfig_keeps)
      | (with_reducible apply loadImage_keeps)
      | dsimp only
      | split
      | (with_reducible refine Keeps.putCtl ?_ rfl hctl)

theorem modMeter_keeps {z : State} {M : List Part} {s : State} {f : Meter → Meter} (hz : Keeps M z s) (hmeter : Part.meter ∈ M) : Keeps M z (modMeter s f) := by
  unfold modMeter
  repeat'
    first
      | with_reducible assumption
      | dsimp only
      | split
      | (with_reducible refine Keeps.putMeter ?_ hmeter)

theorem closeInterval_keeps {z : State} {M : List Part} {s : State} {dieClock : Nat} {e : Nat} {vmin : Nat} {vmax : Nat} {rnd : List Byte} {partial_ : Bool} (hz : Keeps M z s) (hmeter : Part.meter ∈ M) : Keeps M z (closeInterval s dieClock e vmin vmax rnd partial_) := by
  unfold closeInterval
  repeat'
    first
      | with_reducible assumption
      | dsimp only
      | split
      | (with_reducible refine Keeps.putMeter ?_ hmeter)

theorem linkHeard_keeps {z : State} {M : List Part} {s : State} (hz : Keeps M z s) (hpdk : Part.pdk ∈ M) (hmeter : Part.meter ∈ M) : Keeps M z (linkHeard s) := by
  unfold linkHeard
  repeat'
    first
      | with_reducible assumption
      | (with_reducible apply post_keeps)
      | (with_reducible apply modMeter_keeps)
      | dsimp only
      | split

theorem writeMod_keeps {z : State} {M : List Part} {s : State} {off : Nat} {v : Nat} {who : Who} (hz : Keeps M z s) (hctl : Part.ctl ∈ M) (hflash : Part.flash ∈ M) (hdisp : Part.disp ∈ M) (hpdk : Part.pdk ∈ M) (hhbm : Part.hbm ∈ M) (hpeers : Part.peers ∈ M) : Keeps M z (writeMod s off v who) := by
  unfold writeMod
  repeat'
    first
      | with_reducible assumption
      | (with_reducible apply setSlot_keeps)
      | (with_reducible apply writeJobCtrl_keeps)
      | (with_reducible apply tlbInvalidate_keeps)
      | (with_reducible apply writeLoadCmd_keeps)
      | dsimp only
      | split
      | (with_reducible refine Keeps.putCtl ?_ rfl hctl)
      | (with_reducible refine Keeps.putDisp ?_ hdisp)

theorem writeCluster_keeps {z : State} {M : List Part} {s : State} {p : Nat} {r : Nat} {v : Nat} (hz : Keeps M z s) (hclu : Part.clu ∈ M) : Keeps M z (writeCluster s p r v) := by
  unfold writeCluster
  repeat'
    first
      | with_reducible assumption
      | (with_reducible apply modClu_keeps)
      | (with_reducible apply tallyActive_keeps)
      | intro _
      | dsimp only
      | split

theorem writeStack_keeps {z : State} {M : List Part} {s : State} {k : Nat} {r : Nat} {v : Nat} (hz : Keeps M z s) (hhbm : Part.hbm ∈ M) : Keeps M z (writeStack s k r v) := by
  unfold writeStack
  repeat'
    first
      | with_reducible assumption
      | dsimp only
      | split
      | (with_reducible refine Keeps.putHbm ?_ rfl rfl hhbm)

theorem writePrt_keeps {z : State} {M : List Part} {s : State} {x : Nat} {v : Nat} {who : Who} (hz : Keeps M z s) (hhost : Part.host ∈ M) (hdisp : Part.disp ∈ M) (hpdk : Part.pdk ∈ M) (hpeers : Part.peers ∈ M) : Keeps M z (writePrt s x v who) := by
  unfold writePrt
  repeat'
    first
      | with_reducible assumption
      | (with_reducible apply writeHostPath_keeps)
      | (with_reducible apply modHost_keeps)
      | (with_reducible apply modPeerPort_keeps)
      | (with_reducible apply disable_keeps)
      | dsimp only
      | split
      | (with_reducible refine Keeps.putPeers ?_ hpeers)

theorem writeRn_keeps {z : State} {M : List Part} {s : State} {x : Nat} {v : Nat} (hz : Keeps M z s) (hdisp : Part.disp ∈ M) (hreins : Part.reins ∈ M) : Keeps M z (writeRn s x v) := by
  unfold writeRn
  repeat'
    first
      | with_reducible assumption
      | (with_reducible apply modReins_keeps)
      | (with_reducible apply resetCtr_keeps)
      | dsimp only
      | split

theorem writePdk_keeps {z : State} {M : List Part} {s : State} {x : Nat} {v : Nat} (hz : Keeps M z s) (hdisp : Part.disp ∈ M) (hpdk : Part.pdk ∈ M) : Keeps M z (writePdk s x v) := by
  unfold writePdk
  repeat'
    first
      | with_reducible assumption
      | (with_reducible apply flushQueue_keeps)
      | dsimp only
      | split
      | (with_reducible refine Keeps.putPdk ?_ hpdk)

theorem writeStretch_keeps {z : State} {M : List Part} {s : State} {g : Nat} {v : Nat} (hz : Keeps M z s) (hpwr : Part.pwr ∈ M) : Keeps M z (writeStretch s g v) := by
  unfold writeStretch
  repeat'
    first
      | with_reducible assumption
      | (with_reducible apply modGroup_keeps)
      | dsimp only
      | split

theorem writePwr_keeps {z : State} {M : List Part} {s : State} {x : Nat} {v : Nat} (hz : Keeps M z s) (hpwr : Part.pwr ∈ M) : Keeps M z (writePwr s x v) := by
  unfold writePwr
  repeat'
    first
      | with_reducible assumption
      | (with_reducible apply writeCap_keeps)
      | (with_reducible apply writeStretch_keeps)
      | dsimp only
      | split
      | (with_reducible refine Keeps.putPwr ?_ hpwr)

theorem writeFlt_keeps {z : State} {M : List Part} {s : State} {x : Nat} {v : Nat} {who : Who} (hz : Keeps M z s) (hdisp : Part.disp ∈ M) (hclu : Part.clu ∈ M) (hflt : Part.flt ∈ M) (hpeers : Part.peers ∈ M) : Keeps M z (writeFlt s x v who) := by
  unfold writeFlt
  repeat'
    first
      | with_reducible assumption
      | (with_reducible apply writeCluCmd_keeps)
      | dsimp only
      | split
      | (with_reducible refine Keeps.putClu ?_ rfl hclu)
      | (with_reducible refine Keeps.putFlt ?_ hflt)

theorem writeDbg_keeps {z : State} {M : List Part} {s : State} {x : Nat} {v : Nat} (hz : Keeps M z s) (hclu : Part.clu ∈ M) : Keeps M z (writeDbg s x v) := by
  unfold writeDbg
  repeat'
    first
      | with_reducible assumption
      | (with_reducible apply writeYarrow_keeps)
      | dsimp only
      | split
      | (with_reducible refine Keeps.putClu ?_ rfl hclu)

theorem writeReg_keeps {z : State} {M : List Part} {s : State} {off : Nat} {v : Nat} {who : Who} (hz : Keeps M z s) (hctl : Part.ctl ∈ M) (hflash : Part.flash ∈ M) (hhost : Part.host ∈ M) (hdisp : Part.disp ∈ M) (hreins : Part.reins ∈ M) (hpdk : Part.pdk ∈ M) (hclu : Part.clu ∈ M) (hhbm : Part.hbm ∈ M) (hpwr : Part.pwr ∈ M) (hflt : Part.flt ∈ M) (hpeers : Part.peers ∈ M) : Keeps M z (writeReg s off v who) := by
  unfold writeReg
  repeat'
    first
      | with_reducible assumption
      | (with_reducible apply writeMod_keeps)
      | (with_reducible apply writeCluster_keeps)
      | (with_reducible apply writeStack_keeps)
      | (with_reducible apply writePrt_keeps)
      | (with_reducible apply writeRn_keeps)
      | (with_reducible apply writePdk_keeps)
      | (with_reducible apply writePwr_keeps)
      | (with_reducible apply writeFlt_keeps)
      | (with_reducible apply writeDbg_keeps)
      | dsimp only
      | split

theorem actMgmtRead_keeps {z : State} {M : List Part} {seq : Nat} {s : State} {se : Session} {body : List Byte} (hz : Keeps M z s) (hhost : Part.host ∈ M) (hpeers : Part.peers ∈ M) (hmeter : Part.meter ∈ M) : Keeps M z (actMgmtRead seq s se body) := by
  unfold actMgmtRead
  repeat'
    first
      | with_reducible assumption
      | (with_reducible apply sendNack_keeps)
      | (with_reducible apply sendSeq_keeps)
      | dsimp only
      | split

theorem actMgmtWrite_keeps {z : State} {M : List Part} {seq : Nat} {s : State} {se : Session} {body : List Byte} (hz : Keeps M z s) (hctl : Part.ctl ∈ M) (hflash : Part.flash ∈ M) (hhost : Part.host ∈ M) (hdisp : Part.disp ∈ M) (hreins : Part.reins ∈ M) (hpdk : Part.pdk ∈ M) (hclu : Part.clu ∈ M) (hhbm : Part.hbm ∈ M) (hpwr : Part.pwr ∈ M) (hflt : Part.flt ∈ M) (hpeers : Part.peers ∈ M) (hmeter : Part.meter ∈ M) : Keeps M z (actMgmtWrite seq s se body) := by
  unfold actMgmtWrite
  repeat'
    first
      | with_reducible assumption
      | (with_reducible apply lateLanded_keeps)
      | (with_reducible apply sendNack_keeps)
      | (with_reducible apply writeReg_keeps)
      | (with_reducible apply disableAck_keeps)
      | (with_reducible refine Keeps.foldl ?_ ?_)
      | intro _
      | dsimp only
      | split

theorem actAttest_keeps {z : State} {M : List Part} {rnd : List Byte} {seq : Nat} {s : State} {se : Session} {body : List Byte} (hz : Keeps M z s) (hhost : Part.host ∈ M) (hpeers : Part.peers ∈ M) (hsec : Part.sec ∈ M) (hmeter : Part.meter ∈ M) : Keeps M z (actAttest rnd seq s se body) := by
  unfold actAttest
  repeat'
    first
      | with_reducible assumption
      | (with_reducible apply sendNack_keeps)
      | (with_reducible apply sendSeq_keeps)
      | dsimp only
      | split
      | (with_reducible refine Keeps.putSec ?_ hsec)

theorem monError_keeps {z : State} {M : List Part} {s : State} {why : String} (hz : Keeps M z s) (hkyend : Part.kyend ∈ M) : Keeps M z (monError s why) := by
  unfold monError
  repeat'
    first
      | with_reducible assumption
      | (with_reducible apply kyendPrompt_keeps)
      | (with_reducible apply kyendSay_keeps)
      | dsimp only
      | split

theorem monPrint_keeps {z : State} {M : List Part} {s : State} {l : List String} (hz : Keeps M z s) (hkyend : Part.kyend ∈ M) : Keeps M z (monPrint s l) := by
  unfold monPrint
  repeat'
    first
      | with_reducible assumption
      | (with_reducible apply kyendPrompt_keeps)
      | (with_reducible apply kyendSay_keeps)
      | dsimp only
      | split

theorem monFull_keeps {z : State} {M : List Part} {s : State} {l : List String} (hz : Keeps M z s) (hkyend : Part.kyend ∈ M) : Keeps M z (monFull s l) := by
  unfold monFull
  repeat'
    first
      | with_reducible assumption
      | (with_reducible apply monError_keeps)
      | (with_reducible apply monPrint_keeps)
      | dsimp only
      | split

theorem monDev_keeps {z : State} {M : List Part} {s : State} {f : State → State} (hz : Keeps M z s) (hf : ∀ a, Keeps M z a → Keeps M z (f a)) (hkyend : Part.kyend ∈ M) : Keeps M z (monDev s f) := by
  unfold monDev
  repeat'
    first
      | with_reducible assumption
      | (with_reducible apply monError_keeps)
      | (with_reducible apply hf)
      | dsimp only
      | split

theorem monHelp_keeps {z : State} {M : List Part} {s : State} (hz : Keeps M z s) (hkyend : Part.kyend ∈ M) : Keeps M z (monHelp s) := by
  unfold monHelp
  repeat'
    first
      | with_reducible assumption
      | (with_reducible apply monPrint_keeps)
      | dsimp only
      | split

theorem monId_keeps {z : State} {M : List Part} {s : State} (hz : Keeps M z s) (hkyend : Part.kyend ∈ M) : Keeps M z (monId s) := by
  unfold monId
  repeat'
    first
      | with_reducible assumption
      | (with_reducible apply monPrint_keeps)
      | dsimp only
      | split

theorem monState_keeps {z : State} {M : List Part} {s : State} (hz : Keeps M z s) (hkyend : Part.kyend ∈ M) : Keeps M z (monState s) := by
  unfold monState
  repeat'
    first
      | with_reducible assumption
      | (with_reducible apply monPrint_keeps)
      | dsimp only
      | split

theorem monClusters_keeps {z : State} {M : List Part} {s : State} (hz : Keeps M z s) (hkyend : Part.kyend ∈ M) : Keeps M z (monClusters s) := by
  unfold monClusters
  repeat'
    first
      | with_reducible assumption
      | (with_reducible apply monFull_keeps)
      | dsimp only
      | split

theorem monClustersGroup_keeps {z : State} {M : List Part} {s : State} {g : Nat} (hz : Keeps M z s) (hkyend : Part.kyend ∈ M) : Keeps M z (monClustersGroup s g) := by
  unfold monClustersGroup
  repeat'
    first
      | with_reducible assumption
      | (with_reducible apply monError_keeps)
      | (with_reducible apply monFull_keeps)
      | dsimp only
      | split

theorem monHbm_keeps {z : State} {M : List Part} {s : State} (hz : Keeps M z s) (hkyend : Part.kyend ∈ M) : Keeps M z (monHbm s) := by
  unfold monHbm
  repeat'
    first
      | with_reducible assumption
      | (with_reducible apply monFull_keeps)
      | dsimp only
      | split

theorem monPorts_keeps {z : State} {M : List Part} {s : State} (hz : Keeps M z s) (hkyend : Part.kyend ∈ M) : Keeps M z (monPorts s) := by
  unfold monPorts
  repeat'
    first
      | with_reducible assumption
      | (with_reducible apply monFull_keeps)
      | dsimp only
      | split

theorem monTemps_keeps {z : State} {M : List Part} {s : State} (hz : Keeps M z s) (hkyend : Part.kyend ∈ M) : Keeps M z (monTemps s) := by
  unfold monTemps
  repeat'
    first
      | with_reducible assumption
      | (with_reducible apply monPrint_keeps)
      | dsimp only
      | split

theorem monPower_keeps {z : State} {M : List Part} {s : State} (hz : Keeps M z s) (hkyend : Part.kyend ∈ M) : Keeps M z (monPower s) := by
  unfold monPower
  repeat'
    first
      | with_reducible assumption
      | (with_reducible apply monPrint_keeps)
      | dsimp only
      | split

theorem monTime_keeps {z : State} {M : List Part} {s : State} (hz : Keeps M z s) (hkyend : Part.kyend ∈ M) : Keeps M z (monTime s) := by
  unfold monTime
  repeat'
    first
      | with_reducible assumption
      | (with_reducible apply monFull_keeps)
      | dsimp only
      | split

theorem monOwner_keeps {z : State} {M : List Part} {s : State} (hz : Keeps M z s) (hkyend : Part.kyend ∈ M) : Keeps M z (monOwner s) := by
  unfold monOwner
  repeat'
    first
      | with_reducible assumption
      | (with_reducible apply monFull_keeps)
      | dsimp only
      | split

theorem monLog_keeps {z : State} {M : List Part} {s : State} {n : Nat} (hz : Keeps M z s) (hkyend : Part.kyend ∈ M) : Keeps M z (monLog s n) := by
  unfold monLog
  repeat'
    first
      | with_reducible assumption
      | (with_reducible apply monError_keeps)
      | (with_reducible apply monPrint_keeps)
      | dsimp only
      | split

theorem monMeter_keeps {z : State} {M : List Part} {s : State} (hz : Keeps M z s) (hkyend : Part.kyend ∈ M) : Keeps M z (monMeter s) := by
  unfold monMeter
  repeat'
    first
      | with_reducible assumption
      | (with_reducible apply monFull_keeps)
      | dsimp only
      | split

theorem monPeek_keeps {z : State} {M : List Part} {s : State} {off : Nat} {n : Nat} (hz : Keeps M z s) (hkyend : Part.kyend ∈ M) : Keeps M z (monPeek s off n) := by
  unfold monPeek
  repeat'
    first
      | with_reducible assumption
      | (with_reducible apply monError_keeps)
      | (with_reducible apply monPrint_keeps)
      | dsimp only
      | split

theorem monPoke_keeps {z : State} {M : List Part} {s : State} {off : Nat} {v : Nat} (hz : Keeps M z s) (hctl : Part.ctl ∈ M) (hflash : Part.flash ∈ M) (hhost : Part.host ∈ M) (hdisp : Part.disp ∈ M) (hreins : Part.reins ∈ M) (hpdk : Part.pdk ∈ M) (hclu : Part.clu ∈ M) (hhbm : Part.hbm ∈ M) (hpwr : Part.pwr ∈ M) (hflt : Part.flt ∈ M) (hpeers : Part.peers ∈ M) (hkyend : Part.kyend ∈ M) : Keeps M z (monPoke s off v) := by
  unfold monPoke
  repeat'
    first
      | with_reducible assumption
      | (with_reducible apply monDev_keeps)
      | (with_reducible apply monError_keeps)
      | (with_reducible apply writeReg_keeps)
      | (with_reducible apply monPrint_keeps)
      | intro _
      | dsimp only
      | split

theorem monTrace_keeps {z : State} {M : List Part} {s : State} {mask : Option Nat} (hz : Keeps M z s) (hctl : Part.ctl ∈ M) (hflash : Part.flash ∈ M) (hhost : Part.host ∈ M) (hdisp : Part.disp ∈ M) (hreins : Part.reins ∈ M) (hpdk : Part.pdk ∈ M) (hclu : Part.clu ∈ M) (hhbm : Part.hbm ∈ M) (hpwr : Part.pwr ∈ M) (hflt : Part.flt ∈ M) (hpeers : Part.peers ∈ M) (hkyend : Part.kyend ∈ M) : Keeps M z (monTrace s mask) := by
  unfold monTrace
  repeat'
    first
      | with_reducible assumption
      | (with_reducible apply monDev_keeps)
      | (with_reducible apply monPrint_keeps)
      | (with_reducible apply monError_keeps)
      | (with_reducible apply writeReg_keeps)
      | intro _
      | dsimp only
      | split

theorem monYarrow_keeps {z : State} {M : List Part} {s : State} {p : Nat} (hz : Keeps M z s) (hctl : Part.ctl ∈ M) (hflash : Part.flash ∈ M) (hhost : Part.host ∈ M) (hdisp : Part.disp ∈ M) (hreins : Part.reins ∈ M) (hpdk : Part.pdk ∈ M) (hclu : Part.clu ∈ M) (hhbm : Part.hbm ∈ M) (hpwr : Part.pwr ∈ M) (hflt : Part.flt ∈ M) (hpeers : Part.peers ∈ M) (hkyend : Part.kyend ∈ M) : Keeps M z (monYarrow s p) := by
  unfold monYarrow
  repeat'
    first
      | with_reducible assumption
      | (with_reducible apply monDev_keeps)
      | (with_reducible apply monError_keeps)
      | (with_reducible apply writeReg_keeps)
      | intro _
      | dsimp only
      | split
      | (with_reducible refine Keeps.putKyend ?_ hkyend)

theorem monTake_keeps {z : State} {M : List Part} {s : State} {f : State → State} (hz : Keeps M z s) (hf : ∀ a, Keeps M z a → Keeps M z (f a)) : Keeps M z (monTake s f) := by
  unfold monTake
  repeat'
    first
      | with_reducible assumption
      | (with_reducible apply hf)
      | dsimp only
      | split

theorem badArgument_keeps {z : State} {M : List Part} {s : State} (hz : Keeps M z s) (hkyend : Part.kyend ∈ M) : Keeps M z (badArgument s) := by
  unfold badArgument
  repeat'
    first
      | with_reducible assumption
      | (with_reducible apply monError_keeps)
      | dsimp only
      | split

theorem runCommand_keeps {z : State} {M : List Part} {s : State} {cmd : List Nat} {args : List (List Nat)} (hz : Keeps M z s) (hctl : Part.ctl ∈ M) (hflash : Part.flash ∈ M) (hhost : Part.host ∈ M) (hdisp : Part.disp ∈ M) (hreins : Part.reins ∈ M) (hpdk : Part.pdk ∈ M) (hclu : Part.clu ∈ M) (hhbm : Part.hbm ∈ M) (hpwr : Part.pwr ∈ M) (hflt : Part.flt ∈ M) (hpeers : Part.peers ∈ M) (hkyend : Part.kyend ∈ M) : Keeps M z (runCommand s cmd args) := by
  unfold runCommand
  repeat'
    first
      | with_reducible assumption
      | (with_reducible apply monHelp_keeps)
      | (with_reducible apply badArgument_keeps)
      | (with_reducible apply monId_keeps)
      | (with_reducible apply monState_keeps)
      | (with_reducible apply monClusters_keeps)
      | (with_reducible apply monClustersGroup_keeps)
      | (with_reducible apply monHbm_keeps)
      | (with_reducible apply monPorts_keeps)
      | (with_reducible apply monTemps_keeps)
      | (with_reducible apply monPower_keeps)
      | (with_reducible apply monTime_keeps)
      | (with_reducible apply monOwner_keeps)
      | (with_reducible apply monLog_keeps)
      | (with_reducible apply monMeter_keeps)
      | (with_reducible apply monPeek_keeps)
      | (with_reducible apply monPoke_keeps)
      | (with_reducible apply monTrace_keeps)
      | (with_reducible apply monYarrow_keeps)
      | (with_reducible apply monError_keeps)
      | (with_reducible refine Keeps.ite ?_ ?_)
      | dsimp only
      | split

theorem runLine_keeps {z : State} {M : List Part} {s : State} {l : List Nat} (hz : Keeps M z s) (hctl : Part.ctl ∈ M) (hflash : Part.flash ∈ M) (hhost : Part.host ∈ M) (hdisp : Part.disp ∈ M) (hreins : Part.reins ∈ M) (hpdk : Part.pdk ∈ M) (hclu : Part.clu ∈ M) (hhbm : Part.hbm ∈ M) (hpwr : Part.pwr ∈ M) (hflt : Part.flt ∈ M) (hpeers : Part.peers ∈ M) (hkyend : Part.kyend ∈ M) : Keeps M z (runLine s l) := by
  unfold runLine
  repeat'
    first
      | with_reducible assumption
      | (with_reducible apply kyendPrompt_keeps)
      | (with_reducible apply runCommand_keeps)
      | dsimp only
      | split

theorem takeCharacter_keeps {z : State} {M : List Part} {s : State} {c : Nat} (hz : Keeps M z s) (hctl : Part.ctl ∈ M) (hflash : Part.flash ∈ M) (hhost : Part.host ∈ M) (hdisp : Part.disp ∈ M) (hreins : Part.reins ∈ M) (hpdk : Part.pdk ∈ M) (hclu : Part.clu ∈ M) (hhbm : Part.hbm ∈ M) (hpwr : Part.pwr ∈ M) (hflt : Part.flt ∈ M) (hpeers : Part.peers ∈ M) (hkyend : Part.kyend ∈ M) : Keeps M z (takeCharacter s c) := by
  unfold takeCharacter
  repeat'
    first
      | with_reducible assumption
      | (with_reducible apply kyendSay_keeps)
      | (with_reducible apply runLine_keeps)
      | dsimp only
      | split
      | (with_reducible refine Keeps.putKyend ?_ hkyend)

end Sys2Proof.Laws
end

