-- ==== Sys2Proof/Laws/KeepsExec.lean ====
section
/-! SUPPORT. What every command keeps: the queue, and the canonical form of every memory. -/

set_option linter.unusedTactic false
set_option linter.unreachableTactic false

namespace Sys2Proof.Laws

open Sys2Proof.Machine Sys2Proof.Safety

theorem execHostFrameDiscard_keeps {z : State} {M : List Part} {t : Nat} {f : FrameInfo} {standby : Bool} {s : State} (hz : Keeps M z (atMt s t)) (hhost : Part.host ∈ M) (hpeers : Part.peers ∈ M) : OutKeeps M z (execHostFrameDiscard t f standby s) := by
  unfold execHostFrameDiscard
  repeat'
    first
      | with_reducible assumption
      | (with_reducible refine OutKeeps.next ?_)
      | (with_reducible apply modCtr_keeps)
      | dsimp only
      | split

theorem execArpRequest_keeps {z : State} {M : List Part} {t : Nat} {target : List Byte} {senderIp : List Byte} {senderMac : List Byte} {s : State} (hz : Keeps M z (atMt s t)) (hhost : Part.host ∈ M) (hpeers : Part.peers ∈ M) : OutKeeps M z (execArpRequest t target senderIp senderMac s) := by
  unfold execArpRequest
  repeat'
    first
      | with_reducible assumption
      | (with_reducible refine OutKeeps.next ?_)
      | (with_reducible apply countRx_keeps)
      | (with_reducible apply putSent_keeps)
      | (with_reducible apply noteReply_keeps)
      | dsimp only
      | split

theorem execArpReply_keeps {z : State} {M : List Part} {t : Nat} {ip : List Byte} {mac : List Byte} {s : State} (hz : Keeps M z (atMt s t)) (hhost : Part.host ∈ M) (hpeers : Part.peers ∈ M) : OutKeeps M z (execArpReply t ip mac s) := by
  unfold execArpReply
  repeat'
    first
      | with_reducible assumption
      | (with_reducible refine OutKeeps.next ?_)
      | (with_reducible apply resolveHop_keeps)
      | (with_reducible apply countRx_keeps)
      | dsimp only
      | split

theorem execNeighborSolicitation_keeps {z : State} {M : List Part} {t : Nat} {target : List Byte} {senderIp : List Byte} {senderMac : List Byte} {s : State} (hz : Keeps M z (atMt s t)) (hhost : Part.host ∈ M) (hpeers : Part.peers ∈ M) : OutKeeps M z (execNeighborSolicitation t target senderIp senderMac s) := by
  unfold execNeighborSolicitation
  repeat'
    first
      | with_reducible assumption
      | (with_reducible refine OutKeeps.next ?_)
      | (with_reducible apply countRx_keeps)
      | (with_reducible apply putSent_keeps)
      | (with_reducible apply noteReply_keeps)
      | dsimp only
      | split

theorem execEchoRequest_keeps {z : State} {M : List Part} {t : Nat} {dst : List Byte} {src : List Byte} {payload : List Byte} {s : State} (hz : Keeps M z (atMt s t)) (hhost : Part.host ∈ M) (hpeers : Part.peers ∈ M) : OutKeeps M z (execEchoRequest t dst src payload s) := by
  unfold execEchoRequest
  repeat'
    first
      | with_reducible assumption
      | (with_reducible refine OutKeeps.next ?_)
      | (with_reducible apply countRx_keeps)
      | (with_reducible apply putSent_keeps)
      | (with_reducible apply noteReply_keeps)
      | dsimp only
      | split

theorem execNextHopRefresh_keeps {z : State} {M : List Part} {t : Nat} {ip : List Byte} {s : State} (hz : Keeps M z (atMt s t)) (hhost : Part.host ∈ M) (hpeers : Part.peers ∈ M) : OutKeeps M z (execNextHopRefresh t ip s) := by
  unfold execNextHopRefresh
  repeat'
    first
      | with_reducible assumption
      | (with_reducible refine OutKeeps.next ?_)
      | (with_reducible apply putSent_keeps)
      | dsimp only
      | split

theorem execPtpMessage_keeps {z : State} {M : List Part} {t : Nat} {offsetNs : Int} {s : State} (hz : Keeps M z (atMt s t)) (hclock : Part.clock ∈ M) (hpdk : Part.pdk ∈ M) : OutKeeps M z (execPtpMessage t offsetNs s) := by
  unfold execPtpMessage
  repeat'
    first
      | with_reducible assumption
      | (with_reducible refine OutKeeps.next ?_)
      | (with_reducible apply post_keeps)
      | dsimp only
      | split
      | (with_reducible refine Keeps.putClock ?_ hclock)

theorem execPtpLoss_keeps {z : State} {M : List Part} {t : Nat} {s : State} (hz : Keeps M z (atMt s t)) (hclock : Part.clock ∈ M) (hpdk : Part.pdk ∈ M) : OutKeeps M z (execPtpLoss t s) := by
  unfold execPtpLoss
  repeat'
    first
      | with_reducible assumption
      | (with_reducible refine OutKeeps.next ?_)
      | (with_reducible apply ptpHoldover_keeps)
      | dsimp only
      | split

theorem execPtpRecovery_keeps {z : State} {M : List Part} {t : Nat} {s : State} (hz : Keeps M z (atMt s t)) (hclock : Part.clock ∈ M) (hpdk : Part.pdk ∈ M) : OutKeeps M z (execPtpRecovery t s) := by
  unfold execPtpRecovery
  repeat'
    first
      | with_reducible assumption
      | (with_reducible refine OutKeeps.next ?_)
      | (with_reducible apply post_keeps)
      | dsimp only
      | split
      | (with_reducible refine Keeps.putClock ?_ hclock)

theorem execHostPathLoss_keeps {z : State} {M : List Part} {t : Nat} {path : Nat} {s : State} (hz : Keeps M z (atMt s t)) (hclock : Part.clock ∈ M) (hhost : Part.host ∈ M) (hpdk : Part.pdk ∈ M) (hflt : Part.flt ∈ M) (hpeers : Part.peers ∈ M) (hmeter : Part.meter ∈ M) : OutKeeps M z (execHostPathLoss t path s) := by
  unfold execHostPathLoss
  repeat'
    first
      | with_reducible assumption
      | (with_reducible refine OutKeeps.next ?_)
      | (with_reducible apply loseHostPath_keeps)
      | dsimp only
      | split

theorem execHostPathRetrain_keeps {z : State} {M : List Part} {t : Nat} {path : Nat} {s : State} (hz : Keeps M z (atMt s t)) (hhost : Part.host ∈ M) (hpdk : Part.pdk ∈ M) (hflt : Part.flt ∈ M) (hpeers : Part.peers ∈ M) (hmeter : Part.meter ∈ M) : OutKeeps M z (execHostPathRetrain t path s) := by
  unfold execHostPathRetrain
  repeat'
    first
      | with_reducible assumption
      | (with_reducible refine OutKeeps.next ?_)
      | (with_reducible apply modHost_keeps)
      | (with_reducible apply capClose_keeps)
      | (with_reducible apply postPath_keeps)
      | (with_reducible apply announcePath_keeps)
      | (with_reducible apply flushAll_keeps)
      | dsimp only
      | split

theorem execHostPathSwitch_keeps {z : State} {M : List Part} {t : Nat} {v : Nat} {s : State} (hz : Keeps M z (atMt s t)) (hhost : Part.host ∈ M) (hpdk : Part.pdk ∈ M) (hpeers : Part.peers ∈ M) : OutKeeps M z (execHostPathSwitch t v s) := by
  unfold execHostPathSwitch
  repeat'
    first
      | with_reducible assumption
      | (with_reducible refine OutKeeps.next ?_)
      | (with_reducible apply writeHostPath_keeps)
      | dsimp only
      | split

theorem execStandbyPathLoss_keeps {z : State} {M : List Part} {t : Nat} {s : State} (hz : Keeps M z (atMt s t)) (hhost : Part.host ∈ M) (hpdk : Part.pdk ∈ M) (hflt : Part.flt ∈ M) (hmeter : Part.meter ∈ M) : OutKeeps M z (execStandbyPathLoss t s) := by
  unfold execStandbyPathLoss
  repeat'
    first
      | with_reducible assumption
      | (with_reducible refine OutKeeps.next ?_)
      | (with_reducible apply loseStandby_keeps)
      | dsimp only
      | split

theorem execKeyInitHello_keeps {z : State} {M : List Part} {t : Nat} {d : Datagram} {nonce : List Byte} {s : State} (hz : Keeps M z (atMt s t)) (hhost : Part.host ∈ M) (hpeers : Part.peers ∈ M) : OutKeeps M z (execKeyInitHello t d nonce s) := by
  unfold execKeyInitHello
  repeat'
    first
      | with_reducible assumption
      | (with_reducible refine OutKeeps.next ?_)
      | (with_reducible apply countRx_keeps)
      | (with_reducible apply impDrop_keeps)
      | (with_reducible apply sendOpen_keeps)
      | (with_reducible apply modHost_keeps)
      | (with_reducible apply sendHelloParts_keeps)
      | dsimp only
      | split

theorem execKeyInitEncap_keeps {z : State} {M : List Part} {t : Nat} {d : Datagram} {s : State} (hz : Keeps M z (atMt s t)) (hhost : Part.host ∈ M) (hpeers : Part.peers ∈ M) : OutKeeps M z (execKeyInitEncap t d s) := by
  unfold execKeyInitEncap
  repeat'
    first
      | with_reducible assumption
      | (with_reducible refine OutKeeps.next ?_)
      | (with_reducible apply countRx_keeps)
      | (with_reducible apply impDrop_keeps)
      | (with_reducible apply sendOpen_keeps)
      | (with_reducible apply modHost_keeps)
      | (with_reducible apply closeSession_keeps)
      | (with_reducible apply sendPlain_keeps)
      | (with_reducible refine Keeps.foldl ?_ ?_)
      | intro _
      | dsimp only
      | split

theorem execKeyInitClose_keeps {z : State} {M : List Part} {t : Nat} {d : Datagram} {s : State} (hz : Keeps M z (atMt s t)) (hhost : Part.host ∈ M) (hpeers : Part.peers ∈ M) : OutKeeps M z (execKeyInitClose t d s) := by
  unfold execKeyInitClose
  repeat'
    first
      | with_reducible assumption
      | (with_reducible refine OutKeeps.next ?_)
      | (with_reducible apply sendPlain_keeps)
      | (with_reducible apply closeSession_keeps)
      | (with_reducible apply sendOpen_keeps)
      | (with_reducible apply receive_fst_keeps)
      | (with_reducible refine receive_keeps (by assumption) ?_ ?_ ?_)
      | dsimp only
      | split

theorem execSessionIdleTimeout_keeps {z : State} {M : List Part} {t : Nat} {session : Nat} {s : State} (hz : Keeps M z (atMt s t)) (hhost : Part.host ∈ M) (hpeers : Part.peers ∈ M) : OutKeeps M z (execSessionIdleTimeout t session s) := by
  unfold execSessionIdleTimeout
  repeat'
    first
      | with_reducible assumption
      | (with_reducible refine OutKeeps.next ?_)
      | (with_reducible apply closeSession_keeps)
      | dsimp only
      | split

theorem execAck_keeps {z : State} {M : List Part} {t : Nat} {lk : Link} {d : Datagram} {s : State} (hz : Keeps M z (atMt s t)) (hhost : Part.host ∈ M) (hpeers : Part.peers ∈ M) (hmeter : Part.meter ∈ M) : OutKeeps M z (execAck t lk d s) := by
  unfold execAck
  repeat'
    first
      | with_reducible assumption
      | (with_reducible refine OutKeeps.next ?_)
      | (with_reducible apply modSess_keeps)
      | (with_reducible apply flushHeld_keeps)
      | (with_reducible apply receive_fst_keeps)
      | (with_reducible refine receive_keeps (by assumption) ?_ ?_ ?_)
      | dsimp only
      | split

theorem execPing_keeps {z : State} {M : List Part} {t : Nat} {lk : Link} {d : Datagram} {s : State} (hz : Keeps M z (atMt s t)) (hhost : Part.host ∈ M) (hpeers : Part.peers ∈ M) : OutKeeps M z (execPing t lk d s) := by
  unfold execPing
  repeat'
    first
      | with_reducible assumption
      | (with_reducible refine OutKeeps.next ?_)
      | (with_reducible apply sendPlain_keeps)
      | (with_reducible apply receive_fst_keeps)
      | (with_reducible refine receive_keeps (by assumption) ?_ ?_ ?_)
      | dsimp only
      | split

theorem execRetransmitTimeout_keeps {z : State} {M : List Part} {t : Nat} {lk : Link} {session : Nat} {seq : Nat} {s : State} (hz : Keeps M z (atMt s t)) (hhost : Part.host ∈ M) (hpeers : Part.peers ∈ M) : OutKeeps M z (execRetransmitTimeout t lk session seq s) := by
  unfold execRetransmitTimeout
  repeat'
    first
      | with_reducible assumption
      | (with_reducible refine OutKeeps.next ?_)
      | (with_reducible apply transmit_keeps)
      | (with_reducible apply putSess_keeps)
      | dsimp only
      | split

theorem execMessageAbandon_keeps {z : State} {M : List Part} {t : Nat} {lk : Link} {session : Nat} {seq : Nat} {s : State} (hz : Keeps M z (atMt s t)) (hhost : Part.host ∈ M) (hpeers : Part.peers ∈ M) (hmeter : Part.meter ∈ M) : OutKeeps M z (execMessageAbandon t lk session seq s) := by
  unfold execMessageAbandon
  repeat'
    first
      | with_reducible assumption
      | (with_reducible refine OutKeeps.next ?_)
      | (with_reducible apply putSess_keeps)
      | (with_reducible apply sendNotice_keeps)
      | (with_reducible apply modHost_keeps)
      | (with_reducible apply flushHeld_keeps)
      | dsimp only
      | split

theorem execNoticeSend_keeps {z : State} {M : List Part} {t : Nat} {pool : Nat} {queue : Nat} {s : State} (hz : Keeps M z (atMt s t)) (hhost : Part.host ∈ M) (hpdk : Part.pdk ∈ M) (hpeers : Part.peers ∈ M) (hmeter : Part.meter ∈ M) : OutKeeps M z (execNoticeSend t pool queue s) := by
  unfold execNoticeSend
  repeat'
    first
      | with_reducible assumption
      | (with_reducible refine OutKeeps.next ?_)
      | (with_reducible apply modHost_keeps)
      | (with_reducible apply sendNotice_keeps)
      | (with_reducible apply setQueue_keeps)
      | dsimp only
      | split

theorem execClaim_keeps {z : State} {M : List Part} {t : Nat} {d : Datagram} {s : State} (hz : Keeps M z (atMt s t)) (hhost : Part.host ∈ M) (hpeers : Part.peers ∈ M) (hmeter : Part.meter ∈ M) : OutKeeps M z (execClaim t d s) := by
  unfold execClaim
  repeat'
    first
      | with_reducible assumption
      | (with_reducible refine OutKeeps.next ?_)
      | (with_reducible apply hostMessage_keeps)
      | (with_reducible apply actClaim_keeps)
      | intro _
      | dsimp only
      | split

theorem execElectionClose_keeps {z : State} {M : List Part} {t : Nat} {s : State} (hz : Keeps M z (atMt s t)) (hhost : Part.host ∈ M) (hpeers : Part.peers ∈ M) (hmeter : Part.meter ∈ M) : OutKeeps M z (execElectionClose t s) := by
  unfold execElectionClose
  repeat'
    first
      | with_reducible assumption
      | (with_reducible refine OutKeeps.next ?_)
      | (with_reducible apply closeElection_keeps)
      | dsimp only
      | split

theorem execLeaseRenew_keeps {z : State} {M : List Part} {t : Nat} {d : Datagram} {s : State} (hz : Keeps M z (atMt s t)) (hhost : Part.host ∈ M) (hpeers : Part.peers ∈ M) (hmeter : Part.meter ∈ M) : OutKeeps M z (execLeaseRenew t d s) := by
  unfold execLeaseRenew
  repeat'
    first
      | with_reducible assumption
      | (with_reducible refine OutKeeps.next ?_)
      | (with_reducible apply hostMessage_keeps)
      | (with_reducible apply actRenew_keeps)
      | intro _
      | dsimp only
      | split

theorem execLeaseExpiry_keeps {z : State} {M : List Part} {t : Nat} {s : State} (hz : Keeps M z (atMt s t)) (hhost : Part.host ∈ M) (hpdk : Part.pdk ∈ M) (hpeers : Part.peers ∈ M) : OutKeeps M z (execLeaseExpiry t s) := by
  unfold execLeaseExpiry
  repeat'
    first
      | with_reducible assumption
      | (with_reducible refine OutKeeps.next ?_)
      | (with_reducible apply post_keeps)
      | (with_reducible apply vacateBridle_keeps)
      | dsimp only
      | split

theorem execRelease_keeps {z : State} {M : List Part} {t : Nat} {d : Datagram} {s : State} (hz : Keeps M z (atMt s t)) (hhost : Part.host ∈ M) (hpeers : Part.peers ∈ M) (hmeter : Part.meter ∈ M) : OutKeeps M z (execRelease t d s) := by
  unfold execRelease
  repeat'
    first
      | with_reducible assumption
      | (with_reducible refine OutKeeps.next ?_)
      | (with_reducible apply hostMessage_keeps)
      | (with_reducible apply actRelease_keeps)
      | intro _
      | dsimp only
      | split

theorem execSlotAccess_keeps {z : State} {M : List Part} {t : Nat} {p : Nat} {frame : Nat} {slot : Nat} {a : SlotAccess} {upsets : List Upset} {s : State} (hz : Keeps M z (atMt s t)) (hdisp : Part.disp ∈ M) (hpdk : Part.pdk ∈ M) (hclu : Part.clu ∈ M) (hflt : Part.flt ∈ M) (hmeter : Part.meter ∈ M) : OutKeeps M z (execSlotAccess t p frame slot a upsets s) := by
  unfold execSlotAccess
  repeat'
    first
      | with_reducible assumption
      | (with_reducible refine OutKeeps.next ?_)
      | (with_reducible apply modClu_keeps)
      | (with_reducible apply noteReads_keeps)
      | (with_reducible apply addCause_keeps)
      | (with_reducible apply maskedWrite_keeps)
      | (with_reducible refine CluKeeps.foldl ?_ ?_)
      | intro _
      | dsimp only
      | split
  all_goals exact (congrArg Memory.wf (applyUpsets_bytes _ upsets)).trans (by assumption)

theorem execFarrierWriteBack_keeps {z : State} {M : List Part} {t : Nat} {p : Nat} {frame : Nat} {s : State} (hz : Keeps M z (atMt s t)) (hclu : Part.clu ∈ M) : OutKeeps M z (execFarrierWriteBack t p frame s) := by
  unfold execFarrierWriteBack
  repeat'
    first
      | with_reducible assumption
      | (with_reducible refine OutKeeps.next ?_)
      | (with_reducible apply setClu_keeps)
      | intro _
      | dsimp only
      | split
  all_goals exact rewriteWords_wf (by assumption)

theorem execScrubSweep_keeps {z : State} {M : List Part} {t : Nat} {p : Nat} {upsets : List Upset} {s : State} (hz : Keeps M z (atMt s t)) (hpdk : Part.pdk ∈ M) (hclu : Part.clu ∈ M) (hflt : Part.flt ∈ M) (hmeter : Part.meter ∈ M) : OutKeeps M z (execScrubSweep t p upsets s) := by
  unfold execScrubSweep
  repeat'
    first
      | with_reducible assumption
      | (with_reducible refine OutKeeps.next ?_)
      | (with_reducible apply setClu_keeps)
      | (with_reducible apply noteScrub_keeps)
      | (with_reducible apply noteReads_keeps)
      | (with_reducible refine Keeps.foldl ?_ ?_)
      | intro _
      | dsimp only
      | split
  all_goals exact (congrArg Memory.wf (applyUpsets_bytes _ upsets)).trans (by assumption)

theorem execRowMapOut_keeps {z : State} {M : List Part} {t : Nat} {p : Nat} {bank : Nat} {row : Nat} {s : State} (hz : Keeps M z (atMt s t)) (hflash : Part.flash ∈ M) (hdisp : Part.disp ∈ M) (hpdk : Part.pdk ∈ M) (hclu : Part.clu ∈ M) (hpwr : Part.pwr ∈ M) (hflt : Part.flt ∈ M) (hmeter : Part.meter ∈ M) : OutKeeps M z (execRowMapOut t p bank row s) := by
  unfold execRowMapOut
  repeat'
    first
      | with_reducible assumption
      | (with_reducible refine OutKeeps.next ?_)
      | (with_reducible apply declareFailed_keeps)
      | (with_reducible apply setClu_keeps)
      | (with_reducible apply postFrom_keeps)
      | intro _
      | dsimp only
      | split
      | (with_reducible refine Keeps.putFlash ?_ rfl rfl hflash)
  all_goals exact rewriteWord_wf (by assumption)

theorem execRepairAppend_keeps {z : State} {M : List Part} {t : Nat} {s : State} (hz : Keeps M z (atMt s t)) (hflash : Part.flash ∈ M) : OutKeeps M z (execRepairAppend t s) := by
  unfold execRepairAppend
  repeat'
    first
      | with_reducible assumption
      | (with_reducible refine OutKeeps.next ?_)
      | dsimp only
      | split
      | (with_reducible refine Keeps.putFlash ?_ rfl rfl hflash)

theorem execDenseMm_keeps {z : State} {M : List Part} {t : Nat} {wu : Nat} {s : State} (hz : Keeps M z (atMt s t)) (hdisp : Part.disp ∈ M) (hreins : Part.reins ∈ M) (hpdk : Part.pdk ∈ M) (hclu : Part.clu ∈ M) : OutKeeps M z (execDenseMm t wu s) := by
  unfold execDenseMm
  repeat'
    first
      | with_reducible assumption
      | (with_reducible refine OutKeeps.next ?_)
      | (with_reducible apply issueNext_keeps)
      | dsimp only
      | split

theorem execSpmm_keeps {z : State} {M : List Part} {t : Nat} {wu : Nat} {s : State} (hz : Keeps M z (atMt s t)) (hdisp : Part.disp ∈ M) (hreins : Part.reins ∈ M) (hpdk : Part.pdk ∈ M) (hclu : Part.clu ∈ M) : OutKeeps M z (execSpmm t wu s) := by
  unfold execSpmm
  repeat'
    first
      | with_reducible assumption
      | (with_reducible refine OutKeeps.next ?_)
      | (with_reducible apply issueNext_keeps)
      | dsimp only
      | split

theorem execSddmm_keeps {z : State} {M : List Part} {t : Nat} {wu : Nat} {s : State} (hz : Keeps M z (atMt s t)) (hdisp : Part.disp ∈ M) (hreins : Part.reins ∈ M) (hpdk : Part.pdk ∈ M) (hclu : Part.clu ∈ M) : OutKeeps M z (execSddmm t wu s) := by
  unfold execSddmm
  repeat'
    first
      | with_reducible assumption
      | (with_reducible refine OutKeeps.next ?_)
      | (with_reducible apply issueNext_keeps)
      | dsimp only
      | split

theorem execSpgemm_keeps {z : State} {M : List Part} {t : Nat} {wu : Nat} {s : State} (hz : Keeps M z (atMt s t)) (hdisp : Part.disp ∈ M) (hreins : Part.reins ∈ M) (hpdk : Part.pdk ∈ M) (hclu : Part.clu ∈ M) : OutKeeps M z (execSpgemm t wu s) := by
  unfold execSpgemm
  repeat'
    first
      | with_reducible assumption
      | (with_reducible refine OutKeeps.next ?_)
      | (with_reducible apply issueNext_keeps)
      | dsimp only
      | split

theorem execSpadd_keeps {z : State} {M : List Part} {t : Nat} {wu : Nat} {s : State} (hz : Keeps M z (atMt s t)) (hdisp : Part.disp ∈ M) (hreins : Part.reins ∈ M) (hpdk : Part.pdk ∈ M) (hclu : Part.clu ∈ M) : OutKeeps M z (execSpadd t wu s) := by
  unfold execSpadd
  repeat'
    first
      | with_reducible assumption
      | (with_reducible refine OutKeeps.next ?_)
      | (with_reducible apply issueNext_keeps)
      | dsimp only
      | split

theorem execGather_keeps {z : State} {M : List Part} {t : Nat} {wu : Nat} {s : State} (hz : Keeps M z (atMt s t)) (hdisp : Part.disp ∈ M) (hreins : Part.reins ∈ M) (hpdk : Part.pdk ∈ M) (hclu : Part.clu ∈ M) : OutKeeps M z (execGather t wu s) := by
  unfold execGather
  repeat'
    first
      | with_reducible assumption
      | (with_reducible refine OutKeeps.next ?_)
      | (with_reducible apply issueNext_keeps)
      | dsimp only
      | split

theorem execScatterAdd_keeps {z : State} {M : List Part} {t : Nat} {wu : Nat} {s : State} (hz : Keeps M z (atMt s t)) (hdisp : Part.disp ∈ M) (hreins : Part.reins ∈ M) (hpdk : Part.pdk ∈ M) (hclu : Part.clu ∈ M) : OutKeeps M z (execScatterAdd t wu s) := by
  unfold execScatterAdd
  repeat'
    first
      | with_reducible assumption
      | (with_reducible refine OutKeeps.next ?_)
      | (with_reducible apply issueNext_keeps)
      | dsimp only
      | split

theorem execEmbedBag_keeps {z : State} {M : List Part} {t : Nat} {wu : Nat} {s : State} (hz : Keeps M z (atMt s t)) (hdisp : Part.disp ∈ M) (hreins : Part.reins ∈ M) (hpdk : Part.pdk ∈ M) (hclu : Part.clu ∈ M) : OutKeeps M z (execEmbedBag t wu s) := by
  unfold execEmbedBag
  repeat'
    first
      | with_reducible assumption
      | (with_reducible refine OutKeeps.next ?_)
      | (with_reducible apply issueNext_keeps)
      | dsimp only
      | split

theorem execRoute_keeps {z : State} {M : List Part} {t : Nat} {wu : Nat} {s : State} (hz : Keeps M z (atMt s t)) (hdisp : Part.disp ∈ M) (hreins : Part.reins ∈ M) (hpdk : Part.pdk ∈ M) (hclu : Part.clu ∈ M) : OutKeeps M z (execRoute t wu s) := by
  unfold execRoute
  repeat'
    first
      | with_reducible assumption
      | (with_reducible refine OutKeeps.next ?_)
      | (with_reducible apply issueNext_keeps)
      | dsimp only
      | split

theorem execCombine_keeps {z : State} {M : List Part} {t : Nat} {wu : Nat} {s : State} (hz : Keeps M z (atMt s t)) (hdisp : Part.disp ∈ M) (hreins : Part.reins ∈ M) (hpdk : Part.pdk ∈ M) (hclu : Part.clu ∈ M) : OutKeeps M z (execCombine t wu s) := by
  unfold execCombine
  repeat'
    first
      | with_reducible assumption
      | (with_reducible refine OutKeeps.next ?_)
      | (with_reducible apply issueNext_keeps)
      | dsimp only
      | split

theorem execReduce_keeps {z : State} {M : List Part} {t : Nat} {wu : Nat} {s : State} (hz : Keeps M z (atMt s t)) (hdisp : Part.disp ∈ M) (hreins : Part.reins ∈ M) (hpdk : Part.pdk ∈ M) (hclu : Part.clu ∈ M) : OutKeeps M z (execReduce t wu s) := by
  unfold execReduce
  repeat'
    first
      | with_reducible assumption
      | (with_reducible refine OutKeeps.next ?_)
      | (with_reducible apply issueNext_keeps)
      | dsimp only
      | split

theorem execTopk_keeps {z : State} {M : List Part} {t : Nat} {wu : Nat} {s : State} (hz : Keeps M z (atMt s t)) (hdisp : Part.disp ∈ M) (hreins : Part.reins ∈ M) (hpdk : Part.pdk ∈ M) (hclu : Part.clu ∈ M) : OutKeeps M z (execTopk t wu s) := by
  unfold execTopk
  repeat'
    first
      | with_reducible assumption
      | (with_reducible refine OutKeeps.next ?_)
      | (with_reducible apply issueNext_keeps)
      | dsimp only
      | split

theorem execRowStats_keeps {z : State} {M : List Part} {t : Nat} {wu : Nat} {s : State} (hz : Keeps M z (atMt s t)) (hdisp : Part.disp ∈ M) (hreins : Part.reins ∈ M) (hpdk : Part.pdk ∈ M) (hclu : Part.clu ∈ M) : OutKeeps M z (execRowStats t wu s) := by
  unfold execRowStats
  repeat'
    first
      | with_reducible assumption
      | (with_reducible refine OutKeeps.next ?_)
      | (with_reducible apply issueNext_keeps)
      | dsimp only
      | split

theorem execConvert_keeps {z : State} {M : List Part} {t : Nat} {wu : Nat} {s : State} (hz : Keeps M z (atMt s t)) (hdisp : Part.disp ∈ M) (hreins : Part.reins ∈ M) (hpdk : Part.pdk ∈ M) (hclu : Part.clu ∈ M) : OutKeeps M z (execConvert t wu s) := by
  unfold execConvert
  repeat'
    first
      | with_reducible assumption
      | (with_reducible refine OutKeeps.next ?_)
      | (with_reducible apply issueNext_keeps)
      | dsimp only
      | split

theorem execTransposeCopy_keeps {z : State} {M : List Part} {t : Nat} {wu : Nat} {s : State} (hz : Keeps M z (atMt s t)) (hdisp : Part.disp ∈ M) (hreins : Part.reins ∈ M) (hpdk : Part.pdk ∈ M) (hclu : Part.clu ∈ M) : OutKeeps M z (execTransposeCopy t wu s) := by
  unfold execTransposeCopy
  repeat'
    first
      | with_reducible assumption
      | (with_reducible refine OutKeeps.next ?_)
      | (with_reducible apply issueNext_keeps)
      | dsimp only
      | split

theorem execCopy_keeps {z : State} {M : List Part} {t : Nat} {wu : Nat} {s : State} (hz : Keeps M z (atMt s t)) (hdisp : Part.disp ∈ M) (hreins : Part.reins ∈ M) (hpdk : Part.pdk ∈ M) (hclu : Part.clu ∈ M) : OutKeeps M z (execCopy t wu s) := by
  unfold execCopy
  repeat'
    first
      | with_reducible assumption
      | (with_reducible refine OutKeeps.next ?_)
      | (with_reducible apply issueNext_keeps)
      | dsimp only
      | split

theorem execFill_keeps {z : State} {M : List Part} {t : Nat} {wu : Nat} {s : State} (hz : Keeps M z (atMt s t)) (hdisp : Part.disp ∈ M) (hreins : Part.reins ∈ M) (hpdk : Part.pdk ∈ M) (hclu : Part.clu ∈ M) : OutKeeps M z (execFill t wu s) := by
  unfold execFill
  repeat'
    first
      | with_reducible assumption
      | (with_reducible refine OutKeeps.next ?_)
      | (with_reducible apply issueNext_keeps)
      | dsimp only
      | split

theorem execBarrier_keeps {z : State} {M : List Part} {t : Nat} {wu : Nat} {s : State} (hz : Keeps M z (atMt s t)) (hdisp : Part.disp ∈ M) (hreins : Part.reins ∈ M) (hpdk : Part.pdk ∈ M) (hclu : Part.clu ∈ M) : OutKeeps M z (execBarrier t wu s) := by
  unfold execBarrier
  repeat'
    first
      | with_reducible assumption
      | (with_reducible refine OutKeeps.next ?_)
      | (with_reducible apply issueNext_keeps)
      | dsimp only
      | split

theorem execSignal_keeps {z : State} {M : List Part} {t : Nat} {wu : Nat} {s : State} (hz : Keeps M z (atMt s t)) (hdisp : Part.disp ∈ M) (hreins : Part.reins ∈ M) (hpdk : Part.pdk ∈ M) (hclu : Part.clu ∈ M) : OutKeeps M z (execSignal t wu s) := by
  unfold execSignal
  repeat'
    first
      | with_reducible assumption
      | (with_reducible refine OutKeeps.next ?_)
      | (with_reducible apply issueNext_keeps)
      | dsimp only
      | split

theorem execWait_keeps {z : State} {M : List Part} {t : Nat} {wu : Nat} {s : State} (hz : Keeps M z (atMt s t)) (hdisp : Part.disp ∈ M) (hreins : Part.reins ∈ M) (hpdk : Part.pdk ∈ M) (hclu : Part.clu ∈ M) : OutKeeps M z (execWait t wu s) := by
  unfold execWait
  repeat'
    first
      | with_reducible assumption
      | (with_reducible refine OutKeeps.next ?_)
      | (with_reducible apply issueNext_keeps)
      | dsimp only
      | split

theorem execTicketLoop_keeps {z : State} {M : List Part} {t : Nat} {wu : Nat} {s : State} (hz : Keeps M z (atMt s t)) (hdisp : Part.disp ∈ M) (hreins : Part.reins ∈ M) (hpdk : Part.pdk ∈ M) (hclu : Part.clu ∈ M) : OutKeeps M z (execTicketLoop t wu s) := by
  unfold execTicketLoop
  repeat'
    first
      | with_reducible assumption
      | (with_reducible refine OutKeeps.next ?_)
      | (with_reducible apply issueNext_keeps)
      | dsimp only
      | split

theorem execPreload_keeps {z : State} {M : List Part} {t : Nat} {wu : Nat} {s : State} (hz : Keeps M z (atMt s t)) (hdisp : Part.disp ∈ M) (hreins : Part.reins ∈ M) (hpdk : Part.pdk ∈ M) (hclu : Part.clu ∈ M) : OutKeeps M z (execPreload t wu s) := by
  unfold execPreload
  repeat'
    first
      | with_reducible assumption
      | (with_reducible refine OutKeeps.next ?_)
      | (with_reducible apply issueNext_keeps)
      | dsimp only
      | split

theorem execReleaseBuf_keeps {z : State} {M : List Part} {t : Nat} {wu : Nat} {s : State} (hz : Keeps M z (atMt s t)) (hdisp : Part.disp ∈ M) (hreins : Part.reins ∈ M) (hpdk : Part.pdk ∈ M) (hclu : Part.clu ∈ M) : OutKeeps M z (execReleaseBuf t wu s) := by
  unfold execReleaseBuf
  repeat'
    first
      | with_reducible assumption
      | (with_reducible refine OutKeeps.next ?_)
      | (with_reducible apply issueNext_keeps)
      | dsimp only
      | split

theorem execLayerEnd_keeps {z : State} {M : List Part} {t : Nat} {wu : Nat} {s : State} (hz : Keeps M z (atMt s t)) (hdisp : Part.disp ∈ M) (hreins : Part.reins ∈ M) (hpdk : Part.pdk ∈ M) (hclu : Part.clu ∈ M) : OutKeeps M z (execLayerEnd t wu s) := by
  unfold execLayerEnd
  repeat'
    first
      | with_reducible assumption
      | (with_reducible refine OutKeeps.next ?_)
      | (with_reducible apply issueNext_keeps)
      | dsimp only
      | split

theorem execChainChoose_keeps {z : State} {M : List Part} {t : Nat} {cls : Nat} {s : State} (hz : Keeps M z (atMt s t)) (hdisp : Part.disp ∈ M) (hpdk : Part.pdk ∈ M) : OutKeeps M z (execChainChoose t cls s) := by
  unfold execChainChoose
  repeat'
    first
      | with_reducible assumption
      | (with_reducible refine OutKeeps.next ?_)
      | (with_reducible apply readChain_keeps)
      | dsimp only
      | split

theorem execLayerStart_keeps {z : State} {M : List Part} {t : Nat} {wu : Nat} {s : State} (hz : Keeps M z (atMt s t)) (hdisp : Part.disp ∈ M) (hclu : Part.clu ∈ M) (hpwr : Part.pwr ∈ M) : OutKeeps M z (execLayerStart t wu s) := by
  unfold execLayerStart
  repeat'
    first
      | with_reducible assumption
      | (with_reducible refine OutKeeps.next ?_)
      | (with_reducible apply modUnit_keeps)
      | (with_reducible apply requestWake_keeps)
      | (with_reducible refine Keeps.foldl ?_ ?_)
      | intro _
      | dsimp only
      | split

theorem execWorkCounterAlloc_keeps {z : State} {M : List Part} {t : Nat} {r : DescRef} {s : State} (hz : Keeps M z (atMt s t)) (hdisp : Part.disp ∈ M) (hreins : Part.reins ∈ M) : OutKeeps M z (execWorkCounterAlloc t r s) := by
  unfold execWorkCounterAlloc
  repeat'
    first
      | with_reducible assumption
      | (with_reducible refine OutKeeps.next ?_)
      | (with_reducible apply allocCtr_keeps)
      | (with_reducible apply modReins_keeps)
      | (with_reducible apply modRun_keeps)
      | dsimp only
      | split

theorem execTicketNoticePost_keeps {z : State} {M : List Part} {t : Nat} {r : DescRef} {s : State} (hz : Keeps M z (atMt s t)) (hdisp : Part.disp ∈ M) (hpdk : Part.pdk ∈ M) : OutKeeps M z (execTicketNoticePost t r s) := by
  unfold execTicketNoticePost
  repeat'
    first
      | with_reducible assumption
      | (with_reducible refine OutKeeps.next ?_)
      | (with_reducible apply modRun_keeps)
      | (with_reducible apply pdkAppend_keeps)
      | (with_reducible refine Keeps.foldl ?_ ?_)
      | intro _
      | dsimp only
      | split

theorem execDescriptorComplete_keeps {z : State} {M : List Part} {t : Nat} {r : DescRef} {s : State} (hz : Keeps M z (atMt s t)) (hhost : Part.host ∈ M) (hdisp : Part.disp ∈ M) (hreins : Part.reins ∈ M) (hpdk : Part.pdk ∈ M) (hclu : Part.clu ∈ M) (hhbm : Part.hbm ∈ M) (hpeers : Part.peers ∈ M) (hmeter : Part.meter ∈ M) (hfree : Part.free ∈ M) : OutKeeps M z (execDescriptorComplete t r s) := by
  unfold execDescriptorComplete
  repeat'
    first
      | with_reducible assumption
      | (with_reducible refine OutKeeps.next ?_)
      | (with_reducible apply actSync_keeps)
      | (with_reducible apply finishRun_keeps)
      | dsimp only
      | split

theorem execLayerEndComplete_keeps {z : State} {M : List Part} {t : Nat} {wu : Nat} {s : State} (hz : Keeps M z (atMt s t)) (hhost : Part.host ∈ M) (hdisp : Part.disp ∈ M) (hreins : Part.reins ∈ M) (hpdk : Part.pdk ∈ M) (hclu : Part.clu ∈ M) (hhbm : Part.hbm ∈ M) (hpeers : Part.peers ∈ M) (hmeter : Part.meter ∈ M) (hfree : Part.free ∈ M) : OutKeeps M z (execLayerEndComplete t wu s) := by
  unfold execLayerEndComplete
  repeat'
    first
      | with_reducible assumption
      | (with_reducible refine OutKeeps.next ?_)
      | (with_reducible apply finishRun_keeps)
      | (with_reducible apply postFrom_keeps)
      | (with_reducible apply trace_keeps)
      | (with_reducible apply modUnit_keeps)
      | (with_reducible apply completeUnit_keeps)
      | dsimp only
      | split

theorem execDiscardDecision_keeps {z : State} {M : List Part} {t : Nat} {wu : Nat} {s : State} (hz : Keeps M z (atMt s t)) (hhost : Part.host ∈ M) (hdisp : Part.disp ∈ M) (hreins : Part.reins ∈ M) (hpeers : Part.peers ∈ M) (hmeter : Part.meter ∈ M) : OutKeeps M z (execDiscardDecision t wu s) := by
  unfold execDiscardDecision
  repeat'
    first
      | with_reducible assumption
      | (with_reducible refine OutKeeps.next ?_)
      | (with_reducible apply freeCtrs_keeps)
      | (with_reducible apply advanceEpoch_keeps)
      | (with_reducible apply modReins_keeps)
      | (with_reducible apply modUnit_keeps)
      | (with_reducible apply abandonRound_keeps)
      | (with_reducible refine Keeps.foldl ?_ ?_)
      | intro _
      | dsimp only
      | split

theorem execMemberTicketDrop_keeps {z : State} {M : List Part} {t : Nat} {l : Nat} {wu : Nat} {s : State} (hz : Keeps M z (atMt s t)) (hdisp : Part.disp ∈ M) (hclu : Part.clu ∈ M) : OutKeeps M z (execMemberTicketDrop t l wu s) := by
  unfold execMemberTicketDrop
  repeat'
    first
      | with_reducible assumption
      | (with_reducible refine OutKeeps.next ?_)
      | (with_reducible apply modClu_keeps)
      | (with_reducible apply modUnit_keeps)
      | (with_reducible apply dropTickets_keeps)
      | exact CluKeeps.upd rfl
      | intro _
      | dsimp only
      | split

theorem execDiscardRelease_keeps {z : State} {M : List Part} {t : Nat} {wu : Nat} {s : State} (hz : Keeps M z (atMt s t)) (hdisp : Part.disp ∈ M) (hpdk : Part.pdk ∈ M) (hclu : Part.clu ∈ M) (hhbm : Part.hbm ∈ M) (hfree : Part.free ∈ M) : OutKeeps M z (execDiscardRelease t wu s) := by
  unfold execDiscardRelease
  repeat'
    first
      | with_reducible assumption
      | (with_reducible refine OutKeeps.next ?_)
      | (with_reducible apply freeOutputs_keeps)
      | (with_reducible apply pdkAppend_keeps)
      | (with_reducible apply retire_keeps)
      | (with_reducible apply dropUnit_keeps)
      | (with_reducible refine Keeps.foldl ?_ ?_)
      | intro _
      | dsimp only
      | split

theorem execQuarantineEnd_keeps {z : State} {M : List Part} {t : Nat} {wuId : Nat} {s : State} (hz : Keeps M z (atMt s t)) (hdisp : Part.disp ∈ M) : OutKeeps M z (execQuarantineEnd t wuId s) := by
  unfold execQuarantineEnd
  repeat'
    first
      | with_reducible assumption
      | (with_reducible refine OutKeeps.next ?_)
      | dsimp only
      | split
      | (with_reducible refine Keeps.putDisp ?_ hdisp)

theorem execRetiredEntryExpiry_keeps {z : State} {M : List Part} {t : Nat} {wuId : Nat} {s : State} (hz : Keeps M z (atMt s t)) (hdisp : Part.disp ∈ M) : OutKeeps M z (execRetiredEntryExpiry t wuId s) := by
  unfold execRetiredEntryExpiry
  repeat'
    first
      | with_reducible assumption
      | (with_reducible refine OutKeeps.next ?_)
      | dsimp only
      | split
      | (with_reducible refine Keeps.putDisp ?_ hdisp)

theorem execTicketTake_keeps {z : State} {M : List Part} {t : Nat} {l : Nat} {r : DescRef} {s : State} (hz : Keeps M z (atMt s t)) (hdisp : Part.disp ∈ M) (hreins : Part.reins ∈ M) (hpdk : Part.pdk ∈ M) (hclu : Part.clu ∈ M) (hflt : Part.flt ∈ M) : OutKeeps M z (execTicketTake t l r s) := by
  unfold execTicketTake
  repeat'
    first
      | with_reducible assumption
      | (with_reducible refine OutKeeps.next ?_)
      | (with_reducible apply drainInbox_keeps)
      | (with_reducible apply takeTicket_keeps)
      | (with_reducible apply stopTaking_keeps)
      | (with_reducible apply fetchAdd_fst_keeps)
      | (with_reducible refine fetchAdd_keeps (by assumption) ?_ ?_ ?_)
      | dsimp only
      | split

theorem execPassEnd_keeps {z : State} {M : List Part} {t : Nat} {l : Nat} {spanCycles : Nat} {stallCycles : Nat} {s : State} (hz : Keeps M z (atMt s t)) (hdisp : Part.disp ∈ M) (hpdk : Part.pdk ∈ M) (hclu : Part.clu ∈ M) (hpwr : Part.pwr ∈ M) (hflt : Part.flt ∈ M) (hmeter : Part.meter ∈ M) : OutKeeps M z (execPassEnd t l spanCycles stallCycles s) := by
  unfold execPassEnd
  repeat'
    first
      | with_reducible assumption
      | (with_reducible refine OutKeeps.next ?_)
      | (with_reducible apply declareFailed_keeps)
      | (with_reducible apply countAttempt_keeps)
      | (with_reducible apply modClu_keeps)
      | (with_reducible apply closePass_keeps)
      | intro _
      | dsimp only
      | split

theorem execDrainDone_keeps {z : State} {M : List Part} {t : Nat} {l : Nat} {s : State} (hz : Keeps M z (atMt s t)) (hdisp : Part.disp ∈ M) (hclu : Part.clu ∈ M) : OutKeeps M z (execDrainDone t l s) := by
  unfold execDrainDone
  repeat'
    first
      | with_reducible assumption
      | (with_reducible refine OutKeeps.next ?_)
      | (with_reducible apply modClu_keeps)
      | (with_reducible apply modRun_keeps)
      | (with_reducible apply ticketValues_keeps)
      | intro _
      | dsimp only
      | split

theorem execResidueCheckpoint_keeps {z : State} {M : List Part} {t : Nat} {l : Nat} {upset : Option (Nat × F32)} {s : State} (hz : Keeps M z (atMt s t)) (hdisp : Part.disp ∈ M) (hpdk : Part.pdk ∈ M) (hclu : Part.clu ∈ M) (hpwr : Part.pwr ∈ M) (hflt : Part.flt ∈ M) (hmeter : Part.meter ∈ M) : OutKeeps M z (execResidueCheckpoint t l upset s) := by
  unfold execResidueCheckpoint
  repeat'
    first
      | with_reducible assumption
      | (with_reducible refine OutKeeps.next ?_)
      | (with_reducible apply modClu_keeps)
      | (with_reducible apply declareFailed_keeps)
      | intro _
      | dsimp only
      | split

theorem execChecksumCheckpoint_keeps {z : State} {M : List Part} {t : Nat} {l : Nat} {fails : Bool} {s : State} (hz : Keeps M z (atMt s t)) (hdisp : Part.disp ∈ M) (hpdk : Part.pdk ∈ M) (hclu : Part.clu ∈ M) (hpwr : Part.pwr ∈ M) (hflt : Part.flt ∈ M) (hmeter : Part.meter ∈ M) : OutKeeps M z (execChecksumCheckpoint t l fails s) := by
  unfold execChecksumCheckpoint
  repeat'
    first
      | with_reducible assumption
      | (with_reducible refine OutKeeps.next ?_)
      | (with_reducible apply declareFailed_keeps)
      | dsimp only
      | split

theorem execTreeNode_keeps {z : State} {M : List Part} {t : Nat} {r : DescRef} {tile : Nat} {lo : Nat} {hi : Nat} {s : State} (hz : Keeps M z (atMt s t)) (hdisp : Part.disp ∈ M) (hpdk : Part.pdk ∈ M) (hclu : Part.clu ∈ M) : OutKeeps M z (execTreeNode t r tile lo hi s) := by
  unfold execTreeNode
  repeat'
    first
      | with_reducible assumption
      | (with_reducible refine OutKeeps.next ?_)
      | (with_reducible apply modRun_keeps)
      | (with_reducible apply traceTicket_keeps)
      | (with_reducible apply finishTile_keeps)
      | dsimp only
      | split

theorem execTileDone_keeps {z : State} {M : List Part} {t : Nat} {r : DescRef} {tile : Nat} {s : State} (hz : Keeps M z (atMt s t)) (hdisp : Part.disp ∈ M) (hreins : Part.reins ∈ M) : OutKeeps M z (execTileDone t r tile s) := by
  unfold execTileDone
  repeat'
    first
      | with_reducible assumption
      | (with_reducible refine OutKeeps.next ?_)
      | (with_reducible apply modRun_keeps)
      | (with_reducible apply fetchAdd_fst_keeps)
      | (with_reducible refine fetchAdd_keeps (by assumption) ?_ ?_ ?_)
      | dsimp only
      | split

theorem execCompressCount_keeps {z : State} {M : List Part} {t : Nat} {r : DescRef} {s : State} (hz : Keeps M z (atMt s t)) (hdisp : Part.disp ∈ M) : OutKeeps M z (execCompressCount t r s) := by
  unfold execCompressCount
  repeat'
    first
      | with_reducible assumption
      | (with_reducible refine OutKeeps.next ?_)
      | (with_reducible apply modRun_keeps)
      | dsimp only
      | split

theorem execCompressPlace_keeps {z : State} {M : List Part} {t : Nat} {r : DescRef} {s : State} (hz : Keeps M z (atMt s t)) (hdisp : Part.disp ∈ M) (hclu : Part.clu ∈ M) : OutKeeps M z (execCompressPlace t r s) := by
  unfold execCompressPlace
  repeat'
    first
      | with_reducible assumption
      | (with_reducible refine OutKeeps.next ?_)
      | (with_reducible apply modRun_keeps)
      | (with_reducible apply ticketCause_keeps)
      | (with_reducible apply poisonCause_keeps)
      | (with_reducible refine placeOutput_keeps (by assumption) ?_ ?_)
      | dsimp only
      | split

theorem execSubmit_keeps {z : State} {M : List Part} {t : Nat} {d : Datagram} {s : State} (hz : Keeps M z (atMt s t)) (hhost : Part.host ∈ M) (hdisp : Part.disp ∈ M) (hpdk : Part.pdk ∈ M) (hpeers : Part.peers ∈ M) (hmeter : Part.meter ∈ M) : OutKeeps M z (execSubmit t d s) := by
  unfold execSubmit
  repeat'
    first
      | with_reducible assumption
      | (with_reducible refine OutKeeps.next ?_)
      | (with_reducible apply hostMessage_keeps)
      | (with_reducible apply actSubmit_keeps)
      | intro _
      | dsimp only
      | split

theorem execAbort_keeps {z : State} {M : List Part} {t : Nat} {d : Datagram} {s : State} (hz : Keeps M z (atMt s t)) (hhost : Part.host ∈ M) (hdisp : Part.disp ∈ M) (hflt : Part.flt ∈ M) (hpeers : Part.peers ∈ M) (hmeter : Part.meter ∈ M) : OutKeeps M z (execAbort t d s) := by
  unfold execAbort
  repeat'
    first
      | with_reducible assumption
      | (with_reducible refine OutKeeps.next ?_)
      | (with_reducible apply hostMessage_keeps)
      | (with_reducible apply actAbort_keeps)
      | intro _
      | dsimp only
      | split

theorem execMemWrite_keeps {z : State} {M : List Part} {t : Nat} {d : Datagram} {s : State} (hz : Keeps M z (atMt s t)) (hhost : Part.host ∈ M) (hhbm : Part.hbm ∈ M) (hpeers : Part.peers ∈ M) (hmeter : Part.meter ∈ M) : OutKeeps M z (execMemWrite t d s) := by
  unfold execMemWrite
  repeat'
    first
      | with_reducible assumption
      | (with_reducible refine OutKeeps.next ?_)
      | (with_reducible apply actMemWrite_keeps)
      | (with_reducible apply receive_fst_keeps)
      | (with_reducible refine receive_keeps (by assumption) ?_ ?_ ?_)
      | dsimp only
      | split

theorem execMemRead_keeps {z : State} {M : List Part} {t : Nat} {d : Datagram} {s : State} (hz : Keeps M z (atMt s t)) (hhost : Part.host ∈ M) (hhbm : Part.hbm ∈ M) (hpeers : Part.peers ∈ M) (hmeter : Part.meter ∈ M) : OutKeeps M z (execMemRead t d s) := by
  unfold execMemRead
  repeat'
    first
      | with_reducible assumption
      | (with_reducible refine OutKeeps.next ?_)
      | (with_reducible apply hostMessage_keeps)
      | (with_reducible apply actMemRead_keeps)
      | intro _
      | dsimp only
      | split

theorem execMeterRead_keeps {z : State} {M : List Part} {t : Nat} {d : Datagram} {s : State} (hz : Keeps M z (atMt s t)) (hhost : Part.host ∈ M) (hpeers : Part.peers ∈ M) (hmeter : Part.meter ∈ M) : OutKeeps M z (execMeterRead t d s) := by
  unfold execMeterRead
  repeat'
    first
      | with_reducible assumption
      | (with_reducible refine OutKeeps.next ?_)
      | (with_reducible apply hostMessage_keeps)
      | (with_reducible apply actMeterRead_keeps)
      | intro _
      | dsimp only
      | split

theorem execStreamRequestIssue_keeps {z : State} {M : List Part} {t : Nat} {p : Nat} {s : State} (hz : Keeps M z (atMt s t)) (hhost : Part.host ∈ M) (hdisp : Part.disp ∈ M) (hclu : Part.clu ∈ M) (hhbm : Part.hbm ∈ M) (hpeers : Part.peers ∈ M) (hmeter : Part.meter ∈ M) : OutKeeps M z (execStreamRequestIssue t p s) := by
  unfold execStreamRequestIssue
  repeat'
    first
      | with_reducible assumption
      | (with_reducible refine OutKeeps.next ?_)
      | (with_reducible apply setClu_keeps)
      | (with_reducible apply touchRange_keeps)
      | (with_reducible apply tlbFill_keeps)
      | (with_reducible apply sendWrite_keeps)
      | (with_reducible apply modClu_keeps)
      | (with_reducible apply addCauseK_keeps)
      | (with_reducible apply streamBytes_fst_keeps)
      | (with_reducible refine streamBytes_keeps (by assumption) ?_ ?_)
      | intro _
      | dsimp only
      | split

theorem execStreamReadArrival_keeps {z : State} {M : List Part} {t : Nat} {p : Nat} {tag : Nat} {s : State} (hz : Keeps M z (atMt s t)) (hdisp : Part.disp ∈ M) (hclu : Part.clu ∈ M) : OutKeeps M z (execStreamReadArrival t p tag s) := by
  unfold execStreamReadArrival
  repeat'
    first
      | with_reducible assumption
      | (with_reducible refine OutKeeps.next ?_)
      | (with_reducible apply setClu_keeps)
      | (with_reducible apply addCauseK_keeps)
      | (with_reducible apply landPiece_keeps)
      | intro _
      | dsimp only
      | split
  all_goals exact (CluKeeps.foldl (CluKeeps.upd rfl) fun u x k => landPiece_keeps k) (by assumption)

theorem execPonyTransfer_keeps {z : State} {M : List Part} {t : Nat} {p : Nat} {write : Bool} {job : Nat} {va : Nat} {spadOff : Nat} {len : Nat} {s : State} (hz : Keeps M z (atMt s t)) (hdisp : Part.disp ∈ M) (hpdk : Part.pdk ∈ M) (hclu : Part.clu ∈ M) (hhbm : Part.hbm ∈ M) (hflt : Part.flt ∈ M) (hmeter : Part.meter ∈ M) : OutKeeps M z (execPonyTransfer t p write job va spadOff len s) := by
  unfold execPonyTransfer
  repeat'
    first
      | with_reducible assumption
      | (with_reducible refine OutKeeps.next ?_)
      | (with_reducible apply ponyCause_keeps)
      | (with_reducible apply noteReads_keeps)
      | (with_reducible apply tlbFillRange_keeps)
      | (with_reducible apply touchRange_keeps)
      | (with_reducible apply vWrite_keeps)
      | (with_reducible apply modClu_keeps)
      | (with_reducible apply cluWrite_keeps)
      | intro _
      | dsimp only
      | split

theorem execWeightCacheRead_keeps {z : State} {M : List Part} {t : Nat} {die : Nat} {pa : Nat} {len : Nat} {upset : Option Nat} {s : State} (hz : Keeps M z (atMt s t)) (hpdk : Part.pdk ∈ M) (hhbm : Part.hbm ∈ M) (hflt : Part.flt ∈ M) (hmeter : Part.meter ∈ M) : OutKeeps M z (execWeightCacheRead t die pa len upset s) := by
  unfold execWeightCacheRead
  repeat'
    first
      | with_reducible assumption
      | (with_reducible refine OutKeeps.next ?_)
      | (with_reducible apply upsetLine_keeps)
      | (with_reducible apply cacheTouch_keeps)
      | (with_reducible refine Keeps.foldl ?_ ?_)
      | intro _
      | dsimp only
      | split

theorem execHbmRead_keeps {z : State} {M : List Part} {t : Nat} {pa : Nat} {res : Decode64} {s : State} (hz : Keeps M z (atMt s t)) (hpdk : Part.pdk ∈ M) (hhbm : Part.hbm ∈ M) (hflt : Part.flt ∈ M) (hmeter : Part.meter ∈ M) (hfree : Part.free ∈ M) : OutKeeps M z (execHbmRead t pa res s) := by
  unfold execHbmRead
  repeat'
    first
      | with_reducible assumption
      | (with_reducible refine OutKeeps.next ?_)
      | (with_reducible apply correctGranule_keeps)
      | (with_reducible apply reconGranule_keeps)
      | dsimp only
      | split

theorem execPatrolScrubVisit_keeps {z : State} {M : List Part} {t : Nat} {pa : Nat} {res : Decode64} {s : State} (hz : Keeps M z (atMt s t)) (hpdk : Part.pdk ∈ M) (hhbm : Part.hbm ∈ M) (hflt : Part.flt ∈ M) (hmeter : Part.meter ∈ M) (hfree : Part.free ∈ M) : OutKeeps M z (execPatrolScrubVisit t pa res s) := by
  unfold execPatrolScrubVisit
  repeat'
    first
      | with_reducible assumption
      | (with_reducible refine OutKeeps.next ?_)
      | (with_reducible apply patrolHit_keeps)
      | (with_reducible apply reconGranule_keeps)
      | dsimp only
      | split
      | (with_reducible refine Keeps.putHbm ?_ rfl rfl hhbm)

theorem execParityWrite_keeps {z : State} {M : List Part} {t : Nat} {row : Nat} {s : State} (hz : Keeps M z (atMt s t)) (hhost : Part.host ∈ M) (hdisp : Part.disp ∈ M) (hreins : Part.reins ∈ M) (hhbm : Part.hbm ∈ M) (hpeers : Part.peers ∈ M) (hmeter : Part.meter ∈ M) : OutKeeps M z (execParityWrite t row s) := by
  unfold execParityWrite
  repeat'
    first
      | with_reducible assumption
      | (with_reducible refine OutKeeps.next ?_)
      | (with_reducible apply writerLanded_keeps)
      | (with_reducible apply landRow_keeps)
      | (with_reducible refine Keeps.foldl ?_ ?_)
      | intro _
      | dsimp only
      | split

theorem execPageRetire_keeps {z : State} {M : List Part} {t : Nat} {unit : Nat} {s : State} (hz : Keeps M z (atMt s t)) (hflash : Part.flash ∈ M) (hpdk : Part.pdk ∈ M) (hhbm : Part.hbm ∈ M) (hflt : Part.flt ∈ M) (hmeter : Part.meter ∈ M) : OutKeeps M z (execPageRetire t unit s) := by
  unfold execPageRetire
  repeat'
    first
      | with_reducible assumption
      | (with_reducible refine OutKeeps.next ?_)
      | (with_reducible apply retireFrame_keeps)
      | (with_reducible apply post_keeps)
      | (with_reducible apply capOpen_keeps)
      | (with_reducible refine Keeps.foldl ?_ ?_)
      | intro _
      | dsimp only
      | split
      | (with_reducible refine Keeps.putHbm ?_ rfl rfl hhbm)

theorem execRetirementAppend_keeps {z : State} {M : List Part} {t : Nat} {s : State} (hz : Keeps M z (atMt s t)) (hflash : Part.flash ∈ M) : OutKeeps M z (execRetirementAppend t s) := by
  unfold execRetirementAppend
  repeat'
    first
      | with_reducible assumption
      | (with_reducible refine OutKeeps.next ?_)
      | dsimp only
      | split
      | (with_reducible refine Keeps.putFlash ?_ rfl rfl hflash)

theorem execPseudoChannelFail_keeps {z : State} {M : List Part} {t : Nat} {stack : Nat} {pc : Nat} {s : State} (hz : Keeps M z (atMt s t)) (hdisp : Part.disp ∈ M) (hpdk : Part.pdk ∈ M) (hhbm : Part.hbm ∈ M) (hflt : Part.flt ∈ M) (hmeter : Part.meter ∈ M) : OutKeeps M z (execPseudoChannelFail t stack pc s) := by
  unfold execPseudoChannelFail
  repeat'
    first
      | with_reducible assumption
      | (with_reducible refine OutKeeps.next ?_)
      | (with_reducible apply postFault_keeps)
      | (with_reducible apply addCauses_keeps)
      | (with_reducible apply loseRegion_keeps)
      | dsimp only
      | split

theorem execStackFail_keeps {z : State} {M : List Part} {t : Nat} {stack : Nat} {s : State} (hz : Keeps M z (atMt s t)) (hdisp : Part.disp ∈ M) (hpdk : Part.pdk ∈ M) (hhbm : Part.hbm ∈ M) (hflt : Part.flt ∈ M) (hmeter : Part.meter ∈ M) : OutKeeps M z (execStackFail t stack s) := by
  unfold execStackFail
  repeat'
    first
      | with_reducible assumption
      | (with_reducible refine OutKeeps.next ?_)
      | (with_reducible apply failStack_keeps)
      | dsimp only
      | split

theorem execRebuildComplete_keeps {z : State} {M : List Part} {t : Nat} {s : State} (hz : Keeps M z (atMt s t)) (hpdk : Part.pdk ∈ M) (hhbm : Part.hbm ∈ M) (hflt : Part.flt ∈ M) (hmeter : Part.meter ∈ M) : OutKeeps M z (execRebuildComplete t s) := by
  unfold execRebuildComplete
  repeat'
    first
      | with_reducible assumption
      | (with_reducible refine OutKeeps.next ?_)
      | (with_reducible apply rebuildRegion_keeps)
      | (with_reducible apply capClose_keeps)
      | (with_reducible apply post_keeps)
      | dsimp only
      | split
      | (with_reducible refine Keeps.putHbm ?_ rfl rfl hhbm)

theorem execMulticastSend_keeps {z : State} {M : List Part} {t : Nat} {sender : Nat} {srcOff : Nat} {len : Nat} {dstOff : Nat} {receivers : List Nat} {accepted : List Nat} {origin : Origin} {s : State} (hz : Keeps M z (atMt s t)) (hpdk : Part.pdk ∈ M) (hclu : Part.clu ∈ M) (hflt : Part.flt ∈ M) (hmeter : Part.meter ∈ M) : OutKeeps M z (execMulticastSend t sender srcOff len dstOff receivers accepted origin s) := by
  unfold execMulticastSend
  repeat'
    first
      | with_reducible assumption
      | (with_reducible refine OutKeeps.next ?_)
      | (with_reducible apply noteReads_keeps)
      | (with_reducible apply deliver_keeps)
      | (with_reducible apply modClu_keeps)
      | (with_reducible refine Keeps.foldl ?_ ?_)
      | intro _
      | dsimp only
      | split

theorem execMulticastWaitExpiry_keeps {z : State} {M : List Part} {t : Nat} {receiver : Nat} {s : State} (hz : Keeps M z (atMt s t)) (hdisp : Part.disp ∈ M) (hclu : Part.clu ∈ M) : OutKeeps M z (execMulticastWaitExpiry t receiver s) := by
  unfold execMulticastWaitExpiry
  repeat'
    first
      | with_reducible assumption
      | (with_reducible refine OutKeeps.next ?_)
      | (with_reducible apply setClu_keeps)
      | (with_reducible apply deliver_keeps)
      | (with_reducible apply ponyCause_keeps)
      | intro _
      | dsimp only
      | split

theorem execFetchAdd_keeps {z : State} {M : List Part} {t : Nat} {req : Nat} {ctr : Nat} {addend : Nat} {sent : Nat} {epoch : Option Nat} {s : State} (hz : Keeps M z (atMt s t)) (hdisp : Part.disp ∈ M) (hreins : Part.reins ∈ M) : OutKeeps M z (execFetchAdd t req ctr addend sent epoch s) := by
  unfold execFetchAdd
  repeat'
    first
      | with_reducible assumption
      | (with_reducible refine OutKeeps.next ?_)
      | (with_reducible apply noteApplied_keeps)
      | (with_reducible apply respond_keeps)
      | (with_reducible apply fetchAdd_fst_keeps)
      | (with_reducible refine fetchAdd_keeps (by assumption) ?_ ?_ ?_)
      | dsimp only
      | split

theorem execCompareSwap_keeps {z : State} {M : List Part} {t : Nat} {req : Nat} {ctr : Nat} {expected : Nat} {value : Nat} {sent : Nat} {epoch : Option Nat} {s : State} (hz : Keeps M z (atMt s t)) (hdisp : Part.disp ∈ M) (hreins : Part.reins ∈ M) : OutKeeps M z (execCompareSwap t req ctr expected value sent epoch s) := by
  unfold execCompareSwap
  repeat'
    first
      | with_reducible assumption
      | (with_reducible refine OutKeeps.next ?_)
      | (with_reducible apply noteApplied_keeps)
      | (with_reducible apply respond_keeps)
      | (with_reducible apply compareSwap_fst_keeps)
      | (with_reducible refine compareSwap_keeps (by assumption) ?_ ?_ ?_)
      | dsimp only
      | split

theorem execCompareWait_keeps {z : State} {M : List Part} {t : Nat} {req : Nat} {ctr : Nat} {target : Nat} {sent : Nat} {equal : Bool} {epoch : Option Nat} {s : State} (hz : Keeps M z (atMt s t)) (hreins : Part.reins ∈ M) : OutKeeps M z (execCompareWait t req ctr target sent equal epoch s) := by
  unfold execCompareWait
  repeat'
    first
      | with_reducible assumption
      | (with_reducible refine OutKeeps.next ?_)
      | (with_reducible apply noteApplied_keeps)
      | (with_reducible apply respond_keeps)
      | (with_reducible apply modReins_keeps)
      | dsimp only
      | split

theorem execCounterRead_keeps {z : State} {M : List Part} {t : Nat} {req : Nat} {ctr : Nat} {sent : Nat} {epoch : Option Nat} {s : State} (hz : Keeps M z (atMt s t)) (hreins : Part.reins ∈ M) : OutKeeps M z (execCounterRead t req ctr sent epoch s) := by
  unfold execCounterRead
  repeat'
    first
      | with_reducible assumption
      | (with_reducible refine OutKeeps.next ?_)
      | (with_reducible apply noteApplied_keeps)
      | (with_reducible apply respond_keeps)
      | dsimp only
      | split

theorem execBarrierArrival_keeps {z : State} {M : List Part} {t : Nat} {req : Nat} {bar : Nat} {parties : Nat} {sent : Nat} {s : State} (hz : Keeps M z (atMt s t)) (hdisp : Part.disp ∈ M) (hreins : Part.reins ∈ M) : OutKeeps M z (execBarrierArrival t req bar parties sent s) := by
  unfold execBarrierArrival
  repeat'
    first
      | with_reducible assumption
      | (with_reducible refine OutKeeps.next ?_)
      | (with_reducible apply noteApplied_keeps)
      | (with_reducible apply arriveBarrier_fst_keeps)
      | (with_reducible refine arriveBarrier_keeps (by assumption) ?_ ?_ ?_)
      | dsimp only
      | split

theorem execArrivalWithdraw_keeps {z : State} {M : List Part} {t : Nat} {wu : Nat} {s : State} (hz : Keeps M z (atMt s t)) (hreins : Part.reins ∈ M) : OutKeeps M z (execArrivalWithdraw t wu s) := by
  unfold execArrivalWithdraw
  repeat'
    first
      | with_reducible assumption
      | (with_reducible refine OutKeeps.next ?_)
      | (with_reducible apply withdrawArrivals_keeps)
      | dsimp only
      | split

theorem execRnCtrCmd_keeps {z : State} {M : List Part} {t : Nat} {v : Nat} {s : State} (hz : Keeps M z (atMt s t)) (hdisp : Part.disp ∈ M) (hreins : Part.reins ∈ M) : OutKeeps M z (execRnCtrCmd t v s) := by
  unfold execRnCtrCmd
  repeat'
    first
      | with_reducible assumption
      | (with_reducible refine OutKeeps.next ?_)
      | (with_reducible apply resetCtr_keeps)
      | dsimp only
      | split

theorem execPlaneError_keeps {z : State} {M : List Part} {t : Nat} {receiver : Nat} {plane : Nat} {how : PlaneFault} {s : State} (hz : Keeps M z (atMt s t)) (hreins : Part.reins ∈ M) (hpdk : Part.pdk ∈ M) (hflt : Part.flt ∈ M) (hmeter : Part.meter ∈ M) : OutKeeps M z (execPlaneError t receiver plane how s) := by
  unfold execPlaneError
  repeat'
    first
      | with_reducible assumption
      | (with_reducible refine OutKeeps.next ?_)
      | (with_reducible apply modReins_keeps)
      | (with_reducible apply postFault_keeps)
      | dsimp only
      | split

theorem execPlaneResyncDone_keeps {z : State} {M : List Part} {t : Nat} {plane : Nat} {s : State} (hz : Keeps M z (atMt s t)) (hreins : Part.reins ∈ M) : OutKeeps M z (execPlaneResyncDone t plane s) := by
  unfold execPlaneResyncDone
  repeat'
    first
      | with_reducible assumption
      | (with_reducible refine OutKeeps.next ?_)
      | (with_reducible apply modReins_keeps)
      | dsimp only
      | split

theorem execPaddockPacketWrite_keeps {z : State} {M : List Part} {t : Nat} {pool : Nat} {queue : Nat} {source : Nat} {wu : Option (Nat × Nat)} {payload : List Byte} {s : State} (hz : Keeps M z (atMt s t)) (hpdk : Part.pdk ∈ M) : OutKeeps M z (execPaddockPacketWrite t pool queue source wu payload s) := by
  unfold execPaddockPacketWrite
  repeat'
    first
      | with_reducible assumption
      | (with_reducible refine OutKeeps.next ?_)
      | (with_reducible apply pdkPut_keeps)
      | dsimp only
      | split

theorem execPaddockItemRead_keeps {z : State} {M : List Part} {t : Nat} {pool : Nat} {queue : Nat} {corrected : Nat} {bad : Bool} {s : State} (hz : Keeps M z (atMt s t)) (hhost : Part.host ∈ M) (hdisp : Part.disp ∈ M) (hpdk : Part.pdk ∈ M) (hclu : Part.clu ∈ M) (hflt : Part.flt ∈ M) (hpeers : Part.peers ∈ M) (hmeter : Part.meter ∈ M) : OutKeeps M z (execPaddockItemRead t pool queue corrected bad s) := by
  unfold execPaddockItemRead
  repeat'
    first
      | with_reducible assumption
      | (with_reducible refine OutKeeps.next ?_)
      | (with_reducible apply noteCorrected_keeps)
      | (with_reducible apply markHead_keeps)
      | (with_reducible apply readChain_keeps)
      | (with_reducible apply readInbox_keeps)
      | (with_reducible apply readToOwner_keeps)
      | dsimp only
      | split

theorem execPdkFlush_keeps {z : State} {M : List Part} {t : Nat} {v : Nat} {s : State} (hz : Keeps M z (atMt s t)) (hdisp : Part.disp ∈ M) (hpdk : Part.pdk ∈ M) : OutKeeps M z (execPdkFlush t v s) := by
  unfold execPdkFlush
  repeat'
    first
      | with_reducible assumption
      | (with_reducible refine OutKeeps.next ?_)
      | (with_reducible apply flushQueue_keeps)
      | dsimp only
      | split

theorem execPeerLinkTrain_keeps {z : State} {M : List Part} {t : Nat} {port : Nat} {pattern : Bool} {s : State} (hz : Keeps M z (atMt s t)) (hhost : Part.host ∈ M) (hpeers : Part.peers ∈ M) (hfree : Part.free ∈ M) : OutKeeps M z (execPeerLinkTrain t port pattern s) := by
  unfold execPeerLinkTrain
  repeat'
    first
      | with_reducible assumption
      | (with_reducible refine OutKeeps.next ?_)
      | (with_reducible apply trainPort_keeps)
      | dsimp only
      | split

theorem execPeerLaneFail_keeps {z : State} {M : List Part} {t : Nat} {port : Nat} {lane : Nat} {s : State} (hz : Keeps M z (atMt s t)) (hhost : Part.host ∈ M) (hdisp : Part.disp ∈ M) (hpdk : Part.pdk ∈ M) (hflt : Part.flt ∈ M) (hpeers : Part.peers ∈ M) (hmeter : Part.meter ∈ M) : OutKeeps M z (execPeerLaneFail t port lane s) := by
  unfold execPeerLaneFail
  repeat'
    first
      | with_reducible assumption
      | (with_reducible refine OutKeeps.next ?_)
      | (with_reducible apply postFault_keeps)
      | (with_reducible apply modPeerPort_keeps)
      | (with_reducible apply losePeer_keeps)
      | dsimp only
      | split

theorem execPeerRetrainDone_keeps {z : State} {M : List Part} {t : Nat} {port : Nat} {s : State} (hz : Keeps M z (atMt s t)) (hhost : Part.host ∈ M) (hpdk : Part.pdk ∈ M) (hpeers : Part.peers ∈ M) (hmeter : Part.meter ∈ M) (hfree : Part.free ∈ M) : OutKeeps M z (execPeerRetrainDone t port s) := by
  unfold execPeerRetrainDone
  repeat'
    first
      | with_reducible assumption
      | (with_reducible refine OutKeeps.next ?_)
      | (with_reducible apply modPeerPort_keeps)
      | (with_reducible apply post_keeps)
      | (with_reducible apply flushHeld_keeps)
      | (with_reducible apply startHello_keeps)
      | dsimp only
      | split

theorem execPeerLinkLost_keeps {z : State} {M : List Part} {t : Nat} {port : Nat} {why : PeerLoss} {s : State} (hz : Keeps M z (atMt s t)) (hhost : Part.host ∈ M) (hdisp : Part.disp ∈ M) (hpdk : Part.pdk ∈ M) (hflt : Part.flt ∈ M) (hpeers : Part.peers ∈ M) (hmeter : Part.meter ∈ M) : OutKeeps M z (execPeerLinkLost t port why s) := by
  unfold execPeerLinkLost
  repeat'
    first
      | with_reducible assumption
      | (with_reducible refine OutKeeps.next ?_)
      | (with_reducible apply losePeer_keeps)
      | dsimp only
      | split

theorem execPeerPingTimer_keeps {z : State} {M : List Part} {t : Nat} {port : Nat} {s : State} (hz : Keeps M z (atMt s t)) (hhost : Part.host ∈ M) (hpeers : Part.peers ∈ M) (hfree : Part.free ∈ M) : OutKeeps M z (execPeerPingTimer t port s) := by
  unfold execPeerPingTimer
  repeat'
    first
      | with_reducible assumption
      | (with_reducible refine OutKeeps.next ?_)
      | (with_reducible apply sendPlain_keeps)
      | (with_reducible apply modPeerPort_keeps)
      | (with_reducible apply freeBytes_fst_keeps)
      | (with_reducible refine freeBytes_keeps (by assumption) ?_ ?_)
      | dsimp only
      | split

theorem execPeerKeyInit_keeps {z : State} {M : List Part} {t : Nat} {port : Nat} {d : Datagram} {nonce : List Byte} {a4 : List Byte} {s : State} (hz : Keeps M z (atMt s t)) (hhost : Part.host ∈ M) (hdisp : Part.disp ∈ M) (hpdk : Part.pdk ∈ M) (hflt : Part.flt ∈ M) (hpeers : Part.peers ∈ M) (hmeter : Part.meter ∈ M) : OutKeeps M z (execPeerKeyInit t port d nonce a4 s) := by
  unfold execPeerKeyInit
  repeat'
    first
      | with_reducible assumption
      | (with_reducible refine OutKeeps.next ?_)
      | (with_reducible apply peerInit_keeps)
      | (with_reducible apply peerClose_keeps)
      | dsimp only
      | split

theorem execPeerKeyReply_keeps {z : State} {M : List Part} {t : Nat} {port : Nat} {d : Datagram} {a3 : List Byte} {rnd : List Byte} {s : State} (hz : Keeps M z (atMt s t)) (hhost : Part.host ∈ M) (hpdk : Part.pdk ∈ M) (hpeers : Part.peers ∈ M) : OutKeeps M z (execPeerKeyReply t port d a3 rnd s) := by
  unfold execPeerKeyReply
  repeat'
    first
      | with_reducible assumption
      | (with_reducible refine OutKeeps.next ?_)
      | (with_reducible apply replyOpen_keeps)
      | (with_reducible apply replyFinal_keeps)
      | dsimp only
      | split

theorem execPeerData_keeps {z : State} {M : List Part} {t : Nat} {port : Nat} {d : Datagram} {s : State} (hz : Keeps M z (atMt s t)) (hhost : Part.host ∈ M) (hdisp : Part.disp ∈ M) (hreins : Part.reins ∈ M) (hhbm : Part.hbm ∈ M) (hflt : Part.flt ∈ M) (hpeers : Part.peers ∈ M) (hmeter : Part.meter ∈ M) : OutKeeps M z (execPeerData t port d s) := by
  unfold execPeerData
  repeat'
    first
      | with_reducible assumption
      | (with_reducible refine OutKeeps.next ?_)
      | (with_reducible apply peerArrive_keeps)
      | dsimp only
      | split

theorem execPeerLanded_keeps {z : State} {M : List Part} {t : Nat} {port : Nat} {d : Datagram} {s : State} (hz : Keeps M z (atMt s t)) (hhost : Part.host ∈ M) (hdisp : Part.disp ∈ M) (hreins : Part.reins ∈ M) (hhbm : Part.hbm ∈ M) (hflt : Part.flt ∈ M) (hpeers : Part.peers ∈ M) (hmeter : Part.meter ∈ M) : OutKeeps M z (execPeerLanded t port d s) := by
  unfold execPeerLanded
  repeat'
    first
      | with_reducible assumption
      | (with_reducible refine OutKeeps.next ?_)
      | (with_reducible apply peerArrive_keeps)
      | dsimp only
      | split

theorem execPeerLeaf_keeps {z : State} {M : List Part} {t : Nat} {port : Nat} {d : Datagram} {s : State} (hz : Keeps M z (atMt s t)) (hhost : Part.host ∈ M) (hdisp : Part.disp ∈ M) (hreins : Part.reins ∈ M) (hhbm : Part.hbm ∈ M) (hflt : Part.flt ∈ M) (hpeers : Part.peers ∈ M) (hmeter : Part.meter ∈ M) : OutKeeps M z (execPeerLeaf t port d s) := by
  unfold execPeerLeaf
  repeat'
    first
      | with_reducible assumption
      | (with_reducible refine OutKeeps.next ?_)
      | (with_reducible apply peerArrive_keeps)
      | dsimp only
      | split

theorem execPeerResult_keeps {z : State} {M : List Part} {t : Nat} {port : Nat} {d : Datagram} {s : State} (hz : Keeps M z (atMt s t)) (hhost : Part.host ∈ M) (hdisp : Part.disp ∈ M) (hreins : Part.reins ∈ M) (hhbm : Part.hbm ∈ M) (hflt : Part.flt ∈ M) (hpeers : Part.peers ∈ M) (hmeter : Part.meter ∈ M) : OutKeeps M z (execPeerResult t port d s) := by
  unfold execPeerResult
  repeat'
    first
      | with_reducible assumption
      | (with_reducible refine OutKeeps.next ?_)
      | (with_reducible apply peerArrive_keeps)
      | dsimp only
      | split

theorem execRoundAbort_keeps {z : State} {M : List Part} {t : Nat} {port : Nat} {d : Datagram} {s : State} (hz : Keeps M z (atMt s t)) (hhost : Part.host ∈ M) (hdisp : Part.disp ∈ M) (hreins : Part.reins ∈ M) (hhbm : Part.hbm ∈ M) (hflt : Part.flt ∈ M) (hpeers : Part.peers ∈ M) (hmeter : Part.meter ∈ M) : OutKeeps M z (execRoundAbort t port d s) := by
  unfold execRoundAbort
  repeat'
    first
      | with_reducible assumption
      | (with_reducible refine OutKeeps.next ?_)
      | (with_reducible apply peerArrive_keeps)
      | dsimp only
      | split

theorem execPeerForward_keeps {z : State} {M : List Part} {t : Nat} {port : Nat} {d : Datagram} {s : State} (hz : Keeps M z (atMt s t)) (hhost : Part.host ∈ M) (hdisp : Part.disp ∈ M) (hreins : Part.reins ∈ M) (hhbm : Part.hbm ∈ M) (hflt : Part.flt ∈ M) (hpeers : Part.peers ∈ M) (hmeter : Part.meter ∈ M) : OutKeeps M z (execPeerForward t port d s) := by
  unfold execPeerForward
  repeat'
    first
      | with_reducible assumption
      | (with_reducible refine OutKeeps.next ?_)
      | (with_reducible apply peerArrive_keeps)
      | dsimp only
      | split

theorem execPeerNack_keeps {z : State} {M : List Part} {t : Nat} {port : Nat} {d : Datagram} {s : State} (hz : Keeps M z (atMt s t)) (hhost : Part.host ∈ M) (hdisp : Part.disp ∈ M) (hpeers : Part.peers ∈ M) (hmeter : Part.meter ∈ M) : OutKeeps M z (execPeerNack t port d s) := by
  unfold execPeerNack
  repeat'
    first
      | with_reducible assumption
      | (with_reducible refine OutKeeps.next ?_)
      | (with_reducible apply sendAck_keeps)
      | (with_reducible apply actPeerNack_keeps)
      | (with_reducible apply receive_fst_keeps)
      | (with_reducible refine receive_keeps (by assumption) ?_ ?_ ?_)
      | dsimp only
      | split

theorem execRoundTimeout_keeps {z : State} {M : List Part} {t : Nat} {window : Nat} {s : State} (hz : Keeps M z (atMt s t)) (hhost : Part.host ∈ M) (hdisp : Part.disp ∈ M) (hpeers : Part.peers ∈ M) (hmeter : Part.meter ∈ M) : OutKeeps M z (execRoundTimeout t window s) := by
  unfold execRoundTimeout
  repeat'
    first
      | with_reducible assumption
      | (with_reducible refine OutKeeps.next ?_)
      | (with_reducible apply abandonRound_keeps)
      | dsimp only
      | split

theorem execPeerFrameDiscard_keeps {z : State} {M : List Part} {t : Nat} {port : Nat} {f : FrameInfo} {dstRank : Nat} {s : State} (hz : Keeps M z (atMt s t)) (hhost : Part.host ∈ M) (hpeers : Part.peers ∈ M) : OutKeeps M z (execPeerFrameDiscard t port f dstRank s) := by
  unfold execPeerFrameDiscard
  repeat'
    first
      | with_reducible assumption
      | (with_reducible refine OutKeeps.next ?_)
      | (with_reducible apply modCtr_keeps)
      | dsimp only
      | split

theorem execDisableTimeout_keeps {z : State} {M : List Part} {t : Nat} {s : State} (hz : Keeps M z (atMt s t)) (hdisp : Part.disp ∈ M) : OutKeeps M z (execDisableTimeout t s) := by
  unfold execDisableTimeout
  repeat'
    first
      | with_reducible assumption
      | (with_reducible refine OutKeeps.next ?_)
      | (with_reducible apply addCauses_keeps)
      | dsimp only
      | split
      | (with_reducible refine Keeps.putDisp ?_ hdisp)

theorem execDisableDone_keeps {z : State} {M : List Part} {t : Nat} {s : State} (hz : Keeps M z (atMt s t)) (hhost : Part.host ∈ M) (hdisp : Part.disp ∈ M) (hpdk : Part.pdk ∈ M) (hclu : Part.clu ∈ M) (hhbm : Part.hbm ∈ M) (hpwr : Part.pwr ∈ M) (hflt : Part.flt ∈ M) (hpeers : Part.peers ∈ M) (hmeter : Part.meter ∈ M) (hfree : Part.free ∈ M) : OutKeeps M z (execDisableDone t s) := by
  unfold execDisableDone
  repeat'
    first
      | with_reducible assumption
      | (with_reducible refine OutKeeps.next ?_)
      | (with_reducible apply endFunction_keeps)
      | (with_reducible apply post_keeps)
      | (with_reducible apply nextDisable_keeps)
      | dsimp only
      | split

theorem execWindowWrite_keeps {z : State} {M : List Part} {t : Nat} {window : Nat} {reg : Nat} {v : Nat} {s : State} (hz : Keeps M z (atMt s t)) (hdisp : Part.disp ∈ M) (hpeers : Part.peers ∈ M) : OutKeeps M z (execWindowWrite t window reg v s) := by
  unfold execWindowWrite
  repeat'
    first
      | with_reducible assumption
      | (with_reducible refine OutKeeps.next ?_)
      | (with_reducible apply disable_keeps)
      | dsimp only
      | split

theorem execGroupCommit_keeps {z : State} {M : List Part} {t : Nat} {s : State} (hz : Keeps M z (atMt s t)) (hdisp : Part.disp ∈ M) (hpeers : Part.peers ∈ M) : OutKeeps M z (execGroupCommit t s) := by
  unfold execGroupCommit
  repeat'
    first
      | with_reducible assumption
      | (with_reducible refine OutKeeps.next ?_)
      | (with_reducible apply disable_keeps)
      | dsimp only
      | split

theorem execClusterRetire_keeps {z : State} {M : List Part} {t : Nat} {v : Nat} {s : State} (hz : Keeps M z (atMt s t)) (hdisp : Part.disp ∈ M) (hpeers : Part.peers ∈ M) : OutKeeps M z (execClusterRetire t v s) := by
  unfold execClusterRetire
  repeat'
    first
      | with_reducible assumption
      | (with_reducible refine OutKeeps.next ?_)
      | (with_reducible apply writeCluCmd_keeps)
      | dsimp only
      | split

theorem execJobOpen_keeps {z : State} {M : List Part} {t : Nat} {v : Nat} {s : State} (hz : Keeps M z (atMt s t)) (hdisp : Part.disp ∈ M) (hpeers : Part.peers ∈ M) : OutKeeps M z (execJobOpen t v s) := by
  unfold execJobOpen
  repeat'
    first
      | with_reducible assumption
      | (with_reducible refine OutKeeps.next ?_)
      | (with_reducible apply writeJobCtrl_keeps)
      | dsimp only
      | split

theorem execJobClose_keeps {z : State} {M : List Part} {t : Nat} {v : Nat} {s : State} (hz : Keeps M z (atMt s t)) (hdisp : Part.disp ∈ M) (hpeers : Part.peers ∈ M) : OutKeeps M z (execJobClose t v s) := by
  unfold execJobClose
  repeat'
    first
      | with_reducible assumption
      | (with_reducible refine OutKeeps.next ?_)
      | (with_reducible apply writeJobCtrl_keeps)
      | dsimp only
      | split

theorem execTileChoiceSet_keeps {z : State} {M : List Part} {t : Nat} {v : Nat} {s : State} (hz : Keeps M z (atMt s t)) (hdisp : Part.disp ∈ M) (hpeers : Part.peers ∈ M) : OutKeeps M z (execTileChoiceSet t v s) := by
  unfold execTileChoiceSet
  repeat'
    first
      | with_reducible assumption
      | (with_reducible refine OutKeeps.next ?_)
      | (with_reducible apply writeJobCtrl_keeps)
      | dsimp only
      | split

theorem execModTlbInv_keeps {z : State} {M : List Part} {t : Nat} {v : Nat} {s : State} (hz : Keeps M z (atMt s t)) (hhbm : Part.hbm ∈ M) : OutKeeps M z (execModTlbInv t v s) := by
  unfold execModTlbInv
  repeat'
    first
      | with_reducible assumption
      | (with_reducible refine OutKeeps.next ?_)
      | (with_reducible apply tlbInvalidate_keeps)
      | dsimp only
      | split

theorem execClusterGate_keeps {z : State} {M : List Part} {t : Nat} {p : Nat} {s : State} (hz : Keeps M z (atMt s t)) (hclu : Part.clu ∈ M) : OutKeeps M z (execClusterGate t p s) := by
  unfold execClusterGate
  repeat'
    first
      | with_reducible assumption
      | (with_reducible refine OutKeeps.next ?_)
      | (with_reducible apply modClu_keeps)
      | (with_reducible apply tallyActive_keeps)
      | intro _
      | dsimp only
      | split

theorem execClusterSleep_keeps {z : State} {M : List Part} {t : Nat} {p : Nat} {s : State} (hz : Keeps M z (atMt s t)) (hclu : Part.clu ∈ M) (hpwr : Part.pwr ∈ M) : OutKeeps M z (execClusterSleep t p s) := by
  unfold execClusterSleep
  repeat'
    first
      | with_reducible assumption
      | (with_reducible refine OutKeeps.next ?_)
      | (with_reducible apply modClu_keeps)
      | (with_reducible apply modGroup_keeps)
      | intro _
      | dsimp only
      | split

theorem execClusterWake_keeps {z : State} {M : List Part} {t : Nat} {p : Nat} {why : WakeCause} {s : State} (hz : Keeps M z (atMt s t)) (hpdk : Part.pdk ∈ M) (hclu : Part.clu ∈ M) (hpwr : Part.pwr ∈ M) : OutKeeps M z (execClusterWake t p why s) := by
  unfold execClusterWake
  repeat'
    first
      | with_reducible assumption
      | (with_reducible refine OutKeeps.next ?_)
      | (with_reducible apply modClu_keeps)
      | (with_reducible apply makeActive_keeps)
      | (with_reducible apply trace_keeps)
      | intro _
      | dsimp only
      | split

theorem execGroupPllStop_keeps {z : State} {M : List Part} {t : Nat} {g : Nat} {s : State} (hz : Keeps M z (atMt s t)) (hpwr : Part.pwr ∈ M) : OutKeeps M z (execGroupPllStop t g s) := by
  unfold execGroupPllStop
  repeat'
    first
      | with_reducible assumption
      | (with_reducible refine OutKeeps.next ?_)
      | (with_reducible apply modGroup_keeps)
      | dsimp only
      | split

theorem execPowerEvaluation_keeps {z : State} {M : List Part} {t : Nat} {meanW : Nat} {s : State} (hz : Keeps M z (atMt s t)) (hpwr : Part.pwr ∈ M) : OutKeeps M z (execPowerEvaluation t meanW s) := by
  unfold execPowerEvaluation
  repeat'
    first
      | with_reducible assumption
      | (with_reducible refine OutKeeps.next ?_)
      | dsimp only
      | split
      | (with_reducible refine Keeps.putPwr ?_ hpwr)

theorem execGroupStepSwitch_keeps {z : State} {M : List Part} {t : Nat} {g : Nat} {s : State} (hz : Keeps M z (atMt s t)) (hpdk : Part.pdk ∈ M) (hclu : Part.clu ∈ M) (hpwr : Part.pwr ∈ M) : OutKeeps M z (execGroupStepSwitch t g s) := by
  unfold execGroupStepSwitch
  repeat'
    first
      | with_reducible assumption
      | (with_reducible refine OutKeeps.next ?_)
      | (with_reducible apply modGroup_keeps)
      | (with_reducible apply tallyGroup_keeps)
      | (with_reducible apply traceStep_keeps)
      | (with_reducible apply post_keeps)
      | dsimp only
      | split
      | (with_reducible refine Keeps.putPwr ?_ hpwr)

theorem execPwrCapWrite_keeps {z : State} {M : List Part} {t : Nat} {v : Nat} {s : State} (hz : Keeps M z (atMt s t)) (hpwr : Part.pwr ∈ M) : OutKeeps M z (execPwrCapWrite t v s) := by
  unfold execPwrCapWrite
  repeat'
    first
      | with_reducible assumption
      | (with_reducible refine OutKeeps.next ?_)
      | (with_reducible apply writeCap_keeps)
      | dsimp only
      | split

theorem execSupplyOutOfRange_keeps {z : State} {M : List Part} {t : Nat} {mv : Nat} {s : State} (hz : Keeps M z (atMt s t)) (hctl : Part.ctl ∈ M) (hflash : Part.flash ∈ M) (hclock : Part.clock ∈ M) (hhost : Part.host ∈ M) (hdisp : Part.disp ∈ M) (hreins : Part.reins ∈ M) (hpdk : Part.pdk ∈ M) (hclu : Part.clu ∈ M) (hhbm : Part.hbm ∈ M) (hpwr : Part.pwr ∈ M) (hflt : Part.flt ∈ M) (hpeers : Part.peers ∈ M) (hsec : Part.sec ∈ M) (hmeter : Part.meter ∈ M) (hkyend : Part.kyend ∈ M) : OutKeeps M z (execSupplyOutOfRange t mv s) := by
  unfold execSupplyOutOfRange
  repeat'
    first
      | with_reducible assumption
      | (with_reducible refine OutKeeps.next ?_)
      | (with_reducible apply powerDown_keeps)
      | dsimp only
      | split
      | (with_reducible refine Keeps.putPwr ?_ hpwr)

theorem execReferenceClockFail_keeps {z : State} {M : List Part} {t : Nat} {s : State} (hz : Keeps M z (atMt s t)) (hctl : Part.ctl ∈ M) (hflash : Part.flash ∈ M) (hclock : Part.clock ∈ M) (hhost : Part.host ∈ M) (hdisp : Part.disp ∈ M) (hreins : Part.reins ∈ M) (hpdk : Part.pdk ∈ M) (hclu : Part.clu ∈ M) (hhbm : Part.hbm ∈ M) (hpwr : Part.pwr ∈ M) (hflt : Part.flt ∈ M) (hpeers : Part.peers ∈ M) (hsec : Part.sec ∈ M) (hmeter : Part.meter ∈ M) (hkyend : Part.kyend ∈ M) : OutKeeps M z (execReferenceClockFail t s) := by
  unfold execReferenceClockFail
  repeat'
    first
      | with_reducible assumption
      | (with_reducible refine OutKeeps.next ?_)
      | (with_reducible apply powerDown_keeps)
      | dsimp only
      | split

theorem execSupplyLow_keeps {z : State} {M : List Part} {t : Nat} {mv : Nat} {s : State} (hz : Keeps M z (atMt s t)) (hpdk : Part.pdk ∈ M) (hpwr : Part.pwr ∈ M) : OutKeeps M z (execSupplyLow t mv s) := by
  unfold execSupplyLow
  repeat'
    first
      | with_reducible assumption
      | (with_reducible refine OutKeeps.next ?_)
      | (with_reducible apply post_keeps)
      | dsimp only
      | split
      | (with_reducible refine Keeps.putPwr ?_ hpwr)

theorem execSupplyLowEnd_keeps {z : State} {M : List Part} {t : Nat} {mv : Nat} {s : State} (hz : Keeps M z (atMt s t)) (hpdk : Part.pdk ∈ M) (hpwr : Part.pwr ∈ M) : OutKeeps M z (execSupplyLowEnd t mv s) := by
  unfold execSupplyLowEnd
  repeat'
    first
      | with_reducible assumption
      | (with_reducible refine OutKeeps.next ?_)
      | (with_reducible apply post_keeps)
      | dsimp only
      | split
      | (with_reducible refine Keeps.putPwr ?_ hpwr)

theorem execSupplyRestored_keeps {z : State} {M : List Part} {t : Nat} {mv : Nat} {s : State} (hz : Keeps M z (atMt s t)) (hctl : Part.ctl ∈ M) (hclock : Part.clock ∈ M) (hpwr : Part.pwr ∈ M) : OutKeeps M z (execSupplyRestored t mv s) := by
  unfold execSupplyRestored
  repeat'
    first
      | with_reducible assumption
      | (with_reducible refine OutKeeps.next ?_)
      | dsimp only
      | split
      | (with_reducible refine Keeps.putCtlClockPwr ?_ rfl hctl hclock hpwr)
  all_goals exact hz.trans ⟨rfl, fun m => ⟨m.1, m.2.1, m.2.2.1, m.2.2.2.1, rfl, m.2.2.2.2.2⟩, SameBut.lit (.inl hctl) (.inr rfl) (.inl hclock) (.inr rfl) (.inr rfl) (.inr rfl) (.inr rfl) (.inr rfl) (.inr rfl) (.inl hpwr) (.inr rfl) (.inr rfl) (.inr rfl) (.inr rfl) (.inr rfl) (.inr rfl)⟩

theorem execThermalLimit_keeps {z : State} {M : List Part} {t : Nat} {die : Nat} {tempC : Nat} {s : State} (hz : Keeps M z (atMt s t)) (hctl : Part.ctl ∈ M) (hflash : Part.flash ∈ M) (hclock : Part.clock ∈ M) (hhost : Part.host ∈ M) (hdisp : Part.disp ∈ M) (hreins : Part.reins ∈ M) (hpdk : Part.pdk ∈ M) (hclu : Part.clu ∈ M) (hhbm : Part.hbm ∈ M) (hpwr : Part.pwr ∈ M) (hflt : Part.flt ∈ M) (hpeers : Part.peers ∈ M) (hsec : Part.sec ∈ M) (hmeter : Part.meter ∈ M) (hkyend : Part.kyend ∈ M) : OutKeeps M z (execThermalLimit t die tempC s) := by
  unfold execThermalLimit
  repeat'
    first
      | with_reducible assumption
      | (with_reducible refine OutKeeps.next ?_)
      | (with_reducible apply noteTemp_keeps)
      | (with_reducible apply powerDown_keeps)
      | (with_reducible apply startStretch_keeps)
      | dsimp only
      | split
      | (with_reducible refine Keeps.putPwr ?_ hpwr)

theorem execThermalRecover_keeps {z : State} {M : List Part} {t : Nat} {die : Nat} {tempC : Nat} {s : State} (hz : Keeps M z (atMt s t)) (hpdk : Part.pdk ∈ M) (hclu : Part.clu ∈ M) (hpwr : Part.pwr ∈ M) : OutKeeps M z (execThermalRecover t die tempC s) := by
  unfold execThermalRecover
  repeat'
    first
      | with_reducible assumption
      | (with_reducible refine OutKeeps.next ?_)
      | (with_reducible apply noteTemp_keeps)
      | (with_reducible apply endStretch_keeps)
      | dsimp only
      | split
      | (with_reducible refine Keeps.putPwr ?_ hpwr)

theorem execDroopDetect_keeps {z : State} {M : List Part} {t : Nat} {g : Nat} {stretched : Nat} {inLastMs : Nat} {cyclesInMs : Nat} {s : State} (hz : Keeps M z (atMt s t)) (hpdk : Part.pdk ∈ M) (hpwr : Part.pwr ∈ M) : OutKeeps M z (execDroopDetect t g stretched inLastMs cyclesInMs s) := by
  unfold execDroopDetect
  repeat'
    first
      | with_reducible assumption
      | (with_reducible refine OutKeeps.next ?_)
      | (with_reducible apply modGroup_keeps)
      | (with_reducible apply post_keeps)
      | dsimp only
      | split

theorem execDroopEnd_keeps {z : State} {M : List Part} {t : Nat} {g : Nat} {s : State} (hz : Keeps M z (atMt s t)) (hpwr : Part.pwr ∈ M) : OutKeeps M z (execDroopEnd t g s) := by
  unfold execDroopEnd
  repeat'
    first
      | with_reducible assumption
      | (with_reducible refine OutKeeps.next ?_)
      | (with_reducible apply modGroup_keeps)
      | dsimp only
      | split

theorem execHeartbeat_keeps {z : State} {M : List Part} {t : Nat} {who : Beater} {s : State} (hz : Keeps M z (atMt s t)) (hreins : Part.reins ∈ M) (hclu : Part.clu ∈ M) : OutKeeps M z (execHeartbeat t who s) := by
  unfold execHeartbeat
  repeat'
    first
      | with_reducible assumption
      | (with_reducible refine OutKeeps.next ?_)
      | (with_reducible apply modReins_keeps)
      | (with_reducible apply modClu_keeps)
      | intro _
      | dsimp only
      | split

theorem execHeartbeatTimeout_keeps {z : State} {M : List Part} {t : Nat} {who : Beater} {s : State} (hz : Keeps M z (atMt s t)) (hctl : Part.ctl ∈ M) (hdisp : Part.disp ∈ M) (hpdk : Part.pdk ∈ M) (hclu : Part.clu ∈ M) (hpwr : Part.pwr ∈ M) (hflt : Part.flt ∈ M) (hmeter : Part.meter ∈ M) : OutKeeps M z (execHeartbeatTimeout t who s) := by
  unfold execHeartbeatTimeout
  repeat'
    first
      | with_reducible assumption
      | (with_reducible refine OutKeeps.next ?_)
      | (with_reducible apply declareFailed_keeps)
      | (with_reducible apply loseDieSup_keeps)
      | dsimp only
      | split

theorem execWakeHeartbeatTimeout_keeps {z : State} {M : List Part} {t : Nat} {p : Nat} {s : State} (hz : Keeps M z (atMt s t)) (hdisp : Part.disp ∈ M) (hpdk : Part.pdk ∈ M) (hclu : Part.clu ∈ M) (hpwr : Part.pwr ∈ M) (hflt : Part.flt ∈ M) (hmeter : Part.meter ∈ M) : OutKeeps M z (execWakeHeartbeatTimeout t p s) := by
  unfold execWakeHeartbeatTimeout
  repeat'
    first
      | with_reducible assumption
      | (with_reducible refine OutKeeps.next ?_)
      | (with_reducible apply declareFailed_keeps)
      | dsimp only
      | split

theorem execClusterFailDeclare_keeps {z : State} {M : List Part} {t : Nat} {p : Nat} {mech : Nat} {s : State} (hz : Keeps M z (atMt s t)) (hdisp : Part.disp ∈ M) (hpdk : Part.pdk ∈ M) (hclu : Part.clu ∈ M) (hpwr : Part.pwr ∈ M) (hflt : Part.flt ∈ M) (hmeter : Part.meter ∈ M) : OutKeeps M z (execClusterFailDeclare t p mech s) := by
  unfold execClusterFailDeclare
  repeat'
    first
      | with_reducible assumption
      | (with_reducible refine OutKeeps.next ?_)
      | (with_reducible apply declareFailed_keeps)
      | dsimp only
      | split

theorem execSpareTestDone_keeps {z : State} {M : List Part} {t : Nat} {g : Nat} {pass : Bool} {badRows : List (Nat × Nat)} {s : State} (hz : Keeps M z (atMt s t)) (hflash : Part.flash ∈ M) (hdisp : Part.disp ∈ M) (hpdk : Part.pdk ∈ M) (hclu : Part.clu ∈ M) (hpwr : Part.pwr ∈ M) (hflt : Part.flt ∈ M) (hmeter : Part.meter ∈ M) : OutKeeps M z (execSpareTestDone t g pass badRows s) := by
  unfold execSpareTestDone
  repeat'
    first
      | with_reducible assumption
      | (with_reducible refine OutKeeps.next ?_)
      | (with_reducible apply serveBy_keeps)
      | (with_reducible apply declareFailed_keeps)
      | (with_reducible refine mapOutRows_keeps (by assumption) ?_ ?_ ?_)
      | dsimp only
      | split
      | (with_reducible refine Keeps.putClu ?_ rfl hclu)

theorem execRetest_keeps {z : State} {M : List Part} {t : Nat} {p : Nat} {pass : Bool} {badRows : List (Nat × Nat)} {s : State} (hz : Keeps M z (atMt s t)) (hflash : Part.flash ∈ M) (hpdk : Part.pdk ∈ M) (hclu : Part.clu ∈ M) (hpwr : Part.pwr ∈ M) (hflt : Part.flt ∈ M) (hmeter : Part.meter ∈ M) : OutKeeps M z (execRetest t p pass badRows s) := by
  unfold execRetest
  repeat'
    first
      | with_reducible assumption
      | (with_reducible refine OutKeeps.next ?_)
      | (with_reducible apply modClu_keeps)
      | (with_reducible apply startRemount_keeps)
      | (with_reducible apply postFault_keeps)
      | (with_reducible refine mapOutRows_keeps (by assumption) ?_ ?_ ?_)
      | intro _
      | dsimp only
      | split

theorem execYarrowVisit_keeps {z : State} {M : List Part} {t : Nat} {p : Nat} {res : VisitResult} {s : State} (hz : Keeps M z (atMt s t)) (hdisp : Part.disp ∈ M) (hpdk : Part.pdk ∈ M) (hclu : Part.clu ∈ M) (hpwr : Part.pwr ∈ M) (hflt : Part.flt ∈ M) (hmeter : Part.meter ∈ M) (hkyend : Part.kyend ∈ M) : OutKeeps M z (execYarrowVisit t p res s) := by
  unfold execYarrowVisit
  repeat'
    first
      | with_reducible assumption
      | (with_reducible refine OutKeeps.next ?_)
      | (with_reducible apply makeActive_keeps)
      | (with_reducible apply yarrowAnswer_keeps)
      | (with_reducible apply modClu_keeps)
      | (with_reducible apply declareFailed_keeps)
      | intro _
      | dsimp only
      | split
      | (with_reducible refine Keeps.putClu ?_ rfl hclu)

theorem execDbgYarrowCmd_keeps {z : State} {M : List Part} {t : Nat} {v : Nat} {s : State} (hz : Keeps M z (atMt s t)) (hclu : Part.clu ∈ M) : OutKeeps M z (execDbgYarrowCmd t v s) := by
  unfold execDbgYarrowCmd
  repeat'
    first
      | with_reducible assumption
      | (with_reducible refine OutKeeps.next ?_)
      | (with_reducible apply writeYarrow_keeps)
      | dsimp only
      | split

theorem execYarrowRequestCancel_keeps {z : State} {M : List Part} {t : Nat} {s : State} (hz : Keeps M z (atMt s t)) (hclu : Part.clu ∈ M) (hkyend : Part.kyend ∈ M) : OutKeeps M z (execYarrowRequestCancel t s) := by
  unfold execYarrowRequestCancel
  repeat'
    first
      | with_reducible assumption
      | (with_reducible refine OutKeeps.next ?_)
      | (with_reducible apply kyendYarrowEnds_keeps)
      | dsimp only
      | split
      | (with_reducible refine Keeps.putClu ?_ rfl hclu)

theorem execSupervisorVoteMismatch_keeps {z : State} {M : List Part} {t : Nat} {which : VoteSet} {core : Nat} {s : State} (hz : Keeps M z (atMt s t)) (hctl : Part.ctl ∈ M) (hdisp : Part.disp ∈ M) (hpdk : Part.pdk ∈ M) (hflt : Part.flt ∈ M) (hmeter : Part.meter ∈ M) : OutKeeps M z (execSupervisorVoteMismatch t which core s) := by
  unfold execSupervisorVoteMismatch
  repeat'
    first
      | with_reducible assumption
      | (with_reducible refine OutKeeps.next ?_)
      | (with_reducible apply postFault_keeps)
      | (with_reducible apply loseDieSup_keeps)
      | dsimp only
      | split
      | (with_reducible refine Keeps.putCtl ?_ rfl hctl)

theorem execSupervisorResyncDone_keeps {z : State} {M : List Part} {t : Nat} {which : VoteSet} {s : State} (hz : Keeps M z (atMt s t)) (hctl : Part.ctl ∈ M) : OutKeeps M z (execSupervisorResyncDone t which s) := by
  unfold execSupervisorResyncDone
  repeat'
    first
      | with_reducible assumption
      | (with_reducible refine OutKeeps.next ?_)
      | dsimp only
      | split
      | (with_reducible refine Keeps.putCtl ?_ rfl hctl)

theorem execDieSupervisorLoss_keeps {z : State} {M : List Part} {t : Nat} {die : Nat} {s : State} (hz : Keeps M z (atMt s t)) (hctl : Part.ctl ∈ M) (hdisp : Part.disp ∈ M) (hpdk : Part.pdk ∈ M) (hflt : Part.flt ∈ M) (hmeter : Part.meter ∈ M) : OutKeeps M z (execDieSupervisorLoss t die s) := by
  unfold execDieSupervisorLoss
  repeat'
    first
      | with_reducible assumption
      | (with_reducible refine OutKeeps.next ?_)
      | (with_reducible apply loseDieSup_keeps)
      | dsimp only
      | split

theorem execDieSupervisorReloadDone_keeps {z : State} {M : List Part} {t : Nat} {die : Nat} {s : State} (hz : Keeps M z (atMt s t)) (hctl : Part.ctl ∈ M) (hreins : Part.reins ∈ M) (hpdk : Part.pdk ∈ M) (hflt : Part.flt ∈ M) (hmeter : Part.meter ∈ M) : OutKeeps M z (execDieSupervisorReloadDone t die s) := by
  unfold execDieSupervisorReloadDone
  repeat'
    first
      | with_reducible assumption
      | (with_reducible refine OutKeeps.next ?_)
      | (with_reducible apply modReins_keeps)
      | (with_reducible apply capClose_keeps)
      | dsimp only
      | split
      | (with_reducible refine Keeps.putCtl ?_ rfl hctl)

theorem execXUnitMismatch_keeps {z : State} {M : List Part} {t : Nat} {unit : XUnit} {s : State} (hz : Keeps M z (atMt s t)) (hdisp : Part.disp ∈ M) (hpdk : Part.pdk ∈ M) (hflt : Part.flt ∈ M) (hmeter : Part.meter ∈ M) : OutKeeps M z (execXUnitMismatch t unit s) := by
  unfold execXUnitMismatch
  repeat'
    first
      | with_reducible assumption
      | (with_reducible refine OutKeeps.next ?_)
      | (with_reducible apply postFault_keeps)
      | (with_reducible apply addCauses_keeps)
      | (with_reducible apply capOpen_keeps)
      | dsimp only
      | split
      | (with_reducible refine Keeps.putDisp ?_ hdisp)

theorem execDispatcherRestartDone_keeps {z : State} {M : List Part} {t : Nat} {s : State} (hz : Keeps M z (atMt s t)) (hdisp : Part.disp ∈ M) (hpdk : Part.pdk ∈ M) (hflt : Part.flt ∈ M) (hmeter : Part.meter ∈ M) : OutKeeps M z (execDispatcherRestartDone t s) := by
  unfold execDispatcherRestartDone
  repeat'
    first
      | with_reducible assumption
      | (with_reducible refine OutKeeps.next ?_)
      | (with_reducible apply capClose_keeps)
      | dsimp only
      | split
      | (with_reducible refine Keeps.putDisp ?_ hdisp)

theorem execNocFlitCrcFail_keeps {z : State} {M : List Part} {t : Nat} {die : Nat} {link : Nat} {s : State} (hz : Keeps M z (atMt s t)) (hpdk : Part.pdk ∈ M) (hflt : Part.flt ∈ M) (hmeter : Part.meter ∈ M) : OutKeeps M z (execNocFlitCrcFail t die link s) := by
  unfold execNocFlitCrcFail
  repeat'
    first
      | with_reducible assumption
      | (with_reducible refine OutKeeps.next ?_)
      | (with_reducible apply postFault_keeps)
      | dsimp only
      | split
      | (with_reducible refine Keeps.putFlt ?_ hflt)

theorem execDieLaneFail_keeps {z : State} {M : List Part} {t : Nat} {pair : Nat} {unit : Nat} {lane : Nat} {s : State} (hz : Keeps M z (atMt s t)) (hpdk : Part.pdk ∈ M) (hflt : Part.flt ∈ M) (hmeter : Part.meter ∈ M) : OutKeeps M z (execDieLaneFail t pair unit lane s) := by
  unfold execDieLaneFail
  repeat'
    first
      | with_reducible assumption
      | (with_reducible refine OutKeeps.next ?_)
      | (with_reducible apply postFault_keeps)
      | (with_reducible apply post_keeps)
      | dsimp only
      | split
      | (with_reducible refine Keeps.putFlt ?_ hflt)

theorem execRegulatorPhaseFail_keeps {z : State} {M : List Part} {t : Nat} {rail : Nat} {s : State} (hz : Keeps M z (atMt s t)) (hpdk : Part.pdk ∈ M) (hflt : Part.flt ∈ M) (hmeter : Part.meter ∈ M) : OutKeeps M z (execRegulatorPhaseFail t rail s) := by
  unfold execRegulatorPhaseFail
  repeat'
    first
      | with_reducible assumption
      | (with_reducible refine OutKeeps.next ?_)
      | (with_reducible apply postFault_keeps)
      | dsimp only
      | split
      | (with_reducible refine Keeps.putFlt ?_ hflt)

theorem execPllLockLoss_keeps {z : State} {M : List Part} {t : Nat} {pll : Pll} {s : State} (hz : Keeps M z (atMt s t)) (hclock : Part.clock ∈ M) (hhost : Part.host ∈ M) (hdisp : Part.disp ∈ M) (hpdk : Part.pdk ∈ M) (hclu : Part.clu ∈ M) (hhbm : Part.hbm ∈ M) (hpwr : Part.pwr ∈ M) (hflt : Part.flt ∈ M) (hpeers : Part.peers ∈ M) (hmeter : Part.meter ∈ M) : OutKeeps M z (execPllLockLoss t pll s) := by
  unfold execPllLockLoss
  repeat'
    first
      | with_reducible assumption
      | (with_reducible refine OutKeeps.next ?_)
      | (with_reducible apply loseGroup_keeps)
      | (with_reducible apply postFault_keeps)
      | (with_reducible apply addCauses_keeps)
      | (with_reducible apply failStack_keeps)
      | (with_reducible apply loseHostPath_keeps)
      | (with_reducible apply loseStandby_keeps)
      | (with_reducible apply losePeer_keeps)
      | dsimp only
      | split

theorem execStartSequence_keeps {z : State} {M : List Part} {t : Nat} {i : StartInputs} {s : State} (hz : Keeps M z (atMt s t)) (hctl : Part.ctl ∈ M) (hflash : Part.flash ∈ M) (hhost : Part.host ∈ M) (hreins : Part.reins ∈ M) (hclu : Part.clu ∈ M) (hhbm : Part.hbm ∈ M) (hpwr : Part.pwr ∈ M) (hflt : Part.flt ∈ M) (hpeers : Part.peers ∈ M) (hsec : Part.sec ∈ M) (hkyend : Part.kyend ∈ M) (hfree : Part.free ∈ M) : OutKeeps M z (execStartSequence t i s) := by
  unfold execStartSequence
  repeat'
    first
      | with_reducible assumption
      | (with_reducible refine OutKeeps.next ?_)
      | (with_reducible apply kyendPrompt_keeps)
      | (with_reducible apply haltAt_keeps)
      | (with_reducible apply startPrimrose_keeps)
      | (with_reducible refine startConfig_keeps (by assumption) ?_ ?_ ?_)
      | (with_reducible refine startImage_keeps (by assumption) ?_ ?_)
      | (with_reducible refine startKeys_keeps (by assumption) ?_ ?_)
      | dsimp only
      | split
      | (with_reducible refine Keeps.putCtl ?_ rfl hctl)
      | (with_reducible refine Keeps.putFlash ?_ rfl rfl hflash)
      | (with_reducible refine Keeps.putPwr ?_ hpwr)
  all_goals exact Keeps.storeFlash (kyendPrompt_keeps (Keeps.putPwr hz hpwr) hkyend) (fun _ => cellsOf_wf _) (fun _ => cellsOf_wf _) hflash

theorem execPtpLock_keeps {z : State} {M : List Part} {t : Nat} {ptp : Nat} {s : State} (hz : Keeps M z (atMt s t)) (hctl : Part.ctl ∈ M) (hclock : Part.clock ∈ M) (hhost : Part.host ∈ M) (hreins : Part.reins ∈ M) (hpdk : Part.pdk ∈ M) (hclu : Part.clu ∈ M) (hpwr : Part.pwr ∈ M) (hflt : Part.flt ∈ M) (hpeers : Part.peers ∈ M) (hmeter : Part.meter ∈ M) (hfree : Part.free ∈ M) : OutKeeps M z (execPtpLock t ptp s) := by
  unfold execPtpLock
  repeat'
    first
      | with_reducible assumption
      | (with_reducible refine OutKeeps.next ?_)
      | (with_reducible apply enterReady_keeps)
      | (with_reducible apply faultLog_keeps)
      | (with_reducible apply post_keeps)
      | dsimp only
      | split
      | (with_reducible refine Keeps.putClock ?_ hclock)

theorem execCfgLoad_keeps {z : State} {M : List Part} {t : Nat} {v : Nat} {s : State} (hz : Keeps M z (atMt s t)) (hctl : Part.ctl ∈ M) (hflash : Part.flash ∈ M) (hpdk : Part.pdk ∈ M) : OutKeeps M z (execCfgLoad t v s) := by
  unfold execCfgLoad
  repeat'
    first
      | with_reducible assumption
      | (with_reducible refine OutKeeps.next ?_)
      | (with_reducible apply writeLoadCmd_keeps)
      | dsimp only
      | split

theorem execFwLoad_keeps {z : State} {M : List Part} {t : Nat} {v : Nat} {changed : Bool} {s : State} (hz : Keeps M z (atMt s t)) (hctl : Part.ctl ∈ M) (hflash : Part.flash ∈ M) (hpdk : Part.pdk ∈ M) : OutKeeps M z (execFwLoad t v changed s) := by
  unfold execFwLoad
  repeat'
    first
      | with_reducible assumption
      | (with_reducible refine OutKeeps.next ?_)
      | (with_reducible apply writeLoadCmd_keeps)
      | dsimp only
      | split

theorem execCodeBankFree_keeps {z : State} {M : List Part} {t : Nat} {s : State} (hz : Keeps M z (atMt s t)) (hctl : Part.ctl ∈ M) : OutKeeps M z (execCodeBankFree t s) := by
  unfold execCodeBankFree
  repeat'
    first
      | with_reducible assumption
      | (with_reducible refine OutKeeps.next ?_)
      | dsimp only
      | split
      | (with_reducible refine Keeps.putCtl ?_ rfl hctl)

theorem execSubmitArrival_keeps {z : State} {M : List Part} {t : Nat} {s : State} (hz : Keeps M z (atMt s t)) (hmeter : Part.meter ∈ M) : OutKeeps M z (execSubmitArrival t s) := by
  unfold execSubmitArrival
  repeat'
    first
      | with_reducible assumption
      | (with_reducible refine OutKeeps.next ?_)
      | dsimp only
      | split
      | (with_reducible refine Keeps.putMeter ?_ hmeter)

theorem execCompleteDeparture_keeps {z : State} {M : List Part} {t : Nat} {s : State} (hz : Keeps M z (atMt s t)) (hmeter : Part.meter ∈ M) : OutKeeps M z (execCompleteDeparture t s) := by
  unfold execCompleteDeparture
  repeat'
    first
      | with_reducible assumption
      | (with_reducible refine OutKeeps.next ?_)
      | dsimp only
      | split
      | (with_reducible refine Keeps.putMeter ?_ hmeter)

theorem execCompleteEvent_keeps {z : State} {M : List Part} {t : Nat} {s : State} (hz : Keeps M z (atMt s t)) (hmeter : Part.meter ∈ M) : OutKeeps M z (execCompleteEvent t s) := by
  unfold execCompleteEvent
  repeat'
    first
      | with_reducible assumption
      | (with_reducible refine OutKeeps.next ?_)
      | dsimp only
      | split
      | (with_reducible refine Keeps.putMeter ?_ hmeter)

theorem execPendingExpiry_keeps {z : State} {M : List Part} {t : Nat} {wu : Nat} {epoch : Nat} {s : State} (hz : Keeps M z (atMt s t)) (hmeter : Part.meter ∈ M) : OutKeeps M z (execPendingExpiry t wu epoch s) := by
  unfold execPendingExpiry
  repeat'
    first
      | with_reducible assumption
      | (with_reducible refine OutKeeps.next ?_)
      | (with_reducible apply modMeter_keeps)
      | dsimp only
      | split

theorem execUnmatchedTimeout_keeps {z : State} {M : List Part} {t : Nat} {wu : Nat} {epoch : Nat} {s : State} (hz : Keeps M z (atMt s t)) (hmeter : Part.meter ∈ M) : OutKeeps M z (execUnmatchedTimeout t wu epoch s) := by
  unfold execUnmatchedTimeout
  repeat'
    first
      | with_reducible assumption
      | (with_reducible refine OutKeeps.next ?_)
      | (with_reducible apply modMeter_keeps)
      | dsimp only
      | split

theorem execFaultLogTap_keeps {z : State} {M : List Part} {t : Nat} {s : State} (hz : Keeps M z (atMt s t)) (hmeter : Part.meter ∈ M) : OutKeeps M z (execFaultLogTap t s) := by
  unfold execFaultLogTap
  repeat'
    first
      | with_reducible assumption
      | (with_reducible refine OutKeeps.next ?_)
      | dsimp only
      | split
      | (with_reducible refine Keeps.putMeter ?_ hmeter)

theorem execTimeTap_keeps {z : State} {M : List Part} {t : Nat} {dieClock : Nat} {s : State} (hz : Keeps M z (atMt s t)) (hmeter : Part.meter ∈ M) : OutKeeps M z (execTimeTap t dieClock s) := by
  unfold execTimeTap
  repeat'
    first
      | with_reducible assumption
      | (with_reducible refine OutKeeps.next ?_)
      | dsimp only
      | split
      | (with_reducible refine Keeps.putMeter ?_ hmeter)

theorem execIntervalClose_keeps {z : State} {M : List Part} {t : Nat} {dieClock : Nat} {energyMj : Nat} {vminMv : Nat} {vmaxMv : Nat} {rnd : List Byte} {s : State} (hz : Keeps M z (atMt s t)) (hmeter : Part.meter ∈ M) : OutKeeps M z (execIntervalClose t dieClock energyMj vminMv vmaxMv rnd s) := by
  unfold execIntervalClose
  repeat'
    first
      | with_reducible assumption
      | (with_reducible refine OutKeeps.next ?_)
      | (with_reducible apply closeInterval_keeps)
      | dsimp only
      | split

theorem execMeterHoldup_keeps {z : State} {M : List Part} {t : Nat} {dieClock : Nat} {energyMj : Nat} {vminMv : Nat} {vmaxMv : Nat} {rnd : List Byte} {s : State} (hz : Keeps M z (atMt s t)) (hmeter : Part.meter ∈ M) : OutKeeps M z (execMeterHoldup t dieClock energyMj vminMv vmaxMv rnd s) := by
  unfold execMeterHoldup
  repeat'
    first
      | with_reducible assumption
      | (with_reducible refine OutKeeps.next ?_)
      | (with_reducible apply closeInterval_keeps)
      | (with_reducible apply modMeter_keeps)
      | dsimp only
      | split

theorem execReadRequest_keeps {z : State} {M : List Part} {t : Nat} {rnd : List Byte} {s : State} (hz : Keeps M z (atMt s t)) (hhost : Part.host ∈ M) (hpdk : Part.pdk ∈ M) (hpeers : Part.peers ∈ M) (hmeter : Part.meter ∈ M) : OutKeeps M z (execReadRequest t rnd s) := by
  unfold execReadRequest
  repeat'
    first
      | with_reducible assumption
      | (with_reducible refine OutKeeps.next ?_)
      | (with_reducible apply linkHeard_keeps)
      | (with_reducible apply sendSeq_keeps)
      | (with_reducible refine Keeps.foldl ?_ ?_)
      | intro _
      | dsimp only
      | split
      | (with_reducible refine Keeps.putMeter ?_ hmeter)

theorem execMeterStatusReport_keeps {z : State} {M : List Part} {t : Nat} {voltCv : Nat} {watt : Nat} {s : State} (hz : Keeps M z (atMt s t)) (hpdk : Part.pdk ∈ M) (hsec : Part.sec ∈ M) (hmeter : Part.meter ∈ M) : OutKeeps M z (execMeterStatusReport t voltCv watt s) := by
  unfold execMeterStatusReport
  repeat'
    first
      | with_reducible assumption
      | (with_reducible refine OutKeeps.next ?_)
      | (with_reducible apply linkHeard_keeps)
      | (with_reducible apply modMeter_keeps)
      | dsimp only
      | split
      | (with_reducible refine Keeps.putSec ?_ hsec)

theorem execMeterSilent_keeps {z : State} {M : List Part} {t : Nat} {s : State} (hz : Keeps M z (atMt s t)) (hhost : Part.host ∈ M) (hpdk : Part.pdk ∈ M) (hpeers : Part.peers ∈ M) (hmeter : Part.meter ∈ M) : OutKeeps M z (execMeterSilent t s) := by
  unfold execMeterSilent
  repeat'
    first
      | with_reducible assumption
      | (with_reducible refine OutKeeps.next ?_)
      | (with_reducible apply modMeter_keeps)
      | (with_reducible apply post_keeps)
      | (with_reducible apply sendSeq_keeps)
      | (with_reducible refine Keeps.foldl ?_ ?_)
      | intro _
      | dsimp only
      | split

theorem execServiceSession_keeps {z : State} {M : List Part} {t : Nat} {act : ServiceAct} {s : State} (hz : Keeps M z (atMt s t)) (hmeter : Part.meter ∈ M) : OutKeeps M z (execServiceSession t act s) := by
  unfold execServiceSession
  repeat'
    first
      | with_reducible assumption
      | (with_reducible refine OutKeeps.next ?_)
      | (with_reducible apply modMeter_keeps)
      | dsimp only
      | split

theorem execRegisterWrite_keeps {z : State} {M : List Part} {t : Nat} {off : Nat} {v : Nat} {s : State} (hz : Keeps M z (atMt s t)) (hctl : Part.ctl ∈ M) (hflash : Part.flash ∈ M) (hhost : Part.host ∈ M) (hdisp : Part.disp ∈ M) (hreins : Part.reins ∈ M) (hpdk : Part.pdk ∈ M) (hclu : Part.clu ∈ M) (hhbm : Part.hbm ∈ M) (hpwr : Part.pwr ∈ M) (hflt : Part.flt ∈ M) (hpeers : Part.peers ∈ M) : OutKeeps M z (execRegisterWrite t off v s) := by
  unfold execRegisterWrite
  repeat'
    first
      | with_reducible assumption
      | (with_reducible refine OutKeeps.next ?_)
      | (with_reducible apply writeReg_keeps)
      | dsimp only
      | split

theorem execMgmtRead_keeps {z : State} {M : List Part} {t : Nat} {d : Datagram} {s : State} (hz : Keeps M z (atMt s t)) (hhost : Part.host ∈ M) (hpeers : Part.peers ∈ M) (hmeter : Part.meter ∈ M) : OutKeeps M z (execMgmtRead t d s) := by
  unfold execMgmtRead
  repeat'
    first
      | with_reducible assumption
      | (with_reducible refine OutKeeps.next ?_)
      | (with_reducible apply hostMessage_keeps)
      | (with_reducible apply actMgmtRead_keeps)
      | intro _
      | dsimp only
      | split

theorem execMgmtWrite_keeps {z : State} {M : List Part} {t : Nat} {d : Datagram} {s : State} (hz : Keeps M z (atMt s t)) (hctl : Part.ctl ∈ M) (hflash : Part.flash ∈ M) (hhost : Part.host ∈ M) (hdisp : Part.disp ∈ M) (hreins : Part.reins ∈ M) (hpdk : Part.pdk ∈ M) (hclu : Part.clu ∈ M) (hhbm : Part.hbm ∈ M) (hpwr : Part.pwr ∈ M) (hflt : Part.flt ∈ M) (hpeers : Part.peers ∈ M) (hmeter : Part.meter ∈ M) : OutKeeps M z (execMgmtWrite t d s) := by
  unfold execMgmtWrite
  repeat'
    first
      | with_reducible assumption
      | (with_reducible refine OutKeeps.next ?_)
      | (with_reducible apply actMgmtWrite_keeps)
      | (with_reducible apply receive_fst_keeps)
      | (with_reducible refine receive_keeps (by assumption) ?_ ?_ ?_)
      | dsimp only
      | split

theorem execAttest_keeps {z : State} {M : List Part} {t : Nat} {d : Datagram} {rnd : List Byte} {s : State} (hz : Keeps M z (atMt s t)) (hhost : Part.host ∈ M) (hpeers : Part.peers ∈ M) (hsec : Part.sec ∈ M) (hmeter : Part.meter ∈ M) : OutKeeps M z (execAttest t d rnd s) := by
  unfold execAttest
  repeat'
    first
      | with_reducible assumption
      | (with_reducible refine OutKeeps.next ?_)
      | (with_reducible apply hostMessage_keeps)
      | (with_reducible apply actAttest_keeps)
      | intro _
      | dsimp only
      | split

theorem execKyendCharacter_keeps {z : State} {M : List Part} {t : Nat} {c : Nat} {s : State} (hz : Keeps M z (atMt s t)) (hctl : Part.ctl ∈ M) (hflash : Part.flash ∈ M) (hhost : Part.host ∈ M) (hdisp : Part.disp ∈ M) (hreins : Part.reins ∈ M) (hpdk : Part.pdk ∈ M) (hclu : Part.clu ∈ M) (hhbm : Part.hbm ∈ M) (hpwr : Part.pwr ∈ M) (hflt : Part.flt ∈ M) (hpeers : Part.peers ∈ M) (hkyend : Part.kyend ∈ M) : OutKeeps M z (execKyendCharacter t c s) := by
  unfold execKyendCharacter
  repeat'
    first
      | with_reducible assumption
      | (with_reducible refine OutKeeps.next ?_)
      | (with_reducible apply monTake_keeps)
      | (with_reducible apply takeCharacter_keeps)
      | intro _
      | dsimp only
      | split

theorem execKyendHelp_keeps {z : State} {M : List Part} {t : Nat} {s : State} (hz : Keeps M z (atMt s t)) (hkyend : Part.kyend ∈ M) : OutKeeps M z (execKyendHelp t s) := by
  unfold execKyendHelp
  repeat'
    first
      | with_reducible assumption
      | (with_reducible refine OutKeeps.next ?_)
      | (with_reducible apply monTake_keeps)
      | (with_reducible apply monHelp_keeps)
      | intro _
      | dsimp only
      | split

theorem execKyendId_keeps {z : State} {M : List Part} {t : Nat} {s : State} (hz : Keeps M z (atMt s t)) (hkyend : Part.kyend ∈ M) : OutKeeps M z (execKyendId t s) := by
  unfold execKyendId
  repeat'
    first
      | with_reducible assumption
      | (with_reducible refine OutKeeps.next ?_)
      | (with_reducible apply monTake_keeps)
      | (with_reducible apply monId_keeps)
      | intro _
      | dsimp only
      | split

theorem execKyendState_keeps {z : State} {M : List Part} {t : Nat} {s : State} (hz : Keeps M z (atMt s t)) (hkyend : Part.kyend ∈ M) : OutKeeps M z (execKyendState t s) := by
  unfold execKyendState
  repeat'
    first
      | with_reducible assumption
      | (with_reducible refine OutKeeps.next ?_)
      | (with_reducible apply monTake_keeps)
      | (with_reducible apply monState_keeps)
      | intro _
      | dsimp only
      | split

theorem execKyendClusters_keeps {z : State} {M : List Part} {t : Nat} {s : State} (hz : Keeps M z (atMt s t)) (hkyend : Part.kyend ∈ M) : OutKeeps M z (execKyendClusters t s) := by
  unfold execKyendClusters
  repeat'
    first
      | with_reducible assumption
      | (with_reducible refine OutKeeps.next ?_)
      | (with_reducible apply monTake_keeps)
      | (with_reducible apply monClusters_keeps)
      | intro _
      | dsimp only
      | split

theorem execKyendClustersGroup_keeps {z : State} {M : List Part} {t : Nat} {g : Nat} {s : State} (hz : Keeps M z (atMt s t)) (hkyend : Part.kyend ∈ M) : OutKeeps M z (execKyendClustersGroup t g s) := by
  unfold execKyendClustersGroup
  repeat'
    first
      | with_reducible assumption
      | (with_reducible refine OutKeeps.next ?_)
      | (with_reducible apply monTake_keeps)
      | (with_reducible apply monClustersGroup_keeps)
      | intro _
      | dsimp only
      | split

theorem execKyendHbm_keeps {z : State} {M : List Part} {t : Nat} {s : State} (hz : Keeps M z (atMt s t)) (hkyend : Part.kyend ∈ M) : OutKeeps M z (execKyendHbm t s) := by
  unfold execKyendHbm
  repeat'
    first
      | with_reducible assumption
      | (with_reducible refine OutKeeps.next ?_)
      | (with_reducible apply monTake_keeps)
      | (with_reducible apply monHbm_keeps)
      | intro _
      | dsimp only
      | split

theorem execKyendPorts_keeps {z : State} {M : List Part} {t : Nat} {s : State} (hz : Keeps M z (atMt s t)) (hkyend : Part.kyend ∈ M) : OutKeeps M z (execKyendPorts t s) := by
  unfold execKyendPorts
  repeat'
    first
      | with_reducible assumption
      | (with_reducible refine OutKeeps.next ?_)
      | (with_reducible apply monTake_keeps)
      | (with_reducible apply monPorts_keeps)
      | intro _
      | dsimp only
      | split

theorem execKyendTemps_keeps {z : State} {M : List Part} {t : Nat} {s : State} (hz : Keeps M z (atMt s t)) (hkyend : Part.kyend ∈ M) : OutKeeps M z (execKyendTemps t s) := by
  unfold execKyendTemps
  repeat'
    first
      | with_reducible assumption
      | (with_reducible refine OutKeeps.next ?_)
      | (with_reducible apply monTake_keeps)
      | (with_reducible apply monTemps_keeps)
      | intro _
      | dsimp only
      | split

theorem execKyendPower_keeps {z : State} {M : List Part} {t : Nat} {s : State} (hz : Keeps M z (atMt s t)) (hkyend : Part.kyend ∈ M) : OutKeeps M z (execKyendPower t s) := by
  unfold execKyendPower
  repeat'
    first
      | with_reducible assumption
      | (with_reducible refine OutKeeps.next ?_)
      | (with_reducible apply monTake_keeps)
      | (with_reducible apply monPower_keeps)
      | intro _
      | dsimp only
      | split

theorem execKyendTime_keeps {z : State} {M : List Part} {t : Nat} {s : State} (hz : Keeps M z (atMt s t)) (hkyend : Part.kyend ∈ M) : OutKeeps M z (execKyendTime t s) := by
  unfold execKyendTime
  repeat'
    first
      | with_reducible assumption
      | (with_reducible refine OutKeeps.next ?_)
      | (with_reducible apply monTake_keeps)
      | (with_reducible apply monTime_keeps)
      | intro _
      | dsimp only
      | split

theorem execKyendOwner_keeps {z : State} {M : List Part} {t : Nat} {s : State} (hz : Keeps M z (atMt s t)) (hkyend : Part.kyend ∈ M) : OutKeeps M z (execKyendOwner t s) := by
  unfold execKyendOwner
  repeat'
    first
      | with_reducible assumption
      | (with_reducible refine OutKeeps.next ?_)
      | (with_reducible apply monTake_keeps)
      | (with_reducible apply monOwner_keeps)
      | intro _
      | dsimp only
      | split

theorem execKyendLog_keeps {z : State} {M : List Part} {t : Nat} {n : Nat} {s : State} (hz : Keeps M z (atMt s t)) (hkyend : Part.kyend ∈ M) : OutKeeps M z (execKyendLog t n s) := by
  unfold execKyendLog
  repeat'
    first
      | with_reducible assumption
      | (with_reducible refine OutKeeps.next ?_)
      | (with_reducible apply monTake_keeps)
      | (with_reducible apply monLog_keeps)
      | intro _
      | dsimp only
      | split

theorem execKyendMeter_keeps {z : State} {M : List Part} {t : Nat} {s : State} (hz : Keeps M z (atMt s t)) (hkyend : Part.kyend ∈ M) : OutKeeps M z (execKyendMeter t s) := by
  unfold execKyendMeter
  repeat'
    first
      | with_reducible assumption
      | (with_reducible refine OutKeeps.next ?_)
      | (with_reducible apply monTake_keeps)
      | (with_reducible apply monMeter_keeps)
      | intro _
      | dsimp only
      | split

theorem execKyendPeek_keeps {z : State} {M : List Part} {t : Nat} {off : Nat} {count : Nat} {s : State} (hz : Keeps M z (atMt s t)) (hkyend : Part.kyend ∈ M) : OutKeeps M z (execKyendPeek t off count s) := by
  unfold execKyendPeek
  repeat'
    first
      | with_reducible assumption
      | (with_reducible refine OutKeeps.next ?_)
      | (with_reducible apply monTake_keeps)
      | (with_reducible apply monPeek_keeps)
      | intro _
      | dsimp only
      | split

theorem execKyendPoke_keeps {z : State} {M : List Part} {t : Nat} {off : Nat} {v : Nat} {s : State} (hz : Keeps M z (atMt s t)) (hctl : Part.ctl ∈ M) (hflash : Part.flash ∈ M) (hhost : Part.host ∈ M) (hdisp : Part.disp ∈ M) (hreins : Part.reins ∈ M) (hpdk : Part.pdk ∈ M) (hclu : Part.clu ∈ M) (hhbm : Part.hbm ∈ M) (hpwr : Part.pwr ∈ M) (hflt : Part.flt ∈ M) (hpeers : Part.peers ∈ M) (hkyend : Part.kyend ∈ M) : OutKeeps M z (execKyendPoke t off v s) := by
  unfold execKyendPoke
  repeat'
    first
      | with_reducible assumption
      | (with_reducible refine OutKeeps.next ?_)
      | (with_reducible apply monTake_keeps)
      | (with_reducible apply monPoke_keeps)
      | intro _
      | dsimp only
      | split

theorem execKyendTrace_keeps {z : State} {M : List Part} {t : Nat} {mask : Option Nat} {s : State} (hz : Keeps M z (atMt s t)) (hctl : Part.ctl ∈ M) (hflash : Part.flash ∈ M) (hhost : Part.host ∈ M) (hdisp : Part.disp ∈ M) (hreins : Part.reins ∈ M) (hpdk : Part.pdk ∈ M) (hclu : Part.clu ∈ M) (hhbm : Part.hbm ∈ M) (hpwr : Part.pwr ∈ M) (hflt : Part.flt ∈ M) (hpeers : Part.peers ∈ M) (hkyend : Part.kyend ∈ M) : OutKeeps M z (execKyendTrace t mask s) := by
  unfold execKyendTrace
  repeat'
    first
      | with_reducible assumption
      | (with_reducible refine OutKeeps.next ?_)
      | (with_reducible apply monTake_keeps)
      | (with_reducible apply monTrace_keeps)
      | intro _
      | dsimp only
      | split

theorem execKyendYarrow_keeps {z : State} {M : List Part} {t : Nat} {p : Nat} {s : State} (hz : Keeps M z (atMt s t)) (hctl : Part.ctl ∈ M) (hflash : Part.flash ∈ M) (hhost : Part.host ∈ M) (hdisp : Part.disp ∈ M) (hreins : Part.reins ∈ M) (hpdk : Part.pdk ∈ M) (hclu : Part.clu ∈ M) (hhbm : Part.hbm ∈ M) (hpwr : Part.pwr ∈ M) (hflt : Part.flt ∈ M) (hpeers : Part.peers ∈ M) (hkyend : Part.kyend ∈ M) : OutKeeps M z (execKyendYarrow t p s) := by
  unfold execKyendYarrow
  repeat'
    first
      | with_reducible assumption
      | (with_reducible refine OutKeeps.next ?_)
      | (with_reducible apply monTake_keeps)
      | (with_reducible apply monYarrow_keeps)
      | intro _
      | dsimp only
      | split

end Sys2Proof.Laws
end

