-- ==== Sys2Proof/Laws/Ops.lean ====
section
/-! SUPPORT. What the shared operations do: time, the Paddock and its events, tables in key order. -/

namespace Sys2Proof.Laws

open Sys2Proof.Machine Sys2Proof.Safety

/-! ## Tables in key order -/

/-- The keys of a table rise. -/
def Rising {α : Type} (t : Tbl α) : Prop := (t.map (·.1)).Pairwise (· < ·)

theorem rising_cons {α : Type} {k : Nat} {v : α} {r : Tbl α} :
    Rising ((k, v) :: r) ↔ (∀ e ∈ r, k < e.1) ∧ Rising r := by
  simp [Rising]

theorem tblGet_above {α : Type} {d : α} {t : Tbl α} {x : Nat} (h : ∀ e ∈ t, x < e.1) : tblGet d t x = d := by
  induction t with
  | nil => rfl
  | cons e r ih =>
    obtain ⟨k, v⟩ := e
    have hk : x < k := h (k, v) (by simp)
    simp only [tblGet, Nat.ne_of_gt hk, ite_false]
    exact ih fun e he => h e (by simp [he])

theorem rising_tblSet {α : Type} {t : Tbl α} (h : Rising t) (x : Nat) (a : α) : Rising (tblSet t x a) := by
  induction t with
  | nil => simp [tblSet, Rising]
  | cons e r ih =>
    obtain ⟨k, v⟩ := e
    obtain ⟨h1, h2⟩ := rising_cons.mp h
    unfold tblSet
    split
    · rename_i hx
      refine rising_cons.mpr ⟨fun e he => ?_, h⟩
      rcases List.mem_cons.mp he with rfl | he
      · exact hx
      · exact Nat.lt_trans hx (h1 e he)
    · split
      · rename_i hx
        subst hx
        exact rising_cons.mpr ⟨h1, h2⟩
      · rename_i hx hne
        refine rising_cons.mpr ⟨fun e he => ?_, ih h2⟩
        rcases mem_tblSet he with rfl | he
        · exact Nat.lt_of_le_of_ne (Nat.le_of_not_lt hx) (Ne.symm hne)
        · exact h1 e he

/-- A sum over a table after one entry is set. -/
theorem sum_tblSet {α : Type} {d : α} {g : Nat × α → Nat} {x : Nat} {a : α} {t : Tbl α} (h : Rising t) (hd : g (x, d) = 0) :
    ((tblSet t x a).map g).sum + g (x, tblGet d t x) = (t.map g).sum + g (x, a) := by
  induction t with
  | nil => simp [tblSet, tblGet, hd]
  | cons e r ih =>
    obtain ⟨k, v⟩ := e
    obtain ⟨h1, h2⟩ := rising_cons.mp h
    unfold tblSet
    split
    · rename_i hx
      rw [tblGet_above (d := d) (t := (k, v) :: r), hd]
      · simp only [List.map_cons, List.sum_cons]
        omega
      · intro e he
        rcases List.mem_cons.mp he with rfl | he
        · exact hx
        · exact Nat.lt_trans hx (h1 e he)
    · split
      · rename_i hx
        subst hx
        simp only [List.map_cons, List.sum_cons, tblGet, if_true]
        omega
      · rename_i hx hne
        have := ih h2
        simp only [List.map_cons, List.sum_cons, tblGet, Ne.symm hne, ite_false]
        omega

/-! ## Time -/

@[simp] theorem now_atMt (s : State) (t : Nat) : now (atMt s t) = max (now s) t := rfl

/-! ## Items and events -/

theorem sumNat_eq (l : List Nat) : sumNat l = l.sum := by
  have k : ∀ n, l.foldl (· + ·) n = n + l.sum := by
    induction l with
    | nil => simp
    | cons a l ih => intro n; simp [ih, Nat.add_assoc]
  simpa [sumNat] using k 0

@[simp] theorem itemCells_append (l m : List Item) : itemCells (l ++ m) = itemCells l + itemCells m := by
  simp [itemCells, sumNat_eq]

@[simp] theorem length_leBytes (n v : Nat) : (leBytes n v).length = n := by
  induction n generalizing v with
  | zero => rfl
  | succ n ih => simp [leBytes, ih]

@[simp] theorem length_eventCell (e : Event) (mt : Nat) : (eventCell e mt).length = 64 := by
  simp [eventCell, numsFrom]

/-- An item appended to a queue: what the queue holds then. -/
theorem pdkItems_pdkAppend (s : State) (p q : Nat) (it : Item) :
    pdkItems (pdkAppend s p q it) p q =
      pdkItems s p q ++ [{ it with kind := 2, cells := cellsOfPayload it.payload, seq := tblGet 0 s.pdk.seqNext (1024 * p + it.source), mt := now s }] := by
  simp [pdkAppend, setQueue, pdkItems]

/-- An item appended to a queue leaves every other queue alone. -/
theorem pdkItems_pdkAppend_other (s : State) (p q : Nat) (it : Item) {p' q' : Nat} (h : qKey p' q' ≠ qKey p q) :
    pdkItems (pdkAppend s p q it) p' q' = pdkItems s p' q' := by
  simp only [pdkAppend, setQueue, pdkItems]
  exact tblGet_tblSet_other _ _ _ h

theorem poolUsed_append {s : State} (hr : Rising s.pdk.queues) (it : Item) (p q : Nat) (hq : q < 4096) :
    poolUsedCells (pdkAppend s p q it) p = poolUsedCells s p +
      (if it.marker then 0 else cellsOfPayload it.payload) := by
  have hk : qKey p q / 4096 = p := by unfold qKey; omega
  have k := sum_tblSet (d := []) (g := fun e : Nat × List Item => if e.1 / 4096 = p then itemCells e.2 else 0) (x := qKey p q)
    (a := pdkItems s p q ++ [{ it with kind := 2, cells := cellsOfPayload it.payload, seq := tblGet 0 s.pdk.seqNext (1024 * p + it.source), mt := now s }])
    hr (by simp [itemCells, sumNat])
  simp only [hk, if_true, itemCells_append] at k
  simp only [poolUsedCells, sumNat_eq, pdkAppend, setQueue] at k ⊢
  have e : itemCells [{ it with kind := 2, cells := cellsOfPayload it.payload, seq := tblGet 0 s.pdk.seqNext (1024 * p + it.source), mt := now s }] =
      if it.marker then 0 else cellsOfPayload it.payload := by
    simp [itemCells, sumNat]
  rw [e] at k
  simp only [pdkItems] at k ⊢
  omega

/-- Room for an event is room for its packet. -/
theorem pdkFits_of_room {s : State} {n : Nat} (h : Room s (n + 1)) : pdkFits s 4 10 1 = true := by
  obtain ⟨_, h2, h3⟩ := h
  have a : itemCells (pdkItems s 4 10) + 1 ≤ 16384 := by omega
  have b : 1 ≤ 262144 - poolUsedCells s 4 := by omega
  simp [pdkFits, pdkLimit, poolFree, a, b]

/-- An event posted with room in its queue stands at the queue's end, and one cell less is free. -/
theorem postFrom_room {s : State} {n src : Nat} {e : Event} (h : Room s (n + 1)) : Room (postFrom s src e) n := by
  have hf := pdkFits_of_room h
  obtain ⟨h1, h2, h3⟩ := h
  have hc : cellsOfPayload (eventCell e (now s)) = 1 := by simp [cellsOfPayload, ceilDiv]
  simp only [postFrom, pdkPut, hc, hf, if_true]
  refine ⟨?_, ?_, ?_⟩
  · exact rising_tblSet h1 _ _
  · rw [pdkItems_pdkAppend]
    simp [itemCells, sumNat, hc] at h2 ⊢
    omega
  · rw [poolUsed_append h1 _ _ _ (by decide)]
    simp [hc]
    omega

theorem postFrom_items {s : State} {n src : Nat} {e : Event} (h : Room s (n + 1)) :
    (pdkItems (postFrom s src e) 4 10).map (·.payload) = (pdkItems s 4 10).map (·.payload) ++ [eventCell e (now s)] := by
  have hf := pdkFits_of_room h
  have hc : cellsOfPayload (eventCell e (now s)) = 1 := by simp [cellsOfPayload, ceilDiv]
  simp only [postFrom, pdkPut, hc, hf, if_true]
  simp [pdkItems_pdkAppend]

/-- What an event's posting changes: the Paddock alone. -/
theorem postFrom_same (s : State) (src : Nat) (e : Event) : ∃ p, postFrom s src e = { s with pdk := p } := by
  unfold postFrom pdkPut
  split
  · exact ⟨_, rfl⟩
  · split
    · unfold pdkDrop
      dsimp only
      split <;> exact ⟨_, rfl⟩
    · exact ⟨_, rfl⟩

/-! ## What the posting of an event, a trace record or a packet leaves as it was -/

theorem pdkPut_same (s : State) (p q : Nat) (it : Item) : ∃ x, pdkPut s p q it = { s with pdk := x } := by
  unfold pdkPut
  split
  · exact ⟨_, rfl⟩
  · split
    · unfold pdkDrop
      dsimp only
      split <;> exact ⟨_, rfl⟩
    · exact ⟨_, rfl⟩

theorem trace_same (s : State) (kind : Nat) (l : Option Nat) (wu epoch idx ticket : Nat) (data : List Byte) :
    ∃ x, trace s kind l wu epoch idx ticket data = { s with pdk := x } := by
  unfold trace
  dsimp only
  split
  · split <;> exact pdkPut_same _ _ _ _
  · exact ⟨_, rfl⟩

@[simp] theorem pdkPut_ctl (s : State) (p q : Nat) (it : Item) : (pdkPut s p q it).ctl = s.ctl := by
  obtain ⟨x, h⟩ := pdkPut_same s p q it
  rw [h]

@[simp] theorem pdkPut_flash (s : State) (p q : Nat) (it : Item) : (pdkPut s p q it).flash = s.flash := by
  obtain ⟨x, h⟩ := pdkPut_same s p q it
  rw [h]

@[simp] theorem pdkPut_clock (s : State) (p q : Nat) (it : Item) : (pdkPut s p q it).clock = s.clock := by
  obtain ⟨x, h⟩ := pdkPut_same s p q it
  rw [h]

@[simp] theorem pdkPut_host (s : State) (p q : Nat) (it : Item) : (pdkPut s p q it).host = s.host := by
  obtain ⟨x, h⟩ := pdkPut_same s p q it
  rw [h]

@[simp] theorem pdkPut_disp (s : State) (p q : Nat) (it : Item) : (pdkPut s p q it).disp = s.disp := by
  obtain ⟨x, h⟩ := pdkPut_same s p q it
  rw [h]

@[simp] theorem pdkPut_reins (s : State) (p q : Nat) (it : Item) : (pdkPut s p q it).reins = s.reins := by
  obtain ⟨x, h⟩ := pdkPut_same s p q it
  rw [h]

@[simp] theorem pdkPut_clu (s : State) (p q : Nat) (it : Item) : (pdkPut s p q it).clu = s.clu := by
  obtain ⟨x, h⟩ := pdkPut_same s p q it
  rw [h]

@[simp] theorem pdkPut_hbm (s : State) (p q : Nat) (it : Item) : (pdkPut s p q it).hbm = s.hbm := by
  obtain ⟨x, h⟩ := pdkPut_same s p q it
  rw [h]

@[simp] theorem pdkPut_pwr (s : State) (p q : Nat) (it : Item) : (pdkPut s p q it).pwr = s.pwr := by
  obtain ⟨x, h⟩ := pdkPut_same s p q it
  rw [h]

@[simp] theorem pdkPut_flt (s : State) (p q : Nat) (it : Item) : (pdkPut s p q it).flt = s.flt := by
  obtain ⟨x, h⟩ := pdkPut_same s p q it
  rw [h]

@[simp] theorem pdkPut_peers (s : State) (p q : Nat) (it : Item) : (pdkPut s p q it).peers = s.peers := by
  obtain ⟨x, h⟩ := pdkPut_same s p q it
  rw [h]

@[simp] theorem pdkPut_sec (s : State) (p q : Nat) (it : Item) : (pdkPut s p q it).sec = s.sec := by
  obtain ⟨x, h⟩ := pdkPut_same s p q it
  rw [h]

@[simp] theorem pdkPut_meter (s : State) (p q : Nat) (it : Item) : (pdkPut s p q it).meter = s.meter := by
  obtain ⟨x, h⟩ := pdkPut_same s p q it
  rw [h]

@[simp] theorem pdkPut_kyend (s : State) (p q : Nat) (it : Item) : (pdkPut s p q it).kyend = s.kyend := by
  obtain ⟨x, h⟩ := pdkPut_same s p q it
  rw [h]

@[simp] theorem pdkPut_free (s : State) (p q : Nat) (it : Item) : (pdkPut s p q it).free = s.free := by
  obtain ⟨x, h⟩ := pdkPut_same s p q it
  rw [h]

@[simp] theorem pdkPut_pending (s : State) (p q : Nat) (it : Item) : (pdkPut s p q it).pending = s.pending := by
  obtain ⟨x, h⟩ := pdkPut_same s p q it
  rw [h]

@[simp] theorem postFrom_ctl (s : State) (src : Nat) (e : Event) : (postFrom s src e).ctl = s.ctl := by
  obtain ⟨x, h⟩ := postFrom_same s src e
  rw [h]

@[simp] theorem postFrom_flash (s : State) (src : Nat) (e : Event) : (postFrom s src e).flash = s.flash := by
  obtain ⟨x, h⟩ := postFrom_same s src e
  rw [h]

@[simp] theorem postFrom_clock (s : State) (src : Nat) (e : Event) : (postFrom s src e).clock = s.clock := by
  obtain ⟨x, h⟩ := postFrom_same s src e
  rw [h]

@[simp] theorem postFrom_host (s : State) (src : Nat) (e : Event) : (postFrom s src e).host = s.host := by
  obtain ⟨x, h⟩ := postFrom_same s src e
  rw [h]

@[simp] theorem postFrom_disp (s : State) (src : Nat) (e : Event) : (postFrom s src e).disp = s.disp := by
  obtain ⟨x, h⟩ := postFrom_same s src e
  rw [h]

@[simp] theorem postFrom_reins (s : State) (src : Nat) (e : Event) : (postFrom s src e).reins = s.reins := by
  obtain ⟨x, h⟩ := postFrom_same s src e
  rw [h]

@[simp] theorem postFrom_clu (s : State) (src : Nat) (e : Event) : (postFrom s src e).clu = s.clu := by
  obtain ⟨x, h⟩ := postFrom_same s src e
  rw [h]

@[simp] theorem postFrom_hbm (s : State) (src : Nat) (e : Event) : (postFrom s src e).hbm = s.hbm := by
  obtain ⟨x, h⟩ := postFrom_same s src e
  rw [h]

@[simp] theorem postFrom_pwr (s : State) (src : Nat) (e : Event) : (postFrom s src e).pwr = s.pwr := by
  obtain ⟨x, h⟩ := postFrom_same s src e
  rw [h]

@[simp] theorem postFrom_flt (s : State) (src : Nat) (e : Event) : (postFrom s src e).flt = s.flt := by
  obtain ⟨x, h⟩ := postFrom_same s src e
  rw [h]

@[simp] theorem postFrom_peers (s : State) (src : Nat) (e : Event) : (postFrom s src e).peers = s.peers := by
  obtain ⟨x, h⟩ := postFrom_same s src e
  rw [h]

@[simp] theorem postFrom_sec (s : State) (src : Nat) (e : Event) : (postFrom s src e).sec = s.sec := by
  obtain ⟨x, h⟩ := postFrom_same s src e
  rw [h]

@[simp] theorem postFrom_meter (s : State) (src : Nat) (e : Event) : (postFrom s src e).meter = s.meter := by
  obtain ⟨x, h⟩ := postFrom_same s src e
  rw [h]

@[simp] theorem postFrom_kyend (s : State) (src : Nat) (e : Event) : (postFrom s src e).kyend = s.kyend := by
  obtain ⟨x, h⟩ := postFrom_same s src e
  rw [h]

@[simp] theorem postFrom_free (s : State) (src : Nat) (e : Event) : (postFrom s src e).free = s.free := by
  obtain ⟨x, h⟩ := postFrom_same s src e
  rw [h]

@[simp] theorem postFrom_pending (s : State) (src : Nat) (e : Event) : (postFrom s src e).pending = s.pending := by
  obtain ⟨x, h⟩ := postFrom_same s src e
  rw [h]

@[simp] theorem post_ctl (s : State) (e : Event) : (post s e).ctl = s.ctl := by
  obtain ⟨x, h⟩ := postFrom_same s 548 e
  unfold post
  rw [h]

@[simp] theorem post_flash (s : State) (e : Event) : (post s e).flash = s.flash := by
  obtain ⟨x, h⟩ := postFrom_same s 548 e
  unfold post
  rw [h]

@[simp] theorem post_clock (s : State) (e : Event) : (post s e).clock = s.clock := by
  obtain ⟨x, h⟩ := postFrom_same s 548 e
  unfold post
  rw [h]

@[simp] theorem post_host (s : State) (e : Event) : (post s e).host = s.host := by
  obtain ⟨x, h⟩ := postFrom_same s 548 e
  unfold post
  rw [h]

@[simp] theorem post_disp (s : State) (e : Event) : (post s e).disp = s.disp := by
  obtain ⟨x, h⟩ := postFrom_same s 548 e
  unfold post
  rw [h]

@[simp] theorem post_reins (s : State) (e : Event) : (post s e).reins = s.reins := by
  obtain ⟨x, h⟩ := postFrom_same s 548 e
  unfold post
  rw [h]

@[simp] theorem post_clu (s : State) (e : Event) : (post s e).clu = s.clu := by
  obtain ⟨x, h⟩ := postFrom_same s 548 e
  unfold post
  rw [h]

@[simp] theorem post_hbm (s : State) (e : Event) : (post s e).hbm = s.hbm := by
  obtain ⟨x, h⟩ := postFrom_same s 548 e
  unfold post
  rw [h]

@[simp] theorem post_pwr (s : State) (e : Event) : (post s e).pwr = s.pwr := by
  obtain ⟨x, h⟩ := postFrom_same s 548 e
  unfold post
  rw [h]

@[simp] theorem post_flt (s : State) (e : Event) : (post s e).flt = s.flt := by
  obtain ⟨x, h⟩ := postFrom_same s 548 e
  unfold post
  rw [h]

@[simp] theorem post_peers (s : State) (e : Event) : (post s e).peers = s.peers := by
  obtain ⟨x, h⟩ := postFrom_same s 548 e
  unfold post
  rw [h]

@[simp] theorem post_sec (s : State) (e : Event) : (post s e).sec = s.sec := by
  obtain ⟨x, h⟩ := postFrom_same s 548 e
  unfold post
  rw [h]

@[simp] theorem post_meter (s : State) (e : Event) : (post s e).meter = s.meter := by
  obtain ⟨x, h⟩ := postFrom_same s 548 e
  unfold post
  rw [h]

@[simp] theorem post_kyend (s : State) (e : Event) : (post s e).kyend = s.kyend := by
  obtain ⟨x, h⟩ := postFrom_same s 548 e
  unfold post
  rw [h]

@[simp] theorem post_free (s : State) (e : Event) : (post s e).free = s.free := by
  obtain ⟨x, h⟩ := postFrom_same s 548 e
  unfold post
  rw [h]

@[simp] theorem post_pending (s : State) (e : Event) : (post s e).pending = s.pending := by
  obtain ⟨x, h⟩ := postFrom_same s 548 e
  unfold post
  rw [h]

@[simp] theorem trace_ctl (s : State) (kind : Nat) (l : Option Nat) (wu epoch idx ticket : Nat) (data : List Byte) : (trace s kind l wu epoch idx ticket data).ctl = s.ctl := by
  obtain ⟨x, h⟩ := trace_same s kind l wu epoch idx ticket data
  rw [h]

@[simp] theorem trace_flash (s : State) (kind : Nat) (l : Option Nat) (wu epoch idx ticket : Nat) (data : List Byte) : (trace s kind l wu epoch idx ticket data).flash = s.flash := by
  obtain ⟨x, h⟩ := trace_same s kind l wu epoch idx ticket data
  rw [h]

@[simp] theorem trace_clock (s : State) (kind : Nat) (l : Option Nat) (wu epoch idx ticket : Nat) (data : List Byte) : (trace s kind l wu epoch idx ticket data).clock = s.clock := by
  obtain ⟨x, h⟩ := trace_same s kind l wu epoch idx ticket data
  rw [h]

@[simp] theorem trace_host (s : State) (kind : Nat) (l : Option Nat) (wu epoch idx ticket : Nat) (data : List Byte) : (trace s kind l wu epoch idx ticket data).host = s.host := by
  obtain ⟨x, h⟩ := trace_same s kind l wu epoch idx ticket data
  rw [h]

@[simp] theorem trace_disp (s : State) (kind : Nat) (l : Option Nat) (wu epoch idx ticket : Nat) (data : List Byte) : (trace s kind l wu epoch idx ticket data).disp = s.disp := by
  obtain ⟨x, h⟩ := trace_same s kind l wu epoch idx ticket data
  rw [h]

@[simp] theorem trace_reins (s : State) (kind : Nat) (l : Option Nat) (wu epoch idx ticket : Nat) (data : List Byte) : (trace s kind l wu epoch idx ticket data).reins = s.reins := by
  obtain ⟨x, h⟩ := trace_same s kind l wu epoch idx ticket data
  rw [h]

@[simp] theorem trace_clu (s : State) (kind : Nat) (l : Option Nat) (wu epoch idx ticket : Nat) (data : List Byte) : (trace s kind l wu epoch idx ticket data).clu = s.clu := by
  obtain ⟨x, h⟩ := trace_same s kind l wu epoch idx ticket data
  rw [h]

@[simp] theorem trace_hbm (s : State) (kind : Nat) (l : Option Nat) (wu epoch idx ticket : Nat) (data : List Byte) : (trace s kind l wu epoch idx ticket data).hbm = s.hbm := by
  obtain ⟨x, h⟩ := trace_same s kind l wu epoch idx ticket data
  rw [h]

@[simp] theorem trace_pwr (s : State) (kind : Nat) (l : Option Nat) (wu epoch idx ticket : Nat) (data : List Byte) : (trace s kind l wu epoch idx ticket data).pwr = s.pwr := by
  obtain ⟨x, h⟩ := trace_same s kind l wu epoch idx ticket data
  rw [h]

@[simp] theorem trace_flt (s : State) (kind : Nat) (l : Option Nat) (wu epoch idx ticket : Nat) (data : List Byte) : (trace s kind l wu epoch idx ticket data).flt = s.flt := by
  obtain ⟨x, h⟩ := trace_same s kind l wu epoch idx ticket data
  rw [h]

@[simp] theorem trace_peers (s : State) (kind : Nat) (l : Option Nat) (wu epoch idx ticket : Nat) (data : List Byte) : (trace s kind l wu epoch idx ticket data).peers = s.peers := by
  obtain ⟨x, h⟩ := trace_same s kind l wu epoch idx ticket data
  rw [h]

@[simp] theorem trace_sec (s : State) (kind : Nat) (l : Option Nat) (wu epoch idx ticket : Nat) (data : List Byte) : (trace s kind l wu epoch idx ticket data).sec = s.sec := by
  obtain ⟨x, h⟩ := trace_same s kind l wu epoch idx ticket data
  rw [h]

@[simp] theorem trace_meter (s : State) (kind : Nat) (l : Option Nat) (wu epoch idx ticket : Nat) (data : List Byte) : (trace s kind l wu epoch idx ticket data).meter = s.meter := by
  obtain ⟨x, h⟩ := trace_same s kind l wu epoch idx ticket data
  rw [h]

@[simp] theorem trace_kyend (s : State) (kind : Nat) (l : Option Nat) (wu epoch idx ticket : Nat) (data : List Byte) : (trace s kind l wu epoch idx ticket data).kyend = s.kyend := by
  obtain ⟨x, h⟩ := trace_same s kind l wu epoch idx ticket data
  rw [h]

@[simp] theorem trace_free (s : State) (kind : Nat) (l : Option Nat) (wu epoch idx ticket : Nat) (data : List Byte) : (trace s kind l wu epoch idx ticket data).free = s.free := by
  obtain ⟨x, h⟩ := trace_same s kind l wu epoch idx ticket data
  rw [h]

@[simp] theorem trace_pending (s : State) (kind : Nat) (l : Option Nat) (wu epoch idx ticket : Nat) (data : List Byte) : (trace s kind l wu epoch idx ticket data).pending = s.pending := by
  obtain ⟨x, h⟩ := trace_same s kind l wu epoch idx ticket data
  rw [h]

@[simp] theorem now_post (s : State) (e : Event) : now (post s e) = now s := by simp [now]

@[simp] theorem now_postFrom (s : State) (src : Nat) (e : Event) : now (postFrom s src e) = now s := by simp [now]

@[simp] theorem now_trace (s : State) (kind : Nat) (l : Option Nat) (wu epoch idx ticket : Nat) (data : List Byte) :
    now (trace s kind l wu epoch idx ticket data) = now s := by simp [now]

/-! ## Lists of posted events -/

theorem room_congr {s v : State} (h : v.pdk = s.pdk) {n : Nat} : Room v n ↔ Room s n := by
  simp [Room, pdkItems, poolUsedCells, h]

theorem posted_nil {s v : State} (h : v.pdk = s.pdk) : Posted s v [] := by simp [Posted, pdkItems, h]

theorem posted_congr {s u v : State} {es : List Event} (hp : v.pdk = u.pdk) (hn : now v = now u) (h : Posted s u es) :
    Posted s v es := by
  simp only [Posted, pdkItems, hp, hn] at h ⊢
  exact h

theorem posted_from {s v : State} {src : Nat} {e : Event} (hv : v.pdk = s.pdk) (h : Room s 1) :
    Posted s (postFrom v src e) [e] := by
  have k := postFrom_items (src := src) (e := e) ((room_congr hv).mpr h)
  simp only [Posted, now_postFrom, List.map_cons, List.map_nil]
  rw [k]
  simp [pdkItems, hv]

theorem posted_one {s v : State} {e : Event} (hv : v.pdk = s.pdk) (h : Room s 1) : Posted s (post v e) [e] :=
  posted_from hv h

/-- A second event after the first ones. -/
theorem posted_more {s v : State} {src : Nat} {e : Event} {es : List Event} (h : Posted s v es) (hr : Room v 1) :
    Posted s (postFrom v src e) (es ++ [e]) := by
  have k := postFrom_items (src := src) (e := e) hr
  simp only [Posted, now_postFrom, List.map_append, List.map_cons, List.map_nil] at h ⊢
  rw [k, h, List.append_assoc]

theorem room_mono {s : State} {m n : Nat} (h : Room s n) (hm : m ≤ n) : Room s m := by
  obtain ⟨h1, h2, h3⟩ := h
  exact ⟨h1, by omega, by omega⟩

/-- One more event with room left for n others. -/
theorem posted_step {s v : State} {n src : Nat} {e : Event} {es : List Event} (hr : Room v (n + 1)) (h : Posted s v es) :
    Posted s (postFrom v src e) (es ++ [e]) ∧ Room (postFrom v src e) n :=
  ⟨posted_more h (room_mono hr (by omega)), postFrom_room hr⟩

/-! ## Faults and capacity: what their posting leaves as it was -/

@[simp] theorem postFault_ctl (s : State) (mech res p0 : Nat) : (postFault s mech res p0).ctl = s.ctl := by
  show (faultLog (post s _) _).ctl = s.ctl
  exact post_ctl s _

@[simp] theorem capOpen_ctl (s : State) (cond res : Nat) : (capOpen s cond res).ctl = s.ctl := by
  unfold capOpen
  split
  · rfl
  · exact post_ctl s _

@[simp] theorem capClose_ctl (s : State) (cond res : Nat) : (capClose s cond res).ctl = s.ctl := by
  unfold capClose
  split
  · rfl
  · exact post_ctl s _

@[simp] theorem postFault_flash (s : State) (mech res p0 : Nat) : (postFault s mech res p0).flash = s.flash := by
  show (faultLog (post s _) _).flash = s.flash
  exact post_flash s _

@[simp] theorem capOpen_flash (s : State) (cond res : Nat) : (capOpen s cond res).flash = s.flash := by
  unfold capOpen
  split
  · rfl
  · exact post_flash s _

@[simp] theorem capClose_flash (s : State) (cond res : Nat) : (capClose s cond res).flash = s.flash := by
  unfold capClose
  split
  · rfl
  · exact post_flash s _

@[simp] theorem postFault_clock (s : State) (mech res p0 : Nat) : (postFault s mech res p0).clock = s.clock := by
  show (faultLog (post s _) _).clock = s.clock
  exact post_clock s _

@[simp] theorem capOpen_clock (s : State) (cond res : Nat) : (capOpen s cond res).clock = s.clock := by
  unfold capOpen
  split
  · rfl
  · exact post_clock s _

@[simp] theorem capClose_clock (s : State) (cond res : Nat) : (capClose s cond res).clock = s.clock := by
  unfold capClose
  split
  · rfl
  · exact post_clock s _

@[simp] theorem postFault_host (s : State) (mech res p0 : Nat) : (postFault s mech res p0).host = s.host := by
  show (faultLog (post s _) _).host = s.host
  exact post_host s _

@[simp] theorem capOpen_host (s : State) (cond res : Nat) : (capOpen s cond res).host = s.host := by
  unfold capOpen
  split
  · rfl
  · exact post_host s _

@[simp] theorem capClose_host (s : State) (cond res : Nat) : (capClose s cond res).host = s.host := by
  unfold capClose
  split
  · rfl
  · exact post_host s _

@[simp] theorem postFault_disp (s : State) (mech res p0 : Nat) : (postFault s mech res p0).disp = s.disp := by
  show (faultLog (post s _) _).disp = s.disp
  exact post_disp s _

@[simp] theorem capOpen_disp (s : State) (cond res : Nat) : (capOpen s cond res).disp = s.disp := by
  unfold capOpen
  split
  · rfl
  · exact post_disp s _

@[simp] theorem capClose_disp (s : State) (cond res : Nat) : (capClose s cond res).disp = s.disp := by
  unfold capClose
  split
  · rfl
  · exact post_disp s _

@[simp] theorem postFault_reins (s : State) (mech res p0 : Nat) : (postFault s mech res p0).reins = s.reins := by
  show (faultLog (post s _) _).reins = s.reins
  exact post_reins s _

@[simp] theorem capOpen_reins (s : State) (cond res : Nat) : (capOpen s cond res).reins = s.reins := by
  unfold capOpen
  split
  · rfl
  · exact post_reins s _

@[simp] theorem capClose_reins (s : State) (cond res : Nat) : (capClose s cond res).reins = s.reins := by
  unfold capClose
  split
  · rfl
  · exact post_reins s _

@[simp] theorem postFault_clu (s : State) (mech res p0 : Nat) : (postFault s mech res p0).clu = s.clu := by
  show (faultLog (post s _) _).clu = s.clu
  exact post_clu s _

@[simp] theorem capOpen_clu (s : State) (cond res : Nat) : (capOpen s cond res).clu = s.clu := by
  unfold capOpen
  split
  · rfl
  · exact post_clu s _

@[simp] theorem capClose_clu (s : State) (cond res : Nat) : (capClose s cond res).clu = s.clu := by
  unfold capClose
  split
  · rfl
  · exact post_clu s _

@[simp] theorem postFault_hbm (s : State) (mech res p0 : Nat) : (postFault s mech res p0).hbm = s.hbm := by
  show (faultLog (post s _) _).hbm = s.hbm
  exact post_hbm s _

@[simp] theorem capOpen_hbm (s : State) (cond res : Nat) : (capOpen s cond res).hbm = s.hbm := by
  unfold capOpen
  split
  · rfl
  · exact post_hbm s _

@[simp] theorem capClose_hbm (s : State) (cond res : Nat) : (capClose s cond res).hbm = s.hbm := by
  unfold capClose
  split
  · rfl
  · exact post_hbm s _

@[simp] theorem postFault_pwr (s : State) (mech res p0 : Nat) : (postFault s mech res p0).pwr = s.pwr := by
  show (faultLog (post s _) _).pwr = s.pwr
  exact post_pwr s _

@[simp] theorem capOpen_pwr (s : State) (cond res : Nat) : (capOpen s cond res).pwr = s.pwr := by
  unfold capOpen
  split
  · rfl
  · exact post_pwr s _

@[simp] theorem capClose_pwr (s : State) (cond res : Nat) : (capClose s cond res).pwr = s.pwr := by
  unfold capClose
  split
  · rfl
  · exact post_pwr s _

@[simp] theorem postFault_peers (s : State) (mech res p0 : Nat) : (postFault s mech res p0).peers = s.peers := by
  show (faultLog (post s _) _).peers = s.peers
  exact post_peers s _

@[simp] theorem capOpen_peers (s : State) (cond res : Nat) : (capOpen s cond res).peers = s.peers := by
  unfold capOpen
  split
  · rfl
  · exact post_peers s _

@[simp] theorem capClose_peers (s : State) (cond res : Nat) : (capClose s cond res).peers = s.peers := by
  unfold capClose
  split
  · rfl
  · exact post_peers s _

@[simp] theorem postFault_sec (s : State) (mech res p0 : Nat) : (postFault s mech res p0).sec = s.sec := by
  show (faultLog (post s _) _).sec = s.sec
  exact post_sec s _

@[simp] theorem capOpen_sec (s : State) (cond res : Nat) : (capOpen s cond res).sec = s.sec := by
  unfold capOpen
  split
  · rfl
  · exact post_sec s _

@[simp] theorem capClose_sec (s : State) (cond res : Nat) : (capClose s cond res).sec = s.sec := by
  unfold capClose
  split
  · rfl
  · exact post_sec s _

@[simp] theorem postFault_kyend (s : State) (mech res p0 : Nat) : (postFault s mech res p0).kyend = s.kyend := by
  show (faultLog (post s _) _).kyend = s.kyend
  exact post_kyend s _

@[simp] theorem capOpen_kyend (s : State) (cond res : Nat) : (capOpen s cond res).kyend = s.kyend := by
  unfold capOpen
  split
  · rfl
  · exact post_kyend s _

@[simp] theorem capClose_kyend (s : State) (cond res : Nat) : (capClose s cond res).kyend = s.kyend := by
  unfold capClose
  split
  · rfl
  · exact post_kyend s _

@[simp] theorem postFault_free (s : State) (mech res p0 : Nat) : (postFault s mech res p0).free = s.free := by
  show (faultLog (post s _) _).free = s.free
  exact post_free s _

@[simp] theorem capOpen_free (s : State) (cond res : Nat) : (capOpen s cond res).free = s.free := by
  unfold capOpen
  split
  · rfl
  · exact post_free s _

@[simp] theorem capClose_free (s : State) (cond res : Nat) : (capClose s cond res).free = s.free := by
  unfold capClose
  split
  · rfl
  · exact post_free s _

@[simp] theorem postFault_pending (s : State) (mech res p0 : Nat) : (postFault s mech res p0).pending = s.pending := by
  show (faultLog (post s _) _).pending = s.pending
  exact post_pending s _

@[simp] theorem capOpen_pending (s : State) (cond res : Nat) : (capOpen s cond res).pending = s.pending := by
  unfold capOpen
  split
  · rfl
  · exact post_pending s _

@[simp] theorem capClose_pending (s : State) (cond res : Nat) : (capClose s cond res).pending = s.pending := by
  unfold capClose
  split
  · rfl
  · exact post_pending s _

@[simp] theorem now_faultLog (s : State) (e : Event) : now (faultLog s e) = now s := rfl

@[simp] theorem now_postFault (s : State) (mech res p0 : Nat) : now (postFault s mech res p0) = now s := by
  show now (faultLog (post s _) _) = now s
  simp

@[simp] theorem now_capOpen (s : State) (cond res : Nat) : now (capOpen s cond res) = now s := by
  unfold capOpen
  split
  · rfl
  · exact now_post s _

@[simp] theorem now_capClose (s : State) (cond res : Nat) : now (capClose s cond res) = now s := by
  unfold capClose
  split
  · rfl
  · exact now_post s _

theorem posted_fault {s v : State} {n mech res p0 : Nat} {es : List Event} (hr : Room v (n + 1)) (h : Posted s v es) :
    Posted s (postFault v mech res p0) (es ++ [{ code := 0x0001, mech := mech, res := res, params := [p0] }]) ∧
      Room (postFault v mech res p0) n := by
  obtain ⟨a, b⟩ := posted_step (src := 548) (e := { code := 0x0001, mech := mech, res := res, params := [p0] }) hr h
  exact ⟨posted_congr rfl rfl a, (room_congr rfl).mpr b⟩

/-! ## Clusters and groups -/

@[simp] theorem getClu_setClu_same (s : State) (p : Nat) (c : Cluster) : getClu (setClu s p c) p = c := by
  simp [getClu, setClu]

theorem getClu_setClu_other (s : State) {p q : Nat} (c : Cluster) (h : q ≠ p) : getClu (setClu s p c) q = getClu s q :=
  tblGet_tblSet_other _ _ _ h

@[simp] theorem getClu_modClu_same (s : State) (p : Nat) (f : Cluster → Cluster) : getClu (modClu s p f) p = f (getClu s p) :=
  getClu_setClu_same s p _

theorem getClu_modClu_other (s : State) {p q : Nat} (f : Cluster → Cluster) (h : q ≠ p) :
    getClu (modClu s p f) q = getClu s q := getClu_setClu_other s _ h

@[simp] theorem getGroup_modGroup_same (s : State) (g : Nat) (f : Group → Group) :
    getGroup (modGroup s g f) g = f (getGroup s g) := by
  simp [getGroup, modGroup, tblMod]

theorem getGroup_modGroup_other (s : State) {g h : Nat} (f : Group → Group) (n : h ≠ g) :
    getGroup (modGroup s g f) h = getGroup s h := tblGet_tblSet_other _ _ _ n

@[simp] theorem getClu_modGroup (s : State) (g p : Nat) (f : Group → Group) : getClu (modGroup s g f) p = getClu s p := rfl

@[simp] theorem getGroup_setClu (s : State) (g p : Nat) (c : Cluster) : getGroup (setClu s p c) g = getGroup s g := rfl

@[simp] theorem getGroup_modClu (s : State) (g p : Nat) (f : Cluster → Cluster) : getGroup (modClu s p f) g = getGroup s g := rfl

@[simp] theorem now_modClu (s : State) (p : Nat) (f : Cluster → Cluster) : now (modClu s p f) = now s := rfl

@[simp] theorem now_modGroup (s : State) (g : Nat) (f : Group → Group) : now (modGroup s g f) = now s := rfl

/-- A cluster's ACTIVE cycles counted up to now: of the state, that cluster's two fields alone. -/
theorem tallyActive_eq (s : State) (p : Nat) : tallyActive s p = s ∨ tallyActive s p = modClu s p fun c =>
    { c with activeCyc := cap32 (c.activeCyc + pendingActive s p), activeSince := now s } := by
  unfold tallyActive
  dsimp only
  split
  · exact .inr rfl
  · exact .inl rfl

theorem getClu_tallyActive_other (s : State) {p q : Nat} (h : q ≠ p) : getClu (tallyActive s p) q = getClu s q := by
  rcases tallyActive_eq s p with e | e <;> rw [e]
  exact getClu_modClu_other s _ h

@[simp] theorem now_tallyActive (s : State) (p : Nat) : now (tallyActive s p) = now s := by
  rcases tallyActive_eq s p with e | e <;> rw [e]
  rfl

@[simp] theorem getGroup_tallyActive (s : State) (p g : Nat) : getGroup (tallyActive s p) g = getGroup s g := by
  rcases tallyActive_eq s p with e | e <;> rw [e]
  rfl

end Sys2Proof.Laws
end

