-- ==== Sys2Proof/Laws/State.lean ====
section
/-! SUPPORT. What each named update of the state leaves as it was, part by part, and what a command's time leaves: every reader
of the state but the clock. All true by rfl. -/

namespace Sys2Proof.Laws

open Sys2Proof.Machine

@[simp] theorem atMt_pending (s : State) (t : Nat) : (atMt s t).pending = s.pending := rfl

@[simp] theorem atMt_ctl (s : State) (t : Nat) : (atMt s t).ctl = s.ctl := rfl

@[simp] theorem atMt_flash (s : State) (t : Nat) : (atMt s t).flash = s.flash := rfl

@[simp] theorem atMt_clock (s : State) (t : Nat) : (atMt s t).clock = { s.clock with mt := max s.clock.mt t } := rfl

@[simp] theorem atMt_host (s : State) (t : Nat) : (atMt s t).host = s.host := rfl

@[simp] theorem atMt_disp (s : State) (t : Nat) : (atMt s t).disp = s.disp := rfl

@[simp] theorem atMt_reins (s : State) (t : Nat) : (atMt s t).reins = s.reins := rfl

@[simp] theorem atMt_pdk (s : State) (t : Nat) : (atMt s t).pdk = s.pdk := rfl

@[simp] theorem atMt_clu (s : State) (t : Nat) : (atMt s t).clu = s.clu := rfl

@[simp] theorem atMt_hbm (s : State) (t : Nat) : (atMt s t).hbm = s.hbm := rfl

@[simp] theorem atMt_pwr (s : State) (t : Nat) : (atMt s t).pwr = s.pwr := rfl

@[simp] theorem atMt_flt (s : State) (t : Nat) : (atMt s t).flt = s.flt := rfl

@[simp] theorem atMt_peers (s : State) (t : Nat) : (atMt s t).peers = s.peers := rfl

@[simp] theorem atMt_sec (s : State) (t : Nat) : (atMt s t).sec = s.sec := rfl

@[simp] theorem atMt_meter (s : State) (t : Nat) : (atMt s t).meter = s.meter := rfl

@[simp] theorem atMt_kyend (s : State) (t : Nat) : (atMt s t).kyend = s.kyend := rfl

@[simp] theorem atMt_free (s : State) (t : Nat) : (atMt s t).free = s.free := rfl

@[simp] theorem setClu_pending (s : State) (p : Nat) (c : Cluster) : (setClu s p c).pending = s.pending := rfl

@[simp] theorem setClu_ctl (s : State) (p : Nat) (c : Cluster) : (setClu s p c).ctl = s.ctl := rfl

@[simp] theorem setClu_flash (s : State) (p : Nat) (c : Cluster) : (setClu s p c).flash = s.flash := rfl

@[simp] theorem setClu_clock (s : State) (p : Nat) (c : Cluster) : (setClu s p c).clock = s.clock := rfl

@[simp] theorem setClu_host (s : State) (p : Nat) (c : Cluster) : (setClu s p c).host = s.host := rfl

@[simp] theorem setClu_disp (s : State) (p : Nat) (c : Cluster) : (setClu s p c).disp = s.disp := rfl

@[simp] theorem setClu_reins (s : State) (p : Nat) (c : Cluster) : (setClu s p c).reins = s.reins := rfl

@[simp] theorem setClu_pdk (s : State) (p : Nat) (c : Cluster) : (setClu s p c).pdk = s.pdk := rfl

@[simp] theorem setClu_clu (s : State) (p : Nat) (c : Cluster) : (setClu s p c).clu = { s.clu with phys := tblSet s.clu.phys p c } := rfl

@[simp] theorem setClu_hbm (s : State) (p : Nat) (c : Cluster) : (setClu s p c).hbm = s.hbm := rfl

@[simp] theorem setClu_pwr (s : State) (p : Nat) (c : Cluster) : (setClu s p c).pwr = s.pwr := rfl

@[simp] theorem setClu_flt (s : State) (p : Nat) (c : Cluster) : (setClu s p c).flt = s.flt := rfl

@[simp] theorem setClu_peers (s : State) (p : Nat) (c : Cluster) : (setClu s p c).peers = s.peers := rfl

@[simp] theorem setClu_sec (s : State) (p : Nat) (c : Cluster) : (setClu s p c).sec = s.sec := rfl

@[simp] theorem setClu_meter (s : State) (p : Nat) (c : Cluster) : (setClu s p c).meter = s.meter := rfl

@[simp] theorem setClu_kyend (s : State) (p : Nat) (c : Cluster) : (setClu s p c).kyend = s.kyend := rfl

@[simp] theorem setClu_free (s : State) (p : Nat) (c : Cluster) : (setClu s p c).free = s.free := rfl

@[simp] theorem modClu_pending (s : State) (p : Nat) (f : Cluster → Cluster) : (modClu s p f).pending = s.pending := rfl

@[simp] theorem modClu_ctl (s : State) (p : Nat) (f : Cluster → Cluster) : (modClu s p f).ctl = s.ctl := rfl

@[simp] theorem modClu_flash (s : State) (p : Nat) (f : Cluster → Cluster) : (modClu s p f).flash = s.flash := rfl

@[simp] theorem modClu_clock (s : State) (p : Nat) (f : Cluster → Cluster) : (modClu s p f).clock = s.clock := rfl

@[simp] theorem modClu_host (s : State) (p : Nat) (f : Cluster → Cluster) : (modClu s p f).host = s.host := rfl

@[simp] theorem modClu_disp (s : State) (p : Nat) (f : Cluster → Cluster) : (modClu s p f).disp = s.disp := rfl

@[simp] theorem modClu_reins (s : State) (p : Nat) (f : Cluster → Cluster) : (modClu s p f).reins = s.reins := rfl

@[simp] theorem modClu_pdk (s : State) (p : Nat) (f : Cluster → Cluster) : (modClu s p f).pdk = s.pdk := rfl

@[simp] theorem modClu_clu (s : State) (p : Nat) (f : Cluster → Cluster) : (modClu s p f).clu = { s.clu with phys := tblSet s.clu.phys p (f (getClu s p)) } := rfl

@[simp] theorem modClu_hbm (s : State) (p : Nat) (f : Cluster → Cluster) : (modClu s p f).hbm = s.hbm := rfl

@[simp] theorem modClu_pwr (s : State) (p : Nat) (f : Cluster → Cluster) : (modClu s p f).pwr = s.pwr := rfl

@[simp] theorem modClu_flt (s : State) (p : Nat) (f : Cluster → Cluster) : (modClu s p f).flt = s.flt := rfl

@[simp] theorem modClu_peers (s : State) (p : Nat) (f : Cluster → Cluster) : (modClu s p f).peers = s.peers := rfl

@[simp] theorem modClu_sec (s : State) (p : Nat) (f : Cluster → Cluster) : (modClu s p f).sec = s.sec := rfl

@[simp] theorem modClu_meter (s : State) (p : Nat) (f : Cluster → Cluster) : (modClu s p f).meter = s.meter := rfl

@[simp] theorem modClu_kyend (s : State) (p : Nat) (f : Cluster → Cluster) : (modClu s p f).kyend = s.kyend := rfl

@[simp] theorem modClu_free (s : State) (p : Nat) (f : Cluster → Cluster) : (modClu s p f).free = s.free := rfl

@[simp] theorem setLmap_pending (s : State) (l : Nat) (m : LMap) : (setLmap s l m).pending = s.pending := rfl

@[simp] theorem setLmap_ctl (s : State) (l : Nat) (m : LMap) : (setLmap s l m).ctl = s.ctl := rfl

@[simp] theorem setLmap_flash (s : State) (l : Nat) (m : LMap) : (setLmap s l m).flash = s.flash := rfl

@[simp] theorem setLmap_clock (s : State) (l : Nat) (m : LMap) : (setLmap s l m).clock = s.clock := rfl

@[simp] theorem setLmap_host (s : State) (l : Nat) (m : LMap) : (setLmap s l m).host = s.host := rfl

@[simp] theorem setLmap_disp (s : State) (l : Nat) (m : LMap) : (setLmap s l m).disp = s.disp := rfl

@[simp] theorem setLmap_reins (s : State) (l : Nat) (m : LMap) : (setLmap s l m).reins = s.reins := rfl

@[simp] theorem setLmap_pdk (s : State) (l : Nat) (m : LMap) : (setLmap s l m).pdk = s.pdk := rfl

@[simp] theorem setLmap_clu (s : State) (l : Nat) (m : LMap) : (setLmap s l m).clu = { s.clu with lmap := tblSet s.clu.lmap l m } := rfl

@[simp] theorem setLmap_hbm (s : State) (l : Nat) (m : LMap) : (setLmap s l m).hbm = s.hbm := rfl

@[simp] theorem setLmap_pwr (s : State) (l : Nat) (m : LMap) : (setLmap s l m).pwr = s.pwr := rfl

@[simp] theorem setLmap_flt (s : State) (l : Nat) (m : LMap) : (setLmap s l m).flt = s.flt := rfl

@[simp] theorem setLmap_peers (s : State) (l : Nat) (m : LMap) : (setLmap s l m).peers = s.peers := rfl

@[simp] theorem setLmap_sec (s : State) (l : Nat) (m : LMap) : (setLmap s l m).sec = s.sec := rfl

@[simp] theorem setLmap_meter (s : State) (l : Nat) (m : LMap) : (setLmap s l m).meter = s.meter := rfl

@[simp] theorem setLmap_kyend (s : State) (l : Nat) (m : LMap) : (setLmap s l m).kyend = s.kyend := rfl

@[simp] theorem setLmap_free (s : State) (l : Nat) (m : LMap) : (setLmap s l m).free = s.free := rfl

@[simp] theorem modPeerPort_pending (s : State) (n : Nat) (f : PeerPort → PeerPort) : (modPeerPort s n f).pending = s.pending := rfl

@[simp] theorem modPeerPort_ctl (s : State) (n : Nat) (f : PeerPort → PeerPort) : (modPeerPort s n f).ctl = s.ctl := rfl

@[simp] theorem modPeerPort_flash (s : State) (n : Nat) (f : PeerPort → PeerPort) : (modPeerPort s n f).flash = s.flash := rfl

@[simp] theorem modPeerPort_clock (s : State) (n : Nat) (f : PeerPort → PeerPort) : (modPeerPort s n f).clock = s.clock := rfl

@[simp] theorem modPeerPort_host (s : State) (n : Nat) (f : PeerPort → PeerPort) : (modPeerPort s n f).host = s.host := rfl

@[simp] theorem modPeerPort_disp (s : State) (n : Nat) (f : PeerPort → PeerPort) : (modPeerPort s n f).disp = s.disp := rfl

@[simp] theorem modPeerPort_reins (s : State) (n : Nat) (f : PeerPort → PeerPort) : (modPeerPort s n f).reins = s.reins := rfl

@[simp] theorem modPeerPort_pdk (s : State) (n : Nat) (f : PeerPort → PeerPort) : (modPeerPort s n f).pdk = s.pdk := rfl

@[simp] theorem modPeerPort_clu (s : State) (n : Nat) (f : PeerPort → PeerPort) : (modPeerPort s n f).clu = s.clu := rfl

@[simp] theorem modPeerPort_hbm (s : State) (n : Nat) (f : PeerPort → PeerPort) : (modPeerPort s n f).hbm = s.hbm := rfl

@[simp] theorem modPeerPort_pwr (s : State) (n : Nat) (f : PeerPort → PeerPort) : (modPeerPort s n f).pwr = s.pwr := rfl

@[simp] theorem modPeerPort_flt (s : State) (n : Nat) (f : PeerPort → PeerPort) : (modPeerPort s n f).flt = s.flt := rfl

@[simp] theorem modPeerPort_peers (s : State) (n : Nat) (f : PeerPort → PeerPort) : (modPeerPort s n f).peers = { s.peers with ports := tblMod {} s.peers.ports n f } := rfl

@[simp] theorem modPeerPort_sec (s : State) (n : Nat) (f : PeerPort → PeerPort) : (modPeerPort s n f).sec = s.sec := rfl

@[simp] theorem modPeerPort_meter (s : State) (n : Nat) (f : PeerPort → PeerPort) : (modPeerPort s n f).meter = s.meter := rfl

@[simp] theorem modPeerPort_kyend (s : State) (n : Nat) (f : PeerPort → PeerPort) : (modPeerPort s n f).kyend = s.kyend := rfl

@[simp] theorem modPeerPort_free (s : State) (n : Nat) (f : PeerPort → PeerPort) : (modPeerPort s n f).free = s.free := rfl

@[simp] theorem modHost_pending (s : State) (f : HostPort → HostPort) : (modHost s f).pending = s.pending := rfl

@[simp] theorem modHost_ctl (s : State) (f : HostPort → HostPort) : (modHost s f).ctl = s.ctl := rfl

@[simp] theorem modHost_flash (s : State) (f : HostPort → HostPort) : (modHost s f).flash = s.flash := rfl

@[simp] theorem modHost_clock (s : State) (f : HostPort → HostPort) : (modHost s f).clock = s.clock := rfl

@[simp] theorem modHost_host (s : State) (f : HostPort → HostPort) : (modHost s f).host = f s.host := rfl

@[simp] theorem modHost_disp (s : State) (f : HostPort → HostPort) : (modHost s f).disp = s.disp := rfl

@[simp] theorem modHost_reins (s : State) (f : HostPort → HostPort) : (modHost s f).reins = s.reins := rfl

@[simp] theorem modHost_pdk (s : State) (f : HostPort → HostPort) : (modHost s f).pdk = s.pdk := rfl

@[simp] theorem modHost_clu (s : State) (f : HostPort → HostPort) : (modHost s f).clu = s.clu := rfl

@[simp] theorem modHost_hbm (s : State) (f : HostPort → HostPort) : (modHost s f).hbm = s.hbm := rfl

@[simp] theorem modHost_pwr (s : State) (f : HostPort → HostPort) : (modHost s f).pwr = s.pwr := rfl

@[simp] theorem modHost_flt (s : State) (f : HostPort → HostPort) : (modHost s f).flt = s.flt := rfl

@[simp] theorem modHost_peers (s : State) (f : HostPort → HostPort) : (modHost s f).peers = s.peers := rfl

@[simp] theorem modHost_sec (s : State) (f : HostPort → HostPort) : (modHost s f).sec = s.sec := rfl

@[simp] theorem modHost_meter (s : State) (f : HostPort → HostPort) : (modHost s f).meter = s.meter := rfl

@[simp] theorem modHost_kyend (s : State) (f : HostPort → HostPort) : (modHost s f).kyend = s.kyend := rfl

@[simp] theorem modHost_free (s : State) (f : HostPort → HostPort) : (modHost s f).free = s.free := rfl

@[simp] theorem setQueue_pending (s : State) (pool : Nat) (queue : Nat) (l : List Item) : (setQueue s pool queue l).pending = s.pending := rfl

@[simp] theorem setQueue_ctl (s : State) (pool : Nat) (queue : Nat) (l : List Item) : (setQueue s pool queue l).ctl = s.ctl := rfl

@[simp] theorem setQueue_flash (s : State) (pool : Nat) (queue : Nat) (l : List Item) : (setQueue s pool queue l).flash = s.flash := rfl

@[simp] theorem setQueue_clock (s : State) (pool : Nat) (queue : Nat) (l : List Item) : (setQueue s pool queue l).clock = s.clock := rfl

@[simp] theorem setQueue_host (s : State) (pool : Nat) (queue : Nat) (l : List Item) : (setQueue s pool queue l).host = s.host := rfl

@[simp] theorem setQueue_disp (s : State) (pool : Nat) (queue : Nat) (l : List Item) : (setQueue s pool queue l).disp = s.disp := rfl

@[simp] theorem setQueue_reins (s : State) (pool : Nat) (queue : Nat) (l : List Item) : (setQueue s pool queue l).reins = s.reins := rfl

@[simp] theorem setQueue_pdk (s : State) (pool : Nat) (queue : Nat) (l : List Item) : (setQueue s pool queue l).pdk = { s.pdk with queues := tblSet s.pdk.queues (qKey pool queue) l } := rfl

@[simp] theorem setQueue_clu (s : State) (pool : Nat) (queue : Nat) (l : List Item) : (setQueue s pool queue l).clu = s.clu := rfl

@[simp] theorem setQueue_hbm (s : State) (pool : Nat) (queue : Nat) (l : List Item) : (setQueue s pool queue l).hbm = s.hbm := rfl

@[simp] theorem setQueue_pwr (s : State) (pool : Nat) (queue : Nat) (l : List Item) : (setQueue s pool queue l).pwr = s.pwr := rfl

@[simp] theorem setQueue_flt (s : State) (pool : Nat) (queue : Nat) (l : List Item) : (setQueue s pool queue l).flt = s.flt := rfl

@[simp] theorem setQueue_peers (s : State) (pool : Nat) (queue : Nat) (l : List Item) : (setQueue s pool queue l).peers = s.peers := rfl

@[simp] theorem setQueue_sec (s : State) (pool : Nat) (queue : Nat) (l : List Item) : (setQueue s pool queue l).sec = s.sec := rfl

@[simp] theorem setQueue_meter (s : State) (pool : Nat) (queue : Nat) (l : List Item) : (setQueue s pool queue l).meter = s.meter := rfl

@[simp] theorem setQueue_kyend (s : State) (pool : Nat) (queue : Nat) (l : List Item) : (setQueue s pool queue l).kyend = s.kyend := rfl

@[simp] theorem setQueue_free (s : State) (pool : Nat) (queue : Nat) (l : List Item) : (setQueue s pool queue l).free = s.free := rfl

@[simp] theorem faultLog_pending (s : State) (e : Event) : (faultLog s e).pending = s.pending := rfl

@[simp] theorem faultLog_ctl (s : State) (e : Event) : (faultLog s e).ctl = s.ctl := rfl

@[simp] theorem faultLog_flash (s : State) (e : Event) : (faultLog s e).flash = s.flash := rfl

@[simp] theorem faultLog_clock (s : State) (e : Event) : (faultLog s e).clock = s.clock := rfl

@[simp] theorem faultLog_host (s : State) (e : Event) : (faultLog s e).host = s.host := rfl

@[simp] theorem faultLog_disp (s : State) (e : Event) : (faultLog s e).disp = s.disp := rfl

@[simp] theorem faultLog_reins (s : State) (e : Event) : (faultLog s e).reins = s.reins := rfl

@[simp] theorem faultLog_pdk (s : State) (e : Event) : (faultLog s e).pdk = s.pdk := rfl

@[simp] theorem faultLog_clu (s : State) (e : Event) : (faultLog s e).clu = s.clu := rfl

@[simp] theorem faultLog_hbm (s : State) (e : Event) : (faultLog s e).hbm = s.hbm := rfl

@[simp] theorem faultLog_pwr (s : State) (e : Event) : (faultLog s e).pwr = s.pwr := rfl

@[simp] theorem faultLog_peers (s : State) (e : Event) : (faultLog s e).peers = s.peers := rfl

@[simp] theorem faultLog_sec (s : State) (e : Event) : (faultLog s e).sec = s.sec := rfl

@[simp] theorem faultLog_kyend (s : State) (e : Event) : (faultLog s e).kyend = s.kyend := rfl

@[simp] theorem faultLog_free (s : State) (e : Event) : (faultLog s e).free = s.free := rfl

@[simp] theorem kyendSay_pending (s : State) (l : List String) : (kyendSay s l).pending = s.pending := rfl

@[simp] theorem kyendSay_ctl (s : State) (l : List String) : (kyendSay s l).ctl = s.ctl := rfl

@[simp] theorem kyendSay_flash (s : State) (l : List String) : (kyendSay s l).flash = s.flash := rfl

@[simp] theorem kyendSay_clock (s : State) (l : List String) : (kyendSay s l).clock = s.clock := rfl

@[simp] theorem kyendSay_host (s : State) (l : List String) : (kyendSay s l).host = s.host := rfl

@[simp] theorem kyendSay_disp (s : State) (l : List String) : (kyendSay s l).disp = s.disp := rfl

@[simp] theorem kyendSay_reins (s : State) (l : List String) : (kyendSay s l).reins = s.reins := rfl

@[simp] theorem kyendSay_pdk (s : State) (l : List String) : (kyendSay s l).pdk = s.pdk := rfl

@[simp] theorem kyendSay_clu (s : State) (l : List String) : (kyendSay s l).clu = s.clu := rfl

@[simp] theorem kyendSay_hbm (s : State) (l : List String) : (kyendSay s l).hbm = s.hbm := rfl

@[simp] theorem kyendSay_pwr (s : State) (l : List String) : (kyendSay s l).pwr = s.pwr := rfl

@[simp] theorem kyendSay_flt (s : State) (l : List String) : (kyendSay s l).flt = s.flt := rfl

@[simp] theorem kyendSay_peers (s : State) (l : List String) : (kyendSay s l).peers = s.peers := rfl

@[simp] theorem kyendSay_sec (s : State) (l : List String) : (kyendSay s l).sec = s.sec := rfl

@[simp] theorem kyendSay_meter (s : State) (l : List String) : (kyendSay s l).meter = s.meter := rfl

@[simp] theorem kyendSay_free (s : State) (l : List String) : (kyendSay s l).free = s.free := rfl

@[simp] theorem kyendPrompt_pending (s : State) : (kyendPrompt s).pending = s.pending := rfl

@[simp] theorem kyendPrompt_ctl (s : State) : (kyendPrompt s).ctl = s.ctl := rfl

@[simp] theorem kyendPrompt_flash (s : State) : (kyendPrompt s).flash = s.flash := rfl

@[simp] theorem kyendPrompt_clock (s : State) : (kyendPrompt s).clock = s.clock := rfl

@[simp] theorem kyendPrompt_host (s : State) : (kyendPrompt s).host = s.host := rfl

@[simp] theorem kyendPrompt_disp (s : State) : (kyendPrompt s).disp = s.disp := rfl

@[simp] theorem kyendPrompt_reins (s : State) : (kyendPrompt s).reins = s.reins := rfl

@[simp] theorem kyendPrompt_pdk (s : State) : (kyendPrompt s).pdk = s.pdk := rfl

@[simp] theorem kyendPrompt_clu (s : State) : (kyendPrompt s).clu = s.clu := rfl

@[simp] theorem kyendPrompt_hbm (s : State) : (kyendPrompt s).hbm = s.hbm := rfl

@[simp] theorem kyendPrompt_pwr (s : State) : (kyendPrompt s).pwr = s.pwr := rfl

@[simp] theorem kyendPrompt_flt (s : State) : (kyendPrompt s).flt = s.flt := rfl

@[simp] theorem kyendPrompt_peers (s : State) : (kyendPrompt s).peers = s.peers := rfl

@[simp] theorem kyendPrompt_sec (s : State) : (kyendPrompt s).sec = s.sec := rfl

@[simp] theorem kyendPrompt_meter (s : State) : (kyendPrompt s).meter = s.meter := rfl

@[simp] theorem kyendPrompt_free (s : State) : (kyendPrompt s).free = s.free := rfl

@[simp] theorem modUnit_pending (s : State) (wu : Nat) (f : WorkUnit → WorkUnit) : (modUnit s wu f).pending = s.pending := rfl

@[simp] theorem modUnit_ctl (s : State) (wu : Nat) (f : WorkUnit → WorkUnit) : (modUnit s wu f).ctl = s.ctl := rfl

@[simp] theorem modUnit_flash (s : State) (wu : Nat) (f : WorkUnit → WorkUnit) : (modUnit s wu f).flash = s.flash := rfl

@[simp] theorem modUnit_clock (s : State) (wu : Nat) (f : WorkUnit → WorkUnit) : (modUnit s wu f).clock = s.clock := rfl

@[simp] theorem modUnit_host (s : State) (wu : Nat) (f : WorkUnit → WorkUnit) : (modUnit s wu f).host = s.host := rfl

@[simp] theorem modUnit_disp (s : State) (wu : Nat) (f : WorkUnit → WorkUnit) : (modUnit s wu f).disp = { s.disp with units := s.disp.units.map fun u => if u.wuId = wu then f u else u } := rfl

@[simp] theorem modUnit_reins (s : State) (wu : Nat) (f : WorkUnit → WorkUnit) : (modUnit s wu f).reins = s.reins := rfl

@[simp] theorem modUnit_pdk (s : State) (wu : Nat) (f : WorkUnit → WorkUnit) : (modUnit s wu f).pdk = s.pdk := rfl

@[simp] theorem modUnit_clu (s : State) (wu : Nat) (f : WorkUnit → WorkUnit) : (modUnit s wu f).clu = s.clu := rfl

@[simp] theorem modUnit_hbm (s : State) (wu : Nat) (f : WorkUnit → WorkUnit) : (modUnit s wu f).hbm = s.hbm := rfl

@[simp] theorem modUnit_pwr (s : State) (wu : Nat) (f : WorkUnit → WorkUnit) : (modUnit s wu f).pwr = s.pwr := rfl

@[simp] theorem modUnit_flt (s : State) (wu : Nat) (f : WorkUnit → WorkUnit) : (modUnit s wu f).flt = s.flt := rfl

@[simp] theorem modUnit_peers (s : State) (wu : Nat) (f : WorkUnit → WorkUnit) : (modUnit s wu f).peers = s.peers := rfl

@[simp] theorem modUnit_sec (s : State) (wu : Nat) (f : WorkUnit → WorkUnit) : (modUnit s wu f).sec = s.sec := rfl

@[simp] theorem modUnit_meter (s : State) (wu : Nat) (f : WorkUnit → WorkUnit) : (modUnit s wu f).meter = s.meter := rfl

@[simp] theorem modUnit_kyend (s : State) (wu : Nat) (f : WorkUnit → WorkUnit) : (modUnit s wu f).kyend = s.kyend := rfl

@[simp] theorem modUnit_free (s : State) (wu : Nat) (f : WorkUnit → WorkUnit) : (modUnit s wu f).free = s.free := rfl

@[simp] theorem modRun_pending (s : State) (r : DescRef) (f : DRun → DRun) : (modRun s r f).pending = s.pending := rfl

@[simp] theorem modRun_ctl (s : State) (r : DescRef) (f : DRun → DRun) : (modRun s r f).ctl = s.ctl := rfl

@[simp] theorem modRun_flash (s : State) (r : DescRef) (f : DRun → DRun) : (modRun s r f).flash = s.flash := rfl

@[simp] theorem modRun_clock (s : State) (r : DescRef) (f : DRun → DRun) : (modRun s r f).clock = s.clock := rfl

@[simp] theorem modRun_host (s : State) (r : DescRef) (f : DRun → DRun) : (modRun s r f).host = s.host := rfl

@[simp] theorem modRun_reins (s : State) (r : DescRef) (f : DRun → DRun) : (modRun s r f).reins = s.reins := rfl

@[simp] theorem modRun_pdk (s : State) (r : DescRef) (f : DRun → DRun) : (modRun s r f).pdk = s.pdk := rfl

@[simp] theorem modRun_clu (s : State) (r : DescRef) (f : DRun → DRun) : (modRun s r f).clu = s.clu := rfl

@[simp] theorem modRun_hbm (s : State) (r : DescRef) (f : DRun → DRun) : (modRun s r f).hbm = s.hbm := rfl

@[simp] theorem modRun_pwr (s : State) (r : DescRef) (f : DRun → DRun) : (modRun s r f).pwr = s.pwr := rfl

@[simp] theorem modRun_flt (s : State) (r : DescRef) (f : DRun → DRun) : (modRun s r f).flt = s.flt := rfl

@[simp] theorem modRun_peers (s : State) (r : DescRef) (f : DRun → DRun) : (modRun s r f).peers = s.peers := rfl

@[simp] theorem modRun_sec (s : State) (r : DescRef) (f : DRun → DRun) : (modRun s r f).sec = s.sec := rfl

@[simp] theorem modRun_meter (s : State) (r : DescRef) (f : DRun → DRun) : (modRun s r f).meter = s.meter := rfl

@[simp] theorem modRun_kyend (s : State) (r : DescRef) (f : DRun → DRun) : (modRun s r f).kyend = s.kyend := rfl

@[simp] theorem modRun_free (s : State) (r : DescRef) (f : DRun → DRun) : (modRun s r f).free = s.free := rfl

@[simp] theorem modReins_pending (s : State) (f : Reins → Reins) : (modReins s f).pending = s.pending := rfl

@[simp] theorem modReins_ctl (s : State) (f : Reins → Reins) : (modReins s f).ctl = s.ctl := rfl

@[simp] theorem modReins_flash (s : State) (f : Reins → Reins) : (modReins s f).flash = s.flash := rfl

@[simp] theorem modReins_clock (s : State) (f : Reins → Reins) : (modReins s f).clock = s.clock := rfl

@[simp] theorem modReins_host (s : State) (f : Reins → Reins) : (modReins s f).host = s.host := rfl

@[simp] theorem modReins_disp (s : State) (f : Reins → Reins) : (modReins s f).disp = s.disp := rfl

@[simp] theorem modReins_reins (s : State) (f : Reins → Reins) : (modReins s f).reins = f s.reins := rfl

@[simp] theorem modReins_pdk (s : State) (f : Reins → Reins) : (modReins s f).pdk = s.pdk := rfl

@[simp] theorem modReins_clu (s : State) (f : Reins → Reins) : (modReins s f).clu = s.clu := rfl

@[simp] theorem modReins_hbm (s : State) (f : Reins → Reins) : (modReins s f).hbm = s.hbm := rfl

@[simp] theorem modReins_pwr (s : State) (f : Reins → Reins) : (modReins s f).pwr = s.pwr := rfl

@[simp] theorem modReins_flt (s : State) (f : Reins → Reins) : (modReins s f).flt = s.flt := rfl

@[simp] theorem modReins_peers (s : State) (f : Reins → Reins) : (modReins s f).peers = s.peers := rfl

@[simp] theorem modReins_sec (s : State) (f : Reins → Reins) : (modReins s f).sec = s.sec := rfl

@[simp] theorem modReins_meter (s : State) (f : Reins → Reins) : (modReins s f).meter = s.meter := rfl

@[simp] theorem modReins_kyend (s : State) (f : Reins → Reins) : (modReins s f).kyend = s.kyend := rfl

@[simp] theorem modReins_free (s : State) (f : Reins → Reins) : (modReins s f).free = s.free := rfl

@[simp] theorem noteApplied_pending (s : State) (home : Nat) (req : Nat) (sent : Nat) : (noteApplied s home req sent).pending = s.pending := rfl

@[simp] theorem noteApplied_ctl (s : State) (home : Nat) (req : Nat) (sent : Nat) : (noteApplied s home req sent).ctl = s.ctl := rfl

@[simp] theorem noteApplied_flash (s : State) (home : Nat) (req : Nat) (sent : Nat) : (noteApplied s home req sent).flash = s.flash := rfl

@[simp] theorem noteApplied_clock (s : State) (home : Nat) (req : Nat) (sent : Nat) : (noteApplied s home req sent).clock = s.clock := rfl

@[simp] theorem noteApplied_host (s : State) (home : Nat) (req : Nat) (sent : Nat) : (noteApplied s home req sent).host = s.host := rfl

@[simp] theorem noteApplied_disp (s : State) (home : Nat) (req : Nat) (sent : Nat) : (noteApplied s home req sent).disp = s.disp := rfl

@[simp] theorem noteApplied_pdk (s : State) (home : Nat) (req : Nat) (sent : Nat) : (noteApplied s home req sent).pdk = s.pdk := rfl

@[simp] theorem noteApplied_clu (s : State) (home : Nat) (req : Nat) (sent : Nat) : (noteApplied s home req sent).clu = s.clu := rfl

@[simp] theorem noteApplied_hbm (s : State) (home : Nat) (req : Nat) (sent : Nat) : (noteApplied s home req sent).hbm = s.hbm := rfl

@[simp] theorem noteApplied_pwr (s : State) (home : Nat) (req : Nat) (sent : Nat) : (noteApplied s home req sent).pwr = s.pwr := rfl

@[simp] theorem noteApplied_flt (s : State) (home : Nat) (req : Nat) (sent : Nat) : (noteApplied s home req sent).flt = s.flt := rfl

@[simp] theorem noteApplied_peers (s : State) (home : Nat) (req : Nat) (sent : Nat) : (noteApplied s home req sent).peers = s.peers := rfl

@[simp] theorem noteApplied_sec (s : State) (home : Nat) (req : Nat) (sent : Nat) : (noteApplied s home req sent).sec = s.sec := rfl

@[simp] theorem noteApplied_meter (s : State) (home : Nat) (req : Nat) (sent : Nat) : (noteApplied s home req sent).meter = s.meter := rfl

@[simp] theorem noteApplied_kyend (s : State) (home : Nat) (req : Nat) (sent : Nat) : (noteApplied s home req sent).kyend = s.kyend := rfl

@[simp] theorem noteApplied_free (s : State) (home : Nat) (req : Nat) (sent : Nat) : (noteApplied s home req sent).free = s.free := rfl

@[simp] theorem setBar_pending (s : State) (b : Nat) (x : Barrier) : (setBar s b x).pending = s.pending := rfl

@[simp] theorem setBar_ctl (s : State) (b : Nat) (x : Barrier) : (setBar s b x).ctl = s.ctl := rfl

@[simp] theorem setBar_flash (s : State) (b : Nat) (x : Barrier) : (setBar s b x).flash = s.flash := rfl

@[simp] theorem setBar_clock (s : State) (b : Nat) (x : Barrier) : (setBar s b x).clock = s.clock := rfl

@[simp] theorem setBar_host (s : State) (b : Nat) (x : Barrier) : (setBar s b x).host = s.host := rfl

@[simp] theorem setBar_disp (s : State) (b : Nat) (x : Barrier) : (setBar s b x).disp = s.disp := rfl

@[simp] theorem setBar_pdk (s : State) (b : Nat) (x : Barrier) : (setBar s b x).pdk = s.pdk := rfl

@[simp] theorem setBar_clu (s : State) (b : Nat) (x : Barrier) : (setBar s b x).clu = s.clu := rfl

@[simp] theorem setBar_hbm (s : State) (b : Nat) (x : Barrier) : (setBar s b x).hbm = s.hbm := rfl

@[simp] theorem setBar_pwr (s : State) (b : Nat) (x : Barrier) : (setBar s b x).pwr = s.pwr := rfl

@[simp] theorem setBar_flt (s : State) (b : Nat) (x : Barrier) : (setBar s b x).flt = s.flt := rfl

@[simp] theorem setBar_peers (s : State) (b : Nat) (x : Barrier) : (setBar s b x).peers = s.peers := rfl

@[simp] theorem setBar_sec (s : State) (b : Nat) (x : Barrier) : (setBar s b x).sec = s.sec := rfl

@[simp] theorem setBar_meter (s : State) (b : Nat) (x : Barrier) : (setBar s b x).meter = s.meter := rfl

@[simp] theorem setBar_kyend (s : State) (b : Nat) (x : Barrier) : (setBar s b x).kyend = s.kyend := rfl

@[simp] theorem setBar_free (s : State) (b : Nat) (x : Barrier) : (setBar s b x).free = s.free := rfl

@[simp] theorem modGroup_pending (s : State) (g : Nat) (f : Group → Group) : (modGroup s g f).pending = s.pending := rfl

@[simp] theorem modGroup_ctl (s : State) (g : Nat) (f : Group → Group) : (modGroup s g f).ctl = s.ctl := rfl

@[simp] theorem modGroup_flash (s : State) (g : Nat) (f : Group → Group) : (modGroup s g f).flash = s.flash := rfl

@[simp] theorem modGroup_clock (s : State) (g : Nat) (f : Group → Group) : (modGroup s g f).clock = s.clock := rfl

@[simp] theorem modGroup_host (s : State) (g : Nat) (f : Group → Group) : (modGroup s g f).host = s.host := rfl

@[simp] theorem modGroup_disp (s : State) (g : Nat) (f : Group → Group) : (modGroup s g f).disp = s.disp := rfl

@[simp] theorem modGroup_reins (s : State) (g : Nat) (f : Group → Group) : (modGroup s g f).reins = s.reins := rfl

@[simp] theorem modGroup_pdk (s : State) (g : Nat) (f : Group → Group) : (modGroup s g f).pdk = s.pdk := rfl

@[simp] theorem modGroup_clu (s : State) (g : Nat) (f : Group → Group) : (modGroup s g f).clu = s.clu := rfl

@[simp] theorem modGroup_hbm (s : State) (g : Nat) (f : Group → Group) : (modGroup s g f).hbm = s.hbm := rfl

@[simp] theorem modGroup_flt (s : State) (g : Nat) (f : Group → Group) : (modGroup s g f).flt = s.flt := rfl

@[simp] theorem modGroup_peers (s : State) (g : Nat) (f : Group → Group) : (modGroup s g f).peers = s.peers := rfl

@[simp] theorem modGroup_sec (s : State) (g : Nat) (f : Group → Group) : (modGroup s g f).sec = s.sec := rfl

@[simp] theorem modGroup_meter (s : State) (g : Nat) (f : Group → Group) : (modGroup s g f).meter = s.meter := rfl

@[simp] theorem modGroup_kyend (s : State) (g : Nat) (f : Group → Group) : (modGroup s g f).kyend = s.kyend := rfl

@[simp] theorem modGroup_free (s : State) (g : Nat) (f : Group → Group) : (modGroup s g f).free = s.free := rfl

@[simp] theorem setRound_pending (s : State) (w : Nat) (r : Round) : (setRound s w r).pending = s.pending := rfl

@[simp] theorem setRound_ctl (s : State) (w : Nat) (r : Round) : (setRound s w r).ctl = s.ctl := rfl

@[simp] theorem setRound_flash (s : State) (w : Nat) (r : Round) : (setRound s w r).flash = s.flash := rfl

@[simp] theorem setRound_clock (s : State) (w : Nat) (r : Round) : (setRound s w r).clock = s.clock := rfl

@[simp] theorem setRound_host (s : State) (w : Nat) (r : Round) : (setRound s w r).host = s.host := rfl

@[simp] theorem setRound_disp (s : State) (w : Nat) (r : Round) : (setRound s w r).disp = s.disp := rfl

@[simp] theorem setRound_reins (s : State) (w : Nat) (r : Round) : (setRound s w r).reins = s.reins := rfl

@[simp] theorem setRound_pdk (s : State) (w : Nat) (r : Round) : (setRound s w r).pdk = s.pdk := rfl

@[simp] theorem setRound_clu (s : State) (w : Nat) (r : Round) : (setRound s w r).clu = s.clu := rfl

@[simp] theorem setRound_hbm (s : State) (w : Nat) (r : Round) : (setRound s w r).hbm = s.hbm := rfl

@[simp] theorem setRound_pwr (s : State) (w : Nat) (r : Round) : (setRound s w r).pwr = s.pwr := rfl

@[simp] theorem setRound_flt (s : State) (w : Nat) (r : Round) : (setRound s w r).flt = s.flt := rfl

@[simp] theorem setRound_sec (s : State) (w : Nat) (r : Round) : (setRound s w r).sec = s.sec := rfl

@[simp] theorem setRound_meter (s : State) (w : Nat) (r : Round) : (setRound s w r).meter = s.meter := rfl

@[simp] theorem setRound_kyend (s : State) (w : Nat) (r : Round) : (setRound s w r).kyend = s.kyend := rfl

@[simp] theorem setRound_free (s : State) (w : Nat) (r : Round) : (setRound s w r).free = s.free := rfl

@[simp] theorem setSlot_pending (s : State) (i : Nat) (j : JobSlot) : (setSlot s i j).pending = s.pending := rfl

@[simp] theorem setSlot_ctl (s : State) (i : Nat) (j : JobSlot) : (setSlot s i j).ctl = s.ctl := rfl

@[simp] theorem setSlot_flash (s : State) (i : Nat) (j : JobSlot) : (setSlot s i j).flash = s.flash := rfl

@[simp] theorem setSlot_clock (s : State) (i : Nat) (j : JobSlot) : (setSlot s i j).clock = s.clock := rfl

@[simp] theorem setSlot_host (s : State) (i : Nat) (j : JobSlot) : (setSlot s i j).host = s.host := rfl

@[simp] theorem setSlot_reins (s : State) (i : Nat) (j : JobSlot) : (setSlot s i j).reins = s.reins := rfl

@[simp] theorem setSlot_pdk (s : State) (i : Nat) (j : JobSlot) : (setSlot s i j).pdk = s.pdk := rfl

@[simp] theorem setSlot_clu (s : State) (i : Nat) (j : JobSlot) : (setSlot s i j).clu = s.clu := rfl

@[simp] theorem setSlot_hbm (s : State) (i : Nat) (j : JobSlot) : (setSlot s i j).hbm = s.hbm := rfl

@[simp] theorem setSlot_pwr (s : State) (i : Nat) (j : JobSlot) : (setSlot s i j).pwr = s.pwr := rfl

@[simp] theorem setSlot_flt (s : State) (i : Nat) (j : JobSlot) : (setSlot s i j).flt = s.flt := rfl

@[simp] theorem setSlot_peers (s : State) (i : Nat) (j : JobSlot) : (setSlot s i j).peers = s.peers := rfl

@[simp] theorem setSlot_sec (s : State) (i : Nat) (j : JobSlot) : (setSlot s i j).sec = s.sec := rfl

@[simp] theorem setSlot_meter (s : State) (i : Nat) (j : JobSlot) : (setSlot s i j).meter = s.meter := rfl

@[simp] theorem setSlot_kyend (s : State) (i : Nat) (j : JobSlot) : (setSlot s i j).kyend = s.kyend := rfl

@[simp] theorem setSlot_free (s : State) (i : Nat) (j : JobSlot) : (setSlot s i j).free = s.free := rfl

@[simp] theorem modMeter_pending (s : State) (f : Meter → Meter) : (modMeter s f).pending = s.pending := rfl

@[simp] theorem modMeter_ctl (s : State) (f : Meter → Meter) : (modMeter s f).ctl = s.ctl := rfl

@[simp] theorem modMeter_flash (s : State) (f : Meter → Meter) : (modMeter s f).flash = s.flash := rfl

@[simp] theorem modMeter_clock (s : State) (f : Meter → Meter) : (modMeter s f).clock = s.clock := rfl

@[simp] theorem modMeter_host (s : State) (f : Meter → Meter) : (modMeter s f).host = s.host := rfl

@[simp] theorem modMeter_disp (s : State) (f : Meter → Meter) : (modMeter s f).disp = s.disp := rfl

@[simp] theorem modMeter_reins (s : State) (f : Meter → Meter) : (modMeter s f).reins = s.reins := rfl

@[simp] theorem modMeter_pdk (s : State) (f : Meter → Meter) : (modMeter s f).pdk = s.pdk := rfl

@[simp] theorem modMeter_clu (s : State) (f : Meter → Meter) : (modMeter s f).clu = s.clu := rfl

@[simp] theorem modMeter_hbm (s : State) (f : Meter → Meter) : (modMeter s f).hbm = s.hbm := rfl

@[simp] theorem modMeter_pwr (s : State) (f : Meter → Meter) : (modMeter s f).pwr = s.pwr := rfl

@[simp] theorem modMeter_flt (s : State) (f : Meter → Meter) : (modMeter s f).flt = s.flt := rfl

@[simp] theorem modMeter_peers (s : State) (f : Meter → Meter) : (modMeter s f).peers = s.peers := rfl

@[simp] theorem modMeter_sec (s : State) (f : Meter → Meter) : (modMeter s f).sec = s.sec := rfl

@[simp] theorem modMeter_meter (s : State) (f : Meter → Meter) : (modMeter s f).meter = f s.meter := rfl

@[simp] theorem modMeter_kyend (s : State) (f : Meter → Meter) : (modMeter s f).kyend = s.kyend := rfl

@[simp] theorem modMeter_free (s : State) (f : Meter → Meter) : (modMeter s f).free = s.free := rfl

@[simp] theorem isReady_atMt (s : State) (τ : Nat) : isReady (atMt s τ) = isReady s := (rfl)

@[simp] theorem cfgField_atMt (s : State) (τ : Nat) (off n : Nat) : cfgField (atMt s τ) off n = cfgField s off n := (rfl)

@[simp] theorem cfgBytes_atMt (s : State) (τ : Nat) (off n : Nat) : cfgBytes (atMt s τ) off n = cfgBytes s off n := (rfl)

@[simp] theorem cfgDevMode_atMt (s : State) (τ : Nat) : cfgDevMode (atMt s τ) = cfgDevMode s := (rfl)

@[simp] theorem cfgTileMode_atMt (s : State) (τ : Nat) : cfgTileMode (atMt s τ) = cfgTileMode s := (rfl)

@[simp] theorem cfgSingleGuard_atMt (s : State) (τ : Nat) : cfgSingleGuard (atMt s τ) = cfgSingleGuard s := (rfl)

@[simp] theorem cfgFwFloor_atMt (s : State) (τ : Nat) : cfgFwFloor (atMt s τ) = cfgFwFloor s := (rfl)

@[simp] theorem cfgPowerCap_atMt (s : State) (τ : Nat) : cfgPowerCap (atMt s τ) = cfgPowerCap s := (rfl)

@[simp] theorem cfgSleepAfter_atMt (s : State) (τ : Nat) : cfgSleepAfter (atMt s τ) = cfgSleepAfter s := (rfl)

@[simp] theorem cfgDisableTimeout_atMt (s : State) (τ : Nat) : cfgDisableTimeout (atMt s τ) = cfgDisableTimeout s := (rfl)

@[simp] theorem cfgSpdRepeat_atMt (s : State) (τ : Nat) : cfgSpdRepeat (atMt s τ) = cfgSpdRepeat s := (rfl)

@[simp] theorem cfgHbmRetireCe_atMt (s : State) (τ : Nat) : cfgHbmRetireCe (atMt s τ) = cfgHbmRetireCe s := (rfl)

@[simp] theorem cfgMcastWait_atMt (s : State) (τ : Nat) : cfgMcastWait (atMt s τ) = cfgMcastWait s := (rfl)

@[simp] theorem cfgPeerRedWait_atMt (s : State) (τ : Nat) : cfgPeerRedWait (atMt s τ) = cfgPeerRedWait s := (rfl)

@[simp] theorem cfgUartBaud_atMt (s : State) (τ : Nat) : cfgUartBaud (atMt s τ) = cfgUartBaud s := (rfl)

@[simp] theorem cfgGroupId_atMt (s : State) (τ : Nat) : cfgGroupId (atMt s τ) = cfgGroupId s := (rfl)

@[simp] theorem cfgHostVlan_atMt (s : State) (τ : Nat) : cfgHostVlan (atMt s τ) = cfgHostVlan s := (rfl)

@[simp] theorem serialBytes_atMt (s : State) (τ : Nat) : serialBytes (atMt s τ) = serialBytes s := (rfl)

@[simp] theorem getClu_atMt (s : State) (τ : Nat) (p : Nat) : getClu (atMt s τ) p = getClu s p := (rfl)

@[simp] theorem getLmap_atMt (s : State) (τ : Nat) (l : Nat) : getLmap (atMt s τ) l = getLmap s l := (rfl)

@[simp] theorem physOf_atMt (s : State) (τ : Nat) (l : Nat) : physOf (atMt s τ) l = physOf s l := (rfl)

@[simp] theorem served_atMt (s : State) (τ : Nat) (l : Nat) : served (atMt s τ) l = served s l := (rfl)

@[simp] theorem logicalOf_atMt (s : State) (τ : Nat) (p : Nat) : logicalOf (atMt s τ) p = logicalOf s p := (rfl)

@[simp] theorem lastLogicalOf_atMt (s : State) (τ : Nat) (p : Nat) : lastLogicalOf (atMt s τ) p = lastLogicalOf s p := (rfl)

@[simp] theorem absentCount_atMt (s : State) (τ : Nat) : absentCount (atMt s τ) = absentCount s := (rfl)

@[simp] theorem unservedCount_atMt (s : State) (τ : Nat) : unservedCount (atMt s τ) = unservedCount s := (rfl)

@[simp] theorem capacityReg_atMt (s : State) (τ : Nat) : capacityReg (atMt s τ) = capacityReg s := (rfl)

@[simp] theorem peerPortOf_atMt (s : State) (τ : Nat) (n : Nat) : peerPortOf (atMt s τ) n = peerPortOf s n := (rfl)

@[simp] theorem pdkItems_atMt (s : State) (τ : Nat) (pool queue : Nat) : pdkItems (atMt s τ) pool queue = pdkItems s pool queue := (rfl)

@[simp] theorem poolUsedCells_atMt (s : State) (τ : Nat) (pool : Nat) : poolUsedCells (atMt s τ) pool = poolUsedCells s pool := (rfl)

@[simp] theorem poolFree_atMt (s : State) (τ : Nat) (pool : Nat) : poolFree (atMt s τ) pool = poolFree s pool := (rfl)

@[simp] theorem pdkFits_atMt (s : State) (τ : Nat) (pool queue n : Nat) : pdkFits (atMt s τ) pool queue n = pdkFits s pool queue n := (rfl)

@[simp] theorem findUnit_atMt (s : State) (τ : Nat) (wu : Nat) : findUnit (atMt s τ) wu = findUnit s wu := (rfl)

@[simp] theorem findRun_atMt (s : State) (τ : Nat) (r : DescRef) : findRun (atMt s τ) r = findRun s r := (rfl)

@[simp] theorem heldClusters_atMt (s : State) (τ : Nat) : heldClusters (atMt s τ) = heldClusters s := (rfl)

@[simp] theorem physHeld_atMt (s : State) (τ : Nat) (p : Nat) : physHeld (atMt s τ) p = physHeld s p := (rfl)

@[simp] theorem getCtr_atMt (s : State) (τ : Nat) (n : Nat) : getCtr (atMt s τ) n = getCtr s n := (rfl)

@[simp] theorem refusedEpoch_atMt (s : State) (τ : Nat) (n : Nat) (e : Option Nat) : refusedEpoch (atMt s τ) n e = refusedEpoch s n e := (rfl)

@[simp] theorem reqHaltered_atMt (s : State) (τ : Nat) (req : Nat) : reqHaltered (atMt s τ) req = reqHaltered s req := (rfl)

@[simp] theorem getBar_atMt (s : State) (τ : Nat) (b : Nat) : getBar (atMt s τ) b = getBar s b := (rfl)

@[simp] theorem linkUp_atMt (s : State) (τ : Nat) (l : Link) : linkUp (atMt s τ) l = linkUp s l := by cases l <;> rfl

@[simp] theorem findSess_atMt (s : State) (τ : Nat) (lk : Link) (num : Nat) : findSess (atMt s τ) lk num = findSess s lk num := (rfl)

@[simp] theorem getGroup_atMt (s : State) (τ : Nat) (g : Nat) : getGroup (atMt s τ) g = getGroup s g := (rfl)

@[simp] theorem ipv4On_atMt (s : State) (τ : Nat) : ipv4On (atMt s τ) = ipv4On s := (rfl)

@[simp] theorem ipv6On_atMt (s : State) (τ : Nat) : ipv6On (atMt s τ) = ipv6On s := (rfl)

@[simp] theorem ownIp_atMt (s : State) (τ : Nat) (ip : List Byte) : ownIp (atMt s τ) ip = ownIp s ip := (rfl)

@[simp] theorem cfgIpv4_atMt (s : State) (τ : Nat) : cfgIpv4 (atMt s τ) = cfgIpv4 s := (rfl)

@[simp] theorem cfgIpv6_atMt (s : State) (τ : Nat) : cfgIpv6 (atMt s τ) = cfgIpv6 s := (rfl)

@[simp] theorem linkLocal_atMt (s : State) (τ : Nat) : linkLocal (atMt s τ) = linkLocal s := (rfl)

@[simp] theorem findSpare_atMt (s : State) (τ : Nat) (g : Nat) : findSpare (atMt s τ) g = findSpare s g := (rfl)

@[simp] theorem estimate_atMt (s : State) (τ : Nat) (k : Nat) : estimate (atMt s τ) k = estimate s k := (rfl)

@[simp] theorem groupHeld_atMt (s : State) (τ : Nat) (g : Nat) : groupHeld (atMt s τ) g = groupHeld s g := (rfl)

@[simp] theorem keyValid_atMt (s : State) (τ : Nat) (i : Nat) : keyValid (atMt s τ) i = keyValid s i := (rfl)

@[simp] theorem keyPriority_atMt (s : State) (τ : Nat) (i : Nat) : keyPriority (atMt s τ) i = keyPriority s i := (rfl)

@[simp] theorem keyPublic_atMt (s : State) (τ : Nat) (i : Nat) : keyPublic (atMt s τ) i = keyPublic s i := (rfl)

@[simp] theorem getWin_atMt (s : State) (τ : Nat) (w : Nat) : getWin (atMt s τ) w = getWin s w := (rfl)

@[simp] theorem getRound_atMt (s : State) (τ : Nat) (w : Nat) : getRound (atMt s τ) w = getRound s w := (rfl)

@[simp] theorem getSlot_atMt (s : State) (τ : Nat) (i : Nat) : getSlot (atMt s τ) i = getSlot s i := (rfl)

end Sys2Proof.Laws
end

