-- ==== Sys2Proof/Laws/Groups.lean ====
section
/-! SUPPORT. What the operations of clock groups, the host paths and the entry of READY do: lemmas to cite in place of unfolding those operations. -/

namespace Sys2Proof.Laws

open Sys2Proof.Machine Sys2Proof.Safety

set_option maxRecDepth 30000

theorem enterReady_ctl (s : State) : (enterReady s).ctl = { s.ctl with modState := .ready, step := 9 } ∧ (enterReady s).clock = s.clock := by
  have hk := fun v => (helloAll_keeps (M := [.host, .peers, .free]) (Keeps.refl _ v) (by decide) (by decide) (by decide)).parts.same
  have hr := fun v => (readyRemount_keeps (M := [.flt, .pdk, .clu, .pwr, .meter]) (Keeps.refl _ v) (by decide) (by decide) (by decide) (by decide) (by decide)).parts.same
  have hp := fun v => (readyPower_keeps (M := [.pwr]) (Keeps.refl _ v) (by decide)).parts.same
  have hf : ∀ (l : List (Nat × Nat × Nat × Nat)) (v : State), Keeps [.flt, .pdk, .meter] v (l.foldl (fun s e =>
    let ev : Event := { code := e.1, res := e.2.2.1, params := if e.1 = 0x000A then [] else [e.2.2.2] }
    if e.1 = 0x000A then postFault (post s ev) 0x1A e.2.2.1 e.2.2.2 else post s ev) v) := by
    intro l v
    refine Keeps.foldl (Keeps.refl _ _) fun u x hu => ?_
    dsimp only
    split
    · exact postFault_keeps (post_keeps hu (by decide)) (by decide) (by decide) (by decide)
    · exact post_keeps hu (by decide)
  unfold enterReady
  dsimp only
  have a1 := fun v => (hk v) .ctl (by decide)
  have a2 := fun v => (hr v) .ctl (by decide)
  have a3 := fun v => (hp v) .ctl (by decide)
  have a4 := fun l v => (hf l v).parts.same .ctl (by decide)
  have b1 := fun v => (hk v) .clock (by decide)
  have b2 := fun v => (hr v) .clock (by decide)
  have b3 := fun v => (hp v) .clock (by decide)
  have b4 := fun l v => (hf l v).parts.same .clock (by decide)
  simp only [Part.same] at a1 a2 a3 a4 b1 b2 b3 b4
  constructor
  · rw [a1, a2, a3]; rw [modReins_ctl]; rw [a4]
  · rw [b1, b2, b3]; rw [modReins_clock]; rw [b4]

theorem announcePath_keepsHost (s : State) (p : Nat) : (announcePath s p).host.active = s.host.active ∧ (announcePath s p).host.standby = s.host.standby ∧ (announcePath s p).host.lostSeen = s.host.lostSeen ∧ (announcePath s p).host.down = s.host.down ∧ (announcePath s p).host.sessions = s.host.sessions ∧ (announcePath s p).pdk = s.pdk ∧ (announcePath s p).clock = s.clock := by
  unfold announcePath
  dsimp only
  split <;> split <;> simp [putSent, modCtr]

theorem mem_numsFrom {a n x : Nat} : x ∈ numsFrom a n ↔ a ≤ x ∧ x < a + n := by
  induction n generalizing a with
  | zero => simp [numsFrom]
  | succ n ih => simp [numsFrom, ih]; omega

theorem tallyGroup_facts (s : State) (g : Nat) : now (tallyGroup s g) = now s ∧ (tallyGroup s g).pwr = s.pwr ∧ (tallyGroup s g).pdk = s.pdk ∧ (tallyGroup s g).clu.trace = s.clu.trace := by
  unfold tallyGroup
  generalize numsFrom (17 * g) 17 = l
  induction l generalizing s with
  | nil => exact ⟨rfl, rfl, rfl, rfl⟩
  | cons x l ih =>
    obtain ⟨a, b, c, d⟩ := ih (tallyActive s x)
    refine ⟨?_, ?_, ?_, ?_⟩
    · simp only [List.foldl_cons, a, now_tallyActive]
    · simp only [List.foldl_cons, b]; rcases tallyActive_eq s x with e | e <;> rw [e] <;> rfl
    · simp only [List.foldl_cons, c]; rcases tallyActive_eq s x with e | e <;> rw [e] <;> rfl
    · simp only [List.foldl_cons, d]; rcases tallyActive_eq s x with e | e <;> rw [e] <;> rfl

theorem traceStep_facts (s : State) (g : Nat) : (traceStep s g).pwr = s.pwr ∧ now (traceStep s g) = now s ∧ (bit s.clu.trace 7 = false → traceStep s g = s) := by
  unfold traceStep
  generalize numsFrom (16 * g) 16 = l
  induction l generalizing s with
  | nil => exact ⟨rfl, rfl, fun _ => rfl⟩
  | cons x l ih =>
    simp only [List.foldl_cons]
    refine ⟨?_, ?_, fun hb => ?_⟩
    · rw [(ih _).1]; split <;> simp
    · rw [(ih _).2.1]; split <;> simp
    · have : (trace s 7 (some x) 0 0 0 0 []) = s := by unfold trace; simp [hb]
      rw [this, ite_self]
      exact (ih s).2.2 hb

theorem foldl_groups {f : Group → Nat → Group} (s0 : State) (F : State → Nat → State)
    (hF : ∀ v g, now v = now s0 → now (F v g) = now v ∧ (F v g).pdk = v.pdk ∧ (F v g).pwr.hot = v.pwr.hot ∧ getGroup (F v g) g = f (getGroup v g) g ∧ ∀ h, h ≠ g → getGroup (F v g) h = getGroup v h)
    (l : List Nat) (hl : l.Nodup) (v : State) (hv : now v = now s0) :
    now (l.foldl F v) = now v ∧ (l.foldl F v).pdk = v.pdk ∧ (l.foldl F v).pwr.hot = v.pwr.hot ∧ (∀ g, g ∈ l → getGroup (l.foldl F v) g = f (getGroup v g) g) ∧
      (∀ g, g ∉ l → getGroup (l.foldl F v) g = getGroup v g) := by
  induction l generalizing v with
  | nil => exact ⟨rfl, rfl, rfl, fun g hg => by simp at hg, fun _ _ => rfl⟩
  | cons x l ih =>
    obtain ⟨a, b, b', c, d⟩ := hF v x hv
    obtain ⟨hx, hl'⟩ := List.nodup_cons.mp hl
    obtain ⟨i1, i2, i2', i3, i4⟩ := ih hl' (F v x) (by rw [a]; exact hv)
    refine ⟨by simp only [List.foldl_cons]; rw [i1, a], by simp only [List.foldl_cons]; rw [i2, b], by simp only [List.foldl_cons]; rw [i2', b'], ?_, ?_⟩
    · intro g hg
      simp only [List.foldl_cons]
      rcases List.mem_cons.mp hg with rfl | hg
      · rw [i4 g hx, c]
      · rw [i3 g hg, d g (fun e => hx (e ▸ hg))]
    · intro g hg
      simp only [List.mem_cons, not_or] at hg
      simp only [List.foldl_cons]
      rw [i4 g hg.2, d g hg.1]

theorem dieGroups_nodup (die : Nat) : (dieGroups die).Nodup := by
  unfold dieGroups
  split
  · have : ∀ n a, (numsFrom a n).Nodup := by
      intro n
      induction n with
      | zero => intro a; simp [numsFrom]
      | succ n ih => intro a; simp only [numsFrom, List.nodup_cons]; exact ⟨by rw [mem_numsFrom]; omega, ih _⟩
    exact this _ _
  · simp

theorem getGroup_tallyGroup (s : State) (g h : Nat) : getGroup (tallyGroup s g) h = getGroup s h := by
  unfold getGroup; rw [(tallyGroup_facts s g).2.1]

theorem modGroup_hot (s : State) (g : Nat) (f : Group → Group) : (modGroup s g f).pwr.hot = s.pwr.hot := rfl

end Sys2Proof.Laws
end

