-- ==== Sys2Proof/Laws/Reins.lean ====
section
/-! SUPPORT. What the operations of counters, barriers and waits do: lemmas to cite in place of unfolding those operations. -/

namespace Sys2Proof.Laws

open Sys2Proof.Machine Sys2Proof.Safety

set_option maxRecDepth 30000

theorem answerWait_reins (s : State) (w : Wait) (v : Option Nat) : (answerWait s w v).reins.counters = s.reins.counters ∧ (answerWait s w v).reins.barriers = s.reins.barriers ∧ (answerWait s w v).reins.waits = s.reins.waits ∧ (answerWait s w v).clock = s.clock := by
  unfold answerWait
  dsimp only
  split
  · exact ⟨rfl, rfl, rfl, rfl⟩
  · split
    · exact ⟨rfl, rfl, rfl, rfl⟩
    · exact ⟨rfl, rfl, rfl, rfl⟩

theorem foldWait_reins (l : List Wait) (v : Option Nat) (s : State) : (l.foldl (fun s w => answerWait s w v) s).reins.counters = s.reins.counters ∧ (l.foldl (fun s w => answerWait s w v) s).reins.barriers = s.reins.barriers ∧ (l.foldl (fun s w => answerWait s w v) s).reins.waits = s.reins.waits := by
  induction l generalizing s with
  | nil => exact ⟨rfl, rfl, rfl⟩
  | cons w l ih =>
    obtain ⟨a, b, c⟩ := ih (answerWait s w v)
    obtain ⟨d, e, f, -⟩ := answerWait_reins s w v
    exact ⟨a.trans d, b.trans e, c.trans f⟩

theorem setCtrValue_reins (s : State) (n : Nat) (v : Word) :
    (setCtrValue s n v).reins.counters = tblMod {} s.reins.counters n (fun c => { c with value := v }) ∧
    (setCtrValue s n v).reins.barriers = s.reins.barriers ∧
    (setCtrValue s n v).reins.waits = s.reins.waits.filter fun w => !(w.ctr == n && waitHolds w v) := by
  unfold setCtrValue answerWaits
  dsimp only
  have hv : (getCtr (modReins s fun r => { r with counters := tblMod {} r.counters n fun c => { c with value := v } }) n).value = v := by
    simp [getCtr, tblMod]
  obtain ⟨a, b, c⟩ := foldWait_reins (sortBy (fun a b : Wait => decide (a.req < b.req)) ((modReins s fun r => { r with counters := tblMod {} r.counters n fun c => { c with value := v } }).reins.waits.filter fun w => w.ctr == n && waitHolds w (getCtr (modReins s fun r => { r with counters := tblMod {} r.counters n fun c => { c with value := v } }) n).value)) (some (getCtr (modReins s fun r => { r with counters := tblMod {} r.counters n fun c => { c with value := v } }) n).value.toNat) (modReins (modReins s fun r => { r with counters := tblMod {} r.counters n fun c => { c with value := v } }) fun r => { r with waits := r.waits.filter fun w => !(w.ctr == n && waitHolds w (getCtr (modReins s fun r => { r with counters := tblMod {} r.counters n fun c => { c with value := v } }) n).value) })
  refine ⟨a, b, c.trans ?_⟩
  rw [hv]
  rfl

theorem getCtr_setCtrValue (s : State) (n : Nat) (v : Word) : getCtr (setCtrValue s n v) n = { getCtr s n with value := v } := by
  unfold getCtr; rw [(setCtrValue_reins s n v).1]; simp [tblMod]

theorem getCtr_setCtrValue_other (s : State) {n m : Nat} (v : Word) (h : m ≠ n) : getCtr (setCtrValue s n v) m = getCtr s m := by
  unfold getCtr; rw [(setCtrValue_reins s n v).1]; exact tblGet_tblSet_other _ _ _ h

theorem releaseFold_reins (l : List Arrival) (s : State) : (l.foldl (fun s a => match a.ref with
        | none => s
        | some r => modRun s r fun d => { d with waiting := false }) s).reins = s.reins := by
  induction l generalizing s with
  | nil => rfl
  | cons a l ih =>
    simp only [List.foldl_cons]
    rw [ih]
    split <;> rfl

theorem tblGet_map {α : Type} {d : α} {g : α → α} (hd : g d = d) (t : Tbl α) (x : Nat) : tblGet d (t.map fun e => (e.1, g e.2)) x = g (tblGet d t x) := by
  induction t with
  | nil => exact hd.symm
  | cons e r ih =>
    simp only [List.map_cons, tblGet]
    split
    · rfl
    · exact ih

theorem getBar_setBar_same (s : State) (b : Nat) (x : Barrier) : getBar (setBar s b x) b = x := by simp [getBar, setBar]

theorem getBar_setBar_other (s : State) {b c : Nat} (x : Barrier) (h : c ≠ b) : getBar (setBar s b x) c = getBar s c := tblGet_tblSet_other _ _ _ h

theorem mem_insertBy {α : Type} (f : α → α → Bool) (a x : α) (l : List α) : x ∈ insertBy f a l ↔ x = a ∨ x ∈ l := by
  induction l with
  | nil => simp [insertBy]
  | cons b l ih =>
    unfold insertBy
    split
    · simp
    · simp only [List.mem_cons, ih]; tauto

theorem mem_sortBy {α : Type} (f : α → α → Bool) (x : α) (l : List α) : x ∈ sortBy f l ↔ x ∈ l := by
  have : ∀ (l acc : List α), x ∈ l.foldl (fun acc x => insertBy f x acc) acc ↔ x ∈ acc ∨ x ∈ l := by
    intro l
    induction l with
    | nil => simp
    | cons a l ih => intro acc; simp only [List.foldl_cons, ih, mem_insertBy, List.mem_cons]; tauto
  simpa [sortBy] using this l []

theorem advanceEpoch_reins (s : State) (n : Nat) :
    (advanceEpoch s n).reins.counters = tblMod {} s.reins.counters n (fun c => { c with epoch := (c.epoch + 1) % 256 }) ∧
    (advanceEpoch s n).reins.barriers = s.reins.barriers ∧
    (advanceEpoch s n).reins.waits = s.reins.waits.filter fun w => !(w.ctr == n) := by
  unfold advanceEpoch
  dsimp only
  exact foldWait_reins _ none _

end Sys2Proof.Laws
end

