-- ==== Sys2Proof/Laws/Failures.lean ====
section
/-! SUPPORT. What Paddock writes, a cluster's failure and remount, Yarrow answers and supervisor faults do: lemmas to cite in place of unfolding those operations. -/

namespace Sys2Proof.Laws

open Sys2Proof.Machine Sys2Proof.Safety

set_option maxRecDepth 30000

theorem marked_of {s v u : State} {p : WorkUnit → Bool} {reason res : Nat} (hv : v.disp.units = s.disp.units)
    (hu : u.disp.units = (addCauses v p reason res).disp.units) (hn : now u = now v) : Marked s u p reason res := by
  unfold Marked
  rw [hu, hn, ← hv]
  rfl

theorem pdkItems_setQueue (s : State) (p q : Nat) (l : List Item) : pdkItems (setQueue s p q l) p q = l := by
  simp [pdkItems, setQueue]

theorem pdkItems_setQueue_other (s : State) {p q i j : Nat} (l : List Item) (h : qKey i j ≠ qKey p q) : pdkItems (setQueue s p q l) i j = pdkItems s i j :=
  tblGet_tblSet_other _ _ _ h

theorem room_setQueue {s : State} {p q n : Nat} (h : Room s n) : Room (setQueue s p q []) n := by
  obtain ⟨h1, h2, h3⟩ := h
  refine ⟨rising_tblSet h1 _ _, ?_, ?_⟩
  · by_cases e : qKey 4 10 = qKey p q
    · have : pdkItems (setQueue s p q []) 4 10 = [] := by unfold pdkItems setQueue; dsimp only; rw [e]; simp
      rw [this]
      have : itemCells [] = 0 := rfl
      omega
    · rw [pdkItems_setQueue_other _ _ e]; exact h2
  · have k := sum_tblSet (d := []) (g := fun e : Nat × List Item => if e.1 / 4096 = 4 then itemCells e.2 else 0) (x := qKey p q)
      (a := []) h1 (by simp [itemCells, sumNat])
    have e : (if qKey p q / 4096 = 4 then itemCells [] else 0) = 0 := by simp [itemCells, sumNat]
    simp only [e] at k
    simp only [poolUsedCells, sumNat_eq, setQueue] at h3 ⊢
    omega

theorem pdkPut_other (s : State) {p q i j : Nat} (it : Item) (h : qKey i j ≠ qKey p q) : pdkItems (pdkPut s p q it) i j = pdkItems s i j := by
  unfold pdkPut
  split
  · exact pdkItems_pdkAppend_other s p q it h
  · split
    · unfold pdkDrop
      dsimp only
      split
      · exact pdkItems_setQueue_other _ _ h
      · exact pdkItems_setQueue_other _ _ h
    · rfl

theorem leAt_marker (p q m : Nat) (wu : Option Nat) : leAt (markerCell p q m wu) 0 4 = 1 := by
  have : leBytes 4 1 = [1,0,0,0] := by decide
  unfold markerCell
  rw [this]
  rfl

def EventTail (s : State) (e : Event) (v : State) (n : Nat) : Prop := (∃ es, Posted s v (e :: es)) ∧ Room v n

theorem EventTail.congr {s v w : State} {e : Event} {n : Nat} (h : EventTail s e v n) (hp : w.pdk = v.pdk) (hn : now w = now v) : EventTail s e w n :=
  ⟨h.1.imp fun _ k => posted_congr hp hn k, (room_congr hp).mpr h.2⟩

theorem EventTail.keeps {s v w : State} {e : Event} {n : Nat} {M : List Part} (h : EventTail s e v n) (k : Keeps M v w) (hp : Part.pdk ∉ M := by decide) (hc : Part.clock ∉ M := by decide) : EventTail s e w n :=
  h.congr (k.parts.same .pdk hp) (congrArg Clock.mt (k.parts.same .clock hc))

theorem EventTail.post {s v : State} {e f : Event} {n : Nat} (h : EventTail s e v (n + 1)) : EventTail s e (post v f) n := by
  obtain ⟨⟨es, h1⟩, h2⟩ := h
  obtain ⟨a, b⟩ := posted_step (src := 548) (e := f) h2 h1
  exact ⟨⟨es ++ [f], a⟩, b⟩

theorem EventTail.capOpen {s v : State} {e : Event} {n c r : Nat} (h : EventTail s e v (n + 1)) : EventTail s e (capOpen v c r) n := by
  unfold Machine.capOpen
  split
  · exact ⟨h.1, room_mono h.2 (by omega)⟩
  · dsimp only
    exact EventTail.congr (v := Machine.post v { code := 0x0009, res := r, params := [c, capacityReg v] }) h.post rfl rfl

theorem EventTail.mono {s v : State} {e : Event} {m n : Nat} (h : EventTail s e v n) (hm : m ≤ n) : EventTail s e v m := ⟨h.1, room_mono h.2 hm⟩

theorem EventTail.fault {s v : State} {mech res p0 n : Nat} (hv : v.pdk = s.pdk) (h : Room s (n + 1)) :
    EventTail s { code := 0x0001, mech := mech, res := res, params := [p0] } (postFault v mech res p0) n := by
  obtain ⟨a, b⟩ := posted_fault (mech := mech) (res := res) (p0 := p0) (n := n) ((room_congr hv).mpr h) (posted_nil hv)
  exact ⟨⟨[], a⟩, b⟩

theorem makeAbsent_tail {s v : State} {e : Event} {n l p : Nat} {b : List Nat} (h : EventTail s e v (n + 2)) : EventTail s e (makeAbsent v l p b) n := by
  unfold makeAbsent postResidencyLost
  dsimp only
  exact (EventTail.congr h rfl rfl : EventTail s e (setLmap v l _) (n + 2)).post.post

theorem beginRemount_tail {s v : State} {e : Event} {n l p : Nat} (h : EventTail s e v (n + 3)) : EventTail s e (beginRemount v l p) n := by
  unfold beginRemount
  dsimp only
  have h' : EventTail s e (dropResidency v l) (n + 3) := h.congr rfl rfl
  split
  · exact (h'.keeps (startRemount_keeps (M := [.clu, .pwr]) (Keeps.refl _ _) (by decide) (by decide))).mono (by omega) |>.capOpen
  · exact (makeAbsent_tail h').capOpen

theorem failPhys_tail {s v : State} {e : Event} {n p mech res : Nat} (h : EventTail s e v (n + 3)) : EventTail s e (failPhys v p mech res) n := by
  have hk := haltCluster_keeps (M := [.clu, .pwr]) (mech := mech) (p := p) (Keeps.refl _ v) (by decide) (by decide)
  unfold failPhys
  split
  · exact beginRemount_tail ((h.keeps hk).congr rfl rfl)
  · dsimp only
    have a : EventTail s e (haltCluster v p mech) (n + 3) := h.keeps hk
    split
    · exact a.mono (by omega)
    · rename_i r _
      have b : EventTail s e { haltCluster v p mech with clu := { (haltCluster v p mech).clu with remounts := (haltCluster v p mech).clu.remounts.filter fun x => x.l != r.l } } (n + 3) := a.congr rfl rfl
      exact makeAbsent_tail (b.mono (by omega))

theorem served_requestWake (s : State) (q l : Nat) : served (requestWake s q) l = served s l := by
  unfold requestWake
  dsimp only
  split
  · rfl
  · rfl

theorem getLmap_setLmap (s : State) (l : Nat) (m : LMap) : getLmap (setLmap s l m) l = m := by simp [getLmap, setLmap]

theorem served_clu {s v : State} (h : v.clu.lmap = s.clu.lmap) (l : Nat) : served v l = served s l := by
  unfold served getLmap; rw [h]

theorem beginRemount_served (s : State) (l p : Nat) : served (beginRemount s l p) l = false := by
  unfold beginRemount
  dsimp only
  split
  · rw [served_clu (congrArg Clusters.lmap (capOpen_clu _ _ _))]
    unfold startRemount
    dsimp only
    rw [served_requestWake]
    have e := getLmap_setLmap (dropResidency s l) l { p := p, unserved := true, absent := false }
    refine (served_clu (s := setLmap (dropResidency s l) l { p := p, unserved := true, absent := false }) rfl l).trans ?_
    unfold served
    rw [e]; rfl
  · rw [served_clu (congrArg Clusters.lmap (capOpen_clu _ _ _))]
    unfold makeAbsent postResidencyLost
    dsimp only
    rw [served_clu (congrArg Clusters.lmap (post_clu _ _)), served_clu (congrArg Clusters.lmap (post_clu _ _))]
    unfold served
    rw [getLmap_setLmap]; rfl

theorem startRemount_disp (s : State) (l p q : Nat) (b : List Nat) : (startRemount s l p q b).disp = s.disp :=
  (startRemount_keeps (M := [.clu, .pwr]) (Keeps.refl _ s) (by decide) (by decide)).parts.same .disp (by decide)

theorem makeAbsent_disp (s : State) (l p : Nat) (b : List Nat) : (makeAbsent s l p b).disp = s.disp := by
  unfold makeAbsent postResidencyLost
  dsimp only
  rw [post_disp, post_disp]; rfl

theorem beginRemount_units (s : State) (l p : Nat) : (beginRemount s l p).disp.units = s.disp.units := by
  unfold beginRemount
  dsimp only
  split
  · rw [capOpen_disp, startRemount_disp]; rfl
  · rw [capOpen_disp, makeAbsent_disp]; rfl

theorem now_beginRemount (s : State) (l p : Nat) : now (beginRemount s l p) = now s := by
  have k := (beginRemount_keeps (M := [.disp, .pdk, .clu, .pwr, .flt, .meter]) (l := l) (p := p) (Keeps.refl _ s) (by decide) (by decide) (by decide) (by decide) (by decide) (by decide)).parts.same .clock (by decide)
  exact congrArg Clock.mt k

theorem getClu_startPll (s : State) (g p : Nat) : getClu (startPll s g) p = getClu s p := rfl

theorem getClu_requestWake_other (s : State) {p q : Nat} (h : p ≠ q) : getClu (requestWake s q) p = getClu s p := by
  unfold requestWake
  dsimp only
  split
  · rfl
  · rw [getClu_setClu_other _ _ h]; rfl

/-- the cluster itself, when it is not the spare the remount takes -/
theorem getClu_clu {s v : State} (h : v.clu.phys = s.clu.phys) (p : Nat) : getClu v p = getClu s p := by unfold getClu; rw [h]

theorem findSpare_role {s : State} {g q : Nat} (h : findSpare s g = some q) : (getClu s q).role = .spare := by
  have := List.find?_some h
  simp only [Bool.and_eq_true, decide_eq_true_eq] at this
  exact this.1

theorem getClu_beginRemount (s : State) (l p : Nat) (h : (getClu s p).role ≠ .spare) : getClu (beginRemount s l p) p = getClu s p := by
  unfold beginRemount
  dsimp only
  split
  · rename_i q hq
    have hne : p ≠ q := by
      rintro rfl
      exact h (findSpare_role (s := dropResidency s l) hq)
    rw [getClu_clu (congrArg Clusters.phys (capOpen_clu _ _ _))]
    unfold startRemount
    dsimp only
    rw [getClu_requestWake_other _ hne]
    rfl
  · rw [getClu_clu (congrArg Clusters.phys (capOpen_clu _ _ _))]
    unfold makeAbsent postResidencyLost
    dsimp only
    rw [getClu_clu (congrArg Clusters.phys (post_clu _ _)), getClu_clu (congrArg Clusters.phys (post_clu _ _))]
    rfl

theorem getClu_tallyActive_same (s : State) (p : Nat) : ∃ a b, getClu (tallyActive s p) p = { getClu s p with activeCyc := a, activeSince := b } := by
  rcases tallyActive_eq s p with e | e <;> rw [e]
  · exact ⟨_, _, rfl⟩
  · exact ⟨_, _, getClu_modClu_same _ _ _⟩

theorem haltCluster_clu (s : State) (p mech : Nat) : ∃ c : Cluster, getClu (haltCluster s p mech) p = { c with role := failedRole (getClu s p) mech, halter := true, fails := (getClu s p).fails + 1, lastMech := mech, power := .off, running := none } := by
  unfold haltCluster
  dsimp only
  rw [getClu_modClu_same]
  unfold makeOff
  rw [getClu_modClu_same]
  obtain ⟨a, b, e⟩ := getClu_tallyActive_same s p
  rw [show getClu (modGroup (tallyActive s p) (groupOf p) _) p = _ from e]
  exact ⟨_, rfl⟩

theorem failedRole_ne (c : Cluster) (mech : Nat) : failedRole c mech ≠ .spare := by
  unfold failedRole; split <;> simp

theorem getClu_makeAbsent (s : State) (l p q : Nat) (b : List Nat) : getClu (makeAbsent s l p b) q = getClu s q := by
  unfold makeAbsent postResidencyLost
  dsimp only
  rw [getClu_clu (congrArg Clusters.phys (post_clu _ _)), getClu_clu (congrArg Clusters.phys (post_clu _ _))]
  rfl

theorem failPhys_clu (s : State) (p mech res : Nat) : ∃ c : Cluster, getClu (failPhys s p mech res) p = { c with role := failedRole (getClu s p) mech, halter := true, fails := (getClu s p).fails + 1, lastMech := mech, power := .off, running := none } := by
  obtain ⟨c, hc⟩ := haltCluster_clu s p mech
  unfold failPhys
  split
  · rw [getClu_beginRemount]
    · exact ⟨c, hc⟩
    · show (getClu (haltCluster s p mech) p).role ≠ _
      rw [hc]; exact failedRole_ne _ _
  · dsimp only
    split
    · exact ⟨c, hc⟩
    · rw [getClu_makeAbsent]; exact ⟨c, hc⟩

theorem failPhys_marks (s : State) (p mech l : Nat) (hlog : logicalOf (postFault s mech (resCluster l) p) p = logicalOf s p)
    (hl : logicalOf s p = some l) :
    served (failPhys (postFault s mech (resCluster l) p) p mech (resCluster l)) l = false ∧
      Marked s (failPhys (postFault s mech (resCluster l) p) p mech (resCluster l)) (touchedBy mech l) reasonHwFault (resCluster l) := by
  unfold failPhys
  rw [hlog, hl]
  dsimp only
  refine ⟨beginRemount_served _ _ _, ?_⟩
  have hd := (haltCluster_keeps (M := [.clu, .pwr]) (p := p) (mech := mech) (Keeps.refl _ (postFault s mech (resCluster l) p)) (by decide) (by decide)).parts
  have h1 := hd.same .disp (by decide)
  have h2 := hd.same .clock (by decide)
  simp only [Part.same] at h1 h2
  refine marked_of (v := haltCluster (postFault s mech (resCluster l) p) p mech) ?_ ?_ ?_
  · rw [h1, postFault_disp]
  · rw [beginRemount_units]
  · rw [now_beginRemount]; rfl

theorem declareFailed_down (s : State) (p mech : Nat) (h : (getClu s p).halter = false) : ClusterDown s (declareFailed s p mech) p mech ∧ now (declareFailed s p mech) = now s := by
  have hn : now (declareFailed s p mech) = now s := congrArg Clock.mt ((declareFailed_keeps (M := [.disp, .pdk, .clu, .pwr, .flt, .meter]) (p := p) (mech := mech) (Keeps.refl _ s) (by decide) (by decide) (by decide) (by decide) (by decide) (by decide)).parts.same .clock (by decide))
  refine ⟨?_, hn⟩
  unfold ClusterDown
  have hres : declareFailed s p mech = failPhys (postFault s mech (((logicalOf s p).map resCluster).getD resNone) p) p mech (((logicalOf s p).map resCluster).getD resNone) := by
    unfold declareFailed
    dsimp only
    rw [if_neg (by simp [h])]
    cases logicalOf s p <;> rfl
  rw [hres]
  generalize hr : ((logicalOf s p).map resCluster).getD resNone = res
  have hg : ∀ q, getClu (postFault s mech res p) q = getClu s q := fun q => getClu_clu (by rw [postFault_clu]) q
  have hlog : logicalOf (postFault s mech res p) p = logicalOf s p := by
    unfold logicalOf served physOf getLmap; rw [postFault_clu]
  obtain ⟨c, hc⟩ := failPhys_clu (postFault s mech res p) p mech res
  rw [hg] at hc
  refine ⟨by rw [hc], by rw [hc], by rw [hc], by rw [hc], by rw [hc], by rw [hc], ?_, ?_⟩
  · intro l hl
    rw [hl] at hr
    have hr' : res = resCluster l := hr.symm
    rw [hr']
    exact failPhys_marks s p mech l (hr' ▸ hlog) hl
  · intro hroom
    exact (failPhys_tail (n := 0) (EventTail.fault (n := 3) rfl hroom)).1

theorem down_atMt {s : State} {t p mech : Nat} {u : State} (h : ClusterDown (atMt s t) u p mech) : ClusterDown s u p mech := h

theorem capClose_clu' (s : State) (c r : Nat) : (capClose s c r).clu = s.clu := capClose_clu s c r

theorem getClu_postFault (s : State) (m r p0 q : Nat) : getClu (postFault s m r p0) q = getClu s q := getClu_clu (by rw [postFault_clu]) q

theorem getClu_setLmap (s : State) (l : Nat) (m : LMap) (q : Nat) : getClu (setLmap s l m) q = getClu s q := rfl

theorem tallyActive_yf (s : State) (p : Nat) : (tallyActive s p).clu.yarrowFails = s.clu.yarrowFails := by
  rcases tallyActive_eq s p with e | e <;> rw [e]; rfl

theorem haltCluster_yf (s : State) (p m : Nat) : (haltCluster s p m).clu.yarrowFails = s.clu.yarrowFails := by
  show (tallyActive s p).clu.yarrowFails = _
  exact tallyActive_yf s p

theorem requestWake_yf (s : State) (p : Nat) : (requestWake s p).clu.yarrowFails = s.clu.yarrowFails := by
  unfold requestWake; dsimp only; split <;> rfl

theorem makeAbsent_yf (s : State) (l p : Nat) (b : List Nat) : (makeAbsent s l p b).clu.yarrowFails = s.clu.yarrowFails := by
  unfold makeAbsent postResidencyLost; dsimp only; rw [post_clu, post_clu]; rfl

theorem beginRemount_yf (s : State) (l p : Nat) : (beginRemount s l p).clu.yarrowFails = s.clu.yarrowFails := by
  unfold beginRemount; dsimp only; split
  · rw [capOpen_clu]; unfold startRemount; dsimp only; rw [requestWake_yf]; rfl
  · rw [capOpen_clu, makeAbsent_yf]; rfl

theorem failPhys_yf (s : State) (p m r : Nat) : (failPhys s p m r).clu.yarrowFails = s.clu.yarrowFails := by
  unfold failPhys; split
  · rw [beginRemount_yf]; exact haltCluster_yf s p m
  · dsimp only; split
    · exact haltCluster_yf s p m
    · rw [makeAbsent_yf]; exact haltCluster_yf s p m

theorem declareFailed_yf (s : State) (p m : Nat) : (declareFailed s p m).clu.yarrowFails = s.clu.yarrowFails := by
  unfold declareFailed; split
  · rfl
  · dsimp only; rw [failPhys_yf, postFault_clu]

theorem kyendYarrowEnds_clu (s : State) (p : Nat) (a : String) : (kyendYarrowEnds s p a).clu = s.clu := by
  unfold kyendYarrowEnds; split <;> rfl

theorem yarrowAnswer_clu (s : State) (p r : Nat) : (yarrowAnswer s p r).clu = if s.clu.yarrowResult = 1 ∧ s.clu.yarrowReq = p then { s.clu with yarrowResult := r } else s.clu := by
  unfold yarrowAnswer; split
  · rw [kyendYarrowEnds_clu]
  · rfl

theorem makeActive_clu (s : State) (p : Nat) : (getClu (makeActive s p) p).power = .active ∧ (∀ q, q ≠ p → getClu (makeActive s p) q = getClu s q) ∧
    (makeActive s p).clu = { s.clu with phys := (makeActive s p).clu.phys } := by
  refine ⟨?_, fun q hq => ?_, ?_⟩
  · unfold makeActive; rw [getClu_modClu_same]
  · unfold makeActive; rw [getClu_modClu_other _ _ hq, getClu_tallyActive_other _ hq]; rfl
  · unfold makeActive
    rcases tallyActive_eq (startPll s (groupOf p)) p with e | e <;> rw [e] <;> rfl

theorem post_flt' (s : State) (e : Event) : (post s e).flt = s.flt := by
  exact post_flt s e

theorem postFault_phases (s : State) (m r p : Nat) : (postFault s m r p).flt.phases = s.flt.phases := by
  simp only [postFault, faultLog, post_flt]

theorem postFault_nocDead (s : State) (m r p : Nat) : (postFault s m r p).flt.nocDead = s.flt.nocDead := by
  simp only [postFault, faultLog, post_flt]

theorem postFault_dieLanes (s : State) (m r p : Nat) : (postFault s m r p).flt.dieLanes = s.flt.dieLanes := by
  simp only [postFault, faultLog, post_flt]

theorem capOpen_has (s : State) (c r : Nat) : ((capOpen s c r).flt.capacity.any fun x => x.1 == c && x.2.1 == r) = true := by
  unfold capOpen
  split
  · assumption
  · simp

theorem capClose_hasnt (s : State) (c r : Nat) : ((capClose s c r).flt.capacity.any fun x => x.1 == c && x.2.1 == r) = false := by
  unfold capClose
  split
  · rename_i h
    rw [List.find?_eq_none] at h
    rw [List.any_eq_false]
    exact h
  · dsimp only
    rw [List.any_eq_false]
    intro x hx
    have := (List.mem_filter.mp hx).2
    simp at this ⊢
    exact fun h => this.resolve_left (fun k => k h)

theorem loseDieSup_what (s : State) (d : Nat) :
    (loseDieSup s d).ctl = { s.ctl with dieSupLost := addOnce s.ctl.dieSupLost d } ∧
    Marked s (loseDieSup s d) (fun w => w.touched.any fun l => l / 128 == d) reasonHwFault (resDie d) ∧
    ((loseDieSup s d).flt.capacity.any fun c => c.1 == 4 && c.2.1 == resDie d) = true := by
  refine ⟨?_, ?_, ?_⟩
  · unfold loseDieSup; dsimp only; rw [capOpen_ctl]; simp only [addCauses, postFault_ctl]
  · unfold loseDieSup; dsimp only
    refine marked_of (v := postFault s 0x17 (resDie d) 0xFFFF) (by simp) ?_ ?_
    · rw [capOpen_disp]
    · rw [now_capOpen]; rfl
  · unfold loseDieSup; exact capOpen_has _ _ _

theorem addOnce_contains (l : List Nat) (x : Nat) : (addOnce l x).contains x = true := by
  unfold addOnce; split <;> simp_all

theorem fault_posted {s v : State} {m r p0 : Nat} (hv : v.pdk = s.pdk) (h : Room s 1) :
    Posted s (postFault v m r p0) [{ code := 0x0001, mech := m, res := r, params := [p0] }] :=
  (posted_fault (n := 0) ((room_congr hv).mpr h) (posted_nil hv)).1

end Sys2Proof.Laws
end

