-- ==== Sys2Proof/Laws/Sessions.lean ====
section
/-! SUPPORT. What sending, receiving and closing do to a session of the host port, and what they leave: lemmas to cite in place of unfolding those operations. -/

namespace Sys2Proof.Laws

open Sys2Proof.Machine Sys2Proof.Safety

set_option maxRecDepth 30000

/-- The held messages of a sequence are one message. -/
def Solid (x : Session) (q typ : Nat) (body : List Byte) : Prop :=
  (∃ h ∈ x.held, h.seq = q) ∧ ∀ h ∈ x.held, h.seq = q → h.typ = typ ∧ h.body = body

structure SessSame (x y : Session) : Prop where
  num : y.num = x.num
  gen : y.gen = x.gen
  key : y.key = x.key
  enc : y.enc = x.enc
  held : ∀ q t b, Solid x q t b → Solid y q t b

theorem SessSame.refl (x : Session) : SessSame x x := ⟨rfl, rfl, rfl, rfl, fun _ _ _ h => h⟩

theorem SessSame.trans {x y z : Session} (a : SessSame x y) (b : SessSame y z) : SessSame x z :=
  ⟨b.num.trans a.num, b.gen.trans a.gen, b.key.trans a.key, b.enc.trans a.enc, fun q t c h => b.held q t c (a.held q t c h)⟩

structure Sends (s u : State) : Prop where
  eq : u = { s with host := { s.host with sessions := u.host.sessions, sent := u.host.sent, ctr := u.host.ctr },
                    meter := { s.meter with departTap := u.meter.departTap } }
  sess : ∀ n x, findSess s .host n = some x → ∃ y, findSess u .host n = some y ∧ SessSame x y

theorem Sends.refl (s : State) : Sends s s := ⟨rfl, fun _ x h => ⟨x, h, .refl x⟩⟩

theorem Sends.trans {s u v : State} (a : Sends s u) (b : Sends u v) : Sends s v := by
  refine ⟨?_, fun n x h => ?_⟩
  · have h1 := a.eq
    have h2 := b.eq
    generalize v.host.sessions = v1 at h2 ⊢
    generalize v.host.sent = v2 at h2 ⊢
    generalize v.host.ctr = v3 at h2 ⊢
    generalize v.meter.departTap = v4 at h2 ⊢
    rw [h2, h1]
  · obtain ⟨y, hy, k1⟩ := a.sess n x h
    obtain ⟨z, hz, k2⟩ := b.sess n y hy
    exact ⟨z, hz, k1.trans k2⟩

theorem Solid.queued {u : State} {x : Session} {n q t : Nat} {b : List Byte} (hx : findSess u .host n = some x) (h : Solid x q t b) : Queued u n t b := by
  obtain ⟨⟨h', hm, hq⟩, k⟩ := h
  exact ⟨x, hx, h', hm, k h' hm hq⟩

theorem sends_modHost {s : State} {f : HostPort → HostPort} (h : ∃ a b, f s.host = { s.host with sent := a, ctr := b }) : Sends s (modHost s f) := by
  obtain ⟨a, b, h⟩ := h
  have e : modHost s f = { s with host := { s.host with sent := a, ctr := b } } := congrArg (fun h => { s with host := h }) h
  rw [e]
  exact ⟨rfl, fun n x hx => ⟨x, hx, .refl x⟩⟩

theorem sends_modCtr (s : State) (f : PortCounters → PortCounters) : Sends s (modCtr s .host f) :=
  sends_modHost (f := fun h => { h with ctr := f h.ctr }) ⟨_, _, rfl⟩

theorem sends_putSent (s : State) (x : Sent) : Sends s (putSent s .host x) := by
  unfold putSent
  exact (sends_modHost (f := fun h => { h with sent := x :: h.sent }) ⟨_, _, rfl⟩).trans (sends_modCtr _ _)

theorem findSess_map (l : List Session) (se x : Session) (n : Nat) (h : l.find? (fun x => x.num == n) = some x) :
    (l.map fun x => if x.num = se.num then se else x).find? (fun x => x.num == n) = some (if x.num = se.num then se else x) := by
  induction l with
  | nil => simp at h
  | cons a l ih =>
    rw [List.find?_cons] at h
    rw [List.map_cons, List.find?_cons]
    by_cases ha : (a.num == n) = true
    · rw [ha] at h
      obtain rfl := Option.some.inj h
      have : ((if a.num = se.num then se else a).num == n) = true := by
        split
        · rename_i e; rw [← e]; exact ha
        · exact ha
      rw [this]
    · simp only [Bool.not_eq_true] at ha
      rw [ha] at h
      have : ((if a.num = se.num then se else a).num == n) = false := by
        split
        · rename_i e; rw [← e]; exact ha
        · exact ha
      rw [this]
      exact ih h

theorem findSess_num {s : State} {n : Nat} {x : Session} (h : findSess s .host n = some x) : x.num = n := by
  have := List.find?_some (show s.host.sessions.find? _ = some x from h)
  simpa using this

/-- A session replaced by one that carries on from the one it finds under its number. -/
theorem sends_putSess {s : State} {x se : Session} (hx : findSess s .host se.num = some x) (h : SessSame x se) : Sends s (putSess s .host se) := by
  refine ⟨rfl, fun n y hy => ⟨_, findSess_map _ _ _ _ hy, ?_⟩⟩
  by_cases e : y.num = se.num
  · rw [if_pos e]
    have : n = se.num := (findSess_num hy).symm.trans e
    subst this
    rw [hx] at hy
    cases hy
    exact h
  · rw [if_neg e]; exact .refl y

theorem findSess_putSess {s : State} {x se : Session} (hx : findSess s .host se.num = some x) : findSess (putSess s .host se) .host se.num = some se := by
  have := findSess_map _ se _ _ hx
  rw [if_pos (findSess_num hx)] at this
  exact this

theorem sends_transmit {s : State} {x se : Session} (hx : findSess s .host se.num = some x) (h : SessSame x se)
    (typ : Nat) (body : List Byte) (rb rs : Bool) (seq mt : Nat) : Sends s (transmit s .host se typ body rb rs seq mt) := by
  unfold transmit
  dsimp only
  exact (sends_putSess (se := { se with txXmit := se.txXmit + 1, txLow := sessLow { se with txXmit := se.txXmit + 1, txLow := sessLow se } }) hx ⟨h.num, h.gen, h.key, h.enc, h.held⟩ |> fun k => (k.trans (sends_putSent _ _)))

theorem findSess_sends_num {s u : State} (h : Sends s u) {n : Nat} {x : Session} (hx : findSess s .host n = some x) : ∃ y, findSess u .host n = some y ∧ SessSame x y := h.sess n x hx

theorem findSess_transmit {s : State} {x se : Session} (hx : findSess s .host se.num = some x)
    (typ : Nat) (body : List Byte) (rb rs : Bool) (seq mt : Nat) :
    ∃ y, findSess (transmit s .host se typ body rb rs seq mt) .host se.num = some y ∧ SessSame se y := by
  have e : findSess (transmit s .host se typ body rb rs seq mt) .host se.num = some { se with txXmit := se.txXmit + 1, txLow := sessLow { se with txXmit := se.txXmit + 1, txLow := sessLow se } } :=
    findSess_putSess (se := { se with txXmit := se.txXmit + 1, txLow := sessLow { se with txXmit := se.txXmit + 1, txLow := sessLow se } }) hx
  exact ⟨_, e, ⟨rfl, rfl, rfl, rfl, fun _ _ _ h => h⟩⟩

theorem sends_departTap (s : State) (typ : Nat) (rb : Bool) (body : List Byte) : Sends s (departTap s typ rb body) := by
  unfold departTap
  split
  · exact ⟨rfl, fun n x hx => ⟨x, hx, .refl x⟩⟩
  · exact .refl s

theorem sends_flushHeld (s : State) (n k : Nat) : Sends s (flushHeld s .host n k) := by
  induction k generalizing s with
  | zero => exact .refl s
  | succ k ih =>
    unfold flushHeld
    split
    · exact .refl s
    · rename_i se hse
      split
      · exact .refl s
      · rename_i h hh
        split
        · dsimp only
          have hn : se.num = n := findSess_num hse
          refine Sends.trans ?_ (ih _)
          refine Sends.trans ?_ (sends_departTap _ _ _ _)
          generalize hse' : ({ se with held := _ } : Session) = se'
          have hnum : se'.num = n := by rw [← hse']; exact hn
          have hss : SessSame se se' := by
            rw [← hse']
            have hm : h ∈ se.held := List.mem_of_find?_eq_some hh
            refine ⟨rfl, rfl, rfl, rfl, fun q t b hs => ⟨?_, ?_⟩⟩
            · obtain ⟨g, m, e⟩ := hs.1
              refine ⟨_, List.mem_map.mpr ⟨g, m, rfl⟩, ?_⟩
              split
              · rename_i e'; exact e'.symm.trans e
              · exact e
            · intro g m e
              obtain ⟨g0, m0, rfl⟩ := List.mem_map.mp m
              split at e
              · rename_i e'
                rw [if_pos e']
                exact hs.2 h hm e
              · rename_i e'
                rw [if_neg e']
                exact hs.2 g0 m0 e
          subst hnum
          have a := sends_putSess (se := se') hse hss
          refine a.trans (sends_transmit (findSess_putSess hse) (.refl _) _ _ _ _ _ _)
        · exact .refl s

structure Moves (s u : State) : Prop where
  eq : u = { s with host := { s.host with sessions := u.host.sessions, sent := u.host.sent, ctr := u.host.ctr },
                    meter := { s.meter with departTap := u.meter.departTap } }
  sess : ∀ n x, findSess s .host n = some x → ∃ y, findSess u .host n = some y ∧ y.num = x.num ∧ y.gen = x.gen ∧ y.key = x.key ∧ y.enc = x.enc

theorem Sends.moves {s u : State} (a : Sends s u) : Moves s u :=
  ⟨a.eq, fun n x h => by obtain ⟨y, hy, k⟩ := a.sess n x h; exact ⟨y, hy, k.num, k.gen, k.key, k.enc⟩⟩

theorem Moves.refl (s : State) : Moves s s := (Sends.refl s).moves

theorem Moves.trans {s u v : State} (a : Moves s u) (b : Moves u v) : Moves s v := by
  refine ⟨?_, fun n x h => ?_⟩
  · have h1 := a.eq
    have h2 := b.eq
    generalize v.host.sessions = v1 at h2 ⊢
    generalize v.host.sent = v2 at h2 ⊢
    generalize v.host.ctr = v3 at h2 ⊢
    generalize v.meter.departTap = v4 at h2 ⊢
    rw [h2, h1]
  · obtain ⟨y, hy, k1, k2, k3, k4⟩ := a.sess n x h
    obtain ⟨z, hz, j1, j2, j3, j4⟩ := b.sess n y hy
    exact ⟨z, hz, j1.trans k1, j2.trans k2, j3.trans k3, j4.trans k4⟩

theorem moves_putSess {s : State} {x se : Session} (hx : findSess s .host se.num = some x) (h : se.gen = x.gen ∧ se.key = x.key ∧ se.enc = x.enc) : Moves s (putSess s .host se) := by
  refine ⟨rfl, fun n y hy => ⟨_, findSess_map _ _ _ _ hy, ?_⟩⟩
  by_cases e : y.num = se.num
  · rw [if_pos e]
    have : n = se.num := (findSess_num hy).symm.trans e
    subst this
    rw [hx] at hy
    cases hy
    exact ⟨e.symm, h⟩
  · rw [if_neg e]; exact ⟨rfl, rfl, rfl, rfl⟩

/-- What sendSeq does: its message stands on the session. -/
theorem moves_sendSeq (s : State) (n typ : Nat) (body : List Byte) (rb : Bool) (nt : Option (Nat × Item)) : Moves s (sendSeq s .host n typ body rb nt) := by
  unfold sendSeq
  split
  · exact .refl s
  · rename_i se hse
    dsimp only
    have hn := findSess_num hse
    subst hn
    generalize hse' : ({ se with txNext := _, held := _ } : Session) = se'
    have e : se'.num = se.num := by rw [← hse']
    have g : se'.gen = se.gen ∧ se'.key = se.key ∧ se'.enc = se.enc := by rw [← hse']; exact ⟨rfl, rfl, rfl⟩
    exact (moves_putSess (by rw [e]; exact hse) g).trans (sends_flushHeld _ _ _).moves

theorem queued_sendSeq {s : State} {n : Nat} {x : Session} (hx : findSess s .host n = some x) (hf : FreshSeq x) (typ : Nat) (body : List Byte) (rb : Bool) (nt : Option (Nat × Item)) :
    ∃ y, findSess (sendSeq s .host n typ body rb nt) .host n = some y ∧ Solid y x.txNext typ body := by
  have hn := findSess_num hx
  subst hn
  unfold sendSeq
  rw [hx]
  dsimp only
  generalize hse' : ({ x with txNext := _, held := _ } : Session) = se'
  have e : se'.num = x.num := by rw [← hse']
  have h1 := findSess_putSess (s := s) (se := se') (x := x) (by rw [e]; exact hx)
  rw [e] at h1
  generalize List.length _ = m
  obtain ⟨y, hy, k⟩ := (sends_flushHeld (putSess s .host se') x.num m).sess _ _ h1
  refine ⟨y, hy, k.held _ _ _ ?_⟩
  rw [← hse']
  refine ⟨⟨_, List.mem_append_right _ (List.mem_singleton.mpr rfl), rfl⟩, fun h m q => ?_⟩
  rcases List.mem_append.mp m with m | m
  · exact absurd q (hf h m)
  · rw [List.mem_singleton] at m; subst m; exact ⟨rfl, rfl⟩

theorem sends_sendPlain (s : State) (n typ : Nat) (body : List Byte) (r : Bool) : Sends s (sendPlain s .host n typ body r) := by
  unfold sendPlain
  split
  · exact .refl s
  · rename_i se hse
    split
    · have hn := findSess_num hse
      exact sends_transmit (by rw [hn]; exact hse) (.refl _) _ _ _ _ _ _
    · exact .refl s

theorem sends_sendAck (s : State) (n : Nat) : Sends s (sendAck s .host n) := by
  unfold sendAck
  split
  · exact .refl s
  · exact sends_sendPlain _ _ _ _ _

theorem moves_sendNack (s : State) (n q t r d : Nat) : Moves s (sendNack s n q t r d) := moves_sendSeq _ _ _ _ _ _

theorem sends_sendOpen (s : State) (typ : Nat) (body : List Byte) : Sends s (sendOpen s .host typ body) := by
  unfold sendOpen
  split
  · exact sends_putSent _ _
  · exact .refl s

/-! ## receiving -/

theorem receive_accepts {s : State} {d : Datagram} {typ : Nat} {se : Session} (h : HostAccepts s d typ se) (late : Bool) :
    ∃ v x, receive s .host d typ true late = (v, .act x (plainBody se d)) ∧ Moves s v ∧ findSess v .host se.num = some x ∧
      x.num = se.num ∧ x.gen = se.gen ∧ x.key = se.key ∧ x.held = se.held ∧ x.txNext = se.txNext := by
  obtain ⟨h1, h2, h3, h4⟩ := h
  have hn := findSess_num h3
  have hc : impCheck (countRx s .host) .host d typ = 0 := h2
  have hs : findSess (countRx s .host) .host d.session = some se := h3
  unfold receive
  rw [if_neg (by simp [h1])]
  dsimp only
  rw [if_neg (by simp [hc]), hs]
  dsimp only
  rw [if_neg (by simp), if_neg (by rw [Bool.not_eq_true]; exact h4)]
  have am : ∀ (k : Nat) (y : Session), (advanceCum k y).num = y.num ∧ (advanceCum k y).gen = y.gen ∧ (advanceCum k y).key = y.key ∧ (advanceCum k y).enc = y.enc ∧ (advanceCum k y).held = y.held ∧ (advanceCum k y).txNext = y.txNext := by
    intro k
    induction k with
    | zero => intro y; exact ⟨rfl, rfl, rfl, rfl, rfl, rfl⟩
    | succ k ih =>
      intro y
      unfold advanceCum
      dsimp only
      split
      · exact ih _
      · split
        · exact ih _
        · exact ⟨rfl, rfl, rfl, rfl, rfl, rfl⟩
  generalize hx : (ite (late = true) _ _ : Session) = x
  have hf : x.num = se.num ∧ x.gen = se.gen ∧ x.key = se.key ∧ x.enc = se.enc ∧ x.held = se.held ∧ x.txNext = se.txNext := by
    rw [← hx]
    split
    · exact ⟨rfl, rfl, rfl, rfl, rfl, rfl⟩
    · unfold markReceived; exact am _ _
  refine ⟨_, x, ?_, (sends_modCtr s _).moves.trans (moves_putSess (x := se) (by rw [hf.1, hn]; exact hs) ⟨hf.2.1, hf.2.2.1, hf.2.2.2.1⟩), ?_, hf.1, hf.2.1, hf.2.2.1, hf.2.2.2.2.1, hf.2.2.2.2.2⟩
  · rfl
  · rw [← hf.1]; exact findSess_putSess (x := se) (by rw [hf.1, hn]; exact hs)

theorem Moves.host {s u : State} (a : Moves s u) : u.host.owner = s.host.owner ∧ u.host.leaseEnd = s.host.leaseEnd ∧ u.host.election = s.host.election ∧ now u = now s ∧ u.pdk = s.pdk ∧ u.ctl = s.ctl := by
  have e := a.eq
  refine ⟨?_, ?_, ?_, ?_, ?_, ?_⟩ <;> rw [e] <;> rfl

theorem Moves.isOwner {s u : State} (a : Moves s u) (n g : Nat) : isOwner u n g = Machine.isOwner s n g := by
  obtain ⟨h1, h2, -, h4, -⟩ := a.host
  unfold Machine.isOwner
  rw [h1, h2, h4]

/-- A sequenced message in brief: the state it finds, then what it does, then its acknowledgement. -/
theorem hostMessage_accepts {s : State} {d : Datagram} {typ : Nat} {se : Session} (h : HostAccepts s d typ se)
    (act : State → Session → List Byte → State) :
    ∃ v x, Moves s v ∧ findSess v .host se.num = some x ∧ x.num = se.num ∧ x.gen = se.gen ∧ x.key = se.key ∧ x.held = se.held ∧ x.txNext = se.txNext ∧
      hostMessage s d typ act = sendAck (act v x (plainBody se d)) .host se.num := by
  obtain ⟨v, x, h1, h2, h3, h4, h5, h6, h7, h8⟩ := receive_accepts h false
  refine ⟨v, x, h2, h3, h4, h5, h6, h7, h8, ?_⟩
  unfold hostMessage
  rw [h1]
  dsimp only
  rw [h4]

theorem grantBridle_what {s : State} {se : Session} (hs : findSess s .host se.num = some se) (c : Nat) :
    (grantBridle s se c).host.owner = some (se.num, se.gen) ∧ (grantBridle s se c).host.leaseEnd = now s + 5000000000 ∧
    (grantBridle s se c).host.election = s.host.election ∧ now (grantBridle s se c) = now s ∧
    (FreshSeq se → ∃ y q, findSess (grantBridle s se c) .host se.num = some y ∧ Solid y q 0x02 (grantBody se c (now s))) := by
  unfold grantBridle
  dsimp only
  have m := moves_sendSeq (modHost s fun h => { h with owner := some (se.num, se.gen), leaseEnd := now s + 5000000000 }) se.num 0x02 (grantBody se c (now s)) false none
  obtain ⟨a1, a2, a3, a4, -, -⟩ := m.host
  refine ⟨a1, a2, a3, a4, fun hf => ?_⟩
  obtain ⟨y, hy, k⟩ := queued_sendSeq (s := modHost s fun h => { h with owner := some (se.num, se.gen), leaseEnd := now s + 5000000000 }) (x := se) hs hf 0x02 (grantBody se c (now s)) false none
  exact ⟨y, _, hy, k⟩

theorem queued_ack {s : State} {n q t : Nat} {b : List Byte} {y : Session} (m : Nat) (hy : findSess s .host n = some y) (k : Solid y q t b) : Queued (sendAck s .host m) n t b := by
  obtain ⟨z, hz, j⟩ := (sends_sendAck s m).sess _ _ hy
  exact Solid.queued hz (j.held _ _ _ k)

theorem moves_foldNack (l : List (Nat × Nat × Nat × Nat)) (s : State) (d : Nat) : Moves s (l.foldl (fun s x => sendNack s x.1 x.2.2.2 0x01 7 d) s) := by
  induction l generalizing s with
  | nil => exact .refl s
  | cons a l ih => exact (moves_sendNack _ _ _ _ _ _).trans (ih _)

theorem moves_returnNotices (s : State) (n : Nat) : (returnNotices s n).host.owner = s.host.owner ∧ (returnNotices s n).host.leaseEnd = s.host.leaseEnd ∧ now (returnNotices s n) = now s ∧ (returnNotices s n).pdk = s.pdk ∧
    (returnNotices s n).host.sessions.map (·.num) = s.host.sessions.map (·.num) ∧
    ∀ k x, findSess s .host k = some x → ∃ y, findSess (returnNotices s n) .host k = some y ∧ y.num = x.num ∧ y.gen = x.gen := by
  unfold returnNotices
  split
  · exact ⟨rfl, rfl, rfl, rfl, rfl, fun k x h => ⟨x, h, rfl, rfl⟩⟩
  · rename_i se hse
    have hn := findSess_num hse
    subst hn
    refine ⟨rfl, rfl, rfl, rfl, ?_, fun k x h => ?_⟩
    · show (s.host.sessions.map _).map _ = _
      rw [List.map_map]
      apply List.map_congr_left
      intro a ha
      show (if a.num = se.num then _ else a : Session).num = a.num
      split
      · rename_i e; exact e.symm
      · rfl
    · have k2 := findSess_map s.host.sessions { { se with held := se.held.filter fun h => h.notice.isNone } with txLow := sessLow { se with held := se.held.filter fun h => h.notice.isNone } } x k h
      refine ⟨_, k2, ?_⟩
      split
      · rename_i e
        have : k = se.num := (findSess_num h).symm.trans e
        subst this
        rw [hse] at h
        cases h
        exact ⟨rfl, rfl⟩
      · exact ⟨rfl, rfl⟩

theorem vacateBridle_what (s : State) : (vacateBridle s).host.owner = none ∧ (vacateBridle s).host.leaseEnd = s.host.leaseEnd ∧ now (vacateBridle s) = now s ∧ (vacateBridle s).pdk = s.pdk ∧
    (vacateBridle s).host.sessions.map (·.num) = s.host.sessions.map (·.num) ∧
    ∀ k x, findSess s .host k = some x → ∃ y, findSess (vacateBridle s) .host k = some y ∧ y.num = x.num ∧ y.gen = x.gen := by
  unfold vacateBridle
  split
  · rename_i h; exact ⟨h, rfl, rfl, rfl, rfl, fun k x h => ⟨x, h, rfl, rfl⟩⟩
  · rename_i o h
    obtain ⟨-, a, b, c, d, e⟩ := moves_returnNotices s o.1
    exact ⟨rfl, a, b, c, d, e⟩

theorem closeSession_what (s : State) (n : Nat) : (∀ x ∈ (closeSession s n).host.sessions, x.num ≠ n) ∧
    ∀ se, findSess s .host n = some se → s.host.owner = some (se.num, se.gen) → (closeSession s n).host.owner = none := by
  unfold closeSession
  split
  · rename_i h
    refine ⟨fun x hx => ?_, fun se hs => by rw [h] at hs; cases hs⟩
    have h' : s.host.sessions.find? (fun x => x.num == n) = none := h
    rw [List.find?_eq_none] at h'
    simpa using h' x hx
  · dsimp only
    refine ⟨fun x hx => ?_, fun se hs ho => ?_⟩
    · have hx' := (List.mem_filter.mp hx).2
      simpa using hx'
    · rename_i se' hs'
      rw [hs'] at hs
      cases hs
      show (ite _ (vacateBridle s) s : State).host.owner = none
      rw [if_pos ho]
      exact (vacateBridle_what s).1

theorem receive_plain {s : State} {lk : Link} {d : Datagram} {typ : Nat} {se : Session} (h : LinkAccepts s lk d typ se) :
    ∃ x, receive s lk d typ false false = (putSess (countRx s lk) lk x, .act x (plainBody se d)) ∧
      x = { se with lastRx := x.lastRx, rxHigh := x.rxHigh, rxXmits := x.rxXmits } := by
  obtain ⟨h1, h2, h3⟩ := h
  have hc : impCheck (countRx s lk) lk d typ = 0 := by
    cases lk with
    | host => exact h2
    | peer p =>
      have e : ∀ n, findSess (countRx s (.peer p)) (.peer p) n = findSess s (.peer p) n := fun n => by
        simp [findSess, countRx, modCtr, modPeerPort, peerPortOf, tblMod]
      unfold impCheck at h2 ⊢
      rw [e]
      exact h2
  have hs : findSess (countRx s lk) lk d.session = some se := by
    cases lk with
    | host => exact h3
    | peer p => rw [← h3]; simp [findSess, countRx, modCtr, modPeerPort, peerPortOf, tblMod]
  unfold receive
  rw [if_neg (by simp [h1])]
  dsimp only
  rw [if_neg (by simp [hc]), hs]
  exact ⟨_, rfl, rfl⟩

theorem findSess_put {s : State} {lk : Link} {n : Nat} {x se : Session} (h : findSess s lk n = some x) (hn : lk = .host → se.num = n) : findSess (putSess s lk se) lk n = some se := by
  cases lk with
  | host => have := hn rfl; subst this; exact findSess_putSess h
  | peer p =>
    have h' : (peerPortOf s p).session = some x := h
    show (peerPortOf (modPeerPort s p _) p).session = _
    unfold peerPortOf at h'
    simp [peerPortOf, modPeerPort, tblMod, h']

theorem findSess_ctr (s : State) (lk : Link) (f : PortCounters → PortCounters) (n : Nat) : findSess (modCtr s lk f) lk n = findSess s lk n := by
  cases lk with
  | host => rfl
  | peer p => simp [findSess, modCtr, modPeerPort, peerPortOf, tblMod]

theorem findSess_sent (s : State) (lk : Link) (x : Sent) (n : Nat) : findSess (putSent s lk x) lk n = findSess s lk n := by
  unfold putSent
  rw [findSess_ctr]
  cases lk <;> rfl

theorem findSess_tx {s : State} {lk : Link} {n : Nat} {x se : Session} (h : findSess s lk n = some x) (hn : lk = .host → se.num = n)
    (typ : Nat) (body : List Byte) (rb rs : Bool) (seq mt : Nat) :
    findSess (transmit s lk se typ body rb rs seq mt) lk n = some { se with txXmit := se.txXmit + 1, txLow := sessLow se } := by
  unfold transmit
  dsimp only
  rw [findSess_sent]
  exact findSess_put h hn

theorem now_put (s : State) (lk : Link) (se : Session) : now (putSess s lk se) = now s := by cases lk <;> rfl

theorem sent_put (s : State) (lk : Link) (se : Session) : (putSess s lk se).host.sent = s.host.sent := by cases lk <;> rfl

theorem sent_ctr (s : State) (lk : Link) (f : PortCounters → PortCounters) : (modCtr s lk f).host.sent = s.host.sent := by cases lk <;> rfl

theorem now_ctr (s : State) (lk : Link) (f : PortCounters → PortCounters) : now (modCtr s lk f) = now s := by cases lk <;> rfl

theorem sent_putSent (s : State) (lk : Link) (x : Sent) : (putSent s lk x).host.sent = x :: s.host.sent := by
  unfold putSent; rw [sent_ctr]; rfl

theorem now_putSent (s : State) (lk : Link) (x : Sent) : now (putSent s lk x) = now s := by
  unfold putSent; rw [now_ctr]; rfl

theorem returned_tx (s : State) (lk : Link) (se : Session) (typ : Nat) (body : List Byte) (rb rs : Bool) (seq mt : Nat) :
    (transmit s lk se typ body rb rs seq mt).host.returned = s.host.returned := by
  cases lk <;> rfl

theorem sent_tx (s : State) (lk : Link) (se : Session) (typ : Nat) (body : List Byte) (rb rs : Bool) (seq mt : Nat) :
    now (transmit s lk se typ body rb rs seq mt) = now s ∧
    ∃ low x b tag, (transmit s lk se typ body rb rs seq mt).host.sent = .imp (now s) lk se.num se.gen typ se.enc rb rs seq low mt x b tag :: s.host.sent ∧
      (se.enc = false → b = body) := by
  unfold transmit
  dsimp only
  refine ⟨by rw [now_putSent, now_put], ?_⟩
  rw [sent_putSent, sent_put]
  refine ⟨_, _, _, _, rfl, fun h => ?_⟩
  unfold sealBody
  rw [if_neg (by simp [h])]

theorem linkUp_put (s : State) (lk : Link) (se : Session) : linkUp (putSess s lk se) lk = linkUp s lk := by
  cases lk with
  | host => rfl
  | peer p => simp [linkUp, putSess, modPeerPort, peerPortOf, tblMod]; rfl

theorem linkUp_ctr (s : State) (lk : Link) (f : PortCounters → PortCounters) : linkUp (modCtr s lk f) lk = linkUp s lk := by
  cases lk with
  | host => rfl
  | peer p => simp [linkUp, modCtr, modPeerPort, peerPortOf, tblMod]; rfl

theorem flush_held (s : State) (lk : Link) (n k : Nat) (x : Session) (h : findSess s lk n = some x) (hn : lk = .host → x.num = n) :
    (∃ y, findSess (flushHeld s lk n k) lk n = some y ∧ y.held.map (·.seq) = x.held.map (·.seq)) ∧
    (flushHeld s lk n k).host.returned = s.host.returned := by
  induction k generalizing s x with
  | zero => exact ⟨⟨x, h, rfl⟩, rfl⟩
  | succ k ih =>
    unfold flushHeld
    rw [h]
    dsimp only
    split
    · exact ⟨⟨x, h, rfl⟩, rfl⟩
    · rename_i hd hh
      split
      · generalize hx' : ({ x with held := _ } : Session) = x'
        have e : x'.num = x.num := by rw [← hx']
        have el : x'.held.map (·.seq) = x.held.map (·.seq) := by
          rw [← hx']
          show (x.held.map _).map _ = _
          rw [List.map_map]
          apply List.map_congr_left
          intro a _
          show (if a.seq = hd.seq then _ else a : Held).seq = a.seq
          split
          · rename_i e; exact e.symm
          · rfl
        have h1 := findSess_tx (s := putSess s lk x') (se := x') (findSess_put (se := x') h (fun q => e.trans (hn q))) (fun q => e.trans (hn q)) hd.typ hd.body hd.repeatBit false hd.seq (now s)
        have hdep : ∀ (v : State) (a : Nat) (b : Bool) (c : List Byte), findSess (departTap v a b c) lk n = findSess v lk n ∧ (departTap v a b c).host = v.host := by
          intro v a b c
          unfold departTap
          split
          · cases lk <;> exact ⟨rfl, rfl⟩
          · exact ⟨rfl, rfl⟩
        obtain ⟨⟨y, hy, k1⟩, k2⟩ := ih _ _ ((hdep _ hd.typ hd.repeatBit hd.body).1.trans h1) (fun q => e.trans (hn q))
        refine ⟨⟨y, hy, k1.trans el⟩, ?_⟩
        rw [k2, (hdep _ _ _ _).2, returned_tx]
        cases lk <;> rfl
      · exact ⟨⟨x, h, rfl⟩, rfl⟩

theorem fold_rtt (t : Nat) (l : List Held) (se : Session) : (l.foldl (fun se h => if h.tries = 1 then rttSample se (t - h.lastTx) else se) se).held = se.held ∧
    (l.foldl (fun se h => if h.tries = 1 then rttSample se (t - h.lastTx) else se) se).num = se.num := by
  induction l generalizing se with
  | nil => exact ⟨rfl, rfl⟩
  | cons a l ih =>
    rw [List.foldl_cons]
    obtain ⟨h1, h2⟩ := ih (if a.tries = 1 then rttSample se (t - a.lastTx) else se)
    rw [h1, h2]
    split
    · unfold rttSample; split <;> exact ⟨rfl, rfl⟩
    · exact ⟨rfl, rfl⟩

theorem takeAck_what (t : Nat) (b : List Byte) (se : Session) : (takeAck t b se).num = se.num ∧
    (takeAck t b se).held = se.held.filter fun h => !(decide (h.tries ≠ 0) && ackReports b h.seq) := by
  unfold takeAck
  dsimp only
  obtain ⟨a, c⟩ := fold_rtt t (se.held.filter fun h => decide (h.tries ≠ 0) && ackReports b h.seq) se
  refine ⟨c, ?_⟩
  rw [a]

theorem host_num {s : State} {lk : Link} {n : Nat} {x : Session} (h : findSess s lk n = some x) : lk = .host → x.num = n := by
  rintro rfl; exact findSess_num h

theorem accepts_num {s : State} {lk : Link} {d : Datagram} {typ : Nat} {se : Session} (h : LinkAccepts s lk d typ se) : lk = .host → d.session = se.num :=
  fun q => (host_num h.2.2 q).symm

theorem find_num {s : State} {lk : Link} {a b : Nat} (h : lk = .host → a = b) : findSess s lk a = findSess s lk b := by
  cases lk with
  | host => rw [h rfl]
  | peer p => rfl

theorem countRx_host (s : State) : Sends s (countRx s .host) := sends_modCtr _ _

theorem Sends.fields {s u : State} (a : Sends s u) : u.host.nonces = s.host.nonces ∧ u.host.helloTimes = s.host.helloTimes ∧ u.host.genCount = s.host.genCount ∧ u.host.lastNum = s.host.lastNum ∧ now u = now s := by
  have e := a.eq
  refine ⟨?_, ?_, ?_, ?_, ?_⟩ <;> (rw [e])
  rfl

theorem sendOpen_sent (s : State) (typ : Nat) (b : List Byte) (h : linkUp s .host = true) : (sendOpen s .host typ b).host.sent.length = s.host.sent.length + 1 ∧ (sendOpen s .host typ b).host.sessions = s.host.sessions ∧ linkUp (sendOpen s .host typ b) .host = true := by
  unfold sendOpen
  rw [if_pos h]
  exact ⟨rfl, rfl, h⟩

theorem fold_sendOpen (l : List (List Byte)) (s : State) (h : linkUp s .host = true) :
    (l.foldl (fun s x => sendOpen s .host 0x71 x) s).host.sent.length = s.host.sent.length + l.length ∧
    (l.foldl (fun s x => sendOpen s .host 0x71 x) s).host.sessions = s.host.sessions ∧
    Sends s (l.foldl (fun s x => sendOpen s .host 0x71 x) s) := by
  induction l generalizing s with
  | nil => exact ⟨rfl, rfl, .refl s⟩
  | cons a l ih =>
    obtain ⟨a1, a2, a3⟩ := sendOpen_sent s 0x71 a h
    obtain ⟨b1, b2, b3⟩ := ih _ a3
    rw [List.foldl_cons]
    exact ⟨by rw [b1, a1, List.length_cons]; omega, by rw [b2, a2], (sends_sendOpen _ _ _).trans b3⟩

theorem helloParts_length (a b : List Byte) (off p q k : Nat) : (helloParts a b off p q k).length = k := by
  induction k generalizing off p with
  | zero => rfl
  | succ k ih => unfold helloParts; rw [List.length_cons, ih]

end Sys2Proof.Laws
end

