-- ==== Sys2Proof/Laws/Requests.lean ====
section
/-! SUPPORT. What translation, memory reads and memory writes of host messages do: lemmas to cite in place of unfolding those operations. -/

namespace Sys2Proof.Laws

open Sys2Proof.Machine Sys2Proof.Safety

set_option maxRecDepth 30000

/-- everything but the host port and the departure tap is as it was -/
theorem Moves.rest {s u : State} (a : Moves s u) : u.disp = s.disp ∧ u.pdk = s.pdk ∧ u.hbm = s.hbm ∧ u.ctl = s.ctl ∧ u.flash = s.flash ∧ u.clu = s.clu ∧ u.reins = s.reins ∧ u.pwr = s.pwr ∧ u.flt = s.flt ∧ u.sec = s.sec := by
  have e := a.eq
  refine ⟨?_, ?_, ?_, ?_, ?_, ?_, ?_, ?_, ?_, ?_⟩ <;> rw [e]

theorem Moves.meter {s u : State} (a : Moves s u) : u.meter.arrivalTap = s.meter.arrivalTap ∧ u.meter.waiting = s.meter.waiting ∧ u.meter.linkOk = s.meter.linkOk ∧ u.meter.relay = s.meter.relay := by
  have e := a.eq
  refine ⟨?_, ?_, ?_, ?_⟩ <;> rw [e]

theorem queued_nack {v : State} {x se : Session} (hx : findSess v .host se.num = some x) (x1 : x.num = se.num) (x4 : x.held = se.held) (x5 : x.txNext = se.txNext) (hf : FreshSeq se)
    (typ : Nat) (b : List Byte) : Queued (sendAck (sendSeq v .host x.num typ b false none) .host se.num) se.num typ b := by
  rw [x1]
  obtain ⟨y, hy, sol⟩ := queued_sendSeq (x := x) hx (by unfold FreshSeq; rw [x4, x5]; exact hf) typ b false none
  exact queued_ack _ hy sol

theorem ownerOnly_refuse {s : State} {d : Datagram} {typ : Nat} {se : Session} (h : HostAccepts s d typ se) (ho : isOwner s se.num se.gen = false) (hf : FreshSeq se)
    (act : State → Session → List Byte → State) (f g : List Byte → Nat) (ha : ∀ v x b, isOwner v x.num x.gen = false → act v x b = sendSeq v .host x.num 0x61 (nackBody d.seq typ 1 (f b) (g b) 0) false none) :
    Moves s (hostMessage s d typ act) ∧ Queued (hostMessage s d typ act) se.num 0x61 (nackBody d.seq typ 1 (f (plainBody se d)) (g (plainBody se d)) 0) := by
  obtain ⟨v, x, m, hx, x1, x2, x3, x4, x5, e⟩ := hostMessage_accepts h act
  rw [e, ha v x _ (by rw [m.isOwner, x1, x2]; exact ho)]
  exact ⟨(m.trans (moves_sendSeq _ _ _ _ _ _)).trans (sends_sendAck _ _).moves, queued_nack hx x1 x4 x5 hf _ _⟩

theorem Moves.translate {s v : State} (m : Moves s v) (die job va : Nat) : Machine.translate v die job va = Machine.translate s die job va := by
  rw [m.eq]; rfl

theorem Moves.paRead {s v : State} (m : Moves s v) (pa n : Nat) : Machine.paRead v pa n = Machine.paRead s pa n := by
  rw [m.eq]; rfl

theorem pagesOf_one {va n : Nat} (h0 : n ≠ 0) (h : va % 2097152 + n ≤ 2097152) : pagesOf va n = [(va, n)] := by
  unfold pagesOf
  rw [show n / 2097152 + 2 = (n / 2097152 + 1) + 1 from rfl]
  unfold cutPages
  rw [if_neg h0]
  have : min n (2097152 - va % 2097152) = n := by omega
  dsimp only
  rw [this]
  unfold cutPages
  rw [if_pos (by omega)]

theorem tlbFill_same (s : State) (die job va : Nat) : (tlbFill s die job va).hbm.pending = s.hbm.pending ∧ (tlbFill s die job va).hbm.data = s.hbm.data ∧ (tlbFill s die job va).hbm.poison = s.hbm.poison := by
  unfold tlbFill
  split
  · split <;> exact ⟨rfl, rfl, rfl⟩
  · exact ⟨rfl, rfl, rfl⟩

theorem tlbFill_paRead (s : State) (die job va pa n : Nat) : Machine.paRead (tlbFill s die job va) pa n = Machine.paRead s pa n := by
  unfold tlbFill
  split
  · split <;> rfl
  · rfl

theorem walk_shape {s : State} {j : JobSlot} {va pa leaf : Nat} (h : walkTable s j va = .ok pa leaf) : pa = field (bits leaf 40 21) 21 + va % 2097152 := by
  unfold walkTable at h
  dsimp only at h
  split at h
  · cases h
  · split at h
    · cases h
    · split at h
      · cases h
      · split at h
        · cases h
        · cases h; rfl

theorem translate_shape {s : State} {die job va pa leaf : Nat} (h : Machine.translate s die job va = .ok pa leaf) : pa = field (bits leaf 40 21) 21 + va % 2097152 := by
  unfold Machine.translate at h
  split at h
  · cases h; rfl
  · split at h
    · cases h
    · exact walk_shape h

theorem translate_tlbFill {s : State} {die job va pa leaf : Nat} (h : Machine.translate s die job va = .ok pa leaf) : Machine.translate (tlbFill s die job va) die job va = .ok pa leaf := by
  have hs := translate_shape h
  unfold tlbFill
  rw [h]
  dsimp only
  split
  · exact h
  · rename_i hn
    have hnone : ∀ e ∈ s.hbm.tlb, (e.die == die && e.job == job && e.vpn == va / 2097152) = false := by
      simp only [List.any_eq_true, not_exists, not_and, Bool.not_eq_true] at hn
      exact hn
    unfold Machine.translate
    dsimp only
    rw [List.find?_append, List.find?_eq_none.mpr, Option.none_or]
    · simp only [List.find?_cons, beq_self_eq_true, Bool.and_self]
      rw [hs]
    · intro e he
      rw [Bool.not_eq_true]
      refine hnone e ?_
      rcases List.mem_append.mp he with he | he
      · exact (List.mem_filter.mp he).1
      · split at he
        · exact (List.mem_filter.mp (List.mem_of_mem_drop he)).1
        · exact (List.mem_filter.mp he).1

theorem cutUnits_one {pa : Nat} {l : List (Byte × Bool)} (h0 : l ≠ []) (h : pa % 4096 + l.length ≤ 4096) (k : Nat) : cutUnits pa l (k + 1) = [(pa, l)] := by
  unfold cutUnits
  rw [if_neg (by simpa using h0)]
  have : l.length ≤ 4096 - pa % 4096 := by omega
  dsimp only
  rw [List.take_of_length_le this, List.drop_of_length_le this]
  cases k with
  | zero => rfl
  | succ k => unfold cutUnits; simp

theorem vWrite_one {s : State} {die src job va pa leaf : Nat} {w : Writer} {l : List (Byte × Bool)} (h0 : l ≠ []) (h : va % 2097152 + l.length ≤ 2097152)
    (hx : Machine.translate s die job va = .ok pa leaf) (hp : pa % 4096 + l.length ≤ 4096) :
    vWrite s die src w job va l = { s with hbm := { s.hbm with pending := s.hbm.pending ++ [{ src := src, pa := pa, bytes := l, who := w }] } } := by
  unfold vWrite
  rw [pagesOf_one (by simpa using h0) h]
  simp only [List.foldl_cons, List.foldl_nil]
  rw [hx]
  dsimp only
  unfold queueWrite
  rw [List.take_length, cutUnits_one h0 hp]
  rfl

theorem receive_fst {s : State} {d : Datagram} {typ : Nat} {se : Session} (h : HostAccepts s d typ se)
    (act : State → Session → List Byte → State) :
    ∃ x, Moves s (receive s .host d typ true false).1 ∧ findSess (receive s .host d typ true false).1 .host se.num = some x ∧ x.num = se.num ∧ x.gen = se.gen ∧ x.key = se.key ∧ x.held = se.held ∧ x.txNext = se.txNext ∧
      hostMessage s d typ act = sendAck (act (receive s .host d typ true false).1 x (plainBody se d)) .host se.num := by
  obtain ⟨v, x, h1, h2, h3, h4, h5, h6, h7, h8⟩ := receive_accepts h false
  rw [h1]
  refine ⟨x, h2, h3, h4, h5, h6, h7, h8, ?_⟩
  unfold hostMessage
  rw [h1]
  dsimp only
  rw [h4]

theorem firstInvalid_same {s v : State} (m : Moves s v) (off n : Nat) : firstInvalid v off n = firstInvalid s off n := by
  rw [m.eq]; rfl

theorem moves_lateLanded (w : State) (a b c : Nat) : Moves w (lateLanded w .host a b c) := by
  unfold lateLanded
  split
  · exact .refl w
  · rename_i y hy
    split
    · refine Moves.trans ?_ (sends_sendAck _ _).moves
      have am : ∀ (k : Nat) (y : Session), (advanceCum k y).num = y.num ∧ (advanceCum k y).gen = y.gen ∧ (advanceCum k y).key = y.key ∧ (advanceCum k y).enc = y.enc := by
        intro k
        induction k with
        | zero => intro y; exact ⟨rfl, rfl, rfl, rfl⟩
        | succ k ih =>
          intro y
          unfold advanceCum
          dsimp only
          split
          · exact ih _
          · split
            · exact ih _
            · exact ⟨rfl, rfl, rfl, rfl⟩
      have mk := am (({ y with rxSeqs := addOnce y.rxSeqs c, rxBusy := y.rxBusy.filter (· != c) } : Session).rxSeqs.length + 4096) { y with rxSeqs := addOnce y.rxSeqs c, rxBusy := y.rxBusy.filter (· != c) }
      have mn : (markReceived y c).num = a := mk.1.trans (show y.num = a from findSess_num hy)
      exact moves_putSess (x := y) (by rw [mn]; exact hy) mk.2
    · exact .refl w

end Sys2Proof.Laws
end

