-- ==== Sys2Proof/Laws/Units.lean ====
section
/-! SUPPORT. What changes to work units, descriptors and discards do: lemmas to cite in place of unfolding those operations. -/

namespace Sys2Proof.Laws

open Sys2Proof.Machine Sys2Proof.Safety

set_option maxRecDepth 30000

theorem find_map_unit (l : List WorkUnit) (wu : Nat) (f : WorkUnit → WorkUnit) (h : ∀ x, (f x).wuId = x.wuId) :
    (l.map f).find? (fun u => u.wuId == wu) = (l.find? fun u => u.wuId == wu).map f := by
  induction l with
  | nil => rfl
  | cons a l ih =>
    rw [List.map_cons, List.find?_cons, List.find?_cons, h a]
    split
    · rfl
    · exact ih

theorem findUnit_modUnit {s : State} {wu : Nat} {f : WorkUnit → WorkUnit} (h : ∀ x, (f x).wuId = x.wuId) :
    findUnit (modUnit s wu f) wu = (findUnit s wu).map f := by
  unfold findUnit modUnit
  dsimp only
  rw [find_map_unit]
  · cases e : s.disp.units.find? (fun u => u.wuId == wu) with
    | none => rfl
    | some x =>
      have := List.find?_some e
      simp only [beq_iff_eq] at this
      simp [this]
  · intro x; split
    · exact h x
    · rfl

theorem findUnit_disp {s v : State} (h : v.disp.units = s.disp.units) (wu : Nat) : findUnit v wu = findUnit s wu := by
  unfold findUnit; rw [h]

theorem findUnit_id {s : State} {wu : Nat} {x : WorkUnit} (h : findUnit s wu = some x) : x.wuId = wu := by
  have := List.find?_some h
  simpa using this

/-- Units changed one by one, each keeping its name and standing. -/
def UnitsStep (s u : State) : Prop :=
  ∃ f : WorkUnit → WorkUnit, u.disp.units = s.disp.units.map f ∧ ∀ x, (f x).wuId = x.wuId ∧ (f x).decided = x.decided ∧ (f x).epoch = x.epoch

theorem UnitsStep.refl (s : State) : UnitsStep s s := ⟨id, (List.map_id _).symm, fun _ => ⟨rfl, rfl, rfl⟩⟩

theorem UnitsStep.of_eq {s v u : State} (h : UnitsStep s v) (e : u.disp.units = v.disp.units) : UnitsStep s u := by
  obtain ⟨f, a, b⟩ := h
  exact ⟨f, e.trans a, b⟩

theorem UnitsStep.trans {s v u : State} (h : UnitsStep s v) (k : UnitsStep v u) : UnitsStep s u := by
  obtain ⟨f, a, b⟩ := h
  obtain ⟨g, c, d⟩ := k
  exact ⟨g ∘ f, by rw [c, a, List.map_map], fun x => ⟨(d _).1.trans (b x).1, (d _).2.1.trans (b x).2.1, (d _).2.2.trans (b x).2.2⟩⟩

theorem UnitsStep.find {s u : State} (h : UnitsStep s u) {wu : Nat} {x : WorkUnit} (hx : findUnit s wu = some x) :
    ∃ y, findUnit u wu = some y ∧ y.decided = x.decided ∧ y.epoch = x.epoch := by
  obtain ⟨f, a, b⟩ := h
  refine ⟨f x, ?_, (b x).2.1, (b x).2.2⟩
  unfold findUnit
  rw [a, find_map_unit _ _ _ (fun x => (b x).1), show s.disp.units.find? _ = some x from hx]
  rfl

theorem unitsStep_mod (s : State) (wu : Nat) {f : WorkUnit → WorkUnit} (h : ∀ x, (f x).wuId = x.wuId ∧ (f x).decided = x.decided ∧ (f x).epoch = x.epoch) : UnitsStep s (modUnit s wu f) :=
  ⟨fun u => if u.wuId = wu then f u else u, rfl, fun x => by dsimp only; split; exact h x; exact ⟨rfl, rfl, rfl⟩⟩

theorem unitsStep_run (s : State) (r : DescRef) (f : DRun → DRun) : UnitsStep s (modRun s r f) := unitsStep_mod _ _ fun _ => ⟨rfl, rfl, rfl⟩

theorem unitsStep_cause (s : State) (a b c : Nat) : UnitsStep s (addCause s a b c) := unitsStep_mod _ _ fun _ => ⟨rfl, rfl, rfl⟩

theorem unitsStep_causes (s : State) (p : WorkUnit → Bool) (b c : Nat) : UnitsStep s (addCauses s p b c) :=
  ⟨_, rfl, fun x => by split <;> exact ⟨rfl, rfl, rfl⟩⟩

theorem unitsStep_wait (s : State) (w : Wait) (v : Option Nat) : UnitsStep s (answerWait s w v) := by
  unfold answerWait
  dsimp only
  split
  · exact (UnitsStep.refl s).of_eq rfl
  · split
    · refine UnitsStep.trans ?_ (unitsStep_run _ _ _)
      exact (UnitsStep.refl s).of_eq rfl
    · refine UnitsStep.trans (UnitsStep.trans ?_ (unitsStep_run _ _ _)) (unitsStep_cause _ _ _ _)
      exact (UnitsStep.refl s).of_eq rfl

theorem unitsStep_foldWait (l : List Wait) (v : Option Nat) (s : State) : UnitsStep s (l.foldl (fun s w => answerWait s w v) s) := by
  induction l generalizing s with
  | nil => exact .refl s
  | cons w l ih => exact (unitsStep_wait s w v).trans (ih _)

theorem unitsStep_epoch (s : State) (n : Nat) : UnitsStep s (advanceEpoch s n) := by
  unfold advanceEpoch
  dsimp only
  exact ((UnitsStep.refl s).of_eq rfl).trans (unitsStep_foldWait _ _ _)

theorem find_map_run (l : List DRun) (r : DescRef) (f : DRun → DRun) (h : ∀ x, (f x).ref = x.ref) :
    (l.map f).find? (fun u => u.ref == r) = (l.find? fun u => u.ref == r).map f := by
  induction l with
  | nil => rfl
  | cons a l ih =>
    rw [List.map_cons, List.find?_cons, List.find?_cons, h a]
    split
    · rfl
    · exact ih

theorem findRun_eq (s : State) (r : DescRef) : findRun s r = (findUnit s r.wu).bind fun u => u.runs.find? fun d => d.ref == r := by
  unfold findRun; cases findUnit s r.wu <;> rfl

theorem findRun_modRun {s : State} {r : DescRef} {f : DRun → DRun} (h : ∀ x, (f x).ref = x.ref) :
    findRun (modRun s r f) r = (findRun s r).map f := by
  rw [findRun_eq, findRun_eq]
  unfold modRun
  rw [findUnit_modUnit (by intro _; rfl)]
  cases findUnit s r.wu with
  | none => rfl
  | some x =>
    show ((x.runs.map _).find? _) = _
    rw [find_map_run]
    · cases e : x.runs.find? (fun d => d.ref == r) with
      | none => simp [e]
      | some d =>
        have := List.find?_some e
        simp only [beq_iff_eq] at this
        simp [e, this]
    · intro y; split
      · exact h y
      · rfl

theorem findRun_disp {s v : State} (h : v.disp.units = s.disp.units) (r : DescRef) : findRun v r = findRun s r := by
  rw [findRun_eq, findRun_eq, findUnit_disp h]

theorem findRun_ref {s : State} {r : DescRef} {d : DRun} (h : findRun s r = some d) : d.ref = r := by
  rw [findRun_eq] at h
  cases hu : findUnit s r.wu with
  | none => rw [hu] at h; cases h
  | some x =>
    rw [hu] at h
    have := List.find?_some h
    simpa using this

theorem liveRun_run {s : State} {r : DescRef} {x : WorkUnit} {d : DRun} (h : liveRun s r = some (x, d)) : findUnit s r.wu = some x ∧ findRun s r = some d ∧ healthy x = true ∧ x.decided = false ∧ d.complete = false := by
  unfold liveRun at h
  split at h
  · rename_i u d' hu hd
    split at h
    · rename_i c
      cases h
      simp only [Bool.and_eq_true, Bool.not_eq_true'] at c
      exact ⟨hu, hd, c.1.1, c.1.2, c.2⟩
    · cases h
  · cases h

theorem allocCtr_ctr (s : State) (n : Nat) : getCtr (allocCtr s n) n = { value := 0, epoch := ((getCtr s n).epoch + 1) % 256 } ∧ (∀ m, m ≠ n → getCtr (allocCtr s n) m = getCtr s m) := by
  unfold allocCtr
  obtain ⟨a1, a2, a3⟩ := advanceEpoch_reins s n
  obtain ⟨b1, b2, b3⟩ := setCtrValue_reins (advanceEpoch s n) n 0
  refine ⟨?_, fun m hm => ?_⟩
  · rw [getCtr_setCtrValue]
    have : getCtr (advanceEpoch s n) n = { getCtr s n with epoch := ((getCtr s n).epoch + 1) % 256 } := by
      unfold getCtr; rw [a1]; simp [tblMod]
    exact congrArg (fun c : Counter => ({ value := 0, epoch := c.epoch } : Counter)) this
  · rw [getCtr_setCtrValue_other _ _ hm]
    unfold getCtr; rw [a1]; exact tblGet_tblSet_other _ _ _ hm

theorem allocCtr_still {s : State} {n : Nat} (h : ∀ w ∈ s.reins.waits, w.ctr ≠ n) : (allocCtr s n).disp = s.disp ∧ (allocCtr s n).reins.waits = s.reins.waits := by
  have e : ∀ (v : State), (∀ w ∈ v.reins.waits, w.ctr ≠ n) → (advanceEpoch v n).disp = v.disp ∧ (advanceEpoch v n).reins.waits = v.reins.waits := by
    intro v hv
    have f : v.reins.waits.filter (fun w => w.ctr == n) = [] := by
      rw [List.filter_eq_nil_iff]; intro w hw; simpa using hv w hw
    have g : v.reins.waits.filter (fun w => !(w.ctr == n)) = v.reins.waits := by
      rw [List.filter_eq_self]; intro w hw; simpa using hv w hw
    refine ⟨?_, ?_⟩
    · unfold advanceEpoch
      dsimp only
      rw [show (modReins v _).reins.waits = v.reins.waits from rfl, f]
      rfl
    · rw [(advanceEpoch_reins v n).2.2, g]
  obtain ⟨a, b⟩ := e s h
  unfold allocCtr
  generalize advanceEpoch s n = v at a b ⊢
  have hv : ∀ w ∈ v.reins.waits, w.ctr ≠ n := by rw [b]; exact h
  refine ⟨?_, ?_⟩
  · rw [← a]
    unfold setCtrValue answerWaits
    dsimp only
    have f : ∀ x : Word, v.reins.waits.filter (fun w => w.ctr == n && waitHolds w x) = [] := by
      intro x; rw [List.filter_eq_nil_iff]; intro w hw; simp [hv w hw]
    rw [show (modReins v _).reins.waits = v.reins.waits from rfl, f]
    rfl
  · rw [(setCtrValue_reins v n 0).2.2, ← b, List.filter_eq_self]
    intro w hw; simp [hv w hw]

theorem allocCtr_units (s : State) (n : Nat) : (allocCtr s n).reins.lastPair = s.reins.lastPair ∧ (allocCtr s n).reins.pairsUsed = s.reins.pairsUsed := by
  have w1 : ∀ (v : State) (w : Wait) (x : Option Nat), (answerWait v w x).reins.lastPair = v.reins.lastPair ∧ (answerWait v w x).reins.pairsUsed = v.reins.pairsUsed := by
    intro v w x
    unfold answerWait
    dsimp only
    split
    · exact ⟨rfl, rfl⟩
    · split <;> exact ⟨rfl, rfl⟩
  have w2 : ∀ (l : List Wait) (x : Option Nat) (v : State), (l.foldl (fun s w => answerWait s w x) v).reins.lastPair = v.reins.lastPair ∧ (l.foldl (fun s w => answerWait s w x) v).reins.pairsUsed = v.reins.pairsUsed := by
    intro l x
    induction l with
    | nil => intro v; exact ⟨rfl, rfl⟩
    | cons a l ih => intro v; exact ⟨(ih _).1.trans (w1 _ _ _).1, (ih _).2.trans (w1 _ _ _).2⟩
  have a : ∀ v : State, (advanceEpoch v n).reins.lastPair = v.reins.lastPair ∧ (advanceEpoch v n).reins.pairsUsed = v.reins.pairsUsed := fun v => w2 _ _ _
  have b : ∀ v : State, (setCtrValue v n 0).reins.lastPair = v.reins.lastPair ∧ (setCtrValue v n 0).reins.pairsUsed = v.reins.pairsUsed := fun v => w2 _ _ _
  exact ⟨(b _).1.trans (a s).1, (b _).2.trans (a s).2⟩

theorem runResidency_units (s : State) (job : Nat) (d : DRun) : (runResidency s job d).disp.units = s.disp.units := by
  unfold runResidency
  dsimp only
  split
  · generalize d.members = l
    induction l generalizing s with
    | nil => rfl
    | cons a l ih =>
      rw [List.foldl_cons, ih]
      split <;> rfl
  · split <;> rfl
  · rfl

/-- What finishRun does to units: the run done, the status taken. -/
theorem finishRun_units (s : State) (u : WorkUnit) (d : DRun) :
    (finishRun s u d).disp.units = (modUnit (modRun s d.ref fun x => { x with complete := true }) u.wuId fun u => takeStatus u d).disp.units ∧
    (finishRun s u d).reins.pairsUsed = (match d.pair with | none => s.reins.pairsUsed | some p => s.reins.pairsUsed.filter (· != p)) ∧
    (∀ i j, qKey i j ≠ qKey 4 10 → pdkItems (finishRun s u d) i j = pdkItems s i j) ∧ now (finishRun s u d) = now s ∧ (finishRun s u d).disp.retired = s.disp.retired := by
  have k1 := (freeClashes_keeps (M := [.clu, .hbm, .free]) (d := d) (Keeps.refl _ s) (by decide) (by decide) (by decide)).parts
  have k2 : ∀ (l : List (Nat × Nat × Nat)) (v : State), SameBut [.host, .peers, .meter] v (l.foldl (fun s e => sendLanded s e.2.1 e.1 e.2.2) v) := by
    intro l
    induction l with
    | nil => intro v; exact SameBut.refl _ _
    | cons a l ih => intro v; exact SameBut.trans (sendLanded_keeps (M := [.host, .peers, .meter]) (Keeps.refl _ v) (by decide) (by decide) (by decide)).parts (ih _)
  have hd := (k1.same .disp (by decide))
  have hr := (k1.same .reins (by decide))
  have hp := (k1.same .pdk (by decide))
  have hc := (k1.same .clock (by decide))
  generalize hv : freeClashes s d = v at hd hr hp hc
  have k := k2 d.peerSent v
  have hd2 := k.same .disp (by decide)
  have hr2 := k.same .reins (by decide)
  have hp2 := k.same .pdk (by decide)
  have hc2 := k.same .clock (by decide)
  simp only [Part.same] at hd hr hp hc hd2 hr2 hp2 hc2
  generalize hw : d.peerSent.foldl (fun s e => sendLanded s e.2.1 e.1 e.2.2) v = w at hd2 hr2 hp2 hc2
  have a0 : finishRun s u d = (if dEventDone d.raw then
      postFrom (modUnit (modRun (freeCtrs (runResidency w (hJob u.header) d) d) d.ref fun x => { x with complete := true }) u.wuId fun u => takeStatus u d) 549 { code := 0x0012, wuId := some u.wuId, epoch := u.epoch, params := [d.ref.idx, d.ref.ticket, runStatus d] }
    else modUnit (modRun (freeCtrs (runResidency w (hJob u.header) d) d) d.ref fun x => { x with complete := true }) u.wuId fun u => takeStatus u d) := by
    unfold finishRun
    dsimp only
    rw [hv, hw]
  have rr := runResidency_units w (hJob u.header) d
  have rk := (runResidency_keeps (M := [.disp]) (job := hJob u.header) (d := d) (Keeps.refl _ w) (by decide)).parts
  have rr1 := rk.same .reins (by decide)
  have rr2 := rk.same .pdk (by decide)
  have rr3 := rk.same .clock (by decide)
  have rret : (runResidency w (hJob u.header) d).disp.retired = w.disp.retired := by
    unfold runResidency
    dsimp only
    split
    · generalize d.members = l
      clear hv hw k hd2 hr2 hp2 hc2 a0 rr rk rr1 rr2 rr3
      induction l generalizing w with
      | nil => rfl
      | cons a l ih =>
        rw [List.foldl_cons, ih]
        split <;> rfl
    · split <;> rfl
    · rfl
  simp only [Part.same] at rr1 rr2 rr3
  generalize runResidency w (hJob u.header) d = y at a0 rr rr1 rr2 rr3 rret
  have f1 : (freeCtrs y d).disp = y.disp ∧ (freeCtrs y d).pdk = y.pdk ∧ (freeCtrs y d).clock = y.clock ∧ (freeCtrs y d).reins.pairsUsed = (match d.pair with | none => y.reins.pairsUsed | some p => y.reins.pairsUsed.filter (· != p)) := by
    unfold freeCtrs
    cases d.pair <;> exact ⟨rfl, rfl, rfl, rfl⟩
  generalize freeCtrs y d = q at a0 f1
  obtain ⟨f1, f2, f3, f4⟩ := f1
  have un : (modUnit (modRun q d.ref fun x => { x with complete := true }) u.wuId fun u => takeStatus u d).disp.units = (modUnit (modRun s d.ref fun x => { x with complete := true }) u.wuId fun u => takeStatus u d).disp.units := by
    unfold modUnit modRun modUnit
    dsimp only
    rw [f1, rr, hd2, hd]
  generalize hz : modUnit (modRun q d.ref fun x => { x with complete := true }) u.wuId (fun u => takeStatus u d) = z at a0 un
  have z1 : z.reins = q.reins := by rw [← hz]; rfl
  have z2 : z.pdk = q.pdk := by rw [← hz]; rfl
  have z3 : z.clock = q.clock := by rw [← hz]; rfl
  have z4 : z.disp.retired = q.disp.retired := by rw [← hz]; rfl
  have pz : ∀ i j, pdkItems z i j = pdkItems s i j := fun i j => by unfold pdkItems; rw [z2, f2, rr2, hp2, hp]
  have pu : z.reins.pairsUsed = (match d.pair with | none => s.reins.pairsUsed | some p => s.reins.pairsUsed.filter (· != p)) := by rw [z1, f4, rr1, hr2, hr]
  have nz : now z = now s := by unfold now; rw [z3, f3, rr3, hc2, hc]
  have rz : z.disp.retired = s.disp.retired := by rw [z4, f1, rret, hd2, hd]
  rw [a0]
  split
  · refine ⟨?_, ?_, fun i j h => ?_, ?_, ?_⟩
    · rw [postFrom_disp]; exact un
    · rw [postFrom_reins]; exact pu
    · unfold postFrom; rw [pdkPut_other _ _ h]; exact pz i j
    · rw [now_postFrom]; exact nz
    · rw [postFrom_disp]; exact rz
  · exact ⟨un, pu, fun i j _ => pz i j, nz, rz⟩

theorem takeStatus_runs (u : WorkUnit) (d : DRun) : (takeStatus u d).runs = u.runs ∧ (takeStatus u d).wuId = u.wuId ∧ (takeStatus u d).next = u.next ∧ (takeStatus u d).descs = u.descs ∧ (takeStatus u d).epoch = u.epoch := by
  unfold takeStatus
  dsimp only
  split <;> exact ⟨rfl, rfl, rfl, rfl, rfl⟩

theorem finish_unit {s : State} {wu : Nat} {x : WorkUnit} {d : DRun} (hx : findUnit s wu = some x) (hd : d.ref.wu = wu ∨ True) :
    ∃ y, findUnit (finishRun s x d) wu = some y ∧ y.next = x.next ∧ y.descs = x.descs ∧ y.epoch = x.epoch ∧ y.wuId = wu := by
  have hid := findUnit_id hx
  have k := finishRun_units s x d
  rw [findUnit_disp k.1, hid, findUnit_modUnit (fun u => (takeStatus_runs u d).2.1)]
  have : ∃ y, findUnit (modRun s d.ref fun x => { x with complete := true }) wu = some y ∧ y.next = x.next ∧ y.descs = x.descs ∧ y.epoch = x.epoch ∧ y.wuId = wu := by
    unfold modRun
    by_cases q : d.ref.wu = wu
    · rw [q, findUnit_modUnit (by intro _; rfl), hx]
      exact ⟨_, rfl, rfl, rfl, rfl, hid⟩
    · refine ⟨x, ?_, rfl, rfl, rfl, hid⟩
      unfold findUnit modUnit
      dsimp only
      rw [find_map_unit]
      · rw [show s.disp.units.find? (fun u => u.wuId == wu) = some x from hx]
        simp [hid, Ne.symm q]
      · intro y; split <;> rfl
  obtain ⟨y, hy, a, b, c, e⟩ := this
  rw [hy]
  obtain ⟨-, t2, t3, t4, t5⟩ := takeStatus_runs y d
  exact ⟨_, rfl, t3.trans a, t4.trans b, t5.trans c, t2.trans e⟩

theorem findUnit_filter (s : State) (wu : Nat) : (s.disp.units.filter fun u => u.wuId != wu).find? (fun u => u.wuId == wu) = none := by
  rw [List.find?_eq_none]
  intro x hx
  have := (List.mem_filter.mp hx).2
  simpa using this

theorem retire_what (s : State) (wu ep : Nat) : (retire s wu ep).disp.units = s.disp.units ∧ (∃ l, (retire s wu ep).disp.retired = l ++ [{ wuId := wu, epoch := ep, mt := now s, ended := false }]) ∧ (retire s wu ep).pdk = s.pdk ∧ now (retire s wu ep) = now s :=
  ⟨rfl, ⟨_, rfl⟩, rfl, rfl⟩

theorem leAt_leBytes (v : Nat) (l : List Byte) : leAt (leBytes 4 v ++ l) 0 4 = v % 2 ^ 32 := by
  have e : leAt (leBytes 4 v ++ l) 0 4 = leNat (leBytes 4 v) := by
    unfold leAt
    rw [List.drop_zero, List.take_append_of_le_length (by simp), List.take_of_length_le (by simp)]
  rw [e]
  simp only [leBytes, leNat, BitVec.toNat_ofNat]
  omega

/-- the events of a layer's end -/
def layerEndState (s : State) (wu : Nat) (x : WorkUnit) (d : DRun) : State :=
  let s := finishRun s x d
  let s := if var0 d.raw then postFrom s 549 { code := 0x0011, wuId := some x.wuId, epoch := x.epoch, params := [d.ref.idx] } else s
  let s := trace s 5 none x.wuId x.epoch d.ref.idx d.ref.ticket []
  modUnit s wu fun u => { u with runs := [], holds := [], started := false, mtEnd := now s }

theorem pdk_trace (s : State) (k : Nat) (wu ep ix tk : Nat) (l : List Byte) (i j : Nat) (h : qKey i j ≠ qKey 4 11) : pdkItems (trace s k none wu ep ix tk l) i j = pdkItems s i j := by
  unfold trace
  split
  · exact pdkPut_other _ _ h
  · rfl

theorem layerEnd_what {s : State} {wu : Nat} {x : WorkUnit} {d : DRun} (hx : findUnit s wu = some x) :
    (∃ y, findUnit (layerEndState s wu x d) wu = some y ∧ y.runs = [] ∧ y.holds = [] ∧ y.started = false ∧ y.mtEnd = now s ∧ y.epoch = x.epoch ∧ y.wuId = wu) ∧
    now (layerEndState s wu x d) = now s ∧ pdkItems (layerEndState s wu x d) 4 8 = pdkItems s 4 8 := by
  obtain ⟨y, hy, y1, y2, y3, y4⟩ := finish_unit (d := d) hx (.inr trivial)
  obtain ⟨k1, k2, k3, k4, k5⟩ := finishRun_units s x d
  unfold layerEndState
  dsimp only
  generalize hv : (ite (var0 d.raw = true) _ _ : State) = v
  have v1 : v.disp = (finishRun s x d).disp := by
    rw [← hv]; split
    · exact postFrom_disp _ _ _
    · rfl
  have v2 : now v = now s := by
    rw [← hv]; split
    · rw [now_postFrom, k4]
    · exact k4
  have v3 : pdkItems v 4 8 = pdkItems s 4 8 := by
    rw [← hv]; split
    · unfold postFrom; rw [pdkPut_other _ _ (by decide)]; exact k3 4 8 (by decide)
    · exact k3 4 8 (by decide)
  generalize hw : trace v 5 none x.wuId x.epoch d.ref.idx d.ref.ticket [] = w
  have w1 : w.disp = v.disp := by rw [← hw]; exact trace_disp _ _ _ _ _ _ _ _
  have w2 : now w = now v := by rw [← hw]; exact now_trace _ _ _ _ _ _ _ _
  have w3 : pdkItems w 4 8 = pdkItems v 4 8 := by rw [← hw]; exact pdk_trace _ _ _ _ _ _ _ _ _ (by decide)
  refine ⟨⟨{ y with runs := [], holds := [], started := false, mtEnd := now w }, ?_, rfl, rfl, rfl, ?_, y3, y4⟩, ?_, ?_⟩
  · rw [findUnit_modUnit (by intro _; rfl), findUnit_disp (s := finishRun s x d) (congrArg Dispatcher.units (w1.trans v1)), hy]
    rfl
  · show now w = _
    rw [w2, v2]
  · show now w = _
    rw [w2, v2]
  · show pdkItems w 4 8 = _
    rw [w3, v3]

/-- One run of a unit whose discard is decided. -/
def decideRun (s : State) (d : DRun) : State :=
  match d.pair with
  | none => s
  | some p => if d.complete then s else freeCtrs (advanceEpoch (advanceEpoch s (takeCtr p)) (doneCtr p)) d

def decideEnd (s : State) (k : Nat × Nat) : State :=
  (s.peers.rounds.filter fun e => e.2.writers.contains k).foldl (fun s e => abandonRound s e.1 s.peers.rank true) s

theorem freeCtrs_disp (s : State) (d : DRun) : (freeCtrs s d).disp = s.disp := by unfold freeCtrs; cases d.pair <;> rfl

theorem unitsStep_decide (l : List DRun) (s : State) : UnitsStep s (l.foldl decideRun s) := by
  induction l generalizing s with
  | nil => exact .refl s
  | cons d l ih =>
    refine UnitsStep.trans ?_ (ih _)
    unfold decideRun
    split
    · exact .refl s
    · split
      · exact .refl s
      · exact ((unitsStep_epoch _ _).trans (unitsStep_epoch _ _)).of_eq (congrArg Dispatcher.units (freeCtrs_disp _ _))

theorem advanceEpoch_pairs (s : State) (n : Nat) : (advanceEpoch s n).reins.pairsUsed = s.reins.pairsUsed := by
  have w1 : ∀ (v : State) (w : Wait) (x : Option Nat), (answerWait v w x).reins.pairsUsed = v.reins.pairsUsed := by
    intro v w x
    unfold answerWait
    dsimp only
    split
    · rfl
    · split <;> rfl
  have w2 : ∀ (l : List Wait) (x : Option Nat) (v : State), (l.foldl (fun s w => answerWait s w x) v).reins.pairsUsed = v.reins.pairsUsed := by
    intro l x
    induction l with
    | nil => intro v; rfl
    | cons a l ih => intro v; exact (ih _).trans (w1 _ _ _)
  exact w2 _ _ _

theorem decide_pairs (l : List DRun) (s : State) : (∀ p, s.reins.pairsUsed.contains p = false → (l.foldl decideRun s).reins.pairsUsed.contains p = false) ∧
    ∀ d ∈ l, ∀ p, d.pair = some p → d.complete = false → (l.foldl decideRun s).reins.pairsUsed.contains p = false := by
  induction l generalizing s with
  | nil => exact ⟨fun p h => h, fun d hd => by cases hd⟩
  | cons a l ih =>
    have step : ∀ p, s.reins.pairsUsed.contains p = false → (decideRun s a).reins.pairsUsed.contains p = false := by
      intro p h
      unfold decideRun
      split
      · exact h
      · rename_i q hq
        split
        · exact h
        · unfold freeCtrs
          rw [hq]
          show (List.filter _ (advanceEpoch (advanceEpoch s (takeCtr q)) (doneCtr q)).reins.pairsUsed).contains p = false
          rw [advanceEpoch_pairs, advanceEpoch_pairs]
          simp at h ⊢
          exact fun k => absurd k h
    obtain ⟨i1, i2⟩ := ih (decideRun s a)
    refine ⟨fun p h => i1 p (step p h), fun d hd p hp hc => ?_⟩
    rcases List.mem_cons.mp hd with rfl | hd
    · refine i1 p ?_
      unfold decideRun
      rw [hp]
      dsimp only
      rw [if_neg (by simp [hc])]
      unfold freeCtrs
      rw [hp]
      simp
    · exact i2 d hd p hp hc

theorem unitsStep_abandon (s : State) (w r : Nat) (b : Bool) : UnitsStep s (abandonRound s w r b) ∧ (abandonRound s w r b).reins = s.reins := by
  refine ⟨?_, (abandonRound_keeps (M := [.host, .disp, .peers, .meter]) (Keeps.refl _ s) (by decide) (by decide) (by decide) (by decide)).parts.same .reins (by decide)⟩
  unfold abandonRound
  dsimp only
  have h0 : UnitsStep s (setRound (addCauses s (fun u => (getRound s w).writers.contains (u.wuId, u.epoch)) reasonPeerLost (resRank r)) w { gen := (getRound s w).gen }) :=
    (unitsStep_causes _ _ _ _).of_eq rfl
  split
  · refine h0.trans ?_
    generalize setRound _ w _ = v
    have k : ∀ (l : List Nat) (f : State → Nat → State) (hf : ∀ s d, (f s d).disp = s.disp) (v : State), (l.foldl f v).disp = v.disp := by
      intro l f hf
      induction l with
      | nil => intro v; rfl
      | cons a l ih => intro v; rw [List.foldl_cons, ih, hf]
    refine (UnitsStep.refl v).of_eq (congrArg Dispatcher.units (k _ _ (fun s d => ?_) v))
    exact (sendPeerData_fst_keeps (M := [.host, .peers, .meter]) (Keeps.refl _ s) (by decide) (by decide) (by decide)).parts.same .disp (by decide)
  · exact h0

theorem unitsStep_end (s : State) (k : Nat × Nat) : UnitsStep s (decideEnd s k) ∧ (decideEnd s k).reins = s.reins := by
  unfold decideEnd
  generalize s.peers.rounds.filter _ = l
  induction l generalizing s with
  | nil => exact ⟨.refl s, rfl⟩
  | cons a l ih =>
    obtain ⟨a1, a2⟩ := unitsStep_abandon s a.1 s.peers.rank true
    obtain ⟨b1, b2⟩ := ih (abandonRound s a.1 s.peers.rank true)
    exact ⟨a1.trans b1, b2.trans a2⟩

end Sys2Proof.Laws
end

