-- ==== Sys2Proof/Laws/Monitor.lean ====
section
/-! SUPPORT. What the meter's ring and the monitor's printing do: lemmas to cite in place of unfolding those operations. -/

namespace Sys2Proof.Laws

open Sys2Proof.Machine Sys2Proof.Safety

set_option maxRecDepth 30000

theorem tblGet_tblMod {α : Type} (d : α) (l : Tbl α) (k : Nat) (f : α → α) : tblGet d (tblMod d l k f) k = f (tblGet d l k) := by
  simp [tblMod]

theorem gather_get {m : Meter} {mt i : Nat} {f : Gather → Gather} (h : creditInterval m mt = i) :
    (tblGet {} (gather m mt f).gathers i).accounts = (f (tblGet {} m.gathers i)).accounts ∧
    (tblGet {} (gather m mt f).gathers i).unmetered = (f (tblGet {} m.gathers i)).unmetered ∧
    (tblGet {} (gather m mt f).gathers i).evicted = (f (tblGet {} m.gathers i)).evicted ∧
    (tblGet {} (gather m mt f).gathers i).unmatched = (f (tblGet {} m.gathers i)).unmatched := by
  subst h
  have e := tblGet_tblMod {} m.gathers (creditInterval m mt) (fun g => let g := f g; { g with late := g.late || decide (mt / intervalTicks m < m.interval) })
  unfold gather
  dsimp only at e ⊢
  rw [e]
  exact ⟨rfl, rfl, rfl, rfl⟩

theorem timeTap_next (s : State) (t n a : Nat) (h1 : isReady s = true) (h2 : s.meter.lastTime = some a) (m : Meter)
    (hm : m = if a + 50000000 < now (atMt s t) then { s.meter with caps := s.meter.caps ++ [silentSlot a (now (atMt s t))] } else s.meter) :
    execTimeTap t n s = .next { atMt s t with meter := seen { m with lastTime := some (now (atMt s t)), lastTimeClock := n } (now (atMt s t)) } := by
  unfold execTimeTap
  dsimp only
  rw [if_pos (by rw [show isReady (atMt s t) = isReady s from rfl, h1]; rfl)]
  split
  · rename_i a' h
    cases h2.symm.trans h
    subst hm
    rfl
  · rename_i h
    cases h2.symm.trans h

theorem reuse_keeps (n : Nat) (l : List (Nat × List Byte × Bool)) : ∀ x ∈ l, x.2.2 = false → x ∈ reuseRing n l := by
  induction l with
  | nil => intro x h; cases h
  | cons r l ih =>
    intro x hx hf
    unfold reuseRing
    split
    · rename_i h
      rcases List.mem_cons.mp hx with rfl | hx
      · rw [hf] at h; simp at h
      · exact ih x hx hf
    · exact hx

/-- What a close of the interval does to the record counters. -/
theorem close_what (s : State) (k e v w : Nat) (r : List Byte) (p : Bool) (u : State) (hu : u = closeInterval s k e v w r p) :
    u.meter.interval = s.meter.interval + 1 ∧ u.meter.totalE = s.meter.totalE + e ∧
    u.meter.totalRecorded + u.meter.totalUnrecorded = s.meter.totalRecorded + s.meter.totalUnrecorded + 1 ∧
    (∀ x ∈ s.meter.ring, x.2.2 = false → x ∈ u.meter.ring) ∧ u.meter.lastSeen = s.meter.lastSeen ∧
    ((∃ y, u.meter.ring.getLast? = some (s.meter.recordNo + 1, y, false) ∧ u.meter.recordNo = s.meter.recordNo + 1 ∧ u.meter.unrecorded = 0) ∨
     (u.meter.ring = s.meter.ring ∧ u.meter.recordNo = s.meter.recordNo ∧ u.meter.unrecorded = cap32 (s.meter.unrecorded + 1) ∧
      "STORAGE_FULL" ∈ u.meter.serviceLog)) := by
  subst hu
  unfold closeInterval
  dsimp only
  split
  · refine ⟨rfl, rfl, ?_, ?_, rfl, .inl ⟨_, List.getLast?_concat, rfl, rfl⟩⟩
    · dsimp only; omega
    · intro x hx hf
      exact List.mem_append_left _ (reuse_keeps _ _ x hx hf)
  · refine ⟨rfl, rfl, ?_, fun x hx _ => hx, rfl, .inr ⟨rfl, rfl, rfl, ?_⟩⟩
    · dsimp only; omega
    · exact List.mem_append_right _ (by simp)

theorem busyAt {s : State} {t : Nat} (h : s.kyend.busy = none) (f : State → State) : monTake (atMt s t) f = f (atMt s t) := by
  unfold monTake; rw [show (atMt s t).kyend.busy = none from h]; rfl

theorem fullAt {s : State} {t : Nat} (h : aoOnly s = false) (l : List String) : monFull (atMt s t) l = monPrint (atMt s t) l := by
  unfold monFull; rw [show aoOnly (atMt s t) = false from h]; rfl

theorem prints_mk {c : Instr} {s : State} {l : List String} (v : State) (h : exec c s = .next v) (e : v = monPrint (atMt s (timeOf c)) l) : Prints c s l :=
  ⟨v, h, e⟩

theorem numsFrom_length (a n : Nat) : (numsFrom a n).length = n := by
  induction n generalizing a with
  | zero => rfl
  | succ n ih => simp [numsFrom, ih]

theorem devAt {s : State} {t : Nat} (h : aoOnly s = false) (hd : cfgDevMode s = true) (f : State → State) : monDev (atMt s t) f = f (atMt s t) := by
  unfold monDev; rw [show aoOnly (atMt s t) = false from h, show cfgDevMode (atMt s t) = true from hd]; rfl

theorem bits_small {v : Nat} (h : v < 256) : bits v 7 0 = v := by unfold bits; simp; omega

/-- only the monitor's own record changes -/
def Quiet (s u : State) : Prop := u = { s with kyend := u.kyend }

theorem Quiet.refl (s : State) : Quiet s s := rfl

theorem quiet_say (s : State) (l : List String) : Quiet s (kyendSay s l) := rfl

theorem quiet_print (s : State) (l : List String) : Quiet s (monPrint s l) := rfl

theorem quiet_error (s : State) (w : String) : Quiet s (monError s w) := rfl

theorem quiet_full (s : State) (l : List String) : Quiet s (monFull s l) := by unfold monFull; split <;> rfl

theorem Quiet.trans {s u v : State} (a : Quiet s u) (b : Quiet u v) : Quiet s v := by
  unfold Quiet at *
  generalize v.kyend = k at b ⊢
  rw [b, a]

theorem quiet_dev {s : State} (h : cfgDevMode s = false) (f : State → State) : Quiet s (monDev s f) := by
  unfold monDev
  split
  · rfl
  · rw [if_pos (by rw [h]; rfl)]; rfl

theorem quiet_take {s : State} {f : State → State} (h : ∀ s', s' = s → Quiet s' (f s')) : Quiet s (monTake s f) := by
  unfold monTake; split
  · rfl
  · exact h s rfl

theorem quiet_group (s : State) (g : Nat) : Quiet s (monClustersGroup s g) := by
  unfold monClustersGroup; split
  · rfl
  · exact quiet_full _ _

theorem quiet_log (s : State) (n : Nat) : Quiet s (monLog s n) := by
  unfold monLog; split
  · rfl
  · split <;> rfl

theorem quiet_peek (s : State) (a n : Nat) : Quiet s (monPeek s a n) := by
  unfold monPeek; repeat' (split <;> first | rfl | skip)

theorem quiet_Help (s : State) : Quiet s (monHelp s) := by unfold monHelp; exact quiet_print _ _

theorem quiet_Id (s : State) : Quiet s (monId s) := by unfold monId; exact quiet_print _ _

theorem quiet_State (s : State) : Quiet s (monState s) := by unfold monState; exact quiet_print _ _

theorem quiet_Clusters (s : State) : Quiet s (monClusters s) := by unfold monClusters; exact quiet_full _ _

theorem quiet_Hbm (s : State) : Quiet s (monHbm s) := by unfold monHbm; exact quiet_full _ _

theorem quiet_Ports (s : State) : Quiet s (monPorts s) := by unfold monPorts; exact quiet_full _ _

theorem quiet_Temps (s : State) : Quiet s (monTemps s) := by unfold monTemps; exact quiet_print _ _

theorem quiet_Power (s : State) : Quiet s (monPower s) := by unfold monPower; exact quiet_print _ _

theorem quiet_Time (s : State) : Quiet s (monTime s) := by unfold monTime; exact quiet_full _ _

theorem quiet_Owner (s : State) : Quiet s (monOwner s) := by unfold monOwner; exact quiet_full _ _

theorem quiet_Meter (s : State) : Quiet s (monMeter s) := by unfold monMeter; exact quiet_full _ _

theorem quiet_ite {s x y : State} {p : Prop} [Decidable p] (a : Quiet s x) (b : Quiet s y) : Quiet s (if p then x else y) := by split <;> assumption

theorem quiet_bad (s : State) : Quiet s (badArgument s) := rfl

theorem quiet_poke {s : State} (h : cfgDevMode s = false) (a v : Nat) : Quiet s (monPoke s a v) := quiet_dev h _

theorem quiet_tr {s : State} (h : cfgDevMode s = false) (m : Option Nat) : Quiet s (monTrace s m) := quiet_dev h _

theorem quiet_yar {s : State} (h : cfgDevMode s = false) (m : Nat) : Quiet s (monYarrow s m) := quiet_dev h _

theorem quiet_run {s : State} (h : cfgDevMode s = false) (c : List Nat) (a : List (List Nat)) : Quiet s (runCommand s c a) := by
  unfold runCommand
  dsimp only
  repeat' (first
    | with_reducible exact quiet_error _ _
    | with_reducible exact quiet_bad _
    | with_reducible exact quiet_group _ _
    | with_reducible exact quiet_log _ _
    | with_reducible exact quiet_peek _ _ _
    | with_reducible exact quiet_poke h _ _
    | with_reducible exact quiet_tr h _
    | with_reducible exact quiet_yar h _
    | with_reducible exact quiet_Help _
    | with_reducible exact quiet_Id _
    | with_reducible exact quiet_State _
    | with_reducible exact quiet_Clusters _
    | with_reducible exact quiet_Hbm _
    | with_reducible exact quiet_Ports _
    | with_reducible exact quiet_Temps _
    | with_reducible exact quiet_Power _
    | with_reducible exact quiet_Time _
    | with_reducible exact quiet_Owner _
    | with_reducible exact quiet_Meter _
    | refine quiet_ite ?_ ?_
    | split)

theorem dev_say {s : State} (l : List String) : cfgDevMode (kyendSay s l) = cfgDevMode s := rfl

theorem quiet_char {s : State} (h : cfgDevMode s = false) (c : Nat) : Quiet s (takeCharacter s c) := by
  unfold takeCharacter
  dsimp only
  split
  · unfold runLine
    split
    · rfl
    · have hk : ∀ k : Kyend, cfgDevMode { s with kyend := k } = false := fun k => h
      rename_i w args _
      generalize hv : ({ kyendSay s [String.ofList [Char.ofNat c]] with kyend := _ } : State) = v
      have e1 : Quiet s v := by rw [← hv]; rfl
      have e2 : cfgDevMode v = false := by rw [e1]; exact hk _
      exact e1.trans (quiet_run e2 w args)
  · split
    · rfl
    · split <;> rfl

end Sys2Proof.Laws
end

