-- ==== Sys2Proof/Laws/Start.lean ====
section
/-! SUPPORT. What the steps of a start and a load leave alone: lemmas to cite in place of unfolding those operations. -/

namespace Sys2Proof.Laws

open Sys2Proof.Machine Sys2Proof.Safety

set_option maxRecDepth 30000

/-- What no part of step 6 and 7 changes in the control state. -/
structure Booted (s u : State) : Prop where
  m : u.ctl.modState = s.ctl.modState
  p : u.ctl.powered = s.ctl.powered
  c : u.ctl.cfg = s.ctl.cfg
  f : u.ctl.cfgFallback = s.ctl.cfgFallback
  w : u.ctl.fwVersion = s.ctl.fwVersion
  fl : u.flash = { s.flash with repairPending := u.flash.repairPending }
  n : now u = now s
  k : u.sec.keysOk = s.sec.keysOk

theorem Booted.refl (s : State) : Booted s s := ⟨rfl, rfl, rfl, rfl, rfl, rfl, rfl, rfl⟩

theorem Booted.trans {s u v : State} (a : Booted s u) (b : Booted u v) : Booted s v :=
  ⟨b.m.trans a.m, b.p.trans a.p, b.c.trans a.c, b.f.trans a.f, b.w.trans a.w, by
    have h := a.fl
    have k := b.fl
    generalize v.flash.repairPending = z at k ⊢
    rw [k, h], b.n.trans a.n, b.k.trans a.k⟩

theorem Booted.of {s u : State} (h1 : u.ctl = s.ctl) (h2 : u.flash = s.flash) (h3 : u.clock = s.clock) (h4 : u.sec = s.sec) : Booted s u :=
  ⟨by rw [h1], by rw [h1], by rw [h1], by rw [h1], by rw [h1], by rw [h2], by unfold now; rw [h3], by rw [h4]⟩

theorem booted_fold {α : Type} {f : State → α → State} (h : ∀ s a, Booted s (f s a)) (l : List α) (s : State) : Booted s (l.foldl f s) := by
  induction l generalizing s with
  | nil => exact .refl s
  | cons a l ih => exact (h s a).trans (ih _)

theorem booted_degrade (s : State) (a b : Nat) : Booted s (degrade s a b) := ⟨rfl, rfl, rfl, rfl, rfl, rfl, rfl, rfl⟩

theorem booted_host (s : State) (l : List Nat) : Booted s (startHost s l) := by
  unfold startHost
  exact (booted_fold (fun s a => booted_degrade s _ _) l s).trans ⟨rfl, rfl, rfl, rfl, rfl, rfl, rfl, rfl⟩

theorem booted_train (s : State) (p : Nat) (b : Bool) : Booted s (trainPort s p b) := by
  have k := trainPort_keeps (z := s) (M := [.host, .peers, .free]) (p := p) (pattern := b) (Keeps.refl _ s) (by decide) (by decide) (by decide)
  have h1 := k.parts.same .ctl (by decide)
  have h2 := k.parts.same .flash (by decide)
  have h3 := k.parts.same .clock (by decide)
  have h4 := k.parts.same .sec (by decide)
  simp only [Part.same] at h1 h2 h3 h4
  exact Booted.of h1 h2 h3 h4

theorem booted_peers (s : State) (i : StartInputs) : Booted s (startPeers s i) := by
  unfold startPeers
  split
  · exact .refl s
  · dsimp only
    refine Booted.trans ?_ (booted_fold (fun s a => booted_train _ _ _) _ _)
    refine Booted.trans ?_ (booted_fold (fun s a => ?_) _ _)
    · exact ⟨rfl, rfl, rfl, rfl, rfl, rfl, rfl, rfl⟩
    · exact ⟨rfl, rfl, rfl, rfl, rfl, rfl, rfl, rfl⟩

theorem booted_frames (s : State) : Booted s (startFrames s) := by
  unfold startFrames
  split
  · exact .refl s
  · exact ⟨rfl, rfl, rfl, rfl, rfl, rfl, rfl, rfl⟩

theorem booted_fail (s : State) (p : Nat) : Booted s (failPrimrose s p) := by
  unfold failPrimrose
  dsimp only
  repeat' split
  all_goals exact ⟨rfl, rfl, rfl, rfl, rfl, rfl, rfl, rfl⟩

theorem booted_map : (l : List (Nat × Nat)) → (s u : State) → (p : Nat) → mapOutRows s p l = some u → Booted s u
  | [], s, u, p, h => by cases h; exact .refl s
  | (a, b) :: l, s, u, p, h => by
    unfold mapOutRows at h
    dsimp only at h
    split at h
    · cases h
    · generalize hz : ({ setClu _ _ _ with flash := _ } : State) = z at h
      exact Booted.trans (u := z) (by rw [← hz]; exact ⟨rfl, rfl, rfl, rfl, rfl, rfl, rfl, rfl⟩) (booted_map l z u p h)

theorem booted_row (s : State) (e : Nat × Nat × Nat) : Booted s (startRow s e) := by
  unfold startRow
  split
  · rename_i h; exact booted_map _ _ _ _ h
  · split
    · exact .refl s
    · exact booted_fail _ _

theorem booted_clusters (s : State) (l : List Nat) : Booted s (startClusters s l) := by
  unfold startClusters
  dsimp only
  refine booted_fold (fun s a => ?_) _ _
  split
  · exact booted_fail _ _
  · exact .refl s

theorem Booted.fold {α : Type} {f : State → α → State} {s u : State} (h : Booted s u) (l : List α) (k : ∀ s a, Booted s (f s a)) : Booted s (l.foldl f u) :=
  h.trans (booted_fold k l u)

theorem booted_control (s : State) (i : StartInputs) : Booted s (startControl s i) := by
  unfold startControl
  dsimp only
  refine Booted.fold ?_ _ fun s a => ⟨rfl, rfl, rfl, rfl, rfl, rfl, rfl, rfl⟩
  have h : Booted s (i.failDieSup.foldl (fun s d =>
    { degrade s (resDie d) 0xFFFF with ctl := { (degrade s (resDie d) 0xFFFF).ctl with dieVote := tblSet (degrade s (resDie d) 0xFFFF).ctl.dieVote d [0, 1], failedCores := addOnce (degrade s (resDie d) 0xFFFF).ctl.failedCores d } })
    (i.failPlanes.foldl (fun s p => modReins (degrade s resNone p) fun r => { r with inVote := r.inVote.filter (· != p) }) s)) := by
    refine Booted.fold (Booted.fold (.refl s) _ ?_) _ ?_
    · exact fun s a => ⟨rfl, rfl, rfl, rfl, rfl, rfl, rfl, rfl⟩
    · exact fun s a => ⟨rfl, rfl, rfl, rfl, rfl, rfl, rfl, rfl⟩
  split
  · exact h.trans ⟨rfl, rfl, rfl, rfl, rfl, rfl, rfl, rfl⟩
  · exact h

theorem booted_figures (s : State) (i : StartInputs) : Booted s (startFigures s i) := ⟨rfl, rfl, rfl, rfl, rfl, rfl, rfl, rfl⟩

theorem booted_all (s : State) (i : StartInputs) : Booted s (startPrimrose s i) := by
  have h := ((booted_host s i.failHostPaths).trans (booted_peers _ i)).trans (booted_frames _)
  have h := h.fold (f := startStack) i.failStacks fun s a => ⟨rfl, rfl, rfl, rfl, rfl, rfl, rfl, rfl⟩
  unfold startPrimrose
  dsimp only
  generalize List.foldl startStack _ _ = v at h ⊢
  have h := h.fold (f := applyRepair) v.flash.repair fun s a => ⟨rfl, rfl, rfl, rfl, rfl, rfl, rfl, rfl⟩
  have h := h.fold (f := startRow) i.badRows booted_row
  exact ((h.trans (booted_clusters _ _)).trans (booted_control _ _)).trans (booted_figures _ _)

/-- the state in which step 2 begins -/
def startAt (s : State) (t : Nat) (i : StartInputs) : State :=
  match i.flash with
  | some f => { kyendPrompt { atMt s t with pwr := { s.pwr with supplyMv := i.supplyMv } } with flash := flashOf f }
  | none => kyendPrompt { atMt s t with pwr := { s.pwr with supplyMv := i.supplyMv } }

/-- steps 2 to 7 -/
def startFrom (v : State) (i : StartInputs) : Host.Outcome State Fault Refusal :=
  match startConfig v with
      | .error e => .next (haltAt v .haltedConfig 2 e)
      | .ok s =>
        match startImage s with
        | .error e => .next (haltAt s .haltedFirmware 3 e)
        | .ok s =>
          match startKeys s i.puf with
          | .error e => .next (haltAt s .haltedHardware 4 e)
          | .ok s =>
            if i.diesStart = false then .next (haltAt s .haltedHardware 5 "X or a compute die")
            else
              let s := { s with ctl := { s.ctl with powered := true } }
              let s := startPrimrose s i
              .next { s with ctl := { s.ctl with step := 8 } }

theorem start_eq (s : State) (t : Nat) (i : StartInputs) (h1 : s.ctl.modState = .starting) (h2 : s.ctl.powered = false) (h3 : s.ctl.down = false)
    (h4 : 44000 ≤ i.supplyMv) (h5 : i.supplyMv ≤ 56000) : execStartSequence t i s = startFrom (startAt s t i) i := by
  unfold execStartSequence
  dsimp only
  rw [if_neg (by rw [show (atMt s t).ctl.modState = _ from h1, show (atMt s t).ctl.powered = _ from h2, show (atMt s t).ctl.down = _ from h3]; simp), if_neg (by omega)]
  show startFrom _ i = _
  exact congrArg (fun v => startFrom v i) (by unfold startAt; cases i.flash <;> rfl)

theorem disable_now {s w : State} {k : DisableKind} {off : Nat} (h : s.disp.disables = []) (e : disableWrite s k = some w) (who : Option (Nat × Nat × Nat)) :
    disable s k off who = beginDisable w k off none [] := by
  unfold disable
  rw [h, e]

theorem getWin_set (s : State) (p : Peers) (w w' : Nat) (x : Window) (h : p.windows = tblSet s.peers.windows w x) (u : State) (hu : u.peers = p) :
    getWin u w = x ∧ (w' ≠ w → getWin u w' = getWin s w') := by
  unfold getWin
  rw [hu, h]
  exact ⟨tblGet_tblSet_same _ _ _ _, fun hn => tblGet_tblSet_other _ _ _ hn⟩

theorem loadWith_err (s : State) (q : Option (List Byte)) (h : q = none) (f : List Byte → State) : loadWith s q f = loadEnds s 2 6 := by
  rw [h]; rfl

theorem loadRead_cases (s : State) (n : Nat) : (∃ e, vRead s 4 s.ctl.loadJob (s.ctl.loadVaHi * 2 ^ 32 + s.ctl.loadVaLo) n = .error e ∧ loadRead s n = none) ∨
    ∃ l, vRead s 4 s.ctl.loadJob (s.ctl.loadVaHi * 2 ^ 32 + s.ctl.loadVaLo) n = .ok l ∧
      ((∃ x ∈ l, x.2 = true) ∧ loadRead s n = none ∨ (∀ x ∈ l, x.2 = false) ∧ loadRead s n = some (l.map (·.1))) := by
  unfold loadRead
  cases h : vRead s 4 s.ctl.loadJob (s.ctl.loadVaHi * 2 ^ 32 + s.ctl.loadVaLo) n with
  | error e => exact .inl ⟨e, rfl, rfl⟩
  | ok l =>
    refine .inr ⟨l, rfl, ?_⟩
    dsimp only
    cases ha : l.any (·.2) with
    | true =>
      refine .inl ⟨?_, rfl⟩
      simpa using ha
    | false =>
      refine .inr ⟨?_, rfl⟩
      simpa using ha

end Sys2Proof.Laws
end

