-- ==== Sys2Proof/Laws/Scratch.lean ====
section
/-! SUPPORT. What reads and writes of scratchpad words do: lemmas to cite in place of unfolding those operations. -/

namespace Sys2Proof.Laws

open Sys2Proof.Machine Sys2Proof.Safety

set_option maxRecDepth 30000

theorem tblErase_find {α : Type} (t : Tbl α) (w w' : Nat) : tblFind (tblErase t w) w' = if w' = w then none else tblFind t w' := by
  unfold tblErase
  induction t with
  | nil => simp [tblFind]
  | cons e t ih =>
    obtain ⟨k, v⟩ := e
    rw [List.filter_cons]
    by_cases hk : k = w
    · rw [if_neg (by simpa using hk), ih]
      split
      · rfl
      · rename_i hw
        rw [tblFind, if_neg (by rw [hk]; exact fun h => hw h.symm)]
    · rw [if_pos (by simpa using hk), tblFind, ih, tblFind]
      by_cases hw : w' = w
      · simp only [if_pos hw, if_neg (show ¬ k = w' by rw [hw]; exact hk)]
      · simp only [if_neg hw]

theorem cellRead_getElem? (c : Cells) (a n i : Nat) (h : i < n) : (cellRead c a n)[i]? = some (cellGet c (a + i)) := by
  induction n generalizing a i with
  | zero => omega
  | succ n ih =>
    cases i with
    | zero => rfl
    | succ i => show (cellRead c (a + 1) n)[i]? = _; rw [ih (a + 1) i (by omega), Nat.add_assoc, Nat.add_comm 1 i]

@[simp] theorem cellRead_length (c : Cells) (a n : Nat) : (cellRead c a n).length = n := by
  induction n generalizing a with
  | zero => rfl
  | succ n ih => simp [cellRead, ih]

theorem cellRead_congr {c d : Cells} {a n : Nat} (h : ∀ x, a ≤ x → x < a + n → cellGet c x = cellGet d x) : cellRead c a n = cellRead d a n := by
  apply List.ext_getElem?
  intro i
  by_cases hi : i < n
  · rw [cellRead_getElem? _ _ _ _ hi, cellRead_getElem? _ _ _ _ hi, h _ (by omega) (by omega)]
  · rw [List.getElem?_eq_none (by simpa using hi), List.getElem?_eq_none (by simpa using hi)]

theorem cellRead_cellWrite {c : Cells} (hc : Memory.wf c = true) (a : Nat) (l : List Byte) : cellRead (cellWrite c a l) a l.length = l := by
  apply List.ext_getElem?
  intro i
  by_cases hi : i < l.length
  · rw [cellRead_getElem? _ _ _ _ hi, cellGet_cellWrite_same hc a l hi]
    first | exact (List.getElem?_eq_getElem hi).symm | simp [hi]
  · rw [List.getElem?_eq_none (by simpa using hi), List.getElem?_eq_none (by simpa using hi)]

theorem cellRead_cellWrite_other (c : Cells) (a : Nat) (l : List Byte) (b n : Nat) (h : b + n ≤ a ∨ a + l.length ≤ b) : cellRead (cellWrite c a l) b n = cellRead c b n :=
  cellRead_congr fun x h1 h2 => cellGet_cellWrite_other c a l (by omega)

/-- what a read makes of bytes, poison and flipped bits -/
def spadOfG (f : StoredWord → BitVec 257 × WordErr) (b : List Byte) (p : Bool) (u : Option StoredWord) : List Byte × Bool × WordErr :=
  match u with
  | Option.none => (b, p, .none)
  | some m =>
    let (d, e) := f (encodeWord (wordBits b p) ^^^ m)
    (bitsBytes d, d.getLsbD 256, e)

def spadOf (b : List Byte) (p : Bool) (u : Option StoredWord) : List Byte × Bool × WordErr := spadOfG decodeWord b p u

theorem spadWord_eq (sp : Spad) (w : Nat) : spadWord sp w = spadOf (cellRead sp.bytes (32 * w) 32) (sp.poison.contains w) (tblFind sp.upset w) := rfl

/-- one word given new bytes and poison, its upset gone -/
theorem spadWord_put {sp : Spad} (w : Nat) (b : List Byte) (bad : Bool) (w' : Nat) (z : Spad)
    (z1 : cellRead z.bytes (32 * w) 32 = b) (z0 : w' ≠ w → cellRead z.bytes (32 * w') 32 = cellRead sp.bytes (32 * w') 32) (z2 : z.poison = if bad then addOnce sp.poison w else sp.poison.filter (· != w)) (z3 : z.upset = tblErase sp.upset w) :
    spadWord z w = (b, bad, .none) ∧ (w' ≠ w → spadWord z w' = spadWord sp w') := by
  have hp : ∀ x, z.poison.contains x = if x = w then bad else sp.poison.contains x := by
    intro x
    rw [z2]
    cases bad with
    | true =>
      rw [if_pos rfl]
      unfold addOnce
      split
      · rename_i hc
        by_cases hx : x = w
        · rw [if_pos hx, hx]; exact hc
        · rw [if_neg hx]
      · by_cases hx : x = w
        · rw [if_pos hx, hx]; simp
        · rw [if_neg hx]; simp [hx]
    | false =>
      rw [if_neg (by decide)]
      by_cases hx : x = w
      · rw [if_pos hx, hx]; simp
      · rw [if_neg hx, Bool.eq_iff_iff]; simp [hx]
  constructor
  · rw [spadWord_eq, hp, if_pos rfl, z3, tblErase_find, if_pos rfl, z1]
    rfl
  · intro hw
    rw [spadWord_eq, spadWord_eq, z0 hw, hp, if_neg hw, z3, tblErase_find, if_neg hw]

theorem spadWord_set {sp : Spad} (h : Memory.wf sp.bytes = true) (w : Nat) (b : List Byte) (hb : b.length = 32) (bad : Bool) (w' : Nat) (z : Spad)
    (z1 : z.bytes = cellWrite sp.bytes (32 * w) b) (z2 : z.poison = if bad then addOnce sp.poison w else sp.poison.filter (· != w)) (z3 : z.upset = tblErase sp.upset w) :
    spadWord z w = (b, bad, .none) ∧ (w' ≠ w → spadWord z w' = spadWord sp w') :=
  spadWord_put w b bad w' z (by
    have := cellRead_cellWrite h (32 * w) b
    rw [hb] at this
    rw [z1, this]) (fun hw => by rw [z1, cellRead_cellWrite_other _ _ _ _ _ (by rw [hb]; omega)]) z2 z3

theorem getLsb_any (data : List Byte) (bad : Bool) (h : data.length = 32) : ((data.map fun x => (x, bad)).any (·.2)) = bad := by
  cases data with
  | nil => simp at h
  | cons a l => cases bad <;> simp

theorem spadOfG_length (f : StoredWord → BitVec 257 × WordErr) (b : List Byte) (p : Bool) (u : Option StoredWord) (h : b.length = 32) : (spadOfG f b p u).1.length = 32 := by
  cases u with
  | none => exact h
  | some m =>
    unfold spadOfG
    generalize encodeWord (wordBits b p) ^^^ m = y
    cases hx : f y with
    | mk d e =>
      simp only [hx]
      exact length_leBytes _ _

theorem spadOf_length (b : List Byte) (p : Bool) (u : Option StoredWord) (h : b.length = 32) : (spadOf b p u).1.length = 32 := spadOfG_length _ _ _ _ h

theorem spadWord_length (sp : Spad) (w : Nat) : (spadWord sp w).1.length = 32 := by
  rw [spadWord_eq]
  exact spadOf_length _ _ _ (cellRead_length _ _ _)

theorem full_write (s : State) (t p frame slot w : Nat) (data : List Byte) (bad : Bool) (hd : data.length = 32) (hw : Memory.wf (getClu s p).spad.bytes = true) (wl : w < 196608)
    (u : State) (hu : u = modClu (modClu (atMt s t) p fun c => { c with spad := applyUpsets c.spad [], lastFrame := 8 * frame + slot, idleSince := now (atMt s t) }) p
      fun c => maskedWrite c w (List.range 32) data bad) :
    spadWord (getClu u p).spad w = (data, bad, .none) ∧
      (∀ w', w' ≠ w → spadWord (getClu u p).spad w' = spadWord (getClu s p).spad w') ∧
      w ∉ (getClu u p).writeBack ∧ (∀ q ≠ p, getClu u q = getClu s q) ∧ u.pdk = s.pdk ∧ u.disp = s.disp ∧ u.hbm = s.hbm := by
  have hg : getClu u p = maskedWrite { getClu s p with lastFrame := 8 * frame + slot, idleSince := now (atMt s t) } w (List.range 32) data bad := by
    rw [hu, getClu_modClu_same, getClu_modClu_same]; rfl
  have hr : spadAddr (32 * w) = 32 * w := by unfold spadAddr spadSize; omega
  have hws : runWords (32 * w) 32 = [w] := by
    unfold runWords
    rw [if_neg (by decide), show (32 * w + 32 - 1) / 32 + 1 - 32 * w / 32 = 1 by omega, show 32 * w / 32 = w by omega]
    show [w % 196608] = _
    rw [Nat.mod_eq_of_lt wl]
  have hm : getClu u p = { getClu s p with lastFrame := 8 * frame + slot, idleSince := now (atMt s t), spad := spadWordWrite (getClu s p).spad w 0 data bad,
                                           writeBack := (getClu s p).writeBack.filter fun x => !([w].contains x) } := by
    rw [hg]
    unfold maskedWrite
    rw [if_pos (by decide)]
    unfold cluWrite
    dsimp only
    rw [hr, List.length_map, hd, hws]
    have : spadWrite (getClu s p).spad (32 * w) (data.map fun x => (x, bad)) = spadWordWrite (getClu s p).spad w 0 data bad := by
      unfold spadWrite
      rw [List.length_map, hd]
      unfold spadWriteGo
      rw [if_neg (by cases data with
        | nil => simp at hd
        | cons a l => simp)]
      dsimp only
      rw [hr, show 32 * w % 32 = 0 by omega, show 32 * w / 32 = w by omega]
      rw [List.take_of_length_le (by rw [List.length_map]; omega), List.drop_of_length_le (by rw [List.length_map]; omega), List.map_map, getLsb_any data bad hd]
      rw [show ((fun x : Byte × Bool => x.1) ∘ fun x => (x, bad)) = id from rfl, List.map_id]
      unfold spadWriteGo
      rfl
    rw [this]
  have hz : ∀ w', spadWord (spadWordWrite (getClu s p).spad w 0 data bad) w = (data, bad, .none) ∧ (w' ≠ w → spadWord (spadWordWrite (getClu s p).spad w 0 data bad) w' = spadWord (getClu s p).spad w') := by
    intro w'
    generalize (getClu s p).spad = sp at hw
    rcases hx : spadWord sp w with ⟨old, ob, er⟩
    have hold : old.length = 32 := by have := spadWord_length sp w; rw [hx] at this; exact this
    have e : spadWordWrite sp w 0 data bad = ⟨cellWrite (match tblFind sp.upset w with | Option.none => sp.bytes | some _ => cellWrite sp.bytes (32 * w) old) (32 * w) data,
        (if bad then addOnce sp.poison w else sp.poison.filter (· != w)), tblErase sp.upset w⟩ := by
      unfold spadWordWrite
      rw [hx]
      dsimp only
      rw [hd]
      have : (bad || (!decide (32 ≥ 32) && ob)) = bad := by simp
      rw [this]
      congr 2
    rw [e]
    apply spadWord_put
    · have : Memory.wf (match tblFind sp.upset w with | Option.none => sp.bytes | some _ => cellWrite sp.bytes (32 * w) old) = true := by
        split
        · exact hw
        · exact cellWrite_wf hw _ _
      have := cellRead_cellWrite this (32 * w) data
      rw [hd] at this
      exact this
    · intro hn
      dsimp only
      rw [cellRead_cellWrite_other _ _ _ _ _ (by rw [hd]; omega)]
      split
      · rfl
      · rw [cellRead_cellWrite_other _ _ _ _ _ (by rw [hold]; omega)]
    · rfl
    · rfl
  refine ⟨?_, ?_, ?_, ?_, ?_, ?_, ?_⟩
  · rw [hm]; exact (hz 0).1
  · intro w' h; rw [hm]; exact (hz w').2 h
  · rw [hm]; simp
  · intro q hq
    rw [hu, getClu_modClu_other _ _ hq, getClu_modClu_other _ _ hq]; rfl
  · rw [hu]; rfl
  · rw [hu]; rfl
  · rw [hu]; rfl

end Sys2Proof.Laws
end

