-- ==== Sys2Proof/Laws/Streams.lean ====
section
/-! SUPPORT. What address translation fills and stream writes leave alone: lemmas to cite in place of unfolding those operations. -/

namespace Sys2Proof.Laws

open Sys2Proof.Machine Sys2Proof.Safety

set_option maxRecDepth 30000

/-- what fills of a translation cache leave -/
structure OnlyTlb (s u : State) : Prop where
  eq : u = { s with hbm := { s.hbm with tlb := u.hbm.tlb } }

theorem OnlyTlb.refl (s : State) : OnlyTlb s s := ⟨rfl⟩

theorem OnlyTlb.trans {s u v : State} (a : OnlyTlb s u) (b : OnlyTlb u v) : OnlyTlb s v := by
  refine ⟨?_⟩
  have h1 := a.eq
  have h2 := b.eq
  generalize v.hbm.tlb = x at h2 ⊢
  rw [h2, h1]

theorem onlyTlb_fill (s : State) (d j va : Nat) : OnlyTlb s (tlbFill s d j va) := by
  unfold tlbFill
  split
  · split
    · exact .refl s
    · exact ⟨rfl⟩
  · exact .refl s

theorem onlyTlb_range (s : State) (d j va n : Nat) : OnlyTlb s (tlbFillRange s d j va n) := by
  unfold tlbFillRange
  generalize pagesOf va n = l
  induction l generalizing s with
  | nil => exact .refl s
  | cons e l ih => exact (onlyTlb_fill _ _ _ _).trans (ih _)

theorem touchRange_eq (s : State) (wu d j va n : Nat) : ∃ f : WorkUnit → WorkUnit, touchRange s wu d j va n = modUnit s wu f := ⟨_, rfl⟩

theorem paRead_of {s u : State} (h1 : u.hbm.data = s.hbm.data) (h2 : u.hbm.poison = s.hbm.poison) (h3 : u.hbm.parity = s.hbm.parity) (h4 : u.hbm.poisonSeen = s.hbm.poisonSeen)
    (h5 : u.hbm.lost = s.hbm.lost) (h6 : u.hbm.lostUnits = s.hbm.lostUnits) (h7 : u.hbm.frameMap = s.hbm.frameMap) (pa n : Nat) : paRead u pa n = paRead s pa n := by
  have a : ∀ x, dataAddr u x = dataAddr s x := by intro x; unfold dataAddr; rw [h7]
  have b : nothingLost u = nothingLost s := by unfold nothingLost; rw [h5, h6]
  have c : ∀ x y, unitLost u x y = unitLost s x y := by intro x y; unfold unitLost; rw [h5, h6]
  have d : dataByte u = dataByte s := by
    funext x
    have e1 : ∀ n d, dataLost u n d = dataLost s n d := by intro n d; unfold dataLost; rw [b, c]
    have e2 : ∀ n, parityLost u n = parityLost s n := by intro n; unfold parityLost; rw [b, c]
    have e3 : ∀ n d o, reconstruct u n d o = reconstruct s n d o := by intro n d o; unfold reconstruct parityByte; rw [h1, h3]
    have e4 : ∀ n d o, reconBad u n d o = reconBad s n d o := by
      intro n d o; unfold reconBad; rw [e2, h4, show dataLost u n = dataLost s n from funext (e1 n)]
    unfold dataByte
    dsimp only
    rw [e1, e3, e4, h1, h2]
  unfold paRead
  dsimp only
  rw [a, b, d, h1, h2]

theorem onlyTlb_paRead {s u : State} (h : OnlyTlb s u) (pa n : Nat) : paRead u pa n = paRead s pa n := by
  rw [h.eq]; exact paRead_of rfl rfl rfl rfl rfl rfl rfl pa n

theorem noteReads_keeps_spad (s : State) (p : Nat) (ws : List Nat) : (getClu (noteReads s p ws) p).spad = (getClu s p).spad ∧ (noteReads s p ws).hbm = s.hbm := by
  unfold noteReads
  dsimp only
  generalize ws.filter _ = l
  induction l generalizing s with
  | nil => exact ⟨rfl, rfl⟩
  | cons w l ih =>
    rw [List.foldl_cons]
    have h := ih (noteWord s p w)
    have k : (getClu (noteWord s p w) p).spad = (getClu s p).spad ∧ (noteWord s p w).hbm = s.hbm := by
      unfold noteWord
      split
      · exact ⟨rfl, rfl⟩
      · refine ⟨?_, by rw [postFault_hbm]; rfl⟩
        rw [getClu_postFault, getClu_modClu_same]
      · refine ⟨?_, by rw [postFrom_hbm, postFault_hbm]; rfl⟩
        refine (congrArg Cluster.spad (getClu_clu (congrArg Clusters.phys (postFrom_clu _ _ _)) p)).trans ?_
        rw [getClu_postFault, getClu_modClu_same]
    exact ⟨h.1.trans k.1, h.2.trans k.2⟩

theorem vWrite_what (s : State) (die src : Nat) (who : Writer) (job va : Nat) (l : List (Byte × Bool)) :
    (vWrite s die src who job va l).clu = s.clu ∧ (vWrite s die src who job va l).hbm.data = s.hbm.data ∧ (vWrite s die src who job va l).hbm.parity = s.hbm.parity ∧
    ∃ x, (vWrite s die src who job va l).hbm.pending = s.hbm.pending ++ x := by
  unfold vWrite
  generalize pagesOf va l.length = pg
  induction pg generalizing s l with
  | nil => exact ⟨rfl, rfl, rfl, [], (List.append_nil _).symm⟩
  | cons e pg ih =>
    rw [List.foldl_cons]
    split
    · rename_i pa leaf _
      obtain ⟨a, b, c, x, d⟩ := ih (queueWrite s src who pa (l.take e.2)) (l.drop e.2)
      exact ⟨a, b, c, _, d.trans (List.append_assoc _ _ _)⟩
    · exact ih s (l.drop e.2)

end Sys2Proof.Laws
end

