-- ==== Sys2Proof/Laws/Hbm.lean ====
section
/-! SUPPORT. What the landing of a write, parity, loss and rebuild do: lemmas to cite in place of unfolding those operations. -/

namespace Sys2Proof.Laws

open Sys2Proof.Machine Sys2Proof.Safety

set_option maxRecDepth 30000

theorem mem_nf {a n x : Nat} : x ∈ numsFrom a n ↔ a ≤ x ∧ x < a + n := by
  induction n generalizing a with
  | zero => simp [numsFrom]
  | succ n ih => simp only [numsFrom, List.mem_cons, ih]; omega

theorem xfold_base {α : Type} (f : α → Byte) (l : List α) (x : Byte) : l.foldl (fun x i => x ^^^ f i) x = x ^^^ l.foldl (fun x i => x ^^^ f i) 0 := by
  induction l generalizing x with
  | nil => simp
  | cons a l ih => rw [List.foldl_cons, List.foldl_cons, ih, ih (0 ^^^ f a)]; simp [BitVec.xor_assoc]

theorem xfold_out {α : Type} (f g : α → Byte) (l : List α) (h : ∀ i ∈ l, f i = g i) (x : Byte) : l.foldl (fun x i => x ^^^ f i) x = l.foldl (fun x i => x ^^^ g i) x := by
  induction l generalizing x with
  | nil => rfl
  | cons a l ih => rw [List.foldl_cons, List.foldl_cons, h a (by simp), ih (fun i hi => h i (by simp [hi]))]

theorem xfold_in {α : Type} [DecidableEq α] (f g : α → Byte) (l : List α) (hn : l.Nodup) (j : α) (hj : j ∈ l) (h : ∀ i ∈ l, i ≠ j → f i = g i) :
    l.foldl (fun x i => x ^^^ f i) 0 = l.foldl (fun x i => x ^^^ g i) 0 ^^^ g j ^^^ f j := by
  induction l with
  | nil => cases hj
  | cons a l ih =>
    rw [List.foldl_cons, List.foldl_cons, xfold_base f, xfold_base g]
    rw [List.nodup_cons] at hn
    by_cases e : a = j
    · subst e
      rw [xfold_out f g l (fun i hi => h i (by simp [hi]) (fun e => hn.1 (e ▸ hi)))]
      generalize l.foldl (fun x i => x ^^^ g i) 0 = w
      generalize f a = p; generalize g a = q
      ext i hi
      simp only [BitVec.getElem_xor]
      generalize (0 : Byte)[i] = z
      cases z <;> cases p[i] <;> cases w[i] <;> cases q[i] <;> rfl
    · have hj' : j ∈ l := by rcases List.mem_cons.1 hj with e' | e'; exact absurd e'.symm e; exact e'
      rw [ih hn.2 hj' (fun i hi hne => h i (by simp [hi]) hne), h a (by simp) e]
      generalize l.foldl (fun x i => x ^^^ g i) 0 = w
      generalize f j = p; generalize g j = q; generalize g a = r
      ext i hi
      simp only [BitVec.getElem_xor]
      generalize (0 : Byte)[i] = z
      cases z <;> cases p[i] <;> cases w[i] <;> cases q[i] <;> cases r[i] <;> rfl

def ParityAgrees (d p : Cells) : Prop := ∀ n o, o < 4096 → cellGet p (4096 * n + o) = (numsFrom 0 19).foldl (fun x i => x ^^^ cellGet d (unitByte n i o)) 0

theorem ph_set {d p : Cells} (hd : Memory.wf d = true) (hp : Memory.wf p = true) (h : ParityAgrees d p) (da : Nat) (b : Byte) :
    ParityAgrees (cellSet d da b) (cellSet p (4096 * (da / 4096 / 19) + da % 4096) (cellGet p (4096 * (da / 4096 / 19) + da % 4096) ^^^ cellGet d da ^^^ b)) := by
  intro n o ho
  by_cases e : n = da / 4096 / 19 ∧ o = da % 4096
  · obtain ⟨rfl, rfl⟩ := e
    rw [cellGet_cellSet_same hp, h _ _ ho]
    have hj : unitByte (da / 4096 / 19) (da / 4096 % 19) (da % 4096) = da := by unfold unitByte; omega
    rw [xfold_in (fun i => cellGet (cellSet d da b) (unitByte (da / 4096 / 19) i (da % 4096))) (fun i => cellGet d (unitByte (da / 4096 / 19) i (da % 4096)))
      (numsFrom 0 19) (by decide) (da / 4096 % 19) (mem_nf.2 (by omega)) (by
        intro i hi hne
        exact cellGet_cellSet_other d b (by unfold unitByte; have := mem_nf.1 hi; omega))]
    rw [hj, cellGet_cellSet_same hd]
  · rw [cellGet_cellSet_other _ _ (by omega), h n o ho]
    exact xfold_out _ _ _ (by
      intro i hi
      have := mem_nf.1 hi
      exact (cellGet_cellSet_other d b (by unfold unitByte; omega)).symm) 0

/-- what keeps the store -/
structure HbmCellsSame (s u : State) : Prop where
  d : u.hbm.data = s.hbm.data
  p : u.hbm.parity = s.hbm.parity

theorem HbmCellsSame.refl (s : State) : HbmCellsSame s s := ⟨rfl, rfl⟩

theorem HbmCellsSame.trans {s u v : State} (a : HbmCellsSame s u) (b : HbmCellsSame u v) : HbmCellsSame s v := ⟨b.d.trans a.d, b.p.trans a.p⟩

theorem HbmCellsSame.keeps {s u : State} {M : List Part} (h : Keeps M s u) (hm : Part.hbm ∉ M) : HbmCellsSame s u := by
  have e : u.hbm = s.hbm := h.parts.same Part.hbm hm
  exact ⟨by rw [e], by rw [e]⟩

theorem HbmCellsSame.fold {α : Type} {s u : State} {f : State → α → State} (l : List α) (h : HbmCellsSame s u) (hf : ∀ s a, HbmCellsSame s (f s a)) : HbmCellsSame s (l.foldl f u) := by
  induction l generalizing u with
  | nil => exact h
  | cons a l ih => exact ih (h.trans (hf _ _))

structure ParityGood (s : State) : Prop where
  wd : Memory.wf s.hbm.data = true
  wp : Memory.wf s.hbm.parity = true
  nl : nothingLost s = true
  ph : ParityAgrees s.hbm.data s.hbm.parity

theorem dataLost_none {s : State} (h : nothingLost s = true) (n d : Nat) : dataLost s n d = false := by unfold dataLost; rw [h]; rfl

theorem parityLost_none {s : State} (h : nothingLost s = true) (n : Nat) : parityLost s n = false := by unfold parityLost; rw [h]; rfl

theorem dataByte_none {s : State} (h : nothingLost s = true) (a : Nat) : (dataByte s a).1 = cellGet s.hbm.data a := by
  unfold dataByte; dsimp only; rw [dataLost_none h]; rfl

theorem gd_land {s : State} (h : ParityGood s) (da : Nat) (l : List (Byte × Bool)) : ParityGood (landBytes s da l) := by
  induction l generalizing s da with
  | nil => exact h
  | cons e l ih =>
    unfold landBytes
    apply ih
    rw [parityLost_none h.nl, dataLost_none h.nl, dataByte_none h.nl]
    exact ⟨cellSet_wf h.wd _ _, cellSet_wf h.wp _ _, h.nl, ph_set h.wd h.wp h.ph da e.1⟩

theorem st_landPoison (s : State) (gs : List (Nat × Bool × Bool)) : HbmCellsSame s (landPoison s gs) ∧ nothingLost (landPoison s gs) = nothingLost s := by
  unfold landPoison
  induction gs generalizing s with
  | nil => exact ⟨.refl s, rfl⟩
  | cons g gs ih =>
    rw [List.foldl_cons]
    refine ⟨HbmCellsSame.trans ?_ (ih _).1, (ih _).2.trans ?_⟩
    · generalize (g.2.2 || !g.2.1 && s.hbm.poison.contains g.1) = b
      cases b <;> exact ⟨rfl, rfl⟩
    · generalize (g.2.2 || !g.2.1 && s.hbm.poison.contains g.1) = b
      cases b <;> rfl

theorem ParityGood.of {s u : State} (h : ParityGood s) (e : HbmCellsSame s u) (l : nothingLost u = nothingLost s) : ParityGood u :=
  ⟨by rw [e.d]; exact h.wd, by rw [e.p]; exact h.wp, l.trans h.nl, by rw [e.d, e.p]; exact h.ph⟩

theorem gd_run {s : State} (h : ParityGood s) (pa : Nat) (l : List (Byte × Bool)) : ParityGood (landRun s pa l) := by
  unfold landRun
  split
  · exact h
  · dsimp only
    have k := gd_land h (dataAddr s pa) l
    have q := st_landPoison (landBytes s (dataAddr s pa) l) (runGranules (dataAddr s pa) l)
    exact (k.of q.1 q.2).of ⟨rfl, rfl⟩ rfl

theorem gd_row {s : State} (h : ParityGood s) (n : Nat) : ParityGood (landRow s n) := by
  unfold landRow
  dsimp only
  have key : ∀ (ws : List PendingWrite) (s : State), ParityGood s → ParityGood (ws.foldl (fun s w => landRun s w.pa w.bytes) s) := by
    intro ws
    induction ws with
    | nil => exact fun _ h => h
    | cons w ws ih => exact fun s h => ih _ (gd_run h _ _)
  generalize (s.hbm.pending.filter fun w => pendingRow s w == n) = ws
  generalize hz : ({ s with hbm := { s.hbm with pending := s.hbm.pending.filter fun w => !(pendingRow s w == n) } } : State) = z
  have gz : ParityGood z := by rw [← hz]; exact h.of ⟨rfl, rfl⟩ rfl
  have k := key ws z gz
  generalize (ws.foldl (fun s w => landRun s w.pa w.bytes) z) = y at k ⊢
  exact k.of ⟨rfl, rfl⟩ rfl

theorem st_vWrite (s : State) (die src : Nat) (who : Writer) (job va : Nat) (l : List (Byte × Bool)) : HbmCellsSame s (vWrite s die src who job va l) :=
  ⟨(vWrite_what s die src who job va l).2.1, (vWrite_what s die src who job va l).2.2.1⟩

theorem st_send (s : State) (k w d lo hi g o : Nat) (l : List (Byte × Bool)) : HbmCellsSame s (sendPeerData s k w d lo hi g o l).1 := by
  have := sendPeerData_keeps (M := [.host, .peers, .meter, .disp, .reins, .free]) (z := s) (s := s) (kind := k) (w := w) (dst := d) (lo := lo) (hi := hi) (gen := g) (off := o) (l := l) (e' := rfl) (Keeps.refl _ s)
    (by decide) (by decide) (by decide)
  exact HbmCellsSame.keeps this (by decide)

theorem st_put (s : State) (w : Nat) (x : Window) (gen : Nat) (l) : HbmCellsSame s (putResults s w x gen l) := by
  unfold putResults
  refine HbmCellsSame.fold _ (.refl s) ?_
  intro s g
  dsimp only
  exact (st_vWrite _ _ _ _ _ _ _).trans (HbmCellsSame.fold _ (.refl _) (fun s d => st_send _ _ _ _ _ _ _ _ _))

theorem st_emit (s : State) (w : Nat) (x : Window) (gen : Nat) (o) : HbmCellsSame s (roundEmit s w x gen o) := by
  unfold roundEmit
  dsimp only
  refine HbmCellsSame.trans (HbmCellsSame.fold _ (.refl s) ?_) (st_put _ _ _ _ _)
  intro s k
  unfold sendLeaves
  exact HbmCellsSame.fold _ (.refl s) (fun s d => st_send _ _ _ _ _ _ _ _ _)

theorem st_feed (s : State) (w : Nat) (x : Window) (vs) : HbmCellsSame s (roundFeed s w x vs) := by
  unfold roundFeed
  dsimp only
  generalize List.foldl _ _ vs = q
  exact HbmCellsSame.trans (u := setRound s w q.1) ⟨rfl, rfl⟩ (st_emit _ _ _ _ _)

theorem st_modRun (s : State) (r f) : HbmCellsSame s (modRun s r f) := ⟨rfl, rfl⟩

theorem st_modUnit (s : State) (r f) : HbmCellsSame s (modUnit s r f) := ⟨rfl, rfl⟩

theorem st_causes (s : State) (p q r) : HbmCellsSame s (addCauses s p q r) := ⟨rfl, rfl⟩

theorem st_round (s : State) (w r) : HbmCellsSame s (setRound s w r) := ⟨rfl, rfl⟩

theorem st_ite {c : Prop} [Decidable c] {s u v : State} (h : HbmCellsSame s u) (k : HbmCellsSame s v) : HbmCellsSame s (if c then u else v) := by split <;> assumption

theorem st_contribute (s : State) (w : Nat) (x : Window) (r) (ep : Nat) (l) : HbmCellsSame s (contribute s w x r ep l) := by
  unfold contribute
  dsimp only
  split
  · exact .refl s
  · split
    · exact (st_round s w _).trans ((st_modRun _ _ _).trans (st_modUnit _ _ _))
    · refine HbmCellsSame.trans ?_ (st_feed _ _ _ _)
      exact (st_round s w _).trans ((st_modRun _ _ _).trans (st_modUnit _ _ _))

theorem st_fetch (s : State) (n a : Nat) (e : Option Nat) : HbmCellsSame s (fetchAdd s n a e).1 :=
  HbmCellsSame.keeps (fetchAdd_keeps (M := [.disp, .reins]) (z := s) (s := s) (n := n) (a := a) (e := e) (e' := rfl) (Keeps.refl _ s) (by decide) (by decide)) (by decide)

theorem st_end (s : State) (w : Nat) : HbmCellsSame s (endRound s w) := by
  unfold endRound
  dsimp only
  refine HbmCellsSame.fold _ ?_ (fun s e => st_contribute _ _ _ _ _ _)
  refine HbmCellsSame.trans (u := { s with peers := { s.peers with windows := tblSet s.peers.windows w { getWin s w with gen := ((getWin s w).gen + 1) % 2 ^ 32 } } }) ⟨rfl, rfl⟩ ?_
  generalize hs1 : ({ s with peers := { s.peers with windows := tblSet s.peers.windows w { getWin s w with gen := ((getWin s w).gen + 1) % 2 ^ 32 } } } : State) = s1
  refine HbmCellsSame.trans (st_fetch s1 (getWin s w).ctr 1 none) ?_
  generalize (fetchAdd s1 (getWin s w).ctr 1 none).1 = s2
  refine HbmCellsSame.trans (u := if (getRound s w).poisoned = true then addCauses s2 (fun u => (getRound s w).writers.contains (u.wuId, u.epoch)) reasonPoison resNone else s2) (st_ite (st_causes _ _ _ _) (.refl _)) ?_
  generalize (if (getRound s w).poisoned = true then addCauses s2 (fun u => (getRound s w).writers.contains (u.wuId, u.epoch)) reasonPoison resNone else s2) = s3
  exact st_ite (st_round _ _ _) ((st_round _ _ _).trans (st_feed _ _ _ _))

theorem st_writer (s : State) (w : Writer) : HbmCellsSame s (writerLanded s w) := by
  unfold writerLanded
  split
  · exact .refl s
  · split
    · exact HbmCellsSame.keeps (lateLanded_keeps (M := [.host, .peers]) (Keeps.refl _ s) (by decide) (by decide)) (by decide)
    · exact HbmCellsSame.keeps (pseqLand_keeps (M := [.host, .disp, .reins, .peers, .meter]) (Keeps.refl _ s) (by decide) (by decide) (by decide) (by decide) (by decide)) (by decide)
    · unfold resultsLanded
      dsimp only
      split
      · exact .refl s
      · split
        · exact (st_round _ _ _).trans (st_end _ _)
        · exact st_round _ _ _
    · exact .refl s
    · exact .refl s

theorem hbm_stackOf (da : Nat) : stackOf (da / 64 * 64) = stackOf da := by
  unfold stackOf rowOf
  rw [show da / 64 * 64 / 4096 = da / 4096 by omega]

theorem landBytes_same (s : State) (da : Nat) (l : List (Byte × Bool)) : ∃ d p, landBytes s da l = { s with hbm := { s.hbm with data := d, parity := p } } := by
  induction l generalizing s da with
  | nil => exact ⟨_, _, rfl⟩
  | cons e l ih =>
    unfold landBytes
    obtain ⟨d, p, h⟩ := ih { s with hbm := _ } (da + 1)
    refine ⟨d, p, h.trans ?_⟩
    generalize parityLost s (rowOf da) = a
    generalize dataLost s (rowOf da) (da / 4096 % 19) = b
    cases a <;> cases b <;> rfl

theorem landPoison_same (s : State) (gs : List (Nat × Bool × Bool)) : ∃ d p, landPoison s gs = { s with hbm := { s.hbm with poison := d, poisonSeen := p } } := by
  unfold landPoison
  induction gs generalizing s with
  | nil => exact ⟨_, _, rfl⟩
  | cons g gs ih =>
    rw [List.foldl_cons]
    obtain ⟨d, p, h⟩ := ih { s with hbm := _ }
    refine ⟨d, p, h.trans ?_⟩
    generalize (g.2.2 || !g.2.1 && s.hbm.poison.contains g.1) = a
    cases a <;> rfl

theorem mem_addOnce (a : Nat) (l : List Nat) : a ∈ addOnce l a := by
  unfold addOnce
  split
  · rename_i h; simpa using h
  · simp

structure HbmMore (v0 u : State) : Prop where
  pdk : u.pdk = v0.pdk
  clock : u.clock = v0.clock
  ue : u.hbm.ue = v0.hbm.ue
  ce : u.hbm.ce = v0.hbm.ce
  due : u.hbm.retireDue = v0.hbm.retireDue

theorem HbmMore.trans {a b c : State} (h : HbmMore a b) (k : HbmMore b c) : HbmMore a c :=
  ⟨k.pdk.trans h.pdk, k.clock.trans h.clock, k.ue.trans h.ue, k.ce.trans h.ce, k.due.trans h.due⟩

theorem more_land (s : State) (a : Nat) (l) : HbmMore s (landBytes s a l) := by
  obtain ⟨d, p, e⟩ := landBytes_same s a l
  rw [e]; exact ⟨rfl, rfl, rfl, rfl, rfl⟩

theorem more_poison (s : State) (l) : HbmMore s (landPoison s l) := by
  obtain ⟨d, p, e⟩ := landPoison_same s l
  rw [e]; exact ⟨rfl, rfl, rfl, rfl, rfl⟩

theorem more_free (s : State) (n) : HbmMore s (freeBytes s n).1 := ⟨rfl, rfl, rfl, rfl, rfl⟩

theorem recon_more (s : State) (da : Nat) : HbmMore (noteRetire (postFault { s with hbm := { s.hbm with ue := tblInc s.hbm.ue (stackOf da) } } 0x11 (resStack (stackOf da)) (stackOf da)) (da / 4096)) (reconGranule s da) := by
  unfold reconGranule
  dsimp only
  rw [hbm_stackOf]
  rw [show da / 64 * 64 / 4096 = da / 4096 by omega]
  generalize noteRetire (postFault { s with hbm := { s.hbm with ue := tblInc s.hbm.ue (stackOf da) } } 0x11 (resStack (stackOf da)) (stackOf da)) (da / 4096) = v
  split
  · exact (more_free v 64).trans ((more_land _ _ _).trans (more_poison _ _))
  · exact more_land _ _ _

theorem recon_what (s : State) (da : Nat) (hr : Room s 1) : 
    (reconGranule s da).hbm.ue = tblInc s.hbm.ue (stackOf da) ∧ (reconGranule s da).hbm.ce = s.hbm.ce ∧ da / 4096 ∈ (reconGranule s da).hbm.retireDue ∧
      Posted s (reconGranule s da) [{ code := 0x0001, mech := 0x11, res := resStack (stackOf da), params := [stackOf da] }] := by
  have k := recon_more s da
  generalize reconGranule s da = u at k ⊢
  generalize hs0 : ({ s with hbm := { s.hbm with ue := tblInc s.hbm.ue (stackOf da) } } : State) = s0 at k
  have h0 : s0.hbm = { s.hbm with ue := tblInc s.hbm.ue (stackOf da) } := by rw [← hs0]
  have p0 : s0.pdk = s.pdk := by rw [← hs0]
  have r0 : Room s0 1 := by rw [← hs0]; exact hr
  have n0 : now s0 = now s := by rw [← hs0]; rfl
  have P := (posted_fault (mech := 0x11) (res := resStack (stackOf da)) (p0 := stackOf da) (n := 0) r0 (posted_nil p0)).1
  have H := postFault_hbm s0 0x11 (resStack (stackOf da)) (stackOf da)
  generalize postFault s0 0x11 (resStack (stackOf da)) (stackOf da) = v at k P H
  have e1 : (noteRetire v (da / 4096)).hbm.ue = v.hbm.ue := rfl
  have e2 : (noteRetire v (da / 4096)).hbm.ce = v.hbm.ce := rfl
  have e3 : (noteRetire v (da / 4096)).hbm.retireDue = addOnce v.hbm.retireDue (da / 4096) := rfl
  refine ⟨?_, ?_, ?_, ?_⟩
  · rw [k.ue, e1, H, h0]
  · rw [k.ce, e2, H, h0]
  · rw [k.due, e3]; exact mem_addOnce _ _
  · exact posted_congr (u := v) k.pdk (by unfold now; rw [k.clock]; rfl) P

theorem landBytes_get (s : State) (da : Nat) (l : List (Byte × Bool)) (hn : nothingLost s = true) (hw : Memory.wf s.hbm.data = true) :
    (∀ i (h : i < l.length), cellGet (landBytes s da l).hbm.data (da + i) = l[i].1) ∧
    (∀ a, (a < da ∨ da + l.length ≤ a) → cellGet (landBytes s da l).hbm.data a = cellGet s.hbm.data a) := by
  induction l generalizing s da with
  | nil => exact ⟨fun i h => absurd h (by simp), fun _ _ => rfl⟩
  | cons e l ih =>
    unfold landBytes
    dsimp only
    rw [parityLost_none hn, dataLost_none hn]
    simp only [Bool.false_eq_true, if_false]
    generalize hq : cellSet s.hbm.parity _ _ = q
    obtain ⟨a, b⟩ := ih { s with hbm := { s.hbm with parity := q, data := cellSet s.hbm.data da e.1 } } (da + 1) hn (cellSet_wf hw _ _)
    generalize hu : landBytes { s with hbm := { s.hbm with parity := q, data := cellSet s.hbm.data da e.1 } } (da + 1) l = u at a b
    have hu' : landBytes { s with hbm := { { s.hbm with parity := q } with data := cellSet s.hbm.data da e.1 } } (da + 1) l = u := hu
    refine ⟨?_, ?_⟩
    · intro i h
      cases i with
      | zero =>
        refine (b da (.inl (by omega))).trans ?_
        exact cellGet_cellSet_same hw da e.1
      | succ i =>
        have := a i (by simpa using h)
        rw [show da + 1 + i = da + (i + 1) by omega] at this
        exact this
    · intro x hx
      rw [List.length_cons] at hx
      exact (b x (by omega)).trans (cellGet_cellSet_other _ _ (by omega))

theorem lose_what (v : State) (r : LostRegion) : (loseRegion v r).disp = v.disp ∧ now (loseRegion v r) = now v ∧ r ∈ (loseRegion v r).hbm.lost ∧ (loseRegion v r).hbm.data = v.hbm.data ∧
    (cfgSingleGuard v = false → (loseRegion v r).hbm.rebuilding = true) := by
  unfold loseRegion
  dsimp only
  rw [capOpen_disp, now_capOpen, capOpen_hbm]
  refine ⟨rfl, rfl, by simp, rfl, ?_⟩
  intro h
  show (v.hbm.rebuilding || !cfgSingleGuard v) = true
  rw [h]; simp

theorem guard_of {s v : State} (h : v.ctl = s.ctl) : cfgSingleGuard v = cfgSingleGuard s := by
  unfold cfgSingleGuard cfgField
  rw [h]

structure LostSame (s u : State) : Prop where
  lost : u.hbm.lost = s.hbm.lost
  pdk : u.pdk = s.pdk
  clock : u.clock = s.clock
  flt : u.flt = s.flt

theorem LostSame.trans {a b c : State} (h : LostSame a b) (k : LostSame b c) : LostSame a c := ⟨k.lost.trans h.lost, k.pdk.trans h.pdk, k.clock.trans h.clock, k.flt.trans h.flt⟩

theorem LostSame.refl (a : State) : LostSame a a := ⟨rfl, rfl, rfl, rfl⟩

theorem LostSame.ite {c : Prop} [Decidable c] {s u v : State} (h : LostSame s u) (k : LostSame s v) : LostSame s (if c then u else v) := by split <;> assumption

theorem LostSame.fold {α : Type} {s : State} {f : State → α → State} (l : List α) (hf : ∀ s a, LostSame s (f s a)) : LostSame s (l.foldl f s) := by
  induction l generalizing s with
  | nil => exact .refl s
  | cons a l ih => exact (hf _ _).trans ih

theorem ls_poison (s : State) (l) : LostSame s (landPoison s l) := by
  obtain ⟨d, p, e⟩ := landPoison_same s l
  rw [e]; exact ⟨rfl, rfl, rfl, rfl⟩

theorem ls_at (b a : State) (n o : Nat) : LostSame a (rebuildAt b a n o) := by
  unfold rebuildAt
  dsimp only
  refine LostSame.trans (LostSame.fold (f := fun (a : State) d =>
    if dataLost b n d && !dataLost a n d then
      { a with hbm := { a.hbm with data := cellSet a.hbm.data (unitByte n d o) (reconstruct b n d o) } }
    else a) (numsFrom 0 19) ?_) (.ite ⟨rfl, rfl, rfl, rfl⟩ (.refl _))
  intro s d
  exact .ite ⟨rfl, rfl, rfl, rfl⟩ (.refl _)

theorem ls_pois (b a : State) (n g : Nat) : LostSame a (rebuildPoison b a n g) := by
  unfold rebuildPoison
  dsimp only
  refine LostSame.trans (LostSame.fold (f := fun (a : State) d =>
    if dataLost b n d && !dataLost a n d then landPoison a [(unitByte n d (64 * g) / 64, true, reconBad b n d (64 * g))] else a) (numsFrom 0 19) ?_) (.ite ⟨rfl, rfl, rfl, rfl⟩ (.refl _))
  intro s d
  exact .ite (ls_poison _ _) (.refl _)

end Sys2Proof.Laws
end

