-- ==== Sys2Proof/Laws/Peers.lean ====
section
/-! SUPPORT. What peer messages, rounds and ports do: lemmas to cite in place of unfolding those operations. -/

namespace Sys2Proof.Laws

open Sys2Proof.Machine Sys2Proof.Safety

set_option maxRecDepth 30000

theorem port_mod (s : State) (n q : Nat) (f : PeerPort → PeerPort) : peerPortOf (modPeerPort s n f) q = if q = n then f (peerPortOf s n) else peerPortOf s q := by
  unfold peerPortOf modPeerPort tblMod
  dsimp only
  by_cases h : q = n
  · rw [if_pos h, h]; exact tblGet_tblSet_same _ _ _ _
  · rw [if_neg h]; exact tblGet_tblSet_other _ _ _ h

/-- A port with its session and counters replaced. -/
structure PortSame (a b : PeerPort) : Prop where
  eq : b = { a with session := b.session, ctr := b.ctr }
  some : b.session.isSome = a.session.isSome

theorem PortSame.refl (a : PeerPort) : PortSame a a := ⟨rfl, rfl⟩

theorem PortSame.trans {a b c : PeerPort} (h : PortSame a b) (k : PortSame b c) : PortSame a c := by
  refine ⟨?_, k.some.trans h.some⟩
  have h1 := h.eq
  have h2 := k.eq
  generalize c.session = x at h2 ⊢
  generalize c.ctr = y at h2 ⊢
  rw [h2, h1]

/-- Only sessions of peer ports, what has left, and counters changed. -/
structure PeerMoves (s u : State) : Prop where
  eq : u = { s with host := { s.host with sent := u.host.sent }, peers := { s.peers with ports := u.peers.ports }, meter := { s.meter with departTap := u.meter.departTap } }
  port : ∀ q, PortSame (peerPortOf s q) (peerPortOf u q)

theorem PeerMoves.refl (s : State) : PeerMoves s s := ⟨rfl, fun _ => .refl _⟩

theorem PeerMoves.trans {s u v : State} (a : PeerMoves s u) (b : PeerMoves u v) : PeerMoves s v := by
  refine ⟨?_, fun q => (a.port q).trans (b.port q)⟩
  have h1 := a.eq
  have h2 := b.eq
  generalize v.host.sent = v1 at h2 ⊢
  generalize v.peers.ports = v3 at h2 ⊢
  generalize v.meter.departTap = v4 at h2 ⊢
  rw [h2, h1]

/-- And every held message still stands. -/
structure PeerSends (s u : State) : Prop extends PeerMoves s u where
  held : ∀ q x, findSess s (.peer q) q = some x → ∃ y, findSess u (.peer q) q = some y ∧ SessSame x y

theorem PeerSends.refl (s : State) : PeerSends s s := ⟨.refl s, fun _ x h => ⟨x, h, .refl x⟩⟩

theorem PeerSends.trans {s u v : State} (a : PeerSends s u) (b : PeerSends u v) : PeerSends s v :=
  ⟨a.toPeerMoves.trans b.toPeerMoves, fun q x h => by
    obtain ⟨y, hy, k⟩ := a.held q x h
    obtain ⟨z, hz, j⟩ := b.held q y hy
    exact ⟨z, hz, k.trans j⟩⟩

theorem ps_modPort {s : State} (n : Nat) (f : PeerPort → PeerPort) (h : PortSame (peerPortOf s n) (f (peerPortOf s n)))
    (k : ∀ x, (peerPortOf s n).session = some x → ∃ y, (f (peerPortOf s n)).session = some y ∧ SessSame x y) : PeerSends s (modPeerPort s n f) := by
  refine ⟨⟨rfl, fun q => ?_⟩, fun q x hx => ?_⟩
  · rw [port_mod]; split
    · rename_i e; rw [e]; exact h
    · exact .refl _
  · show ∃ y, (peerPortOf _ q).session = _ ∧ _
    rw [port_mod]; split
    · rename_i e; subst e; exact k x hx
    · exact ⟨x, hx, .refl x⟩

theorem pm_modPort {s : State} (n : Nat) (f : PeerPort → PeerPort) (h : PortSame (peerPortOf s n) (f (peerPortOf s n))) : PeerMoves s (modPeerPort s n f) := by
  refine ⟨rfl, fun q => ?_⟩
  rw [port_mod]; split
  · rename_i e; rw [e]; exact h
  · exact .refl _

theorem ps_modCtr (s : State) (p : Nat) (f : PortCounters → PortCounters) : PeerSends s (modCtr s (.peer p) f) :=
  ps_modPort p (fun q => { q with ctr := f q.ctr }) ⟨rfl, rfl⟩ (fun x h => ⟨x, h, .refl x⟩)

theorem ps_sent (s : State) (x : Sent) : PeerSends s (modHost s fun h => { h with sent := x :: h.sent }) :=
  ⟨⟨rfl, fun _ => .refl _⟩, fun q x h => ⟨x, h, .refl x⟩⟩

theorem ps_putSent (s : State) (p : Nat) (x : Sent) : PeerSends s (putSent s (.peer p) x) := (ps_sent s x).trans (ps_modCtr _ p _)

theorem pm_putSess (s : State) (p : Nat) (se : Session) : PeerMoves s (putSess s (.peer p) se) :=
  pm_modPort p (fun q => { q with session := q.session.map fun _ => se }) ⟨rfl, by cases (peerPortOf s p).session <;> rfl⟩

theorem ps_putSess {s : State} {p : Nat} {x se : Session} (hx : findSess s (.peer p) p = some x) (h : SessSame x se) : PeerSends s (putSess s (.peer p) se) :=
  ps_modPort p (fun q => { q with session := q.session.map fun _ => se }) ⟨rfl, by cases (peerPortOf s p).session <;> rfl⟩
    (fun y hy => by
      have : x = y := Option.some.inj (hx.symm.trans hy)
      subst this
      exact ⟨se, by show Option.map _ (peerPortOf s p).session = _; rw [hy]; rfl, h⟩)

theorem pfind_putSess {s : State} {p n : Nat} {x se : Session} (hx : findSess s (.peer p) p = some x) : findSess (putSess s (.peer p) se) (.peer p) n = some se := by
  show (peerPortOf (modPeerPort s p _) p).session = _
  rw [port_mod, if_pos rfl]
  show Option.map _ (peerPortOf s p).session = _
  rw [show (peerPortOf s p).session = some x from hx]; rfl

theorem ps_transmit {s : State} {p : Nat} {x se : Session} (hx : findSess s (.peer p) p = some x) (h : SessSame x se)
    (typ : Nat) (body : List Byte) (rb rs : Bool) (seq mt : Nat) : PeerSends s (transmit s (.peer p) se typ body rb rs seq mt) := by
  unfold transmit
  dsimp only
  exact (ps_putSess (se := { se with txXmit := se.txXmit + 1, txLow := sessLow { se with txXmit := se.txXmit + 1, txLow := sessLow se } }) hx ⟨h.num, h.gen, h.key, h.enc, h.held⟩).trans (ps_putSent _ _ _)

theorem ps_departTap (s : State) (typ : Nat) (rb : Bool) (body : List Byte) : PeerSends s (departTap s typ rb body) := by
  unfold departTap
  split
  · exact ⟨⟨rfl, fun _ => .refl _⟩, fun q x hx => ⟨x, hx, .refl x⟩⟩
  · exact .refl s

theorem ps_flushHeld (s : State) (p n k : Nat) : PeerSends s (flushHeld s (.peer p) n k) := by
  induction k generalizing s with
  | zero => exact .refl s
  | succ k ih =>
    unfold flushHeld
    split
    · exact .refl s
    · rename_i se hse
      have hse : findSess s (.peer p) p = some se := hse
      split
      · exact .refl s
      · rename_i h hh
        split
        · dsimp only
          refine PeerSends.trans ?_ (ih _)
          refine PeerSends.trans ?_ (ps_departTap _ _ _ _)
          generalize hse' : ({ se with held := _ } : Session) = se'
          have hss : SessSame se se' := by
            rw [← hse']
            have hm : h ∈ se.held := List.mem_of_find?_eq_some hh
            refine ⟨rfl, rfl, rfl, rfl, fun q t b hs => ⟨?_, ?_⟩⟩
            · obtain ⟨g, m, e⟩ := hs.1
              refine ⟨_, List.mem_map.mpr ⟨g, m, rfl⟩, ?_⟩
              split
              · rename_i e'; exact e'.symm.trans e
              · exact e
            · intro g m e
              obtain ⟨g0, m0, rfl⟩ := List.mem_map.mp m
              split at e
              · rename_i e'
                rw [if_pos e']
                exact hs.2 h hm e
              · rename_i e'
                rw [if_neg e']
                exact hs.2 g0 m0 e
          exact (ps_putSess (se := se') hse hss).trans (ps_transmit (pfind_putSess hse) (.refl _) _ _ _ _ _ _)
        · exact .refl s

theorem pm_sendSeq (s : State) (p n typ : Nat) (body : List Byte) (rb : Bool) (nt : Option (Nat × Item)) : PeerMoves s (sendSeq s (.peer p) n typ body rb nt) := by
  unfold sendSeq
  split
  · exact .refl s
  · exact (pm_putSess _ _ _).trans (ps_flushHeld _ _ _ _).toPeerMoves

theorem pqueued_sendSeq {s : State} {p n : Nat} {x : Session} (hx : findSess s (.peer p) p = some x) (hf : FreshSeq x) (typ : Nat) (body : List Byte) (rb : Bool) (nt : Option (Nat × Item)) :
    ∃ y, findSess (sendSeq s (.peer p) n typ body rb nt) (.peer p) p = some y ∧ Solid y x.txNext typ body := by
  unfold sendSeq
  rw [show findSess s (.peer p) n = some x from hx]
  dsimp only
  generalize hse' : ({ x with txNext := _, held := _ } : Session) = se'
  have h1 := pfind_putSess (s := s) (se := se') (n := p) hx
  generalize List.length _ = m
  obtain ⟨y, hy, k⟩ := (ps_flushHeld (putSess s (.peer p) se') p n m).held _ _ h1
  refine ⟨y, hy, k.held _ _ _ ?_⟩
  rw [← hse']
  refine ⟨⟨_, List.mem_append_right _ (List.mem_singleton.mpr rfl), rfl⟩, fun h m q => ?_⟩
  rcases List.mem_append.mp m with m | m
  · exact absurd q (hf h m)
  · rw [List.mem_singleton] at m; subst m; exact ⟨rfl, rfl⟩

theorem ps_sendPlain (s : State) (p n typ : Nat) (body : List Byte) (r : Bool) : PeerSends s (sendPlain s (.peer p) n typ body r) := by
  unfold sendPlain
  split
  · exact .refl s
  · rename_i se hse
    split
    · exact ps_transmit hse (.refl _) _ _ _ _ _ _
    · exact .refl s

theorem ps_sendAck (s : State) (p n : Nat) : PeerSends s (sendAck s (.peer p) n) := by
  unfold sendAck
  split
  · exact .refl s
  · exact ps_sendPlain _ _ _ _ _ _

theorem ps_sendOpen (s : State) (p typ : Nat) (body : List Byte) : PeerSends s (sendOpen s (.peer p) typ body) := by
  unfold sendOpen
  split
  · exact ps_putSent _ _ _
  · exact .refl s

theorem preceive {s : State} {p : Nat} {d : Datagram} {typ : Nat} {se : Session} (h : PeerAccepts s p d typ se) (late : Bool) :
    ∃ v x, receive s (.peer p) d typ true late = (v, .act x (plainBody se d)) ∧ PeerMoves s v ∧ (∀ q, q ≠ p → peerPortOf v q = peerPortOf s q) := by
  obtain ⟨h1, h2, h3, h4⟩ := h
  have ef : ∀ n, findSess (countRx s (.peer p)) (.peer p) n = findSess s (.peer p) n := fun n => by
    simp [findSess, countRx, modCtr, modPeerPort, peerPortOf, tblMod]
  have hc : impCheck (countRx s (.peer p)) (.peer p) d typ = 0 := by
    unfold impCheck at h2 ⊢
    rw [ef]
    exact h2
  have hs : findSess (countRx s (.peer p)) (.peer p) d.session = some se := (ef _).trans h3
  unfold receive
  rw [if_neg (by simp [h1])]
  dsimp only
  rw [if_neg (by simp [hc]), hs]
  dsimp only
  rw [if_neg (by simp), if_neg (by rw [Bool.not_eq_true]; exact h4)]
  generalize hx : (ite (late = true) _ _ : Session) = x
  refine ⟨_, x, rfl, (ps_modCtr s p _).toPeerMoves.trans (pm_putSess _ _ _), fun q hq => ?_⟩
  show peerPortOf (modPeerPort (modPeerPort s p _) p _) q = _
  rw [port_mod, if_neg hq, port_mod, if_neg hq]

theorem PeerMoves.next {s v : State} (m : PeerMoves s v) (d : Nat) : nextHop v d = nextHop s d := by
  have pu : ∀ p, portUsable v p = portUsable s p := by
    intro p
    have k := m.port p
    unfold portUsable
    rw [k.some, show (peerPortOf v p).state = (peerPortOf s p).state by rw [k.eq]]
  unfold nextHop
  rw [show v.peers.size = s.peers.size by rw [m.eq], show v.peers.routes = s.peers.routes by rw [m.eq]]
  split
  · rfl
  · split
    · rfl
    · rw [pu, pu]

theorem pm_sendPeer (s : State) (b : PeerBody) : PeerMoves s (sendPeer s b) := by
  unfold sendPeer
  split
  · exact .refl s
  · exact pm_sendSeq _ _ _ _ _ _ _

theorem PeerMoves.rest {s u : State} (a : PeerMoves s u) : u.disp = s.disp ∧ u.hbm = s.hbm ∧ u.reins = s.reins ∧ u.ctl = s.ctl ∧ u.flt = s.flt ∧ now u = now s ∧ u.pdk = s.pdk := by
  have e := a.eq
  refine ⟨?_, ?_, ?_, ?_, ?_, ?_, ?_⟩
  · rw [e]
  · rw [e]
  · rw [e]
  · rw [e]
  · rw [e]
  · show u.clock.mt = _; rw [e]; rfl
  · rw [e]

structure PeersSame (a b : Peers) : Prop where
  rank : b.rank = a.rank
  size : b.size = a.size
  windows : b.windows = a.windows
  rounds : b.rounds = a.rounds
  pseqRx : b.pseqRx = a.pseqRx
  landed : b.pseqLanded = a.pseqLanded
  landing : b.landing = a.landing
  finals : b.finals = a.finals
  wait : b.finalsWait = a.finalsWait
  out : b.out = a.out

theorem PeerMoves.peers {s u : State} (a : PeerMoves s u) : PeersSame s.peers u.peers := by
  have e := a.eq
  generalize u.peers.ports = x at e
  generalize u.host.sent = y at e
  generalize u.meter.departTap = z at e
  subst e
  exact ⟨rfl, rfl, rfl, rfl, rfl, rfl, rfl, rfl, rfl, rfl⟩

theorem PeersSame.trans {a b c : Peers} (h : PeersSame a b) (k : PeersSame b c) : PeersSame a c :=
  ⟨k.rank.trans h.rank, k.size.trans h.size, k.windows.trans h.windows, k.rounds.trans h.rounds, k.pseqRx.trans h.pseqRx, k.landed.trans h.landed, k.landing.trans h.landing, k.finals.trans h.finals, k.wait.trans h.wait, k.out.trans h.out⟩

theorem xl_of {s v : State} (h1 : v.hbm = s.hbm) (h2 : v.disp = s.disp) (h3 : v.ctl = s.ctl) (d j va : Nat) : Machine.translate v d j va = Machine.translate s d j va := by
  unfold Machine.translate jobSlot walkTable serviceCap cfgSingleGuard cfgField
  rw [h1, h2, h3]
  have : ∀ pa n, paRead v pa n = paRead s pa n := fun pa n => paRead_of (by rw [h1]) (by rw [h1]) (by rw [h1]) (by rw [h1]) (by rw [h1]) (by rw [h1]) (by rw [h1]) pa n
  simp only [this]

theorem dxl_of {s v : State} (h1 : v.hbm = s.hbm) (h2 : v.disp = s.disp) (h3 : v.ctl = s.ctl) (d j va : Nat) (w : Bool) : descXlate v d j va w = descXlate s d j va w := by
  unfold descXlate; rw [xl_of h1 h2 h3]

theorem dxl_tr {s : State} {d j va pa leaf : Nat} {w : Bool} (h : descXlate s d j va w = .ok pa leaf) : Machine.translate s d j va = .ok pa leaf := by
  unfold descXlate at h
  cases e : Machine.translate s d j va with
  | ok p l =>
    rw [e] at h
    dsimp only at h
    by_cases c : bit l (if w = true then 2 else 1) = true
    · rw [if_pos c] at h; exact h
    · rw [if_neg c] at h; cases h
  | _ => rw [e] at h; exact h

theorem arrive_eq {s : State} {p : Nat} {d : Datagram} {se : Session} (h : PeerAccepts s p d 0x20 se) :
    ∃ v n, PeerMoves s v ∧ (∀ q, q ≠ p → peerPortOf v q = peerPortOf s q) ∧
      peerArrive s p d = sendAck (if (parsePeer (plainBody se d)).dstRank = s.peers.rank then peerAct v (parsePeer (plainBody se d)) else forwardPeer v p (parsePeer (plainBody se d)) (plainBody se d)) (.peer p) n := by
  obtain ⟨v, x, e, m, k⟩ := preceive h false
  refine ⟨v, x.num, m, k, ?_⟩
  unfold peerArrive
  rw [e]
  dsimp only
  rw [m.peers.rank]

theorem getWin_of {s v : State} (h : v.peers.windows = s.peers.windows) (w : Nat) : getWin v w = getWin s w := by unfold getWin; rw [h]

theorem getRound_of {s v : State} (h : v.peers.windows = s.peers.windows) (k : v.peers.rounds = s.peers.rounds) (w : Nat) : getRound v w = getRound s w := by unfold getRound; rw [k, getWin_of h]

theorem seen_of {s v : State} (h : v.peers.pseqRx = s.peers.pseqRx) (r n : Nat) : pseqSeen v r n = pseqSeen s r n := by unfold pseqSeen; rw [h]

structure PseqNoted (s u : State) (r n : Nat) : Prop where
  eq : u = { s with peers := { s.peers with pseqRx := u.peers.pseqRx } }

theorem np_note (s : State) (r n : Nat) : ∃ x, notePseq s r n = { s with peers := { s.peers with pseqRx := x } } := ⟨_, rfl⟩

theorem bodyBytes_length (b : PeerBody) : (bodyBytes b).length = b.data.length := by
  unfold bodyBytes; simp [numsFrom_length]

/-- The parts a received message reads, unchanged from one state to another. -/
structure PeerStateSame (s z : State) : Prop where
  hbm : z.hbm = s.hbm
  disp : z.disp = s.disp
  reins : z.reins = s.reins
  ctl : z.ctl = s.ctl
  flt : z.flt = s.flt
  now : now z = now s
  rank : z.peers.rank = s.peers.rank
  windows : z.peers.windows = s.peers.windows
  rounds : z.peers.rounds = s.peers.rounds
  landed : z.peers.pseqLanded = s.peers.pseqLanded
  landing : z.peers.landing = s.peers.landing
  finals : z.peers.finals = s.peers.finals
  wait : z.peers.finalsWait = s.peers.finalsWait
  out : z.peers.out = s.peers.out

theorem PeerMoves.zs {s v : State} (m : PeerMoves s v) : PeerStateSame s v := by
  obtain ⟨a1, a2, a3, a4, a5, a6, a7⟩ := m.rest
  have q := m.peers
  exact ⟨a2, a1, a3, a4, a5, a6, q.rank, q.windows, q.rounds, q.landed, q.landing, q.finals, q.wait, q.out⟩

theorem PeerStateSame.trans {a b c : State} (h : PeerStateSame a b) (k : PeerStateSame b c) : PeerStateSame a c :=
  ⟨k.hbm.trans h.hbm, k.disp.trans h.disp, k.reins.trans h.reins, k.ctl.trans h.ctl, k.flt.trans h.flt, k.now.trans h.now, k.rank.trans h.rank, k.windows.trans h.windows, k.rounds.trans h.rounds, k.landed.trans h.landed, k.landing.trans h.landing, k.finals.trans h.finals, k.wait.trans h.wait, k.out.trans h.out⟩

theorem zs_note (s : State) (r n : Nat) : PeerStateSame s (notePseq s r n) := ⟨rfl, rfl, rfl, rfl, rfl, rfl, rfl, rfl, rfl, rfl, rfl, rfl, rfl, rfl⟩

theorem PeerStateSame.win {s z : State} (h : PeerStateSame s z) (w : Nat) : getWin z w = getWin s w := getWin_of h.windows w

theorem PeerStateSame.round {s z : State} (h : PeerStateSame s z) (w : Nat) : getRound z w = getRound s w := getRound_of h.windows h.rounds w

theorem PeerStateSame.xl {s z : State} (h : PeerStateSame s z) (d j va : Nat) : Machine.translate z d j va = Machine.translate s d j va := xl_of h.hbm h.disp h.ctl d j va

def msgDo (z : State) (b : PeerBody) (k : Nat) : State :=
    match k with
    | 0 => actData z b
    | 1 => pseqLand (actLeaf z b) b.srcRank b.pseq (b.window % 16) false
    | 2 => pseqLand (actResult z b) b.srcRank b.pseq (b.window % 16) false
    | 4 => pseqLand (actAbortRound z b) b.srcRank b.pseq (b.window % 16) false
    | _ => z

theorem msg_eq {s : State} {p k : Nat} {d : Datagram} {se : Session} {b : PeerBody} (h : PeerMessage s p d se k b) (hk : k ≠ 3) :
    ∃ z n, PeerStateSame s z ∧ peerArrive s p d = sendAck (msgDo z b k) (.peer p) n := by
  obtain ⟨h1, h2, h3, h4, h5⟩ := h
  obtain ⟨v, n, m, _, e⟩ := arrive_eq h1
  rw [← h2, if_pos (by exact h4)] at e
  refine ⟨notePseq v b.srcRank b.pseq, n, m.zs.trans (zs_note _ _ _), e.trans ?_⟩
  have s5 : pseqSeen v b.srcRank b.pseq = false := (seen_of m.peers.pseqRx _ _).trans (h5.resolve_left hk)
  unfold peerAct
  rw [if_neg (by rw [h3]; exact hk), if_neg (by rw [s5]; decide)]
  dsimp only
  rw [h3]
  rfl

theorem fetch_parts (s : State) (n a : Nat) (e : Option Nat) : (fetchAdd s n a e).1.hbm = s.hbm ∧ (fetchAdd s n a e).1.peers = s.peers ∧ (fetchAdd s n a e).1.clock = s.clock := by
  have k := fetchAdd_keeps (M := [.disp, .reins]) (z := s) (s := s) (n := n) (a := a) (e := e) (e' := rfl) (Keeps.refl _ s) (by decide) (by decide)
  exact ⟨k.parts.same .hbm (by decide), k.parts.same .peers (by decide), k.parts.same .clock (by decide)⟩

/-- What the landing of finals leaves. -/
structure FinalsSame (s u : State) : Prop where
  hbm : u.hbm = s.hbm
  clock : u.clock = s.clock
  windows : u.peers.windows = s.peers.windows
  rounds : u.peers.rounds = s.peers.rounds
  finals : u.peers.finals = s.peers.finals
  out : u.peers.out = s.peers.out

theorem FinalsSame.trans {a b c : State} (h : FinalsSame a b) (k : FinalsSame b c) : FinalsSame a c :=
  ⟨k.hbm.trans h.hbm, k.clock.trans h.clock, k.windows.trans h.windows, k.rounds.trans h.rounds, k.finals.trans h.finals, k.out.trans h.out⟩

theorem FinalsSame.refl (s : State) : FinalsSame s s := ⟨rfl, rfl, rfl, rfl, rfl, rfl⟩

theorem af_fold (l : List (Nat × Nat × Nat)) (y : State) : FinalsSame y (l.foldl (fun s e => (fetchAdd s (getWin s e.2.1).ctr 1 none).1) y) := by
  induction l generalizing y with
  | nil => exact .refl y
  | cons e l ih =>
    rw [List.foldl_cons]
    have k := fetch_parts y (getWin y e.2.1).ctr 1 none
    exact FinalsSame.trans ⟨k.1, k.2.2, by rw [k.2.1], by rw [k.2.1], by rw [k.2.1], by rw [k.2.1]⟩ (ih _)

theorem af_finals (s : State) (r : Nat) : FinalsSame s (actFinals s r) := by
  unfold actFinals
  dsimp only
  refine FinalsSame.trans ?_ (af_fold _ _)
  exact ⟨rfl, rfl, rfl, rfl, rfl, rfl⟩

theorem af_land (s : State) (r n w : Nat) : FinalsSame s (pseqLand s r n w false) := by
  unfold pseqLand
  dsimp only
  rw [if_neg (by decide)]
  refine FinalsSame.trans ?_ (af_finals _ _)
  exact ⟨rfl, rfl, rfl, rfl, rfl, rfl⟩

theorem af_ack (s : State) (p n : Nat) : FinalsSame s (sendAck s (.peer p) n) := by
  have m := (ps_sendAck s p n).toPeerMoves
  have z := m.zs
  exact ⟨z.hbm, by rw [m.eq], z.windows, z.rounds, z.finals, z.out⟩

theorem getCtr_fetch (s : State) (n : Nat) : getCtr (fetchAdd s n 1 none).1 n = { getCtr s n with value := (getCtr s n).value + 1 } ∧ ∀ m, m ≠ n → getCtr (fetchAdd s n 1 none).1 m = getCtr s m := by
  unfold fetchAdd
  rw [if_neg (by exact Bool.false_ne_true)]
  exact ⟨getCtr_setCtrValue s n _, fun m h => getCtr_setCtrValue_other s _ h⟩

theorem ack_ctr (s : State) (p n q : Nat) : (peerPortOf (sendAck s (.peer p) n) q).ctr.ipDrop = (peerPortOf s q).ctr.ipDrop ∧ (q ≠ p → peerPortOf (sendAck s (.peer p) n) q = peerPortOf s q) := by
  unfold sendAck
  split
  · exact ⟨rfl, fun _ => rfl⟩
  · unfold sendPlain
    split
    · exact ⟨rfl, fun _ => rfl⟩
    · split
      · unfold transmit
        dsimp only
        unfold putSent
        generalize hw : (putSess s (.peer p) _) = w
        have ww : ∀ q, (peerPortOf w q).ctr = (peerPortOf s q).ctr ∧ (q ≠ p → peerPortOf w q = peerPortOf s q) := by
          intro q
          rw [← hw]
          unfold putSess
          dsimp only
          rw [port_mod]
          split
          · rename_i e; subst e; exact ⟨rfl, fun h => absurd rfl h⟩
          · exact ⟨rfl, fun _ => rfl⟩
        constructor
        · show (peerPortOf (modPeerPort _ p _) q).ctr.ipDrop = _
          rw [port_mod]
          split
          · rename_i e; subst e
            show (peerPortOf w q).ctr.ipDrop = _
            exact congrArg PortCounters.ipDrop (ww q).1
          · exact congrArg PortCounters.ipDrop (ww q).1
        · intro hq
          show (peerPortOf (modPeerPort _ p _) q) = _
          rw [port_mod, if_neg hq]
          exact (ww q).2 hq
      · exact ⟨rfl, fun _ => rfl⟩

theorem receive_ipDrop {s v : State} {p : Nat} {d : Datagram} {typ : Nat} {se : Session} {r : Rx} (h : PeerAccepts s p d typ se) (hr : receive s (.peer p) d typ true false = (v, r)) :
    (peerPortOf v p).ctr.ipDrop = (peerPortOf s p).ctr.ipDrop := by
  obtain ⟨h1, h2, h3, h4⟩ := h
  have ef : ∀ n, findSess (countRx s (.peer p)) (.peer p) n = findSess s (.peer p) n := fun n => by
    simp [findSess, countRx, modCtr, modPeerPort, peerPortOf, tblMod]
  have hc : impCheck (countRx s (.peer p)) (.peer p) d typ = 0 := by
    unfold impCheck at h2 ⊢
    rw [ef]
    exact h2
  have hs : findSess (countRx s (.peer p)) (.peer p) d.session = some se := (ef _).trans h3
  unfold receive at hr
  rw [if_neg (by simp [h1])] at hr
  dsimp only at hr
  rw [if_neg (by simp [hc]), hs] at hr
  dsimp only at hr
  rw [if_neg (by simp), if_neg (by rw [Bool.not_eq_true]; exact h4)] at hr
  have := congrArg Prod.fst hr
  dsimp only at this
  rw [← this]
  show (peerPortOf (modPeerPort (modPeerPort s p _) p _) p).ctr.ipDrop = _
  rw [port_mod, if_pos rfl]
  show (peerPortOf (modPeerPort s p _) p).ctr.ipDrop = _
  rw [port_mod, if_pos rfl]

theorem answers_msg {s : State} {t p k : Nat} {d : Datagram} {se : Session} {b : PeerBody} {c : Instr} {P : State → Prop} (h : PeerMessage (atMt s t) p d se k b) (hk : k ≠ 3)
    (hc : exec c s = .next (peerArrive (atMt s t) p d))
    (q : ∀ z n, PeerStateSame (atMt s t) z → P (sendAck (msgDo z b k) (.peer p) n)) : Answers c s P := by
  obtain ⟨z, n, hz, e⟩ := msg_eq h hk
  exact ⟨_, hc, by rw [e]; exact q z n hz⟩

theorem FinalsSame.now {s u : State} (h : FinalsSame s u) : Machine.now u = Machine.now s := by unfold Machine.now; rw [h.clock]

theorem FinalsSame.round {s u : State} (h : FinalsSame s u) (w : Nat) : getRound u w = getRound s w := getRound_of h.windows h.rounds w

theorem round_set (s : State) (w : Nat) (r : Round) : getRound (setRound s w r) w = r := by
  unfold getRound setRound; dsimp only; exact tblGet_tblSet_same _ _ _ _

theorem zs_sendPeer (s : State) (b : PeerBody) : PeerStateSame s (sendPeer s b) := (pm_sendPeer s b).zs

theorem zs_sendData (s : State) (k w d lo hi g o : Nat) (l : List (Byte × Bool)) : PeerStateSame s (sendPeerData s k w d lo hi g o l).1 :=
  PeerStateSame.trans (b := (takePseq s d).1) ⟨rfl, rfl, rfl, rfl, rfl, rfl, rfl, rfl, rfl, rfl, rfl, rfl, rfl, rfl⟩ (zs_sendPeer _ _)

theorem PeerStateSame.refl (s : State) : PeerStateSame s s := ⟨rfl, rfl, rfl, rfl, rfl, rfl, rfl, rfl, rfl, rfl, rfl, rfl, rfl, rfl⟩

theorem PeerStateSame.fold {α : Type} {s : State} {f : State → α → State} (l : List α) (hf : ∀ s a, PeerStateSame s (f s a)) : PeerStateSame s (l.foldl f s) := by
  induction l generalizing s with
  | nil => exact .refl s
  | cons a l ih => exact (hf _ _).trans ih

theorem abandon_what (s : State) (w r : Nat) (tell : Bool) : (abandonRound s w r tell).disp = (addCauses s (fun u => (getRound s w).writers.contains (u.wuId, u.epoch)) reasonPeerLost (resRank r)).disp ∧
    getRound (abandonRound s w r tell) w = { gen := (getRound s w).gen } ∧ (abandonRound s w r tell).hbm = s.hbm ∧ now (abandonRound s w r tell) = now s ∧
    (abandonRound s w r tell).peers.finalsWait = s.peers.finalsWait := by
  unfold abandonRound
  dsimp only
  generalize hy : setRound (addCauses s (fun u => (getRound s w).writers.contains (u.wuId, u.epoch)) reasonPeerLost (resRank r)) w { gen := (getRound s w).gen } = y
  have b : y.disp = (addCauses s (fun u => (getRound s w).writers.contains (u.wuId, u.epoch)) reasonPeerLost (resRank r)).disp ∧
    getRound y w = { gen := (getRound s w).gen } ∧ y.hbm = s.hbm ∧ now y = now s ∧ y.peers.finalsWait = s.peers.finalsWait := by
    rw [← hy]; exact ⟨rfl, round_set _ _ _, rfl, rfl, rfl⟩
  split
  · have k := PeerStateSame.fold (f := fun s d => (sendPeerData s 4 w d (((winRanks (getWin s w)).findIdx? (· == r)).getD 0) (((winRanks (getWin s w)).findIdx? (· == r)).getD 0 + 1) (getRound s w).gen 0 []).1) (s := y) [] (fun s d => zs_sendData _ _ _ _ _ _ _ _ _)
    have k2 : ∀ (l : List Nat) (a c g : Nat), PeerStateSame y (l.foldl (fun s d => (sendPeerData s 4 w d a c g 0 []).1) y) := fun l a c g => PeerStateSame.fold l (fun s d => zs_sendData _ _ _ _ _ _ _ _ _)
    have K := k2 ((winRanks (getWin s w)).filter fun d => d != (addCauses s (fun u => (getRound s w).writers.contains (u.wuId, u.epoch)) reasonPeerLost (resRank r)).peers.rank && (nextHop y d).isSome) (((winRanks (getWin s w)).findIdx? (· == r)).getD 0) (((winRanks (getWin s w)).findIdx? (· == r)).getD 0 + 1) (getRound s w).gen
    have hr : y.peers.rank = (addCauses s (fun u => (getRound s w).writers.contains (u.wuId, u.epoch)) reasonPeerLost (resRank r)).peers.rank := by rw [← hy]; rfl
    rw [hr]
    exact ⟨K.disp.trans b.1, (K.round w).trans b.2.1, K.hbm.trans b.2.2.1, K.now.trans b.2.2.2.1, K.wait.trans b.2.2.2.2⟩
  · exact b

theorem finals_none {s : State} {r : Nat} (h : s.peers.finalsWait = []) : actFinals s r = s := by
  unfold actFinals
  dsimp only
  rw [h]
  show ({ s with peers := { s.peers with finalsWait := [] } } : State) = s
  rw [← h]

theorem noteReady_what (s : State) : (noteGroupReady s).peers.ready = groupIsReady (noteGroupReady s) ∧ (∀ q, peerPortOf (noteGroupReady s) q = peerPortOf s q) ∧
    (noteGroupReady s).host = s.host ∧ now (noteGroupReady s) = now s ∧ (noteGroupReady s).ctl = s.ctl := by
  have gr : ∀ u : State, u.peers.routes = s.peers.routes → u.peers.size = s.peers.size → u.peers.rank = s.peers.rank → u.peers.ports = s.peers.ports → u.ctl = s.ctl → groupIsReady u = groupIsReady s := by
    intro u h1 h2 h3 h4 h5
    unfold groupIsReady portConfigured sessionOpen peerPortOf cfgGroupId cfgField
    rw [h1, h2, h3, h4, h5]
  unfold noteGroupReady
  dsimp only
  split
  · rename_i h; exact ⟨h.symm, fun _ => rfl, rfl, rfl, rfl⟩
  · generalize hq : ({ s with peers := { s.peers with ready := groupIsReady s } } : State) = q
    generalize hv : post q _ = v
    have e1 : v.peers = q.peers := by rw [← hv]; exact post_peers _ _
    have e2 : v.ctl = q.ctl := by rw [← hv]; exact post_ctl _ _
    refine ⟨?_, fun n => ?_, ?_, ?_, ?_⟩
    · rw [gr v (by rw [e1, ← hq]) (by rw [e1, ← hq]) (by rw [e1, ← hq]) (by rw [e1, ← hq]) (by rw [e2, ← hq]), e1, ← hq]
    · unfold peerPortOf; rw [e1, ← hq]
    · rw [← hv, post_host, ← hq]
    · rw [← hv, now_post, ← hq]; rfl
    · rw [e2, ← hq]

theorem groupIsReady_of {s u : State} (h1 : u.peers.routes = s.peers.routes) (h2 : u.peers.size = s.peers.size) (h3 : u.peers.rank = s.peers.rank) (h4 : ∀ q, (peerPortOf u q).session.isSome = (peerPortOf s q).session.isSome) (h5 : u.ctl = s.ctl) : groupIsReady u = groupIsReady s := by
  unfold groupIsReady portConfigured sessionOpen cfgGroupId cfgField
  rw [h1, h2, h3, h5]
  simp only [h4]

theorem PeerMoves.ready {s u : State} (m : PeerMoves s u) : groupIsReady u = groupIsReady s ∧ u.peers.ready = s.peers.ready := by
  have e := m.eq
  refine ⟨groupIsReady_of ?_ ?_ ?_ (fun q => (m.port q).some) ?_, ?_⟩ <;> rw [e]

theorem causes_port (s : State) (p r x q) : peerPortOf (addCauses s p r x) q = peerPortOf s q := rfl

theorem pm_causes_host (s : State) (p r x) : (addCauses s p r x).peers = s.peers := rfl

/-- ports with their sessions' presence, state, far ranks kept -/
structure PortsSame (s u : State) : Prop where
  port : ∀ q, PortSame (peerPortOf s q) (peerPortOf u q)

theorem PortsSame.trans {a b c : State} (h : PortsSame a b) (k : PortsSame b c) : PortsSame a c := ⟨fun q => (h.port q).trans (k.port q)⟩

theorem PortsSame.refl (a : State) : PortsSame a a := ⟨fun _ => .refl _⟩

theorem PeerMoves.pp {s u : State} (m : PeerMoves s u) : PortsSame s u := ⟨m.port⟩

theorem PortsSame.fold {α : Type} {s : State} {f : State → α → State} (l : List α) (hf : ∀ s a, PortsSame s (f s a)) : PortsSame s (l.foldl f s) := by
  induction l generalizing s with
  | nil => exact .refl s
  | cons a l ih => exact (hf _ _).trans ih

theorem pp_sendData (s : State) (k w d lo hi g o : Nat) (l : List (Byte × Bool)) : PortsSame s (sendPeerData s k w d lo hi g o l).1 :=
  PortsSame.trans (b := (takePseq s d).1) ⟨fun _ => .refl _⟩ (pm_sendPeer _ _).pp

theorem pp_abandon (s : State) (w r : Nat) (tell : Bool) : PortsSame s (abandonRound s w r tell) := by
  unfold abandonRound
  dsimp only
  split
  · refine PortsSame.trans (b := setRound (addCauses s (fun u => (getRound s w).writers.contains (u.wuId, u.epoch)) reasonPeerLost (resRank r)) w { gen := (getRound s w).gen }) ⟨fun _ => .refl _⟩ (PortsSame.fold _ ?_)
    intro s d
    exact pp_sendData _ _ _ _ _ _ _ _ _
  · exact ⟨fun _ => .refl _⟩

theorem pp_gone (s : State) (d : Nat) : PortsSame s (rankGone s d) := by
  unfold rankGone
  dsimp only
  exact PortsSame.trans (b := addCauses s (wroteToward d) reasonPeerLost (resRank d)) ⟨fun _ => .refl _⟩ (PortsSame.fold _ (fun s e => pp_abandon _ _ _ _))

theorem pp_resend (s : State) (h : Held) : PortsSame s (resend s h) := by
  unfold resend
  split
  · split
    · exact .refl s
    · exact (pm_sendSeq _ _ _ _ _ _ _).pp
  · exact .refl s

theorem drop_what (s : State) (p : Nat) : (peerPortOf (dropSession s p) p).session = none ∧ (peerPortOf (dropSession s p) p).farRank = 0xFF ∧
    (dropSession s p).peers.ready = groupIsReady (dropSession s p) := by
  obtain ⟨y, hy, k⟩ : ∃ y, dropSession s p = noteGroupReady y ∧ PortsSame (modPeerPort s p fun q => { q with session := none, farRank := 0xFF, opening := none, parts := [] }) y :=
    ⟨_, rfl, (PortsSame.fold _ pp_resend).trans (PortsSame.fold _ pp_gone)⟩
  rw [hy]
  obtain ⟨a, b, -⟩ := noteReady_what y
  have q := k.port p
  rw [port_mod, if_pos rfl] at q
  refine ⟨?_, ?_, a⟩
  · rw [b]
    have := q.some
    rw [show ({ peerPortOf s p with session := none, farRank := 255, opening := none, parts := [] } : PeerPort).session.isSome = false from rfl] at this
    exact Option.not_isSome_iff_eq_none.1 (by rw [this]; decide)
  · rw [b, q.eq]

theorem lose_port (s : State) (p : Nat) : PortLost (losePeer s p) p := by
  unfold losePeer
  dsimp only
  obtain ⟨a, b, c⟩ := drop_what (postFault s 0x0F (farRes s p) 0xFFFF) p
  generalize dropSession (postFault s 0x0F (farRes s p) 0xFFFF) p = y at a b c
  unfold PortLost
  rw [port_mod, if_pos rfl]
  refine ⟨rfl, a, b, rfl, ?_⟩
  refine (c.trans (groupIsReady_of (s := y) (u := modPeerPort y p fun q => { q with state := 1, lostSeen := true }) rfl rfl rfl (fun q => ?_) rfl).symm : _)
  rw [port_mod]
  split
  · rename_i e; subst e; rfl
  · rfl

theorem sendOpen_what (s : State) (p typ : Nat) (b : List Byte) (h : linkUp s (.peer p) = true) : (sendOpen s (.peer p) typ b).host.sent.length = s.host.sent.length + 1 ∧
    (∀ q, q ≠ p → peerPortOf (sendOpen s (.peer p) typ b) q = peerPortOf s q) ∧ (∀ q, ∃ c, peerPortOf (sendOpen s (.peer p) typ b) q = { peerPortOf s q with ctr := c }) ∧
    (∃ x, (sendOpen s (.peer p) typ b).host.sent = x :: s.host.sent) ∧ (sendOpen s (.peer p) typ b).ctl = s.ctl ∧ (sendOpen s (.peer p) typ b).free = s.free ∧ now (sendOpen s (.peer p) typ b) = now s := by
  unfold sendOpen
  rw [if_pos h]
  unfold putSent
  refine ⟨rfl, fun q hq => ?_, fun q => ?_, ⟨_, rfl⟩, rfl, rfl, rfl⟩
  · show peerPortOf (modPeerPort _ p _) q = _
    rw [port_mod, if_neg hq]; rfl
  · show ∃ c, peerPortOf (modPeerPort _ p _) q = _
    rw [port_mod]
    split
    · rename_i e; subst e; exact ⟨_, rfl⟩
    · exact ⟨_, rfl⟩

theorem hello_what (s : State) (p : Nat) : (∀ q, ∃ a b c d, peerPortOf (startHello s p) q = { peerPortOf s q with nonceOut := a, parts := b, opening := c, ctr := d }) ∧
    (startHello s p).pdk = s.pdk ∧ now (startHello s p) = now s := by
  have eq1 : startHello s p = if (isReady s && (peerPortOf s p).state == 3 && (portRanks s p).any fun d => decide (s.peers.rank < d)) = true then
      sendOpen (modPeerPort (freeBytes s 32).1 p fun q => { q with nonceOut := (freeBytes s 32).2.map (·.1), parts := [], opening := none }) (.peer p) 0x70
        (leBytes 1 0 ++ leBytes 1 s.peers.rank ++ leBytes 1 0 ++ leBytes 1 0 ++ (freeBytes s 32).2.map (·.1)) else s := rfl
  rw [eq1]
  split
  · have m := (ps_sendOpen (modPeerPort (freeBytes s 32).1 p fun q => { q with nonceOut := (freeBytes s 32).2.map (·.1), parts := [], opening := none }) p 0x70
        (leBytes 1 0 ++ leBytes 1 s.peers.rank ++ leBytes 1 0 ++ leBytes 1 0 ++ (freeBytes s 32).2.map (·.1))).toPeerMoves
    refine ⟨fun q => ?_, m.rest.2.2.2.2.2.2, m.rest.2.2.2.2.2.1⟩
    unfold sendOpen
    split
    · unfold putSent
      show ∃ a b c d, peerPortOf (modPeerPort (modHost (modPeerPort _ p _) _) p _) q = _
      rw [port_mod]
      split
      · rename_i e; subst e
        have x : ∀ f, peerPortOf (modHost (modPeerPort (freeBytes s 32).1 q fun q => { q with nonceOut := (freeBytes s 32).2.map (·.1), parts := [], opening := none }) f) q = { peerPortOf s q with nonceOut := (freeBytes s 32).2.map (·.1), parts := [], opening := none } := by
          intro f
          show peerPortOf (modPeerPort (freeBytes s 32).1 q _) q = _
          rw [port_mod, if_pos rfl]; rfl
        rw [x]
        exact ⟨_, _, _, _, rfl⟩
      · rename_i e
        show ∃ a b c d, peerPortOf (modPeerPort (freeBytes s 32).1 p _) q = _
        rw [port_mod, if_neg e]
        exact ⟨_, _, _, _, rfl⟩
    · rw [port_mod]
      split
      · rename_i e; subst e; exact ⟨_, _, _, _, rfl⟩
      · exact ⟨_, _, _, _, rfl⟩
  · exact ⟨fun q => ⟨_, _, _, _, rfl⟩, rfl, rfl⟩

theorem rx_open {s : State} {t p : Nat} {d : Datagram} {typ : Nat} (h : openCheck (atMt s t) (.peer p) d typ = 0) : openCheck (countRx (atMt s t) (.peer p)) (.peer p) d typ = 0 := h

theorem rx_port (s : State) (p : Nat) : ∃ c, peerPortOf (countRx s (.peer p)) p = { peerPortOf s p with ctr := c } := by
  show ∃ c, peerPortOf (modPeerPort s p _) p = _
  rw [port_mod, if_pos rfl]; exact ⟨_, rfl⟩

theorem sendEncap_what (z : State) (p far : Nat) (nm b rnd : List Byte) : ∃ x c body, sendEncap z p far nm b rnd =
    sendOpen (modPeerPort z p fun q => { q with opening := some (x, far, c) }) (.peer p) 0x70 body ∧ x.key = far ∧ x.enc = Config.peerEnc := by
  refine ⟨_, _, _, rfl, rfl, ?_⟩
  show (flag Config.peerEnc == 1) = Config.peerEnc
  cases Config.peerEnc <;> rfl

theorem sendOpens_what (p typ : Nat) (l : List (List Byte)) (s : State) (h : linkUp s (.peer p) = true) : (l.foldl (fun s x => sendOpen s (.peer p) typ x) s).host.sent.length = s.host.sent.length + l.length ∧
    (∀ q, ∃ c, peerPortOf (l.foldl (fun s x => sendOpen s (.peer p) typ x) s) q = { peerPortOf s q with ctr := c }) ∧ now (l.foldl (fun s x => sendOpen s (.peer p) typ x) s) = now s ∧
    (l.foldl (fun s x => sendOpen s (.peer p) typ x) s).host.genCount = s.host.genCount := by
  induction l generalizing s with
  | nil => exact ⟨rfl, fun q => ⟨_, rfl⟩, rfl, rfl⟩
  | cons b l ih =>
    rw [List.foldl_cons]
    obtain ⟨a1, -, a3, -, a5, -, a7⟩ := sendOpen_what s p typ b h
    have g : (sendOpen s (.peer p) typ b).host.genCount = s.host.genCount := by unfold sendOpen; rw [if_pos h]; rfl
    have h' : linkUp (sendOpen s (.peer p) typ b) (.peer p) = true := by
      obtain ⟨c, hc⟩ := a3 p
      have : linkUp (sendOpen s (.peer p) typ b) (.peer p) = linkUp s (.peer p) := by
        show (((sendOpen s (.peer p) typ b)).ctl.powered && decide (3 ≤ (peerPortOf (sendOpen s (.peer p) typ b) p).state) && decide ((peerPortOf (sendOpen s (.peer p) typ b) p).state ≤ 5)) = _
        rw [a5, hc]
        rfl
      rw [this, h]
    generalize sendOpen s (.peer p) typ b = z at *
    obtain ⟨b1, b2, b3, b4⟩ := ih z h'
    refine ⟨by rw [b1, a1, List.length_cons]; omega, fun q => ?_, b3.trans a7, b4.trans g⟩
    obtain ⟨c1, e1⟩ := b2 q
    obtain ⟨c2, e2⟩ := a3 q
    exact ⟨c1, by rw [e1, e2]⟩

theorem linkUp_port {s z : State} {p : Nat} (h : linkUp s (.peer p) = true) (hc : z.ctl = s.ctl) (hp : (peerPortOf z p).state = (peerPortOf s p).state) : linkUp z (.peer p) = true := by
  have : linkUp z (.peer p) = linkUp s (.peer p) := by
    show (z.ctl.powered && decide (3 ≤ (peerPortOf z p).state) && decide ((peerPortOf z p).state ≤ 5)) = _
    rw [hc, hp]; rfl
  rw [this, h]

theorem sendPlain_gen (s : State) (p n typ : Nat) (b : List Byte) (r : Bool) : (sendPlain s (.peer p) n typ b r).host.genCount = s.host.genCount ∧
    ∀ x, (peerPortOf s p).session = some x → ∃ y, (peerPortOf (sendPlain s (.peer p) n typ b r) p).session = some y ∧ y.key = x.key ∧ y.gen = x.gen ∧ y.enc = x.enc ∧ y.tagRx = x.tagRx ∧ y.tagTx = x.tagTx ∧ y.encRx = x.encRx ∧ y.encTx = x.encTx := by
  refine ⟨?_, fun x hx => ?_⟩
  · have m := (ps_sendPlain s p n typ b r).toPeerMoves.eq
    rw [m]
  · have fx : ∀ n, findSess s (.peer p) n = some x := fun _ => hx
    unfold sendPlain
    rw [fx]
    dsimp only
    split
    · unfold transmit
      dsimp only
      unfold putSent
      show ∃ y, (peerPortOf (modPeerPort (modHost (modPeerPort s p _) _) p _) p).session = some y ∧ _
      rw [port_mod, if_pos rfl]
      have : ∀ f g, peerPortOf (modHost (modPeerPort s p f) g) p = f (peerPortOf s p) := by
        intro f g; show peerPortOf (modPeerPort s p f) p = _; rw [port_mod, if_pos rfl]
      rw [this]
      show ∃ y, Option.map _ (peerPortOf s p).session = some y ∧ _
      rw [hx]
      exact ⟨_, rfl, rfl, rfl, rfl, rfl, rfl, rfl, rfl⟩
    · exact ⟨x, hx, rfl, rfl, rfl, rfl, rfl, rfl, rfl⟩

end Sys2Proof.Laws
end

