-- ==== Sys2Proof/Laws/Tickets.lean ====
section
/-! SUPPORT. What taking a ticket, a pass and a drain do: lemmas to cite in place of unfolding those operations. -/

namespace Sys2Proof.Laws

open Sys2Proof.Machine Sys2Proof.Safety

set_option maxRecDepth 30000

theorem unit_map {s : State} {wu : Nat} {f : WorkUnit → WorkUnit} (hf : ∀ u, (f u).wuId = u.wuId) (w : Nat) :
    findUnit (modUnit s wu f) w = (findUnit s w).map fun u => if u.wuId = wu then f u else u := by
  unfold findUnit modUnit
  dsimp only
  induction s.disp.units with
  | nil => rfl
  | cons a l ih =>
    rw [List.map_cons, List.find?_cons, List.find?_cons]
    have : (if a.wuId = wu then f a else a).wuId = a.wuId := by split <;> simp [hf]
    rw [this]
    split
    · rfl
    · exact ih

theorem unit_id {s : State} {w : Nat} {u : WorkUnit} (h : findUnit s w = some u) : u.wuId = w := by
  have := List.find?_some h
  simpa using this

theorem run_ref {s : State} {r : DescRef} {d : DRun} (h : findRun s r = some d) : d.ref = r := by
  unfold findRun at h
  split at h
  · cases h
  · have := List.find?_some h
    simpa using this

theorem run_mod {s : State} {r : DescRef} {d : DRun} {f : DRun → DRun} (h : findRun s r = some d) (hf : (f d).ref = r) : findRun (modRun s r f) r = some (f d) := by
  have hr := run_ref h
  unfold findRun at h ⊢
  unfold modRun
  rw [unit_map (by intro u; rfl)]
  cases hu : findUnit s r.wu with
  | none => rw [hu] at h; cases h
  | some u =>
    rw [hu] at h
    dsimp only at h
    rw [Option.map_some]
    dsimp only
    rw [if_pos (unit_id hu)]
    dsimp only
    generalize u.runs = l at h
    induction l with
    | nil => cases h
    | cons a l ih =>
      rw [List.find?_cons] at h
      rw [List.map_cons, List.find?_cons]
      by_cases e : a.ref = r
      · rw [if_pos e]
        rw [show (a.ref == r) = true from by rw [e]; exact beq_self_eq_true r] at h
        injection h with h
        subst h
        rw [show ((f a).ref == r) = true from by rw [hf]; exact beq_self_eq_true r]
      · rw [if_neg e]
        rw [show (a.ref == r) = false from by rw [beq_eq_false_iff_ne]; exact e] at h ⊢
        exact ih h

theorem run_unit {s : State} {r : DescRef} {d : DRun} {wu : Nat} {f : WorkUnit → WorkUnit} (h : findRun s r = some d) (hf : ∀ u, (f u).wuId = u.wuId ∧ (f u).runs = u.runs) : findRun (modUnit s wu f) r = some d := by
  unfold findRun at h ⊢
  rw [unit_map (fun u => (hf u).1)]
  cases hu : findUnit s r.wu with
  | none => rw [hu] at h; cases h
  | some u =>
    rw [hu] at h
    rw [Option.map_some]
    dsimp only at h ⊢
    split
    · rw [(hf u).2]; exact h
    · exact h

theorem run_disp {s u : State} (h : u.disp = s.disp) (r : DescRef) : findRun u r = findRun s r := by unfold findRun findUnit; rw [h]

theorem unit_disp {s u : State} (h : u.disp = s.disp) (r : Nat) : findUnit u r = findUnit s r := by unfold findUnit; rw [h]

theorem run_cause {s : State} {r : DescRef} {d : DRun} {wu a b : Nat} {k : List Nat} (h : findRun s r = some d) : findRun (addCauseK s wu a b k) r = some d :=
  run_unit h (fun u => ⟨rfl, rfl⟩)

theorem run_poison {s : State} {r : DescRef} {d d' : DRun} {k : Nat} {m : Mark} (h : findRun s r = some d) : findRun (poisonCause s d' k m) r = some d := by
  unfold poisonCause
  split
  · exact h
  · exact run_cause h

theorem poison_clu (s : State) (d : DRun) (k : Nat) (m : Mark) : (poisonCause s d k m).clu = s.clu := by
  unfold poisonCause; split <;> rfl

theorem run_some_unit {s : State} {r : DescRef} {d : DRun} (h : findRun s r = some d) : ∃ y, findUnit s r.wu = some y := by
  unfold findRun at h
  split at h
  · cases h
  · exact ⟨_, ‹_›⟩

theorem cause_has {s : State} {wu a b : Nat} {k : List Nat} {y : WorkUnit} (h : findUnit s wu = some y) : ∃ z, findUnit (addCauseK s wu a b k) wu = some z ∧ z.causes ≠ [] := by
  unfold addCauseK
  rw [unit_map (by intro u; rfl), h, Option.map_some, if_pos (unit_id h)]
  exact ⟨_, rfl, by simp⟩

/-- The state a take acts on. -/
def inboxRead (s : State) (t l : Nat) : State := setQueue (atMt s t) (inboxOf (physOf s l)).1 (inboxOf (physOf s l)).2 []

theorem drain_zz {s : State} {t l : Nat} (h : pdkItems s (inboxOf (physOf s l)).1 (inboxOf (physOf s l)).2 = []) :
    drainInbox (atMt s t) (physOf (atMt s t) l) = inboxRead s t l := by
  unfold drainInbox
  dsimp only
  rw [show pdkItems (atMt s t) (inboxOf (physOf (atMt s t) l)).1 (inboxOf (physOf (atMt s t) l)).2 = [] from h]
  rfl

def nextTicket (z : State) (r : DescRef) (v : Nat) : Option (DRun × Nat × Ticket) :=
  match findRun z r with
  | none => none
  | some d => match d.order[v]? with
    | none => none
    | some k => (d.tickets[k]?).map fun tk => (d, k, tk)

theorem nextT_some {z : State} {r : DescRef} {v : Nat} {d : DRun} {k : Nat} {tk : Ticket} (hd : findRun z r = some d) (hk : d.order[v]? = some k) (ht : d.tickets[k]? = some tk) : nextTicket z r v = some (d, k, tk) := by
  unfold nextTicket; rw [hd]; dsimp only; rw [hk]; dsimp only; rw [ht]; rfl

theorem nextT_none {z : State} {r : DescRef} {v : Nat} {d : DRun} (hd : findRun z r = some d) (hk : d.order[v]? = none) : nextTicket z r v = none := by
  unfold nextTicket; rw [hd]; dsimp only; rw [hk]

theorem nextT_room {z : State} {r : DescRef} {v : Nat} {d : DRun} (hd : findRun z r = some d) (hr : ∀ tk ∈ d.tickets, inboxRoom d tk = true) : ((nextTicket z r v).any fun e => !inboxRoom e.1 e.2.2) = false := by
  unfold nextTicket; rw [hd]; dsimp only
  split
  · rfl
  · rename_i k _
    cases htk : d.tickets[k]? with
    | none => rfl
    | some tk => simp [hr tk (List.mem_of_getElem? htk)]

theorem take_eq {s : State} {t l : Nat} {r : DescRef} {n : TicketNotice} (h : MayTake s l r n) : execTicketTake t l r s =
     (let z := inboxRead s t l
      let v := (getCtr z (takeCtr n.pair)).value.toNat
       let next := nextTicket z r v
       if next.any fun e => !inboxRoom e.1 e.2.2 then .next z
        else
          match fetchAdd z (takeCtr n.pair) 1 (some n.epoch), next with
          | (s, some _), some (d, k, tk) => .next (takeTicket s d l v k tk)
          | (s, _), _ => .next (stopTaking s (physOf z l) r)) := by
  obtain ⟨h1, h2, h3, h4, h5, h6, h7⟩ := h
  unfold execTicketTake
  dsimp only
  rw [drain_zz h4, show served (atMt s t) l = true from h1, show (getClu (atMt s t) (physOf (atMt s t) l)).halter = false from h2,
    show (getClu (atMt s t) (physOf (atMt s t) l)).power = .active from h3]
  rw [show getClu (inboxRead s t l) (physOf (atMt s t) l) = getClu s (physOf s l) from rfl, h5]
  rw [if_neg (by decide)]
  dsimp only
  rw [h6, show takesFrom (inboxRead s t l) (getClu s (physOf s l)) r = true from h7, if_neg (by decide)]
  rfl

theorem fetch_ok {z : State} {n e : Nat} (h : e % 256 = (getCtr z n).epoch) : fetchAdd z n 1 (some e) = (setCtrValue z n ((getCtr z n).value + 1), some (getCtr z n).value.toNat) := by
  unfold fetchAdd
  rw [if_neg (by unfold refusedEpoch; simp [h])]
  rfl

theorem fetch_no {z : State} {n e : Nat} (h : e % 256 ≠ (getCtr z n).epoch) : fetchAdd z n 1 (some e) = (z, none) := by
  unfold fetchAdd
  rw [if_pos (by unfold refusedEpoch; simp [h])]

theorem run_wait {s : State} {n : Nat} {v : Word} (h : ∀ w ∈ s.reins.waits, w.ctr ≠ n) : (setCtrValue s n v).disp = s.disp ∧ (setCtrValue s n v).clu = s.clu := by
  unfold setCtrValue answerWaits
  dsimp only
  rw [show ((modReins s fun r => { r with counters := tblMod {} r.counters n fun c => { c with value := v } }).reins.waits.filter fun w => w.ctr == n && waitHolds w (getCtr (modReins s fun r => { r with counters := tblMod {} r.counters n fun c => { c with value := v } }) n).value) = [] from by
    rw [List.filter_eq_nil_iff]; intro w hw; simp [h w hw]]
  exact ⟨rfl, rfl⟩

theorem trace_disp_run (s : State) (k l : Nat) (d : DRun) (n : Nat) (b : List Byte) : (traceTicket s k l d n b).disp = s.disp ∧ (traceTicket s k l d n b).clu = s.clu := by
  have k := traceTicket_keeps (M := [.pdk]) (kind := k) (l := l) (d := d) (number := n) (data := b) (Keeps.refl _ s) (by decide)
  exact ⟨k.parts.same .disp (by decide), k.parts.same .clu (by decide)⟩

/-- A unit's run still there, its tile rooted. -/
def Rooted (r : DescRef) (tile : Nat) (s : State) : Prop := ∃ d, findRun s r = some d ∧ tile ∈ d.rooted

theorem rk_disp {r : DescRef} {tile : Nat} {s u : State} (h : Rooted r tile s) (e : u.disp = s.disp) : Rooted r tile u := by
  obtain ⟨d, h1, h2⟩ := h
  exact ⟨d, (run_disp e r).trans h1, h2⟩

theorem rk_mod {r : DescRef} {tile : Nat} {s : State} {f : DRun → DRun} (h : Rooted r tile s) (hf : ∀ d, (f d).ref = d.ref ∧ (f d).rooted = d.rooted) : Rooted r tile (modRun s r f) := by
  obtain ⟨d, h1, h2⟩ := h
  exact ⟨f d, run_mod h1 ((hf d).1.trans (run_ref h1)), by rw [(hf d).2]; exact h2⟩

theorem emitRows_disp (s : State) (r : DescRef) (o : OutSite) (tv : TView) (rows : List OutRow) : (emitRows s r o tv rows).disp = s.disp :=
  (emitRows_keeps (M := [.clu]) (Keeps.refl _ s) (by decide)).parts.same .disp (by decide)

theorem emitImage_disp (s : State) (d : DRun) (tv : TView) (x) : (emitImage s d tv x).disp = s.disp :=
  (emitImage_keeps (M := [.clu]) (Keeps.refl _ s) (by decide)).parts.same .disp (by decide)

theorem rk_last {tile : Nat} {s : State} {d : DRun} (h : Rooted d.ref tile s) : Rooted d.ref tile (lastTile s d) := by
  have hput : ∀ (slot : Nat) (y : State), Rooted d.ref tile y → Rooted d.ref tile (match ten d slot with
    | none => y
    | some tv =>
      let l := d.held.filter fun v => v.slot == slot
      if l.isEmpty then y else emitRows y d.ref { engine := d.members.headD 0, home := d.members.headD 0 } tv (heldRows tv l)) := by
    intro slot y hy
    split
    · exact hy
    · dsimp only
      split
      · exact hy
      · exact rk_disp hy (emitRows_disp _ _ _ _ _)
  have hfl : Rooted d.ref tile (flushOutputs s d) := rk_mod (hput 7 _ (hput 6 _ (hput 2 _ h))) (fun d => ⟨rfl, rfl⟩)
  unfold lastTile
  dsimp only
  generalize flushOutputs s d = y at hfl
  repeat' first | exact hfl | exact rk_disp hfl (emitImage_disp _ _ _ _) | split

theorem rk_close {s : State} {r : DescRef} {tile : Nat} {d : DRun} (h : findRun s r = some d) : Rooted r tile (closeTile s r tile) := by
  unfold closeTile
  dsimp only
  generalize hf : (fun x : DRun => ({ x with rooted := addOnce x.rooted tile, trees := x.trees.filter fun e => e.tile != tile } : DRun)) = f
  have hfd : (f d).ref = d.ref ∧ (f d).rooted = addOnce d.rooted tile := by rw [← hf]; exact ⟨rfl, rfl⟩
  have h1 : findRun (modRun s r f) r = some (f d) := run_mod h (hfd.1.trans (run_ref h))
  have hm : tile ∈ (f d).rooted := by
    rw [hfd.2]
    unfold addOnce
    by_cases hc : d.rooted.contains tile = true
    · rw [if_pos hc]; simpa using hc
    · rw [if_neg hc]; simp
  generalize modRun s r f = y at h1
  generalize f d = d1 at h1 hm
  rw [h1]
  dsimp only
  split
  · have hr := run_ref h1
    subst hr
    exact rk_last ⟨_, h1, hm⟩
  · exact ⟨_, h1, hm⟩

/-- A run is there. -/
def HasRun (r : DescRef) (s : State) : Prop := ∃ d, findRun s r = some d

theorem ex_disp {r : DescRef} {s u : State} (h : HasRun r s) (e : u.disp = s.disp) : HasRun r u := ⟨_, (run_disp e r).trans h.choose_spec⟩

theorem ex_mod {r : DescRef} {s : State} {f : DRun → DRun} (h : HasRun r s) (hf : ∀ d, (f d).ref = d.ref) : HasRun r (modRun s r f) := by
  obtain ⟨d, h1⟩ := h
  exact ⟨f d, run_mod h1 ((hf d).trans (run_ref h1))⟩

theorem ex_put {s : State} {d : DRun} {o : OutSite} {tile slot : Nat} {rows : List OutRow} (h : HasRun d.ref s) : HasRun d.ref (putRows s d o tile slot rows) := by
  unfold putRows
  split
  · exact h
  · dsimp only
    split
    · exact ex_mod h (fun d => rfl)
    · exact ex_disp h (emitRows_disp _ _ _ _ _)

theorem tile_head {d : DRun} {tile : Nat} {e : Nat × Ticket} (h : (tileRun d tile).head? = some e) : e.2.tile = tile := by
  have := List.mem_of_mem_head? h
  unfold tileRun at this
  have := (List.mem_filter.mp this).2
  simpa using this

theorem ex_ite {r : DescRef} {b : Prop} [Decidable b] {s u : State} (h : HasRun r s) (g : HasRun r u) : HasRun r (if b then s else u) := by
  split
  · exact h
  · exact g

theorem rk_close' {s : State} {r : DescRef} {tile : Nat} (h : HasRun r s) : Rooted r tile (closeTile s r tile) := rk_close h.choose_spec

theorem emitBits_disp (s : State) (r o tv x) : (emitBits s r o tv x).disp = s.disp :=
  (emitBits_keeps (M := [.clu]) (Keeps.refl _ s) (by decide)).parts.same .disp (by decide)

theorem ex_stats {s : State} {d : DRun} {o : OutSite} {m0 : Nat} {l} (h : HasRun d.ref s) : HasRun d.ref (emitStats s d o m0 l) := by
  have hput : ∀ (slot : Nat) (f : F32 × F32 → F32) (y : State), HasRun d.ref y → HasRun d.ref (match ten d slot with
    | none => y
    | some tv =>
      let rows := (numsFrom m0 l.length).zip l
      if aliases tv.sizes tv.strides && d.tiles != 0 then
        modRun y d.ref fun x => { x with held := x.held ++ rows.map fun e =>
          { tile := 0, slot := slot, idx := [e.1], v := .num (f32Num (f e.2.1)), bad := e.2.2 } }
      else
        emitBits y d.ref o tv (rows.map fun e =>
          { off := 32 * denseOff tv.strides [e.1], w := 32, v := (f e.2.1).toNat, bad := e.2.2 })) := by
    intro slot f y hy
    split
    · exact hy
    · dsimp only
      split
      · exact ex_mod hy (fun d => rfl)
      · exact ex_disp hy (emitBits_disp _ _ _ _ _)
  exact hput 7 _ _ (hput 6 _ _ h)

theorem ex_note {s : State} {d : DRun} {b rho sigma m0 : Nat} {l} (h : HasRun d.ref s) : HasRun d.ref (noteStats s d b rho sigma m0 l) := by
  unfold noteStats
  dsimp only
  split
  · exact ex_mod h (fun d => rfl)
  · split
    · exact ex_mod h (fun d => rfl)
    · exact ex_stats (ex_mod h (fun d => rfl))

theorem rk_finish {s : State} {d : DRun} {l tile : Nat} {vals bads} (h : HasRun d.ref s) (hp : pathOpen d tile) : Rooted d.ref tile (finishTile s d l tile vals bads) := by
  obtain ⟨h1, h2⟩ := hp
  unfold finishTile
  cases hh : (tileRun d tile).head? with
  | none => exact absurd hh h1
  | some e =>
    obtain ⟨rank, tk⟩ := e
    have ht : tk.tile = tile := tile_head hh
    dsimp only
    by_cases hop : d.op = 0x10
    · rw [if_pos hop]
      refine rk_close' ?_
      repeat' first | exact h | refine ex_ite ?_ ?_ | refine ex_put ?_ | refine ex_mod ?_ (fun d => rfl)
    · rw [if_neg hop]
      obtain ⟨hc, hy⟩ := h2.resolve_left hop
      have ha : ∀ idx vs, addC s (memberSite s l) d tk idx vs = .ok (vs, none) := by
        intro idx vs; unfold addC; rw [hc]
      rw [ha]
      dsimp only
      rw [show poisonCause s d rank none = s from rfl]
      unfold pathRows
      cases ht2 : ten d 2 with
      | none => rw [ht2] at hy; cases hy
      | some yv =>
        dsimp only
        rw [ht]
        refine rk_close' ?_
        repeat' first | exact h | refine ex_put ?_ | refine ex_note ?_ | refine ex_ite ?_ ?_ | refine ex_mod ?_ (fun d => rfl)

theorem drain_y {s : State} {b : Prop} [Decidable b] {r : DescRef} {d : DRun} {f : DRun → DRun} (h : findRun s r = some d) (hf : (f d).ref = r) : findRun (if b then modRun s r f else s) r = some (if b then f d else d) := by
  split
  · exact run_mod h hf
  · exact h

def treeEnd (s : State) (r : DescRef) (h tile : Nat) (e : TreeEntry) : State :=
  match findRun s r with | some d => finishTile s d h tile e.vals e.bad | none => s

end Sys2Proof.Laws
end

