-- ==== Sys2Proof/Laws/Issue.lean ====
section
/-! SUPPORT. What the issue of a descriptor leaves of its unit: lemmas to cite in place of unfolding those operations. -/

namespace Sys2Proof.Laws

open Sys2Proof.Machine Sys2Proof.Safety

set_option maxRecDepth 30000

theorem ok_ite {b : Prop} [Decidable b] {x e : DRun} {w : Why} (h : (if b then Except.ok x else .error w) = .ok e) : x = e := by
  split at h
  · injection h
  · cases h

def SameRaw (d e : DRun) : Prop := e.raw = d.raw ∧ e.op = d.op ∧ e.ref = d.ref

theorem SameRaw.refl (d : DRun) : SameRaw d d := ⟨rfl, rfl, rfl⟩

theorem s3_set {d e : DRun} {i f} (h : SameRaw d e) : SameRaw d (setTen e i f) := h

theorem s3_ite {d e f : DRun} {b : Prop} [Decidable b] (h : SameRaw d e) (g : SameRaw d f) : SameRaw d (if b then e else f) := by split <;> assumption

theorem s3_product {d e : DRun} (h : shapeProduct d = .ok e) : SameRaw d e := by
  unfold shapeProduct at h
  split at h
  · dsimp only at h
    split at h
    · cases h
    · replace h := ok_ite h
      rw [← h]
      repeat' first | exact ⟨rfl, rfl, rfl⟩ | refine s3_ite ?_ ?_ | refine s3_set ?_
  · cases h

theorem s3_spadd {d e : DRun} (h : shapeSpadd d = .ok e) : SameRaw d e := by
  unfold shapeSpadd at h
  split at h
  · dsimp only at h
    replace h := ok_ite h
    rw [← h]
    exact ⟨rfl, rfl, rfl⟩
  · cases h

theorem s3_scan {s : State} {site : Site} {d e : DRun} (h : shapeRowScan s site d = .ok e) : SameRaw d e := by
  unfold shapeRowScan at h
  split at h
  · dsimp only at h
    split at h
    · cases h
    · replace h := ok_ite h
      rw [← h]
      exact ⟨rfl, rfl, rfl⟩
  · cases h

theorem s3_route {d e : DRun} (h : shapeRoute d = .ok e) : SameRaw d e := by
  unfold shapeRoute at h
  split at h
  · dsimp only at h
    replace h := ok_ite h
    rw [← h]
    exact ⟨rfl, rfl, rfl⟩
  · cases h

theorem s3_reduce {d e : DRun} (h : shapeReduce d = .ok e) : SameRaw d e := by
  unfold shapeReduce at h
  split at h
  · dsimp only at h
    replace h := ok_ite h
    rw [← h]
    exact ⟨rfl, rfl, rfl⟩
  · cases h

theorem s3_rows {d e : DRun} (h : shapeRows d = .ok e) : SameRaw d e := by
  unfold shapeRows at h
  split at h
  · dsimp only at h
    replace h := ok_ite h
    rw [← h]
    repeat' first | exact ⟨rfl, rfl, rfl⟩ | refine s3_ite ?_ ?_ | refine s3_set ?_
  · cases h

theorem s3_convert {d e : DRun} (h : shapeConvert d = .ok e) : SameRaw d e := by
  unfold shapeConvert at h
  split at h
  · dsimp only at h
    generalize Option.bind _ _ = blk at h
    generalize hq : setTen _ _ _ = q at h
    have hs : SameRaw d q := by rw [← hq]; exact ⟨rfl, rfl, rfl⟩
    replace h := ok_ite h
    rw [← h]
    exact hs
  · cases h

theorem s3_transpose {d e : DRun} (h : shapeTranspose d = .ok e) : SameRaw d e := by
  unfold shapeTranspose at h
  split at h
  · dsimp only at h
    replace h := ok_ite h
    rw [← h]
    exact ⟨rfl, rfl, rfl⟩
  · cases h

theorem s3_copy {d e : DRun} (h : shapeCopy d = .ok e) : SameRaw d e := by
  unfold shapeCopy at h
  split at h
  · dsimp only at h
    replace h := ok_ite h
    rw [← h]
    exact ⟨rfl, rfl, rfl⟩
  · cases h

theorem s3_fill {d e : DRun} (h : shapeFill d = .ok e) : SameRaw d e := by
  unfold shapeFill at h
  split at h
  · try dsimp only at h
    replace h := ok_ite h
    rw [← h]
    exact ⟨rfl, rfl, rfl⟩
  · cases h

theorem s3_shape {s : State} {site : Site} {d e : DRun} (h : shapeOf s site d = .ok e) : SameRaw d e := by
  unfold shapeOf at h
  split at h
  all_goals first | exact s3_product h | exact s3_spadd h | exact s3_scan h | exact s3_route h | exact s3_reduce h | exact s3_rows h | exact s3_convert h | exact s3_transpose h | exact s3_copy h | exact s3_fill h | skip
  cases h; exact SameRaw.refl _

theorem s3_plan {s : State} {job : Nat} {d e : DRun} (h : withPlan s job d = .ok e) : SameRaw d e := by
  unfold withPlan at h
  dsimp only at h
  split at h
  · cases h
  · split at h
    · cases h
    · injection h with h
      rw [← h]
      exact ⟨rfl, rfl, rfl⟩

theorem issue_s3 {s : State} {u : WorkUnit} {r : DescRef} {raw : List Byte} {d : DRun} (h : issueRun s u r raw = .ok d) : d.raw = raw ∧ d.op = dOp raw ∧ d.ref = r := by
  unfold issueRun at h
  split at h
  · cases h
  split at h
  · cases h
  dsimp only at h
  split at h
  · cases h
  split at h
  · cases h
  split at h
  · cases h
  rename_i h1
  split at h
  · cases h
  have a := s3_shape h1
  split at h
  · obtain ⟨b1, b2, b3⟩ := s3_plan h
    exact ⟨b1.trans a.1, b2.trans a.2.1, b3.trans a.2.2⟩
  · injection h with h
    rw [← h]
    exact a

/-- A unit's core kept. -/
def SameCore (wu : Nat) (a b : State) : Prop := (findUnit b wu).map unitCore = (findUnit a wu).map unitCore

theorem SameCore.refl {wu} (a : State) : SameCore wu a a := rfl

theorem SameCore.trans {wu} {a b c : State} (h : SameCore wu a b) (g : SameCore wu b c) : SameCore wu a c := Eq.trans g h

theorem cr_disp {wu} {a b c : State} (h : SameCore wu a b) (e : c.disp = b.disp) : SameCore wu a c := by
  unfold SameCore at *; rw [unit_disp e]; exact h

theorem cr_unit {wu w : Nat} {a b : State} {f : WorkUnit → WorkUnit} (h : SameCore wu a b) (hf : ∀ u, (f u).wuId = u.wuId ∧ unitCore (f u) = unitCore u) : SameCore wu a (modUnit b w f) := by
  unfold SameCore at *
  rw [unit_map (fun u => (hf u).1), ← h, Option.map_map]
  congr 1
  funext u
  show unitCore (if _ then _ else _) = _
  split
  · exact (hf u).2
  · rfl

theorem cr_mod {wu : Nat} {a b : State} {r : DescRef} {f : DRun → DRun} (h : SameCore wu a b) (hf : ∀ d, runCore (f d) = runCore d) : SameCore wu a (modRun b r f) := by
  refine cr_unit h fun u => ⟨rfl, ?_⟩
  unfold unitCore
  dsimp only
  rw [List.map_map]
  congr 1
  apply List.map_congr_left
  intro d _
  show runCore (if _ then _ else _) = _
  split
  · exact hf d
  · rfl

theorem cr_cause {wu w x y : Nat} {k} {a b : State} (h : SameCore wu a b) : SameCore wu a (addCauseK b w x y k) := cr_unit h fun u => ⟨rfl, rfl⟩

theorem cr_fold {wu : Nat} {α : Type} {a b : State} {f : State → α → State} {l : List α} (h : SameCore wu a b) (hf : ∀ u x, SameCore wu a u → SameCore wu a (f u x)) : SameCore wu a (l.foldl f b) := by
  induction l generalizing b with
  | nil => exact h
  | cons x l ih => exact ih (hf b x h)

theorem cr_mark {wu w : Nat} {a b : State} {d : DRun} (h : SameCore wu a b) : SameCore wu a (markOverlaps b w d) := by
  unfold markOverlaps
  dsimp only
  have hs : SameCore wu a (if selfOverlap d = true then modRun b d.ref fun x => { x with clashOut := x.clashOut ++ ((numsFrom 0 8).filter fun i => !((outSlots d).contains i)).filterMap (ten d), clashIn := x.clashIn ++ outViews d } else b) := by
    split
    · exact cr_mod h (fun d => rfl)
    · exact h
  split
  · exact hs
  · exact cr_fold hs fun u x hu => cr_mod (cr_mod hu (fun d => rfl)) (fun d => rfl)

theorem cr_answer {wu : Nat} {a b : State} {w : Wait} {v : Option Nat} (h : SameCore wu a b) : SameCore wu a (answerWait b w v) := by
  unfold answerWait
  dsimp only
  have hr : SameCore wu a (respond b w.req w.ctr v none (now b + ctrLatency w.req w.ctr)) := cr_disp h rfl
  split
  · exact hr
  · split
    · exact cr_mod hr (fun d => rfl)
    · exact cr_cause (cr_mod hr (fun d => rfl))

theorem cr_set {wu : Nat} {a b : State} {n : Nat} {v : Word} (h : SameCore wu a b) : SameCore wu a (setCtrValue b n v) := by
  unfold setCtrValue answerWaits
  dsimp only
  refine cr_fold ?_ fun u x hu => cr_answer hu
  exact cr_disp h rfl

theorem cr_fetch {wu : Nat} {a b : State} {n v : Nat} {e : Option Nat} (h : SameCore wu a b) : SameCore wu a (fetchAdd b n v e).1 := by
  unfold fetchAdd
  split
  · exact h
  · exact cr_set h

theorem cr_arrive {wu : Nat} {a b : State} {n p : Nat} {v : Arrival} (h : SameCore wu a b) : SameCore wu a (arriveBarrier b n p v).1 := by
  unfold arriveBarrier
  dsimp only
  split
  · exact h
  · split
    · refine cr_fold (cr_disp h rfl) fun u x hu => ?_
      split
      · exact hu
      · exact cr_mod hu (fun d => rfl)
    · exact cr_disp h rfl

theorem cr_sync {wu : Nat} {a b : State} {d : DRun} (h : SameCore wu a b) : SameCore wu a (actSync b d) := by
  unfold actSync
  dsimp only
  have h0 : SameCore wu a (modRun b d.ref fun x => { x with phase := 1 }) := cr_mod h (fun d => rfl)
  split
  · have k := cr_fetch (n := dCounter d.raw) (v := bits (dParam0 d.raw) 31 0) (e := some d.pairEpoch) h0
    split
    · rename_i e; rw [e] at k; exact k
    · rename_i e; rw [e] at k; exact cr_cause k
  · have k := cr_arrive (n := dBarrier d.raw) (p := dParam0 d.raw) (v := { req := 549, ref := some d.ref }) (cr_mod (r := d.ref) (f := fun x => { x with waiting := true }) h0 (fun d => rfl))
    split
    · rename_i e; rw [e] at k; exact k
    · rename_i e; rw [e] at k; exact cr_cause (cr_mod k (fun d => rfl))

theorem cr_stats {wu : Nat} {a b : State} {d : DRun} {o : OutSite} {m0 : Nat} {l} (h : SameCore wu a b) : SameCore wu a (emitStats b d o m0 l) := by
  have hput : ∀ (slot : Nat) (f : F32 × F32 → F32) (y : State), SameCore wu a y → SameCore wu a (match ten d slot with
    | none => y
    | some tv =>
      let rows := (numsFrom m0 l.length).zip l
      if aliases tv.sizes tv.strides && d.tiles != 0 then
        modRun y d.ref fun x => { x with held := x.held ++ rows.map fun e =>
          { tile := 0, slot := slot, idx := [e.1], v := .num (f32Num (f e.2.1)), bad := e.2.2 } }
      else
        emitBits y d.ref o tv (rows.map fun e =>
          { off := 32 * denseOff tv.strides [e.1], w := 32, v := (f e.2.1).toNat, bad := e.2.2 })) := by
    intro slot f y hy
    split
    · exact hy
    · dsimp only
      split
      · exact cr_mod hy (fun d => rfl)
      · exact cr_disp hy (emitBits_disp _ _ _ _ _)
  exact hput 7 _ _ (hput 6 _ _ h)

theorem cr_pre {wu : Nat} {a b : State} {d : DRun} {x y : TView} {l : Nat} (h : SameCore wu a b) : SameCore wu a (preloadInto b d x y l) := by
  unfold preloadInto issueCause
  dsimp only
  split
  · split
    · exact cr_cause h
    · split
      · exact cr_disp h (emitRows_disp _ _ _ _ _)
      · exact cr_cause (cr_disp h (emitRows_disp _ _ _ _ _))
  · split
    · exact h
    · split
      · exact cr_cause h
      · refine cr_fold h fun u e hu => ?_
        split
        · split
          · exact cr_cause hu
          · split
            · exact cr_disp hu rfl
            · exact cr_cause (cr_disp hu rfl)
        · exact cr_disp hu rfl

theorem cr_effect {wu w : Nat} {a b : State} {d : DRun} (h : SameCore wu a b) : SameCore wu a (issueEffect b w d) := by
  unfold issueEffect
  split
  · split
    · split
      · exact cr_sync h
      · exact h
    · exact h
  · split
    · split
      · exact cr_sync h
      · exact h
    · exact h
  · unfold issueWait
    dsimp only
    split
    · exact h
    · exact cr_disp (cr_mod (r := d.ref) (f := fun x => { x with waiting := true }) h (fun d => rfl)) rfl
  · split
    · split
      · exact h
      · exact cr_fold h fun u e hu => cr_pre hu
    · exact h
  · unfold emptyStats
    split
    · exact cr_fold h fun u e hu => cr_stats hu
    · exact h

theorem placed {s : State} {x : WorkUnit} {d : DRun} {n wu : Nat} (h : findUnit s wu = some x) : findUnit (placeRun s x d n) wu = some { advanceUnit x d.raw n with runs := x.runs ++ [d], mtIssue := some (x.mtIssue.getD (now s)), fwVersion := if x.mtIssue.isNone then s.ctl.fwVersion else x.fwVersion } := by
  have hw := unit_id h
  have hadv : ∀ y : WorkUnit, (advanceUnit y d.raw n).runs = y.runs ∧ (advanceUnit y d.raw n).mtIssue = y.mtIssue ∧ (advanceUnit y d.raw n).fwVersion = y.fwVersion ∧ (advanceUnit y d.raw n).wuId = y.wuId := by
    intro y
    unfold advanceUnit
    repeat' first | exact ⟨rfl, rfl, rfl, rfl⟩ | split
  have e : findUnit (placeRun s x d n) wu = findUnit (modUnit s x.wuId fun u =>
    let u := advanceUnit u d.raw n
    { u with runs := u.runs ++ [d], mtIssue := some (u.mtIssue.getD (now s)),
             fwVersion := if x.mtIssue.isNone then s.ctl.fwVersion else u.fwVersion }) wu := by
    unfold placeRun
    dsimp only
    rw [unit_disp ((trace_keeps (M := [.pdk]) (Keeps.refl _ _) (by decide)).parts.same .disp (by decide))]
    split
    · exact unit_disp ((postFrom_keeps (M := [.pdk]) (Keeps.refl _ _) (by decide)).parts.same .disp (by decide)) wu
    · rfl
  rw [e, unit_map (by intro u; exact (hadv u).2.2.2), h, Option.map_some, if_pos rfl]
  dsimp only
  rw [(hadv x).1, (hadv x).2.1, (hadv x).2.2.1]

theorem issue_exec {c : Instr} {t wu op : Nat} (h : issueOp c = some (t, wu, op)) (s : State) : exec c s = .next (issueNext (atMt s t) wu op) := by
  cases c <;> (first | (simp only [issueOp, Option.some.injEq, Prod.mk.injEq] at h; obtain ⟨rfl, rfl, rfl⟩ := h; rfl) | cases h)

theorem issue_eq {s : State} {t wu op : Nat} {x : WorkUnit} {d : DRun} {n : Nat} (h : Issues s t wu op x d n) :
    let d' := { d with pairEpoch := if d.op = 0x21 then (getCtr s (dCounter (nextRaw x))).epoch else 0 }
    issueNext (atMt s t) wu op = issueEffect (markOverlaps (placeRun (atMt s t) x d' n) wu d') wu d' := by
  obtain ⟨h1, h2, h3, h4, h5⟩ := h
  have hs := issue_s3 h3
  unfold issueNext
  rw [show findUnit (atMt s t) wu = some x from h1]
  dsimp only
  rw [if_neg (by rw [h2]; exact Bool.noConfusion), h3]
  dsimp only
  rw [h4, if_neg (by decide)]
  unfold issueLimit at h5
  rw [hs.2.1, h5]
  rfl

theorem now_same {a b : State} (h : b.clock = a.clock) : now b = now a := congrArg Clock.mt h

theorem mark_reins (s : State) (wu : Nat) (x : WorkUnit) (d : DRun) (n : Nat) : (markOverlaps (placeRun s x d n) wu d).reins = s.reins := by
  have k1 := placeRun_keeps (M := [.disp, .pdk]) (u := x) (d := d) (limit := n) (Keeps.refl _ s) (by decide) (by decide)
  have k2 := markOverlaps_keeps (M := [.disp]) (wu := wu) (d := d) (Keeps.refl _ (placeRun s x d n)) (by decide)
  exact (k2.parts.same .reins (by decide)).trans (k1.parts.same .reins (by decide))

theorem earlier_core (l : List DRun) (r : DescRef) : ((l.takeWhile fun d => d.ref != r).all (·.complete)) = (((l.map runCore).takeWhile fun d => d.ref != r).all (·.complete)) := by
  induction l with
  | nil => rfl
  | cons a l ih =>
    rw [List.map_cons, List.takeWhile_cons, List.takeWhile_cons]
    rw [show (runCore a).ref = a.ref from rfl]
    split
    · rw [List.all_cons, List.all_cons, ih]; rfl
    · rfl

theorem earlier_ok {l : List DRun} {d : DRun} (h : l.all (·.complete) = true) : (((l ++ [d]).takeWhile fun x => x.ref != d.ref).all (·.complete)) = true := by
  induction l with
  | nil => simp
  | cons a l ih =>
    rw [List.all_cons, Bool.and_eq_true] at h
    rw [List.cons_append, List.takeWhile_cons]
    split
    · rw [List.all_cons, h.1, ih h.2]; rfl
    · rfl

theorem early {s : State} {t wu op : Nat} {x : WorkUnit} {d d' : DRun} {n : Nat} (hi : Issues s t wu op x d n) (h : x.runs.all (·.complete) = true) :
    ∃ y, findUnit (markOverlaps (placeRun (atMt s t) x d' n) wu d') wu = some y ∧ earlierDone y d'.ref = true := by
  have hp := placed (d := d') (n := n) (show findUnit (atMt s t) wu = some x from hi.1)
  have hcr : SameCore wu (placeRun (atMt s t) x d' n) (markOverlaps (placeRun (atMt s t) x d' n) wu d') := cr_mark (SameCore.refl _)
  unfold SameCore at hcr
  rw [hp] at hcr
  generalize findUnit (markOverlaps _ _ _) wu = q at hcr
  cases q with
  | none => cases hcr
  | some y =>
    injection hcr with hcr
    refine ⟨y, rfl, ?_⟩
    unfold earlierDone
    have : y.runs.map runCore = (x.runs ++ [d']).map runCore := congrArg WorkUnit.runs hcr
    rw [earlier_core, this, ← earlier_core]
    exact earlier_ok h

end Sys2Proof.Laws
end

