-- ==== Sys2Proof/Tests/Slice0.lean ====
section
/-! SUPPORT. Tests: terms that the well-formedness checks refuse, single steps whose results are worked out by hand
from the spec, and for each statement a theorem that its hypotheses can be met, clause by clause. -/

namespace Sys2Proof.Tests

set_option Elab.async false

open Sys2Proof Sys2Proof.Machine Sys2Proof.Safety

/-! ## Small states -/

/-- A configuration: developer mode, both addresses of the host port, a group identifier and owner key 0. -/
def smallCfg : Cells := [(0x80, 1), (0xB0, 10), (0xC0, 0x20), (0xF0, 5), (0x1000, 1)]

/-- Session 1 of the host port under generation 7, not encrypted. -/
def sess1 : Session := { num := 1, gen := 7, key := 0, enc := false }

/-- A READY module with its host port up and PTP locked. -/
def readyS : State :=
  { State.reset with
    ctl := { State.reset.ctl with powered := true, modState := .ready, step := 9, cfg := smallCfg }
    host := { State.reset.host with down := false }
    clock := { mt := 0, ptp := 1 } }

/-- The same with session 1 open and the bridle vacant. -/
def vacantS : State := { readyS with host := { readyS.host with sessions := [sess1] } }

/-- The same with session 1 the owner. -/
def ownedS : State := { vacantS with host := { vacantS.host with owner := some (1, 7), leaseEnd := 100 } }

/-- A state with its host port changed. -/
def onHost (s : State) (f : HostPort → HostPort) : State := { s with host := f s.host }

/-- A state with one cluster changed. -/
def onClu (s : State) (p : Nat) (f : Cluster → Cluster) : State := setClu s p (f (getClu s p))

/-- A datagram of session 1 that carries a body, with the tag its key gives it. -/
def dgram (typ : Nat) (body : List Byte) : Datagram :=
  let d : Datagram :=
    { version := 1, typ := typ, enc := false, repeatBit := false, response := false, peer := false, reserved := 0, session := 1
      gen := 7, seq := 1, low := 0, mt := 0, xmit := 1, body := body, tag := [] }
  { d with tag := Config.kmac256 16 [] (dgHeader d ++ body) "IMP" }

/-- A datagram outside any session, with the tag of R324. -/
def openDgram (peer : Bool) (typ : Nat) (body : List Byte) : Datagram :=
  let d : Datagram :=
    { version := 1, typ := typ, enc := false, repeatBit := false, response := false, peer := peer, reserved := 0, session := 0xFF
      gen := 0, seq := 0, low := 0, mt := 0, xmit := 0, body := body, tag := [] }
  { d with tag := openTag (dgHeader d) body }

/-- The same datagram on a peer port. -/
def peerDgram (typ : Nat) (body : List Byte) : Datagram :=
  let d : Datagram :=
    { version := 1, typ := typ, enc := false, repeatBit := false, response := false, peer := true, reserved := 0, session := 1
      gen := 7, seq := 1, low := 0, mt := 0, xmit := 1, body := body, tag := [] }
  { d with tag := Config.kmac256 16 [] (dgHeader d ++ body) "IMP" }

theorem dgram_check (s : State) (typ : Nat) (body : List Byte) (se : Session) (hf : findSess s .host 1 = some se)
    (hs : se.num = 1 ∧ se.gen = 7 ∧ se.enc = false ∧ se.tagRx = [] ∧ se.rxXmits = [] ∧ se.rxHigh = 0)
    (hb : body.length ≤ 8272) (ha : ageOk .host (now s) 0 = true) : impCheck s .host (dgram typ body) typ = 0 := by
  obtain ⟨h1, h2, h3, h4, h5, h6⟩ := hs
  have ht : tagOk se (dgram typ body) = true := by
    simp [tagOk, dgram, h3, h4, dgHeader]
  have hf' : findSess s .host (dgram typ body).session = some se := hf
  unfold impCheck
  rw [hf']
  simp only [ht]
  simp [dgram, linkPeer, h1, h2, h5, h6, ha]
  omega

theorem dgram_accepted (s : State) (typ : Nat) (body : List Byte) (se : Session)
    (h : linkUp s .host = true ∧ findSess s .host 1 = some se ∧
      (se.num = 1 ∧ se.gen = 7 ∧ se.enc = false ∧ se.tagRx = [] ∧ se.rxXmits = [] ∧ se.rxHigh = 0) ∧
      body.length ≤ 8272 ∧ ageOk .host (now (atMt s 0)) 0 = true ∧
      seenBefore { se with rxLow := if serialLt se.rxLow 0 then 0 else se.rxLow } 1 = false) :
    HostAccepts (atMt s 0) (dgram typ body) typ se :=
  ⟨h.1, dgram_check (atMt s 0) typ body se h.2.1 h.2.2.1 h.2.2.2.1 h.2.2.2.2.1, h.2.1, h.2.2.2.2.2⟩

theorem dgram_linked (s : State) (typ : Nat) (body : List Byte) (se : Session)
    (h : linkUp s .host = true ∧ findSess s .host 1 = some se ∧
      (se.num = 1 ∧ se.gen = 7 ∧ se.enc = false ∧ se.tagRx = [] ∧ se.rxXmits = [] ∧ se.rxHigh = 0) ∧
      body.length ≤ 8272 ∧ ageOk .host (now (atMt s 0)) 0 = true) :
    LinkAccepts (atMt s 0) .host (dgram typ body) typ se :=
  ⟨h.1, dgram_check (atMt s 0) typ body se h.2.1 h.2.2.1 h.2.2.2.1 h.2.2.2.2, h.2.1⟩

theorem peer_check (s : State) (p typ : Nat) (body : List Byte) (se : Session) (hf : findSess s (.peer p) 1 = some se)
    (hs : se.num = 1 ∧ se.gen = 7 ∧ se.enc = false ∧ se.tagRx = [] ∧ se.rxXmits = [] ∧ se.rxHigh = 0)
    (hb : body.length ≤ 8272) (ha : ageOk (.peer p) (now s) 0 = true) : impCheck s (.peer p) (peerDgram typ body) typ = 0 := by
  obtain ⟨h1, h2, h3, h4, h5, h6⟩ := hs
  have ht : tagOk se (peerDgram typ body) = true := by
    simp [tagOk, peerDgram, h3, h4, dgHeader]
  have hf' : findSess s (.peer p) (peerDgram typ body).session = some se := hf
  unfold impCheck
  rw [hf']
  simp only [ht]
  simp [peerDgram, linkPeer, h1, h2, h5, h6, ha]
  omega

theorem peer_accepted (s : State) (p typ : Nat) (body : List Byte) (se : Session)
    (h : linkUp s (.peer p) = true ∧ findSess s (.peer p) 1 = some se ∧
      (se.num = 1 ∧ se.gen = 7 ∧ se.enc = false ∧ se.tagRx = [] ∧ se.rxXmits = [] ∧ se.rxHigh = 0) ∧
      body.length ≤ 8272 ∧ ageOk (.peer p) (now (atMt s 0)) 0 = true ∧
      seenBefore { se with rxLow := if serialLt se.rxLow 0 then 0 else se.rxLow } 1 = false) :
    PeerAccepts (atMt s 0) p (peerDgram typ body) typ se :=
  ⟨h.1, peer_check (atMt s 0) p typ body se h.2.1 h.2.2.1 h.2.2.2.1 h.2.2.2.2.1, h.2.1, h.2.2.2.2.2⟩

theorem peer_message (s : State) (p kind : Nat) (body : List Byte) (se : Session)
    (h : linkUp s (.peer p) = true ∧ findSess s (.peer p) 1 = some se ∧
      (se.num = 1 ∧ se.gen = 7 ∧ se.enc = false ∧ se.tagRx = [] ∧ se.rxXmits = [] ∧ se.rxHigh = 0) ∧
      body.length ≤ 8272 ∧ ageOk (.peer p) (now (atMt s 0)) 0 = true ∧
      seenBefore { se with rxLow := if serialLt se.rxLow 0 then 0 else se.rxLow } 1 = false)
    (hb : (parsePeer body).pkind = kind ∧ (parsePeer body).dstRank = s.peers.rank ∧
      (kind = 3 ∨ pseqSeen s (parsePeer body).srcRank (parsePeer body).pseq = false)) :
    PeerMessage (atMt s 0) p (peerDgram 0x20 body) se kind (parsePeer body) := by
  have he : plainBody se (peerDgram 0x20 body) = body := by
    simp [plainBody, peerDgram, h.2.2.1.2.2.1]
  exact ⟨peer_accepted s p 0x20 body se h, by rw [he], hb.1, hb.2.1, hb.2.2⟩

theorem open_check (s : State) (lk : Link) (typ : Nat) (body : List Byte)
    (h : body.length ≤ 8272 ∧ ageOk lk (now s) 0 = true) : openCheck s lk (openDgram (linkPeer lk) typ body) typ = 0 := by
  have hl : ¬ body.length > 8272 := by omega
  simp [openCheck, openDgram, h.2, hl, dgHeader]

/-- What a computation that succeeded gave. -/
def okOf {ε α : Type} (e : Except ε α) (d : α) : α :=
  match e with
  | .ok a => a
  | .error _ => d

/-- Whether a computation succeeded. -/
def isOk {ε α : Type} (e : Except ε α) : Bool :=
  match e with
  | .ok _ => true
  | .error _ => false

theorem eq_okOf {ε α : Type} (e : Except ε α) (d : α) (h : isOk e = true) : e = .ok (okOf e d) := by
  cases e with
  | ok a => rfl
  | error _ => simp [isOk] at h

/-- The next state of a command that completed. -/
def okNext (o : Host.Outcome State Fault Refusal) : State :=
  match o with
  | .next s => s
  | _ => State.reset

/-- Why a computation failed. -/
def errOf {ε α : Type} (e : Except ε α) (d : ε) : ε :=
  match e with
  | .ok _ => d
  | .error w => w

theorem eq_errOf {ε α : Type} (e : Except ε α) (d : ε) (h : isOk e = false) : e = .error (errOf e d) := by
  cases e with
  | ok a => simp [isOk] at h
  | error _ => rfl

theorem idle_cluster (p : Nat) :
    ((clusterDefault p).power = .asleep ∨ (clusterDefault p).power = .off) ∧ (clusterDefault p).wakeDue = none := by
  unfold clusterDefault
  split <;> simp

/-- A held message, sent once. -/
def heldMsg : Held :=
  { seq := 1, typ := 0x40, body := [], repeatBit := false, firstTx := 0, lastTx := 0, timeout := 5, tries := 1, notice := none }

/-- The owner's session with a message that waits for its acknowledgement. -/
def heldS : State := onHost ownedS fun h => { h with sessions := [{ sess1 with held := [heldMsg], txNext := 2 }] }

/-- A state with one translation of page 0 of job 0 on every die and X: valid, readable, writable, open to observers. -/
def mapped (s : State) : State := { s with hbm := { s.hbm with tlb := (List.range 5).map fun d => ⟨d, 0, 0, 0x17⟩ } }

/-- A state with one unit in flight. -/
def withUnit (s : State) (x : WorkUnit) : State := { s with disp := { s.disp with units := [x] } }

/-- A unit with an empty header. -/
def unit0 : WorkUnit := { wuId := 0, epoch := 0, header := List.replicate 32 0, arrival := 0 }

/-- A state with one Paddock queue filled. -/
def queued (s : State) (p q : Nat) (l : List Item) : State := { s with pdk := { s.pdk with queues := [(qKey p q, l)] } }

/-- A work descriptor of an opcode without tensors, with a one-byte PARAM0. -/
def smallDesc (op param : Byte) : List Byte :=
  op :: (List.replicate 15 0 ++ List.replicate 16 0xFF ++ List.replicate 16 0 ++ param :: List.replicate 79 0)

/-- A header of one descriptor and no tensor. -/
def header1 : List Byte := List.replicate 12 0 ++ 1 :: List.replicate 19 0

/-- A chosen unit that may issue its one descriptor, before LAYER_END. -/
def runUnit (raw : List Byte) : WorkUnit := { unit0 with queued := false, descs := [raw, smallDesc 0x3F 0], started := true }

/-- A state with job 0 open and one unit. -/
def runS (x : WorkUnit) : State := { readyS with disp := { readyS.disp with units := [x], jobs := [(0, { valid := true })] } }

/-- A ticket of a tile. -/
def ticketOf (tile kappa : Nat) : Ticket := ⟨0, 0, 0, kappa, tile, 0, 1, 0, 1, 0, 1, 1⟩

/-- A descriptor with one ticket. -/
def run1 : DRun :=
  { ref := ⟨0, 0, 0⟩, op := 1, raw := [], tens := [], members := [0], tickets := [ticketOf 0 0], order := [0], tiles := 1 }

/-- What a descriptor gives at issue. -/
def issued (s : State) (x : WorkUnit) : DRun := okOf (issueRun (atMt s 0) x (nextRef x) (nextRaw x)) run1

/-- A chosen unit with one descriptor in flight. -/
def unitOf (d : DRun) : WorkUnit := { unit0 with queued := false, started := true, runs := [d], descs := [smallDesc 0x3F 0], next := 1 }

/-- A state with that unit, its cluster ACTIVE and holding a ticket notice. -/
def takeS (d : DRun) (ep : Nat) : State :=
  onClu (withUnit readyS (unitOf d)) 0 fun c => { c with power := .active, notices := [⟨⟨0, 0, 0⟩, 0, ep, 1⟩] }

/-- A ticket that runs its first pass. -/
def running1 (fill : List Acc) : Running :=
  { ref := ⟨0, 0, 0⟩, number := 0, rank := 0, tk := ticketOf 0 0, passes := [[]], bads := [[]], live := [], useful := [], rate := 1
    pass := 0, shift := 0, fill := fill, cycles := 0, stalls := 0 }

/-- A state in which cluster 0 runs a ticket of a descriptor. -/
def passS (d : DRun) (fill : List Acc) : State :=
  onClu (withUnit readyS (unitOf d)) 0 fun c => { c with power := .active, running := some (running1 fill) }

/-- A drain tile of a ticket of tile 0. -/
def drain1 (last : Bool) : Drain :=
  { ref := ⟨0, 0, 0⟩, rank := 0, tk := ticketOf 0 0, pass := 0, last := last, shift := 0, acc := [], bad := [], live := [] }

/-- A state in which cluster 0 drains it. -/
def drainS (d : DRun) (last : Bool) : State :=
  onClu (withUnit readyS (unitOf d)) 0 fun c => { c with power := .active, drain := some (drain1 last) }

/-- A leaf or node of tile 0 without values. -/
def node1 (lo hi : Nat) : TreeEntry := ⟨0, lo, hi, [], []⟩

/-- A descriptor whose tile 0 is split into pieces, with some of its tree standing. -/
def splitRun (n : Nat) (trees : List TreeEntry) : DRun :=
  { run1 with op := 0x10, tickets := (List.range n).map (ticketOf 0), trees := trees }

theorem paRead_sound (s : State) (pa n : Nat) (h : (nothingLost s && s.hbm.poison.isEmpty) = true) :
    ∀ x ∈ paRead s pa n, x.2 = false := by
  intro x hx
  simp only [paRead, h, if_true, List.mem_map] at hx
  obtain ⟨b, _, rfl⟩ := hx
  rfl

/-- A READY module with its meter's tables changed. -/
def metered (f : Meter → Meter) : State := { readyS with meter := f readyS.meter }

/-- A start with a supply and nothing else given. -/
def startWith (mv : Nat) : StartInputs :=
  { supplyMv := mv, flash := none, puf := [], diesStart := true, failClusters := [], failDieSup := [], failModSup := false, failPlanes := []
    failDieLanes := [], failPeerLanes := [], failHostPaths := [], failStacks := [], badRows := [], peerPattern := [], stepPower := [], temps := [] }

/-- A state with one disable under way. -/
def disabling (d : Disable) : State := { readyS with disp := { readyS.disp with disables := [d] } }

/-- A state with job slot 0 set. -/
def slotted (j : JobSlot) : State := { readyS with disp := { readyS.disp with jobs := [(0, j)] } }

/-- A state with cluster 0 ACTIVE. -/
def activeS (f : Cluster → Cluster) : State := onClu readyS 0 fun c => f { c with power := .active }

/-- A read request of a stream engine. -/
def readReq : StreamReq := { tag := 0, write := false, job := 0, va := 0, len := 64, pieces := [(0, 0, 512)], bytes := [], ref := ⟨0, 0, 0⟩ }

/-- A state with HBM changed. -/
def onHbm (s : State) (f : Hbm → Hbm) : State := { s with hbm := f s.hbm }

/-- One byte on its way to memory. -/
def write1 : PendingWrite := { src := 1000, pa := 0, bytes := [(0x55, false)], who := .nobody }

theorem parity_at_reset (s : State) (hd : s.hbm.data = []) (hp : s.hbm.parity = []) : ParityHolds s := by
  intro n o _
  simp only [parityByte, hd, hp]
  simp [cellGet, numsFrom]

theorem not_mapped (pa leaf : Nat) :
    descXlate (withUnit (activeS fun c => { c with walk := [readReq] }) unit0) (dieOfPhys 0) readReq.job readReq.va readReq.write ≠ .ok pa leaf := by
  have h : descXlate (withUnit (activeS fun c => { c with walk := [readReq] }) unit0) (dieOfPhys 0) readReq.job readReq.va
      readReq.write = .noJob := by decide +kernel
  rw [h]
  exact Xlate.noConfusion

theorem full_table : ∃ l : List (Nat × Nat × Nat), 262144 ≤ l.length ∧ ∀ e ∈ l, e.1 ≠ 0 :=
  ⟨List.replicate 262144 (1, 0, 0), Nat.le_of_eq List.length_replicate.symm, fun e he => by
    rw [List.eq_of_mem_replicate he]; exact Nat.one_ne_zero⟩

theorem peer_linked (s : State) (p typ : Nat) (body : List Byte) (se : Session)
    (h : linkUp s (.peer p) = true ∧ findSess s (.peer p) 1 = some se ∧
      (se.num = 1 ∧ se.gen = 7 ∧ se.enc = false ∧ se.tagRx = [] ∧ se.rxXmits = [] ∧ se.rxHigh = 0) ∧
      body.length ≤ 8272 ∧ ageOk (.peer p) (now (atMt s 0)) 0 = true) :
    LinkAccepts (atMt s 0) (.peer p) (peerDgram typ body) typ se :=
  ⟨h.1, peer_check (atMt s 0) p typ body se h.2.1 h.2.2.1 h.2.2.2.1 h.2.2.2.2, h.2.1⟩

theorem peer_tag (typ : Nat) (body : List Byte) : tagOk { sess1 with gen := 7 } (peerDgram typ body) = true := by
  simp [tagOk, peerDgram, sess1, dgHeader]

/-- A peer MEM_WRITE body (R357) of PSEQ 1 with fewer than 256 data bytes. -/
def peerBody (kind hops win src dst lo hi gen : Byte) (data : List Byte) : List Byte :=
  [kind, hops, win, 0, src, dst, lo, hi, gen, 0, 0, 0, 1, 0, 0, 0, 0, 0, 0, 0, 0, 0, BitVec.ofNat 8 data.length, 0] ++
    List.replicate 16 0 ++ data

/-- A linked port with a session. -/
def port1 : PeerPort := { state := 5, session := some sess1, farRank := 1 }

/-- A group of three ranks: this module is rank 0, rank 1 is reached by port 1 and rank 2 by port 2; one window. -/
def groupS (win : Window) : State :=
  { mapped readyS with peers :=
      { readyS.peers with
        rank := 0, size := 3, ports := [(1, port1), (2, port1)]
        routes := [(1, ⟨1, 1, 0⟩), (2, ⟨2, 2, 1⟩)], windows := [(0, win)] } }

/-- A window of kind 2 or 4 whose ranks are 0 and 1. -/
def winOf (kind : Nat) : Window := { kind := kind, etype := 14, pages := 1, ranksLo := 3 }

/-- The same group seen from rank 1, with the port to rank 0. -/
def lowS (port : PeerPort) : State :=
  { readyS with
    ctl := { readyS.ctl with cfg := [(slotEntry 0, 1)] }
    peers := { readyS.peers with rank := 1, size := 2, ports := [(1, port)], routes := [(0, ⟨1, 1, 0⟩)] } }

/-- A state with one port set. -/
def ported (q : PeerPort) : State := { readyS with peers := { readyS.peers with ports := [(1, q)] } }

/-! ## Ill-formed terms: each check refuses one -/

theorem test_refuses_time : Instr.wellFormed (.ptpLoss 18446744073709551616) = false := by decide
theorem test_refuses_group : Instr.wellFormed (.groupPllStop 0 32) = false := by decide
theorem test_refuses_cluster : Instr.wellFormed (.clusterGate 0 544) = false := by decide
theorem test_refuses_logical : Instr.wellFormed (.drainDone 0 512) = false := by decide
theorem test_refuses_word32 : Instr.wellFormed (.jobOpen 0 4294967296) = false := by decide
theorem test_refuses_offset : Instr.wellFormed (.registerWrite 0 16777216 0) = false := by decide
theorem test_refuses_party : Instr.wellFormed (.barrierArrival 0 0 0 0 0) = false := by decide
theorem test_refuses_epoch : Instr.wellFormed (.counterRead 0 0 0 0 (some 256)) = false := by decide
theorem test_refuses_pony : Instr.wellFormed (.ponyTransfer 0 0 false 0 0 0 257) = false := by decide
theorem test_refuses_length : Instr.wellFormed (.weightCacheRead 0 0 0 0 none) = false := by decide
theorem test_refuses_log_count : Instr.wellFormed (.kyendLog 0 513) = false := by decide
theorem test_refuses_peek_count : Instr.wellFormed (.kyendPeek 0 0 65) = false := by decide
theorem test_refuses_random : Instr.wellFormed (.readRequest 0 []) = false := by decide
theorem test_refuses_payload : Instr.wellFormed (.paddockPacketWrite 0 0 0 0 none []) = false := by decide
theorem test_refuses_ip : Instr.wellFormed (.nextHopRefresh 0 [10]) = false := by decide
theorem test_refuses_mac : Instr.wellFormed (.arpReply 0 [10, 0, 0, 1] [1]) = false := by decide
theorem test_refuses_datagram : Instr.wellFormed (.claim 0 { openDgram false 1 [] with version := 256 }) = false := rfl
theorem test_refuses_link : Instr.wellFormed (.ack 0 (.peer 4) (openDgram true 0x60 [])) = false := rfl
theorem test_refuses_descriptor : Instr.wellFormed (.compressCount 0 ⟨0, 256, 0⟩) = false := by decide
theorem test_refuses_decode : Instr.wellFormed (.hbmRead 0 0 (.corrected 4)) = false := by decide
theorem test_refuses_upset : Instr.wellFormed (.scrubSweep 0 0 [(0, 267)]) = false := by decide
theorem test_refuses_beater : Instr.wellFormed (.heartbeat 0 (.dieSup 4)) = false := by decide
theorem test_refuses_pll : Instr.wellFormed (.pllLockLoss 0 (.hbm 20)) = false := by decide
theorem test_refuses_vote : Instr.wellFormed (.supervisorResyncDone 0 (.die 4)) = false := by decide
theorem test_refuses_slot : Instr.wellFormed (.slotAccess 0 0 0 0 ⟨false, 48, 0, false, [], [], [], []⟩ []) = false := by decide
theorem test_refuses_frame :
    Instr.wellFormed (.hostFrameDiscard 0 ⟨64, true, 4, none, 0x0800, false⟩ false) = false := by decide
theorem test_refuses_service : Instr.wellFormed (.serviceSession 0 (.setInterval 9)) = false := by decide
theorem test_refuses_start : Instr.wellFormed (.startSequence 0 { startWith 48000 with failStacks := [20] }) = false := by decide
theorem test_accepts : Instr.wellFormed (.fetchAdd 0 551 65535 1 0 (some 255)) = true := by decide

/-! ## Results worked out in the spec -/

/-- 00: L300 is served by P318 of group 18 at READY. -/
theorem test_home_of_300 : homePhys 300 = 318 ∧ groupOf 318 = 18 := by decide

/-- 02 R30: an MXFP8 E4M3 element 0x3D under scale 0x80 is 3.25. -/
theorem test_mxfp8 : f32Of (valNum (elemVal 5 0x3D 0x80)) = 0x40500000 := by decide +kernel

/-- 02 R36: a block whose largest value is 1,000 takes scale 0x80, stores it as 0x7E and 3.3 as 0x3D. -/
theorem test_mx_block : mxBlock 5 [some (numOfInt 1000), some (f32Num 0x40533333)] = (0x80, [0x7E, 0x3D]) := by decide +kernel

/-- 02 R33: 1 + 2^-24 lies half way between two FP32 numbers and rounds to the even one, 1. -/
theorem test_round_even : f32Add 0x3F800000 0x33800000 = 0x3F800000 := by decide +kernel

/-- 04 R104: at shift 1 the product 255 x 255 enters as 32,512. -/
theorem test_shifted_product : (accAdd true false 1 {} ⟨.int 255, .int 255⟩).v = 32512 := by decide +kernel

/-- 04 R104: the entry saturates and is marked when 2,147,483,647 is passed. -/
theorem test_saturates :
    (accAdd true false 0 { v := 0x7FFFFFFF, res := 1 } ⟨.int 1, .int 1⟩).v = 0x7FFFFFFF ∧
    (accAdd true false 0 { v := 0x7FFFFFFF, res := 1 } ⟨.int 1, .int 1⟩).mark = true := by decide +kernel

/-- 04 R118: two tiles with (3.0, 1.0) and (2.0, 1.367879) combine to 1.503215, to seven figures: FP32 between
1.5032145 and 1.5032155. -/
theorem test_exp_sum :
    (statCombine 2 (0x40000000, 0x3FAF16A9) (0x40400000, 0x3F800000)).1 = 0x40400000 ∧
    0x3FC06955 ≤ (statCombine 2 (0x40000000, 0x3FAF16A9) (0x40400000, 0x3F800000)).2.toNat ∧
    (statCombine 2 (0x40000000, 0x3FAF16A9) (0x40400000, 0x3F800000)).2.toNat ≤ 0x3FC0695E := by decide +kernel

/-- 04 R122: five leaves split as four and one, three as two and one. -/
theorem test_tree : treeMid 0 5 = 4 ∧ treeMid 0 3 = 2 ∧ treeParent 8 0 5 4 5 = some (0, 5) := by decide +kernel

/-- 05 R129: byte address 0x2A_7C4D lies in bank 49 at bank row 1,359. -/
theorem test_bank : bankOf (0x2A7C4D / 32) = 49 ∧ bankRowOf (0x2A7C4D / 32) = 1359 := by decide

/-- 06 R166: METER, class 1 and contract 0x05A make bytes 8 and 9 0x905A. -/
theorem test_class : hClass (List.replicate 8 0 ++ [0x5A, 0x90]) = 1 ∧ bit (hWord89 (List.replicate 8 0 ++ [0x5A, 0x90])) 15 = true := by
  decide

/-- 08 R251: PA 5,000,000,000 lies in stripe row 64,247 at position 10, in stack 18, with the parity in stack 7. -/
theorem test_stripe :
    rowOf 5000000000 = 64247 ∧ 5000000000 / 4096 % 19 = 10 ∧ parityStack 64247 = 7 ∧ dataStack 64247 10 = 18 ∧
    cacheSet 5000000000 = 1522 := by decide

/-- 14 R444: a latency of 53,000 ticks falls in bin 3. -/
theorem test_latency_bin : latencyBin 53000 = 3 := by decide +kernel

/-! ## Single steps -/

/-- What step answers with one command pending. -/
def stepOf (s : State) (c : Instr) : State := okNext (step { s with pending := [c] })

/-- 09 R274: the sum of a fetch-add is modulo 2^32, and its answer is the old value. -/
theorem test_fetch_add_wraps :
    let s := stepOf { readyS with reins := { readyS.reins with counters := [(7, { value := 0xFFFFFFFF, epoch := 3 })] } }
      (.fetchAdd 120 549 7 2 0 (some 3))
    getCtr s 7 = { value := 1, epoch := 3 } ∧ s.reins.responses.map (·.value) = [some 0xFFFFFFFF] := by decide +kernel

/-- 09 R281: the last of two arrivals advances the generation and clears the barrier. -/
theorem test_barrier_turns :
    getBar (stepOf { readyS with reins := { readyS.reins with barriers := [(5, { gen := 255, parties := 2, arrivals := [⟨0, none⟩] })] } }
      (.barrierArrival 120 549 5 2 0)) 5 = { gen := 0, parties := 0, arrivals := [] } := by decide +kernel

/-- 09 R295, the worked drop: the marker opened at 1,200 has DROP_COUNT 1, NIDS 1, MT_FIRST 1,200 and WU_ID0 0x3A01. -/
theorem test_gap_marker :
    let s := stepOf (queued { readyS with clock := { mt := 1200, ptp := 1 } } 4 5 [{ cells := 16384 }])
      (.paddockPacketWrite 1200 4 5 550 (some (0x3A01, 1)) (List.replicate 64 0))
    (pdkItems s 4 5).map (·.kind) = [2, 1] ∧
    (pdkItems s 4 5).getLast?.map (fun m => (leAt m.payload 0 4, bits (leAt m.payload 4 1) 7 4, leAt m.payload 8 8)) =
      some (1, 1, 1200) := by decide +kernel

/-- 10 R337, the worked election: session 7 with priority 200 wins at 500,000,000 and holds a lease to 5,500,000,000. -/
theorem test_election :
    let s := stepOf
      { onHost readyS (fun h => { h with
          sessions := [{ num := 3, gen := 1, key := 4, enc := false }, { num := 7, gen := 2, key := 9, enc := false }]
          election := some { closeAt := 500000000, entrants := [(3, 1, 4, 1), (7, 2, 9, 1)] } }) with
        ctl := { readyS.ctl with cfg := [(0x3001, 100), (0x5801, 200)] } } (.electionClose 500000000)
    s.host.owner = some (7, 2) ∧ s.host.leaseEnd = 5500000000 := by decide +kernel

/-- 12 R389: a cap below 1,200 W is not taken. -/
theorem test_cap_range :
    (stepOf readyS (.pwrCapWrite 0 1199)).pwr = readyS.pwr ∧ (stepOf readyS (.pwrCapWrite 0 1200)).pwr.cap = 1200 := by decide +kernel

/-- With nothing pending a step changes nothing. -/
theorem test_idle : step State.reset = .next State.reset := rfl

/-- A command leaves the commands behind it as they are. -/
theorem test_queue : (okNext (step { readyS with pending := [.ptpLoss 5, .ptpRecovery 6] })).pending = [.ptpRecovery 6] := by
  decide +kernel

/-- 15 R474: the time line, its number with prefix and underscores as R5 writes them. -/
theorem test_prompt : (stepOf readyS (.kyendTime 0)).kyend.out = ["kyend> ", "mt=0x0000_0000_0000_0000 ptp=locked"] := by decide +kernel

/-! ## Hypotheses that can be met, clause by clause -/

theorem witness_StepTakesFrontCommand :
    ∃ (s : State), s.pending = [] :=
  ⟨State.reset, by decide +kernel⟩

theorem witness_MemoryWfKept :
    ∃ (s : State) (u : State), MemoryWf s ∧ step s = .next u :=
  ⟨State.reset, State.reset, by unfold MemoryWf; decide +kernel, rfl⟩

theorem witness_CommandFrames :
    ∃ (c : _) (s : State) (u : State), exec c s = .next u :=
  ⟨.kyendId 0, readyS, okNext (exec (.kyendId 0) readyS), rfl⟩

theorem witness_ClockAndSupply :
    (∃ (s : State), linkUp s .host = true ∧ s.clock.ptp = 1) ∧
    (∃ (s : State), linkUp s .host = true ∧ s.clock.ptp = 1) ∧
    (∃ (s : State), s.clock.ptp = 1) ∧
    (∃ (s : State), s.clock.ptp = 2 ∧ linkUp s .host = true) ∧
    (∃ (s : State), s.ctl.modState = .starting ∧ s.ctl.step = 8 ∧ linkUp s .host = true) ∧
    (∃ (s : State) (mv : _), isReady s = true ∧ 40000 ≤ mv ∧ mv < 44000) ∧
    (∃ (s : State) (mv : _), isReady s = true ∧ 40000 ≤ mv ∧ mv < 44000) ∧
    (∃ (s : State) (mv : _), isReady s = true ∧ s.pwr.low = true ∧ 44000 ≤ mv ∧ mv ≤ 56000) ∧
    (∃ (s : State) (mv : _), isReady s = true ∧ s.pwr.low = true ∧ 44000 ≤ mv ∧ mv ≤ 56000) ∧
    (∃ (mv : _), mv < 40000 ∨ 58000 < mv) ∧
    (∃ (mv : _), mv < 40000 ∨ 58000 < mv) ∧
    (∃ (s : State), s.ctl.powered = true) ∧
    (∃ (s : State) (mv : _), s.ctl.down = true ∧ 44000 ≤ mv ∧ mv ≤ 56000) ∧
    (∃ (s : State) (mv : _), s.ctl.down = true ∧ 44000 ≤ mv ∧ mv ≤ 56000) :=
  ⟨⟨readyS, by decide +kernel⟩,
   ⟨readyS, by decide +kernel⟩,
   ⟨readyS, by decide +kernel⟩,
   ⟨{ readyS with clock := { mt := 0, ptp := 2 } }, by decide +kernel⟩,
   ⟨{ readyS with ctl := { readyS.ctl with modState := .starting, step := 8 } }, by decide +kernel⟩,
   ⟨readyS, 40000, by decide +kernel⟩,
   ⟨readyS, 43999, by decide +kernel⟩,
   ⟨{ readyS with pwr := { readyS.pwr with low := true } }, 44000, by decide +kernel⟩,
   ⟨{ readyS with pwr := { readyS.pwr with low := true } }, 56000, by decide +kernel⟩,
   ⟨39999, by decide +kernel⟩,
   ⟨58001, by decide +kernel⟩,
   ⟨readyS, by decide +kernel⟩,
   ⟨{ State.reset with ctl := { State.reset.ctl with down := true } }, 44000, by decide +kernel⟩,
   ⟨{ State.reset with ctl := { State.reset.ctl with down := true } }, 56000, by decide +kernel⟩⟩

theorem witness_HostLinkFrames :
    (∃ (s : State) (f : FrameInfo), linkUp s .host = true ∧ (f.len < 64 ∨ 9216 < f.len)) ∧
    (∃ (s : State) (f : FrameInfo), linkUp s .host = true ∧ (f.len < 64 ∨ 9216 < f.len)) ∧
    (∃ (s : State) (f : FrameInfo), linkUp s .host = true ∧ 64 ≤ f.len ∧ f.len ≤ 9216 ∧ f.fcsGood = false) ∧
    (∃ (s : State) (f : FrameInfo), linkUp s .host = true ∧ 64 ≤ f.len ∧ f.len ≤ 9216 ∧ f.fcsGood = true ∧ (f.dst = 3
      ∨ f.pause = true ∨ (cfgHostVlan s = 0 ∧ f.vlan.isSome = true) ∨ (cfgHostVlan s ≠ 0 ∧ f.vlan ≠ some (cfgHostVlan
      s)))) ∧
    (∃ (s : State) (t : Nat), linkUp s .host = true ∧ ipv4On s = true ∧ replyAllowed (atMt s t) = true) ∧
    (∃ (s : State) (t : Nat) (target : _), linkUp s .host = true ∧ ipv6On s = true ∧ (target = cfgIpv6 s ∨ target =
      linkLocal s) ∧ replyAllowed (atMt s t) = true) ∧
    (∃ (s : State) (t : Nat) (dst : _), linkUp s .host = true ∧ ownIp s dst = true ∧ replyAllowed (atMt s t) = true) ∧
    (∃ (s : State), linkUp s .host = true) ∧
    (∃ (s : State) (t : Nat) (ip : _) (mac : _) (m : _), linkUp s .host = true ∧ s.host.nextHops.find? (fun e => e.1
      == ip) = some (ip, mac, m) ∧ m + 150000000000 ≤ max (now s) t) :=
  ⟨⟨readyS, ⟨63, true, 0, none, 0x0800, false⟩, by decide +kernel⟩,
   ⟨readyS, ⟨9217, true, 0, none, 0x0800, false⟩, by decide +kernel⟩,
   ⟨readyS, ⟨64, false, 0, none, 0x0800, false⟩, by decide +kernel⟩,
   ⟨readyS, ⟨9216, true, 3, none, 0x0800, false⟩, by decide +kernel⟩,
   ⟨readyS, 0, by decide +kernel⟩,
   ⟨readyS, 0, linkLocal readyS, by decide +kernel⟩,
   ⟨readyS, 0, cfgIpv4 readyS, by decide +kernel⟩,
   ⟨readyS, by decide +kernel⟩,
   ⟨onHost readyS (fun h => { h with nextHops := [([10, 0, 0, 1], [1, 2, 3, 4, 5, 6], 0)] }), 150000000000, [10, 0, 0, 1], [1, 2, 3, 4, 5, 6], 0, by decide +kernel⟩⟩

theorem witness_HostPaths :
    (∃ (s : State), linkUp s .host = true ∧ s.host.standby = 2) ∧
    (∃ (s : State), linkUp s .host = true ∧ s.host.standby ≠ 2) ∧
    (∃ (s : State) (path : _), s.ctl.powered = true ∧ path ≤ 1 ∧ s.ctl.modState ≠ .haltedConfig ∧ s.host.down = false
      ∧ path ≠ s.host.active ∧ s.host.standby ≠ 2) ∧
    (∃ (s : State) (v : _), bit v 7 = true ∧ s.host.standby = 2 ∧ s.host.down = false) ∧
    (∃ (s : State), s.ctl.powered = true ∧ s.host.standby ≠ 0) :=
  ⟨⟨readyS, by decide +kernel⟩,
   ⟨onHost readyS (fun h => { h with standby := 0 }), by decide +kernel⟩,
   ⟨onHost readyS (fun h => { h with standby := 1 }), 1, by decide +kernel⟩,
   ⟨readyS, 128, by decide +kernel⟩,
   ⟨readyS, by decide +kernel⟩⟩

theorem witness_ClusterPowerStates :
    (∃ (s : State) (t : Nat) (p : _) (c : _), getClu s p = c ∧ p < 544 ∧ c.role = .serving ∧ c.power = .active ∧
      cluBusy c = false ∧ 64 ≤ cyclesIn (getGroup s (groupOf p)) (max (now s) t - c.idleSince)) ∧
    (∃ (s : State) (t : Nat) (p : _) (c : _), getClu s p = c ∧ p < 544 ∧ c.power = .gated ∧ c.wakeDue = none ∧
      physHeld s p = false ∧ c.idleSince + cfgSleepAfter s ≤ max (now s) t) ∧
    (∃ (s : State) (t : Nat) (p : _) (c : _) (d : _), getClu s p = c ∧ p < 544 ∧ c.power ≠ .active ∧ c.halter = false
      ∧ c.wakeDue = some d ∧ d ≤ max (now s) t) ∧
    (∃ (s : State) (t : Nat) (g : _), g < 32 ∧ (getGroup s g).pllOn = true ∧ (∀ p, 17 * g ≤ p → p < 17 * g + 17 →
      ((getClu s p).power = .asleep ∨ (getClu s p).power = .off) ∧ (getClu s p).wakeDue = none) ∧ (getGroup s
      g).idleSince + cfgSleepAfter s ≤ max (now s) t) :=
  ⟨⟨onClu readyS 0 (fun c => { c with power := .active }), 178, 0, { clusterDefault 0 with power := .active }, by decide +kernel⟩,
   ⟨onClu readyS 0 (fun c => { c with power := .gated }), 500000, 0, { clusterDefault 0 with power := .gated }, by decide +kernel⟩,
   ⟨onClu readyS 543 (fun c => { c with wakeDue := some 5 }), 5, 543, { clusterDefault 543 with wakeDue := some 5 }, 5, by decide +kernel⟩,
   ⟨{ readyS with pwr := { readyS.pwr with groups := [(31, { pllOn := true })] } }, 500000, 31, by decide +kernel, by decide +kernel, fun p _ _ => idle_cluster p, by decide +kernel⟩⟩

theorem witness_PowerEvaluation :
    ∃ (s : State), isReady s = true ∧ s.pwr.hot = false :=
  ⟨readyS, by decide +kernel⟩

theorem witness_PowerSteps :
    (∃ (s : State), isReady s = true ∧ s.pwr.hot = true ∧ s.pwr.coolSince = none) ∧
    (∃ (s : State) (g : _), isReady s = true ∧ g < 32 ∧ (getGroup s g).step ≠ s.pwr.target ∧ groupHeld s g = false) ∧
    (∃ (s : State), isReady s = true) :=
  ⟨⟨{ readyS with pwr := { readyS.pwr with hot := true } }, by decide +kernel⟩,
   ⟨{ readyS with pwr := { readyS.pwr with target := 1 } }, 31, by decide +kernel⟩,
   ⟨readyS, by decide +kernel⟩⟩

theorem witness_ThermalAndDroop :
    (∃ (s : State) (die : _) (c : _), isReady s = true ∧ die ≤ 8 ∧ 100 ≤ c ∧ c < 104) ∧
    (∃ (s : State) (die : _) (c : _), isReady s = true ∧ die ≤ 8 ∧ 100 ≤ c ∧ c < 104) ∧
    (∃ (s : State) (die : _), isReady s = true ∧ die < 4 ∧ (∃ g, 8 * die ≤ g ∧ g < 8 * die + 8 ∧ (getGroup s
      g).thermal = false)) ∧
    (∃ (s : State) (die : _) (c : _), isReady s = true ∧ die ≤ 8 ∧ 105 ≤ c) ∧
    (∃ (s : State) (die : _) (c : _), isReady s = true ∧ die < 4 ∧ c < 102 ∧ (∃ g, 8 * die ≤ g ∧ g < 8 * die + 8 ∧
      (getGroup s g).thermal = true)) ∧
    (∃ (s : State) (g : _), isReady s = true ∧ g < 32) ∧
    (∃ (g : _), g < 32) :=
  ⟨⟨readyS, 8, 100, by decide +kernel⟩,
   ⟨readyS, 0, 103, by decide +kernel⟩,
   ⟨readyS, 3, by decide +kernel, by decide +kernel, 31, by decide +kernel⟩,
   ⟨readyS, 8, 105, by decide +kernel⟩,
   ⟨{ readyS with pwr := { readyS.pwr with groups := [(7, { thermal := true })] } }, 0, 101, by decide +kernel, by decide +kernel, by decide +kernel, 7, by decide +kernel⟩,
   ⟨readyS, 31, by decide +kernel⟩,
   ⟨31, by decide +kernel⟩⟩

theorem witness_ReinsCounters :
    (∃ (s : State) (t : Nat) (req : _) (ctr : _) (sent : _) (e : _), ctr < 65536 ∧ mayApply (atMt s t) (ctrHome ctr)
      req sent = true ∧ refusedEpoch s ctr e = false) ∧
    (∃ (s : State) (t : Nat) (req : _) (ctr : _) (sent : _) (e : _), ctr < 65536 ∧ mayApply (atMt s t) (ctrHome ctr)
      req sent = true ∧ refusedEpoch s ctr e = false) ∧
    (∃ (s : State) (t : Nat) (req : _) (ctr : _) (sent : _) (e : _), ctr < 65536 ∧ mayApply (atMt s t) (ctrHome ctr)
      req sent = true ∧ waitsHeld s (ctrHome ctr) req < waitLimit req ∧ refusedEpoch s ctr e = false) ∧
    (∃ (s : State) (t : Nat) (req : _) (ctr : _) (sent : _) (e : _), ctr < 65536 ∧ mayApply (atMt s t) (ctrHome ctr)
      req sent = true ∧ refusedEpoch s ctr e = false) ∧
    (∃ (s : State) (t : Nat) (req : _) (ctr : _) (sent : _) (x : _), ctr < 65536 ∧ mayApply (atMt s t) (ctrHome ctr)
      req sent = true ∧ x < 256 ∧ x ≠ (getCtr s ctr).epoch ∧ waitsHeld s (ctrHome ctr) req < waitLimit req) :=
  ⟨⟨readyS, 120, 549, 65535, 0, none, by decide +kernel⟩,
   ⟨readyS, 20, 0, 0, 0, some 0, by decide +kernel⟩,
   ⟨readyS, 120, 549, 0, 0, none, by decide +kernel⟩,
   ⟨readyS, 120, 549, 0, 0, none, by decide +kernel⟩,
   ⟨readyS, 120, 549, 0, 0, 255, by decide +kernel⟩⟩

theorem witness_ReinsBarriers :
    (∃ (s : State) (t : Nat) (req : _) (b : _) (p : _) (sent : _), b < 4096 ∧ 1 ≤ p ∧ p ≤ 65536 ∧ mayApply (atMt s t)
      4 req sent = true ∧ ((getBar s b).arrivals = [] ∨ (getBar s b).parties = p)) ∧
    (∃ (s : State) (t : Nat) (req : _) (b : _) (p : _) (sent : _), b < 4096 ∧ 1 ≤ p ∧ p ≤ 65536 ∧ mayApply (atMt s t)
      4 req sent = true ∧ (getBar s b).arrivals ≠ [] ∧ (getBar s b).parties ≠ p) ∧
    (∃ (s : State) (wu : _) (x : _), findUnit s wu = some x ∧ x.decided = true) :=
  ⟨⟨readyS, 120, 549, 4095, 65536, 0, by decide +kernel⟩,
   ⟨{ readyS with reins := { readyS.reins with barriers := [(0, { parties := 2, arrivals := [⟨0, none⟩] })] } }, 120, 549, 0, 1, 0, by decide +kernel⟩,
   ⟨{ readyS with disp := { readyS.disp with units := [{ wuId := 3, epoch := 0, header := [], arrival := 0, decided := true }] } }, 3, { wuId := 3, epoch := 0, header := [], arrival := 0, decided := true }, by decide +kernel⟩⟩

theorem witness_ReinsMaintenance :
    (∃ (s : State), isReady s = true ∧ s.reins.ctrSel < 0xF000) ∧
    (∃ (s : State), isReady s = true ∧ 0xF000 ≤ s.reins.ctrSel) ∧
    (∃ (s : State) (r : _) (p : _), isReady s = true ∧ p < 3 ∧ r < 550) ∧
    (∃ (s : State) (p : _), s.reins.resync.contains p = true) :=
  ⟨⟨{ readyS with reins := { readyS.reins with ctrSel := 0xEFFF } }, by decide +kernel⟩,
   ⟨{ readyS with reins := { readyS.reins with ctrSel := 0xF000 } }, by decide +kernel⟩,
   ⟨readyS, 549, 2, by decide +kernel⟩,
   ⟨{ readyS with reins := { readyS.reins with resync := [1] } }, 1, by decide +kernel⟩⟩

theorem witness_PaddockOperations :
    (∃ (s : State) (p : _) (q : _) (src : _) (pl : _), isReady s = true ∧ mayProduce p q src = true ∧ pl.length ≤ 4096
      ∧ reqHaltered s src = false ∧ pdkFits s p q (cellsOfPayload pl) = true) ∧
    (∃ (s : State) (p : _) (q : _) (src : _) (pl : _), isReady s = true ∧ mayProduce p q src = true ∧ pl.length ≤ 4096
      ∧ reqHaltered s src = false ∧ pdkFits s p q (cellsOfPayload pl) = false ∧ waitsForRoom p q src = false ∧
      (pdkLimit p q).isSome = true ∧ (∀ i ∈ pdkItems s p q, i.marker = false)) ∧
    (∃ (s : State) (p : _) (q : _) (it : _) (rest : _), isReady s = true ∧ p < 4 ∧ q ≤ 135 ∧ pdkItems s p q = it ::
      rest ∧ consumerReady s p q = true ∧ it.kind ≠ 1 ∧ it.poison = false ∧ (∃ w, findUnit s it.wuId = some w ∧
      w.epoch = it.epoch)) ∧
    (∃ (s : State) (v : _) (p : _) (q : _), isReady s = true ∧ p = bits v 14 12 ∧ q = bits v 11 0 ∧ mayFlush p q =
      true) ∧
    (∃ (s : State) (v : _) (p : _) (q : _), isReady s = true ∧ p = bits v 14 12 ∧ q = bits v 11 0 ∧ mayFlush p q =
      true) :=
  ⟨⟨readyS, 3, 0, 549, [1], by decide +kernel⟩,
   ⟨{ readyS with pdk := { readyS.pdk with queues := [(qKey 4 11, [{ cells := 32768 }])] } }, 4, 11, 549, [1], by decide +kernel⟩,
   ⟨{ onClu readyS 0 (fun c => { c with power := .active }) with disp := { readyS.disp with units := [{ wuId := 0, epoch := 0, header := [], arrival := 0 }] }, pdk := { readyS.pdk with queues := [(qKey 0 0, [{}])] } }, 0, 0, {}, [], by decide +kernel, by decide +kernel, by decide +kernel, by decide +kernel, by decide +kernel, by decide +kernel, by decide +kernel, { wuId := 0, epoch := 0, header := [], arrival := 0 }, by decide +kernel⟩,
   ⟨readyS, 0x400A, 4, 10, by decide +kernel⟩,
   ⟨readyS, 0x3088, 3, 136, by decide +kernel⟩⟩

theorem witness_PaddockDrops :
    (∃ (p : _) (q : _) (lim : _), pdkLimit p q = some lim) ∧
    (∃ (p : _) (q : _) (lim : _), pdkLimit p q = some lim) :=
  ⟨⟨4, 10, 16384, by decide +kernel⟩,
   ⟨0, 0, 1024, by decide +kernel⟩⟩

theorem witness_Heartbeats :
    (∃ (s : State) (w : _), isReady s = true ∧ beats s w = true) ∧
    (∃ (s : State) (t : Nat) (p : _), isReady s = true ∧ beats s (.cluster p) = true ∧ tblGet 0 s.reins.lastBeat p +
      750000 ≤ max (now s) t ∧ (getClu s p).wokeAt = none) ∧
    (∃ (s : State) (t : Nat) (d : _), isReady s = true ∧ beats s (.dieSup d) = true ∧ tblGet 0 s.reins.lastBeat (544 +
      d) + 750000 ≤ max (now s) t) ∧
    (∃ (s : State) (t : Nat) (p : _) (m : _), isReady s = true ∧ p < 544 ∧ (getClu s p).halter = false ∧ (getClu s
      p).wokeAt = some m ∧ m + 25000 ≤ max (now s) t) :=
  ⟨⟨onClu readyS 0 (fun c => { c with power := .active }), .cluster 0, by decide +kernel⟩,
   ⟨onClu readyS 0 (fun c => { c with power := .gated }), 750000, 0, by decide +kernel⟩,
   ⟨readyS, 750000, 3, by decide +kernel⟩,
   ⟨onClu readyS 543 (fun c => { c with wokeAt := some 0 }), 25000, 543, 0, by decide +kernel⟩⟩

theorem witness_ClusterFailures :
    (∃ (s : State) (p : _) (mech : _), isReady s = true ∧ p < 544 ∧ 3 ≤ mech ∧ mech ≤ 0x0A ∧ (getClu s p).halter =
      false) ∧
    (∃ (s : State) (p : _) (mech : _), isReady s = true ∧ p < 544 ∧ 3 ≤ mech ∧ mech ≤ 0x0A ∧ (getClu s p).halter =
      false) ∧
    (∃ (s : State) (g : _) (r : _), s.clu.remounts.find? (fun r => r.l / 16 == g) = some r ∧ (getClu s r.spare).power
      = .active) ∧
    (∃ (s : State) (g : _) (r : _), s.clu.remounts.find? (fun r => r.l / 16 == g) = some r ∧ (getClu s r.spare).power
      = .active ∧ (getClu s r.spare).halter = false) ∧
    (∃ (s : State) (p : _), (getClu s p).role = .failedRetest ∧ (∀ l, (getLmap s l).absent = false)) ∧
    (∃ (s : State) (p : _), (getClu s p).role = .failedRetest) :=
  ⟨⟨readyS, 543, 3, by decide +kernel⟩,
   ⟨readyS, 0, 0x0A, by decide +kernel⟩,
   ⟨{ onClu readyS 16 (fun c => { c with power := .active }) with clu := { (onClu readyS 16 (fun c => { c with power := .active })).clu with remounts := [⟨0, 0, 16, []⟩] } }, 0, ⟨0, 0, 16, []⟩, by decide +kernel⟩,
   ⟨{ onClu readyS 16 (fun c => { c with power := .active }) with clu := { (onClu readyS 16 (fun c => { c with power := .active })).clu with remounts := [⟨0, 0, 16, []⟩] } }, 0, ⟨0, 0, 16, []⟩, by decide +kernel⟩,
   ⟨onClu readyS 5 (fun c => { c with role := .failedRetest }), 5, by decide +kernel, fun _ => rfl⟩,
   ⟨onClu readyS 5 (fun c => { c with role := .failedRetest }), 5, by decide +kernel⟩⟩

theorem witness_YarrowVisits :
    (∃ (s : State) (t : Nat) (p : _), mayVisit (atMt s t) p = true ∧ (getClu s p).role = .serving) ∧
    (∃ (s : State) (t : Nat) (p : _), mayVisit (atMt s t) p = true ∧ (getClu s p).role = .spare) ∧
    (∃ (s : State) (t : Nat) (p : _), mayVisit (atMt s t) p = true) ∧
    (∃ (s : State) (v : _), isReady s = true ∧ cfgDevMode s = true ∧ bit v 31 = true ∧ bits v 9 0 < 544 ∧
      s.clu.yarrowResult ≠ 1) ∧
    (∃ (s : State) (t : Nat), s.clu.yarrowResult = 1 ∧ s.clu.yarrowAt + 25000000000 ≤ max (now s) t) :=
  ⟨⟨readyS, 0, 0, by decide +kernel⟩,
   ⟨readyS, 0, 16, by decide +kernel⟩,
   ⟨readyS, 0, 542, by decide +kernel⟩,
   ⟨readyS, 0x8000021F, by decide +kernel⟩,
   ⟨{ readyS with clu := { readyS.clu with yarrowResult := 1 } }, 25000000000, by decide +kernel⟩⟩

theorem witness_Supervisors :
    (∃ (s : State) (c : _) (x : _), s.ctl.powered = true ∧ s.ctl.modVote.contains c = true ∧ 3 ≤ s.ctl.modVote.length
      ∧ s.ctl.modSpare = some x) ∧
    (∃ (s : State) (d : _) (c : _), s.ctl.powered = true ∧ d < 4 ∧ (dieMembers s d).contains c = true ∧
      s.ctl.dieSupLost.contains d = false) ∧
    (∃ (s : State) (c : _), s.ctl.powered = true ∧ s.ctl.failedCores.contains 4 = false ∧ idleCore s = some c) ∧
    (∃ (s : State) (d : _), s.ctl.powered = true ∧ d < 4 ∧ s.ctl.failedCores.contains d = false ∧
      s.ctl.dieSupLost.contains d = false) ∧
    (∃ (s : State) (d : _), s.ctl.powered = true ∧ d < 4 ∧ s.ctl.dieSupLost.contains d = false) ∧
    (∃ (s : State) (d : _), s.ctl.dieSupLost.contains d = true) ∧
    (∃ (s : State) (x : XUnit), isReady s = true ∧ (x = .dispatcher ∨ x = .tileWalker)) ∧
    (∃ (s : State) (x : XUnit), isReady s = true ∧ (x = .dispatcher ∨ x = .tileWalker)) ∧
    (∃ (s : State) (x : XUnit), isReady s = true ∧ (x = .transport ∨ x = .crypto)) ∧
    (∃ (s : State) (x : XUnit), isReady s = true ∧ (x = .transport ∨ x = .crypto)) ∧
    (∃ (s : State), s.disp.restarting = true) :=
  ⟨⟨readyS, 0, 3, by decide +kernel⟩,
   ⟨readyS, 3, 0, by decide +kernel⟩,
   ⟨{ readyS with ctl := { readyS.ctl with modVote := [0, 1] } }, 2, by decide +kernel⟩,
   ⟨readyS, 3, by decide +kernel⟩,
   ⟨readyS, 3, by decide +kernel⟩,
   ⟨{ readyS with ctl := { readyS.ctl with dieSupLost := [2] } }, 2, by decide +kernel⟩,
   ⟨readyS, .dispatcher, by decide +kernel⟩,
   ⟨readyS, .tileWalker, by decide +kernel⟩,
   ⟨readyS, .transport, by decide +kernel⟩,
   ⟨readyS, .crypto, by decide +kernel⟩,
   ⟨{ readyS with disp := { readyS.disp with restarting := true } }, by decide +kernel⟩⟩

theorem witness_MaskedFaults :
    (∃ (s : State), s.ctl.powered = true) ∧
    (∃ (s : State) (t : Nat) (d : _) (l : _) (k : _) (m : _), s.ctl.powered = true ∧ d < 4 ∧ l < 256 ∧ k = 256 * d + l
      ∧ m = ((tblGet [] s.flt.nocRetries k).filter fun x => decide (max (now s) t < x + 2500000)).length) ∧
    (∃ (s : State) (pair : _) (un : _) (n : _), s.ctl.powered = true ∧ un < 4096 ∧ n = tblGet 0 s.flt.dieLanes (4096 *
      pair + un)) ∧
    (∃ (s : State) (d : _), s.ctl.powered = true ∧ d < 4) :=
  ⟨⟨readyS, by decide +kernel⟩,
   ⟨readyS, 0, 3, 255, 1023, 0, by decide +kernel⟩,
   ⟨readyS, 0, 4095, 0, by decide +kernel⟩,
   ⟨readyS, 3, by decide +kernel⟩⟩

theorem witness_BridleElections :
    (∃ (s : State) (t : Nat) (d : _) (se : Session), HostAccepts (atMt s t) d 0x01 se ∧ plainBody se d = [] ∧
      s.host.election = none ∧ (∀ o, s.host.owner = some o → isOwner (atMt s t) o.1 o.2 = false)) ∧
    (∃ (s : State) (t : Nat) (d : _) (se : Session) (o : _), HostAccepts (atMt s t) d 0x01 se ∧ plainBody se d = [] ∧
      s.host.owner = some o ∧ isOwner (atMt s t) o.1 o.2 = true ∧ FreshSeq se) ∧
    (∃ (s : State) (t : Nat) (e : _) (w : _) (rest : _) (se : Session), s.host.election = some e ∧ e.closeAt ≤ max
      (now s) t ∧ sortBy (entrantFirst s) (e.entrants.filter fun x => s.host.sessions.any fun y => y.num == x.1 &&
      y.gen == x.2.1) = w :: rest ∧ findSess s .host w.1 = some se ∧ FreshSeq se) :=
  ⟨⟨vacantS, 0, dgram 0x01 [], sess1, dgram_accepted _ _ _ _ (by decide +kernel), by decide +kernel, by decide +kernel, fun o h => nomatch h⟩,
   ⟨ownedS, 0, dgram 0x01 [], sess1, (1, 7), dgram_accepted _ _ _ _ (by decide +kernel), by unfold FreshSeq; decide +kernel⟩,
   ⟨onHost vacantS (fun h => { h with election := some { closeAt := 500000000, entrants := [(1, 7, 0, 1)] } }), 500000000, { closeAt := 500000000, entrants := [(1, 7, 0, 1)] }, (1, 7, 0, 1), [], sess1, by unfold FreshSeq; decide +kernel⟩⟩

theorem witness_BridleLease :
    (∃ (s : State) (t : Nat) (d : _) (se : Session), HostAccepts (atMt s t) d 0x04 se ∧ plainBody se d = [] ∧ isOwner
      (atMt s t) se.num se.gen = true ∧ FreshSeq se) ∧
    (∃ (s : State) (t : Nat) (o : _), s.host.owner = some o ∧ s.host.leaseEnd < max (now s) t) ∧
    (∃ (s : State) (t : Nat) (d : _) (se : Session), HostAccepts (atMt s t) d 0x03 se ∧ plainBody se d = [0xFF, 0, 0,
      0, 0, 0, 0, 0] ∧ isOwner (atMt s t) se.num se.gen = true) ∧
    (∃ (s : State) (t : Nat) (d : _) (se : Session) (x : _) (b : _), HostAccepts (atMt s t) d 0x03 se ∧ plainBody se d
      = [b, 0, 0, 0, 0, 0, 0, 0] ∧ b ≠ 0xFF ∧ b.toNat ≠ se.num ∧ isOwner (atMt s t) se.num se.gen = true ∧ findSess s
      .host b.toNat = some x) :=
  ⟨⟨ownedS, 0, dgram 0x04 [], sess1, dgram_accepted _ _ _ _ (by decide +kernel), by unfold FreshSeq; decide +kernel⟩,
   ⟨ownedS, 101, (1, 7), by decide +kernel⟩,
   ⟨ownedS, 0, dgram 0x03 [0xFF, 0, 0, 0, 0, 0, 0, 0], sess1, dgram_accepted _ _ _ _ (by decide +kernel), by decide +kernel⟩,
   ⟨onHost ownedS (fun h => { h with sessions := [sess1, { sess1 with num := 63, key := 1 }] }), 0, dgram 0x03 [63, 0, 0, 0, 0, 0, 0, 0], sess1, { sess1 with num := 63, key := 1 }, 63, dgram_accepted _ _ _ _ (by decide +kernel), by decide +kernel⟩⟩

theorem witness_HostSessions :
    (∃ (s : State) (t : Nat) (d : _), linkUp s .host = true ∧ openCheck (atMt s t) .host d 0x70 = 0 ∧ isReady s = true
      ∧ keyInitOk d 0 36 = true ∧ keyValid s (leAt d.body 1 1) = true ∧ (s.host.helloTimes.filter fun x => decide (max
      (now s) t < x + 2500000000)).length < 1000) ∧
    (∃ (s : State) (t : Nat) (d : _) (ki : _) (tr : _), linkUp s .host = true ∧ openCheck (atMt s t) .host d 0x70 = 0
      ∧ isReady s = true ∧ keyInitOk d 1 4465 = true ∧ ki = leAt d.body 1 1 ∧ keyValid s ki = true ∧ ((freshNonces
      (max (now s) t) s.host.nonces).any fun e => e.1 == (d.body.drop 36).take 32) = true ∧ (∀ x ∈ s.host.sessions,
      x.key ≠ ki) ∧ s.host.sessions.length < 64 ∧ (freeNumber s).isSome = true ∧ tr = transcript s ((d.body.drop
      4).take 32) ((d.body.drop 36).take 32) ki (leAt d.body 2 1) ((d.body.drop 68).take 1088)) ∧
    (∃ (s : State) (t : Nat) (d : _) (se : Session), LinkAccepts (atMt s t) .host d 0x70 se ∧ leAt (plainBody se d) 0
      1 = 2) ∧
    (∃ (s : State) (t : Nat) (n : _) (se : Session), findSess s .host n = some se ∧ se.lastRx + 12500000000 ≤ max (now
      s) t) :=
  ⟨⟨readyS, 0, openDgram false 0x70 (List.replicate 36 0), by decide +kernel, open_check _ .host _ _ (by decide +kernel), by decide +kernel⟩,
   ⟨onHost readyS (fun h => { h with nonces := [(List.replicate 32 0, 0)] }), 0, openDgram false 0x70 (1 :: List.replicate 4464 0), 0, _, by decide +kernel, open_check _ .host _ _ (by decide +kernel), by decide +kernel, by decide +kernel, by decide +kernel, by decide +kernel, by decide +kernel, by decide +kernel, by decide +kernel, by decide +kernel, rfl⟩,
   ⟨ownedS, 0, dgram 0x70 (2 :: List.replicate 35 0), sess1, dgram_linked _ _ _ _ (by decide +kernel), by decide +kernel⟩,
   ⟨ownedS, 12500000000, 1, sess1, by decide +kernel⟩⟩

theorem witness_SessionTraffic :
    (∃ (s : State) (t : Nat) (lk : _) (d : _) (se : Session), LinkAccepts (atMt s t) lk d 0x60 se) ∧
    (∃ (s : State) (t : Nat) (lk : _) (d : _) (se : Session), LinkAccepts (atMt s t) lk d 0x7F se ∧ d.response = false
      ∧ (plainBody se d).length = 8) ∧
    (∃ (s : State) (t : Nat) (lk : _) (n : _) (q : _) (se : Session) (h : _), findSess s lk n = some se ∧
      (se.held.find? fun h => h.seq == q && h.tries != 0) = some h ∧ linkUp s lk = true ∧ h.lastTx + h.timeout ≤ max
      (now s) t) ∧
    (∃ (s : State) (t : Nat) (lk : _) (n : _) (q : _) (se : Session) (h : _), findSess s lk n = some se ∧
      (se.held.find? fun h => h.seq == q && h.tries != 0) = some h ∧ h.firstTx + ageLimit lk ≤ max (now s) t ∧ (∀ i,
      h.notice = some i → isOwner (atMt s t) se.num se.gen = false)) :=
  ⟨⟨ownedS, 0, .host, dgram 0x60 (List.replicate 20 0), sess1, dgram_linked _ _ _ _ (by decide +kernel)⟩,
   ⟨ownedS, 0, .host, dgram 0x7F (List.replicate 8 0), sess1, dgram_linked _ _ _ _ (by decide +kernel), by decide +kernel⟩,
   ⟨heldS, 5, .host, 1, 1, { sess1 with held := [heldMsg], txNext := 2 }, heldMsg, by decide +kernel⟩,
   ⟨heldS, 25000000, .host, 1, 1, { sess1 with held := [heldMsg], txNext := 2 }, heldMsg, by decide +kernel, by decide +kernel, by decide +kernel, fun i h => nomatch h⟩⟩

theorem witness_NoticesToOwner :
    (∃ (s : State) (t : Nat) (p : _) (q : _) (n : _) (g : _) (se : Session) (it : _) (rest : _), s.host.owner = some
      (n, g) ∧ findSess s .host n = some se ∧ isOwner (atMt s t) n g = true ∧ ownerQueue p q = true ∧ linkUp s .host =
      true ∧ se.held.length < 4096 ∧ FreshSeq se ∧ (s.host.returned.find? fun x => x.1 == qKey p q) = none ∧ pdkItems
      s p q = it :: rest) ∧
    (∃ (s : State) (t : Nat) (p : _) (q : _) (n : _) (g : _) (se : Session) (it : _) (rest : _), s.host.owner = some
      (n, g) ∧ findSess s .host n = some se ∧ isOwner (atMt s t) n g = true ∧ ownerQueue p q = true ∧ linkUp s .host =
      true ∧ se.held.length < 4096 ∧ FreshSeq se ∧ (s.host.returned.find? fun x => x.1 == qKey p q) = none ∧ pdkItems
      s p q = it :: rest) ∧
    (∃ (s : State) (t : Nat) (p : _) (q : _) (n : _) (g : _) (se : Session) (it : _), s.host.owner = some (n, g) ∧
      findSess s .host n = some se ∧ isOwner (atMt s t) n g = true ∧ ownerQueue p q = true ∧ linkUp s .host = true ∧
      se.held.length < 4096 ∧ FreshSeq se ∧ (s.host.returned.find? fun x => x.1 == qKey p q) = some it) :=
  ⟨⟨queued ownedS 4 11 [{}], 0, 4, 11, 1, 7, sess1, {}, [], by unfold FreshSeq; decide +kernel⟩,
   ⟨queued ownedS 0 136 [{}], 0, 0, 136, 1, 7, sess1, {}, [], by unfold FreshSeq; decide +kernel⟩,
   ⟨onHost ownedS (fun h => { h with returned := [(qKey 4 8, {})] }), 0, 4, 8, 1, 7, sess1, (qKey 4 8, {}), by unfold FreshSeq; decide +kernel⟩⟩

theorem witness_UnitRequests :
    (∃ (s : State) (t : Nat) (d : _) (se : Session) (b : _), HostAccepts (atMt s t) d 0x10 se ∧ b = plainBody se d ∧
      isOwner (atMt s t) se.num se.gen = true ∧ lengthRefusal b = none ∧ idRefusal s (hWu b) (hEpoch b) = none ∧
      pdkFits s 4 (hClass b) (cellsOfPayload b) = true) ∧
    (∃ (s : State) (t : Nat) (d : _) (se : Session) (b : _) (r : _) (x : _), HostAccepts (atMt s t) d 0x10 se ∧ b =
      plainBody se d ∧ isOwner (atMt s t) se.num se.gen = true ∧ lengthRefusal b = none ∧ idRefusal s (hWu b) (hEpoch
      b) = some (r, x) ∧ FreshSeq se) ∧
    (∃ (s : State) (t : Nat) (d : _) (se : Session) (b : _) (x : _), HostAccepts (atMt s t) d 0x13 se ∧ b = plainBody
      se d ∧ isOwner (atMt s t) se.num se.gen = true ∧ b.length = 8 ∧ leAt b 5 3 = 0 ∧ findUnit s (leAt b 0 4) = some
      x ∧ x.epoch = leAt b 4 1 ∧ x.decided = false) ∧
    (∃ (s : State) (t : Nat) (d : _) (se : Session) (typ : _), HostAccepts (atMt s t) d typ se ∧ isOwner (atMt s t)
      se.num se.gen = false ∧ FreshSeq se ∧ typ = 0x03) ∧
    (∃ (s : State) (t : Nat) (d : _) (se : Session) (typ : _), HostAccepts (atMt s t) d typ se ∧ isOwner (atMt s t)
      se.num se.gen = false ∧ FreshSeq se ∧ typ = 0x04) ∧
    (∃ (s : State) (t : Nat) (d : _) (se : Session) (typ : _), HostAccepts (atMt s t) d typ se ∧ isOwner (atMt s t)
      se.num se.gen = false ∧ FreshSeq se ∧ typ = 0x10) ∧
    (∃ (s : State) (t : Nat) (d : _) (se : Session) (typ : _), HostAccepts (atMt s t) d typ se ∧ isOwner (atMt s t)
      se.num se.gen = false ∧ FreshSeq se ∧ typ = 0x13) :=
  ⟨⟨ownedS, 0, dgram 0x10 (List.replicate 32 0), sess1, List.replicate 32 0, dgram_accepted _ _ _ _ (by decide +kernel), by decide +kernel⟩,
   ⟨withUnit ownedS unit0, 0, dgram 0x10 (List.replicate 32 0), sess1, List.replicate 32 0, 4, 0, dgram_accepted _ _ _ _ (by decide +kernel), by unfold FreshSeq; decide +kernel⟩,
   ⟨withUnit ownedS unit0, 0, dgram 0x13 (List.replicate 8 0), sess1, List.replicate 8 0, unit0, dgram_accepted _ _ _ _ (by decide +kernel), by decide +kernel⟩,
   ⟨vacantS, 0, dgram 0x03 [], sess1, 0x03, dgram_accepted _ _ _ _ (by decide +kernel), by unfold FreshSeq; decide +kernel⟩,
   ⟨vacantS, 0, dgram 0x04 [], sess1, 0x04, dgram_accepted _ _ _ _ (by decide +kernel), by unfold FreshSeq; decide +kernel⟩,
   ⟨vacantS, 0, dgram 0x10 [], sess1, 0x10, dgram_accepted _ _ _ _ (by decide +kernel), by unfold FreshSeq; decide +kernel⟩,
   ⟨vacantS, 0, dgram 0x13 [], sess1, 0x13, dgram_accepted _ _ _ _ (by decide +kernel), by unfold FreshSeq; decide +kernel⟩⟩

theorem witness_MemoryMessages :
    (∃ (s : State) (t : Nat) (d : _) (se : Session) (b : _) (va : _) (n : _) (pa : _) (leaf : _), HostAccepts (atMt s
      t) d 0x20 se ∧ b = plainBody se d ∧ isOwner (atMt s t) se.num se.gen = true ∧ va = leAt b 0 6 ∧ n = leAt b 8 2 ∧
      badRange va n = false ∧ b.length = 16 + n ∧ leAt b 10 6 = 0 ∧ va % 2097152 + n ≤ 2097152 ∧
      Sys2Proof.Machine.translate s 4 (leAt b 6 2) va = .ok pa leaf ∧ pa % 4096 + n ≤ 4096) ∧
    (∃ (s : State) (t : Nat) (d : _) (se : Session) (b : _) (va : _) (n : _) (pa : _) (leaf : _), HostAccepts (atMt s
      t) d 0x20 se ∧ b = plainBody se d ∧ isOwner (atMt s t) se.num se.gen = true ∧ va = leAt b 0 6 ∧ n = leAt b 8 2 ∧
      badRange va n = false ∧ b.length = 16 + n ∧ leAt b 10 6 = 0 ∧ va % 2097152 + n ≤ 2097152 ∧
      Sys2Proof.Machine.translate s 4 (leAt b 6 2) va = .ok pa leaf ∧ pa % 4096 + n ≤ 4096) ∧
    (∃ (s : State) (t : Nat) (d : _) (se : Session) (b : _) (va : _) (n : _) (pa : _) (leaf : _) (l : _), HostAccepts
      (atMt s t) d 0x21 se ∧ b = plainBody se d ∧ va = leAt b 0 6 ∧ n = leAt b 8 2 ∧ b.length = 16 ∧ badRange va n =
      false ∧ leAt b 10 2 = 0 ∧ va % 2097152 + n ≤ 2097152 ∧ Sys2Proof.Machine.translate s 4 (leAt b 6 2) va = .ok pa
      leaf ∧ (isOwner (atMt s t) se.num se.gen = true ∨ bit leaf 4 = true) ∧ FreshSeq se ∧ l = paRead s pa n) ∧
    (∃ (s : State) (t : Nat) (d : _) (se : Session) (b : _) (va : _) (n : _) (pa : _) (leaf : _), HostAccepts (atMt s
      t) d 0x21 se ∧ b = plainBody se d ∧ va = leAt b 0 6 ∧ n = leAt b 8 2 ∧ b.length = 16 ∧ badRange va n = false ∧
      leAt b 10 2 = 0 ∧ va % 2097152 + n ≤ 2097152 ∧ Sys2Proof.Machine.translate s 4 (leAt b 6 2) va = .ok pa leaf ∧
      isOwner (atMt s t) se.num se.gen = false ∧ bit leaf 4 = false ∧ FreshSeq se) :=
  ⟨⟨mapped ownedS, 0, dgram 0x20 ([0, 0, 0, 0, 0, 0, 0, 0, 1, 0, 0, 0, 0, 0, 0, 0] ++ List.replicate 1 0x55), sess1, [0, 0, 0, 0, 0, 0, 0, 0, 1, 0, 0, 0, 0, 0, 0, 0] ++ List.replicate 1 0x55, 0, 1, 0, 0x17, dgram_accepted _ _ _ _ (by decide +kernel), by decide +kernel⟩,
   ⟨mapped ownedS, 0, dgram 0x20 [0xFF, 0xFF, 0x1F, 0, 0, 0, 0, 0, 1, 0, 0, 0, 0, 0, 0, 0, 0x55], sess1, [0xFF, 0xFF, 0x1F, 0, 0, 0, 0, 0, 1, 0, 0, 0, 0, 0, 0, 0, 0x55], 0x1FFFFF, 1, 0x1FFFFF, 0x17, dgram_accepted _ _ _ _ (by decide +kernel), by decide +kernel⟩,
   ⟨mapped vacantS, 0, dgram 0x21 [0, 0, 0, 0, 0, 0, 0, 0, 1, 0, 0, 0, 0, 0, 0, 0], sess1, [0, 0, 0, 0, 0, 0, 0, 0, 1, 0, 0, 0, 0, 0, 0, 0], 0, 1, 0, 0x17, [(0, false)], dgram_accepted _ _ _ _ (by decide +kernel), by unfold FreshSeq; decide +kernel⟩,
   ⟨{ vacantS with hbm := { vacantS.hbm with tlb := [⟨4, 0, 0, 0x07⟩] } }, 0, dgram 0x21 [0, 0, 0, 0, 0, 0, 0, 0, 1, 0, 0, 0, 0, 0, 0, 0], sess1, [0, 0, 0, 0, 0, 0, 0, 0, 1, 0, 0, 0, 0, 0, 0, 0], 0, 1, 0, 0x07, dgram_accepted _ _ _ _ (by decide +kernel), by unfold FreshSeq; decide +kernel⟩⟩

theorem witness_Management :
    (∃ (s : State) (t : Nat) (d : _) (se : Session) (b : _) (off : _) (n : _), HostAccepts (atMt s t) d 0x30 se ∧ b =
      plainBody se d ∧ mgmtBad b 12 = none ∧ off = leAt b 0 3 ∧ n = leAt b 4 2 ∧ firstInvalid s off n = none ∧
      FreshSeq se) ∧
    (∃ (s : State) (t : Nat) (d : _) (se : Session) (b : _) (off : _) (n : _) (x : _), HostAccepts (atMt s t) d 0x30
      se ∧ b = plainBody se d ∧ mgmtBad b 12 = none ∧ off = leAt b 0 3 ∧ n = leAt b 4 2 ∧ firstInvalid s off n = some
      x ∧ FreshSeq se) ∧
    (∃ (s : State) (t : Nat) (d : _) (se : Session) (b : _), HostAccepts (atMt s t) d 0x31 se ∧ b = plainBody se d ∧
      isOwner (atMt s t) se.num se.gen = true ∧ mgmtBad b 12 = none ∧ leAt b 4 2 = 1 ∧ leAt b 0 3 = 0x040010) ∧
    (∃ (s : State) (t : Nat) (d : _) (se : Session), HostAccepts (atMt s t) d 0x31 se ∧ isOwner (atMt s t) se.num
      se.gen = false ∧ FreshSeq se) :=
  ⟨⟨vacantS, 0, dgram 0x30 [0xFC, 0xFF, 0x0F, 0, 1, 0, 0, 0, 0, 0, 0, 0], sess1, [0xFC, 0xFF, 0x0F, 0, 1, 0, 0, 0, 0, 0, 0, 0], 0x0FFFFC, 1, dgram_accepted _ _ _ _ (by decide +kernel), by unfold FreshSeq; decide +kernel⟩,
   ⟨vacantS, 0, dgram 0x30 [0, 0x31, 0x0B, 0, 1, 0, 0, 0, 0, 0, 0, 0], sess1, [0, 0x31, 0x0B, 0, 1, 0, 0, 0, 0, 0, 0, 0], 0x0B3100, 1, 0x0B3100, dgram_accepted _ _ _ _ (by decide +kernel), by unfold FreshSeq; decide +kernel⟩,
   ⟨ownedS, 0, dgram 0x31 [0x10, 0, 4, 0, 1, 0, 0, 0, 5, 0, 0, 0], sess1, [0x10, 0, 4, 0, 1, 0, 0, 0, 5, 0, 0, 0], dgram_accepted _ _ _ _ (by decide +kernel), by decide +kernel⟩,
   ⟨vacantS, 0, dgram 0x31 [], sess1, dgram_accepted _ _ _ _ (by decide +kernel), by unfold FreshSeq; decide +kernel⟩⟩

theorem witness_RegisterWrites :
    (∃ (s : State) (off : _), isReady s = true ∧ off < 0x1000 ∧ off % 4 = 0) ∧
    (∃ (s : State) (p : _), isReady s = true ∧ p < 544) ∧
    (∃ (s : State) (k : _), isReady s = true ∧ k < 20) ∧
    (∃ (s : State), isReady s = true) ∧
    (∃ (s : State), isReady s = true ∧ cfgDevMode s = true) :=
  ⟨⟨readyS, 0xFFC, by decide +kernel⟩,
   ⟨readyS, 543, by decide +kernel⟩,
   ⟨readyS, 19, by decide +kernel⟩,
   ⟨readyS, by decide +kernel⟩,
   ⟨readyS, by decide +kernel⟩⟩

theorem witness_MeterAndAttest :
    (∃ (s : State) (t : Nat) (d : _) (se : Session) (b : _), HostAccepts (atMt s t) d 0x50 se ∧ b = plainBody se d ∧
      b.length = 32 ∧ s.meter.linkOk = true) ∧
    (∃ (s : State) (t : Nat) (d : _) (se : Session) (b : _), HostAccepts (atMt s t) d 0x50 se ∧ b = plainBody se d ∧
      b.length = 32 ∧ s.meter.linkOk = false ∧ FreshSeq se) ∧
    (∃ (s : State) (t : Nat) (d : _) (se : Session) (b : _) (r : _), HostAccepts (atMt s t) d 0x58 se ∧ b = plainBody
      se d ∧ b.length = 40 ∧ leAt b 36 4 = 0 ∧ FreshSeq se ∧ r = attestReport (atMt s t) se b) :=
  ⟨⟨{ vacantS with meter := { vacantS.meter with linkOk := true } }, 0, dgram 0x50 (List.replicate 32 0), sess1, List.replicate 32 0, dgram_accepted _ _ _ _ (by decide +kernel), by decide +kernel⟩,
   ⟨vacantS, 0, dgram 0x50 (List.replicate 32 0), sess1, List.replicate 32 0, dgram_accepted _ _ _ _ (by decide +kernel), by unfold FreshSeq; decide +kernel⟩,
   ⟨vacantS, 0, dgram 0x58 (List.replicate 40 0), sess1, List.replicate 40 0, _, dgram_accepted _ _ _ _ (by decide +kernel), by decide +kernel, by decide +kernel, by decide +kernel, by unfold FreshSeq; decide +kernel, rfl⟩⟩

theorem witness_ChainsAndLayers :
    (∃ (s : State) (c : _) (it : _) (rest : _) (x : _) (b : _) (ds : _), isReady s = true ∧ s.disp.restarting = false
      ∧ c < 8 ∧ pdkItems s 4 c = it :: rest ∧ it.kind ≠ 1 ∧ (candidates s).length < 4096 ∧ findUnit s it.wuId = some x
      ∧ x.queued = true ∧ x.epoch = it.epoch ∧ it.poison = false ∧ headerOk x.header = true ∧ chainBody s x.header
      it.payload = .ok b ∧ ds = records 128 (hDescCount x.header) b ∧ ds.getLast?.map dOp = some 0x3F ∧ loopsOk ds =
      true) ∧
    (∃ (s : State) (c : _) (it : _) (rest : _) (x : _), isReady s = true ∧ s.disp.restarting = false ∧ c < 8 ∧
      pdkItems s 4 c = it :: rest ∧ it.kind ≠ 1 ∧ (candidates s).length < 4096 ∧ findUnit s it.wuId = some x ∧
      x.queued = true ∧ x.epoch = it.epoch ∧ it.poison = false ∧ headerOk x.header = false) ∧
    (∃ (s : State) (t : Nat) (wu : _) (x : _), findUnit s wu = some x ∧ mayStart (atMt s t) x = true) :=
  ⟨⟨queued (withUnit readyS { unit0 with header := header1 }) 4 0 [{ payload := header1 ++ smallDesc 0x3F 0 }], 0, { payload := header1 ++ smallDesc 0x3F 0 }, [], { unit0 with header := header1 }, smallDesc 0x3F 0, [smallDesc 0x3F 0], by decide +kernel, by decide +kernel, by decide +kernel, by decide +kernel, by decide +kernel, by decide +kernel, by decide +kernel, by decide +kernel, by decide +kernel, by decide +kernel, by decide +kernel, rfl, by decide +kernel⟩,
   ⟨queued (withUnit readyS unit0) 4 7 [{}], 7, {}, [], unit0, by decide +kernel⟩,
   ⟨runS { runUnit (smallDesc 0x3F 0) with started := false }, 0, 0, { runUnit (smallDesc 0x3F 0) with started := false }, by decide +kernel⟩⟩

theorem witness_WorkCountersAndNotices :
    (∃ (s : State) (r : _) (x : _) (d : _) (p : _), liveRun s r = some (x, d) ∧ freePair s = some p ∧ d.tickets ≠ [] ∧
      d.pair = none ∧ s.disp.restarting = false ∧ p < 2048) ∧
    (∃ (s : State) (r : _) (x : _) (d : _) (p : _), liveRun s r = some (x, d) ∧ d.pair = some p ∧ d.posted = false ∧
      s.disp.restarting = false ∧ (∀ l ∈ d.members, pdkFits s (inboxOf (physOf s l)).1 (inboxOf (physOf s l)).2 1 =
      true)) :=
  ⟨⟨withUnit readyS (unitOf run1), ⟨0, 0, 0⟩, unitOf run1, run1, 0, by decide +kernel⟩,
   ⟨withUnit readyS (unitOf { run1 with pair := some 0 }), ⟨0, 0, 0⟩, unitOf { run1 with pair := some 0 }, { run1 with pair := some 0 }, 0, by decide +kernel⟩⟩

theorem witness_DescriptorIssue :
    (∃ (c : _) (t : Nat) (wu : _) (op : _) (s : State) (x : _) (d : _) (n : _), issueOp c = some (t, wu, op) ∧ Issues
      s t wu op x d n) ∧
    (∃ (c : _) (t : Nat) (wu : _) (op : _) (s : State) (x : _) (d : _) (n : _), issueOp c = some (t, wu, op) ∧ Issues
      s t wu op x d n) ∧
    (∃ (c : _) (t : Nat) (wu : _) (op : _) (s : State) (x : _) (w : _), issueOp c = some (t, wu, op) ∧ findUnit s wu =
      some x ∧ mayIssue (atMt s t) x op = true ∧ issueRun (atMt s t) x (nextRef x) (nextRaw x) = .error w) ∧
    (∃ (c : _) (t : Nat) (wu : _) (op : _) (s : State) (x : _), issueOp c = some (t, wu, op) ∧ findUnit s wu = some x
      ∧ mayIssue (atMt s t) x op = false) ∧
    (∃ (s : State) (t : Nat) (wu : _) (x : _) (d : _) (n : _) (k : _), Issues s t wu 0x22 x d n ∧ dOp (nextRaw x) =
      0x22 ∧ k = dCounter (nextRaw x)) ∧
    (∃ (s : State) (t : Nat) (wu : _) (x : _) (d : _) (n : _) (k : _), Issues s t wu 0x21 x d n ∧ dOp (nextRaw x) =
      0x21 ∧ k = dCounter (nextRaw x) ∧ x.runs.all (·.complete) = true ∧ (getCtr s k).epoch < 256) ∧
    (∃ (s : State) (t : Nat) (wu : _) (x : _) (d : _) (n : _) (b : _) (p : _), Issues s t wu 0x20 x d n ∧ dOp (nextRaw
      x) = 0x20 ∧ b = dBarrier (nextRaw x) ∧ p = dParam0 (nextRaw x) ∧ x.runs.all (·.complete) = true ∧ ((getBar s
      b).arrivals = [] ∨ (getBar s b).parties = p)) :=
  ⟨⟨.wait 0 0, 0, 0, 0x22, runS (runUnit (smallDesc 0x22 0)), runUnit (smallDesc 0x22 0), issued (runS (runUnit (smallDesc 0x22 0))) (runUnit (smallDesc 0x22 0)), 0, rfl, ⟨by decide +kernel, by decide +kernel, eq_okOf _ _ (by decide +kernel), by decide +kernel, rfl⟩⟩,
   ⟨.layerEnd 0 0, 0, 0, 0x3F, runS (runUnit (smallDesc 0x3F 0)), runUnit (smallDesc 0x3F 0), issued (runS (runUnit (smallDesc 0x3F 0))) (runUnit (smallDesc 0x3F 0)), 0, rfl, ⟨by decide +kernel, by decide +kernel, eq_okOf _ _ (by decide +kernel), by decide +kernel, rfl⟩⟩,
   ⟨.wait 0 0, 0, 0, 0x22, withUnit readyS (runUnit (smallDesc 0x22 0)), runUnit (smallDesc 0x22 0), _, rfl, by decide +kernel, by decide +kernel, eq_errOf _ badDesc (by decide +kernel)⟩,
   ⟨.denseMm 0 0, 0, 0, 0x01, runS (runUnit (smallDesc 0x22 0)), runUnit (smallDesc 0x22 0), rfl, by decide +kernel⟩,
   ⟨runS (runUnit (smallDesc 0x22 0)), 0, 0, runUnit (smallDesc 0x22 0), issued (runS (runUnit (smallDesc 0x22 0))) (runUnit (smallDesc 0x22 0)), 0, 0, ⟨by decide +kernel, by decide +kernel, eq_okOf _ _ (by decide +kernel), by decide +kernel, rfl⟩, by decide +kernel⟩,
   ⟨runS (runUnit (smallDesc 0x21 1)), 0, 0, runUnit (smallDesc 0x21 1), issued (runS (runUnit (smallDesc 0x21 1))) (runUnit (smallDesc 0x21 1)), 0, 0, ⟨by decide +kernel, by decide +kernel, eq_okOf _ _ (by decide +kernel), by decide +kernel, rfl⟩, by decide +kernel⟩,
   ⟨runS (runUnit (smallDesc 0x20 1)), 0, 0, runUnit (smallDesc 0x20 1), issued (runS (runUnit (smallDesc 0x20 1))) (runUnit (smallDesc 0x20 1)), 0, 0, 1, ⟨by decide +kernel, by decide +kernel, eq_okOf _ _ (by decide +kernel), by decide +kernel, rfl⟩, by decide +kernel⟩⟩

theorem witness_TicketTakes :
    (∃ (s : State) (l : _) (r : _) (n : _) (d : _) (v : _) (k : _) (tk : _), MayTake s l r n ∧ v = (getCtr s (takeCtr
      n.pair)).value.toNat ∧ findRun s r = some d ∧ d.order[v]? = some k ∧ d.tickets[k]? = some tk ∧ inboxRoom d tk =
      true ∧ n.epoch % 256 = (getCtr s (takeCtr n.pair)).epoch) ∧
    (∃ (s : State) (l : _) (r : _) (n : _) (d : _) (v : _) (k : _) (tk : _), MayTake s l r n ∧ v = (getCtr s (takeCtr
      n.pair)).value.toNat ∧ findRun s r = some d ∧ d.order[v]? = some k ∧ d.tickets[k]? = some tk ∧ inboxRoom d tk =
      true ∧ n.epoch % 256 = (getCtr s (takeCtr n.pair)).epoch ∧ accumulates d = true ∧ (getClu s (physOf s
      l)).running = none ∧ (∀ w ∈ s.reins.waits, w.ctr ≠ takeCtr n.pair)) ∧
    (∃ (s : State) (l : _) (r : _) (n : _) (d : _) (v : _), MayTake s l r n ∧ v = (getCtr s (takeCtr
      n.pair)).value.toNat ∧ findRun s r = some d ∧ d.order[v]? = none ∧ n.epoch % 256 = (getCtr s (takeCtr
      n.pair)).epoch) ∧
    (∃ (s : State) (l : _) (r : _) (n : _) (d : _), MayTake s l r n ∧ findRun s r = some d ∧ (∀ tk ∈ d.tickets,
      inboxRoom d tk = true) ∧ n.epoch % 256 ≠ (getCtr s (takeCtr n.pair)).epoch) :=
  ⟨⟨takeS run1 0, 0, ⟨0, 0, 0⟩, ⟨⟨0, 0, 0⟩, 0, 0, 1⟩, run1, 0, 0, ticketOf 0 0, by unfold MayTake; decide +kernel, by decide +kernel⟩,
   ⟨takeS run1 0, 0, ⟨0, 0, 0⟩, ⟨⟨0, 0, 0⟩, 0, 0, 1⟩, run1, 0, 0, ticketOf 0 0, by unfold MayTake; decide +kernel, by decide +kernel⟩,
   ⟨takeS { run1 with order := [] } 0, 0, ⟨0, 0, 0⟩, ⟨⟨0, 0, 0⟩, 0, 0, 1⟩, { run1 with order := [] }, 0, by unfold MayTake; decide +kernel, by decide +kernel⟩,
   ⟨takeS run1 1, 0, ⟨0, 0, 0⟩, ⟨⟨0, 0, 0⟩, 0, 1, 1⟩, run1, by unfold MayTake; decide +kernel, by decide +kernel⟩⟩

theorem witness_PassesAndCheckpoints :
    (∃ (s : State) (l : _) (p : _) (x : _) (d : _), p = physOf s l ∧ (getClu s p).running = some x ∧ findRun s x.ref =
      some d ∧ d.isInt = true ∧ x.fill.all residueOk = true ∧ x.fill.any (·.mark) = true ∧ x.shift < 8) ∧
    (∃ (s : State) (l : _) (p : _) (x : _) (d : _), p = physOf s l ∧ (getClu s p).running = some x ∧ findRun s x.ref =
      some d ∧ (d.isInt = false ∨ (x.fill.all residueOk = true ∧ (x.fill.any (·.mark) = false ∨ 8 ≤ x.shift))) ∧
      (getClu s p).drain = none) ∧
    (∃ (s : State) (l : _) (p : _) (x : _) (d : _), p = physOf s l ∧ (getClu s p).running = some x ∧ findRun s x.ref =
      some d ∧ (d.isInt = false ∨ (x.fill.all residueOk = true ∧ (x.fill.any (·.mark) = false ∨ 8 ≤ x.shift))) ∧
      (getClu s p).drain = none) ∧
    (∃ (s : State) (l : _) (p : _) (x : _) (d : _), p = physOf s l ∧ (getClu s p).running = some x ∧ findRun s x.ref =
      some d ∧ d.isInt = true ∧ x.fill.all residueOk = false ∧ (getClu s p).halter = false) ∧
    (∃ (s : State) (l : _) (p : _) (x : _) (d : _), p = physOf s l ∧ (getClu s p).running = some x ∧ findRun s x.ref =
      some d ∧ d.isInt = true ∧ x.fill.all residueOk = true) ∧
    (∃ (s : State) (l : _) (p : _) (x : _) (d : _), p = physOf s l ∧ (getClu s p).running = some x ∧ findRun s x.ref =
      some d ∧ d.isInt = false ∧ (getClu s p).halter = false) :=
  ⟨⟨passS { run1 with isInt := true } [{ mark := true }], 0, 0, running1 [{ mark := true }], { run1 with isInt := true }, by decide +kernel⟩,
   ⟨passS run1 [], 0, 0, running1 [], run1, by decide +kernel⟩,
   ⟨passS { run1 with isInt := true } [{}], 0, 0, running1 [{}], { run1 with isInt := true }, by decide +kernel⟩,
   ⟨passS { run1 with isInt := true } [{ res := 1 }], 0, 0, running1 [{ res := 1 }], { run1 with isInt := true }, by decide +kernel⟩,
   ⟨passS { run1 with isInt := true } [{}], 0, 0, running1 [{}], { run1 with isInt := true }, by decide +kernel⟩,
   ⟨passS run1 [], 0, 0, running1 [], run1, by decide +kernel⟩⟩

theorem witness_DrainsTreesTiles :
    (∃ (s : State) (l : _) (p : _) (c : _) (dr : _) (d : _), p = physOf s l ∧ c = getClu s p ∧ c.drain = some dr ∧
      findRun s dr.ref = some d ∧ dr.last = false) ∧
    (∃ (s : State) (l : _) (p : _) (c : _) (dr : _) (d : _) (vals : _), p = physOf s l ∧ c = getClu s p ∧ c.drain =
      some dr ∧ findRun s dr.ref = some d ∧ dr.last = true ∧ 1 < piecesOf d dr.tk.tile ∧ vals = (((numsFrom 0
      dr.acc.length).zip dr.acc).map fun e => wideAdd (dr.pass == 0) (nth (.i64 0, false) c.wide e.1) (widen d.isInt
      dr.shift e.2, nth false dr.bad e.1))) ∧
    (∃ (s : State) (l : _) (p : _) (c : _) (dr : _) (d : _), p = physOf s l ∧ c = getClu s p ∧ c.drain = some dr ∧
      findRun s dr.ref = some d ∧ dr.last = true ∧ piecesOf d dr.tk.tile ≤ 1 ∧ pathOpen d dr.tk.tile) ∧
    (∃ (s : State) (r : _) (d : _) (tile : _) (lo : _) (hi : _) (a : _) (b : _) (e : _), findRun s r = some d ∧ served
      s (homeOf d tile) = true ∧ (getClu s (physOf s (homeOf d tile))).halter = false ∧ (getClu s (physOf s (homeOf d
      tile))).drain = none ∧ nodeChildren d tile lo hi = some (a, b) ∧ e = combineEntries (dRedKind d.raw == 1 && d.op
      == 0x10) a b ∧ ¬ (lo = 0 ∧ hi = piecesOf d tile)) ∧
    (∃ (s : State) (r : _) (d : _) (tile : _) (lo : _) (hi : _) (a : _) (b : _) (e : _), findRun s r = some d ∧ served
      s (homeOf d tile) = true ∧ (getClu s (physOf s (homeOf d tile))).halter = false ∧ (getClu s (physOf s (homeOf d
      tile))).drain = none ∧ nodeChildren d tile lo hi = some (a, b) ∧ e = combineEntries (dRedKind d.raw == 1 && d.op
      == 0x10) a b ∧ (lo = 0 ∧ hi = piecesOf d tile) ∧ pathOpen d tile) ∧
    (∃ (s : State) (r : _) (d : _) (p : _) (tile : _), findRun s r = some d ∧ d.pair = some p ∧ tile ∈ d.rooted ∧ tile
      ∉ d.done ∧ (isPhased d = true → d.phase = 2) ∧ (writesLate d = true → d.tiles ≤ d.rooted.length) ∧ d.pairEpoch %
      256 = (getCtr s (doneCtr p)).epoch ∧ (∀ w ∈ s.reins.waits, w.ctr ≠ doneCtr p)) ∧
    (∃ (s : State) (r : _) (d : _), findRun s r = some d ∧ isPhased d = true ∧ d.phase = 0 ∧ d.tiles ≠ 0 ∧ d.tiles ≤
      d.rooted.length) ∧
    (∃ (s : State) (r : _) (d : _), findRun s r = some d ∧ isPhased d = true ∧ d.phase = 1) :=
  ⟨⟨drainS run1 false, 0, 0, getClu (drainS run1 false) 0, drain1 false, run1, by decide +kernel⟩,
   ⟨drainS (splitRun 2 []) true, 0, 0, getClu (drainS (splitRun 2 []) true) 0, drain1 true, splitRun 2 [], [], by decide +kernel, by decide +kernel, by decide +kernel, by decide +kernel, by decide +kernel, by decide +kernel, by decide +kernel⟩,
   ⟨drainS (splitRun 1 []) true, 0, 0, getClu (drainS (splitRun 1 []) true) 0, drain1 true, splitRun 1 [], by decide +kernel, by decide +kernel, by decide +kernel, by decide +kernel, by decide +kernel, by decide +kernel, by unfold pathOpen; decide +kernel⟩,
   ⟨withUnit readyS (unitOf (splitRun 4 [node1 0 1, node1 1 2])), ⟨0, 0, 0⟩, splitRun 4 [node1 0 1, node1 1 2], 0, 0, 2, node1 0 1, node1 1 2, _, by decide +kernel, by decide +kernel, by decide +kernel, by decide +kernel, by decide +kernel, rfl, by decide +kernel⟩,
   ⟨withUnit readyS (unitOf (splitRun 2 [node1 0 1, node1 1 2])), ⟨0, 0, 0⟩, splitRun 2 [node1 0 1, node1 1 2], 0, 0, 2, node1 0 1, node1 1 2, _, by decide +kernel, by decide +kernel, by decide +kernel, by decide +kernel, by decide +kernel, rfl, by decide +kernel, by unfold pathOpen; decide +kernel⟩,
   ⟨withUnit readyS (unitOf { run1 with pair := some 0, rooted := [0] }), ⟨0, 0, 0⟩, { run1 with pair := some 0, rooted := [0] }, 0, 0, by decide +kernel⟩,
   ⟨withUnit readyS (unitOf { run1 with raw := [2, 0, 1], rooted := [0] }), ⟨0, 0, 0⟩, { run1 with raw := [2, 0, 1], rooted := [0] }, by decide +kernel⟩,
   ⟨withUnit readyS (unitOf { run1 with raw := [2, 0, 1], phase := 1 }), ⟨0, 0, 0⟩, { run1 with raw := [2, 0, 1], phase := 1 }, by decide +kernel⟩⟩

theorem witness_Completion :
    (∃ (s : State) (t : Nat) (r : _) (x : _) (d : _), liveRun s r = some (x, d) ∧ s.disp.restarting = false ∧ d.op ≠
      0x3F ∧ ((d.op = 0x20 ∨ d.op = 0x21) → d.phase ≠ 0) ∧ runDone (atMt s t) x d = true) ∧
    (∃ (s : State) (t : Nat) (r : _) (x : _) (d : _), liveRun s r = some (x, d) ∧ s.disp.restarting = false ∧ d.op ≠
      0x3F ∧ ((d.op = 0x20 ∨ d.op = 0x21) → d.phase ≠ 0) ∧ runDone (atMt s t) x d = true) ∧
    (∃ (s : State) (t : Nat) (wu : _) (x : _) (d : _), findUnit s wu = some x ∧ x.runs.getLast? = some d ∧ d.op = 0x3F
      ∧ d.complete = false ∧ healthy x = true ∧ x.decided = false ∧ s.disp.restarting = false ∧ runDone (atMt s t) x d
      = true ∧ x.next < x.descs.length) ∧
    (∃ (s : State) (t : Nat) (wu : _) (x : _) (d : _), findUnit s wu = some x ∧ x.runs.getLast? = some d ∧ d.op = 0x3F
      ∧ d.complete = false ∧ healthy x = true ∧ x.decided = false ∧ s.disp.restarting = false ∧ runDone (atMt s t) x d
      = true ∧ x.descs.length ≤ x.next ∧ pdkFits s 4 8 1 = true) :=
  ⟨⟨withUnit readyS (unitOf { run1 with op := 0x31 }), 0, ⟨0, 0, 0⟩, unitOf { run1 with op := 0x31 }, { run1 with op := 0x31 }, by decide +kernel⟩,
   ⟨withUnit readyS (unitOf { run1 with done := [0] }), 0, ⟨0, 0, 0⟩, unitOf { run1 with done := [0] }, { run1 with done := [0] }, by decide +kernel⟩,
   ⟨withUnit readyS { unitOf { run1 with op := 0x3F } with next := 0 }, 0, 0, { unitOf { run1 with op := 0x3F } with next := 0 }, { run1 with op := 0x3F }, by decide +kernel⟩,
   ⟨withUnit readyS (unitOf { run1 with op := 0x3F }), 0, 0, unitOf { run1 with op := 0x3F }, { run1 with op := 0x3F }, by decide +kernel⟩⟩

theorem witness_Discards :
    (∃ (s : State) (wu : _) (x : _), findUnit s wu = some x ∧ x.decided = false ∧ x.causes ≠ []) ∧
    (∃ (s : State) (l : _) (wu : _) (x : _), findUnit s wu = some x ∧ x.decided = true ∧ x.holds.contains l = true ∧
      x.confirmed.contains l = false) ∧
    (∃ (s : State) (wu : _) (x : _) (c : _), findUnit s wu = some x ∧ noticeCause x.causes = some c ∧ releasable s x =
      true) :=
  ⟨⟨withUnit readyS { unit0 with causes := [⟨0, 1, 0, []⟩] }, 0, { unit0 with causes := [⟨0, 1, 0, []⟩] }, by decide +kernel⟩,
   ⟨withUnit readyS { unit0 with decided := true, holds := [511] }, 511, 0, { unit0 with decided := true, holds := [511] }, by decide +kernel⟩,
   ⟨withUnit readyS { unit0 with decided := true, causes := [⟨0, 1, 0, []⟩] }, 0, { unit0 with decided := true, causes := [⟨0, 1, 0, []⟩] }, ⟨0, 1, 0, []⟩, by decide +kernel⟩⟩

theorem witness_MeterTapsAndTime :
    (∃ (s : State) (wu : _) (ep : _) (mt : _) (rest : _), s.meter.arrivalTap = .submitArrival wu ep mt :: rest ∧
      s.meter.pending.length < 262144) ∧
    (∃ (s : State) (wu : _) (ep : _) (mt : _) (rest : _), s.meter.arrivalTap = .submitArrival wu ep mt :: rest ∧
      262144 ≤ s.meter.pending.length ∧ (∀ e ∈ s.meter.pending, e.1 ≠ wu)) ∧
    (∃ (s : State) (wu : _) (ep : _) (mt : _) (rest : _) (w : _) (em : _) (st : _) (a : _) (b : _) (x : _) (v : _),
      s.meter.departTap = .completeDeparture wu ep mt :: rest ∧ s.meter.events = [.completeEvent wu ep w em st a b x]
      ∧ bit w 15 = true ∧ pendingArrival s.meter wu ep = some v) ∧
    (∃ (s : State) (wu : _) (ep : _) (mt : _) (rest : _), s.meter.departTap = .completeDeparture wu ep mt :: rest ∧
      s.meter.events = []) ∧
    (∃ (s : State) (wu : _) (ep : _) (w : _) (em : _) (st : _) (a : _) (b : _) (mt : _) (rest : _),
      s.meter.completionTap = .completeEvent wu ep w em st a b mt :: rest ∧ s.meter.departs = []) ∧
    (∃ (s : State) (wu : _) (ep : _) (w : _) (em : _) (st : _) (a : _) (b : _) (mt : _) (rest : _) (d : _),
      s.meter.completionTap = .completeEvent wu ep w em st a b mt :: rest ∧ s.meter.departs = [d] ∧ d.wu = wu ∧
      d.epoch = ep ∧ bit w 15 = false) ∧
    (∃ (s : State) (t : Nat) (wu : _) (ep : _) (a : _), pendingArrival s.meter wu ep = some a ∧ a + 200 * oneSecond ≤
      max (now s) t) ∧
    (∃ (s : State) (t : Nat) (d : _), s.meter.departs = [d] ∧ d.mt + oneSecond < max (now s) t) ∧
    (∃ (s : State) (c : _) (rest : _), s.meter.faultTap = .faultLog c :: rest ∧ leAt c 0 2 = 0x0009 ∧ leAt c 3 1 = 0)
      ∧
    (∃ (s : State) (c : _) (rest : _) (k : _), s.meter.faultTap = .faultLog c :: rest ∧ leAt c 0 2 = 0x0009 ∧ leAt c 3
      1 = 1 ∧ s.meter.caps = [k] ∧ k.res = leAt c 4 4 ∧ k.condition = leAt c 24 8 ∧ k.stop = none) ∧
    (∃ (s : State) (a : _), isReady s = true ∧ s.meter.lastTime = some a) :=
  ⟨⟨metered (fun m => { m with arrivalTap := [.submitArrival 0 0 0] }), 0, 0, 0, [], by decide +kernel⟩,
   full_table.elim fun l h => ⟨metered (fun m => { m with arrivalTap := [.submitArrival 0 0 0], pending := l }), 0, 0, 0, [], rfl, h.1, h.2⟩,
   ⟨metered (fun m => { m with departTap := [.completeDeparture 0 0 0], events := [.completeEvent 0 0 0x8000 0 0 0 0 0], pending := [(0, 0, 0)] }), 0, 0, 0, [], 0x8000, 0, 0, 0, 0, 0, 0, by decide +kernel⟩,
   ⟨metered (fun m => { m with departTap := [.completeDeparture 0 0 0] }), 0, 0, 0, [], by decide +kernel⟩,
   ⟨metered (fun m => { m with completionTap := [.completeEvent 0 0 0 0 0 0 0 0] }), 0, 0, 0, 0, 0, 0, 0, 0, [], by decide +kernel⟩,
   ⟨metered (fun m => { m with completionTap := [.completeEvent 0 0 0 0 0 0 0 0], departs := [⟨0, 0, 0, none⟩] }), 0, 0, 0, 0, 0, 0, 0, 0, [], ⟨0, 0, 0, none⟩, by decide +kernel⟩,
   ⟨metered (fun m => { m with pending := [(0, 0, 0)] }), 500000000000, 0, 0, 0, by decide +kernel⟩,
   ⟨metered (fun m => { m with departs := [⟨0, 0, 0, none⟩] }), 2500000001, ⟨0, 0, 0, none⟩, by decide +kernel⟩,
   ⟨metered (fun m => { m with faultTap := [.faultLog (9 :: List.replicate 63 0)] }), 9 :: List.replicate 63 0, [], by decide +kernel⟩,
   ⟨metered (fun m => { m with faultTap := [.faultLog ([9, 0, 0, 1] ++ List.replicate 60 0)], caps := [⟨0, 0, none, 0, 0, false⟩] }), [9, 0, 0, 1] ++ List.replicate 60 0, [], ⟨0, 0, none, 0, 0, false⟩, by decide +kernel⟩,
   ⟨metered (fun m => { m with lastTime := some 0 }), 0, by decide +kernel⟩⟩

theorem witness_MeterRecords :
    (∃ (s : State) (k : _), closeDue s.meter k = true) ∧
    (∃ (s : State), s.meter.lastTime ≠ none) ∧
    (∃ (s : State), s.ctl.powered = true) ∧
    (∃ (s : State) (t : Nat), s.ctl.powered = true ∧ s.meter.silent = false ∧ s.meter.lastReport + oneSecond ≤ max
      (now s) t ∧ s.meter.waiting = [] ∧ Room s 1) ∧
    (∃ (s : State) (t : Nat) (mt : _) (num : _) (gen : _) (b : _) (rest : _) (se : Session) (rec_ : _), s.ctl.powered
      = true ∧ s.meter.arrivalTap = .readRequest mt num gen false b :: rest ∧ s.meter.waiting = [(num, gen, mt)] ∧ max
      (now s) t ≤ mt + oneSecond ∧ meterMalformed b = false ∧ leAt b 0 1 = 1 ∧ leAt b 16 4 = 1 ∧ (leAt b 8 8, rec_) ∈
      s.meter.ring.map (fun x => (x.1, x.2.1)) ∧ (s.meter.ring.map (·.1)).Nodup ∧ 0 < rec_.length ∧ rec_.length ≤ 8192
      ∧ s.meter.silent = false ∧ findSess s .host num = some se ∧ se.gen = gen ∧ FreshSeq se) ∧
    (∃ (s : State) (mt : _) (num : _) (gen : _) (b : _) (rest : _), s.meter.arrivalTap = .readRequest mt num gen true
      b :: rest ∧ meterMalformed b = false ∧ s.meter.waiting = []) :=
  ⟨⟨metered (fun m => { m with lastTime := some 150050000000 }), 0, by decide +kernel⟩,
   ⟨metered (fun m => { m with lastTime := some 0 }), by decide +kernel⟩,
   ⟨readyS, by decide +kernel⟩,
   ⟨readyS, 2500000000, by decide +kernel, by decide +kernel, by decide +kernel, by decide +kernel, by unfold Room; decide +kernel⟩,
   ⟨{ vacantS with meter := { vacantS.meter with arrivalTap := [.readRequest 0 1 7 false ([1, 0, 0, 0, 0, 0, 0, 0, 5, 0, 0, 0, 0, 0, 0, 0, 1] ++ List.replicate 15 0)], waiting := [(1, 7, 0)], ring := [(5, [0], false)] } }, 2500000000, 0, 1, 7, [1, 0, 0, 0, 0, 0, 0, 0, 5, 0, 0, 0, 0, 0, 0, 0, 1] ++ List.replicate 15 0, [], sess1, [0], by decide +kernel, by decide +kernel, by decide +kernel, by decide +kernel, by decide +kernel, by decide +kernel, by decide +kernel, by decide +kernel, by decide +kernel, by decide +kernel, by decide +kernel, by decide +kernel, by decide +kernel, by decide +kernel, by unfold FreshSeq; decide +kernel⟩,
   ⟨metered (fun m => { m with arrivalTap := [.readRequest 0 1 7 true ([1, 0, 0, 0, 0, 0, 0, 0, 5, 0, 0, 0, 0, 0, 0, 0, 1] ++ List.replicate 15 0)] }), 0, 1, 7, [1, 0, 0, 0, 0, 0, 0, 0, 5, 0, 0, 0, 0, 0, 0, 0, 1] ++ List.replicate 15 0, [], by decide +kernel⟩⟩

theorem witness_MonitorReports :
    (∃ (s : State), s.kyend.busy = none ∧ aoOnly s = false) ∧
    (∃ (s : State) (c : _), s.kyend.busy = none ∧ 32 < c ∧ c < 127) ∧
    (∃ (s : State) (c : _), s.kyend.busy = none ∧ 32 < c ∧ c < 127) ∧
    (∃ (s : State), s.kyend.busy = none) ∧
    (∃ (s : State) (p : _), s.kyend.busy = some p) ∧
    (∃ (s : State), s.kyend.busy = none ∧ s.kyend.line = codes "state") :=
  ⟨⟨readyS, by decide +kernel⟩,
   ⟨readyS, 33, by decide +kernel⟩,
   ⟨readyS, 126, by decide +kernel⟩,
   ⟨readyS, by decide +kernel⟩,
   ⟨{ readyS with kyend := { readyS.kyend with busy := some 0 } }, 0, by decide +kernel⟩,
   ⟨{ readyS with kyend := { readyS.kyend with line := codes "state" } }, rfl, rfl⟩⟩

theorem witness_MonitorWrites :
    (∃ (s : State), s.kyend.busy = none ∧ aoOnly s = false ∧ cfgDevMode s = true) ∧
    (∃ (s : State) (c : _) (u : State), isMonitor c = true ∧ cfgDevMode s = false ∧ exec c s = .next u) :=
  ⟨⟨readyS, by decide +kernel⟩,
   ⟨State.reset, .kyendId 0, okNext (exec (.kyendId 0) State.reset), rfl, by decide +kernel, rfl⟩⟩

theorem witness_StartSequence :
    (∃ (s : State) (i : StartInputs), s.ctl.modState = .starting ∧ s.ctl.powered = false ∧ s.ctl.down = false ∧
      (i.supplyMv < 44000 ∨ 56000 < i.supplyMv)) ∧
    (∃ (s : State) (i : StartInputs), s.ctl.modState = .starting ∧ s.ctl.powered = false ∧ s.ctl.down = false ∧
      (i.supplyMv < 44000 ∨ 56000 < i.supplyMv)) ∧
    (∃ (s : State) (i : StartInputs) (f : Flash), s.ctl.modState = .starting ∧ s.ctl.powered = false ∧ s.ctl.down =
      false ∧ 44000 ≤ i.supplyMv ∧ i.supplyMv ≤ 56000 ∧ f = (i.flash.map flashOf).getD s.flash ∧ chooseSlot f = none)
      ∧
    (∃ (s : State) (i : StartInputs) (f : Flash), s.ctl.modState = .starting ∧ s.ctl.powered = false ∧ s.ctl.down =
      false ∧ 44000 ≤ i.supplyMv ∧ i.supplyMv ≤ 56000 ∧ f = (i.flash.map flashOf).getD s.flash ∧ chooseSlot f = none) :=
  ⟨⟨State.reset, startWith 43999, by decide +kernel⟩,
   ⟨State.reset, startWith 56001, by decide +kernel⟩,
   ⟨State.reset, startWith 44000, State.reset.flash, by decide +kernel⟩,
   ⟨State.reset, startWith 56000, State.reset.flash, by decide +kernel⟩⟩

theorem witness_Loader :
    (∃ (s : State) (v : _) (r : _), isReady s = true ∧ bit v 0 = true ∧ bits v 1 1 = 0 ∧ (s.ctl.loadPhase = 0 ∨ 5 ≤
      s.ctl.loadPhase) ∧ Room s 1 ∧ r = vRead s 4 (bits v 31 16) (s.ctl.loadVaHi * 2 ^ 32 + s.ctl.loadVaLo) 131072) ∧
    (∃ (s : State) (v : _) (r : _), isReady s = true ∧ bit v 0 = true ∧ bits v 1 1 = 0 ∧ (s.ctl.loadPhase = 0 ∨ 5 ≤
      s.ctl.loadPhase) ∧ Room s 1 ∧ r = vRead s 4 (bits v 31 16) (s.ctl.loadVaHi * 2 ^ 32 + s.ctl.loadVaLo) 131072 ∧
      (∃ l, r = .ok l ∧ ∀ x ∈ l, x.2 = false)) ∧
    (∃ (s : State) (v : _) (r : _), isReady s = true ∧ bit v 0 = true ∧ bits v 1 1 = 1 ∧ (s.ctl.loadPhase = 0 ∨ 5 ≤
      s.ctl.loadPhase) ∧ r = vRead s 4 (bits v 31 16) (s.ctl.loadVaHi * 2 ^ 32 + s.ctl.loadVaLo) 8192) ∧
    (∃ (s : State) (v : _), isReady s = true ∧ bit v 0 = true ∧ 1 ≤ s.ctl.loadPhase ∧ s.ctl.loadPhase ≤ 4) ∧
    (∃ (s : State), s.ctl.oldBanks = true ∧ (∀ x ∈ s.disp.units, x.mtIssue ≠ none → x.fwVersion = s.ctl.fwVersion)) :=
  ⟨⟨readyS, 1, _, by decide +kernel, by decide +kernel, by decide +kernel, by decide +kernel, by unfold Room; decide +kernel, rfl⟩,
   ⟨mapped readyS, 1, _, by decide +kernel, by decide +kernel, by decide +kernel, by decide +kernel, by unfold Room; decide +kernel, rfl, ⟨paRead (mapped readyS) 0 131072, rfl, paRead_sound (mapped readyS) 0 131072 (by decide +kernel)⟩⟩,
   ⟨readyS, 3, _, by decide +kernel, by decide +kernel, by decide +kernel, by decide +kernel, rfl⟩,
   ⟨{ readyS with ctl := { readyS.ctl with loadPhase := 4 } }, 1, by decide +kernel⟩,
   ⟨{ readyS with ctl := { readyS.ctl with oldBanks := true } }, rfl, by intro x hx; cases hx⟩⟩

theorem witness_DisableRule :
    (∃ (s : State) (w : _) (reg : _) (v : _) (x : _), isReady s = true ∧ s.disp.disables = [] ∧ w < 16 ∧ reg < 8 ∧ reg
      ≠ 6 ∧ x = windowSet (getWin s w) reg v ∧ windowOk s w x = true) ∧
    (∃ (s : State) (w : _) (reg : _) (v : _), isReady s = true ∧ s.disp.disables = [] ∧ (reg = 6 ∨ windowOk s w
      (windowSet (getWin s w) reg v) = false)) ∧
    (∃ (s : State), isReady s = true ∧ s.disp.disables = []) ∧
    (∃ (s : State) (v : _) (l : _), isReady s = true ∧ s.disp.disables = [] ∧ bit v 31 = true ∧ bits v 15 12 = 1 ∧ l =
      bits v 8 0 ∧ l < 512 ∧ served s l = true) ∧
    (∃ (s : State) (v : _) (i : _) (j : _), isReady s = true ∧ i = s.disp.jobSel ∧ j = getSlot s i ∧ j.valid = false ∧
      bit v 31 = true ∧ bits v 17 16 < 3 ∧ openRefused s i { j with choice := bits v 17 16 } (bits v 15 0) = false) ∧
    (∃ (s : State) (v : _) (i : _) (j : _), isReady s = true ∧ s.disp.disables = [] ∧ i = s.disp.jobSel ∧ j = getSlot
      s i ∧ j.valid = true ∧ bit v 31 = false ∧ bits v 17 16 = 3) ∧
    (∃ (s : State) (v : _) (i : _) (j : _), isReady s = true ∧ i = s.disp.jobSel ∧ j = getSlot s i ∧ j.valid = true ∧
      bit v 31 = true ∧ bits v 17 16 < 3) ∧
    (∃ (s : State) (d : _) (rest : _), isReady s = true ∧ s.disp.disables = d :: rest) ∧
    (∃ (s : State) (t : Nat) (d : _) (rest : _), s.disp.disables = d :: rest ∧ d.timedOut = false ∧ d.deadline ≤ max
      (now s) t) ∧
    (∃ (s : State) (d : _) (i : _) (id : _), s.disp.disables = [d] ∧ d.kind = .job i id ∧ (∀ x ∈ s.disp.units, hJob
      x.header = id → x.decided = true) ∧ Room s 1) ∧
    (∃ (s : State), isReady s = true) :=
  ⟨⟨readyS, 15, 7, 5, { ctr := 5 }, by decide +kernel⟩,
   ⟨readyS, 0, 6, 0, by decide +kernel⟩,
   ⟨readyS, by decide +kernel⟩,
   ⟨readyS, 0x800011FF, 511, by decide +kernel⟩,
   ⟨slotted {}, 0x8000FFFF, 0, {}, by decide +kernel⟩,
   ⟨slotted { valid := true }, 0x30000, 0, { valid := true }, by decide +kernel⟩,
   ⟨slotted { valid := true }, 0x80020000, 0, { valid := true }, by decide +kernel⟩,
   ⟨disabling ⟨.group, 0, 0, false, none⟩, ⟨.group, 0, 0, false, none⟩, [], by decide +kernel⟩,
   ⟨disabling ⟨.group, 0, 5, false, none⟩, 5, ⟨.group, 0, 5, false, none⟩, [], by decide +kernel⟩,
   ⟨disabling ⟨.job 0 0, 0, 5, false, none⟩, ⟨.job 0 0, 0, 5, false, none⟩, 0, 0, rfl, rfl, (by intro x hx; cases hx), by unfold Room; decide +kernel⟩,
   ⟨readyS, by decide +kernel⟩⟩

theorem witness_IntegerAccumulation :
    (∃ (s : Nat) (a : Acc) (x : Int) (y : Int) (p : Int), a.mark = false ∧ p = a.v.toInt + x * y / 2 ^ s ∧ 2147483647
      < p) ∧
    (∃ (s : Nat) (a : Acc) (x : Int) (y : Int) (p : Int), a.mark = false ∧ p = a.v.toInt + x * y / 2 ^ s ∧ p <
      -2147483648) ∧
    (∃ (s : Nat) (a : Acc) (x : Int) (y : Int) (p : Int), a.mark = false ∧ p = a.v.toInt + x * y / 2 ^ s ∧ -2147483648
      ≤ p ∧ p ≤ 2147483647) ∧
    (∃ (a : Acc), a.mark = true) :=
  ⟨⟨0, { v := 1 }, 2147483647, 1, 2147483648, by decide +kernel⟩,
   ⟨0, { v := 0xFFFFFFFF }, -2147483648, 1, -2147483649, by decide +kernel⟩,
   ⟨1, {}, -1, 1, -1, by decide +kernel⟩,
   ⟨{ mark := true }, by decide +kernel⟩⟩

theorem witness_ResidueChecks :
    ∃ (s : Nat), s ≤ 8 :=
  ⟨8, by decide +kernel⟩

theorem witness_FloatSpecials :
    (∃ (a : F32) (b : F32), (isNan32 a ∨ isNan32 b)) ∧
    (∃ (a : F32) (b : F32), isInf32 a ∧ isZero32 b) ∧
    (∃ (a : F32) (b : F32), isInf32 a ∧ isInf32 b ∧ a ≠ b) ∧
    (∃ (a : F32) (b : F32), isZero32 a ∧ isZero32 b ∧ a ≠ b) :=
  ⟨⟨0x7F800001, 0, by unfold isNan32; decide⟩,
   ⟨0xFF800000, 0, by unfold isInf32 isZero32; decide⟩,
   ⟨0xFF800000, 0x7F800000, by unfold isInf32; decide⟩,
   ⟨0x80000000, 0, by unfold isZero32; decide⟩⟩

theorem witness_Scratchpad :
    (∃ (s : State) (p : _) (frame : _) (slot : _) (pl : _) (li : _) (i : _) (data : List Byte), (getClu s p).power =
      .active ∧ slotAllows slot true = true ∧ (getClu s p).lastFrame ≤ 8 * frame + slot ∧ pl < 48 ∧ li < 64 ∧ i < 64 ∧
      data.length = 32 ∧ Memory.wf (getClu s p).spad.bytes = true) ∧
    (∃ (s : State) (p : _) (frame : _) (slot : _) (a : SlotAccess), (getClu s p).power = .active ∧ slotAllows slot
      false = true ∧ a.write = false ∧ (getClu s p).lastFrame ≤ 8 * frame + slot ∧ (getClu s p).spad.upset = [] ∧
      (getClu s p).spad.poison = []) ∧
    (∃ (s : State) (p : _) (frame : _) (w : _), (getClu s p).writeBack = [w] ∧ (getClu s p).power = .active ∧ frame %
      2 = 1 ∧ Memory.wf (getClu s p).spad.bytes = true) ∧
    (∃ (s : State) (p : _) (w : _) (m : _), (getClu s p).power ≠ .off ∧ (getClu s p).spad.upset = [(w, m)] ∧ (spadWord
      (getClu s p).spad w).2.2 = .corrected ∧ Room s 1) ∧
    (∃ (s : State) (p : _) (bank : _) (row : _), (getClu s p).power ≠ .off ∧ (bank, row) ∈ (getClu s p).mapDue ∧
      sparesUsed (getClu s p) bank < 48 ∧ Room s 1) ∧
    (∃ (s : State) (p : _) (bank : _) (row : _), (getClu s p).power ≠ .off ∧ (bank, row) ∈ (getClu s p).mapDue ∧ 48 ≤
      sparesUsed (getClu s p) bank ∧ (getClu s p).halter = false) ∧
    (∃ (s : State), s.ctl.powered = true) :=
  ⟨⟨activeS id, 0, 0, 3, 47, 63, 63, List.replicate 32 1, by decide +kernel⟩,
   ⟨activeS id, 0, 0, 0, ⟨false, 47, 63, false, [63], [], [], []⟩, by decide +kernel⟩,
   ⟨activeS (fun c => { c with writeBack := [5] }), 0, 1, 5, by decide +kernel⟩,
   ⟨activeS (fun c => { c with spad := { c.spad with upset := [(0, 1)] } }), 0, 0, 1, by decide +kernel, by decide +kernel, by decide +kernel, by unfold Room; decide +kernel⟩,
   ⟨activeS (fun c => { c with mapDue := [(63, 3071)], spareUsed := [(63, 47)] }), 0, 63, 3071, by decide +kernel, by decide +kernel, by decide +kernel, by unfold Room; decide +kernel⟩,
   ⟨activeS (fun c => { c with mapDue := [(63, 3071)], spareUsed := [(63, 48)] }), 0, 63, 3071, by decide +kernel⟩,
   ⟨readyS, by decide +kernel⟩⟩

theorem witness_Streams :
    (∃ (s : State) (p : _) (q : _) (rest : _) (pa : _) (leaf : _), (getClu s p).walk = q :: rest ∧ (getClu s p).power
      = .active ∧ (getClu s p).halter = false ∧ engineOpen s p < 256 ∧ q.write = false ∧ descXlate s (dieOfPhys p)
      q.job q.va false = .ok pa leaf ∧ bit leaf 3 = false) ∧
    (∃ (s : State) (p : _) (q : _) (rest : _) (x : _) (w : _), (getClu s p).walk = q :: rest ∧ (getClu s p).power =
      .active ∧ (getClu s p).halter = false ∧ engineOpen s p < 256 ∧ (∀ pa leaf, descXlate s (dieOfPhys p) q.job q.va
      q.write ≠ .ok pa leaf) ∧ findUnit s q.ref.wu = some x ∧ w = xlateWhy q.job q.va (descXlate s (dieOfPhys p) q.job
      q.va q.write)) ∧
    (∃ (s : State) (p : _) (q : _) (a : _) (n : _), (getClu s p).outstanding = [q] ∧ q.write = false ∧ q.pieces = [(8
      * q.va, 8 * a, 8 * n)] ∧ (∀ b ∈ q.bytes, b.2 = false)) ∧
    (∃ (s : State) (p : _) (job : _) (va : _) (len : _) (l : _), 0 < len ∧ len ≤ 256 ∧ (getClu s p).power = .active ∧
      (getClu s p).halter = false ∧ vRead s (dieOfPhys p) job va len = .ok l) ∧
    (∃ (s : State) (p : _) (job : _) (va : _) (len : _), 0 < len ∧ len ≤ 256 ∧ (getClu s p).power = .active ∧ (getClu
      s p).halter = false ∧ vWriteCheck s (dieOfPhys p) job va len = none) ∧
    (∃ (s : State) (die : _) (pa : _), die ≤ 3 ∧ pa % 256 = 0 ∧ pa + 256 ≤ serviceCap s ∧ s.ctl.powered = true ∧ (∀ c
      ∈ cacheLines s die, c.pa ≠ pa)) ∧
    (∃ (s : State) (l : _) (n : _) (r : _), served s l = true ∧ (getClu s (physOf s l)).power = .active ∧ (getClu s
      (physOf s l)).halter = false ∧ 0 < n ∧ n ≤ spadSize ∧ (getClu s (physOf s l)).spad.upset = [] ∧ physOf s r ≠
      physOf s l) ∧
    (∃ (s : State) (l : _) (n : _), served s l = true ∧ (getClu s (physOf s l)).power = .active ∧ (getClu s (physOf s
      l)).halter = false ∧ 0 < n ∧ n ≤ spadSize ∧ (getClu s (physOf s l)).spad.upset = []) ∧
    (∃ (s : State) (t : Nat) (r : _) (b : _) (n : _) (due : _) (o : _) (off : _), (getClu s (physOf s r)).mcastWait =
      [(b, n, due, .spad o off)] ∧ due ≤ max (now s) t) :=
  ⟨⟨mapped (activeS fun c => { c with walk := [readReq] }), 0, readReq, [], 0, 0x17, by decide +kernel⟩,
   ⟨withUnit (activeS fun c => { c with walk := [readReq] }) unit0, 0, readReq, [], unit0, _, by decide +kernel, by decide +kernel, by decide +kernel, by decide +kernel, not_mapped, by decide +kernel, rfl⟩,
   ⟨activeS (fun c => { c with outstanding := [{ readReq with bytes := List.replicate 64 (1, false) }] }), 0, { readReq with bytes := List.replicate 64 (1, false) }, 0, 64, by decide +kernel⟩,
   ⟨mapped (activeS id), 0, 0, 0, 256, paRead (mapped (activeS id)) 0 256, by decide +kernel, by decide +kernel, by decide +kernel, by decide +kernel, rfl⟩,
   ⟨mapped (activeS id), 0, 0, 0, 256, by decide +kernel⟩,
   ⟨readyS, 3, 1546188226304, by decide +kernel⟩,
   ⟨activeS id, 0, 1, 511, by decide +kernel⟩,
   ⟨activeS id, 0, 6291456, by decide +kernel⟩,
   ⟨onClu readyS 0 (fun c => { c with mcastWait := [(0, 1, 5, .spad 1 0)] }), 5, 0, 0, 1, 5, 1, 0, by decide +kernel⟩⟩

theorem witness_ParityKept :
    (∃ (s : State) (t : Nat) (row : _) (u : State), MemoryWf s ∧ nothingLost s = true ∧ ParityHolds s ∧ exec
      (.parityWrite t row) s = .next u) ∧
    (∃ (s : State) (d : _) (o : _), ParityHolds s ∧ d < 19 ∧ o < 4096) :=
  ⟨⟨readyS, 0, 0, okNext (exec (.parityWrite 0 0) readyS), by unfold MemoryWf; decide +kernel, by decide +kernel, parity_at_reset _ rfl rfl, rfl⟩,
   ⟨readyS, 18, 4095, parity_at_reset _ rfl rfl, by decide +kernel⟩⟩

theorem witness_HbmMemory :
    (∃ (s : State) (pa : _) (k : _), pa < serviceCap s ∧ s.ctl.powered = true ∧ decodable s (dataAddr s pa) = true ∧ 1
      ≤ k ∧ k ≤ 3) ∧
    (∃ (s : State) (pa : _) (da : _), da = dataAddr s pa ∧ pa < serviceCap s ∧ s.ctl.powered = true ∧ decodable s da =
      true ∧ Room s 1) ∧
    (∃ (s : State) (pa : _) (da : _) (k : _), da = dataAddr s pa ∧ pa < serviceCap s ∧ s.ctl.powered = true ∧
      decodable s da = true ∧ 1 ≤ k ∧ k ≤ 3) ∧
    (∃ (s : State) (w : _), s.hbm.pending = [w] ∧ w.who = .nobody ∧ w.bytes ≠ [] ∧ nothingLost s = true ∧ MemoryWf s)
      ∧
    (∃ (s : State) (unit : _) (f : _) (v : _), unit ∈ s.hbm.retireDue ∧ (rowFrames (unit / 19)).filter (fun f =>
      (frameUser s f).isSome) = [f] ∧ frameUser s f = some v ∧ cfgSingleGuard s = false ∧ s.hbm.poolUsed < 2048 ∧ Room
      s 1) ∧
    (∃ (s : State) (unit : _), unit ∈ s.hbm.retireDue ∧ (rowFrames (unit / 19)).filter (fun f => (frameUser s
      f).isSome) ≠ [] ∧ cfgSingleGuard s = true) ∧
    (∃ (s : State), s.ctl.powered = true) ∧
    (∃ (s : State) (k : _) (c : _), s.ctl.powered = true ∧ k < 20 ∧ c < 64 ∧ regionKnown s k (some c) = false) ∧
    (∃ (s : State) (k : _), s.ctl.powered = true ∧ k < 20 ∧ regionKnown s k none = false) ∧
    (∃ (s : State) (r : _), s.hbm.rebuilding = true ∧ s.hbm.lost = [r] ∧ r.rebuilt = false ∧ Room s 1 ∧ s.flt.capacity
      = []) :=
  ⟨⟨readyS, 1546188226559, 3, by decide +kernel⟩,
   ⟨readyS, 0, 0, by decide +kernel, by decide +kernel, by decide +kernel, by decide +kernel, by unfold Room; decide +kernel⟩,
   ⟨readyS, 1546188226559, 1546188226559, 1, by decide +kernel⟩,
   ⟨onHbm readyS (fun h => { h with pending := [write1] }), write1, by decide +kernel, by decide +kernel, by decide +kernel, by decide +kernel, by unfold MemoryWf; decide +kernel⟩,
   ⟨onHbm readyS (fun h => { h with retireDue := [0], poolUsed := 2047 }), 0, 0, 0, by decide +kernel, by decide +kernel, by decide +kernel, by decide +kernel, by decide +kernel, by unfold Room; decide +kernel⟩,
   ⟨{ onHbm readyS (fun h => { h with retireDue := [0] }) with ctl := { readyS.ctl with cfg := [(0x81, 1)] } }, 0, by decide +kernel⟩,
   ⟨readyS, by decide +kernel⟩,
   ⟨readyS, 19, 63, by decide +kernel⟩,
   ⟨readyS, 19, by decide +kernel⟩,
   ⟨onHbm readyS (fun h => { h with rebuilding := true, lost := [⟨0, none, false, []⟩] }), ⟨0, none, false, []⟩, by decide +kernel, by decide +kernel, by decide +kernel, (by unfold Room; decide +kernel), by decide +kernel⟩⟩

theorem witness_PeerWrites :
    (∃ (s : State) (t : Nat) (p : _) (d : _) (se : Session) (b : _) (x : _) (va : _) (pa : _) (leaf : _), PeerMessage
      (atMt s t) p d se 0 b ∧ x = getWin s (b.window % 16) ∧ x.kind = 2 ∧ (winRanks x).contains b.srcRank = true ∧
      b.offset + b.len ≤ winBytes x ∧ b.len ≠ 0 ∧ b.offset % 64 + b.len ≤ 8192 ∧ b.data.length = b.len ∧ va = winBase
      x + b.offset ∧ va % 2097152 + b.len ≤ 2097152 ∧ descXlate s 4 x.job va true = .ok pa leaf ∧ pa % 4096 + b.len ≤
      4096) ∧
    (∃ (s : State) (t : Nat) (p : _) (d : _) (se : Session) (b : _), PeerAccepts (atMt s t) p d 0x20 se ∧ b =
      parsePeer (plainBody se d) ∧ b.pkind ≠ 3 ∧ b.dstRank = s.peers.rank ∧ pseqSeen s b.srcRank b.pseq = true) ∧
    (∃ (s : State) (t : Nat) (p : _) (d : _) (se : Session) (b : _), PeerMessage (atMt s t) p d se 3 b ∧ (getWin s
      (b.window % 16)).kind ≠ 2) ∧
    (∃ (s : State) (t : Nat) (p : _) (d : _) (se : Session) (b : _), PeerMessage (atMt s t) p d se 3 b ∧ (getWin s
      (b.window % 16)).kind = 2 ∧ s.peers.finals.contains (b.srcRank, b.pseq) = false ∧ s.peers.finalsWait = [] ∧
      (b.pseq = landedOf s b.srcRank ∨ serialLt b.pseq (landedOf s b.srcRank) = true)) ∧
    (∃ (s : State) (t : Nat) (p : _) (d : _) (se : Session) (b : _) (q : _) (y : _), PeerAccepts (atMt s t) p d 0x20
      se ∧ b = parsePeer (plainBody se d) ∧ b.dstRank ≠ s.peers.rank ∧ b.hops < 8 ∧ nextHop s b.dstRank = some q ∧ q ≠
      p ∧ findSess s (.peer q) q = some y ∧ FreshSeq y) ∧
    (∃ (s : State) (t : Nat) (p : _) (d : _) (se : Session) (b : _), PeerAccepts (atMt s t) p d 0x20 se ∧ b =
      parsePeer (plainBody se d) ∧ b.dstRank ≠ s.peers.rank ∧ 8 ≤ b.hops) ∧
    (∃ (s : State) (t : Nat) (p : _) (d : _) (se : Session) (b : _) (o : _) (w : _), PeerAccepts (atMt s t) p d 0x61
      se ∧ b = plainBody se d ∧ leAt b 8 4 / 256 % 256 = s.peers.rank ∧ (s.peers.out.find? fun o => o.dst == leAt b 8
      4 % 256 && o.pseq == leAt b 0 4) = some o ∧ w = nackWhy (leAt b 5 1) (leAt b 16 8)) :=
  ⟨⟨groupS (winOf 2), 0, 1, peerDgram 0x20 (peerBody 0 0 0 1 0 0 0 0 [0x55]), sess1, parsePeer (peerBody 0 0 0 1 0 0 0 0 [0x55]), winOf 2, 0, 0, 0x17, peer_message _ _ 0 _ _ (by decide +kernel) (by decide +kernel), by decide +kernel⟩,
   ⟨{ groupS (winOf 2) with peers := { (groupS (winOf 2)).peers with pseqRx := [(1, (1, [1]))] } }, 0, 1, peerDgram 0x20 (peerBody 0 0 0 1 0 0 0 0 [0x55]), sess1, parsePeer (peerBody 0 0 0 1 0 0 0 0 [0x55]), peer_accepted _ _ _ _ _ (by decide +kernel), by decide +kernel⟩,
   ⟨groupS (winOf 4), 0, 1, peerDgram 0x20 (peerBody 3 0 0 1 0 0 0 0 []), sess1, parsePeer (peerBody 3 0 0 1 0 0 0 0 []), peer_message _ _ 3 _ _ (by decide +kernel) (by decide +kernel), by decide +kernel⟩,
   ⟨{ groupS (winOf 2) with peers := { (groupS (winOf 2)).peers with pseqLanded := [(1, [1])] } }, 0, 1, peerDgram 0x20 (peerBody 3 0 0 1 0 0 0 0 []), sess1, parsePeer (peerBody 3 0 0 1 0 0 0 0 []), peer_message _ _ 3 _ _ (by decide +kernel) (by decide +kernel), by decide +kernel⟩,
   ⟨groupS (winOf 2), 0, 1, peerDgram 0x20 (peerBody 0 7 0 1 2 0 0 0 []), sess1, parsePeer (peerBody 0 7 0 1 2 0 0 0 []), 2, sess1, peer_accepted _ _ _ _ _ (by decide +kernel), by unfold FreshSeq; decide +kernel⟩,
   ⟨groupS (winOf 2), 0, 1, peerDgram 0x20 (peerBody 0 8 0 1 2 0 0 0 []), sess1, parsePeer (peerBody 0 8 0 1 2 0 0 0 []), peer_accepted _ _ _ _ _ (by decide +kernel), by decide +kernel⟩,
   ⟨{ groupS (winOf 2) with peers := { (groupS (winOf 2)).peers with out := [⟨1, 1, 0, ⟨0, 0, 0⟩⟩] } }, 0, 1, peerDgram 0x61 ([1, 0, 0, 0, 0, 0, 0, 0, 1, 0, 0, 0] ++ List.replicate 12 0), sess1, [1, 0, 0, 0, 0, 0, 0, 0, 1, 0, 0, 0] ++ List.replicate 12 0, ⟨1, 1, 0, ⟨0, 0, 0⟩⟩, nackWhy 0 0, peer_accepted _ _ _ _ _ (by decide +kernel), by decide +kernel⟩⟩

theorem witness_PeerReductions :
    (∃ (s : State) (t : Nat) (p : _) (d : _) (se : Session) (b : _) (w : _) (x : _) (me : _) (z : _) (v : _),
      PeerMessage (atMt s t) p d se 1 b ∧ w = b.window % 16 ∧ x = getWin s w ∧ x.kind = 4 ∧ (winRanks x).contains
      b.srcRank = true ∧ b.gen = (getRound s w).gen ∧ (winRanks x).findIdx? (· == s.peers.rank) = some me ∧
      ((bodyElems b 8).map fun e =>
      ({ lo := b.treeLo, hi := b.treeHi, elem := e.1, v := leafOf (x.etype == 14) e.2.1, bad := e.2.2 } : RoundVal)) =
      [v] ∧ (v.lo, v.hi) ≠ (0, (winRanks x).length) ∧ treeParent 8 0 (winRanks x).length v.lo v.hi = some (me, z) ∧ (∀
      y ∈ (getRound s w).vals, y.elem ≠ v.elem)) ∧
    (∃ (s : State) (t : Nat) (p : _) (d : _) (se : Session) (b : _) (w : _) (x : _), PeerMessage (atMt s t) p d se 1 b
      ∧ w = b.window % 16 ∧ x = getWin s w ∧ x.kind = 4 ∧ (winRanks x).contains b.srcRank = true ∧ b.gen = ((getRound
      s w).gen + 1) % 2 ^ 32 ∧ b.gen ≠ (getRound s w).gen) ∧
    (∃ (s : State) (t : Nat) (p : _) (d : _) (se : Session) (b : _) (w : _) (x : _) (va : _) (pa : _) (leaf : _),
      PeerMessage (atMt s t) p d se 2 b ∧ w = b.window % 16 ∧ x = getWin s w ∧ x.kind = 4 ∧ (winRanks x).contains
      b.srcRank = true ∧ b.gen = (getRound s w).gen ∧ b.data ≠ [] ∧ va = winBase x + b.offset ∧ va % 2097152 +
      b.data.length ≤ 2097152 ∧ Sys2Proof.Machine.translate s 4 x.job va = .ok pa leaf ∧ pa % 4096 + b.data.length ≤
      4096) ∧
    (∃ (s : State) (t : Nat) (p : _) (d : _) (se : Session) (b : _) (w : _) (x : _), PeerMessage (atMt s t) p d se 4 b
      ∧ w = b.window % 16 ∧ x = getWin s w ∧ x.kind = 4 ∧ b.gen = (getRound s w).gen ∧ s.peers.finalsWait = []) ∧
    (∃ (s : State) (t : Nat) (w : _) (m : _), (tblFind s.peers.rounds w).bind (·.first) = some m ∧ m + cfgPeerRedWait
      s ≤ max (now s) t) :=
  ⟨⟨groupS (winOf 4), 0, 1, peerDgram 0x20 (peerBody 1 0 0 1 0 1 2 0 [5, 0, 0, 0, 0, 0, 0, 0]), sess1, parsePeer (peerBody 1 0 0 1 0 1 2 0 [5, 0, 0, 0, 0, 0, 0, 0]), 0, winOf 4, 0, 2, ⟨1, 2, 0, .i64 5, false⟩, peer_message _ _ 1 _ _ (by decide +kernel) (by decide +kernel), by decide +kernel⟩,
   ⟨groupS (winOf 4), 0, 1, peerDgram 0x20 (peerBody 1 0 0 1 0 1 2 1 [5, 0, 0, 0, 0, 0, 0, 0]), sess1, parsePeer (peerBody 1 0 0 1 0 1 2 1 [5, 0, 0, 0, 0, 0, 0, 0]), 0, winOf 4, peer_message _ _ 1 _ _ (by decide +kernel) (by decide +kernel), by decide +kernel⟩,
   ⟨groupS (winOf 4), 0, 1, peerDgram 0x20 (peerBody 2 0 0 1 0 0 0 0 [5, 0, 0, 0]), sess1, parsePeer (peerBody 2 0 0 1 0 0 0 0 [5, 0, 0, 0]), 0, winOf 4, 0, 0, 0x17, peer_message _ _ 2 _ _ (by decide +kernel) (by decide +kernel), by decide +kernel⟩,
   ⟨groupS (winOf 4), 0, 1, peerDgram 0x20 (peerBody 4 0 0 1 0 0 0 0 []), sess1, parsePeer (peerBody 4 0 0 1 0 0 0 0 []), 0, winOf 4, peer_message _ _ 4 _ _ (by decide +kernel) (by decide +kernel), by decide +kernel⟩,
   ⟨{ readyS with peers := { readyS.peers with rounds := [(0, { first := some 0 })] } }, 2500000000, 0, 0, by decide +kernel⟩⟩

theorem witness_PeerPorts :
    (∃ (s : State) (p : _), s.ctl.powered = true ∧ p < 4 ∧ cfgGroupId s ≠ 0 ∧ (peerPortOf s p).state ≤ 2) ∧
    (∃ (s : State) (p : _), s.ctl.powered = true ∧ p < 4 ∧ 3 ≤ (peerPortOf s p).state ∧ (peerPortOf s p).spareFor =
      0xF ∧ (peerPortOf s p).spareFailed = false ∧ Room s 1) ∧
    (∃ (s : State) (p : _) (lane : _), s.ctl.powered = true ∧ p < 4 ∧ 3 ≤ (peerPortOf s p).state ∧ lane < 8 ∧ lane ≠
      (peerPortOf s p).spareFor ∧ (peerPortOf s p).spareFor ≠ 0xF) ∧
    (∃ (s : State) (p : _), (peerPortOf s p).state = 6 ∧ Room s 1) ∧
    (∃ (s : State) (t : Nat) (p : _) (why : _), p < 4 ∧ lossStands (atMt s t) p why = true) ∧
    (∃ (s : State) (t : Nat) (p : _) (why : _), p < 4 ∧ lossStands (atMt s t) p why = true) ∧
    (∃ (s : State) (t : Nat) (p : _) (why : _), p < 4 ∧ lossStands (atMt s t) p why = true) ∧
    (∃ (s : State) (t : Nat) (p : _) (why : _), p < 4 ∧ lossStands (atMt s t) p why = true) ∧
    (∃ (s : State) (t : Nat) (p : _) (se : Session), (peerPortOf s p).state = 5 ∧ (peerPortOf s p).session = some se ∧
      se.held = [] ∧ (peerPortOf s p).lastPing + 250000 ≤ max (now s) t ∧ s.ctl.powered = true) ∧
    (∃ (s : State) (p : _) (f : _) (d : _), p < 4 ∧ linkUp s (.peer p) = true ∧ peerVerdict s f d ≠ 0) ∧
    (∃ (s : State) (p : _) (f : _) (d : _), p < 4 ∧ linkUp s (.peer p) = true ∧ peerVerdict s f d ≠ 0) ∧
    (∃ (s : State) (p : _) (f : _) (d : _), p < 4 ∧ linkUp s (.peer p) = true ∧ peerVerdict s f d ≠ 0) :=
  ⟨⟨readyS, 3, by decide +kernel⟩,
   ⟨ported port1, 1, by decide +kernel, by decide +kernel, by decide +kernel, by decide +kernel, by decide +kernel, by unfold Room; decide +kernel⟩,
   ⟨ported { port1 with spareFor := 0 }, 1, 7, by decide +kernel⟩,
   ⟨ported { port1 with state := 6 }, 1, by decide +kernel, by unfold Room; decide +kernel⟩,
   ⟨ported port1, 0, 1, .allLanes, by decide +kernel⟩,
   ⟨ported { port1 with spareFailed := true }, 0, 1, .laneNoSpare, by decide +kernel⟩,
   ⟨ported port1, 2500000, 1, .silent, by decide +kernel⟩,
   ⟨ported port1, 0, 1, .sessionClosed, by decide +kernel⟩,
   ⟨ported port1, 250000, 1, sess1, by decide +kernel⟩,
   ⟨ported port1, 1, ⟨63, true, 0, none, 0x88B5, false⟩, 0, by decide +kernel⟩,
   ⟨ported port1, 1, ⟨64, false, 0, none, 0x88B5, false⟩, 0, by decide +kernel⟩,
   ⟨ported port1, 1, ⟨64, true, 0, none, 0x88B5, true⟩, 0, by decide +kernel⟩⟩

theorem witness_PeerSessions :
    (∃ (s : State) (t : Nat) (p : _) (d : _), p < 4 ∧ linkUp s (.peer p) = true ∧ d.session = 0xFF ∧ openCheck (atMt s
      t) (.peer p) d 0x70 = 0 ∧ leAt d.body 1 1 < s.peers.rank ∧ isReady s = true ∧ peerInitOk d 0 36 = true ∧ leAt
      d.body 1 1 < s.peers.size ∧ (rankDigest s (leAt d.body 1 1)).isSome = true) ∧
    (∃ (s : State) (t : Nat) (p : _) (d : _) (r : _) (b : _) (pub : _) (tr : _) (k : _), p < 4 ∧ linkUp s (.peer p) =
      true ∧ d.session = 0xFF ∧ openCheck (atMt s t) (.peer p) d 0x70 = 0 ∧ b = d.body ∧ r = leAt b 1 1 ∧ r <
      s.peers.rank ∧ isReady s = true ∧ peerInitOk d 1 6422 = true ∧ pub = (b.drop 4465).take 1952 ∧ r < s.peers.size
      ∧ (tblFind s.peers.routes r).map (·.primary) = some p ∧ sameGroup s b = true ∧ ((freshNonces (max (now s) t)
      (peerPortOf s p).nonces).any fun e => e.1 == (b.drop 36).take 32) = true ∧ tr = peerTranscript ((b.drop 4).take
      32) ((b.drop 36).take 32) r (leAt b 2 1) ((b.drop 68).take 1088) ((b.drop 4465).take 1957) (bundleBytes s) ∧ k =
      deriveKeys (Config.mlKemDecap s.sec.kemSeed ((b.drop 68).take 1088)) tr) ∧
    (∃ (s : State) (t : Nat) (p : _) (d : _) (se : Session), p < 4 ∧ LinkAccepts (atMt s t) (.peer p) d 0x70 se ∧
      d.session ≠ 0xFF ∧ leAt (plainBody se d) 0 1 = 2) ∧
    (∃ (s : State) (t : Nat) (p : _) (d : _), p < 4 ∧ linkUp s (.peer p) = true ∧ d.session = 0xFF ∧ openCheck (atMt s
      t) (.peer p) d 0x71 = 0 ∧ leAt d.body 1 1 = 0 ∧ leAt d.body 0 1 = 0 ∧ (peerPortOf s p).nonceOut ≠ [] ∧
      wholeBundle (leAt d.body 36 4) (((peerPortOf s p).parts.filter fun e => e.1 != leAt d.body 40 4) ++ [(leAt
      d.body 40 4, d.body.drop 44)]) = none) ∧
    (∃ (s : State) (t : Nat) (p : _) (d : _) (b : _), p < 4 ∧ linkUp s (.peer p) = true ∧ d.session = 0xFF ∧ openCheck
      (atMt s t) (.peer p) d 0x71 = 0 ∧ leAt d.body 1 1 = 0 ∧ leAt d.body 0 1 = 0 ∧ (peerPortOf s p).nonceOut ≠ [] ∧
      wholeBundle (leAt d.body 36 4) (((peerPortOf s p).parts.filter fun e => e.1 != leAt d.body 40 4) ++ [(leAt
      d.body 40 4, d.body.drop 44)]) = some b) ∧
    (∃ (s : State) (t : Nat) (p : _) (d : _) (x : _) (far : _) (c : _), p < 4 ∧ linkUp s (.peer p) = true ∧ d.session
      ≠ 0xFF ∧ (peerPortOf s p).opening = some (x, far, c) ∧ d.version = 1 ∧ d.peer = true ∧ d.body.length ≤ 8272 ∧
      tagOk { x with gen := d.gen } d = true ∧ ageOk (.peer p) (max (now s) t) d.mt = true ∧ d.typ = 0x71 ∧ leAt
      (plainBody { x with gen := d.gen } d) 0 1 = 1 ∧ leAt (plainBody { x with gen := d.gen } d) 1 1 = 0 ∧ ((plainBody
      { x with gen := d.gen } d).drop 8).take 32 = c) :=
  ⟨⟨lowS { port1 with state := 3, session := none }, 0, 1, openDgram true 0x70 (List.replicate 36 0), by decide +kernel, by decide +kernel, by decide +kernel, open_check _ (.peer 1) _ _ (by decide +kernel), by decide +kernel⟩,
   ⟨lowS { port1 with state := 3, session := none, nonces := [(List.replicate 32 0, 0)] }, 0, 1, openDgram true 0x70 (1 :: List.replicate 6421 0), 0, _, _, _, _, by decide +kernel, by decide +kernel, by decide +kernel, open_check _ (.peer 1) _ _ (by decide +kernel), rfl, by decide +kernel, by decide +kernel, by decide +kernel, by decide +kernel, rfl, by decide +kernel, by decide +kernel, by decide +kernel, by decide +kernel, rfl, rfl⟩,
   ⟨lowS port1, 0, 1, peerDgram 0x70 [2], sess1, by decide +kernel, peer_linked _ _ _ _ _ (by decide +kernel), by decide +kernel⟩,
   ⟨lowS { port1 with state := 3, session := none, nonceOut := [1] }, 0, 1, openDgram true 0x71 (List.replicate 45 0), by decide +kernel, by decide +kernel, by decide +kernel, open_check _ (.peer 1) _ _ (by decide +kernel), by decide +kernel⟩,
   ⟨lowS { port1 with state := 3, session := none, nonceOut := [1] }, 0, 1, openDgram true 0x71 (List.replicate 36 0 ++ [1, 0, 0, 0, 0, 0, 0, 0, 9]), [9], by decide +kernel, by decide +kernel, by decide +kernel, open_check _ (.peer 1) _ _ (by decide +kernel), by decide +kernel⟩,
   ⟨lowS { port1 with opening := some (sess1, 2, List.replicate 32 0) }, 0, 1, peerDgram 0x71 (1 :: List.replicate 39 0), sess1, 2, List.replicate 32 0, by decide +kernel, by decide +kernel, by decide +kernel, by decide +kernel, by decide +kernel, by decide +kernel, by decide +kernel, peer_tag _ _, by decide +kernel⟩⟩


end Sys2Proof.Tests
end

section
/-! SUPPORT. FP32 specials (02 R28, R33, R34): what the bits of a NaN, an infinity and a zero decode to, what the exact
sum and product make of these numbers, and what the results encode to. -/

namespace Sys2Proof.FloatSpecials

open Sys2Proof Sys2Proof.Machine Sys2Proof.Safety

/-! ## Exact sums and products of specials -/

@[simp] theorem numAdd_nan_left (x : Machine.Num) : numAdd .nan x = .nan := by cases x <;> rfl

@[simp] theorem numAdd_nan_right (x : Machine.Num) : numAdd x .nan = .nan := by cases x <;> rfl

@[simp] theorem numMul_nan_left (x : Machine.Num) : numMul .nan x = .nan := by cases x <;> rfl

@[simp] theorem numMul_nan_right (x : Machine.Num) : numMul x .nan = .nan := by cases x <;> rfl

theorem numAdd_inf_inf_of_ne {m n : Bool} (h : m ≠ n) : numAdd (.inf m) (.inf n) = .nan := by
  simp [numAdd, h]

@[simp] theorem numMul_inf_zero (m n : Bool) (e : Int) : numMul (.inf m) (.fin n 0 e) = .nan := rfl

@[simp] theorem numMul_zero_inf (m n : Bool) (e : Int) : numMul (.fin n 0 e) (.inf m) = .nan := rfl

/-- R33: zeros of opposite signs add up to +0. -/
theorem numAdd_zero_zero_of_ne {m n : Bool} (h : m ≠ n) (e : Int) :
    numAdd (.fin m 0 e) (.fin n 0 e) = .fin false 0 e := by
  obtain rfl : m = !n := Bool.eq_not_of_ne h
  simp [numAdd, sigAt]

/-! ## Encoding the results -/

@[simp] theorem f32Of_nan : f32Of .nan = 0x7FC00000 := rfl

@[simp] theorem f32Of_posZero (e : Int) : f32Of (.fin false 0 e) = 0 := by
  simp [f32Of, fpEncode, fpShape, roundSig, flag]

/-! ## Decoding the operands -/

/-- The FP32 zero of either sign. -/
def f32Zero (neg : Bool) : F32 := if neg then 0x80000000 else 0

theorem isInf32_iff (a : F32) : isInf32 a ↔ ∃ n, a = f32Inf n := by
  simp [isInf32, f32Inf]

theorem isZero32_iff (a : F32) : isZero32 a ↔ ∃ n, a = f32Zero n := by
  simp [isZero32, f32Zero]

theorem f32Num_of_isNan32 {a : F32} (h : isNan32 a) : f32Num a = .nan := by
  obtain ⟨hex, hman⟩ := h
  norm_num at hex hman
  simp [f32Num, fpDecode, fpShape, fpSpecials, hex, hman]

@[simp] theorem f32Num_f32Inf (n : Bool) : f32Num (f32Inf n) = .inf n := by
  cases n <;> decide

@[simp] theorem f32Num_f32Zero (n : Bool) : f32Num (f32Zero n) = .fin n 0 (-149) := by
  cases n <;> decide

/-! ## Sums and products in FP32 -/

theorem f32Add_of_isNan32 {a b : F32} (h : isNan32 a ∨ isNan32 b) : f32Add a b = 0x7FC00000 := by
  obtain h | h := h <;> simp [f32Add, f32Num_of_isNan32 h]

theorem f32Mul_of_isNan32 {a b : F32} (h : isNan32 a ∨ isNan32 b) : f32Mul a b = 0x7FC00000 := by
  obtain h | h := h <;> simp [f32Mul, f32Num_of_isNan32 h]

theorem f32Mul_f32Inf_f32Zero (m n : Bool) : f32Mul (f32Inf m) (f32Zero n) = 0x7FC00000 := by
  simp [f32Mul]

theorem f32Mul_f32Zero_f32Inf (m n : Bool) : f32Mul (f32Zero n) (f32Inf m) = 0x7FC00000 := by
  simp [f32Mul]

theorem f32Add_f32Inf_of_ne {m n : Bool} (h : m ≠ n) : f32Add (f32Inf m) (f32Inf n) = 0x7FC00000 := by
  simp [f32Add, numAdd_inf_inf_of_ne h]

theorem f32Add_f32Zero_of_ne {m n : Bool} (h : m ≠ n) : f32Add (f32Zero m) (f32Zero n) = 0 := by
  simp [f32Add, numAdd_zero_zero_of_ne h]

/-- Settles O52: infinities and zeros are named by their sign, so unequal operands of one kind have opposite signs. -/
theorem floatSpecials : Obligations.FloatSpecials := by
  intro a b
  refine ⟨fun h => ⟨f32Add_of_isNan32 h, f32Mul_of_isNan32 h⟩, ?infTimesZero, ?oppositeInfs, ?oppositeZeros⟩
  case infTimesZero =>
    rw [isInf32_iff, isZero32_iff]
    rintro ⟨m, rfl⟩ ⟨n, rfl⟩
    exact ⟨f32Mul_f32Inf_f32Zero m n, f32Mul_f32Zero_f32Inf m n⟩
  case oppositeInfs =>
    rw [isInf32_iff, isInf32_iff]
    rintro ⟨m, rfl⟩ ⟨n, rfl⟩ hne
    exact f32Add_f32Inf_of_ne fun h => hne (congrArg f32Inf h)
  case oppositeZeros =>
    rw [isZero32_iff, isZero32_iff]
    rintro ⟨m, rfl⟩ ⟨n, rfl⟩ hne
    exact f32Add_f32Zero_of_ne fun h => hne (congrArg f32Zero h)

end Sys2Proof.FloatSpecials
end

section
/-! SUPPORT. Integer accumulation (04 R104, R105): the entry after one product, at the exact sum and on either side of
the limits, and a marked entry over a list of products. -/

namespace Sys2Proof.IntegerAccumulation

open Sys2Proof Sys2Proof.Machine Sys2Proof.Safety

/-- Two integer operands take the integer path whatever the compensation field says (R96). -/
@[simp] theorem accAdd_int (comp : Bool) (s : Nat) (a : Acc) (x y : Int) :
    accAdd true comp s a ⟨.int x, .int y⟩ = accAddInt a x y s := rfl

@[simp] theorem shiftDown_eq_ediv (p : Int) (s : Nat) : shiftDown p s = p / 2 ^ s := by
  simp [shiftDown]

/-! ## One product (R104) -/

variable {s : Nat} {a : Acc} {x y p : Int}

theorem accAddInt_marked (h : a.mark = true) :
    (accAddInt a x y s).v = a.v ∧ (accAddInt a x y s).mark = true := by
  simp [accAddInt, h]

theorem accAddInt_above (h : a.mark = false) (hp : p = a.v.toInt + x * y / 2 ^ s) (hi : 2147483647 < p) :
    (accAddInt a x y s).v = 0x7FFFFFFF ∧ (accAddInt a x y s).mark = true := by
  subst hp
  simp [accAddInt, accInt, h, hi]

theorem accAddInt_below (h : a.mark = false) (hp : p = a.v.toInt + x * y / 2 ^ s) (lo : p < -2147483648) :
    (accAddInt a x y s).v = 0x80000000 ∧ (accAddInt a x y s).mark = true := by
  have hi : ¬ 2147483647 < p := by omega
  subst hp
  simp [accAddInt, accInt, h, hi, lo]

theorem accAddInt_within (h : a.mark = false) (hp : p = a.v.toInt + x * y / 2 ^ s) (lo : -2147483648 ≤ p)
    (hi : p ≤ 2147483647) : (accAddInt a x y s).v.toInt = p ∧ (accAddInt a x y s).mark = false := by
  have hfit : (BitVec.ofInt 32 p).toInt = p := BitVec.toInt_ofInt_eq_self (by decide) lo (by omega)
  subst hp
  simp [accAddInt, accInt, h, hfit, not_lt.mpr hi, not_lt.mpr lo]

/-! ## A list of products -/

/-- R104: later products do not move a marked entry, since no single one does. -/
theorem foldl_accAdd_marked (comp : Bool) (l : List (Int × Int)) (h : a.mark = true) :
    ((l.map fun e => Term.mk (.int e.1) (.int e.2)).foldl (accAdd true comp s) a).v = a.v ∧
    ((l.map fun e => Term.mk (.int e.1) (.int e.2)).foldl (accAdd true comp s) a).mark = true := by
  induction l generalizing a with
  | nil => exact ⟨rfl, h⟩
  | cons e l ih =>
    obtain ⟨hv, hm⟩ : (accAddInt a e.1 e.2 s).v = a.v ∧ (accAddInt a e.1 e.2 s).mark = true := accAddInt_marked h
    simpa [hv] using ih hm

/-- Settles O50: the exact sum lies above, below or within the INT32 range, and a marked entry keeps its limit over a
list by induction on the list. -/
theorem integerAccumulation : Obligations.IntegerAccumulation := by
  refine ⟨fun comp s a x y p h hp => ?_, fun comp s a l => foldl_accAdd_marked comp l⟩
  rw [accAdd_int]
  exact ⟨accAddInt_above h hp, accAddInt_below h hp, accAddInt_within h hp⟩

end Sys2Proof.IntegerAccumulation
end

section
/-! SUPPORT. The Paddock's drop test (09 R294, R295): when a packet fits, and what a write and a drop leave queued. -/

namespace Sys2Proof.PaddockDrops

open Sys2Proof Sys2Proof.Machine Sys2Proof.Safety Sys2Proof.Laws

variable {s : State} {p q n lim : Nat}

/-! ## The test (R294) -/

theorem pdkFits_iff (h : pdkLimit p q = some lim) :
    pdkFits s p q n = true ↔ itemCells (pdkItems s p q) + n ≤ lim ∧ n ≤ poolFree s p := by
  simp [pdkFits, h]

theorem pdkPut_of_fits {it : Item} (hf : pdkFits s p q (cellsOfPayload it.payload) = true) :
    pdkPut s p q it = pdkAppend s p q it := by
  simp [pdkPut, hf]

theorem pdkPut_of_not_fits {it : Item} (h : pdkLimit p q = some lim)
    (hf : ¬ pdkFits s p q (cellsOfPayload it.payload) = true) :
    pdkPut s p q it = pdkDrop s p q (if it.hasWu then some it.wuId else none) := by
  simp [pdkPut, hf, h]

/-! ## The drop (R295) -/

/-- A change of the markers' payloads does not reach the other items. -/
theorem filter_map_markerPayload (f : Item → List Byte) (l : List Item) :
    (l.map fun i => if i.marker then { i with payload := f i } else i).filter (fun i => !i.marker) =
      l.filter (fun i => !i.marker) := by
  induction l with
  | nil => rfl
  | cons i l ih => cases hm : i.marker <;> simp [hm, ih]

/-- R295: a drop merges into the pending marker or appends a fresh one; either way it touches markers only. -/
theorem pdkDrop_filter_items (s : State) (p q : Nat) (wu : Option Nat) :
    (pdkItems (pdkDrop s p q wu) p q).filter (fun i => !i.marker) =
      (pdkItems s p q).filter (fun i => !i.marker) := by
  unfold pdkDrop
  dsimp only
  split
  case isTrue => rw [pdkItems_setQueue, filter_map_markerPayload]
  case isFalse => simp [pdkItems_setQueue]

/-- Settles O17: a packet that fails either half of the test is dropped, which touches markers only; one that passes
both is appended; neither reaches another queue. -/
theorem paddockDrops : Obligations.PaddockDrops := by
  intro s p q it lim hlim
  refine ⟨fun hover => ?_, fun hcells hfree => ?_, fun i j hne => pdkPut_other s it hne⟩
  · have hfit : ¬ pdkFits s p q (cellsOfPayload it.payload) = true := by
      rw [pdkFits_iff hlim]
      omega
    rw [pdkPut_of_not_fits hlim hfit, pdkDrop_filter_items]
  · rw [pdkPut_of_fits ((pdkFits_iff hlim).mpr ⟨hcells, hfree⟩)]
    exact ⟨_, pdkItems_pdkAppend s p q it, rfl, rfl⟩

end Sys2Proof.PaddockDrops
end

section
/-! SUPPORT. The 1 ms power evaluation (12 R391, R395): the target it sets, and all it writes while no junction is hot. -/

namespace Sys2Proof.PowerTarget

open Sys2Proof Sys2Proof.Machine Sys2Proof.Safety Sys2Proof.Laws

variable {s : State} {t p : Nat}

/-! ## The target (R391) -/

/-- The target depends on the power manager alone, so the time that passes before an evaluation does not move it. -/
@[simp] theorem targetStep_atMt (s : State) (t p : Nat) : targetStep (atMt s t) p = targetStep s p := rfl

theorem targetStep_of_over (hover : s.pwr.cap < p) : targetStep s p = min 7 (s.pwr.step + 1) :=
  if_pos (.inl hover)

theorem targetStep_of_within (hcool : s.pwr.hot = false) (hcap : ¬ s.pwr.cap < p) :
    targetStep s p =
      if 0 < s.pwr.step ∧ 100 * estimate s (s.pwr.step - 1) ≤ 95 * s.pwr.cap then s.pwr.step - 1
      else s.pwr.step :=
  if_neg (by simp [hcool, hcap])

/-! ## The evaluation -/

/-- With no junction hot there is no throttle to release (R393): the evaluation records its reading, counts it when it
is above the cap, and sets the target. -/
theorem exec_powerEvaluation_of_not_hot (hready : isReady s = true) (hcool : s.pwr.hot = false) :
    exec (.powerEvaluation t p) s = .next { atMt s t with
      pwr := { s.pwr with
        inputW := min 4095 p
        target := targetStep s p
        capOver := if s.pwr.cap < p then cap32 (s.pwr.capOver + 1) else s.pwr.capOver } } := by
  show execPowerEvaluation t p s = _
  simp [execPowerEvaluation, hready, hcool]

/-- Settles O10: the evaluation above the cap and the one within it, each with its target. -/
theorem powerEvaluation : Obligations.PowerEvaluation := by
  intro s t p hready hcool
  refine ⟨_, exec_powerEvaluation_of_not_hot hready hcool, ?_⟩
  by_cases hover : s.pwr.cap < p
  · rw [targetStep_of_over hover, if_pos hover, if_pos hover]
  · rw [targetStep_of_within hcool hover, if_neg hover, if_neg hover]

end Sys2Proof.PowerTarget
end

section
/-! SUPPORT. What every step does and keeps: each command answers a next state, leaves the queue alone, writes only the
parts its frame names, and keeps every memory canonical; and the state that this starts from. -/

namespace Sys2Proof.EveryStep

open Sys2Proof Sys2Proof.Machine Sys2Proof.Safety Sys2Proof.Laws

/-! ## Every command -/

/-- The outcome is a next state. -/
def IsNext (o : Host.Outcome State Fault Refusal) : Prop := ∃ u, o = .next u

theorem IsNext.next (u : State) : IsNext (.next u) := ⟨u, rfl⟩

theorem IsNext.ite {c : Prop} [Decidable c] {o q : Host.Outcome State Fault Refusal} (ho : IsNext o) (hq : IsNext q) :
    IsNext (if c then o else q) := by
  split
  · exact ho
  · exact hq

/-- Every branch of every command's meaning ends in a next state. -/
theorem exec_isNext (c : Instr) (s : State) : IsNext (exec c s) := by
  cases c
  all_goals dsimp only [exec]
  all_goals delta execStartSequence execPtpLock execPtpMessage execPtpLoss execPtpRecovery execSupplyOutOfRange
                execSupplyLow execSupplyRestored execReferenceClockFail execHostFrameDiscard execArpRequest
                execArpReply execNeighborSolicitation execEchoRequest execNextHopRefresh execKeyInitHello
                execKeyInitEncap execKeyInitClose execSessionIdleTimeout execClaim execElectionClose execLeaseRenew
                execLeaseExpiry execRelease execSubmit execAbort execMemWrite execMemRead execMgmtRead execMgmtWrite
                execRegisterWrite execMeterRead execAttest execAck execPing execRetransmitTimeout execMessageAbandon
                execNoticeSend execHostPathLoss execHostPathRetrain execHostPathSwitch execChainChoose execLayerStart
                execDenseMm execSpmm execSddmm execSpgemm execSpadd execGather execScatterAdd execEmbedBag execRoute
                execCombine execReduce execTopk execRowStats execConvert execTransposeCopy execCopy execFill
                execBarrier execSignal execWait execTicketLoop execPreload execReleaseBuf execLayerEnd
                execWorkCounterAlloc execTicketNoticePost execTicketTake execPassEnd execDrainDone
                execResidueCheckpoint execChecksumCheckpoint execTreeNode execTileDone execCompressCount
                execCompressPlace execDescriptorComplete execLayerEndComplete execDiscardDecision execMemberTicketDrop
                execDiscardRelease execQuarantineEnd execRetiredEntryExpiry execStreamRequestIssue
                execStreamReadArrival execPonyTransfer execWeightCacheRead execHbmRead execParityWrite
                execMulticastSend execMulticastWaitExpiry execSlotAccess execFarrierWriteBack execScrubSweep
                execRowMapOut execRepairAppend execPatrolScrubVisit execPageRetire execRetirementAppend
                execPseudoChannelFail execStackFail execRebuildComplete execFetchAdd execCompareSwap execCompareWait
                execCounterRead execBarrierArrival execArrivalWithdraw execRnCtrCmd execPlaneError execPlaneResyncDone
                execPaddockPacketWrite execPaddockItemRead execPdkFlush execHeartbeat execHeartbeatTimeout
                execWakeHeartbeatTimeout execClusterFailDeclare execSpareTestDone execRetest execYarrowVisit
                execClusterGate execClusterSleep execClusterWake execGroupPllStop execPowerEvaluation
                execGroupStepSwitch execPwrCapWrite execThermalLimit execThermalRecover execDroopDetect
                execRegulatorPhaseFail execPllLockLoss execSupervisorVoteMismatch execSupervisorResyncDone
                execDieSupervisorLoss execXUnitMismatch execDispatcherRestartDone execNocFlitCrcFail execDieLaneFail
                execPeerLinkTrain execPeerLaneFail execPeerRetrainDone execPeerLinkLost execPeerPingTimer
                execPeerKeyInit execPeerData execPeerNack execPeerLanded execPeerLeaf execPeerResult execRoundAbort
                execRoundTimeout execPeerForward execWindowWrite execGroupCommit execJobOpen execJobClose
                execTileChoiceSet execModTlbInv execClusterRetire execDisableTimeout execDisableDone execCfgLoad
                execFwLoad execCodeBankFree execDbgYarrowCmd execSubmitArrival execReadRequest execTimeTap
                execCompleteDeparture execCompleteEvent execFaultLogTap execIntervalClose execPendingExpiry
                execUnmatchedTimeout execMeterHoldup execMeterStatusReport execMeterSilent execServiceSession
                execKyendCharacter execKyendHelp execKyendId execKyendState execKyendClusters execKyendClustersGroup
                execKyendHbm execKyendPorts execKyendTemps execKyendPower execKyendTime execKyendOwner execKyendLog
                execKyendMeter execKyendPeek execKyendPoke execKyendTrace execKyendYarrow execSupplyLowEnd
                execStandbyPathLoss execPeerKeyReply execPeerFrameDiscard execDieSupervisorReloadDone
                execYarrowRequestCancel execDroopEnd
  all_goals repeat' first
    | with_reducible refine IsNext.ite ?_ ?_
    | with_reducible exact .next _
    | dsimp only
    | split

/-- Every command keeps the queue and the memories, and writes only the parts that `mayWrite` gives it. -/
theorem exec_keeps (c : Instr) (s : State) : OutKeeps (mayWrite c) (atMt s (timeOf c)) (exec c s) := by
  have h : Keeps (mayWrite c) (atMt s (timeOf c)) (atMt s (timeOf c)) := .refl _ _
  cases c
  all_goals dsimp only [exec]
  case' startSequence => apply execStartSequence_keeps h
  case' ptpLock => apply execPtpLock_keeps h
  case' ptpMessage => apply execPtpMessage_keeps h
  case' ptpLoss => apply execPtpLoss_keeps h
  case' ptpRecovery => apply execPtpRecovery_keeps h
  case' supplyOutOfRange => apply execSupplyOutOfRange_keeps h
  case' supplyLow => apply execSupplyLow_keeps h
  case' supplyRestored => apply execSupplyRestored_keeps h
  case' referenceClockFail => apply execReferenceClockFail_keeps h
  case' hostFrameDiscard => apply execHostFrameDiscard_keeps h
  case' arpRequest => apply execArpRequest_keeps h
  case' arpReply => apply execArpReply_keeps h
  case' neighborSolicitation => apply execNeighborSolicitation_keeps h
  case' echoRequest => apply execEchoRequest_keeps h
  case' nextHopRefresh => apply execNextHopRefresh_keeps h
  case' keyInitHello => apply execKeyInitHello_keeps h
  case' keyInitEncap => apply execKeyInitEncap_keeps h
  case' keyInitClose => apply execKeyInitClose_keeps h
  case' sessionIdleTimeout => apply execSessionIdleTimeout_keeps h
  case' claim => apply execClaim_keeps h
  case' electionClose => apply execElectionClose_keeps h
  case' leaseRenew => apply execLeaseRenew_keeps h
  case' leaseExpiry => apply execLeaseExpiry_keeps h
  case' release => apply execRelease_keeps h
  case' submit => apply execSubmit_keeps h
  case' abort => apply execAbort_keeps h
  case' memWrite => apply execMemWrite_keeps h
  case' memRead => apply execMemRead_keeps h
  case' mgmtRead => apply execMgmtRead_keeps h
  case' mgmtWrite => apply execMgmtWrite_keeps h
  case' registerWrite => apply execRegisterWrite_keeps h
  case' meterRead => apply execMeterRead_keeps h
  case' attest => apply execAttest_keeps h
  case' ack => apply execAck_keeps h
  case' ping => apply execPing_keeps h
  case' retransmitTimeout => apply execRetransmitTimeout_keeps h
  case' messageAbandon => apply execMessageAbandon_keeps h
  case' noticeSend => apply execNoticeSend_keeps h
  case' hostPathLoss => apply execHostPathLoss_keeps h
  case' hostPathRetrain => apply execHostPathRetrain_keeps h
  case' hostPathSwitch => apply execHostPathSwitch_keeps h
  case' chainChoose => apply execChainChoose_keeps h
  case' layerStart => apply execLayerStart_keeps h
  case' denseMm => apply execDenseMm_keeps h
  case' spmm => apply execSpmm_keeps h
  case' sddmm => apply execSddmm_keeps h
  case' spgemm => apply execSpgemm_keeps h
  case' spadd => apply execSpadd_keeps h
  case' gather => apply execGather_keeps h
  case' scatterAdd => apply execScatterAdd_keeps h
  case' embedBag => apply execEmbedBag_keeps h
  case' route => apply execRoute_keeps h
  case' combine => apply execCombine_keeps h
  case' reduce => apply execReduce_keeps h
  case' topk => apply execTopk_keeps h
  case' rowStats => apply execRowStats_keeps h
  case' convert => apply execConvert_keeps h
  case' transposeCopy => apply execTransposeCopy_keeps h
  case' copy => apply execCopy_keeps h
  case' fill => apply execFill_keeps h
  case' barrier => apply execBarrier_keeps h
  case' signal => apply execSignal_keeps h
  case' wait => apply execWait_keeps h
  case' ticketLoop => apply execTicketLoop_keeps h
  case' preload => apply execPreload_keeps h
  case' releaseBuf => apply execReleaseBuf_keeps h
  case' layerEnd => apply execLayerEnd_keeps h
  case' workCounterAlloc => apply execWorkCounterAlloc_keeps h
  case' ticketNoticePost => apply execTicketNoticePost_keeps h
  case' ticketTake => apply execTicketTake_keeps h
  case' passEnd => apply execPassEnd_keeps h
  case' drainDone => apply execDrainDone_keeps h
  case' residueCheckpoint => apply execResidueCheckpoint_keeps h
  case' checksumCheckpoint => apply execChecksumCheckpoint_keeps h
  case' treeNode => apply execTreeNode_keeps h
  case' tileDone => apply execTileDone_keeps h
  case' compressCount => apply execCompressCount_keeps h
  case' compressPlace => apply execCompressPlace_keeps h
  case' descriptorComplete => apply execDescriptorComplete_keeps h
  case' layerEndComplete => apply execLayerEndComplete_keeps h
  case' discardDecision => apply execDiscardDecision_keeps h
  case' memberTicketDrop => apply execMemberTicketDrop_keeps h
  case' discardRelease => apply execDiscardRelease_keeps h
  case' quarantineEnd => apply execQuarantineEnd_keeps h
  case' retiredEntryExpiry => apply execRetiredEntryExpiry_keeps h
  case' streamRequestIssue => apply execStreamRequestIssue_keeps h
  case' streamReadArrival => apply execStreamReadArrival_keeps h
  case' ponyTransfer => apply execPonyTransfer_keeps h
  case' weightCacheRead => apply execWeightCacheRead_keeps h
  case' hbmRead => apply execHbmRead_keeps h
  case' parityWrite => apply execParityWrite_keeps h
  case' multicastSend => apply execMulticastSend_keeps h
  case' multicastWaitExpiry => apply execMulticastWaitExpiry_keeps h
  case' slotAccess => apply execSlotAccess_keeps h
  case' farrierWriteBack => apply execFarrierWriteBack_keeps h
  case' scrubSweep => apply execScrubSweep_keeps h
  case' rowMapOut => apply execRowMapOut_keeps h
  case' repairAppend => apply execRepairAppend_keeps h
  case' patrolScrubVisit => apply execPatrolScrubVisit_keeps h
  case' pageRetire => apply execPageRetire_keeps h
  case' retirementAppend => apply execRetirementAppend_keeps h
  case' pseudoChannelFail => apply execPseudoChannelFail_keeps h
  case' stackFail => apply execStackFail_keeps h
  case' rebuildComplete => apply execRebuildComplete_keeps h
  case' fetchAdd => apply execFetchAdd_keeps h
  case' compareSwap => apply execCompareSwap_keeps h
  case' compareWait => apply execCompareWait_keeps h
  case' counterRead => apply execCounterRead_keeps h
  case' barrierArrival => apply execBarrierArrival_keeps h
  case' arrivalWithdraw => apply execArrivalWithdraw_keeps h
  case' rnCtrCmd => apply execRnCtrCmd_keeps h
  case' planeError => apply execPlaneError_keeps h
  case' planeResyncDone => apply execPlaneResyncDone_keeps h
  case' paddockPacketWrite => apply execPaddockPacketWrite_keeps h
  case' paddockItemRead => apply execPaddockItemRead_keeps h
  case' pdkFlush => apply execPdkFlush_keeps h
  case' heartbeat => apply execHeartbeat_keeps h
  case' heartbeatTimeout => apply execHeartbeatTimeout_keeps h
  case' wakeHeartbeatTimeout => apply execWakeHeartbeatTimeout_keeps h
  case' clusterFailDeclare => apply execClusterFailDeclare_keeps h
  case' spareTestDone => apply execSpareTestDone_keeps h
  case' retest => apply execRetest_keeps h
  case' yarrowVisit => apply execYarrowVisit_keeps h
  case' clusterGate => apply execClusterGate_keeps h
  case' clusterSleep => apply execClusterSleep_keeps h
  case' clusterWake => apply execClusterWake_keeps h
  case' groupPllStop => apply execGroupPllStop_keeps h
  case' powerEvaluation => apply execPowerEvaluation_keeps h
  case' groupStepSwitch => apply execGroupStepSwitch_keeps h
  case' pwrCapWrite => apply execPwrCapWrite_keeps h
  case' thermalLimit => apply execThermalLimit_keeps h
  case' thermalRecover => apply execThermalRecover_keeps h
  case' droopDetect => apply execDroopDetect_keeps h
  case' regulatorPhaseFail => apply execRegulatorPhaseFail_keeps h
  case' pllLockLoss => apply execPllLockLoss_keeps h
  case' supervisorVoteMismatch => apply execSupervisorVoteMismatch_keeps h
  case' supervisorResyncDone => apply execSupervisorResyncDone_keeps h
  case' dieSupervisorLoss => apply execDieSupervisorLoss_keeps h
  case' xUnitMismatch => apply execXUnitMismatch_keeps h
  case' dispatcherRestartDone => apply execDispatcherRestartDone_keeps h
  case' nocFlitCrcFail => apply execNocFlitCrcFail_keeps h
  case' dieLaneFail => apply execDieLaneFail_keeps h
  case' peerLinkTrain => apply execPeerLinkTrain_keeps h
  case' peerLaneFail => apply execPeerLaneFail_keeps h
  case' peerRetrainDone => apply execPeerRetrainDone_keeps h
  case' peerLinkLost => apply execPeerLinkLost_keeps h
  case' peerPingTimer => apply execPeerPingTimer_keeps h
  case' peerKeyInit => apply execPeerKeyInit_keeps h
  case' peerData => apply execPeerData_keeps h
  case' peerNack => apply execPeerNack_keeps h
  case' peerLanded => apply execPeerLanded_keeps h
  case' peerLeaf => apply execPeerLeaf_keeps h
  case' peerResult => apply execPeerResult_keeps h
  case' roundAbort => apply execRoundAbort_keeps h
  case' roundTimeout => apply execRoundTimeout_keeps h
  case' peerForward => apply execPeerForward_keeps h
  case' windowWrite => apply execWindowWrite_keeps h
  case' groupCommit => apply execGroupCommit_keeps h
  case' jobOpen => apply execJobOpen_keeps h
  case' jobClose => apply execJobClose_keeps h
  case' tileChoiceSet => apply execTileChoiceSet_keeps h
  case' modTlbInv => apply execModTlbInv_keeps h
  case' clusterRetire => apply execClusterRetire_keeps h
  case' disableTimeout => apply execDisableTimeout_keeps h
  case' disableDone => apply execDisableDone_keeps h
  case' cfgLoad => apply execCfgLoad_keeps h
  case' fwLoad => apply execFwLoad_keeps h
  case' codeBankFree => apply execCodeBankFree_keeps h
  case' dbgYarrowCmd => apply execDbgYarrowCmd_keeps h
  case' submitArrival => apply execSubmitArrival_keeps h
  case' readRequest => apply execReadRequest_keeps h
  case' timeTap => apply execTimeTap_keeps h
  case' completeDeparture => apply execCompleteDeparture_keeps h
  case' completeEvent => apply execCompleteEvent_keeps h
  case' faultLogTap => apply execFaultLogTap_keeps h
  case' intervalClose => apply execIntervalClose_keeps h
  case' pendingExpiry => apply execPendingExpiry_keeps h
  case' unmatchedTimeout => apply execUnmatchedTimeout_keeps h
  case' meterHoldup => apply execMeterHoldup_keeps h
  case' meterStatusReport => apply execMeterStatusReport_keeps h
  case' meterSilent => apply execMeterSilent_keeps h
  case' serviceSession => apply execServiceSession_keeps h
  case' kyendCharacter => apply execKyendCharacter_keeps h
  case' kyendHelp => apply execKyendHelp_keeps h
  case' kyendId => apply execKyendId_keeps h
  case' kyendState => apply execKyendState_keeps h
  case' kyendClusters => apply execKyendClusters_keeps h
  case' kyendClustersGroup => apply execKyendClustersGroup_keeps h
  case' kyendHbm => apply execKyendHbm_keeps h
  case' kyendPorts => apply execKyendPorts_keeps h
  case' kyendTemps => apply execKyendTemps_keeps h
  case' kyendPower => apply execKyendPower_keeps h
  case' kyendTime => apply execKyendTime_keeps h
  case' kyendOwner => apply execKyendOwner_keeps h
  case' kyendLog => apply execKyendLog_keeps h
  case' kyendMeter => apply execKyendMeter_keeps h
  case' kyendPeek => apply execKyendPeek_keeps h
  case' kyendPoke => apply execKyendPoke_keeps h
  case' kyendTrace => apply execKyendTrace_keeps h
  case' kyendYarrow => apply execKyendYarrow_keeps h
  case' supplyLowEnd => apply execSupplyLowEnd_keeps h
  case' standbyPathLoss => apply execStandbyPathLoss_keeps h
  case' peerKeyReply => apply execPeerKeyReply_keeps h
  case' peerFrameDiscard => apply execPeerFrameDiscard_keeps h
  case' dieSupervisorReloadDone => apply execDieSupervisorReloadDone_keeps h
  case' yarrowRequestCancel => apply execYarrowRequestCancel_keeps h
  case' droopEnd => apply execDroopEnd_keeps h
  all_goals simp [mayWrite]

theorem step_cons {s : State} {c : Instr} {rest : List Instr} (h : s.pending = c :: rest) :
    step s = exec c { s with pending := rest } := by
  simp [step, h]

theorem step_nil {s : State} (h : s.pending = []) : step s = .next s := by
  simp [step, h]

/-- Settles O1: the two cases of the queue. -/
theorem stepTakesFrontCommand : Obligations.StepTakesFrontCommand :=
  ⟨fun _ _ _ => step_cons rfl, fun _ h => step_nil h⟩

/-- Settles O2: the next state each command answers keeps the queue. -/
theorem everyCommandAnswers : Obligations.EveryCommandAnswers := by
  intro c s
  obtain ⟨u, hu⟩ := exec_isNext c s
  exact ⟨u, hu, ((exec_keeps c s).keeps u hu).queue⟩

/-- Settles O3: the frame is one of the three things every command keeps. -/
theorem commandFrames : Obligations.CommandFrames := fun c s u h => ((exec_keeps c s).keeps u h).parts

/-- Settles O4: an idle step changes nothing, and any other is a command, which keeps every memory canonical. -/
theorem memoryWfKept : Obligations.MemoryWfKept := by
  intro s u hs hstep
  cases hq : s.pending with
  | nil =>
    rw [step_nil hq] at hstep
    cases hstep
    exact hs
  | cons c rest =>
    rw [step_cons hq] at hstep
    exact ((exec_keeps c _).keeps u hstep).memory hs

/-! ## Reset -/

/-- Settles O5: every part of the reset state is written out, and a cluster is OFF exactly when it is its group's spare. -/
theorem resetState : Obligations.ResetState := by
  refine ⟨?_, rfl, rfl, rfl, rfl, rfl, rfl, fun _ => rfl, fun _ => rfl, fun _ _ => rfl, fun _ => rfl, fun p => ?_⟩
  · exact ⟨rfl, rfl, rfl, rfl, rfl, by simp [State.reset]⟩
  · show (clusterDefault p).power = _
    unfold clusterDefault
    split <;> rfl

end Sys2Proof.EveryStep
end

section
/-! SUPPORT. The stored word (05 R131 to R133): its syndrome and parity are linear over exclusive or, so a flipped bit adds its
code position to a syndrome of 0 and turns the parity; different bits stand at different positions. -/

namespace Sys2Proof.StoredWords

open Sys2Proof Sys2Proof.Machine Sys2Proof.Safety

/-! ## Exclusive-or sums -/

section XorSum

variable {α : Type} (op : α → α → α) (e : α)

/-- The sum of n values under an operation with a neutral value. -/
def opSum (g : Nat → α) (n : Nat) : α := (List.range n).foldl (fun x i => op x (g i)) e

@[simp] theorem opSum_zero (g : Nat → α) : opSum op e g 0 = e := rfl

@[simp] theorem opSum_succ (g : Nat → α) (n : Nat) : opSum op e g (n + 1) = op (opSum op e g n) (g n) := by
  simp [opSum, List.range_succ]

variable [Std.Associative op] [Std.Commutative op] [Std.LawfulIdentity op e]

theorem opSum_op (g h : Nat → α) (n : Nat) :
    opSum op e (fun i => op (g i) (h i)) n = op (opSum op e g n) (opSum op e h n) := by
  induction n with
  | zero => simp [Std.LawfulLeftIdentity.left_id]
  | succ n ih => simp only [opSum_succ, ih]; ac_rfl

theorem opSum_add (g : Nat → α) (m n : Nat) :
    opSum op e g (m + n) = op (opSum op e g m) (opSum op e (fun i => g (m + i)) n) := by
  induction n with
  | zero => simp [Std.LawfulRightIdentity.right_id]
  | succ n ih => simp only [← Nat.add_assoc, opSum_succ, ih]; ac_rfl

omit [Std.Associative op] [Std.Commutative op] in
theorem opSum_neutral {g : Nat → α} {n : Nat} (h : ∀ i < n, g i = e) : opSum op e g n = e := by
  induction n with
  | zero => rfl
  | succ n ih =>
    rw [opSum_succ, ih fun i hi => h i (by omega), h n (by omega)]
    exact Std.LawfulLeftIdentity.left_id e

omit [Std.Associative op] [Std.Commutative op] in
theorem opSum_single {g : Nat → α} {n i : Nat} (hi : i < n) (h : ∀ j < n, j ≠ i → g j = e) : opSum op e g n = g i := by
  induction n with
  | zero => omega
  | succ n ih =>
    rw [opSum_succ]
    by_cases hin : i = n
    · subst hin
      rw [opSum_neutral op e fun j hj => h j (by omega) (by omega)]
      exact Std.LawfulLeftIdentity.left_id _
    · rw [ih (by omega) fun j hj hne => h j (by omega) hne, h n (by omega) (Ne.symm hin)]
      exact Std.LawfulRightIdentity.right_id _

end XorSum

/-! ## Code positions (R132) -/

theorem bitPos_strictMono : StrictMono bitPos := by
  intro i j h
  unfold bitPos
  split_ifs <;> omega

theorem bitPos_ne_two_pow (i : Nat) {k : Nat} (hk : k < 9) : bitPos i ≠ 2 ^ k := by
  interval_cases k <;> unfold bitPos <;> split_ifs <;> omega

theorem bitPos_le {i : Nat} (hi : i < 257) : bitPos i ≤ 266 := by
  unfold bitPos
  split_ifs <;> omega

theorem bitPos_pos (i : Nat) : 0 < bitPos i := by
  unfold bitPos
  split_ifs <;> omega

theorem bitAtPos_bitPos {i : Nat} (hi : i < 257) : bitAtPos (bitPos i) = some i := by
  have hne : ∀ j, j < i → bitPos j ≠ bitPos i := fun j hj => (bitPos_strictMono hj).ne
  simp [bitAtPos, List.find?_range_eq_some, hi]
  exact hne

theorem bitAtPos_two_pow {k : Nat} (hk : k < 9) : bitAtPos (2 ^ k) = none := by
  simp [bitAtPos, bitPos_ne_two_pow _ hk]

/-- The code position of each bit of a stored word: a check bit stands at its power of two, and the parity bit at none. -/
def wordPos (i : Nat) : Nat := if i < 257 then bitPos i else if i < 266 then 2 ^ (i - 257) else 0

theorem wordPos_data {i : Nat} (hi : i < 257) : wordPos i = bitPos i := if_pos hi

theorem wordPos_check {k : Nat} (hk : k < 9) : wordPos (257 + k) = 2 ^ k := by
  have h : 257 + k < 266 := by omega
  simp [wordPos, h]

theorem wordPos_parity : wordPos 266 = 0 := rfl

/-- Every bit of a stored word is a data bit, a check bit or the parity bit. -/
theorem wordBit_cases {i : Nat} (hi : i < 267) : i < 257 ∨ (∃ k < 9, i = 257 + k) ∨ i = 266 := by
  by_cases h : i < 257
  · exact .inl h
  · by_cases h' : i = 266
    · exact .inr (.inr h')
    · exact .inr (.inl ⟨i - 257, by omega, by omega⟩)

theorem wordPos_ne {i j : Nat} (hij : i < j) (hj : j < 267) : wordPos i ≠ wordPos j := by
  obtain h | ⟨k, hk, rfl⟩ | rfl := wordBit_cases hj
  · rw [wordPos_data h, wordPos_data (by omega)]
    exact (bitPos_strictMono hij).ne
  · obtain hi | ⟨l, hl, rfl⟩ | rfl := wordBit_cases (i := i) (by omega)
    · rw [wordPos_data hi, wordPos_check hk]
      exact bitPos_ne_two_pow i hk
    · rw [wordPos_check hl, wordPos_check hk]
      exact (Nat.pow_lt_pow_right (by decide) (by omega)).ne
    · omega
  · rw [wordPos_parity]
    obtain hi | ⟨l, hl, rfl⟩ | rfl := wordBit_cases (i := i) (by omega)
    · rw [wordPos_data hi]
      exact (bitPos_pos i).ne'
    · rw [wordPos_check hl]
      exact (Nat.two_pow_pos l).ne'
    · omega

/-! ## Syndrome and parity -/

/-- What the bits of a word that are set add to its syndrome. -/
def posIf (v : Nat → Bool) (i : Nat) : Nat := if v i then bitPos i else 0

theorem dataSyndrome_eq (d : BitVec 257) : dataSyndrome d = opSum (· ^^^ ·) 0 (posIf d.getLsbD) 257 := by
  unfold dataSyndrome opSum
  congr 1
  funext x i
  unfold posIf
  split
  · rfl
  · exact (Nat.xor_zero x).symm

theorem syndrome_eq (v : StoredWord) :
    syndrome v = dataSyndrome (v.extractLsb' 0 257) ^^^ (v.extractLsb' 257 9).toNat := rfl

theorem bitParity_eq {w : Nat} (v : BitVec w) : bitParity v = opSum xor false v.getLsbD w := rfl

theorem dataSyndrome_xor (d e : BitVec 257) : dataSyndrome (d ^^^ e) = dataSyndrome d ^^^ dataSyndrome e := by
  simp only [dataSyndrome_eq, ← opSum_op]
  congr 1
  funext i
  simp only [posIf, BitVec.getLsbD_xor]
  cases d.getLsbD i <;> cases e.getLsbD i <;> simp

theorem bitParity_xor {w : Nat} (u v : BitVec w) : bitParity (u ^^^ v) = xor (bitParity u) (bitParity v) := by
  have : Std.Commutative xor := ⟨Bool.xor_comm⟩
  simp only [bitParity_eq, ← opSum_op]
  congr 1
  funext i
  exact BitVec.getLsbD_xor

theorem bitParity_append {m n : Nat} (u : BitVec m) (v : BitVec n) :
    bitParity (u ++ v) = xor (bitParity u) (bitParity v) := by
  have : Std.Commutative xor := ⟨Bool.xor_comm⟩
  have hsum := opSum_add xor false (u ++ v).getLsbD n m
  rw [Nat.add_comm n m] at hsum
  rw [bitParity_eq, hsum, Bool.xor_comm]
  congr 1
  · unfold bitParity opSum
    simp [BitVec.getLsbD_append]
  · unfold bitParity opSum
    refine List.foldl_ext _ _ _ fun x i hi => ?_
    simp [BitVec.getLsbD_append, List.mem_range.mp hi]

theorem syndrome_xor (u v : StoredWord) : syndrome (u ^^^ v) = syndrome u ^^^ syndrome v := by
  simp only [syndrome_eq, BitVec.extractLsb'_xor, dataSyndrome_xor, BitVec.toNat_xor]
  ac_rfl

theorem dataSyndrome_lt (d : BitVec 257) : dataSyndrome d < 2 ^ 9 := by
  have h : ∀ n ≤ 257, opSum (· ^^^ ·) 0 (posIf d.getLsbD) n < 2 ^ 9 := by
    intro n hn
    induction n with
    | zero => exact Nat.two_pow_pos 9
    | succ n ih =>
      rw [opSum_succ]
      refine Nat.xor_lt_two_pow (ih (by omega)) ?_
      unfold posIf
      split
      · have := bitPos_le (i := n) (by omega)
        omega
      · decide
  rw [dataSyndrome_eq]
  exact h 257 le_rfl

/-! ## A sound word -/

/-- The data stand in the low bits, the check bits above them. -/
theorem getLsbD_encodeWord (d : BitVec 257) (i : Nat) : (encodeWord d).getLsbD i =
    if i < 257 then d.getLsbD i
    else if i < 266 then (BitVec.ofNat 9 (dataSyndrome d)).getLsbD (i - 257)
    else (BitVec.ofBool (xor (bitParity d) (bitParity (BitVec.ofNat 9 (dataSyndrome d))))).getLsbD (i - 266) := by
  refine (BitVec.getLsbD_append (n := 1 + 9)).trans ?_
  rw [BitVec.getLsbD_append]
  by_cases h : i < 257
  · rw [if_pos h, if_pos h]
  · rw [if_neg h, if_neg h]
    by_cases h' : i < 266
    · rw [if_pos (by omega), if_pos h']
    · rw [if_neg (by omega), if_neg h', Nat.sub_sub]

theorem encodeWord_data (d : BitVec 257) : (encodeWord d).extractLsb' 0 257 = d := by
  apply BitVec.eq_of_getLsbD_eq
  intro i hi
  simp [getLsbD_encodeWord, hi]

theorem encodeWord_check (d : BitVec 257) :
    (encodeWord d).extractLsb' 257 9 = BitVec.ofNat 9 (dataSyndrome d) := by
  apply BitVec.eq_of_getLsbD_eq
  intro i hi
  have h : 257 + i < 266 := by omega
  rw [BitVec.getLsbD_extractLsb', getLsbD_encodeWord, if_neg (by omega), if_pos h, Nat.add_sub_cancel_left]
  simp [hi]

theorem syndrome_encodeWord (d : BitVec 257) : syndrome (encodeWord d) = 0 := by
  rw [syndrome_eq, encodeWord_data, encodeWord_check, BitVec.toNat_ofNat, Nat.mod_eq_of_lt (dataSyndrome_lt d), Nat.xor_self]

theorem bitParity_encodeWord (d : BitVec 257) : bitParity (encodeWord d) = false := by
  show bitParity (w := 1 + 9 + 257) (_ ++ _ ++ d) = false
  rw [bitParity_append, bitParity_append]
  cases bitParity d <;> cases bitParity (BitVec.ofNat 9 (dataSyndrome d)) <;> rfl

/-! ## A flipped bit -/

theorem getLsbD_two_pow {w i j : Nat} (hi : i < w) : (BitVec.ofNat w (2 ^ i)).getLsbD j = decide (i = j) := by
  rw [BitVec.getLsbD_ofNat, Nat.testBit_two_pow]
  by_cases h : i = j
  · subst h
    simp [hi]
  · simp [h]

theorem bitParity_two_pow {i : Nat} (hi : i < 267) : bitParity (BitVec.ofNat 267 (2 ^ i)) = true := by
  have : Std.Commutative xor := ⟨Bool.xor_comm⟩
  rw [bitParity_eq, opSum_single xor false hi]
  · simp [-BitVec.ofNat_pow, getLsbD_two_pow hi]
  · intro j _ hne
    simp [-BitVec.ofNat_pow, getLsbD_two_pow hi, Ne.symm hne]

theorem extract_two_pow_data {i : Nat} (hi : i < 257) :
    (BitVec.ofNat 267 (2 ^ i)).extractLsb' 0 257 = BitVec.ofNat 257 (2 ^ i) := by
  apply BitVec.eq_of_getLsbD_eq
  intro j hj
  rw [BitVec.getLsbD_extractLsb', Nat.zero_add, getLsbD_two_pow (by omega), getLsbD_two_pow hi]
  simp [hj]

theorem extract_two_pow_rest {i : Nat} (hi : 257 ≤ i) (hw : i < 267) :
    (BitVec.ofNat 267 (2 ^ i)).extractLsb' 0 257 = 0#257 := by
  apply BitVec.eq_of_getLsbD_eq
  intro j hj
  have hne : i ≠ j := by omega
  rw [BitVec.getLsbD_extractLsb', Nat.zero_add, getLsbD_two_pow hw]
  simp [hne]

theorem dataSyndrome_two_pow {i : Nat} (hi : i < 257) : dataSyndrome (BitVec.ofNat 257 (2 ^ i)) = bitPos i := by
  rw [dataSyndrome_eq, opSum_single _ 0 hi]
  · simp [-BitVec.ofNat_pow, posIf, getLsbD_two_pow hi]
  · intro j _ hne
    simp [-BitVec.ofNat_pow, posIf, getLsbD_two_pow hi, Ne.symm hne]

theorem dataSyndrome_zero : dataSyndrome 0#257 = 0 := by
  rw [dataSyndrome_eq]
  exact opSum_neutral _ 0 fun i _ => by simp [posIf]

theorem syndrome_two_pow {i : Nat} (hi : i < 267) : syndrome (BitVec.ofNat 267 (2 ^ i)) = wordPos i := by
  rw [syndrome_eq]
  obtain h | ⟨k, hk, rfl⟩ | rfl := wordBit_cases hi
  · have hdiv : 2 ^ i / 2 ^ 257 = 0 := Nat.div_eq_of_lt (Nat.pow_lt_pow_right (by decide) h)
    rw [extract_two_pow_data h, dataSyndrome_two_pow h, wordPos_data h, BitVec.extractLsb'_toNat, BitVec.toNat_ofNat,
      Nat.mod_eq_of_lt (Nat.pow_lt_pow_right (by decide) hi), Nat.shiftRight_eq_div_pow, hdiv, Nat.zero_mod, Nat.xor_zero]
  · rw [extract_two_pow_rest (by omega) hi, dataSyndrome_zero, wordPos_check hk]
    interval_cases k <;> decide
  · rw [extract_two_pow_rest (by omega) hi, dataSyndrome_zero]
    decide

/-! ## Decoding (R133) -/

theorem decodeWord_sound {v : StoredWord} (hy : syndrome v = 0) (hq : bitParity v = false) :
    decodeWord v = (v.extractLsb' 0 257, .none) := by
  simp [decodeWord, hy, hq]

theorem decodeWord_uncorrectable {v : StoredWord} (hy : syndrome v ≠ 0) (hq : bitParity v = false) :
    decodeWord v = (v.extractLsb' 0 257 ||| BitVec.ofNat 257 (2 ^ 256), .uncorrectable) := by
  unfold decodeWord
  rw [hq]
  exact if_neg hy

theorem decodeWord_one {v : StoredWord} (hy : syndrome v = 0) (hq : bitParity v = false) {i : Nat} (hi : i < 267) :
    decodeWord (v ^^^ BitVec.ofNat 267 (2 ^ i)) = (v.extractLsb' 0 257, .corrected) := by
  have hs : syndrome (v ^^^ BitVec.ofNat 267 (2 ^ i)) = wordPos i := by
    rw [syndrome_xor, hy, syndrome_two_pow hi, Nat.zero_xor]
  have hp : bitParity (v ^^^ BitVec.ofNat 267 (2 ^ i)) = true := by
    rw [bitParity_xor, hq, bitParity_two_pow hi]
    rfl
  obtain h | ⟨k, hk, rfl⟩ | rfl := wordBit_cases hi
  · have h0 := bitPos_pos i
    have hle := bitPos_le h
    simp [-BitVec.ofNat_pow, decodeWord, hs, hp, wordPos_data h, h0.ne', hle, bitAtPos_bitPos h, BitVec.extractLsb'_xor,
      extract_two_pow_data h]
  · have h0 := Nat.two_pow_pos k
    have hle : 2 ^ k ≤ 266 := by interval_cases k <;> decide
    simp [-BitVec.ofNat_pow, decodeWord, hs, hp, wordPos_check hk, hle, bitAtPos_two_pow hk, BitVec.extractLsb'_xor,
      extract_two_pow_rest (i := 257 + k) (by omega) hi]
  · have hx := extract_two_pow_rest (i := 266) (by decide) hi
    unfold decodeWord
    rw [hs, hp, wordPos_parity, BitVec.extractLsb'_xor, hx, BitVec.xor_zero]
    rfl

theorem decodeWord_two {v : StoredWord} (hy : syndrome v = 0) (hq : bitParity v = false) {i j : Nat} (hij : i < j)
    (hj : j < 267) : ∃ e, decodeWord (v ^^^ BitVec.ofNat 267 (2 ^ i) ^^^ BitVec.ofNat 267 (2 ^ j)) = (e, .uncorrectable) ∧
      e.getLsbD 256 = true := by
  have hi : i < 267 := by omega
  have hs : syndrome (v ^^^ BitVec.ofNat 267 (2 ^ i) ^^^ BitVec.ofNat 267 (2 ^ j)) ≠ 0 := by
    rw [syndrome_xor, syndrome_xor, hy, syndrome_two_pow hi, syndrome_two_pow hj, Nat.zero_xor, Ne, Nat.xor_eq_zero_iff]
    exact wordPos_ne hij hj
  have hp : bitParity (v ^^^ BitVec.ofNat 267 (2 ^ i) ^^^ BitVec.ofNat 267 (2 ^ j)) = false := by
    rw [bitParity_xor, bitParity_xor, hq, bitParity_two_pow hi, bitParity_two_pow hj]
    rfl
  refine ⟨_, decodeWord_uncorrectable hs hp, ?_⟩
  rw [BitVec.getLsbD_or, getLsbD_two_pow (by decide), decide_eq_true rfl, Bool.or_true]

/-- Settles O49: a stored word is sound; one flipped bit gives its own code position with odd parity, two give a syndrome
that is not 0 with even parity. -/
theorem storedWords : Obligations.StoredWords := by
  intro d
  have hy := syndrome_encodeWord d
  have hq := bitParity_encodeWord d
  refine ⟨?_, fun i hi => ?_, fun i j hij hj => decodeWord_two hy hq hij hj⟩
  · rw [decodeWord_sound hy hq, encodeWord_data]
  · rw [decodeWord_one hy hq hi, encodeWord_data]

end Sys2Proof.StoredWords
end

section
/-! SUPPORT. The residue check (03 R88, R89, 04 R105): the residue of a shifted product formed from its operands' residues and
low bytes is the residue of the floor that the entry adds. -/

namespace Sys2Proof.ResidueChecks

open Sys2Proof Sys2Proof.Machine Sys2Proof.Safety Sys2Proof.IntegerAccumulation

theorem res7_cast (x : Int) : (res7 x : Int) = x % 7 := Int.toNat_of_nonneg (Int.emod_nonneg x (by decide))

theorem res7_mul (x y : Int) : ((res7 x * res7 y % 7 : Nat) : Int) = x * y % 7 := by
  push_cast
  rw [res7_cast, res7_cast, ← Int.mul_emod]

/-- The low bytes of the operands give the low bits of their product. -/
theorem lowBytes_mul_emod (x y : Int) {s : Nat} (hs : s ≤ 8) :
    (x % 256) * (y % 256) % ((2 ^ s : Nat) : Int) = x * y % ((2 ^ s : Nat) : Int) := by
  have hd : ((2 ^ s : Nat) : Int) ∣ 256 := by
    exact_mod_cast pow_dvd_pow 2 hs
  rw [Int.mul_emod, Int.emod_emod_of_dvd x hd, Int.emod_emod_of_dvd y hd, ← Int.mul_emod]

/-- R88: the residue of the floor of a quotient by 2^s, since 4 is the inverse of 2 modulo 7. -/
theorem floor_emod_seven (p : Int) {s : Nat} (hs : s ≤ 8) :
    ((p % 7 + 7 - p % ((2 ^ s : Nat) : Int) % 7) * 4 ^ s) % 7 = p / ((2 ^ s : Nat) : Int) % 7 := by
  interval_cases s <;> norm_num <;> omega

theorem productRes_eq (x y : Int) {s : Nat} (hs : s ≤ 8) : productRes x y s = res7 (shiftDown (x * y) s) := by
  have hz : (productRes x y s : Int) = shiftDown (x * y) s % 7 := by
    unfold productRes shiftDown
    by_cases h0 : s = 0
    · subst h0
      simpa using res7_mul x y
    · have hr := Int.emod_nonneg (x * y) (b := ((2 ^ s : Nat) : Int)) (by positivity)
      rw [if_neg h0, lowBytes_mul_emod x y hs, ← floor_emod_seven (x * y) hs]
      generalize ((2 ^ s : Nat) : Int) = m at hr ⊢
      have hle : (x * y % m).toNat % 7 ≤ res7 x * res7 y % 7 + 7 := by omega
      rw [Int.natCast_mod, Nat.cast_mul, Nat.cast_sub hle, Nat.cast_add, res7_mul, Int.natCast_mod, Int.toNat_of_nonneg hr]
      norm_num
  have h := res7_cast (shiftDown (x * y) s)
  omega

theorem res7_add (x y : Int) : (res7 x + res7 y) % 7 = res7 (x + y) := by
  have hx := res7_cast x
  have hy := res7_cast y
  have hxy := res7_cast (x + y)
  omega

theorem residueOk_iff (a : Acc) : residueOk a = true ↔ a.mark = true ∨ res7 (accInt a) = a.res := by
  simp [residueOk]

theorem accAddInt_res (a : Acc) (x y : Int) (s : Nat) :
    (accAddInt a x y s).res = (a.res + productRes x y s) % 7 := by
  unfold accAddInt
  dsimp only
  split_ifs <;> rfl

/-- A product without an upset keeps value and residue in step, or marks the entry. -/
theorem accAddInt_residueOk {a : Acc} (h : residueOk a = true) (x y : Int) {s : Nat} (hs : s ≤ 8) :
    residueOk (accAddInt a x y s) = true := by
  rw [residueOk_iff]
  cases hm : a.mark with
  | true => exact .inl (accAddInt_marked hm).2
  | false =>
    by_cases hi : 2147483647 < a.v.toInt + x * y / 2 ^ s
    · exact .inl (accAddInt_above hm rfl hi).2
    · by_cases lo : a.v.toInt + x * y / 2 ^ s < -2147483648
      · exact .inl (accAddInt_below hm rfl lo).2
      · have hv := (accAddInt_within hm rfl (not_lt.mp lo) (not_lt.mp hi)).1
        have hr : res7 (accInt a) = a.res := by simpa [residueOk_iff, hm] using h
        right
        rw [accAddInt_res, ← hr, productRes_eq x y hs, res7_add, shiftDown_eq_ediv]
        exact congrArg res7 hv

/-- Settles O51: by induction on the products, each of which keeps the check. -/
theorem residueChecks : Obligations.ResidueChecks := by
  intro comp s l hs
  have hkeep : ∀ a : Acc, residueOk a = true →
      residueOk ((l.map fun e => Term.mk (.int e.1) (.int e.2)).foldl (accAdd true comp s) a) = true := by
    induction l with
    | nil => exact fun a h => h
    | cons e l ih => exact fun a h => ih _ (accAddInt_residueOk h e.1 e.2 hs)
  exact hkeep {} rfl

end Sys2Proof.ResidueChecks
end

section
/-! SUPPORT. Rotating parity (08 R251 to R254): it stands after the landing of writes, and gives back any one lost byte. -/

namespace Sys2Proof.ParityKept

open Sys2Proof Sys2Proof.Machine Sys2Proof.Safety Sys2Proof.Laws

/-- Parity is a matter of the stored cells alone. -/
theorem parityHolds_of_same {s u : State} (h : ParityHolds s) (e : HbmCellsSame s u) : ParityHolds u := by
  show ParityAgrees u.hbm.data u.hbm.parity
  rw [e.d, e.p]
  exact h

/-- A parity write lands a row, or finds none of its writes pending. -/
theorem exec_parityWrite_cases (t row : Nat) (s : State) :
    exec (.parityWrite t row) s = .next (atMt s t) ∨
    ∃ ws : List Writer, exec (.parityWrite t row) s = .next (ws.foldl writerLanded (landRow (atMt s t) row)) := by
  show execParityWrite t row s = _ ∨ ∃ ws : List Writer, execParityWrite t row s = .next (ws.foldl writerLanded (landRow (atMt s t) row))
  unfold execParityWrite
  dsimp only
  split
  · exact .inl rfl
  · exact .inr ⟨_, rfl⟩

/-- The landing of a row's pending writes keeps the parity of every row; what its writers then cause reaches no cell. -/
theorem parityHolds_parityWrite {s u : State} {t row : Nat} (hw : MemoryWf s) (hn : nothingLost s = true)
    (hp : ParityHolds s) (hu : exec (.parityWrite t row) s = .next u) : ParityHolds u := by
  have hgood : ParityGood (atMt s t) := ⟨hw.1, hw.2.1, hn, hp⟩
  obtain h | ⟨ws, h⟩ := exec_parityWrite_cases t row s <;> rw [h] at hu <;> cases hu
  · exact hp
  · exact parityHolds_of_same (gd_row hgood row).ph (HbmCellsSame.fold ws (.refl _) st_writer)

/-- The exclusive or that leaves one place out is that of all places and of the one. -/
theorem foldl_xor_skip (f : Nat → Byte) {l : List Nat} (hl : l.Nodup) {d : Nat} (hd : d ∈ l) (p : Byte) :
    l.foldl (fun x i => if i = d then x else x ^^^ f i) p = p ^^^ (l.foldl (fun x i => x ^^^ f i) 0 ^^^ f d) := by
  have hstep : (fun (x : Byte) i => if i = d then x else x ^^^ f i) = fun x i => x ^^^ if i = d then 0 else f i := by
    funext x i
    split <;> simp
  rw [hstep, xfold_base, xfold_in _ f l hl d hd fun i _ hne => if_neg hne]
  simp

theorem reconstruct_eq {s : State} (h : ParityHolds s) {n d o : Nat} (hd : d < 19) (ho : o < 4096) :
    reconstruct s n d o = cellGet s.hbm.data (unitByte n d o) := by
  unfold reconstruct
  rw [foldl_xor_skip _ (by decide) (mem_numsFrom.mpr ⟨by omega, by omega⟩), h n o ho, ← BitVec.xor_assoc, BitVec.xor_self,
    BitVec.zero_xor]

theorem parityHolds_reset : ParityHolds State.reset := by
  intro n o _
  show (0 : Byte) = (numsFrom 0 19).foldl (fun x _ => x ^^^ 0) 0
  decide

/-- Settles O55: what a parity write keeps, what the parity of a row then gives back, and the empty cells of reset. -/
theorem parityKept : Obligations.ParityKept :=
  ⟨fun _ _ _ _ => parityHolds_parityWrite, fun _ _ _ _ h => reconstruct_eq h, parityHolds_reset⟩

end Sys2Proof.ParityKept
end

section
/-! SUPPORT. The host port below its sessions (10 R304 to R307): the frames it discards, the requests it answers, and its
next hops. -/

namespace Sys2Proof.HostLinkFrames

open Sys2Proof Sys2Proof.Machine Sys2Proof.Safety Sys2Proof.Laws

variable {s : State} {t : Nat}

/-! ## Discards (R305) -/

theorem frameVerdict_atMt (s : State) (t : Nat) (f : FrameInfo) : frameVerdict (atMt s t) f = frameVerdict s f := rfl

theorem frameVerdict_length {f : FrameInfo} (h : f.len < 64 ∨ 9216 < f.len) : frameVerdict s f = 1 := if_pos h

theorem frameVerdict_check {f : FrameInfo} (hlo : 64 ≤ f.len) (hhi : f.len ≤ 9216) (hfcs : f.fcsGood = false) :
    frameVerdict s f = 2 := by
  simp [frameVerdict, hlo, hhi, hfcs]

theorem frameVerdict_address {f : FrameInfo} (hlo : 64 ≤ f.len) (hhi : f.len ≤ 9216) (hfcs : f.fcsGood = true)
    (h : f.dst = 3 ∨ f.pause = true ∨ (cfgHostVlan s = 0 ∧ f.vlan.isSome = true) ∨
      (cfgHostVlan s ≠ 0 ∧ f.vlan ≠ some (cfgHostVlan s))) : frameVerdict s f = 3 := by
  unfold frameVerdict
  rw [if_neg (by omega), hfcs]
  by_cases hd : f.dst = 3 ∨ f.pause = true
  · simp [hd]
  · obtain ⟨hv, hs⟩ | ⟨hv, hs⟩ := (or_assoc.mpr h).resolve_left hd
    · simp [hd, hv, hs]
    · simp [hd, hv, hs]

theorem exec_hostFrameDiscard {f : FrameInfo} (hup : linkUp s .host = true) :
    exec (.hostFrameDiscard t f false) s =
      match frameVerdict s f with
      | 1 => .next (modCtr (atMt s t) .host fun c => { c with dropLen := cap32 (c.dropLen + 1) })
      | 2 => .next (modCtr (atMt s t) .host fun c => { c with dropFcs := cap32 (c.dropFcs + 1) })
      | 3 => .next (modCtr (atMt s t) .host fun c => { c with dropAddr := cap32 (c.dropAddr + 1) })
      | _ => .next (atMt s t) := by
  show execHostFrameDiscard t f false s = _
  simp [execHostFrameDiscard, hup, frameVerdict_atMt] <;> rfl

/-! ## Answers and next hops (R307) -/

theorem exec_arpRequest {sip smac : List Byte} (hup : linkUp s .host = true) (hon : ipv4On s = true)
    (hr : replyAllowed (atMt s t) = true) : exec (.arpRequest t (cfgIpv4 s) sip smac) s =
      .next (putSent (noteReply (countRx (atMt s t) .host)) .host
        (.arpReply (now (atMt s t)) (cfgIpv4 s) sip smac)) := by
  have hon' : ipv4On (countRx (atMt s t) .host) = true := hon
  have hr' : replyAllowed (countRx (atMt s t) .host) = true := hr
  have hip : (cfgIpv4 s == cfgIpv4 (countRx (atMt s t) .host)) = true := beq_self_eq_true (cfgIpv4 s)
  show execArpRequest t (cfgIpv4 s) sip smac s = _
  simp [execArpRequest, hup, hon', hr', hip]
  rfl

theorem exec_neighborSolicitation {target sip smac : List Byte} (hup : linkUp s .host = true) (hon : ipv6On s = true)
    (ht : target = cfgIpv6 s ∨ target = linkLocal s) (hr : replyAllowed (atMt s t) = true) :
    exec (.neighborSolicitation t target sip smac) s =
      .next (putSent (noteReply (countRx (atMt s t) .host)) .host
        (.neighborAdvert (now (atMt s t)) target (sip ++ smac))) := by
  have hon' : ipv6On (countRx (atMt s t) .host) = true := hon
  have hr' : replyAllowed (countRx (atMt s t) .host) = true := hr
  have ht' : target = cfgIpv6 (countRx (atMt s t) .host) ∨ target = linkLocal (countRx (atMt s t) .host) := ht
  show execNeighborSolicitation t target sip smac s = _
  simp [execNeighborSolicitation, hup, hon', hr', ht']
  rfl

theorem exec_echoRequest {dst src l : List Byte} (hup : linkUp s .host = true) (hown : ownIp s dst = true)
    (hr : replyAllowed (atMt s t) = true) : exec (.echoRequest t dst src l) s =
      .next (putSent (noteReply (countRx (atMt s t) .host)) .host (.echoReply (now (atMt s t)) dst src l)) := by
  have hown' : ownIp (countRx (atMt s t) .host) dst = true := hown
  have hr' : replyAllowed (countRx (atMt s t) .host) = true := hr
  show execEchoRequest t dst src l s = _
  simp [execEchoRequest, hup, hown', hr']
  rfl

theorem exec_arpReply {ip mac : List Byte} (hup : linkUp s .host = true) :
    exec (.arpReply t ip mac) s = .next (resolveHop (countRx (atMt s t) .host) ip mac) := by
  show execArpReply t ip mac s = _
  simp [execArpReply, hup]

theorem exec_nextHopRefresh {ip mac : List Byte} {m : Nat} (hup : linkUp s .host = true)
    (he : s.host.nextHops.find? (fun e => e.1 == ip) = some (ip, mac, m)) (hm : m + 150000000000 ≤ max (now s) t) :
    exec (.nextHopRefresh t ip) s = .next (putSent (atMt s t) .host (.arpRequest (now (atMt s t)) ip)) := by
  show execNextHopRefresh t ip s = _
  simp [execNextHopRefresh, he, hup, hm]

/-- Settles O7: each discard by its verdict, then each request that is answered and each next hop. -/
theorem hostLinkFrames : Obligations.HostLinkFrames := by
  refine ⟨fun s t f hup => ⟨fun h => ?_, fun hlo hhi hfcs => ?_, fun hlo hhi hfcs h => ?_⟩,
    fun s t sip smac hup hon hr => ⟨_, exec_arpRequest hup hon hr, rfl⟩,
    fun s t target sip smac hup hon ht hr => ⟨_, exec_neighborSolicitation hup hon ht hr, rfl⟩,
    fun s t dst src l hup hown hr => ⟨_, exec_echoRequest hup hown hr, rfl⟩,
    fun s t ip mac hup => ⟨_, exec_arpReply hup, rfl⟩,
    fun s t ip mac m hup he hm => ⟨_, exec_nextHopRefresh hup he hm, rfl⟩⟩
  · exact ⟨_, (exec_hostFrameDiscard hup).trans (by rw [frameVerdict_length h]; rfl), rfl⟩
  · exact ⟨_, (exec_hostFrameDiscard hup).trans (by rw [frameVerdict_check hlo hhi hfcs]; rfl), rfl⟩
  · exact ⟨_, (exec_hostFrameDiscard hup).trans (by rw [frameVerdict_address hlo hhi hfcs h]; rfl), rfl⟩

end Sys2Proof.HostLinkFrames
end

section
/-! SUPPORT. Cluster power states (12 R385 to R387): gating, sleep, waking, and the stop of a group's PLL. -/

namespace Sys2Proof.ClusterPowerStates

open Sys2Proof Sys2Proof.Machine Sys2Proof.Safety Sys2Proof.Laws

variable {s : State} {t p g : Nat}

/-! ## Gating and sleep -/

theorem exec_clusterGate (hp : p < 544) (hrole : (getClu s p).role = .serving) (hpow : (getClu s p).power = .active)
    (hbusy : cluBusy (getClu s p) = false)
    (hidle : 64 ≤ cyclesIn (getGroup s (groupOf p)) (max (now s) t - (getClu s p).idleSince)) :
    exec (.clusterGate t p) s = .next (modClu (tallyActive (atMt s t) p) p fun c =>
      { c with power := .gated, idleSince := now (atMt s t) }) := by
  show execClusterGate t p s = _
  simp [execClusterGate, hp, hrole, hpow, hbusy, hidle]

/-- The tally of an ACTIVE cluster. -/
theorem getClu_tallyActive_active (h : (getClu s p).power = .active) : getClu (tallyActive s p) p =
    { getClu s p with activeCyc := cap32 ((getClu s p).activeCyc +
        cyclesIn (getGroup s (groupOf p)) (now s - (getClu s p).activeSince)), activeSince := now s } := by
  simp [tallyActive, pendingActive, h]

theorem exec_clusterSleep (hp : p < 544) (hpow : (getClu s p).power = .gated) (hwake : (getClu s p).wakeDue = none)
    (hheld : physHeld s p = false) (hidle : (getClu s p).idleSince + cfgSleepAfter s ≤ max (now s) t) :
    exec (.clusterSleep t p) s = .next (modClu (modGroup (atMt s t) (groupOf p) fun g =>
        { g with idleSince := now (atMt s t) }) p fun c => { c with power := .asleep, idleSince := now (atMt s t) }) := by
  show execClusterSleep t p s = _
  simp [execClusterSleep, hp, hpow, hwake, hheld]
  omega

/-! ## Waking -/

theorem getClu_makeActive (s : State) (p : Nat) : ∃ n, getClu (makeActive s p) p =
    { getClu s p with power := .active, wakeDue := none, idleSince := now s, activeSince := now s, activeCyc := n } := by
  unfold makeActive
  rw [getClu_modClu_same]
  obtain ⟨a, b, h⟩ := getClu_tallyActive_same (startPll s (groupOf p)) p
  rw [h, getClu_startPll]
  exact ⟨_, rfl⟩

theorem getGroup_makeActive (s : State) (p : Nat) : (getGroup (makeActive s p) (groupOf p)).pllOn = true := by
  unfold makeActive startPll
  rw [getGroup_modClu, getGroup_tallyActive, getGroup_modGroup_same]

theorem now_makeActive (s : State) (p : Nat) : now (makeActive s p) = now s := by
  unfold makeActive
  rw [now_modClu, now_tallyActive]
  rfl

/-- The state before a due wake: a cluster waking from ASLEEP has woken now. -/
def noteWake (s : State) (p : Nat) : State :=
  if (getClu s p).power = .asleep ∧ (getClu s p).wokeAt = none then
    modClu s p fun c => { c with wokeAt := some (now s) }
  else s

theorem noteWake_other {q : Nat} (h : q ≠ p) : getClu (noteWake s p) q = getClu s q := by
  unfold noteWake
  split
  · exact getClu_modClu_other s _ h
  · rfl

theorem exec_clusterWake {d : Nat} (hp : p < 544) (hpow : (getClu s p).power ≠ .active) (hh : (getClu s p).halter = false)
    (hd : (getClu s p).wakeDue = some d) (hdue : d ≤ max (now s) t) : ∃ x,
    exec (.clusterWake t p .wake) s = .next { makeActive (noteWake (atMt s t) p) p with pdk := x } := by
  have hready : wakeReady (atMt s t) (getClu s p) .wake = true := by
    simp [wakeReady, hh, hd, hdue]
  show ∃ x, execClusterWake t p .wake s = _
  unfold execClusterWake
  dsimp only
  rw [if_pos ⟨hp, hpow, hready⟩]
  split
  · obtain ⟨x, hx⟩ := trace_same (makeActive (noteWake (atMt s t) p) p) 6 (some _) 0 0 0 0 []
    exact ⟨x, congrArg Host.Outcome.next hx⟩
  · exact ⟨_, rfl⟩

/-! ## The PLL -/

theorem exec_groupPllStop (hg : g < 32) (hon : (getGroup s g).pllOn = true)
    (hidle : ∀ p, 17 * g ≤ p → p < 17 * g + 17 →
      ((getClu s p).power = .asleep ∨ (getClu s p).power = .off) ∧ (getClu s p).wakeDue = none)
    (hlong : (getGroup s g).idleSince + cfgSleepAfter s ≤ max (now s) t) :
    exec (.groupPllStop t g) s = .next (modGroup (atMt s t) g fun x => { x with pllOn := false }) := by
  have hall : ∀ p ∈ numsFrom (17 * g) 17,
      ((getClu s p).power = .asleep ∨ (getClu s p).power = .off) ∧ (getClu s p).wakeDue = none :=
    fun p hp => hidle p (mem_numsFrom.mp hp).1 (mem_numsFrom.mp hp).2
  show execGroupPllStop t g s = _
  have hquiet : ((numsFrom (17 * g) 17).all fun p =>
      ((getClu (atMt s t) p).power == .asleep || (getClu (atMt s t) p).power == .off) &&
        (getClu (atMt s t) p).wakeDue.isNone) = true := by
    simpa [List.all_eq_true] using hall
  unfold execGroupPllStop
  dsimp only
  exact if_pos ⟨hg, hon, hquiet, hlong⟩

/-- Settles O9: each change of a power state by its command's meaning, and the frame of the one cluster or group it sets. -/
theorem clusterPowerStates : Obligations.ClusterPowerStates := by
  refine ⟨?gate, ?sleep, ?wake, ?pll⟩
  case gate =>
    rintro s t p c rfl hp hrole hpow hbusy hidle
    refine ⟨_, exec_clusterGate hp hrole hpow hbusy hidle, ?_, fun q hq => ?_⟩
    · rw [now_modClu, now_tallyActive, getClu_modClu_same, getClu_tallyActive_active (s := atMt s t) hpow]
      rfl
    · rw [getClu_modClu_other _ _ hq, getClu_tallyActive_other _ hq, getClu_atMt]
  case sleep =>
    rintro s t p c rfl hp hpow hwake hheld hidle
    refine ⟨_, exec_clusterSleep hp hpow hwake hheld hidle, ?_, fun q hq => ?_, ?_⟩
    · rw [getClu_modClu_same, getClu_modGroup, getClu_atMt]
      rfl
    · rw [getClu_modClu_other _ _ hq, getClu_modGroup, getClu_atMt]
    · rw [getGroup_modClu, getGroup_modGroup_same, getGroup_atMt]
      rfl
  case wake =>
    rintro s t p c d rfl hp hpow hh hd hdue
    obtain ⟨x, hx⟩ := exec_clusterWake hp hpow hh hd hdue
    obtain ⟨n, hn⟩ := getClu_makeActive (noteWake (atMt s t) p) p
    have hclu : ∀ q, getClu { makeActive (noteWake (atMt s t) p) p with pdk := x } q =
      getClu (makeActive (noteWake (atMt s t) p) p) q := fun _ => rfl
    have hnow : now { makeActive (noteWake (atMt s t) p) p with pdk := x } = now (noteWake (atMt s t) p) :=
      now_makeActive _ p
    refine ⟨_, hx, ?_, ?_, ?_, ?_, getGroup_makeActive _ p, fun q hq => ?_⟩
    · rw [hclu, hn]
    · rw [hclu, hn]
    · rw [hclu, hn, hnow]
    · rw [hclu, hn, hnow]
    · rw [hclu, (makeActive_clu _ p).2.1 q hq, noteWake_other hq, getClu_atMt]
  case pll =>
    intro s t g hg hon hidle hlong
    exact ⟨_, exec_groupPllStop hg hon hidle hlong, getGroup_modGroup_same _ g _, fun h hh => getGroup_modGroup_other _ _ hh⟩

end Sys2Proof.ClusterPowerStates
end

section
/-! SUPPORT. Frequency steps (12 R391 to R395): the evaluation while hot, the switch of a group to the target step, and the
write of the cap. -/

namespace Sys2Proof.PowerSteps

open Sys2Proof Sys2Proof.Machine Sys2Proof.Safety Sys2Proof.Laws

variable {s : State} {t g p : Nat}

/-- While hot, with no cool junction seen, the target is a step down and the throttle stays. -/
theorem exec_powerEvaluation_of_hot (hready : isReady s = true) (hhot : s.pwr.hot = true) (hcool : s.pwr.coolSince = none) :
    exec (.powerEvaluation t p) s = .next { atMt s t with
      pwr := { s.pwr with
        inputW := min 4095 p
        target := min 7 (s.pwr.step + 1)
        capOver := if s.pwr.cap < p then cap32 (s.pwr.capOver + 1) else s.pwr.capOver } } := by
  show execPowerEvaluation t p s = _
  simp [execPowerEvaluation, hready, coolLongEnough, hcool, targetStep, hhot]

/-! ## The switch of a group (R392) -/

/-- A group at the target step, its cluster's cycles tallied and traced. -/
def switchGroup (s : State) (g : Nat) : State :=
  traceStep (modGroup (tallyGroup s g) g fun x => { x with step := s.pwr.target }) g

theorem switchGroup_pwr (s : State) (g : Nat) : (switchGroup s g).pwr =
    { s.pwr with groups := tblMod {} s.pwr.groups g fun x => { x with step := s.pwr.target } } := by
  unfold switchGroup
  rw [(traceStep_facts _ g).1]
  unfold modGroup
  rw [(tallyGroup_facts s g).2.1]

theorem switchGroup_pdk (h : bit s.clu.trace 7 = false) : (switchGroup s g).pdk = s.pdk := by
  obtain ⟨-, -, hpdk, htrace⟩ := tallyGroup_facts s g
  unfold switchGroup
  generalize tallyGroup s g = v at hpdk htrace ⊢
  rw [(traceStep_facts (modGroup v g _) g).2.2 (by rw [modGroup_clu, htrace, h])]
  exact hpdk

theorem getGroup_switchGroup_same (s : State) (g : Nat) :
    getGroup (switchGroup s g) g = { getGroup s g with step := s.pwr.target } := by
  unfold getGroup
  rw [switchGroup_pwr]
  exact tblGet_tblMod {} s.pwr.groups g fun x => { x with step := s.pwr.target }

theorem getGroup_switchGroup_other {h : Nat} (hne : h ≠ g) : getGroup (switchGroup s g) h = getGroup s h := by
  unfold getGroup
  rw [switchGroup_pwr]
  exact tblGet_tblSet_other _ _ _ hne

/-- Whether every group stands at the target. -/
def allSwitched (s : State) : Bool := (List.range 32).all fun h => (getGroup s h).step == s.pwr.target

theorem allSwitched_iff (s : State) (g : Nat) : allSwitched (switchGroup s g) = true ↔
    ∀ h, h < 32 → h ≠ g → (getGroup s h).step = s.pwr.target := by
  have ht : (switchGroup s g).pwr.target = s.pwr.target := by rw [switchGroup_pwr]
  simp only [allSwitched, List.all_eq_true, List.mem_range, beq_iff_eq, ht]
  refine forall_congr' fun h => forall_congr' fun _ => ?_
  by_cases hne : h = g
  · subst hne
    simp [getGroup_switchGroup_same]
  · simp [getGroup_switchGroup_other hne, hne]

/-- The last group at the target brings its step into force (R392). -/
def takeStep (v : State) : State :=
  post { v with pwr := { v.pwr with step := v.pwr.target } } { code := 0x0020, params := [v.pwr.step, v.pwr.target] }

theorem takeStep_pwr (v : State) : (takeStep v).pwr = { v.pwr with step := v.pwr.target } := by
  unfold takeStep
  rw [post_pwr]

theorem getGroup_takeStep (v : State) (h : Nat) : getGroup (takeStep v) h = getGroup v h := by
  unfold getGroup
  rw [takeStep_pwr]

theorem exec_groupStepSwitch (hready : isReady s = true) (hg : g < 32) (hne : (getGroup s g).step ≠ s.pwr.target)
    (hheld : groupHeld s g = false) : exec (.groupStepSwitch t g) s =
      if (switchGroup (atMt s t) g).pwr.target ≠ (switchGroup (atMt s t) g).pwr.step ∧
          allSwitched (switchGroup (atMt s t) g) = true then .next (takeStep (switchGroup (atMt s t) g))
      else .next (switchGroup (atMt s t) g) := by
  show execGroupStepSwitch t g s = _
  unfold execGroupStepSwitch switchGroup
  dsimp only
  rw [if_pos ⟨hready, hg, hne, hheld⟩]
  generalize traceStep _ g = v
  rfl

/-! ## The cap (R395) -/

theorem exec_pwrCapWrite {v : Nat} (hready : isReady s = true) :
    exec (.pwrCapWrite t v) s = .next (writeCap (atMt s t) v) := if_pos hready

theorem writeCap_pwr (s : State) (v : Nat) : (writeCap s v).pwr =
    if 1200 ≤ bits v 11 0 ∧ bits v 11 0 ≤ 3000 then { s.pwr with cap := bits v 11 0 } else s.pwr := by
  unfold writeCap
  dsimp only
  split <;> rfl

/-- Settles O11: the evaluation while hot, the switch before and after the last group, and the cap within and outside its
range. -/
theorem powerSteps : Obligations.PowerSteps := by
  refine ⟨fun s t p hready hhot hcool => ⟨_, exec_powerEvaluation_of_hot hready hhot hcool, rfl, hhot⟩, ?switch,
    fun s t v hready => ⟨_, exec_pwrCapWrite hready, writeCap_pwr (atMt s t) v⟩⟩
  case switch =>
    intro s t g hready hg hne hheld
    have hexec := exec_groupStepSwitch (t := t) hready hg hne hheld
    have hall := allSwitched_iff (atMt s t) g
    have hsame := getGroup_switchGroup_same (atMt s t) g
    have hother := fun h (hh : h ≠ g) => getGroup_switchGroup_other (s := atMt s t) hh
    have hpdk := fun h => switchGroup_pdk (s := atMt s t) (g := g) h
    have hpwr := switchGroup_pwr (atMt s t) g
    generalize switchGroup (atMt s t) g = v at hexec hall hsame hother hpdk hpwr
    have htarget : v.pwr.target = s.pwr.target := by rw [hpwr]; rfl
    have hstep : v.pwr.step = s.pwr.step := by rw [hpwr]; rfl
    rw [htarget, hstep] at hexec
    by_cases hlast : s.pwr.target ≠ s.pwr.step ∧ allSwitched v = true
    · rw [if_pos hlast] at hexec
      refine ⟨_, hexec, ?_, fun h hh => ?_, ?_, fun _ _ => ⟨?_, fun htr hroom => ?_⟩, fun h hh hhg hs => ?_⟩
      · rw [getGroup_takeStep]
        exact hsame
      · rw [getGroup_takeStep]
        exact hother h hh
      · rw [takeStep_pwr]
        exact htarget
      · rw [takeStep_pwr]
        exact htarget
      · unfold takeStep
        rw [hstep, htarget]
        exact posted_one (hpdk htr) hroom
      · exact absurd (hall.mp hlast.2 h hh hhg) hs
    · rw [if_neg hlast] at hexec
      refine ⟨_, hexec, hsame, hother, htarget, fun hne' hs => absurd ⟨hne', hall.mpr hs⟩ hlast, fun _ _ _ _ => hstep⟩

end Sys2Proof.PowerSteps
end

section
/-! SUPPORT. Thermal limits and droops (12 R393, R394): the throttle, the stretch of a die's groups and its end, the power-down,
and the droop of one group. -/

namespace Sys2Proof.ThermalAndDroop

open Sys2Proof Sys2Proof.Machine Sys2Proof.Safety Sys2Proof.Laws

variable {s : State} {t die c g : Nat}

theorem getGroup_post (s : State) (e : Event) (g : Nat) : getGroup (post s e) g = getGroup s g := by
  unfold getGroup
  rw [post_pwr]

theorem mem_dieGroups (hdie : die < 4) : g ∈ dieGroups die ↔ 8 * die ≤ g ∧ g < 8 * die + 8 := by
  rw [dieGroups, if_pos hdie, mem_numsFrom]

/-! ## The limits (R393) -/

/-- A hot junction: its temperature is noted and the power manager throttles. -/
def throttle (s : State) (die c : Nat) : State :=
  { noteTemp s die c with pwr := { (noteTemp s die c).pwr with hot := true, coolSince := none } }

theorem exec_thermalLimit_throttle (hready : isReady s = true) (hdie : die ≤ 8) (hlo : 100 ≤ c) (hhi : c < 104) :
    exec (.thermalLimit t die c) s = .next (throttle (atMt s t) die c) := by
  have h105 : ¬ 105 ≤ c := by omega
  have h104 : ¬ 104 ≤ c := by omega
  have h8 : ¬ 8 < die := by omega
  show execThermalLimit t die c s = _
  simp [execThermalLimit, hready, h8, h105, hlo, h104, throttle]

theorem exec_thermalLimit_stretch (hready : isReady s = true) (hdie : die ≤ 8) :
    exec (.thermalLimit t die 104) s = .next (startStretch (throttle (atMt s t) die 104) die 104) := by
  have h8 : ¬ 8 < die := by omega
  show execThermalLimit t die 104 s = _
  simp [execThermalLimit, hready, h8, throttle]

theorem exec_thermalLimit_powerDown (hready : isReady s = true) (hdie : die ≤ 8) (hc : 105 ≤ c) :
    exec (.thermalLimit t die c) s = .next (powerDown (noteTemp (atMt s t) die c)) := by
  have h8 : ¬ 8 < die := by omega
  show execThermalLimit t die c s = _
  simp [execThermalLimit, hready, h8, hc]

/-! ## Groups of a die -/

/-- What every group of a die goes through, as one state: time, the Paddock, the throttle, and the groups inside and outside
the die. -/
structure DieChanged (die : Nat) (f : Group → Nat → Group) (s u : State) : Prop where
  now_eq : now u = now s
  pdk : u.pdk = s.pdk
  hot : u.pwr.hot = s.pwr.hot
  inside : ∀ g ∈ dieGroups die, getGroup u g = f (getGroup s g) g
  outside : ∀ g, g ∉ dieGroups die → getGroup u g = getGroup s g

/-- A change of each group of a die behind the tally of its clusters' cycles. -/
theorem dieChanged_foldl (f : Group → Nat → Group) (F : State → Nat → State) (s : State)
    (hF : ∀ v g, now v = now s → ∃ k, F v g = modGroup (tallyGroup v g) g k ∧ k (getGroup v g) = f (getGroup v g) g)
    (die : Nat) :
    DieChanged die f s ((dieGroups die).foldl F s) := by
  obtain ⟨h1, h2, h3, h4, h5⟩ := foldl_groups (f := f) s F (fun v g hv => by
    obtain ⟨hn, hp, hk, -⟩ := tallyGroup_facts v g
    have hg := fun h => getGroup_tallyGroup v g h
    obtain ⟨k, hF, hf⟩ := hF v g hv
    rw [hF]
    generalize tallyGroup v g = w at hn hp hk hg
    refine ⟨hn, hk, ?_, ?_, fun h hh => ?_⟩
    · rw [modGroup_hot, hp]
    · rw [getGroup_modGroup_same, hg, hf]
    · rw [getGroup_modGroup_other _ _ hh, hg]) (dieGroups die) (dieGroups_nodup die) s rfl
  exact ⟨h1, h2, h3, h4, h5⟩

/-- A group under a stretch from a time on. -/
def stretched (m : Nat) (x : Group) (_ : Nat) : Group := { x with thermal := true, thermalSince := m }

/-- A group whose stretch ends at a time, with its cycles counted. -/
def unstretched (m : Nat) (x : Group) (_ : Nat) : Group :=
  { x with thermal := false
           stretchCyc := cap32 (x.stretchCyc + if x.thermal && x.pllOn then cyclesIn x (m - x.thermalSince) else 0) }

/-- The stretch begins when some group of the die has none. -/
theorem startStretch_eq (h : ∃ g ∈ dieGroups die, (getGroup s g).thermal = false) :
    ∃ v, startStretch s die c = post v { code := 0x0022, params := [die, c] } ∧ DieChanged die (stretched (now s)) s v := by
  obtain ⟨g, hg, hth⟩ := h
  have hall : ¬ ((dieGroups die).all fun g => (getGroup s g).thermal) = true := by
    intro h
    have hg' := List.all_eq_true.mp h g hg
    simp [hth] at hg'
  unfold startStretch
  rw [if_neg hall]
  exact ⟨_, rfl, dieChanged_foldl _ _ s (fun v g hv => ⟨_, rfl, by rw [hv]; rfl⟩) die⟩

/-- The stretch ends when some group of the die has one. -/
theorem endStretch_eq (h : ∃ g ∈ dieGroups die, (getGroup s g).thermal = true) :
    ∃ v, endStretch s die c = post v { code := 0x0022, fin := true, params := [die, c] } ∧
      DieChanged die (unstretched (now s)) s v := by
  unfold endStretch
  rw [if_pos (List.any_eq_true.mpr h)]
  exact ⟨_, rfl, dieChanged_foldl _ _ s (fun v g hv => ⟨_, rfl, by rw [← hv]; rfl⟩) die⟩

/-- A recovery below 102 degrees ends the stretch and then touches the throttle only. -/
theorem exec_thermalRecover (hready : isReady s = true) (hdie : die ≤ 8) (hc : c < 102) : ∃ hot since,
    exec (.thermalRecover t die c) s = .next { endStretch (noteTemp (atMt s t) die c) die c with
      pwr := { (endStretch (noteTemp (atMt s t) die c) die c).pwr with hot := hot, coolSince := since } } := by
  have h8 : ¬ 8 < die := by omega
  have hr : isReady (atMt s t) = true := hready
  show ∃ hot since, execThermalRecover t die c s = _
  unfold execThermalRecover
  dsimp only
  rw [if_neg (by simp [hr, h8]), if_pos hc]
  generalize endStretch (noteTemp (atMt s t) die c) die c = v
  generalize (if (v.pwr.hot && v.pwr.temp.all fun e => decide (e.2 < 98)) = true then
    some (v.pwr.coolSince.getD (now v)) else none) = since
  split
  · exact ⟨_, _, rfl⟩
  · exact ⟨_, _, rfl⟩

/-! ## Droops (R394) -/

theorem exec_droopDetect {k n m : Nat} (hready : isReady s = true) (hg : g < 32) :
    exec (.droopDetect t g k n m) s = .next (
      if m < 100 * n then
        post (modGroup (atMt s t) g fun x => { x with droop := true, stretchCyc := cap32 (x.stretchCyc + k) })
          { code := 0x0021, params := [g, n] }
      else modGroup (atMt s t) g fun x => { x with droop := true, stretchCyc := cap32 (x.stretchCyc + k) }) :=
  if_pos ⟨hready, hg⟩

theorem exec_droopEnd (hg : g < 32) :
    exec (.droopEnd t g) s = .next (modGroup (atMt s t) g fun x => { x with droop := false }) := if_pos hg

/-- Settles O12: each limit by the state it leaves, with the groups of one die changed together and a droop's group alone. -/
theorem thermalAndDroop : Obligations.ThermalAndDroop := by
  refine ⟨?throttle, ?stretch, ?down, ?recover, ?droop, ?droopEnd⟩
  case throttle =>
    intro s t die c hready hdie hlo hhi
    exact ⟨_, exec_thermalLimit_throttle hready hdie hlo hhi, rfl, rfl, rfl, tblGet_tblSet_same _ _ _ _,
      tblGet_tblMod 0 s.pwr.peak die fun x => max x c, rfl⟩
  case stretch =>
    rintro s t die hready hdie ⟨g, hlo, hhi, hth⟩
    obtain ⟨v, hv, hch⟩ := startStretch_eq (s := throttle (atMt s t) die 104) (c := 104)
      ⟨g, (mem_dieGroups hdie).mpr ⟨hlo, hhi⟩, hth⟩
    refine ⟨_, (exec_thermalLimit_stretch hready (by omega)).trans (congrArg _ hv), ?_, fun g hlo hhi => ?_, fun g hg => ?_,
      fun hroom => ?_⟩
    · rw [post_pwr, hch.hot]
      rfl
    · rw [getGroup_post, hch.inside g ((mem_dieGroups hdie).mpr ⟨hlo, hhi⟩), now_post, hch.now_eq]
      exact ⟨rfl, rfl⟩
    · rw [getGroup_post, hch.outside g (by rw [mem_dieGroups hdie]; omega)]
      rfl
    · exact posted_one hch.pdk hroom
  case down =>
    intro s t die c hready hdie hc
    exact ⟨_, exec_thermalLimit_powerDown hready hdie hc, rfl, rfl, rfl, rfl, rfl⟩
  case recover =>
    rintro s t die c hready hdie hc ⟨g, hlo, hhi, hth⟩
    obtain ⟨v, hv, hch⟩ := endStretch_eq (s := noteTemp (atMt s t) die c) (c := c)
      ⟨g, (mem_dieGroups hdie).mpr ⟨hlo, hhi⟩, hth⟩
    obtain ⟨hot, since, hexec⟩ := exec_thermalRecover (t := t) hready (by omega : die ≤ 8) hc
    rw [hv] at hexec
    refine ⟨_, hexec, fun g hlo hhi => ?_, fun g hg => ?_, fun hroom => ?_⟩
    · have h := hch.inside g ((mem_dieGroups hdie).mpr ⟨hlo, hhi⟩)
      rw [← getGroup_post v { code := 0x0022, fin := true, params := [die, c] }] at h
      exact congrArg Group.thermal h
    · have h := hch.outside g (by rw [mem_dieGroups hdie]; omega)
      rw [← getGroup_post v { code := 0x0022, fin := true, params := [die, c] }] at h
      exact h
    · exact posted_congr rfl rfl (posted_one hch.pdk hroom)
  case droop =>
    intro s t g k n m hready hg
    refine ⟨_, exec_droopDetect hready hg, ?_⟩
    split
    case isTrue h =>
      refine ⟨?_, fun h hh => ?_, fun _ hroom => posted_one rfl hroom, fun hle => by omega⟩
      · rw [getGroup_post]
        exact getGroup_modGroup_same _ _ _
      · rw [getGroup_post]
        exact getGroup_modGroup_other _ _ hh
    case isFalse h =>
      exact ⟨getGroup_modGroup_same _ _ _, fun h hh => getGroup_modGroup_other _ _ hh, fun hlt => absurd hlt h, fun _ => rfl⟩
  case droopEnd =>
    intro s t g hg
    exact ⟨_, exec_droopEnd hg, getGroup_modGroup_same _ _ _, fun h hh => getGroup_modGroup_other _ _ hh⟩

end Sys2Proof.ThermalAndDroop
end

section
/-! SUPPORT. The Reins (09 R269 to R283): counter operations as their homes apply them or refuse them, arrivals at a barrier and
their withdrawal, the owner's reset of a counter, and the planes. -/

namespace Sys2Proof.Reins

open Sys2Proof Sys2Proof.Machine Sys2Proof.Safety Sys2Proof.Laws

variable {s : State} {t req ctr sent a x v b p wu n : Nat} {e : Option Nat}

/-! ## Counter operations (R276, R277) -/

theorem fetchAdd_of_accepted (h : refusedEpoch s n e = false) : fetchAdd s n a e =
    (setCtrValue s n ((getCtr s n).value + BitVec.ofNat 32 a), some (getCtr s n).value.toNat) := by
  simp [fetchAdd, h]

theorem fetchAdd_of_refused (h : refusedEpoch s n e = true) : fetchAdd s n a e = (s, none) := by
  simp [fetchAdd, h]

theorem compareSwap_of_accepted (h : refusedEpoch s n e = false) : compareSwap s n x v e =
    (if (getCtr s n).value.toNat = x % 2 ^ 32 then setCtrValue s n (BitVec.ofNat 32 v) else s,
      some (getCtr s n).value.toNat) := by
  simp [compareSwap, h]

theorem compareSwap_of_refused (h : refusedEpoch s n e = true) : compareSwap s n x v e = (s, none) := by
  simp [compareSwap, h]

/-- The state in which a home applies an operation: only the order it keeps has been noted. -/
def applied (s : State) (t home req sent : Nat) : State := noteApplied (atMt s t) home req sent

theorem getCtr_applied (s : State) (t home req sent n : Nat) : getCtr (applied s t home req sent) n = getCtr s n := rfl

theorem refusedEpoch_of_ne (hx : x < 256) (hne : x ≠ (getCtr s ctr).epoch) : refusedEpoch s ctr (some x) = true := by
  simp [refusedEpoch, Nat.mod_eq_of_lt hx, hne]

theorem getLast?_respond (s : State) (req n : Nat) (v e : Option Nat) (m : Nat) :
    (respond s req n v e m).reins.responses.getLast? =
      some { req := req, ctr := n, value := v, epoch := e, arrives := m } := by
  simp [respond]

section Applied

variable (hctr : ctr < 65536) (happ : mayApply (atMt s t) (ctrHome ctr) req sent = true)
include hctr happ

theorem exec_fetchAdd : exec (.fetchAdd t req ctr a sent e) s =
    .next (respond (fetchAdd (applied s t (ctrHome ctr) req sent) ctr a e).1 req ctr
      (fetchAdd (applied s t (ctrHome ctr) req sent) ctr a e).2 none (responseMt (atMt s t) ctr req sent)) :=
  if_pos ⟨hctr, happ⟩

theorem exec_compareSwap : exec (.compareSwap t req ctr x v sent e) s =
    .next (respond (compareSwap (applied s t (ctrHome ctr) req sent) ctr x v e).1 req ctr
      (compareSwap (applied s t (ctrHome ctr) req sent) ctr x v e).2 none (responseMt (atMt s t) ctr req sent)) :=
  if_pos ⟨hctr, happ⟩

theorem exec_compareWait {eq : Bool} (hroom : waitsHeld s (ctrHome ctr) req < waitLimit req) :
    exec (.compareWait t req ctr x sent eq e) s =
      if refusedEpoch s ctr e = true then
        .next (respond (applied s t (ctrHome ctr) req sent) req ctr none none (responseMt (atMt s t) ctr req sent))
      else if waitHolds { ctr := ctr, req := req, target := x % 2 ^ 32, equal := eq, epoch := e, ref := none }
          (getCtr s ctr).value = true then
        .next (respond (applied s t (ctrHome ctr) req sent) req ctr (some (getCtr s ctr).value.toNat) none
          (responseMt (atMt s t) ctr req sent))
      else .next (modReins (applied s t (ctrHome ctr) req sent) fun r => { r with waits := r.waits ++
        [{ ctr := ctr, req := req, target := x % 2 ^ 32, equal := eq, epoch := e, ref := none }] }) :=
  if_pos ⟨hctr, happ, hroom⟩

theorem exec_counterRead : exec (.counterRead t req ctr sent e) s =
    if refusedEpoch s ctr e = true then
      .next (respond (applied s t (ctrHome ctr) req sent) req ctr none none (responseMt (atMt s t) ctr req sent))
    else .next (respond (applied s t (ctrHome ctr) req sent) req ctr (some (getCtr s ctr).value.toNat)
      (some (getCtr s ctr).epoch) (responseMt (atMt s t) ctr req sent)) :=
  if_pos ⟨hctr, happ⟩

/-- Under another epoch every operation comes to the same refusal (R277). -/
theorem exec_refused {y : Nat} {eq : Bool} (hroom : waitsHeld s (ctrHome ctr) req < waitLimit req)
    (href : refusedEpoch s ctr e = true) :
    ∀ c ∈ [Instr.fetchAdd t req ctr a sent e, .compareSwap t req ctr y v sent e, .compareWait t req ctr y sent eq e,
      .counterRead t req ctr sent e], exec c s = .next (respond (applied s t (ctrHome ctr) req sent) req ctr none none
        (responseMt (atMt s t) ctr req sent)) := by
  have href' : refusedEpoch (applied s t (ctrHome ctr) req sent) ctr e = true := href
  simp only [List.forall_mem_cons, List.not_mem_nil, false_implies, implies_true, and_true]
  refine ⟨?_, ?_, ?_, ?_⟩
  · rw [exec_fetchAdd hctr happ, fetchAdd_of_refused href']
  · rw [exec_compareSwap hctr happ, compareSwap_of_refused href']
  · rw [exec_compareWait hctr happ hroom, if_pos href]
  · rw [exec_counterRead hctr happ, if_pos href]

end Applied

/-- A wait holds exactly when the comparison it asks for does. -/
theorem waitHolds_iff (w : Wait) (v : Word) : waitHolds w v = true ↔
    if w.equal = true then v.toNat = w.target else w.target ≤ v.toNat := by
  unfold waitHolds
  split <;> simp

/-- Settles O13: each operation on the state in which its home applies it, accepted and refused. -/
theorem reinsCounters : Obligations.ReinsCounters := by
  refine ⟨?fetchAdd, ?compareSwap, ?compareWait, ?read, ?refused⟩
  case fetchAdd =>
    intro s t req ctr a sent e hctr happ hep
    have hexec := exec_fetchAdd (a := a) (e := e) hctr happ
    have hep' : refusedEpoch (applied s t (ctrHome ctr) req sent) ctr e = false := hep
    rw [fetchAdd_of_accepted hep', getCtr_applied] at hexec
    obtain ⟨-, hbar, hwaits⟩ := setCtrValue_reins (applied s t (ctrHome ctr) req sent) ctr
      ((getCtr s ctr).value + BitVec.ofNat 32 a)
    have hval := getCtr_setCtrValue (applied s t (ctrHome ctr) req sent) ctr ((getCtr s ctr).value + BitVec.ofNat 32 a)
    refine ⟨_, hexec, hval, fun n hn => getCtr_setCtrValue_other _ _ hn, hbar, ?_, getLast?_respond _ _ _ _ _ _⟩
    show (setCtrValue _ _ _).reins.waits = List.filter (fun w => !(w.ctr == ctr && waitHolds w
      (getCtr (setCtrValue (applied s t (ctrHome ctr) req sent) ctr _) ctr).value)) s.reins.waits
    rw [hwaits, hval]
    rfl
  case compareSwap =>
    intro s t req ctr x v sent e hctr happ hep
    have hexec := exec_compareSwap (x := x) (v := v) (e := e) hctr happ
    have hep' : refusedEpoch (applied s t (ctrHome ctr) req sent) ctr e = false := hep
    rw [compareSwap_of_accepted hep', getCtr_applied] at hexec
    refine ⟨_, hexec, ?_, fun n hn => ?_, ?_, getLast?_respond _ _ _ _ _ _⟩
    · split
      · exact getCtr_setCtrValue _ _ _
      · rfl
    · show getCtr (if _ then _ else _) n = _
      split
      · exact getCtr_setCtrValue_other _ _ hn
      · rfl
    · show (if _ then _ else _ : State).reins.barriers = _
      split
      · exact (setCtrValue_reins _ _ _).2.1
      · rfl
  case compareWait =>
    intro s t req ctr x sent eq e hctr happ hroom hep
    have hexec := exec_compareWait (x := x) (e := e) (eq := eq) hctr happ hroom
    rw [if_neg (by simp [hep])] at hexec
    by_cases hw : waitHolds { ctr := ctr, req := req, target := x % 2 ^ 32, equal := eq, epoch := e, ref := none }
        (getCtr s ctr).value = true
    · rw [if_pos hw] at hexec
      rw [waitHolds_iff] at hw
      exact ⟨_, hexec, rfl, by rw [if_pos hw]; exact ⟨rfl, rfl⟩⟩
    · rw [if_neg hw] at hexec
      rw [waitHolds_iff] at hw
      exact ⟨_, hexec, rfl, by rw [if_neg hw]; exact ⟨rfl, rfl⟩⟩
  case read =>
    intro s t req ctr sent e hctr happ hep
    have hexec := exec_counterRead (e := e) hctr happ
    rw [if_neg (by simp [hep])] at hexec
    exact ⟨_, hexec, rfl, rfl, rfl⟩
  case refused =>
    intro s t req ctr sent x a y v eq hctr happ hx hne hroom c hc
    exact ⟨_, exec_refused hctr happ hroom (refusedEpoch_of_ne hx hne) c hc, rfl, rfl, rfl, rfl⟩

/-! ## Barriers (R281 to R283) -/

theorem exec_barrierArrival (hb : b < 4096) (hlo : 1 ≤ p) (hhi : p ≤ 65536) (happ : mayApply (atMt s t) 4 req sent = true) :
    exec (.barrierArrival t req b p sent) s =
      .next (arriveBarrier (applied s t 4 req sent) b p { req := req, ref := none }).1 := if_pos ⟨hb, hlo, hhi, happ⟩

theorem getBar_reins {u w : State} (h : u.reins = w.reins) (b : Nat) : getBar u b = getBar w b := by
  unfold getBar
  rw [h]

/-- An arrival at an idle barrier, or at one with its party count. -/
theorem arriveBarrier_accepted (r : Arrival) (h : (getBar s b).arrivals = [] ∨ (getBar s b).parties = p) :
    (arriveBarrier s b p r).1.reins = (setBar s b (if (getBar s b).arrivals.length + 1 < p then
      { getBar s b with parties := p, arrivals := (getBar s b).arrivals ++ [r] }
      else { gen := ((getBar s b).gen + 1) % 256 })).reins := by
  have hacc : ¬ ((getBar s b).arrivals.isEmpty = false ∧ (getBar s b).parties ≠ p) := by
    obtain h | h := h <;> simp [h]
  unfold arriveBarrier
  dsimp only
  rw [if_neg hacc]
  by_cases hlt : (getBar s b).arrivals.length + 1 < p
  · rw [if_pos hlt, if_neg (by simpa using hlt)]
  · rw [if_neg hlt, if_pos (by simpa using hlt)]
    exact releaseFold_reins _ _

theorem arriveBarrier_refused (r : Arrival) (h : (getBar s b).arrivals ≠ []) (hp : (getBar s b).parties ≠ p) :
    arriveBarrier s b p r = (s, false) := if_pos ⟨by simpa using h, hp⟩

/-- Whether an arrival is of a unit. -/
def arrivalOf (wu : Nat) (r : Arrival) : Bool := match r.ref with | some r => r.wu == wu | none => false

/-- A barrier without a unit's arrivals (R283). -/
def withdrawn (wu : Nat) (x : Barrier) : Barrier :=
  if x.arrivals.any (arrivalOf wu) then
    { x with arrivals := x.arrivals.filter fun r => !arrivalOf wu r
             parties := if (x.arrivals.filter fun r => !arrivalOf wu r).isEmpty then 0 else x.parties }
  else x

theorem withdrawn_gen (wu : Nat) (x : Barrier) : (withdrawn wu x).gen = x.gen := by
  unfold withdrawn
  split <;> rfl

theorem withdrawn_arrivals (wu : Nat) (x : Barrier) :
    (withdrawn wu x).arrivals = x.arrivals.filter fun r => !arrivalOf wu r := by
  unfold withdrawn
  split
  · rfl
  case isFalse h =>
    rw [List.filter_eq_self.mpr]
    simpa using h

theorem withdrawn_parties (wu : Nat) (x : Barrier) :
    ((withdrawn wu x).arrivals ≠ [] → (withdrawn wu x).parties = x.parties) ∧
    (x.arrivals ≠ [] → (withdrawn wu x).arrivals = [] → (withdrawn wu x).parties = 0) := by
  unfold withdrawn
  split
  · refine ⟨fun h => if_neg (by simpa using h), fun _ h => if_pos (by simpa using h)⟩
  · exact ⟨fun _ => rfl, fun h h' => absurd h' h⟩

theorem getBar_withdrawArrivals (s : State) (wu b : Nat) : getBar (withdrawArrivals s wu) b = withdrawn wu (getBar s b) := by
  have hcut : (fun e : Nat × Barrier => if e.2.arrivals.any (arrivalOf wu) then
      (e.1, { e.2 with arrivals := e.2.arrivals.filter fun r => !arrivalOf wu r
                       parties := if (e.2.arrivals.filter fun r => !arrivalOf wu r).isEmpty then 0 else e.2.parties })
      else e) = fun e => (e.1, withdrawn wu e.2) := by
    funext e
    unfold withdrawn
    split <;> rfl
  show tblGet {} (s.reins.barriers.map fun e : Nat × Barrier => if e.2.arrivals.any (arrivalOf wu) then
      (e.1, { e.2 with arrivals := e.2.arrivals.filter fun r => !arrivalOf wu r
                       parties := if (e.2.arrivals.filter fun r => !arrivalOf wu r).isEmpty then 0 else e.2.parties })
      else e) b = _
  rw [hcut]
  exact tblGet_map rfl _ _

theorem exec_arrivalWithdraw {x : WorkUnit} (hx : findUnit s wu = some x) (hd : x.decided = true) :
    exec (.arrivalWithdraw t wu) s = .next (withdrawArrivals (atMt s t) wu) := by
  show execArrivalWithdraw t wu s = _
  simp [execArrivalWithdraw, hx, hd]

/-- Settles O14: an accepted and a refused arrival by the barrier they leave, and a withdrawal by what it makes of each. -/
theorem reinsBarriers : Obligations.ReinsBarriers := by
  refine ⟨?accepted, ?refused, ?withdraw⟩
  case accepted =>
    intro s t req b p sent hb hlo hhi happ h
    have hr := arriveBarrier_accepted (s := applied s t 4 req sent) (b := b) (p := p) { req := req, ref := none } h
    refine ⟨_, exec_barrierArrival hb hlo hhi happ, ?_, fun c hc => ?_, ?_, ?_⟩
    · rw [getBar_reins hr, getBar_setBar_same]
      rfl
    · rw [getBar_reins hr, getBar_setBar_other _ _ hc]
      rfl
    · rw [hr]
      rfl
    · rw [hr]
      rfl
  case refused =>
    intro s t req b p sent hb hlo hhi happ h hp
    have hexec := exec_barrierArrival hb hlo hhi happ
    rw [arriveBarrier_refused (s := applied s t 4 req sent) _ h hp] at hexec
    exact ⟨_, hexec, rfl, rfl⟩
  case withdraw =>
    intro s t wu x hx hd
    refine ⟨_, exec_arrivalWithdraw hx hd, fun b => ?_⟩
    rw [getBar_withdrawArrivals]
    exact ⟨withdrawn_gen _ _, withdrawn_arrivals _ _, withdrawn_parties _ _⟩

/-! ## The owner's reset and the planes (R270, R271, R280) -/

theorem exec_rnCtrCmd (hready : isReady s = true) : exec (.rnCtrCmd t v) s = .next (resetCtr (atMt s t) v) := if_pos hready

theorem resetCtr_owner (h : s.reins.ctrSel < 0xF000) (v : Nat) :
    resetCtr s v = setCtrValue (advanceEpoch s s.reins.ctrSel) s.reins.ctrSel (BitVec.ofNat 32 v) := if_pos h

theorem resetCtr_work (h : 0xF000 ≤ s.reins.ctrSel) (v : Nat) : resetCtr s v = s := if_neg (Nat.not_lt.mpr h)

theorem getCtr_advanceEpoch (s : State) (n : Nat) :
    getCtr (advanceEpoch s n) n = { getCtr s n with epoch := ((getCtr s n).epoch + 1) % 256 } := by
  unfold getCtr
  rw [(advanceEpoch_reins s n).1]
  simp [tblMod]

theorem getCtr_advanceEpoch_other (s : State) {n m : Nat} (h : m ≠ n) : getCtr (advanceEpoch s n) m = getCtr s m := by
  unfold getCtr
  rw [(advanceEpoch_reins s n).1]
  exact tblGet_tblSet_other _ _ _ h

/-- The reset of a counter ends exactly the waits on it. -/
theorem mem_waits_reset (s : State) (n : Nat) (v : Word) (w : Wait) :
    w ∈ (setCtrValue (advanceEpoch s n) n v).reins.waits ↔ w ∈ s.reins.waits ∧ w.ctr ≠ n := by
  rw [(setCtrValue_reins _ _ _).2.2, (advanceEpoch_reins _ _).2.2]
  simp only [List.mem_filter]
  grind

/-- The state in which a plane error has been counted. -/
def planeCounted (s : State) (t p : Nat) : State :=
  modReins (atMt s t) fun r => { r with planeErr := tblInc r.planeErr p
                                        errTimes := tblSet r.errTimes p (now (atMt s t) :: recentErrors (atMt s t) p) }

theorem exec_planeError {r : Nat} {how : PlaneFault} (hready : isReady s = true) (hp : p < 3) (hr : r < 550) :
    exec (.planeError t r p how) s =
      if 16 < (recentErrors (atMt s t) p).length + 1 ∧ s.reins.inVote.contains p = true then
        .next (modReins (postFault (planeCounted s t p) 0x0B (receiverRes r) 0xFFFF) fun r =>
          { r with inVote := r.inVote.filter (· != p), resync := addOnce r.resync p })
      else .next (postFault (planeCounted s t p) 0x0B (receiverRes r) 0xFFFF) := by
  have hvote : (postFault (planeCounted s t p) 0x0B (receiverRes r) 0xFFFF).reins.inVote = s.reins.inVote := by
    rw [postFault_reins]
    rfl
  cases how <;>
  · refine (if_pos ⟨hready, hp, hr⟩).trans ?_
    show (if 16 < (now (atMt s t) :: recentErrors (atMt s t) p).length ∧
      (postFault (planeCounted s t p) 0x0B (receiverRes r) 0xFFFF).reins.inVote.contains p = true then _ else _) = _
    rw [hvote]
    rfl

theorem exec_planeResyncDone (h : s.reins.resync.contains p = true) : exec (.planeResyncDone t p) s =
    .next (modReins (atMt s t) fun r => { r with inVote := sortBy (fun a b => decide (a < b)) (addOnce r.inVote p)
                                                 resync := r.resync.filter (· != p), errTimes := tblErase r.errTimes p }) :=
  if_pos h

theorem filter_bne_of_not_contains {l : List Nat} (h : ¬ l.contains p = true) : l.filter (· != p) = l := by
  rw [List.filter_eq_self]
  rintro a ha
  rw [List.contains_iff_mem] at h
  simpa using ne_of_mem_of_not_mem ha h

theorem tblGet_tblInc (t : Tbl Nat) (p : Nat) : tblGet 0 (tblInc t p) p = cap32 (tblGet 0 t p + 1) := by
  simp [tblInc, tblMod]

/-- Settles O15: the reset by the laws of the epoch's advance and of the new value, and the planes by what a report changes. -/
theorem reinsMaintenance : Obligations.ReinsMaintenance := by
  refine ⟨?owner, ?work, ?error, ?resync⟩
  case owner =>
    intro s t v hready hsel
    have hexec := exec_rnCtrCmd (t := t) (v := v) hready
    rw [resetCtr_owner (s := atMt s t) hsel] at hexec
    refine ⟨_, hexec, ?_, fun n hn => ?_, fun w hw => ?_, fun w hw hne => ?_⟩
    · exact (getCtr_setCtrValue _ _ _).trans (by rw [getCtr_advanceEpoch]; rfl)
    · exact (getCtr_setCtrValue_other _ _ hn).trans (getCtr_advanceEpoch_other _ hn)
    · exact ((mem_waits_reset _ _ _ _).mp hw).2
    · exact (mem_waits_reset _ _ _ _).mpr ⟨hw, hne⟩
  case work =>
    intro s t v hready hsel
    have hexec := exec_rnCtrCmd (t := t) (v := v) hready
    rw [resetCtr_work (s := atMt s t) hsel] at hexec
    exact ⟨_, hexec, rfl⟩
  case error =>
    intro s t r p how hready hp hr
    have hposted : Room s 1 → Posted s (postFault (planeCounted s t p) 0x0B (receiverRes r) 0xFFFF)
        [{ code := 0x0001, mech := 0x0B, res := receiverRes r, params := [0xFFFF] }] := fun hroom => fault_posted rfl hroom
    have hexec := exec_planeError (t := t) (how := how) hready hp hr
    have hreins := postFault_reins (planeCounted s t p) 0x0B (receiverRes r) 0xFFFF
    generalize postFault (planeCounted s t p) 0x0B (receiverRes r) 0xFFFF = v at hposted hexec hreins
    split at hexec
    case isTrue h =>
      refine ⟨_, hexec, ?_, ?_, ?_, ?_, ?_, hposted⟩
      · show tblGet 0 v.reins.planeErr p = _
        rw [hreins]
        exact tblGet_tblInc _ _
      · show v.reins.inVote.filter _ = _
        rw [hreins, if_pos h.1]
        rfl
      all_goals
        dsimp only [modReins]
        rw [hreins]
        rfl
    case isFalse h =>
      refine ⟨_, hexec, ?_, ?_, ?_, ?_, ?_, hposted⟩
      · rw [hreins]
        exact tblGet_tblInc _ _
      · rw [hreins]
        split
        case isTrue h16 => exact (filter_bne_of_not_contains fun hc => h ⟨h16, hc⟩).symm
        case isFalse => rfl
      all_goals
        rw [hreins]
        rfl
  case resync =>
    intro s t p h
    exact ⟨_, exec_planeResyncDone h, (mem_sortBy _ _ _).mpr (mem_addOnce _ _), by simp, rfl, rfl, rfl⟩

end Sys2Proof.Reins
end

section
/-! SUPPORT. Heartbeats and their timeouts (09 R284, R285) and the failure, the spare's test and the retest of a cluster
(13 R411 to R414). -/

namespace Sys2Proof.ClusterFailures

open Sys2Proof Sys2Proof.Machine Sys2Proof.Safety Sys2Proof.Laws

variable {s : State} {t p d g mech : Nat}

/-! ## Heartbeats -/

/-- A heartbeat noted: its sender's time is renewed (09 R284). -/
def beaten (s : State) (t : Nat) (w : Beater) : State :=
  modReins (atMt s t) fun r => { r with lastBeat := tblSet r.lastBeat (beaterReq w) (now (atMt s t)) }

theorem exec_heartbeat_cluster (hready : isReady s = true) (hb : beats s (.cluster p) = true) :
    exec (.heartbeat t (.cluster p)) s = .next (modClu (beaten s t (.cluster p)) p fun c => { c with wokeAt := none }) :=
  if_pos (Bool.and_eq_true_iff.mpr ⟨hready, hb⟩)

theorem exec_heartbeat_dieSup (hready : isReady s = true) (hb : beats s (.dieSup d) = true) :
    exec (.heartbeat t (.dieSup d)) s = .next (beaten s t (.dieSup d)) := if_pos (Bool.and_eq_true_iff.mpr ⟨hready, hb⟩)

theorem lastBeat_beaten (s : State) (t : Nat) (w : Beater) :
    tblGet 0 (beaten s t w).reins.lastBeat (beaterReq w) = now (beaten s t w) := tblGet_tblSet_same _ _ _ _

/-- A cluster that beats has its halter open. -/
theorem halter_of_beats (h : beats s (.cluster p) = true) : (getClu s p).halter = false := by
  unfold beats at h
  simp only [Bool.and_eq_true, Bool.not_eq_true'] at h
  exact h.2

theorem exec_heartbeatTimeout_cluster (hready : isReady s = true) (hb : beats s (.cluster p) = true)
    (hlate : tblGet 0 s.reins.lastBeat p + 750000 ≤ max (now s) t) (hw : (getClu s p).wokeAt = none) :
    exec (.heartbeatTimeout t (.cluster p)) s = .next (declareFailed (atMt s t) p 0x08) := by
  have hcond : (isReady (atMt s t) && beats (atMt s t) (.cluster p) &&
      decide (tblGet 0 (atMt s t).reins.lastBeat (beaterReq (.cluster p)) + 750000 ≤ now (atMt s t))) = true :=
    Bool.and_eq_true_iff.mpr ⟨Bool.and_eq_true_iff.mpr ⟨hready, hb⟩, decide_eq_true hlate⟩
  have hwoke : (getClu (atMt s t) p).wokeAt.isNone = true := Option.isNone_iff_eq_none.mpr hw
  exact (if_pos hcond).trans (if_pos hwoke)

theorem exec_heartbeatTimeout_dieSup (hready : isReady s = true) (hb : beats s (.dieSup d) = true)
    (hlate : tblGet 0 s.reins.lastBeat (544 + d) + 750000 ≤ max (now s) t) :
    exec (.heartbeatTimeout t (.dieSup d)) s = .next (loseDieSup (atMt s t) d) := by
  have hcond : (isReady (atMt s t) && beats (atMt s t) (.dieSup d) &&
      decide (tblGet 0 (atMt s t).reins.lastBeat (beaterReq (.dieSup d)) + 750000 ≤ now (atMt s t))) = true :=
    Bool.and_eq_true_iff.mpr ⟨Bool.and_eq_true_iff.mpr ⟨hready, hb⟩, decide_eq_true hlate⟩
  exact if_pos hcond

theorem exec_wakeHeartbeatTimeout {m : Nat} (hready : isReady s = true) (hp : p < 544) (hw : (getClu s p).wokeAt = some m)
    (hlate : m + 25000 ≤ max (now s) t) :
    exec (.wakeHeartbeatTimeout t p) s = .next (declareFailed (atMt s t) p 0x08) := by
  have hcond : p < 544 ∧ isReady (atMt s t) ∧ m + 25000 ≤ now (atMt s t) := ⟨hp, hready, hlate⟩
  show execWakeHeartbeatTimeout t p s = _
  simp only [execWakeHeartbeatTimeout, getClu_atMt, hw]
  exact if_pos hcond

/-- Settles O18: a beat by the two things it sets, a timeout by what the declared failure or the lost supervisor leaves. -/
theorem heartbeats : Obligations.Heartbeats := by
  refine ⟨?beat, ?cluster, ?dieSup, ?wake⟩
  case beat =>
    intro s t w hready hb
    cases w with
    | cluster p =>
      refine ⟨_, exec_heartbeat_cluster hready hb, lastBeat_beaten s t (.cluster p), fun q hq => ?_, fun q hq => ?_⟩
      · obtain rfl : p = q := Beater.cluster.inj hq
        show (getClu (modClu _ p _) p).wokeAt = none
        rw [getClu_modClu_same]
      · exact getClu_modClu_other _ _ fun h => hq (congrArg Beater.cluster h.symm)
    | dieSup d =>
      exact ⟨_, exec_heartbeat_dieSup hready hb, lastBeat_beaten s t (.dieSup d), fun q hq => Beater.noConfusion hq,
        fun q _ => rfl⟩
  case cluster =>
    intro s t p hready hb hlate hw
    exact ⟨_, exec_heartbeatTimeout_cluster hready hb hlate hw, (declareFailed_down (atMt s t) p _ (halter_of_beats hb)).1⟩
  case dieSup =>
    intro s t d hready hb hlate
    obtain ⟨hctl, hmarked, -⟩ := loseDieSup_what (atMt s t) d
    refine ⟨_, exec_heartbeatTimeout_dieSup hready hb hlate, ?_, hmarked⟩
    rw [hctl]
    exact addOnce_contains _ _
  case wake =>
    intro s t p m hready hp hh hw hlate
    exact ⟨_, exec_wakeHeartbeatTimeout hready hp hw hlate, (declareFailed_down (atMt s t) p _ hh).1⟩

/-! ## Failure, the spare's test and the retest -/

theorem exec_clusterFailDeclare (hready : isReady s = true) (hp : p < 544) (hlo : 3 ≤ mech) (hhi : mech ≤ 0x0A) :
    exec (.clusterFailDeclare t p mech) s = .next (declareFailed (atMt s t) p mech) := if_pos ⟨hready, hp, hlo, hhi⟩

section SpareTest

variable {r : Remount} (hr : s.clu.remounts.find? (fun r => r.l / 16 == g) = some r) (hact : (getClu s r.spare).power = .active)
include hr hact

theorem exec_spareTestDone_passed : exec (.spareTestDone t g true []) s =
    .next (serveBy { atMt s t with clu := { s.clu with remounts := s.clu.remounts.filter fun x => x.l != r.l } }
      r.l r.spare r.failed r.buffers) := by
  show execSpareTestDone t g true [] s = _
  simp [execSpareTestDone, hr, hact, mapOutRows]

theorem exec_spareTestDone_failed {rows : List (Nat × Nat)} : exec (.spareTestDone t g false rows) s =
    .next (declareFailed (atMt s t) r.spare 0x1A) := by
  show execSpareTestDone t g false rows s = _
  simp [execSpareTestDone, hr, hact]

end SpareTest

/-- What a cluster does when it takes over a logical number, in the table of clusters (13 R412). -/
theorem serveBy_clu (s : State) (l p failed : Nat) (bufs : List Nat) : (serveBy s l p failed bufs).clu =
    (setLmap (modClu s p fun c => { c with role := .serving, halter := false, spad := {} }) l
      { p := p, unserved := false, absent := false }).clu := by
  unfold serveBy postResidencyLost
  dsimp only
  rw [post_clu, post_clu, capClose_clu]

theorem exec_retest_passed (hr : (getClu s p).role = .failedRetest) (hl : ∀ l, (getLmap s l).absent = false) :
    exec (.retest t p true []) s =
      .next (modClu (atMt s t) p fun c => { c with role := .spare, halter := false, power := .off }) := by
  have hnone : ((numsFrom (16 * groupOf p) 16).find? fun l => (getLmap
      (modClu (atMt s t) p fun c => { c with role := .spare, halter := false, power := .off }) l).absent) = none :=
    List.find?_eq_none.mpr fun l _ => ne_true_of_eq_false (hl l)
  show execRetest t p true [] s = _
  unfold execRetest
  dsimp only
  rw [if_neg (by simp [hr])]
  dsimp only [mapOutRows]
  rw [hnone]

theorem exec_retest_failed {rows : List (Nat × Nat)} (hr : (getClu s p).role = .failedRetest) :
    exec (.retest t p false rows) s =
      .next (modClu (postFault (atMt s t) 0x19 resNone p) p fun c => { c with role := .failed }) := by
  show execRetest t p false rows s = _
  simp [execRetest, hr]

/-- Settles O19: a failure as it is declared, and both ends of a spare's test and of a retest. -/
theorem clusterFailures : Obligations.ClusterFailures := by
  refine ⟨?declared, ?passed, ?failed, ?retestPassed, ?retestFailed⟩
  case declared =>
    intro s t p mech hready hp hlo hhi hh
    exact ⟨_, exec_clusterFailDeclare hready hp hlo hhi, (declareFailed_down (atMt s t) p _ hh).1⟩
  case passed =>
    intro s t g r hr hact
    have hexec := exec_spareTestDone_passed (t := t) hr hact
    have hclu := serveBy_clu { atMt s t with clu := { s.clu with remounts := s.clu.remounts.filter fun x => x.l != r.l } }
      r.l r.spare r.failed r.buffers
    generalize serveBy _ r.l r.spare r.failed r.buffers = u at hexec hclu
    refine ⟨u, hexec, ?_, ?_, fun q hq => ?_, fun x hx => ?_⟩
    · unfold getLmap
      rw [hclu]
      exact getLmap_setLmap _ _ _
    · rw [getClu_clu (congrArg Clusters.phys hclu), getClu_setLmap, getClu_modClu_same]
      rfl
    · rw [getClu_clu (congrArg Clusters.phys hclu), getClu_setLmap, getClu_modClu_other _ _ hq]
      rfl
    · rw [congrArg Clusters.remounts hclu] at hx
      simpa using (List.mem_filter.mp hx).2
  case failed =>
    intro s t g r rows hr hact hh
    exact ⟨_, exec_spareTestDone_failed hr hact, (declareFailed_down (atMt s t) r.spare _ hh).1⟩
  case retestPassed =>
    intro s t p hr hl
    exact ⟨_, exec_retest_passed hr hl, getClu_modClu_same _ _ _, fun q hq => getClu_modClu_other _ _ hq⟩
  case retestFailed =>
    intro s t p rows hr
    refine ⟨_, exec_retest_failed hr, ?_, fun q hq => ?_, fun hroom => ?_⟩
    · rw [getClu_modClu_same, getClu_postFault]
      rfl
    · rw [getClu_modClu_other _ _ hq, getClu_postFault]
      rfl
    · exact posted_congr rfl rfl (fault_posted (v := atMt s t) rfl hroom)

end Sys2Proof.ClusterFailures
end

section
/-! SUPPORT. Yarrow visits and the requests for one (13 R415 to R418, 15 R453). -/

namespace Sys2Proof.Yarrow

open Sys2Proof Sys2Proof.Machine Sys2Proof.Safety Sys2Proof.Laws

variable {s : State} {t p r v : Nat}

/-! ## The state a visit works on -/

/-- The cluster woken for its visit: a spare is visited where it is (13 R416). -/
def woken (s : State) (p : Nat) : State := if (getClu s p).role = .spare then s else makeActive s p

theorem getClu_makeActive (s : State) (p : Nat) : ∃ a b c d, getClu (makeActive s p) p =
    { getClu s p with power := .active, wakeDue := a, idleSince := b, activeSince := c, activeCyc := d } := by
  obtain ⟨a, b, h⟩ := getClu_tallyActive_same (startPll s (groupOf p)) p
  unfold makeActive
  rw [getClu_modClu_same, h]
  exact ⟨_, _, _, _, rfl⟩

theorem makeActive_lmap (s : State) (p : Nat) : (makeActive s p).clu.lmap = s.clu.lmap := by
  rw [(makeActive_clu s p).2.2]

theorem logicalOf_lmap {a b : State} (h : b.clu.lmap = a.clu.lmap) (p : Nat) : logicalOf b p = logicalOf a p := by
  unfold logicalOf served physOf getLmap
  rw [h]

theorem yarrowAnswer_phys (s : State) (p r : Nat) : (yarrowAnswer s p r).clu.phys = s.clu.phys := by
  rw [yarrowAnswer_clu]
  split <;> rfl

theorem yarrowAnswer_lmap (s : State) (p r : Nat) : (yarrowAnswer s p r).clu.lmap = s.clu.lmap := by
  rw [yarrowAnswer_clu]
  split <;> rfl

theorem yarrowAnswer_fails (s : State) (p r : Nat) : (yarrowAnswer s p r).clu.yarrowFails = s.clu.yarrowFails := by
  rw [yarrowAnswer_clu]
  split <;> rfl

theorem halter_of_mayVisit (h : mayVisit s p = true) : (getClu s p).halter = false := by
  simp only [mayVisit, Bool.and_eq_true, Bool.not_eq_true'] at h
  exact h.1.1.2

theorem power_of_mayVisit (h : mayVisit s p = true) (hr : (getClu s p).role = .spare) : (getClu s p).power = .off := by
  simp only [mayVisit, Bool.and_eq_true, hr, beq_iff_eq] at h
  exact h.2.1

/-- Waking a cluster leaves its halter and its count of failures. -/
theorem woken_keeps (s : State) (p : Nat) : (getClu (woken s p) p).halter = (getClu s p).halter ∧
    (getClu (woken s p) p).fails = (getClu s p).fails ∧ (woken s p).clu.lmap = s.clu.lmap ∧
    (woken s p).clu.yarrowFails = s.clu.yarrowFails := by
  unfold woken
  split
  · exact ⟨rfl, rfl, rfl, rfl⟩
  · obtain ⟨_, _, _, _, h⟩ := getClu_makeActive s p
    rw [h, makeActive_lmap, (makeActive_clu s p).2.2]
    exact ⟨rfl, rfl, rfl, rfl⟩

/-! ## The three ends of a visit -/

section Visit

variable (h : mayVisit (atMt s t) p = true)
include h

theorem exec_yarrowVisit_passed : exec (.yarrowVisit t p .passed) s =
    .next (yarrowAnswer (modClu (woken (atMt s t) p) p fun c => { c with lastVisit := now (atMt s t) }) p 2) := if_pos h

theorem exec_yarrowVisit_interrupted : exec (.yarrowVisit t p .interrupted) s = .next (woken (atMt s t) p) := if_pos h

theorem exec_yarrowVisit_failed : exec (.yarrowVisit t p .failed) s =
    .next (declareFailed (yarrowAnswer { woken (atMt s t) p with clu := { (woken (atMt s t) p).clu with
      yarrowFails := min 65535 ((woken (atMt s t) p).clu.yarrowFails + 1) } } p 3) p 0x19) := if_pos h

end Visit

theorem exec_dbgYarrowCmd (hready : isReady s = true) (hdev : cfgDevMode s = true) (hgo : bit v 31 = true)
    (hp : bits v 9 0 < 544) (hidle : s.clu.yarrowResult ≠ 1) : exec (.dbgYarrowCmd t v) s =
      .next { atMt s t with clu := { s.clu with yarrowReq := bits v 9 0, yarrowResult := 1, yarrowAt := now (atMt s t) } } := by
  have hwrite : writeYarrow (atMt s t) v = _ := if_pos ⟨hgo, hp, hidle⟩
  exact (if_pos (Bool.and_eq_true_iff.mpr ⟨hready, hdev⟩)).trans (congrArg _ hwrite)

theorem exec_yarrowRequestCancel (hreq : s.clu.yarrowResult = 1) (hlate : s.clu.yarrowAt + 25000000000 ≤ max (now s) t) :
    exec (.yarrowRequestCancel t) s =
      .next (kyendYarrowEnds { atMt s t with clu := { s.clu with yarrowResult := 0 } } s.clu.yarrowReq "cancelled") :=
  if_pos ⟨hreq, hlate⟩

/-- Settles O20: a passed visit by what waking and answering change, a failed one as a failure declared on the woken cluster. -/
theorem yarrowVisits : Obligations.YarrowVisits := by
  refine ⟨?passed, ?interrupted, ?failed, ?request, ?cancel⟩
  case passed =>
    intro s t p h hr
    have hwoken : woken (atMt s t) p = makeActive (atMt s t) p := if_neg (by simp [hr])
    have hexec := exec_yarrowVisit_passed h
    obtain ⟨hpower, hother, hclu⟩ := makeActive_clu (atMt s t) p
    rw [hwoken] at hexec
    generalize makeActive (atMt s t) p = w at hexec hpower hother hclu
    have hphys := yarrowAnswer_phys (modClu w p fun c => { c with lastVisit := now (atMt s t) }) p 2
    have hfails := yarrowAnswer_fails (modClu w p fun c => { c with lastVisit := now (atMt s t) }) p 2
    have hans := yarrowAnswer_clu (modClu w p fun c => { c with lastVisit := now (atMt s t) }) p 2
    have hresult : w.clu.yarrowResult = s.clu.yarrowResult := by rw [hclu]; rfl
    have hreq : w.clu.yarrowReq = s.clu.yarrowReq := by rw [hclu]; rfl
    have hwfails : w.clu.yarrowFails = s.clu.yarrowFails := by rw [hclu]; rfl
    refine ⟨_, hexec, ?_, fun q hq => ?_, fun h1 hq => ?_, fun h1 => ?_, hfails.trans hwfails⟩
    · rw [getClu_clu hphys, getClu_modClu_same]
      exact hpower
    · rw [getClu_clu hphys, getClu_modClu_other _ _ hq]
      exact hother q hq
    · rw [hans, if_pos ⟨hresult.trans h1, hreq.trans hq⟩]
    · rw [hans, if_neg fun hc => h1 (hresult.symm.trans hc.1)]
      exact hresult
  case interrupted =>
    intro s t p h hr
    have hexec := exec_yarrowVisit_interrupted h
    rw [show woken (atMt s t) p = atMt s t from if_pos hr] at hexec
    exact ⟨_, hexec, power_of_mayVisit h hr, fun q _ => rfl, rfl⟩
  case failed =>
    intro s t p h
    have hexec := exec_yarrowVisit_failed h
    obtain ⟨hhalter, hfails, hlmap, hyf⟩ := woken_keeps (atMt s t) p
    generalize woken (atMt s t) p = w at hexec hhalter hfails hlmap hyf
    generalize hw' : ({ w with clu := { w.clu with yarrowFails := min 65535 (w.clu.yarrowFails + 1) } } : State) = w' at hexec
    have hclu : getClu (yarrowAnswer w' p 3) p = getClu w p := (getClu_clu (yarrowAnswer_phys _ _ _) p).trans (by rw [← hw']; rfl)
    have hlog : logicalOf (yarrowAnswer w' p 3) p = logicalOf s p :=
      logicalOf_lmap ((yarrowAnswer_lmap _ _ _).trans (by rw [← hw']; exact hlmap)) p
    have hyf' : (yarrowAnswer w' p 3).clu.yarrowFails = min 65535 (s.clu.yarrowFails + 1) :=
      (yarrowAnswer_fails _ _ _).trans (by rw [← hw']; exact congrArg (fun n => min 65535 (n + 1)) hyf)
    have hopen : (getClu (yarrowAnswer w' p 3) p).halter = false := by
      rw [hclu, hhalter]
      exact halter_of_mayVisit h
    obtain ⟨hoff, hh, -, hf, hm, -, hl, -⟩ := (declareFailed_down (yarrowAnswer w' p 3) p 0x19 hopen).1
    refine ⟨_, hexec, hoff, hh, hm, ?_, ?_, fun l hsl => (hl l (hlog.trans hsl)).1⟩
    · rw [hf, hclu, hfails]
      rfl
    · rw [declareFailed_yf, hyf']
  case request =>
    intro s t v hready hdev hgo hp hidle
    exact ⟨_, exec_dbgYarrowCmd hready hdev hgo hp hidle, rfl⟩
  case cancel =>
    intro s t hreq hlate
    exact ⟨_, exec_yarrowRequestCancel hreq hlate, kyendYarrowEnds_clu _ _ _⟩

end Sys2Proof.Yarrow
end

section
/-! SUPPORT. The supervisors of the module and the dies, the duplicated units of X (12 R373 to R375, 13 R401 to R404, R421) and
the faults that are masked (13 R401, R419). -/

namespace Sys2Proof.Supervisors

open Sys2Proof Sys2Proof.Machine Sys2Proof.Safety Sys2Proof.Laws

variable {s : State} {t c d x : Nat}

/-! ## Votes -/

theorem exec_voteMismatch_module (hon : s.ctl.powered = true) (hc : s.ctl.modVote.contains c = true)
    (h3 : 3 ≤ s.ctl.modVote.length) (hx : s.ctl.modSpare = some x) : exec (.supervisorVoteMismatch t .module c) s =
      .next { postFault (atMt s t) 0x16 resModule 0xFFFF with
        ctl := { s.ctl with modVote := s.ctl.modVote.filter (· != c) ++ [x], modSpare := none } } := by
  have hctl := postFault_ctl (atMt s t) 0x16 resModule 0xFFFF
  show execSupervisorVoteMismatch t .module c s = _
  unfold execSupervisorVoteMismatch
  dsimp only
  rw [if_pos ⟨hon, hc, h3⟩]
  generalize postFault (atMt s t) 0x16 resModule 0xFFFF = v at hctl
  rw [hctl]
  exact (show (match s.ctl.modSpare with | some x => _ | none => _ : Host.Outcome State Fault Refusal) = _ by rw [hx]; rfl)

section Die

variable (hon : s.ctl.powered = true) (hd : d < 4) (hlost : s.ctl.dieSupLost.contains d = false)
include hon hd hlost

theorem exec_voteMismatch_die (hc : (dieMembers s d).contains c = true) : exec (.supervisorVoteMismatch t (.die d) c) s =
    if (dieMembers s d).length ≤ 2 then .next (loseDieSup (postFault (atMt s t) 0x16 (resDie d) 0xFFFF) d)
    else .next { postFault (atMt s t) 0x16 (resDie d) 0xFFFF with
      ctl := { s.ctl with dieVote := tblSet s.ctl.dieVote d ((dieMembers s d).filter (· != c)) } } := by
  have hctl : (postFault (atMt s t) 0x16 (resDie d) 0xFFFF).ctl = s.ctl := postFault_ctl _ _ _ _
  have hmem : dieMembers (postFault (atMt s t) 0x16 (resDie d) 0xFFFF) d = dieMembers s d := by
    unfold dieMembers
    rw [hctl]
  show execSupervisorVoteMismatch t (.die d) c s = _
  unfold execSupervisorVoteMismatch
  dsimp only
  rw [if_pos ⟨hon, hd, hc, hlost⟩, hmem, hctl]

theorem exec_dieSupervisorLoss : exec (.dieSupervisorLoss t d) s = .next (loseDieSup (atMt s t) d) := if_pos ⟨hon, hd, hlost⟩

theorem exec_resyncDone_die (hcore : s.ctl.failedCores.contains d = false) : exec (.supervisorResyncDone t (.die d)) s =
    .next { atMt s t with ctl := { s.ctl with dieVote := tblErase s.ctl.dieVote d } } := if_pos ⟨hon, hd, hcore, hlost⟩

end Die

theorem exec_resyncDone_module (hon : s.ctl.powered = true) (hcore : s.ctl.failedCores.contains 4 = false)
    (hidle : idleCore s = some c) : exec (.supervisorResyncDone t .module) s =
      if s.ctl.modVote.length < 3 then .next { atMt s t with ctl := { s.ctl with modVote := s.ctl.modVote ++ [c] } }
      else .next { atMt s t with ctl := { s.ctl with modSpare := some c } } := by
  have hidle' : idleCore (atMt s t) = some c := hidle
  refine (if_pos ⟨hon, hcore⟩).trans ?_
  rw [hidle']
  rfl

/-- The die supervisor reloaded: its vote stands again and its heartbeat starts anew (12 R375). -/
def reloaded (s : State) (d : Nat) : State :=
  modReins { s with ctl := { s.ctl with dieSupLost := s.ctl.dieSupLost.filter (· != d)
                                        dieVote := if s.ctl.failedCores.contains d then tblSet s.ctl.dieVote d [0, 1]
                                                   else tblErase s.ctl.dieVote d } }
    fun r => { r with lastBeat := tblSet r.lastBeat (544 + d) (now s) }

theorem exec_dieSupervisorReloadDone (h : s.ctl.dieSupLost.contains d = true) : exec (.dieSupervisorReloadDone t d) s =
    .next (capClose (reloaded (atMt s t) d) 4 (resDie d)) := if_pos h

/-! ## The duplicated units of die X -/

theorem exec_xUnitMismatch_restart {y : XUnit} (hready : isReady s = true) (hy : y = .dispatcher ∨ y = .tileWalker) :
    exec (.xUnitMismatch t y) s =
      .next (capOpen { addCauses (postFault (atMt s t) 0x18 resModule 0xFFFF) (fun _ => true) reasonHwFault resModule with
        disp := { (addCauses (postFault (atMt s t) 0x18 resModule 0xFFFF) (fun _ => true) reasonHwFault resModule).disp with
          restarting := true } } 5 resModule) := by
  have hcond : ¬ (!isReady (atMt s t)) = true := by simpa using hready
  obtain rfl | rfl := hy <;> exact if_neg hcond

theorem exec_xUnitMismatch_masked {y : XUnit} (hready : isReady s = true) (hy : y = .transport ∨ y = .crypto) :
    exec (.xUnitMismatch t y) s = .next (postFault (atMt s t) 0x18 resModule 0xFFFF) := by
  have hcond : ¬ (!isReady (atMt s t)) = true := by simpa using hready
  obtain rfl | rfl := hy <;> exact if_neg hcond

theorem exec_dispatcherRestartDone (h : s.disp.restarting = true) : exec (.dispatcherRestartDone t) s =
    .next (capClose { atMt s t with disp := { s.disp with restarting := false } } 5 resModule) := if_pos h

/-- Settles O21: each vote, resynchronisation, loss and restart by its next state. -/
theorem supervisors : Obligations.Supervisors := by
  refine ⟨?voteModule, ?voteDie, ?resyncModule, ?resyncDie, ?loss, ?reload, ?restart, ?masked, ?restarted⟩
  case voteModule =>
    intro s t c x hon hc h3 hx
    exact ⟨_, exec_voteMismatch_module hon hc h3 hx, rfl, fun hroom =>
      posted_congr rfl rfl (fault_posted (v := atMt s t) rfl hroom)⟩
  case voteDie =>
    intro s t d c hon hd hc hlost
    have hexec := exec_voteMismatch_die (t := t) hon hd hlost hc
    by_cases h2 : (dieMembers s d).length ≤ 2
    · rw [if_pos h2] at hexec
      obtain ⟨hctl, hmarked, -⟩ := loseDieSup_what (postFault (atMt s t) 0x16 (resDie d) 0xFFFF) d
      refine ⟨_, hexec, fun h => absurd h (Nat.not_lt.mpr h2), fun _ => ⟨?_, ?_⟩⟩
      · rw [hctl]
        exact addOnce_contains _ _
      · unfold Marked at hmarked ⊢
        rw [hmarked, postFault_disp]
        rfl
    · rw [if_neg h2] at hexec
      exact ⟨_, hexec, fun _ => ⟨tblGet_tblSet_same _ _ _ _, rfl⟩, fun h => absurd h h2⟩
  case resyncModule =>
    intro s t c hon hcore hidle
    have hexec := exec_resyncDone_module (t := t) hon hcore hidle
    by_cases h3 : s.ctl.modVote.length < 3
    · rw [if_pos h3] at hexec
      exact ⟨_, hexec, (if_pos h3).symm⟩
    · rw [if_neg h3] at hexec
      exact ⟨_, hexec, (if_neg h3).symm⟩
  case resyncDie =>
    intro s t d hon hd hcore hlost
    exact ⟨_, exec_resyncDone_die hon hd hlost hcore, rfl⟩
  case loss =>
    intro s t d hon hd hlost
    exact ⟨_, exec_dieSupervisorLoss hon hd hlost, loseDieSup_what (atMt s t) d⟩
  case reload =>
    intro s t d h
    refine ⟨_, exec_dieSupervisorReloadDone h, ?_, ?_, capClose_hasnt _ _ _⟩
    · rw [capClose_ctl]
      rfl
    · rw [capClose_reins, now_capClose]
      exact tblGet_tblSet_same _ _ _ _
  case restart =>
    intro s t y hready hy
    refine ⟨_, exec_xUnitMismatch_restart hready hy, ?_, ?_, capOpen_has _ _ _⟩
    · rw [capOpen_disp]
    · refine marked_of (v := postFault (atMt s t) 0x18 resModule 0xFFFF) ?_ ?_ ?_
      · rw [postFault_disp]
        rfl
      · rw [capOpen_disp]
      · rw [now_capOpen]
        rfl
  case masked =>
    intro s t y hready hy
    exact ⟨_, exec_xUnitMismatch_masked hready hy, postFault_disp _ _ _ _, postFault_host _ _ _ _, fun hroom =>
      fault_posted (v := atMt s t) rfl hroom⟩
  case restarted =>
    intro s t h
    refine ⟨_, exec_dispatcherRestartDone h, ?_, capClose_hasnt _ _ _⟩
    rw [capClose_disp]

/-! ## Faults that are masked -/

theorem exec_regulatorPhaseFail {rail : Nat} (hon : s.ctl.powered = true) : exec (.regulatorPhaseFail t rail) s =
    .next (postFault { atMt s t with flt := { s.flt with phases := addOnce s.flt.phases rail } } 0x15 resNone 0xFFFF) :=
  if_pos hon

/-- The retries of a NoC link within the last 1 ms (13 R419). -/
def recentRetries (s : State) (k : Nat) : List Nat :=
  (tblGet [] s.flt.nocRetries k).filter fun x => decide (now s < x + 2500000)

theorem exec_nocFlitCrcFail {l : Nat} (hon : s.ctl.powered = true) (hd : d < 4) (hl : l < 256) :
    exec (.nocFlitCrcFail t d l) s = .next (postFault { atMt s t with flt := { s.flt with
      nocRetries := tblSet s.flt.nocRetries (256 * d + l) (now (atMt s t) :: recentRetries (atMt s t) (256 * d + l))
      nocDead := if 16 < (recentRetries (atMt s t) (256 * d + l)).length + 1 then addOnce s.flt.nocDead (256 * d + l)
                 else s.flt.nocDead } } 0x0C (resDie d) 0xFFFF) := if_pos ⟨hon, hd, hl⟩

/-- A die link's lane counted as failed (13 R419). -/
def laneFailed (s : State) (k : Nat) : State :=
  { s with flt := { s.flt with dieLanes := tblSet s.flt.dieLanes k (tblGet 0 s.flt.dieLanes k + 1) } }

theorem exec_dieLaneFail {pair un lane : Nat} (hon : s.ctl.powered = true) (hun : un < 4096) :
    exec (.dieLaneFail t pair un lane) s =
      .next (if tblGet 0 s.flt.dieLanes (4096 * pair + un) + 1 ≤ 4
        then post (postFault (laneFailed (atMt s t) (4096 * pair + un)) 0x0D resNone lane) { code := 0x0042, params := [pair, lane] }
        else postFault (laneFailed (atMt s t) (4096 * pair + un)) 0x0D resNone lane) := if_pos ⟨hon, hun⟩

theorem exec_pllLockLoss_noc (hon : s.ctl.powered = true) (hd : d < 4) : exec (.pllLockLoss t (.noc d)) s =
    .next (addCauses (postFault (atMt s t) 0x14 (resDie d) 0xFFFF) (fun u => u.touched.any fun l => l / 128 == d)
      reasonHwFault (resDie d)) := by
  have hcond : ¬ (!(atMt s t).ctl.powered) = true := by simpa using hon
  exact (if_neg hcond).trans (if_pos hd)

/-- Settles O22: each fault by the record it leaves and the fault it posts. -/
theorem maskedFaults : Obligations.MaskedFaults := by
  refine ⟨?phase, ?flit, ?lane, ?pll⟩
  case phase =>
    intro s t rail hon
    exact ⟨_, exec_regulatorPhaseFail hon, postFault_phases _ _ _ _, postFault_disp _ _ _ _, postFault_clu _ _ _ _,
      postFault_pwr _ _ _ _, fun hroom => fault_posted rfl hroom⟩
  case flit =>
    intro s t d l k m hon hd hl hk hm
    subst hk
    have hm' : (recentRetries (atMt s t) (256 * d + l)).length = m := hm.symm
    refine ⟨_, exec_nocFlitCrcFail hon hd hl, ?_, postFault_disp _ _ _ _, postFault_clu _ _ _ _, fun hroom =>
      fault_posted rfl hroom⟩
    rw [postFault_nocDead, hm']
    exact if_congr (by omega) rfl rfl
  case lane =>
    intro s t pair un lane n hon hun hn
    have hexec := exec_dieLaneFail (t := t) (pair := pair) (lane := lane) hon hun
    have hlanes := postFault_dieLanes (laneFailed (atMt s t) (4096 * pair + un)) 0x0D resNone lane
    have hdisp := postFault_disp (laneFailed (atMt s t) (4096 * pair + un)) 0x0D resNone lane
    have hset : tblGet 0 (laneFailed (atMt s t) (4096 * pair + un)).flt.dieLanes (4096 * pair + un) = n + 1 := by
      rw [hn]
      exact tblGet_tblSet_same _ _ _ _
    have hposted : Room s 2 → _ := fun hroom => posted_fault (s := s) (v := laneFailed (atMt s t) (4096 * pair + un)) (n := 1)
      (mech := 0x0D) (res := resNone) (p0 := lane) hroom (posted_nil rfl)
    rw [← hn] at hexec
    generalize postFault (laneFailed (atMt s t) (4096 * pair + un)) 0x0D resNone lane = v at hexec hlanes hdisp hposted
    by_cases h4 : n + 1 ≤ 4
    · rw [if_pos h4] at hexec
      refine ⟨_, hexec, ?_, ?_, fun hroom => ?_⟩
      · rw [post_flt, hlanes, hset]
      · rw [post_disp, hdisp]
        rfl
      · rw [if_pos (by omega)]
        exact posted_more (hposted hroom).1 (hposted hroom).2
    · rw [if_neg h4] at hexec
      refine ⟨_, hexec, ?_, hdisp, fun hroom => ?_⟩
      · rw [hlanes, hset]
      · rw [if_neg (by omega)]
        exact (hposted hroom).1
  case pll =>
    intro s t d hon hd
    refine ⟨_, exec_pllLockLoss_noc hon hd, ?_, postFault_clu _ _ _ _, fun hroom =>
      posted_congr rfl rfl (fault_posted (v := atMt s t) rfl hroom)⟩
    refine marked_of (v := postFault (atMt s t) 0x14 (resDie d) 0xFFFF) ?_ rfl rfl
    rw [postFault_disp]
    rfl

end Sys2Proof.Supervisors
end

section
/-! SUPPORT. The bridle (10 R336 to R339): claims and elections, the lease, release and transfer. -/

namespace Sys2Proof.Bridle

open Sys2Proof Sys2Proof.Machine Sys2Proof.Safety Sys2Proof.Laws

variable {s v : State} {t q : Nat} {d : Datagram} {se x : Session} {o : Nat × Nat}

/-- An acknowledgement leaves the bridle as it is. -/
theorem sendAck_bridle (s : State) (n : Nat) : (sendAck s .host n).host.owner = s.host.owner ∧
    (sendAck s .host n).host.leaseEnd = s.host.leaseEnd ∧ (sendAck s .host n).host.election = s.host.election ∧
    now (sendAck s .host n) = now s := by
  obtain ⟨howner, hlease, helection, hnow, -, -⟩ := (sends_sendAck s n).moves.host
  exact ⟨howner, hlease, helection, hnow⟩

theorem grantBody_of_same {a b : Session} (hn : a.num = b.num) (hg : a.gen = b.gen) (c m : Nat) : grantBody a c m = grantBody b c m := by
  unfold grantBody
  rw [hn, hg]

/-! ## Claims and elections (R337) -/

/-- A claim on a bridle that nobody holds opens an election when none runs. -/
theorem actClaim_opens (ho : ∀ o, v.host.owner = some o → isOwner v o.1 o.2 = false) (he : v.host.election = none) :
    actClaim q v x [] = modHost v fun h =>
      { h with election := some { closeAt := now v + 500000000, entrants := [(x.num, x.gen, x.key, q)] } } := by
  have hnone : (v.host.owner.filter fun o => isOwner v o.1 o.2) = none := by
    rw [Option.filter_eq_none_iff]
    exact fun o h => ne_true_of_eq_false (ho o h)
  unfold actClaim
  rw [if_neg (by simp), hnone]
  dsimp only [modHost]
  rw [he]

theorem actClaim_refused (ho : v.host.owner = some o) (hown : isOwner v o.1 o.2 = true) :
    actClaim q v x [] = sendSeq v .host x.num 0x61 (nackBody q 0x01 7 0 0 o.1) false none := by
  unfold actClaim
  rw [if_neg (by simp), ho, Option.filter_some, if_pos hown]
  rfl

theorem exec_electionClose {e : Election} (he : s.host.election = some e) (hdue : e.closeAt ≤ max (now s) t) :
    exec (.electionClose t) s = .next (closeElection (atMt s t) e) := by
  show execElectionClose t s = _
  have hdue' : e.closeAt ≤ now (atMt s t) := hdue
  unfold execElectionClose
  dsimp only
  rw [show (atMt s t).host.election = some e from he]
  exact if_pos hdue'

/-- The winner of an election is granted the bridle; every other claimant is refused. -/
theorem closeElection_won {e : Election} {w : Nat × Nat × Nat × Nat} {rest : List (Nat × Nat × Nat × Nat)}
    (hl : sortBy (entrantFirst s) (e.entrants.filter fun x => s.host.sessions.any fun y => y.num == x.1 && y.gen == x.2.1) = w :: rest)
    (hs : findSess s .host w.1 = some se) : closeElection s e =
      rest.foldl (fun s x => sendNack s x.1 x.2.2.2 0x01 7 w.1) (grantBridle (modHost s fun h => { h with election := none }) se 0) := by
  have hl' : sortBy (entrantFirst (modHost s fun h => { h with election := none })) (e.entrants.filter fun x =>
      (modHost s fun h => { h with election := none }).host.sessions.any fun y => y.num == x.1 && y.gen == x.2.1) = w :: rest := hl
  have hs' : findSess (modHost s fun h => { h with election := none }) .host w.1 = some se := hs
  unfold closeElection
  dsimp only
  rw [hl']
  dsimp only
  rw [hs']

/-- Settles O23: a claim by the branch it takes, and the close by what a grant and the refusals behind it leave. -/
theorem bridleElections : Obligations.BridleElections := by
  refine ⟨?opens, ?held, ?closes⟩
  case opens =>
    intro s t d se h hbody he ho
    obtain ⟨v, x, hmoves, -, hnum, hgen, hkey, -, -, hmsg⟩ := hostMessage_accepts h (actClaim d.seq)
    obtain ⟨howner, hlease, helection, hnow, -, -⟩ := hmoves.host
    rw [hbody, actClaim_opens (fun o h => (hmoves.isOwner _ _).trans (ho o (howner.symm.trans h))) (helection.trans he)] at hmsg
    have hack := sendAck_bridle (modHost v fun h =>
      { h with election := some { closeAt := now v + 500000000, entrants := [(x.num, x.gen, x.key, d.seq)] } }) se.num
    rw [← hmsg] at hack
    obtain ⟨kowner, klease, kelection, know⟩ := hack
    refine ⟨_, rfl, ?_, kowner.trans howner, klease.trans hlease⟩
    rw [kelection, know, ← hnum, ← hgen, ← hkey]
    rfl
  case held =>
    intro s t d se o h hbody ho hown hf
    obtain ⟨v, x, hmoves, hfind, hnum, -, -, hheld, htx, hmsg⟩ := hostMessage_accepts h (actClaim d.seq)
    rw [hbody, actClaim_refused (hmoves.host.1.trans ho) ((hmoves.isOwner _ _).trans hown)] at hmsg
    have hall := (hmoves.trans (moves_sendSeq v x.num 0x61 (nackBody d.seq 0x01 7 0 0 o.1) false none)).trans
      (sends_sendAck _ se.num).moves
    rw [← hmsg] at hall
    obtain ⟨howner, hlease, helection, -, -, -⟩ := hall.host
    refine ⟨_, rfl, helection, howner.trans ho, hlease, ?_⟩
    rw [hmsg]
    exact queued_nack hfind hnum hheld htx hf _ _
  case closes =>
    intro s t e w rest se he hdue hl hs hf
    have hnum : se.num = w.1 := findSess_num hs
    have hexec := exec_electionClose (t := t) he hdue
    rw [closeElection_won (s := atMt s t) hl hs] at hexec
    have hs' : findSess (modHost (atMt s t) fun h => { h with election := none }) .host se.num = some se := hnum ▸ hs
    obtain ⟨kowner, klease, kelection, know, kqueued⟩ := grantBridle_what hs' 0
    obtain ⟨howner, hlease, helection, hnow, -, -⟩ := (moves_foldNack rest (grantBridle (modHost (atMt s t)
      fun h => { h with election := none }) se 0) w.1).host
    refine ⟨_, hexec, helection.trans kelection, howner.trans kowner, ?_, ?_⟩
    · rw [hlease, klease, hnow, know]
    · rintro rfl
      obtain ⟨y, q, hy, hsolid⟩ := kqueued hf
      rw [hnow, know]
      exact hsolid.queued hy

/-! ## The lease, release and transfer (R338, R339) -/

theorem ownerOnly_owner {typ : Nat} (act : State → State) (h : isOwner v x.num x.gen = true) : ownerOnly typ q v x act = act v :=
  if_pos h

theorem actRenew_owner (h : isOwner v x.num x.gen = true) : actRenew q v x [] = grantBridle v x 1 := ownerOnly_owner _ h

theorem exec_leaseExpiry (ho : s.host.owner = some o) (hdue : s.host.leaseEnd < max (now s) t) :
    exec (.leaseExpiry t) s = .next (post (vacateBridle (atMt s t)) { code := 0x0050, params := [o.1] }) := by
  have hdue' : (atMt s t).host.leaseEnd < now (atMt s t) := hdue
  show execLeaseExpiry t s = _
  unfold execLeaseExpiry
  dsimp only
  rw [show (atMt s t).host.owner = some o from ho]
  exact if_pos hdue'

/-- The two fields of a release with no reserved byte set. -/
theorem release_fields (b : Byte) : leAt [b, 0, 0, 0, 0, 0, 0, 0] 0 1 = b.toNat ∧ leAt [b, 0, 0, 0, 0, 0, 0, 0] 1 7 = 0 := by
  simp [leAt, leNat]

theorem actRelease_vacates (h : isOwner v x.num x.gen = true) : actRelease q v x [0xFF, 0, 0, 0, 0, 0, 0, 0] = vacateBridle v :=
  ownerOnly_owner _ h

theorem actRelease_transfers {b : Byte} {y : Session} (h : isOwner v x.num x.gen = true) (hb : b ≠ 0xFF) (hself : b.toNat ≠ x.num)
    (hy : findSess v .host b.toNat = some y) :
    actRelease q v x [b, 0, 0, 0, 0, 0, 0, 0] = grantBridle (vacateBridle v) y 2 := by
  have hff : b.toNat ≠ 0xFF := fun h => hb (BitVec.eq_of_toNat_eq h)
  obtain ⟨hfirst, hrest⟩ := release_fields b
  unfold actRelease
  rw [ownerOnly_owner _ h]
  dsimp only
  rw [if_neg (by simp), hrest, if_neg (by simp), hfirst, if_neg hff, if_neg hself, hy]

/-- A grant names its session owner with a fresh lease, whatever the session table holds. -/
theorem grantBridle_owner (s : State) (y : Session) (c : Nat) : (grantBridle s y c).host.owner = some (y.num, y.gen) ∧
    (grantBridle s y c).host.leaseEnd = now s + 5000000000 ∧ now (grantBridle s y c) = now s := by
  obtain ⟨howner, hlease, -, hnow, -, -⟩ := (moves_sendSeq (modHost s fun h =>
    { h with owner := some (y.num, y.gen), leaseEnd := now s + 5000000000 }) y.num 0x02 (grantBody y c (now s)) false none).host
  exact ⟨howner, hlease, hnow⟩

/-- Settles O24: renewal and transfer by what a grant leaves, expiry and release by what vacating the bridle leaves. -/
theorem bridleLease : Obligations.BridleLease := by
  refine ⟨?renew, ?expiry, ?release, ?transfer⟩
  case renew =>
    intro s t d se h hbody hown hf
    obtain ⟨v, x, hmoves, hfind, hnum, hgen, -, hheld, htx, hmsg⟩ := hostMessage_accepts h (actRenew d.seq)
    have hown' : isOwner v x.num x.gen = true := by rw [hmoves.isOwner, hnum, hgen]; exact hown
    rw [hbody, actRenew_owner hown'] at hmsg
    have hfind' : findSess v .host x.num = some x := hnum ▸ hfind
    obtain ⟨kowner, klease, -, know, kqueued⟩ := grantBridle_what hfind' 1
    obtain ⟨howner, hlease, -, hnow⟩ := sendAck_bridle (grantBridle v x 1) se.num
    obtain ⟨y, q, hy, hsolid⟩ := kqueued (by unfold FreshSeq; rw [hheld, htx]; exact hf)
    have hu : hostMessage (atMt s t) d 0x04 (actRenew d.seq) = _ := hmsg
    refine ⟨_, rfl, ?_, ?_, ?_⟩ <;> rw [hu]
    · rw [howner, kowner, hnum, hgen]
    · rw [hlease, klease, hnow, know]
    · rw [hnow, know, ← grantBody_of_same hnum hgen, ← hnum]
      exact queued_ack _ hy hsolid
  case expiry =>
    intro s t o ho hdue
    obtain ⟨kowner, klease, -, kpdk, ksess, -⟩ := vacateBridle_what (atMt s t)
    refine ⟨_, exec_leaseExpiry ho hdue, ?_, ?_, ?_, fun hroom => posted_one kpdk hroom⟩
    · rw [post_host, kowner]
    · rw [post_host, klease]
      rfl
    · rw [post_host, ksess]
      rfl
  case release =>
    intro s t d se h hbody hown
    obtain ⟨v, x, hmoves, -, hnum, hgen, -, -, -, hmsg⟩ := hostMessage_accepts h (actRelease d.seq)
    have hown' : isOwner v x.num x.gen = true := by rw [hmoves.isOwner, hnum, hgen]; exact hown
    rw [hbody, actRelease_vacates hown'] at hmsg
    refine ⟨_, rfl, ?_⟩
    show (hostMessage _ _ _ _).host.owner = none
    rw [hmsg, (sendAck_bridle _ _).1]
    exact (vacateBridle_what v).1
  case transfer =>
    intro s t d se x b h hbody hb hself hown hx
    obtain ⟨v, y, hmoves, -, hnum, hgen, -, -, -, hmsg⟩ := hostMessage_accepts h (actRelease d.seq)
    have hown' : isOwner v y.num y.gen = true := by rw [hmoves.isOwner, hnum, hgen]; exact hown
    obtain ⟨z, hz, hznum, hzgen, -, -⟩ := hmoves.sess _ _ hx
    rw [hbody, actRelease_transfers hown' hb (hnum ▸ hself) hz] at hmsg
    obtain ⟨kowner, klease, know⟩ := grantBridle_owner (vacateBridle v) z 2
    obtain ⟨howner, hlease, -, hnow⟩ := sendAck_bridle (grantBridle (vacateBridle v) z 2) se.num
    rw [← hmsg] at howner hlease hnow
    refine ⟨_, rfl, ?_, ?_⟩
    · exact howner.trans (by rw [kowner, hznum, hzgen])
    · exact hlease.trans (by rw [klease]; exact congrArg (· + 5000000000) (hnow.trans know).symm)

end Sys2Proof.Bridle
end

section
/-! SUPPORT. Opening and closing sessions of the host port (10 R323 to R328). -/

namespace Sys2Proof.HostSessions

open Sys2Proof Sys2Proof.Machine Sys2Proof.Safety Sys2Proof.Laws

variable {s v : State} {t n : Nat} {d : Datagram} {se : Session} {nonce : List Byte}

theorem not_not_true {b : Bool} (h : b = true) : ¬ (!b) = true := by simp [h]

/-! ## HELLO (R324) -/

/-- The HELLOs answered within the last second. -/
def recentHellos (s : State) : List Nat := s.host.helloTimes.filter fun x => decide (now s < x + 2500000000)

/-- The state in which a HELLO is answered: counted, timed, and its nonce held. -/
def helloTaken (s : State) (nonce : List Byte) : State :=
  modHost (countRx s .host) fun h => { h with helloTimes := now s :: recentHellos s
                                              nonces := (nonce, now s) :: (freshNonces (now s) h.nonces).take 255 }

theorem exec_keyInitHello (hup : linkUp s .host = true) (hopen : openCheck (atMt s t) .host d 0x70 = 0)
    (hready : isReady s = true) (hok : keyInitOk d 0 36 = true) (hkey : keyValid s (leAt d.body 1 1) = true)
    (hfew : (recentHellos (atMt s t)).length < 1000) :
    exec (.keyInitHello t d nonce) s = .next (sendHelloParts (helloTaken (atMt s t) nonce) .host nonce) := by
  have hup' : ¬ (!linkUp (atMt s t) .host) = true := not_not_true hup
  have hopen' : ¬ openCheck (countRx (atMt s t) .host) .host d 0x70 ≠ 0 := not_not.mpr hopen
  have hready' : ¬ (!isReady (countRx (atMt s t) .host)) = true := not_not_true hready
  have hkey' : keyValid (countRx (atMt s t) .host) (leAt d.body 1 1) = true := hkey
  have hbody : ¬ (!keyInitOk d 0 36 || !keyValid (countRx (atMt s t) .host) (leAt d.body 1 1)) = true := by
    simp [hok, hkey']
  exact (if_neg hup').trans <| (if_neg hopen').trans <| (if_neg hready').trans <| (if_neg hbody).trans <|
    if_neg (Nat.not_le.mpr hfew)

/-! ## ENCAP (R323, R327) -/

/-- The fields of an ENCAP body. -/
def encapNonce (d : Datagram) : List Byte := (d.body.drop 36).take 32

def encapText (d : Datagram) : List Byte := (d.body.drop 68).take 1088

/-- The digest an ENCAP signs. -/
def encapTranscript (s : State) (d : Datagram) : List Byte :=
  transcript s ((d.body.drop 4).take 32) (encapNonce d) (leAt d.body 1 1) (leAt d.body 2 1) (encapText d)

/-- The state in which an ENCAP's nonce has been used. -/
def nonceUsed (s : State) (d : Datagram) : State :=
  modHost (countRx s .host) fun h => { h with nonces := h.nonces.filter fun e => e.1 != encapNonce d }

/-- The session an ENCAP opens. -/
def openedSession (s : State) (d : Datagram) (num : Nat) : Session :=
  withKeys { num := num, gen := (s.host.genCount + 1) % 2 ^ 32, key := leAt d.body 1 1, enc := leAt d.body 2 1 == 1, lastRx := now s }
    (deriveKeys (Config.mlKemDecap s.sec.kemSeed (encapText d)) (encapTranscript s d))

/-- The state in which it is open, before its confirmation goes out. -/
def sessionOpened (s : State) (d : Datagram) (num : Nat) : State :=
  modHost (nonceUsed s d) fun h => { h with sessions := h.sessions ++ [openedSession s d num], lastNum := num
                                            genCount := (s.host.genCount + 1) % 2 ^ 32 }

/-- The answer that confirms it. -/
def confirmBody (s : State) (d : Datagram) (num : Nat) : List Byte :=
  leBytes 1 1 ++ leBytes 1 0 ++ leBytes 1 num ++ leBytes 1 0 ++ leBytes 4 ((s.host.genCount + 1) % 2 ^ 32) ++
    Config.kmac256 32 (openedSession s d num).tagTx (encapTranscript s d) "IMP-CONFIRM"

/-- Whether an ENCAP's signature holds. -/
def encapSigned (s : State) (d : Datagram) : Bool :=
  Config.mlDsaVerify (keyPublic s (leAt d.body 1 1)) (encapTranscript s d) ((d.body.drop 1156).take 3309) "IMP-KEY_INIT"

section Encap

variable (hup : linkUp s .host = true) (hopen : openCheck (atMt s t) .host d 0x70 = 0) (hready : isReady s = true)
  (hok : keyInitOk d 1 4465 = true) (hkey : keyValid s (leAt d.body 1 1) = true)
  (hnonce : ((freshNonces (max (now s) t) s.host.nonces).any fun e => e.1 == encapNonce d) = true)
include hup hopen hready hok hkey hnonce

/-- The checks of an ENCAP before its signature, in their order. -/
theorem encap_checks : ¬ (!linkUp (atMt s t) .host) = true ∧ ¬ openCheck (countRx (atMt s t) .host) .host d 0x70 ≠ 0 ∧
    ¬ (!isReady (countRx (atMt s t) .host)) = true ∧
    ¬ (!keyInitOk d 1 4465 || !keyValid (countRx (atMt s t) .host) (leAt d.body 1 1)) = true ∧
    ¬ (!((freshNonces (now (countRx (atMt s t) .host)) (countRx (atMt s t) .host).host.nonces).any
      fun e => e.1 == encapNonce d)) = true := by
  have hkey' : keyValid (countRx (atMt s t) .host) (leAt d.body 1 1) = true := hkey
  exact ⟨not_not_true hup, not_not.mpr hopen, not_not_true hready, by simp [hok, hkey'], not_not_true hnonce⟩

theorem exec_keyInitEncap_unsigned (hsig : encapSigned s d = false) :
    exec (.keyInitEncap t d) s = .next (sendOpen (nonceUsed (atMt s t) d) .host 0x71 (encapError 1 2)) := by
  obtain ⟨hup', hopen', hready', hbody, hnonce'⟩ := encap_checks hup hopen hready hok hkey hnonce
  have hsig' : (!encapSigned (nonceUsed (atMt s t) d) d) = true := by
    rw [show encapSigned (nonceUsed (atMt s t) d) d = encapSigned s d from rfl, hsig]
    rfl
  exact (if_neg hup').trans <| (if_neg hopen').trans <| (if_neg hready').trans <| (if_neg hbody).trans <|
    (if_neg hnonce').trans <| if_pos hsig'

theorem exec_keyInitEncap_signed {num : Nat} (hsig : encapSigned s d = true) (hold : ∀ x ∈ s.host.sessions, x.key ≠ leAt d.body 1 1)
    (hroom : s.host.sessions.length < 64) (hnum : freeNumber s = some num) : exec (.keyInitEncap t d) s =
      .next (sendPlain (sessionOpened (atMt s t) d num) .host num 0x71 (confirmBody (atMt s t) d num) false) := by
  obtain ⟨hup', hopen', hready', hbody, hnonce'⟩ := encap_checks hup hopen hready hok hkey hnonce
  have hsig' : ¬ (!encapSigned (nonceUsed (atMt s t) d) d) = true := not_not_true hsig
  have hnone : (nonceUsed (atMt s t) d).host.sessions.filter (fun x => x.key == leAt d.body 1 1) = [] :=
    List.filter_eq_nil_iff.mpr fun x hx => by simpa using hold x hx
  have hnum' : freeNumber (nonceUsed (atMt s t) d) = some num := hnum
  refine (if_neg hup').trans <| (if_neg hopen').trans <| (if_neg hready').trans <| (if_neg hbody).trans <|
    (if_neg hnonce').trans <| (if_neg hsig').trans ?_
  rw [show List.filter (fun x : Session => x.key == leAt d.body 1 1) (modHost (countRx (atMt s t) .host) fun h =>
      { h with nonces := h.nonces.filter fun e => e.1 != (d.body.drop 36).take 32 }).host.sessions = [] from hnone]
  refine (if_neg ?_).trans ?_
  · rw [Bool.and_eq_true, decide_eq_true_eq]
    exact fun h => absurd hroom (Nat.not_lt.mpr h.2)
  · show (match freeNumber (nonceUsed (atMt s t) d) with | none => _ | some num => _ : Host.Outcome State Fault Refusal) = _
    rw [hnum']
    rfl

end Encap

theorem find_append_new {l : List Session} {x : Session} (h : ∀ y ∈ l, y.num ≠ x.num) :
    (l ++ [x]).find? (fun y => y.num == x.num) = some x := by
  rw [List.find?_append, List.find?_eq_none.mpr fun y hy => by simpa using h y hy]
  simp

/-- No open session bears the free number. -/
theorem freeNumber_free (h : freeNumber s = some n) : ∀ x ∈ s.host.sessions, x.num ≠ n := by
  have := List.find?_some h
  simpa using this

theorem sendPlain_up (hse : findSess s .host n = some se) (hup : linkUp s .host = true) (typ : Nat) (body : List Byte) (r : Bool) :
    sendPlain s .host n typ body r = transmit s .host se typ body false r 0 (now s) := by
  unfold sendPlain
  rw [hse]
  exact if_pos hup

/-! ## CLOSE and the idle timeout (R328) -/

theorem exec_keyInitClose (h : LinkAccepts (atMt s t) .host d 0x70 se) (hop : leAt (plainBody se d) 0 1 = 2) :
    ∃ v x, exec (.keyInitClose t d) s = .next (closeSession v se.num) ∧ findSess v .host se.num = some x ∧ x.num = se.num ∧
      x.gen = se.gen ∧ v.host.owner = s.host.owner := by
  obtain ⟨x, hrec, hx⟩ := receive_plain h
  have hnum : x.num = se.num := by rw [hx]
  have hgen : x.gen = se.gen := by rw [hx]
  have hfind : findSess (putSess (countRx (atMt s t) .host) .host x) .host se.num = some x := by
    have hse : findSess (countRx (atMt s t) .host) .host x.num = some se := by
      rw [hnum, ← accepts_num h rfl]
      exact h.2.2
    exact hnum ▸ findSess_putSess hse
  have hsends := sends_sendPlain (putSess (countRx (atMt s t) .host) .host x) se.num 0x71
    (leBytes 1 2 ++ leBytes 1 0 ++ leBytes 1 se.num ++ leBytes 1 0 ++ leBytes 4 se.gen) false
  obtain ⟨y, hy, hsame⟩ := hsends.sess _ _ hfind
  refine ⟨_, y, ?_, hy, hsame.num.trans hnum, hsame.gen.trans hgen, hsends.moves.host.1⟩
  show execKeyInitClose t d s = _
  unfold execKeyInitClose
  rw [hrec]
  dsimp only
  rw [if_pos hop, hnum, hgen]

theorem exec_sessionIdleTimeout (hse : findSess s .host n = some se) (hidle : se.lastRx + 12500000000 ≤ max (now s) t) :
    exec (.sessionIdleTimeout t n) s = .next (closeSession (atMt s t) n) := by
  have hidle' : se.lastRx + 12500000000 ≤ now (atMt s t) := hidle
  show execSessionIdleTimeout t n s = _
  unfold execSessionIdleTimeout
  dsimp only
  rw [show findSess (atMt s t) .host n = some se from hse]
  exact if_pos hidle'

/-- Settles O25: the answer to each key message by the state it leaves before its replies, which only send. -/
theorem hostSessions : Obligations.HostSessions := by
  refine ⟨?hello, ?encap, ?close, ?idle⟩
  case hello =>
    intro s t d nonce hup hopen hready hok hkey hfew
    obtain ⟨hlen, hsess, hsends⟩ := fold_sendOpen (helloParts nonce (bundleBytes s) 0 0
      (max 1 (ceilDiv (bundleBytes s).length 8192)) (max 1 (ceilDiv (bundleBytes s).length 8192))) (helloTaken (atMt s t) nonce) hup
    obtain ⟨hnonces, -, -, -, hnow⟩ := hsends.fields
    refine ⟨_, exec_keyInitHello hup hopen hready hok hkey hfew, ?_, hsess, hlen.trans ?_⟩
    · refine hnonces.trans ?_
      rw [show now (sendHelloParts (helloTaken (atMt s t) nonce) .host nonce) = now (atMt s t) from hnow]
      rfl
    · rw [helloParts_length]
      rfl
  case encap =>
    intro s t d ki tr hup hopen hready hok hki hkey hnonce hold hroom hfree htr
    subst hki
    obtain rfl : tr = encapTranscript s d := htr
    cases hsig : encapSigned s d with
    | false =>
      obtain ⟨-, hsess, -⟩ := sendOpen_sent (nonceUsed (atMt s t) d) 0x71 (encapError 1 2) hup
      obtain ⟨hnonces, -, hgen, -, -⟩ := (sends_sendOpen (nonceUsed (atMt s t) d) 0x71 (encapError 1 2)).fields
      refine ⟨_, exec_keyInitEncap_unsigned hup hopen hready hok hkey hnonce hsig, hnonces, ?_⟩
      show if encapSigned s d = true then _ else _
      rw [if_neg (ne_true_of_eq_false hsig)]
      exact ⟨hsess, hgen⟩
    | true =>
      obtain ⟨num, hnum⟩ := Option.isSome_iff_exists.mp hfree
      have hfind : findSess (sessionOpened (atMt s t) d num) .host num = some (openedSession (atMt s t) d num) :=
        find_append_new (x := openedSession (atMt s t) d num) (freeNumber_free hnum)
      have hexec := exec_keyInitEncap_signed (t := t) hup hopen hready hok hkey hnonce hsig hold hroom hnum
      rw [sendPlain_up hfind hup] at hexec
      have hsent := findSess_tx (se := openedSession (atMt s t) d num) hfind (fun _ => rfl) 0x71 (confirmBody (atMt s t) d num) false false 0
        (now (sessionOpened (atMt s t) d num))
      obtain ⟨hnonces, -, hgen, hlast, -⟩ := (sends_transmit (se := openedSession (atMt s t) d num) hfind (.refl _) 0x71
        (confirmBody (atMt s t) d num) false false 0 (now (sessionOpened (atMt s t) d num))).fields
      generalize transmit (sessionOpened (atMt s t) d num) .host _ _ _ _ _ _ _ = u at hexec hsent hnonces hgen hlast
      have hlast' : u.host.lastNum = num := hlast
      refine ⟨u, hexec, hnonces, ?_⟩
      show if encapSigned s d = true then _ else _
      rw [if_pos hsig]
      refine ⟨hgen, by rw [hlast', hnum], _, by rw [hlast']; exact hsent, rfl, hgen.symm, rfl, fun k hk => ?_⟩
      subst hk
      exact ⟨rfl, rfl, rfl, rfl⟩
  case close =>
    intro s t d se h hop
    obtain ⟨v, x, hexec, hfind, hnum, hgen, howner⟩ := exec_keyInitClose h hop
    obtain ⟨hgone, hvacant⟩ := closeSession_what v se.num
    exact ⟨_, hexec, hgone, fun ho => hvacant x hfind (by rw [howner, ho, hnum, hgen])⟩
  case idle =>
    intro s t n se hse hidle
    obtain ⟨hgone, hvacant⟩ := closeSession_what (atMt s t) n
    exact ⟨_, exec_sessionIdleTimeout hse hidle, hgone, fun ho => hvacant se hse ho⟩

end Sys2Proof.HostSessions
end

section
/-! SUPPORT. Reliable delivery on a session (10 R319 to R322): acknowledgements, PING, repeats, messages given up, and the
notices that go to the owner. -/

namespace Sys2Proof.Delivery

open Sys2Proof Sys2Proof.Machine Sys2Proof.Safety Sys2Proof.Laws

variable {s v : State} {t n q : Nat} {lk : Link} {d : Datagram} {se x : Session} {h : Held}

/-! ## What a received message finds -/

/-- The state in which a message has been taken in: counted, and its session's receive side brought up to date. -/
def taken (s : State) (t : Nat) (lk : Link) (x : Session) : State := putSess (countRx (atMt s t) lk) lk x

theorem findSess_taken (h : findSess (atMt s t) lk d.session = some se) (hx : x.num = se.num) :
    findSess (taken s t lk x) lk se.num = some x := by
  have hnum : lk = .host → d.session = se.num := fun hl => (host_num h hl).symm
  have hfind : findSess (countRx (atMt s t) lk) lk se.num = some se := by
    rw [countRx, findSess_ctr, ← find_num hnum]
    exact h
  exact findSess_put hfind fun _ => hx

theorem now_taken (s : State) (t : Nat) (lk : Link) (x : Session) : now (taken s t lk x) = now (atMt s t) := by
  rw [taken, now_put, countRx, now_ctr]

theorem sent_taken (s : State) (t : Nat) (lk : Link) (x : Session) : (taken s t lk x).host.sent = s.host.sent := by
  rw [taken, sent_put, countRx, sent_ctr]
  rfl

theorem linkUp_taken (s : State) (t : Nat) (lk : Link) (x : Session) : linkUp (taken s t lk x) lk = linkUp (atMt s t) lk := by
  rw [taken, linkUp_put, countRx, linkUp_ctr]

theorem modSess_found (hx : findSess s lk n = some x) (f : Session → Session) : modSess s lk n f = putSess s lk (f x) := by
  unfold modSess
  rw [hx]

theorem returned_put (s : State) (lk : Link) (x : Session) : (putSess s lk x).host.returned = s.host.returned := by
  cases lk <;> rfl

theorem isOwner_put (s : State) (lk : Link) (x : Session) (n g : Nat) : isOwner (putSess s lk x) n g = isOwner s n g := by
  cases lk <;> rfl

/-! ## Acknowledgements and PING -/

theorem exec_ack (ha : LinkAccepts (atMt s t) lk d 0x60 se) : ∃ x, x.num = se.num ∧ x.held = se.held ∧
    findSess (taken s t lk x) lk se.num = some x ∧ exec (.ack t lk d) s =
      .next (flushHeld (putSess (taken s t lk x) lk (takeAck (now (atMt s t)) (plainBody se d) x)) lk se.num 4096) := by
  obtain ⟨x, hrec, hx⟩ := receive_plain ha
  have hnum : x.num = se.num := by rw [hx]
  have hfind := findSess_taken ha.2.2 hnum
  refine ⟨x, hnum, by rw [hx], hfind, ?_⟩
  show execAck t lk d s = _
  unfold execAck
  rw [hrec]
  dsimp only
  rw [hnum, modSess_found (show findSess (putSess (countRx (atMt s t) lk) lk x) lk se.num = some x from hfind),
    show now (putSess (countRx (atMt s t) lk) lk x) = now (atMt s t) from now_taken s t lk x]
  rfl

theorem exec_ping (ha : LinkAccepts (atMt s t) lk d 0x7F se) (hr : d.response = false) (hlen : (plainBody se d).length = 8) :
    ∃ x, x.num = se.num ∧ x.gen = se.gen ∧ x.enc = se.enc ∧ exec (.ping t lk d) s =
      .next (transmit (taken s t lk x) lk x 0x7F (plainBody se d) false true 0 (now (atMt s t))) := by
  obtain ⟨x, hrec, hx⟩ := receive_plain ha
  have hnum : x.num = se.num := by rw [hx]
  have hfind := findSess_taken ha.2.2 hnum
  have hup : linkUp (taken s t lk x) lk = true := (linkUp_taken s t lk x).trans ha.1
  have hsend : sendPlain (taken s t lk x) lk se.num 0x7F (plainBody se d) true =
      transmit (taken s t lk x) lk x 0x7F (plainBody se d) false true 0 (now (atMt s t)) := by
    unfold sendPlain
    rw [hfind, ← now_taken s t lk x]
    exact if_pos hup
  refine ⟨x, hnum, by rw [hx], by rw [hx], ?_⟩
  show execPing t lk d s = _
  unfold execPing
  rw [hrec]
  dsimp only
  rw [if_neg (by simp [hr, hlen]), hnum]
  exact congrArg _ hsend

/-! ## Repeats and messages given up -/

/-- A message sent once more: its timeout doubles up to 2 ms (R320). -/
def again (h : Held) (m : Nat) : Held := { h with lastTx := m, timeout := min 5000000 (2 * h.timeout), tries := h.tries + 1 }

/-- Its session afterwards. -/
def repeated (se : Session) (q : Nat) (h : Held) (m : Nat) : Session :=
  { se with held := se.held.map fun x => if x.seq = q then again h m else x }

/-- A session without a message it gave up (R321). -/
def abandoned (se : Session) (q : Nat) : Session :=
  { se with held := se.held.filter fun x => x.seq != q
            txLow := sessLow { se with held := se.held.filter fun x => x.seq != q } }

section Held

variable (hse : findSess s lk n = some se) (hh : (se.held.find? fun h => h.seq == q && h.tries != 0) = some h)
include hse hh

theorem exec_retransmitTimeout (hup : linkUp s lk = true) (hdue : h.lastTx + h.timeout ≤ max (now s) t) :
    exec (.retransmitTimeout t lk n q) s =
      .next (transmit (putSess (atMt s t) lk (repeated se q h (now (atMt s t)))) lk (repeated se q h (now (atMt s t)))
        h.typ h.body h.repeatBit false q h.firstTx) := by
  have hcond : (linkUp (atMt s t) lk && decide (h.lastTx + h.timeout ≤ now (atMt s t))) = true := by
    rw [show linkUp (atMt s t) lk = linkUp s lk by cases lk <;> rfl, hup]
    simpa using hdue
  show execRetransmitTimeout t lk n q s = _
  unfold execRetransmitTimeout
  dsimp only
  rw [show findSess (atMt s t) lk n = some se by rw [← hse]; cases lk <;> rfl]
  dsimp only
  rw [hh]
  exact if_pos hcond

theorem exec_messageAbandon (hold : h.firstTx + ageLimit lk ≤ max (now s) t)
    (hown : ∀ i, h.notice = some i → isOwner (atMt s t) se.num se.gen = false) :
    ∃ v, exec (.messageAbandon t lk n q) s = .next (flushHeld v lk n 4096) ∧
      findSess v lk n = findSess (putSess (atMt s t) lk (abandoned se q)) lk n ∧
      v.host.returned = s.host.returned ++ h.notice.toList := by
  have hcond : h.firstTx + ageLimit lk ≤ now (atMt s t) := hold
  have hret : (putSess (atMt s t) lk (abandoned se q)).host.returned = s.host.returned := returned_put _ _ _
  have hexec : exec (.messageAbandon t lk n q) s = .next (flushHeld (match h.notice with
      | none => putSess (atMt s t) lk (abandoned se q)
      | some i => if isOwner (putSess (atMt s t) lk (abandoned se q)) se.num se.gen then
          sendNotice (putSess (atMt s t) lk (abandoned se q)) se.num (i.1 / 4096) (i.1 % 4096) i.2 true
        else modHost (putSess (atMt s t) lk (abandoned se q)) fun x => { x with returned := x.returned ++ [i] }) lk n 4096) := by
    show execMessageAbandon t lk n q s = _
    unfold execMessageAbandon
    dsimp only
    rw [show findSess (atMt s t) lk n = some se by rw [← hse]; cases lk <;> rfl]
    dsimp only
    rw [hh]
    exact if_pos hcond
  cases hn : h.notice with
  | none =>
    rw [hn] at hexec
    exact ⟨_, hexec, rfl, by rw [hret]; simp⟩
  | some i =>
    rw [hn] at hexec
    dsimp only at hexec
    rw [if_neg (by rw [isOwner_put, hown i hn]; simp)] at hexec
    refine ⟨_, hexec, by cases lk <;> rfl, ?_⟩
    show (putSess (atMt s t) lk (abandoned se q)).host.returned ++ [i] = _
    rw [hret]
    rfl

end Held

/-- Settles O26: each message of a session by the session it leaves; what goes out again is held as before. -/
theorem sessionTraffic : Obligations.SessionTraffic := by
  refine ⟨?ack, ?ping, ?again, ?abandon⟩
  case ack =>
    intro s t lk d se ha
    obtain ⟨x, hnum, hheld, hfind, hexec⟩ := exec_ack ha
    obtain ⟨hnum', hheld'⟩ := takeAck_what (now (atMt s t)) (plainBody se d) x
    have hfind' := findSess_put (se := takeAck (now (atMt s t)) (plainBody se d) x) hfind fun _ => hnum'.trans hnum
    obtain ⟨⟨y, hy, hseqs⟩, -⟩ := flush_held _ lk se.num 4096 _ hfind' fun _ => hnum'.trans hnum
    exact ⟨_, hexec, y, hy, by rw [hseqs, hheld', hheld]⟩
  case ping =>
    intro s t lk d se ha hr hlen
    obtain ⟨x, hnum, hgen, henc, hexec⟩ := exec_ping ha hr hlen
    obtain ⟨hnow, low, y, b, tag, hsent, hbody⟩ := sent_tx (taken s t lk x) lk x 0x7F (plainBody se d) false true 0 (now (atMt s t))
    refine ⟨_, hexec, low, now (atMt s t), y, b, tag, ?_, fun he => hbody (henc.trans he)⟩
    rw [hsent, hnow, sent_taken, hnum, hgen, henc]
  case again =>
    intro s t lk n q se h hse hh hup hdue
    have hse' : findSess (atMt s t) lk n = some se := by rw [← hse]; cases lk <;> rfl
    have hnum : lk = .host → (repeated se q h (now (atMt s t))).num = n := fun hl => (host_num hse hl : se.num = n)
    have hfind := findSess_tx (se := repeated se q h (now (atMt s t))) (findSess_put hse' hnum) hnum h.typ h.body h.repeatBit false q h.firstTx
    obtain ⟨hnow, low, y, b, tag, hsent, -⟩ := sent_tx (putSess (atMt s t) lk (repeated se q h (now (atMt s t)))) lk
      (repeated se q h (now (atMt s t))) h.typ h.body h.repeatBit false q h.firstTx
    refine ⟨_, exec_retransmitTimeout hse hh hup hdue, ⟨_, hfind, ?_⟩, ?_⟩
    · rw [hnow, now_put]
      rfl
    · rw [hsent, List.length_cons, sent_put]
      rfl
  case abandon =>
    intro s t lk n q se h hse hh hold hown
    obtain ⟨v, hexec, hv, hret⟩ := exec_messageAbandon hse hh hold hown
    have hse' : findSess (atMt s t) lk n = some se := by rw [← hse]; cases lk <;> rfl
    have hnum : lk = .host → (abandoned se q).num = n := fun hl => (host_num hse hl : se.num = n)
    obtain ⟨⟨y, hy, hseqs⟩, hret'⟩ := flush_held v lk n 4096 _ (hv.trans (findSess_put hse' hnum)) hnum
    exact ⟨_, hexec, ⟨y, hy, hseqs⟩, hret'.trans hret⟩

/-! ## Notices to the owner (R322) -/

section Owner

variable {p g : Nat} (ho : s.host.owner = some (n, g)) (hse : findSess s .host n = some se) (hown : isOwner (atMt s t) n g = true)
  (hq : ownerQueue p q = true) (hup : linkUp s .host = true) (hroom : se.held.length < 4096)
include ho hse hown hq hup hroom

/-- A notice the owner's session has room for is the one returned first, or else the front one of the queue. -/
theorem exec_noticeSend : exec (.noticeSend t p q) s =
    (match s.host.returned.find? fun i => i.1 == qKey p q with
      | some i => .next (sendNotice (modHost (atMt s t) fun h => { h with returned := h.returned.erase i }) n p q i.2 true)
      | none => match pdkItems s p q with
        | [] => .next (atMt s t)
        | it :: rest => .next (sendNotice (setQueue (atMt s t) p q rest) n p q it false)) := by
  have hup' : linkUp (atMt s t) .host = true := hup
  have hcond : ¬ (!ownerQueue p q || !isOwner (atMt s t) n g || !linkUp (atMt s t) .host || decide (se.held.length ≥ 4096)) = true := by
    simp [hq, hown, hup', hroom]
  show execNoticeSend t p q s = _
  unfold execNoticeSend
  dsimp only
  rw [show (atMt s t).host.owner = some (n, g) from ho]
  dsimp only
  rw [show findSess (atMt s t) .host n = some se from hse]
  exact if_neg hcond

end Owner

/-- What stands on a session after a notice was put on it. -/
theorem queued_sendNotice {p : Nat} {it : Item} {r : Bool} (hse : findSess s .host n = some se) (hf : FreshSeq se) :
    Queued (sendNotice s n p q it r) n (noticeType p q it) (noticeBody p q it) := by
  obtain ⟨y, hy, hsolid⟩ := queued_sendSeq hse hf (noticeType p q it) (noticeBody p q it) r (some (qKey p q, it))
  exact hsolid.queued hy

theorem moves_sendNotice (s : State) (n p q : Nat) (it : Item) (r : Bool) : Moves s (sendNotice s n p q it r) := moves_sendSeq _ _ _ _ _ _

/-- Settles O27: the notice chosen leaves its queue, or the list of those returned, for the owner's session. -/
theorem noticesToOwner : Obligations.NoticesToOwner := by
  refine ⟨?front, ?returned⟩
  case front =>
    intro s t p q n g se it rest ho hse hown hq hup hroom hf hnone hitems
    have hexec := exec_noticeSend (t := t) ho hse hown hq hup hroom
    rw [hnone, hitems] at hexec
    have hpdk := (moves_sendNotice (setQueue (atMt s t) p q rest) n p q it false).rest.2.1
    refine ⟨_, hexec, ?_, fun i j hij => ?_, queued_sendNotice hse hf⟩
    · unfold pdkItems
      rw [hpdk]
      exact pdkItems_setQueue _ _ _ _
    · unfold pdkItems
      rw [hpdk]
      exact pdkItems_setQueue_other (atMt s t) _ hij
  case returned =>
    intro s t p q n g se i ho hse hown hq hup hroom hf hsome
    have hexec := exec_noticeSend (t := t) ho hse hown hq hup hroom
    rw [hsome] at hexec
    have hmoves := moves_sendNotice (modHost (atMt s t) fun h => { h with returned := h.returned.erase i }) n p q i.2 true
    refine ⟨_, hexec, hmoves.rest.2.1, ?_, queued_sendNotice hse hf⟩
    rw [hmoves.eq]
    rfl

end Sys2Proof.Delivery
end

section
/-! SUPPORT. SUBMIT and ABORT, and what an owner's message answers to another session (10 R329 to R331, R336; 13 R424, R425);
METER_READ and ATTEST (14 R441, R448). -/

namespace Sys2Proof.UnitRequests

open Sys2Proof Sys2Proof.Machine Sys2Proof.Safety Sys2Proof.Laws

variable {s v : State} {t q n : Nat} {d : Datagram} {se x : Session} {b : List Byte}

/-! ## What receiving a message leaves -/

theorem idRefusal_moves (m : Moves s v) (wu e : Nat) : idRefusal v wu e = idRefusal s wu e := by
  rw [m.eq]
  rfl

theorem pdkFits_moves (m : Moves s v) (p q n : Nat) : pdkFits v p q n = pdkFits s p q n := by
  rw [m.eq]
  rfl

theorem findUnit_moves (m : Moves s v) (wu : Nat) : findUnit v wu = findUnit s wu := findUnit_disp (congrArg _ m.rest.1) wu

/-! ## SUBMIT (R329, R424) -/

theorem actSubmit_placed (hown : isOwner v x.num x.gen = true) (hlen : lengthRefusal b = none)
    (hid : idRefusal v (hWu b) (hEpoch b) = none) (hfit : pdkFits v 4 (hClass b) (cellsOfPayload b) = true) :
    actSubmit q v x b = placeChain v b := by
  unfold actSubmit
  dsimp only
  rw [if_neg (by simp [hown]), hlen]
  dsimp only
  rw [hid]
  exact if_pos hfit

theorem actSubmit_refused {r y : Nat} (hown : isOwner v x.num x.gen = true) (hlen : lengthRefusal b = none)
    (hid : idRefusal v (hWu b) (hEpoch b) = some (r, y)) :
    actSubmit q v x b = sendSeq v .host x.num 0x61 (nackBody q 0x10 r (hWu b) (hEpoch b) y) false none := by
  unfold actSubmit
  dsimp only
  rw [if_neg (by simp [hown]), hlen]
  dsimp only
  rw [hid]
  rfl

theorem actSubmit_rights (hown : isOwner v x.num x.gen = false) :
    actSubmit q v x b = sendSeq v .host x.num 0x61 (nackBody q 0x10 1 (hWu b) (hEpoch b) 0) false none :=
  if_pos (by simp [hown])

/-- An accepted chain stands at the back of its class's queue. -/
theorem pdkItems_placeChain (s : State) (b : List Byte) : ∃ it, pdkItems (placeChain s b) 4 (hClass b) =
    pdkItems s 4 (hClass b) ++ [it] ∧ it.payload = b ∧ it.wuId = hWu b ∧ it.epoch = hEpoch b :=
  ⟨_, pdkItems_pdkAppend s 4 (hClass b) _, rfl, rfl, rfl⟩

/-! ## ABORT (R330) -/

theorem actAbort_marks {y : WorkUnit} (hown : isOwner v x.num x.gen = true) (hlen : b.length = 8) (hzero : leAt b 5 3 = 0)
    (hy : findUnit v (leAt b 0 4) = some y) (hepoch : y.epoch = leAt b 4 1) (hd : y.decided = false) :
    actAbort q v x b = addCause v (leAt b 0 4) reasonOwnerAbort resNone := by
  unfold actAbort
  dsimp only
  rw [if_neg (by simp [hown]), if_neg (by simp [hlen]), if_neg (by simp [hzero]), hy]
  dsimp only
  rw [if_pos hepoch]
  exact if_neg (ne_true_of_eq_false hd)

theorem actAbort_rights (hown : isOwner v x.num x.gen = false) :
    actAbort q v x b = sendSeq v .host x.num 0x61 (nackBody q 0x13 1 (leAt b 0 4) (leAt b 4 1) 0) false none :=
  if_pos (by simp [hown])

/-- A cause of one unit, as a cause of every unit of that name. -/
theorem addCause_units (s : State) (wu reason res : Nat) :
    (addCause s wu reason res).disp.units = (addCauses s (fun w => w.wuId == wu) reason res).disp.units :=
  List.map_congr_left fun w _ => if_congr (beq_iff_eq (a := w.wuId) (b := wu)).symm rfl rfl

/-! ## Rights (R336) -/

theorem ownerOnly_rights {typ : Nat} (act : State → State) (h : isOwner v x.num x.gen = false) :
    ownerOnly typ q v x act = sendSeq v .host x.num 0x61 (nackBody q typ 1 0 0 0) false none := if_neg (ne_true_of_eq_false h)

/-- What another session's message that only an owner may send leaves of the bridle, and its answer. -/
theorem refused_bridle {typ : Nat} {act : State → Session → List Byte → State} (h : HostAccepts (atMt s t) d typ se)
    (hown : isOwner (atMt s t) se.num se.gen = false) (hf : FreshSeq se)
    (ha : ∀ v x b, isOwner v x.num x.gen = false → act v x b = sendSeq v .host x.num 0x61 (nackBody d.seq typ 1 0 0 0) false none) :
    (hostMessage (atMt s t) d typ act).host.owner = s.host.owner ∧ (hostMessage (atMt s t) d typ act).host.leaseEnd = s.host.leaseEnd ∧
    Queued (hostMessage (atMt s t) d typ act) se.num 0x61 (nackBody d.seq typ 1 0 0 0) := by
  obtain ⟨hmoves, hqueued⟩ := ownerOnly_refuse h hown hf act (fun _ => 0) (fun _ => 0) ha
  exact ⟨hmoves.host.1, hmoves.host.2.1, hqueued⟩

/-- Settles O28: an accepted message by what its action leaves, a refused one by its NACK. -/
theorem unitRequests : Obligations.UnitRequests := by
  refine ⟨?placed, ?refused, ?abort, ?rights⟩
  case placed =>
    intro s t d se b h hb hown hlen hid hfit
    obtain ⟨v, x, hmoves, -, hnum, hgen, -, -, -, hmsg⟩ := hostMessage_accepts h (actSubmit d.seq)
    rw [← hb, actSubmit_placed (by rw [hmoves.isOwner, hnum, hgen]; exact hown) hlen ((idRefusal_moves hmoves _ _).trans hid)
      ((pdkFits_moves hmoves _ _ _).trans hfit)] at hmsg
    obtain ⟨hdisp, hpdk, -⟩ := hmoves.rest
    have hack := (sends_sendAck (placeChain v b) se.num).moves
    rw [← hmsg] at hack
    obtain ⟨kdisp, kpdk, -⟩ := hack.rest
    obtain ⟨it, hitems, hpay, hwu, hep⟩ := pdkItems_placeChain v b
    refine ⟨_, rfl, ?_, ?_, ?_, ⟨it, ?_, hpay, hwu, hep⟩, ?_⟩
    · rw [kdisp]
      show v.disp.units ++ [_] = _
      rw [hdisp, show (pdkAppend v 4 (hClass b) _).disp = v.disp from rfl, hdisp]
      rfl
    · rw [kdisp]
      exact congrArg (fun y : Dispatcher => y.arrivalNext + 1) hdisp
    · rw [kdisp]
      exact congrArg (fun y : Dispatcher => y.retired.filter fun e => e.wuId != hWu b) hdisp
    · rw [show pdkItems s 4 (hClass b) = pdkItems v 4 (hClass b) by unfold pdkItems; rw [hpdk]; rfl, ← hitems]
      unfold pdkItems
      rw [kpdk]
    · rw [hack.meter.1, hack.host.2.2.2.1]
      exact congrArg (· ++ [_]) hmoves.meter.1
  case refused =>
    intro s t d se b r y h hb hown hlen hid hf
    obtain ⟨v, x, hmoves, hfind, hnum, hgen, -, hheld, htx, hmsg⟩ := hostMessage_accepts h (actSubmit d.seq)
    rw [← hb, actSubmit_refused (by rw [hmoves.isOwner, hnum, hgen]; exact hown) hlen ((idRefusal_moves hmoves _ _).trans hid)] at hmsg
    have hall := (hmoves.trans (moves_sendSeq v x.num 0x61 (nackBody d.seq 0x10 r (hWu b) (hEpoch b) y) false none)).trans
      (sends_sendAck _ se.num).moves
    have hqueued := queued_nack hfind hnum hheld htx hf 0x61 (nackBody d.seq 0x10 r (hWu b) (hEpoch b) y)
    rw [← hmsg] at hall hqueued
    exact ⟨_, rfl, hall.rest.1, hall.rest.2.1, hqueued⟩
  case abort =>
    intro s t d se b y h hb hown hlen hzero hy hepoch hd
    obtain ⟨v, x, hmoves, -, hnum, hgen, -, -, -, hmsg⟩ := hostMessage_accepts h (actAbort d.seq)
    rw [← hb, actAbort_marks (by rw [hmoves.isOwner, hnum, hgen]; exact hown) hlen hzero ((findUnit_moves hmoves _).trans hy)
      hepoch hd] at hmsg
    have hack := (sends_sendAck (addCause v (leAt b 0 4) reasonOwnerAbort resNone) se.num).moves
    rw [← hmsg] at hack
    refine ⟨_, rfl, marked_of (v := v) (congrArg _ hmoves.rest.1) ?_ hack.host.2.2.2.1, hack.rest.2.1.trans hmoves.rest.2.1⟩
    rw [hack.rest.1, addCause_units]
  case rights =>
    intro s t d se typ h hown hf
    refine ⟨fun c hc htyp => ?_, fun htyp => ?_, fun htyp => ?_⟩
    · simp only [List.mem_cons, List.not_mem_nil, or_false] at hc
      obtain rfl | rfl := hc
      · subst htyp
        exact ⟨_, rfl, refused_bridle h hown hf fun v x b hv => ownerOnly_rights _ hv⟩
      · subst htyp
        exact ⟨_, rfl, refused_bridle h hown hf fun v x b hv => ownerOnly_rights _ hv⟩
    · subst htyp
      obtain ⟨hmoves, hqueued⟩ := ownerOnly_refuse h hown hf (actSubmit d.seq) hWu hEpoch fun v x b hv => actSubmit_rights hv
      exact ⟨_, rfl, hmoves.rest.1, hmoves.rest.2.1, hqueued⟩
    · subst htyp
      obtain ⟨hmoves, hqueued⟩ := ownerOnly_refuse h hown hf (actAbort d.seq) (fun b => leAt b 0 4) (fun b => leAt b 4 1)
        fun v x b hv => actAbort_rights hv
      exact ⟨_, rfl, hmoves.rest.1, hmoves.rest.2.1, hqueued⟩

/-! ## METER_READ and ATTEST -/

/-- The request passed to the metrology die (14 R441). -/
def meterAsked (s : State) (x : Session) (b : List Byte) : State :=
  { s with meter := { s.meter with arrivalTap := s.meter.arrivalTap ++
    [.readRequest (now s) x.num x.gen (isOwner s x.num x.gen) b] } }

theorem actMeterRead_asks (hlen : b.length = 32) (hlink : v.meter.linkOk = true) : actMeterRead q v x b =
    { meterAsked v x b with meter := { (meterAsked v x b).meter with waiting := v.meter.waiting ++ [(x.num, x.gen, now v)] } } :=
  (if_neg (by simp [hlen])).trans (if_pos hlink)

theorem actMeterRead_silent (hlen : b.length = 32) (hlink : v.meter.linkOk = false) : actMeterRead q v x b =
    sendSeq (meterAsked v x b) .host x.num 0x51 (meterEmpty (leAt b 4 4) 2 0) false none :=
  (if_neg (by simp [hlen])).trans (if_neg (ne_true_of_eq_false hlink))

theorem actAttest_signed {rnd : List Byte} (hlen : b.length = 40) (hzero : leAt b 36 4 = 0) : actAttest rnd q v x b =
    sendSeq { v with sec := { v.sec with attests := min 0xFFFF (v.sec.attests + 1) } } .host x.num 0x59
      (attestReport v x b ++ Config.mlDsaSign v.sec.idSeed (attestReport v x b) "AS2-ATTEST" rnd) false none :=
  (if_neg (by simp [hlen])).trans (if_neg (by simp [hzero]))

theorem attestReport_moves (m : Moves s v) (hgen : x.gen = se.gen) (hkey : x.key = se.key) (b : List Byte) :
    attestReport v x b = attestReport s se b := by
  unfold attestReport
  rw [hgen, hkey, m.eq]
  rfl

/-- Settles O32: the request that goes to the metrology die, the silent answer, and the signed report. -/
theorem meterAndAttest : Obligations.MeterAndAttest := by
  refine ⟨?asked, ?silent, ?attest⟩
  case asked =>
    intro s t d se b h hb hlen hlink
    obtain ⟨v, x, hmoves, -, hnum, hgen, -, -, -, hmsg⟩ := hostMessage_accepts h (actMeterRead d.seq)
    obtain ⟨htap, hwait, hlink', -⟩ := hmoves.meter
    rw [← hb, actMeterRead_asks hlen (hlink'.trans hlink)] at hmsg
    have hack := (sends_sendAck { meterAsked v x b with meter :=
      { (meterAsked v x b).meter with waiting := v.meter.waiting ++ [(x.num, x.gen, now v)] } } se.num).moves
    rw [← hmsg] at hack
    refine ⟨_, rfl, ?_, ?_⟩
    · rw [hack.meter.2.1, hack.host.2.2.2.1, ← hnum, ← hgen]
      exact congrArg (· ++ [_]) hwait
    · rw [hack.meter.1, hack.host.2.2.2.1, ← hmoves.isOwner, ← hnum, ← hgen]
      exact congrArg (· ++ [_]) htap
  case silent =>
    intro s t d se b h hb hlen hlink hf
    obtain ⟨v, x, hmoves, hfind, hnum, -, -, hheld, htx, hmsg⟩ := hostMessage_accepts h (actMeterRead d.seq)
    obtain ⟨-, hwait, hlink', -⟩ := hmoves.meter
    rw [← hb, actMeterRead_silent hlen (hlink'.trans hlink)] at hmsg
    have hall := (moves_sendSeq (meterAsked v x b) x.num 0x51 (meterEmpty (leAt b 4 4) 2 0) false none).trans
      (sends_sendAck _ se.num).moves
    have hqueued := queued_nack (v := meterAsked v x b) hfind hnum hheld htx hf 0x51 (meterEmpty (leAt b 4 4) 2 0)
    rw [← hmsg] at hall hqueued
    exact ⟨_, rfl, hall.meter.2.1.trans hwait, hqueued⟩
  case attest =>
    intro s t d se b rnd r h hb hlen hzero hf hr
    obtain ⟨v, x, hmoves, hfind, hnum, hgen, hkey, hheld, htx, hmsg⟩ := hostMessage_accepts h (actAttest rnd d.seq)
    obtain ⟨-, -, -, -, -, -, -, -, -, hsec⟩ := hmoves.rest
    rw [← hb, actAttest_signed hlen hzero, attestReport_moves hmoves hgen hkey, ← hr, hsec] at hmsg
    have hall := (moves_sendSeq { v with sec := { s.sec with attests := min 0xFFFF (s.sec.attests + 1) } } x.num 0x59
      (r ++ Config.mlDsaSign s.sec.idSeed r "AS2-ATTEST" rnd) false none).trans (sends_sendAck _ se.num).moves
    have hqueued := queued_nack (v := { v with sec := { s.sec with attests := min 0xFFFF (s.sec.attests + 1) } }) hfind hnum
      hheld htx hf 0x59 (r ++ Config.mlDsaSign s.sec.idSeed r "AS2-ATTEST" rnd)
    have hmsg' : hostMessage (atMt s t) d 0x58 (actAttest rnd d.seq) = sendAck (sendSeq { v with sec :=
      { s.sec with attests := min 0xFFFF (s.sec.attests + 1) } } .host x.num 0x59
      (r ++ Config.mlDsaSign s.sec.idSeed r "AS2-ATTEST" rnd) false none) .host se.num := hmsg
    rw [← hmsg'] at hall hqueued
    obtain ⟨-, -, -, -, -, -, -, -, -, ksec⟩ := hall.rest
    exact ⟨_, rfl, by rw [ksec], hqueued⟩

end Sys2Proof.UnitRequests
end

section
/-! SUPPORT. MEM_WRITE and MEM_READ (10 R332 to R334). -/

namespace Sys2Proof.MemoryMessages

open Sys2Proof Sys2Proof.Machine Sys2Proof.Safety Sys2Proof.Laws

variable {s v : State} {t q va n job pa leaf : Nat} {d : Datagram} {se x : Session} {b : List Byte}

theorem pos_of_badRange (h : badRange va n = false) : n ≠ 0 := by
  rintro rfl
  simp [badRange] at h

/-! ## One page -/

section Page

variable (h0 : n ≠ 0) (hpage : va % 2097152 + n ≤ 2097152) (hx : Machine.translate v 4 job va = .ok pa leaf)
include h0 hpage hx

theorem memRefusal_page (owner : Bool) : memRefusal v owner job va n = if owner || bit leaf 4 then none else some va := by
  unfold memRefusal
  rw [pagesOf_one h0 hpage]
  simp only [List.findSome?_cons, hx, List.findSome?_nil]
  split <;> simp_all

omit hx in
theorem tlbFillRange_page : tlbFillRange v 4 job va n = tlbFill v 4 job va := by
  unfold tlbFillRange
  rw [pagesOf_one h0 hpage]
  rfl

end Page

/-! ## The two messages -/

/-- The write a MEM_WRITE leaves pending (10 R332). -/
def writeOf (x : Session) (q pa : Nat) (b : List Byte) : PendingWrite :=
  { src := 1000, pa := pa, bytes := (b.drop 16).map fun x => (x, false), who := .host x.num x.gen q }

theorem actMemWrite_owner (hown : isOwner v x.num x.gen = true) (hbad : badRange (leAt b 0 6) (leAt b 8 2) = false)
    (hlen : b.length = 16 + leAt b 8 2) (hzero : leAt b 10 6 = 0) (hpage : leAt b 0 6 % 2097152 + leAt b 8 2 ≤ 2097152)
    (hx : Machine.translate v 4 (leAt b 6 2) (leAt b 0 6) = .ok pa leaf) (hframe : pa % 4096 + leAt b 8 2 ≤ 4096) :
    actMemWrite q v x b = { tlbFill v 4 (leAt b 6 2) (leAt b 0 6) with hbm :=
      { (tlbFill v 4 (leAt b 6 2) (leAt b 0 6)).hbm with
        pending := (tlbFill v 4 (leAt b 6 2) (leAt b 0 6)).hbm.pending ++ [writeOf x q pa b] } } := by
  have h0 := pos_of_badRange hbad
  have hbytes : ((b.drop 16).map fun x => (x, false)).length = leAt b 8 2 := by
    rw [List.length_map, List.length_drop, hlen]
    omega
  unfold actMemWrite
  dsimp only
  rw [if_neg (by simp [hown]), if_neg (by omega), if_neg (by simp [hbad, hlen]), if_neg (by simp [hzero]),
    memRefusal_page h0 hpage hx, if_pos (by simp)]
  dsimp only
  rw [tlbFillRange_page h0 hpage]
  refine vWrite_one ?_ ?_ (translate_tlbFill hx) ?_
  · rw [← List.length_pos_iff, hbytes]
    omega
  · rw [hbytes]
    exact hpage
  · rw [hbytes]
    exact hframe

/-- The answer to a MEM_READ that is allowed (10 R333). -/
def readBody (b : List Byte) (l : List (Byte × Bool)) : List Byte :=
  leBytes 6 (leAt b 0 6) ++ leBytes 2 (leAt b 6 2) ++ leBytes 2 (leAt b 8 2) ++ leBytes 2 0 ++ leBytes 4 (leAt b 12 4) ++
    leBytes 16 (poisonMap (leAt b 0 6) l) ++ l.map (·.1)

section Read

variable (hlen : b.length = 16) (hbad : badRange (leAt b 0 6) (leAt b 8 2) = false) (hzero : leAt b 10 2 = 0)
  (hpage : leAt b 0 6 % 2097152 + leAt b 8 2 ≤ 2097152) (hx : Machine.translate v 4 (leAt b 6 2) (leAt b 0 6) = .ok pa leaf)
include hlen hbad hzero hpage hx

theorem actMemRead_allowed (hright : isOwner v x.num x.gen = true ∨ bit leaf 4 = true) :
    actMemRead q v x b = sendSeq (tlbFill v 4 (leAt b 6 2) (leAt b 0 6)) .host x.num 0x22
      (readBody b (Machine.paRead v pa (leAt b 8 2))) false none := by
  have h0 := pos_of_badRange hbad
  have hpages := pagesOf_one h0 hpage
  unfold actMemRead
  dsimp only
  rw [if_neg (by simp [hlen]), if_neg (by simp [hbad]), if_neg (by simp [hzero]), memRefusal_page h0 hpage hx,
    if_pos (by simpa using hright)]
  dsimp only
  rw [tlbFillRange_page h0 hpage, hpages]
  simp only [List.flatMap_cons, List.flatMap_nil, List.append_nil, translate_tlbFill hx, tlbFill_paRead]
  rfl

theorem actMemRead_refused (hown : isOwner v x.num x.gen = false) (hbit : bit leaf 4 = false) :
    actMemRead q v x b = sendSeq v .host x.num 0x61 (nackBody q 0x21 6 0 0 (leAt b 0 6)) false none := by
  unfold actMemRead
  dsimp only
  rw [if_neg (by simp [hlen]), if_neg (by simp [hbad]), if_neg (by simp [hzero]),
    memRefusal_page (pos_of_badRange hbad) hpage hx, if_neg (by simp [hown, hbit])]
  rfl

end Read

theorem findSess_tlbFill (s : State) (die job va n : Nat) : findSess (tlbFill s die job va) .host n = findSess s .host n := by
  unfold tlbFill
  split
  · split <;> rfl
  · rfl

theorem exec_memWrite (h : HostAccepts (atMt s t) d 0x20 se) : ∃ v x, Moves (atMt s t) v ∧ x.num = se.num ∧ x.gen = se.gen ∧
    exec (.memWrite t d) s = .next (actMemWrite d.seq v x (plainBody se d)) := by
  obtain ⟨v, x, hrec, hmoves, -, hnum, hgen, -⟩ := receive_accepts h true
  refine ⟨v, x, hmoves, hnum, hgen, ?_⟩
  show execMemWrite t d s = _
  unfold execMemWrite
  rw [hrec]

/-- Settles O29: each message on the state that received it, through the one page it names. -/
theorem memoryMessages : Obligations.MemoryMessages := by
  refine ⟨?write, ?read, ?refused⟩
  case write =>
    intro s t d se b va n pa leaf h hb hown hva hn hbad hlen hzero hpage hx hframe
    subst hva hn
    obtain ⟨v, x, hmoves, hnum, hgen, hexec⟩ := exec_memWrite h
    rw [← hb, actMemWrite_owner (by rw [hmoves.isOwner, hnum, hgen]; exact hown) hbad hlen hzero hpage
      ((hmoves.translate _ _ _).trans hx) hframe] at hexec
    obtain ⟨-, -, hhbm, -⟩ := hmoves.rest
    obtain ⟨hpend, hdata, hpoison⟩ := tlbFill_same v 4 (leAt b 6 2) (leAt b 0 6)
    rw [hhbm] at hpend hdata hpoison
    refine ⟨_, hexec, ?_, hdata, hpoison⟩
    show _ ++ [writeOf x d.seq pa b] = _
    rw [hpend, writeOf, hnum, hgen]
    rfl
  case read =>
    intro s t d se b va n pa leaf l h hb hva hn hlen hbad hzero hpage hx hright hf hl
    subst hva hn hl
    obtain ⟨v, x, hmoves, hfind, hnum, hgen, -, hheld, htx, hmsg⟩ := hostMessage_accepts h (actMemRead d.seq)
    rw [← hb, actMemRead_allowed hlen hbad hzero hpage ((hmoves.translate _ _ _).trans hx)
      (by rw [hmoves.isOwner, hnum, hgen]; exact hright), hmoves.paRead] at hmsg
    obtain ⟨-, -, hhbm, -⟩ := hmoves.rest
    obtain ⟨hpend, hdata, -⟩ := tlbFill_same v 4 (leAt b 6 2) (leAt b 0 6)
    rw [hhbm] at hpend hdata
    have hall := (moves_sendSeq (tlbFill v 4 (leAt b 6 2) (leAt b 0 6)) x.num 0x22
      (readBody b (Machine.paRead (atMt s t) pa (leAt b 8 2))) false none).trans (sends_sendAck _ se.num).moves
    have hqueued := queued_nack ((findSess_tlbFill v 4 (leAt b 6 2) (leAt b 0 6) se.num).trans hfind) hnum hheld htx hf 0x22
      (readBody b (Machine.paRead (atMt s t) pa (leAt b 8 2)))
    rw [← hmsg] at hall hqueued
    obtain ⟨-, -, khbm, -⟩ := hall.rest
    exact ⟨_, rfl, by rw [khbm, hdata]; rfl, by rw [khbm, hpend]; rfl, hqueued⟩
  case refused =>
    intro s t d se b va n pa leaf h hb hva hn hlen hbad hzero hpage hx hown hbit hf
    subst hva hn
    obtain ⟨v, x, hmoves, hfind, hnum, hgen, -, hheld, htx, hmsg⟩ := hostMessage_accepts h (actMemRead d.seq)
    rw [← hb, actMemRead_refused hlen hbad hzero hpage ((hmoves.translate _ _ _).trans hx)
      (by rw [hmoves.isOwner, hnum, hgen]; exact hown) hbit] at hmsg
    have hall := (hmoves.trans (moves_sendSeq v x.num 0x61 (nackBody d.seq 0x21 6 0 0 (leAt b 0 6)) false none)).trans
      (sends_sendAck _ se.num).moves
    have hqueued := queued_nack hfind hnum hheld htx hf 0x61 (nackBody d.seq 0x21 6 0 0 (leAt b 0 6))
    rw [← hmsg] at hall hqueued
    exact ⟨_, rfl, hall.rest.2.2.1, hqueued⟩

end Sys2Proof.MemoryMessages
end

section
/-! SUPPORT. MGMT_READ and MGMT_WRITE (10 R335) and the registers a write changes (15 R450 to R455). -/

namespace Sys2Proof.Management

open Sys2Proof Sys2Proof.Machine Sys2Proof.Safety Sys2Proof.Laws

variable {s v : State} {t q off val p k : Nat} {d : Datagram} {se x : Session} {b : List Byte} {who : Who}

/-! ## What a register's write changes -/

theorem writeReg_identity (h : off < 0x1000) : writeReg s off val who = s := if_pos h

theorem writeReg_stall (hp : p < 544) : writeReg s (0x010008 + 0x40 * p) val who =
    modClu s p fun c => { c with stall := rw1c c.stall val } := by
  have hpage : (0x010008 + 0x40 * p - 0x010000) / 0x40 = p := by omega
  have hreg : (0x010008 + 0x40 * p) % 0x40 = 0x08 := by omega
  unfold writeReg
  rw [if_neg (by omega), if_neg (by omega), if_pos (by omega), if_pos (by omega), hpage, hreg]
  rfl

theorem writeReg_stackErrors (hk : k < 20) : writeReg s (0x020004 + 0x400 * k) val who =
    { s with hbm := { s.hbm with ce := tblMod 0 s.hbm.ce k fun x => rw1c x val } } := by
  have hpage : (0x020004 + 0x400 * k - 0x020000) / 0x400 = k := by omega
  have hreg : (0x020004 + 0x400 * k) % 0x400 = 0x04 := by omega
  unfold writeReg
  rw [if_neg (by omega), if_neg (by omega), if_neg (by omega), if_pos (by omega), if_pos (by omega), hpage, hreg]
  rfl

theorem writeReg_trace (hdev : cfgDevMode s = true) :
    writeReg s 0x0F0000 val who = { s with clu := { s.clu with trace := bits val 7 0 } } := by
  unfold writeReg
  rw [if_neg (by omega), if_neg (by omega), if_neg (by omega), if_neg (by omega), if_neg (by omega), if_neg (by omega),
    if_neg (by omega), if_neg (by omega), if_neg (by omega), if_pos ⟨by omega, by omega, hdev⟩]
  rfl

theorem offValid_low (h : off < 0x0B3100) : offValid s off = true := by simp [offValid, h]

theorem exec_registerWrite (hready : isReady s = true) (hvalid : offValid s off = true) (hoff : off % 4 = 0) :
    exec (.registerWrite t off val) s = .next (writeReg (atMt s t) off val none) := by
  have hready' : isReady (atMt s t) = true := hready
  have hvalid' : offValid (atMt s t) off = true := hvalid
  exact if_pos (by simp [hready', hvalid', hoff])

/-- Settles O31: each write by the one register it reaches. -/
theorem registerWrites : Obligations.RegisterWrites := by
  refine ⟨?identity, ?stall, ?errors, ?jobSel, ?trace⟩
  case identity =>
    intro s t off v hready hlow hoff
    have hexec := exec_registerWrite (t := t) (val := v) hready (offValid_low (by omega)) hoff
    rw [writeReg_identity hlow] at hexec
    exact ⟨_, hexec, rfl⟩
  case stall =>
    intro s t p v hready hp
    have hexec := exec_registerWrite (t := t) (val := v) (off := 0x010008 + 0x40 * p) hready (offValid_low (by omega)) (by omega)
    rw [writeReg_stall hp] at hexec
    exact ⟨_, hexec, getClu_modClu_same _ _ _, fun q hq => getClu_modClu_other _ _ hq⟩
  case errors =>
    intro s t k v hready hk
    have hexec := exec_registerWrite (t := t) (val := v) (off := 0x020004 + 0x400 * k) hready (offValid_low (by omega)) (by omega)
    rw [writeReg_stackErrors hk] at hexec
    exact ⟨_, hexec, tblGet_tblMod 0 _ k fun x => rw1c x v, fun j hj => tblGet_tblSet_other _ _ _ hj, rfl, rfl⟩
  case jobSel =>
    intro s t v hready
    exact ⟨_, exec_registerWrite hready (offValid_low (by omega)) rfl, rfl⟩
  case trace =>
    intro s t v hready hdev
    have hexec := exec_registerWrite (t := t) (val := v) (off := 0x0F0000) hready (by simp [offValid, hdev]) rfl
    rw [writeReg_trace (s := atMt s t) hdev] at hexec
    exact ⟨_, hexec, rfl⟩

/-! ## MGMT_READ -/

/-- The answer to a valid MGMT_READ. -/
def readAnswer (v : State) (b : List Byte) : List Byte :=
  leBytes 4 (leAt b 0 3) ++ leBytes 2 (leAt b 4 2) ++ leBytes 2 0 ++ leBytes 4 (leAt b 8 4) ++ leBytes 4 0 ++ leBytes 8 (now v) ++
    ((numsFrom 0 (leAt b 4 2)).map fun i => leBytes 4 (readReg v (leAt b 0 3 + 4 * i))).flatten

theorem actMgmtRead_valid (hbad : mgmtBad b 12 = none) (hall : firstInvalid v (leAt b 0 3) (leAt b 4 2) = none) :
    actMgmtRead q v x b = sendSeq v .host x.num 0x32 (readAnswer v b) false none := by
  unfold actMgmtRead
  rw [hbad]
  dsimp only
  rw [hall]
  rfl

theorem actMgmtRead_invalid {y : Nat} (hbad : mgmtBad b 12 = none) (hy : firstInvalid v (leAt b 0 3) (leAt b 4 2) = some y) :
    actMgmtRead q v x b = sendSeq v .host x.num 0x61 (nackBody q 0x30 0x0A 0 0 y) false none := by
  unfold actMgmtRead
  rw [hbad]
  dsimp only
  rw [hy]
  rfl

/-! ## MGMT_WRITE -/

theorem exec_mgmtWrite (h : HostAccepts (atMt s t) d 0x31 se) : ∃ v x, Moves (atMt s t) v ∧ x.num = se.num ∧ x.gen = se.gen ∧
    exec (.mgmtWrite t d) s = .next (actMgmtWrite d.seq v x (plainBody se d)) := by
  obtain ⟨v, x, hrec, hmoves, -, hnum, hgen, -⟩ := receive_accepts h true
  refine ⟨v, x, hmoves, hnum, hgen, ?_⟩
  show execMgmtWrite t d s = _
  unfold execMgmtWrite
  rw [hrec]

theorem actMgmtWrite_ctrSel (hown : isOwner v x.num x.gen = true) (hbad : mgmtBad b 12 = none) (hone : leAt b 4 2 = 1)
    (hoff : leAt b 0 3 = 0x040010) : actMgmtWrite q v x b =
      disableAck (modReins v fun r => { r with ctrSel := bits (leAt b 8 4) 15 0 }) (some (x.num, x.gen, q)) := by
  have hvalid : firstInvalid v 0x040010 1 = none := by simp [firstInvalid, numsFrom, offValid_low]
  unfold actMgmtWrite
  dsimp only
  rw [if_neg (by simp [hown]), hone, hbad]
  dsimp only
  rw [hoff, hvalid]
  rfl

theorem actMgmtWrite_rights (hown : isOwner v x.num x.gen = false) :
    actMgmtWrite q v x b = lateLanded (sendNack v x.num q 0x31 1 0) .host x.num x.gen q := if_pos (by simp [hown])

theorem moves_disableAck (s : State) (who : Option (Nat × Nat × Nat)) : Moves s (disableAck s who) := by
  unfold disableAck
  split
  · exact .refl s
  · split
    · exact .refl s
    · exact moves_lateLanded _ _ _ _

/-- Settles O30: reads by the answer they queue, writes by the registers they reach. -/
theorem management : Obligations.Management := by
  refine ⟨?read, ?invalid, ?write, ?rights⟩
  case read =>
    intro s t d se b off n h hb hbad hoff hn hall hf
    subst hoff hn
    obtain ⟨x, hmoves, hfind, hnum, -, -, hheld, htx, hmsg⟩ := receive_fst h (actMgmtRead d.seq)
    generalize (receive (atMt s t) .host d 0x30 true false).1 = v at hmoves hfind hmsg ⊢
    rw [← hb, actMgmtRead_valid hbad ((firstInvalid_same hmoves _ _).trans hall)] at hmsg
    have hsent := (moves_sendSeq v x.num 0x32 (readAnswer v b) false none).trans (sends_sendAck _ se.num).moves
    have hqueued := queued_nack hfind hnum hheld htx hf 0x32 (readAnswer v b)
    rw [← hmsg] at hsent hqueued
    obtain ⟨-, -, -, hctl, -, hclu, hreins, hpwr, -, -⟩ := (hmoves.trans hsent).rest
    refine ⟨_, rfl, hctl, hclu, hreins, hpwr, ?_⟩
    rw [hsent.host.2.2.2.1]
    exact hqueued
  case invalid =>
    intro s t d se b off n y h hb hbad hoff hn hy hf
    subst hoff hn
    obtain ⟨v, x, hmoves, hfind, hnum, -, -, hheld, htx, hmsg⟩ := hostMessage_accepts h (actMgmtRead d.seq)
    rw [← hb, actMgmtRead_invalid hbad ((firstInvalid_same hmoves _ _).trans hy)] at hmsg
    have hqueued := queued_nack hfind hnum hheld htx hf 0x61 (nackBody d.seq 0x30 0x0A 0 0 y)
    rw [← hmsg] at hqueued
    exact ⟨_, rfl, hqueued⟩
  case write =>
    intro s t d se b h hb hown hbad hone hoff
    obtain ⟨v, x, hmoves, hnum, hgen, hexec⟩ := exec_mgmtWrite h
    rw [← hb, actMgmtWrite_ctrSel (by rw [hmoves.isOwner, hnum, hgen]; exact hown) hbad hone hoff] at hexec
    obtain ⟨hdisp, -, -, -, -, hclu, hreins, hpwr, -, -⟩ := hmoves.rest
    obtain ⟨kdisp, -, -, -, -, kclu, kreins, kpwr, -, -⟩ := (moves_disableAck
      (modReins v fun r => { r with ctrSel := bits (leAt b 8 4) 15 0 }) (some (x.num, x.gen, d.seq))).rest
    refine ⟨_, hexec, ?_, kclu.trans hclu, kpwr.trans hpwr, kdisp.trans hdisp⟩
    rw [kreins]
    exact congrArg (fun r : Reins => { r with ctrSel := bits (leAt b 8 4) 15 0 }) hreins
  case rights =>
    intro s t d se h hown hf
    obtain ⟨v, x, hmoves, hnum, hgen, hexec⟩ := exec_mgmtWrite h
    rw [actMgmtWrite_rights (by rw [hmoves.isOwner, hnum, hgen]; exact hown)] at hexec
    have hall := (hmoves.trans (moves_sendNack v x.num d.seq 0x31 1 0)).trans (moves_lateLanded _ x.num x.gen d.seq)
    obtain ⟨hdisp, -, -, hctl, -, hclu, hreins, hpwr, hflt, -⟩ := hall.rest
    exact ⟨_, hexec, hreins, hclu, hpwr, hdisp, hflt, hctl⟩

end Sys2Proof.Management
end

section
/-! SUPPORT. Chains chosen and layers started (06 R164, R167; 07 R207 to R213), the counter pair of a descriptor and its ticket
notices (07 R215 to R217). -/

namespace Sys2Proof.ChainsAndLayers

open Sys2Proof Sys2Proof.Machine Sys2Proof.Safety Sys2Proof.Laws

variable {s : State} {t c wu p : Nat} {it : Item} {rest : List Item} {x : WorkUnit} {r : DescRef} {d : DRun}

/-! ## A chain chosen -/

theorem findUnit_modUnit_some {f : WorkUnit → WorkUnit} (h : findUnit s wu = some x) (hf : ∀ x, (f x).wuId = x.wuId) :
    findUnit (modUnit s wu f) wu = some (f x) := by
  rw [findUnit_modUnit hf, h]
  rfl

theorem findUnit_addCause (reason res : Nat) (h : findUnit s wu = some x) : findUnit (addCause s wu reason res) wu =
    some { x with causes := x.causes ++ [{ mt := now s, reason := reason, resource := res }] } := by
  unfold addCause
  exact findUnit_modUnit_some h (by intro _; rfl)

/-- A unit whose chain has left its queue. -/
def leftQueue (u : WorkUnit) : WorkUnit := { u with queued := false }

/-- A unit with the descriptors and tensors of a body. -/
def described (h b : List Byte) (u : WorkUnit) : WorkUnit :=
  { u with descs := records 128 (hDescCount h) b, tensors := records 64 (hTensorCount h) (b.drop (128 * hDescCount h)) }

section Chosen

variable (hready : isReady s = true) (hrun : s.disp.restarting = false) (hc : c < 8) (hq : pdkItems s 4 c = it :: rest)
  (hkind : it.kind ≠ 1) (hroom : (candidates s).length < 4096)
include hready hrun hc hq hkind hroom

theorem exec_chainChoose : exec (.chainChoose t c) s = .next (admitChain (setQueue (atMt s t) 4 c rest) it false) := by
  have hcond : (isReady (atMt s t) && !(atMt s t).disp.restarting && decide (c < 8)) = true := by
    have hready' : isReady (atMt s t) = true := hready
    simp [hready', hrun, hc]
  have hfew : ¬ (candidates (atMt s t)).length ≥ 4096 := Nat.not_le.mpr hroom
  refine (if_pos hcond).trans (congrArg _ ?_)
  unfold readChain
  rw [show pdkItems (atMt s t) 4 c = it :: rest from hq]
  exact (if_neg hkind).trans (if_neg hfew)

end Chosen

section Admitted

variable (hx : findUnit s it.wuId = some x) (hqueued : x.queued = true) (hep : x.epoch = it.epoch) (hgood : it.poison = false)
include hx hqueued hep hgood

/-- A chain whose header and body are valid gives its unit descriptors and tensors. -/
theorem admitChain_valid {b : List Byte} (hh : headerOk x.header = true) (hb : chainBody s x.header it.payload = .ok b)
    (hlast : (records 128 (hDescCount x.header) b).getLast?.map dOp = some 0x3F)
    (hloops : loopsOk (records 128 (hDescCount x.header) b) = true) :
    admitChain s it false = modUnit (modUnit s it.wuId leftQueue) it.wuId (described x.header b) := by
  have hb' : chainBody (modUnit s it.wuId leftQueue) x.header it.payload = .ok b := hb
  unfold admitChain
  rw [hx]
  dsimp only
  rw [findUnit_id hx, show (fun u : WorkUnit => { u with queued := false }) = leftQueue from rfl]
  rw [if_neg (by simp [hqueued, hep]), if_neg (by simp [hgood]), if_neg (by simp [hh]), hb']
  dsimp only
  rw [if_pos (by simp [hlast, hloops])]
  rfl

theorem admitChain_badHeader (hh : headerOk x.header = false) : admitChain s it false =
    addCause (modUnit s it.wuId leftQueue) it.wuId badDesc.1 badDesc.2 := by
  unfold admitChain
  rw [hx]
  dsimp only
  rw [findUnit_id hx]
  rw [if_neg (by simp [hqueued, hep]), if_neg (by simp [hgood]), if_pos hh]
  rfl

end Admitted

/-! ## A layer started -/

/-- A cluster that is ACTIVE or on its way there (12 R386). -/
def Awake (s : State) (p : Nat) : Prop := (getClu s p).power = .active ∨ (getClu s p).wakeDue.isSome = true

theorem awake_requestWake (s : State) (p : Nat) : Awake (requestWake s p) p := by
  unfold requestWake
  dsimp only
  split
  case isTrue h => exact h
  case isFalse =>
    unfold Awake
    rw [getClu_setClu_same]
    exact .inr rfl

theorem awake_requestWake_kept {q : Nat} (h : Awake s q) : Awake (requestWake s p) q := by
  by_cases e : q = p
  · exact e ▸ awake_requestWake s p
  · unfold Awake
    rw [getClu_requestWake_other _ e]
    exact h

theorem requestWake_disp_lmap (s : State) (p : Nat) : (requestWake s p).disp = s.disp ∧ (requestWake s p).clu.lmap = s.clu.lmap := by
  unfold requestWake
  dsimp only
  split <;> exact ⟨rfl, rfl⟩

theorem physOf_lmap {u v : State} (h : v.clu.lmap = u.clu.lmap) (l : Nat) : physOf v l = physOf u l := by
  unfold physOf getLmap
  rw [h]

/-- Waking each logical cluster of a list. -/
def wakeAll (s : State) (f : List Nat) : State := f.foldl (fun s l => requestWake s (physOf s l)) s

theorem wakeAll_disp_lmap (f : List Nat) (s : State) : (wakeAll s f).disp = s.disp ∧ (wakeAll s f).clu.lmap = s.clu.lmap := by
  induction f generalizing s with
  | nil => exact ⟨rfl, rfl⟩
  | cons l f ih =>
    obtain ⟨hdisp, hlmap⟩ := requestWake_disp_lmap s (physOf s l)
    exact ⟨(ih _).1.trans hdisp, (ih _).2.trans hlmap⟩

theorem awake_wakeAll_kept (f : List Nat) {s : State} {q : Nat} (h : Awake s q) : Awake (wakeAll s f) q := by
  induction f generalizing s with
  | nil => exact h
  | cons l f ih => exact ih (awake_requestWake_kept h)

theorem awake_wakeAll (f : List Nat) (s : State) : ∀ l ∈ f, Awake (wakeAll s f) (physOf s l) := by
  induction f generalizing s with
  | nil => exact fun _ h => nomatch h
  | cons a f ih =>
    intro l hl
    obtain rfl | hl := List.mem_cons.mp hl
    · exact awake_wakeAll_kept f (awake_requestWake s (physOf s l))
    · rw [← physOf_lmap (requestWake_disp_lmap s (physOf s a)).2 l]
      exact ih _ l hl

theorem exec_layerStart (hx : findUnit s wu = some x) (hm : mayStart (atMt s t) x = true) : exec (.layerStart t wu) s =
    .next (wakeAll (modUnit (atMt s t) wu fun u =>
      { u with started := true, holds := footprint s x, touched := dedup (u.touched ++ footprint s x) }) (footprint s x)) := by
  show execLayerStart t wu s = _
  unfold execLayerStart
  dsimp only
  rw [show findUnit (atMt s t) wu = some x from hx]
  exact if_pos hm

/-- Settles O33: a chosen chain by what admitting it gives its unit, a started layer by its unit and by waking its footprint. -/
theorem chainsAndLayers : Obligations.ChainsAndLayers := by
  refine ⟨?valid, ?badHeader, ?start⟩
  case valid =>
    intro s t c it rest x b ds hready hrun hc hq hkind hroom hx hqueued hep hgood hh hb hds hlast hloops
    subst hds
    have hexec := exec_chainChoose (t := t) hready hrun hc hq hkind hroom
    rw [admitChain_valid (s := setQueue (atMt s t) 4 c rest) hx hqueued hep hgood hh hb hlast hloops] at hexec
    refine ⟨_, hexec, pdkItems_setQueue _ _ _ _, ?_⟩
    exact findUnit_modUnit_some (findUnit_modUnit_some (s := setQueue (atMt s t) 4 c rest) (f := leftQueue) hx fun _ => rfl)
      (f := described x.header b) fun _ => rfl
  case badHeader =>
    intro s t c it rest x hready hrun hc hq hkind hroom hx hqueued hep hgood hh
    have hexec := exec_chainChoose (t := t) hready hrun hc hq hkind hroom
    rw [admitChain_badHeader (s := setQueue (atMt s t) 4 c rest) hx hqueued hep hgood hh] at hexec
    refine ⟨_, hexec, pdkItems_setQueue _ _ _ _, ?_⟩
    exact findUnit_addCause _ _ (findUnit_modUnit_some (s := setQueue (atMt s t) 4 c rest) (f := leftQueue) hx fun _ => rfl)
  case start =>
    intro s t wu x hx hm
    refine ⟨_, exec_layerStart hx hm, ?_, awake_wakeAll _ _⟩
    rw [unit_disp (wakeAll_disp_lmap _ _).1]
    exact findUnit_modUnit_some (s := atMt s t) hx (by intro _; rfl)

/-! ## The counter pair of a descriptor -/

/-- The pair noted as in use. -/
def notePair (s : State) (p : Nat) : State := modReins s fun y => { y with lastPair := p, pairsUsed := y.pairsUsed ++ [p] }

theorem notePair_disp (s : State) (p : Nat) : (notePair s p).disp = s.disp := rfl

theorem getCtr_notePair (s : State) (p n : Nat) : getCtr (notePair s p) n = getCtr s n := rfl

theorem notePair_pairs (s : State) (p : Nat) :
    (notePair s p).reins.lastPair = p ∧ (notePair s p).reins.pairsUsed = s.reins.pairsUsed ++ [p] := ⟨rfl, rfl⟩

/-- The state in which a pair of counters has been taken and cleared (07 R215). -/
def pairTaken (s : State) (p : Nat) : State := notePair (allocCtr (allocCtr s (takeCtr p)) (doneCtr p)) p

/-- A descriptor with its pair. -/
def withPair (v : State) (p : Nat) (d : DRun) : DRun := { d with pair := some p, pairEpoch := (getCtr v (takeCtr p)).epoch }

theorem exec_workCounterAlloc (hl : liveRun s r = some (x, d)) (hp : freePair s = some p) (htk : d.tickets ≠ [])
    (hnone : d.pair = none) (hrun : s.disp.restarting = false) : exec (.workCounterAlloc t r) s =
      .next (modRun (pairTaken (atMt s t) p) r (withPair (pairTaken (atMt s t) p) p)) := by
  show execWorkCounterAlloc t r s = _
  unfold execWorkCounterAlloc
  dsimp only
  rw [show liveRun (atMt s t) r = some (x, d) from hl, show freePair (atMt s t) = some p from hp]
  refine (if_neg ?_).trans rfl
  simp [htk, hnone, hrun]

/-- The pair of a descriptor, as the two allocations leave it. -/
theorem allocPair_ctr (s : State) (p n : Nat) (hn : n = takeCtr p ∨ n = doneCtr p) :
    getCtr (allocCtr (allocCtr s (takeCtr p)) (doneCtr p)) n = { value := 0, epoch := ((getCtr s n).epoch + 1) % 256 } := by
  have hne : takeCtr p ≠ doneCtr p := by
    unfold takeCtr doneCtr
    omega
  obtain ⟨hdone, hother⟩ := allocCtr_ctr (allocCtr s (takeCtr p)) (doneCtr p)
  obtain ⟨htake, hkept⟩ := allocCtr_ctr s (takeCtr p)
  obtain rfl | rfl := hn
  · rw [hother _ hne, htake]
  · rw [hdone, hkept _ hne.symm]

theorem getCtr_pairTaken (s : State) (p n : Nat) (hn : n = takeCtr p ∨ n = doneCtr p) :
    getCtr (pairTaken s p) n = { value := 0, epoch := ((getCtr s n).epoch + 1) % 256 } := by
  rw [pairTaken, getCtr_notePair, allocPair_ctr s p n hn]

theorem pairTaken_pairs (s : State) (p : Nat) :
    (pairTaken s p).reins.lastPair = p ∧ (pairTaken s p).reins.pairsUsed = s.reins.pairsUsed ++ [p] := by
  obtain ⟨hlast, hused⟩ := notePair_pairs (allocCtr (allocCtr s (takeCtr p)) (doneCtr p)) p
  rw [(allocCtr_units _ _).2, (allocCtr_units _ _).2] at hused
  exact ⟨hlast, hused⟩

/-- Taking a pair that nothing waits on leaves the dispatcher as it is. -/
theorem pairTaken_disp (hfree : ∀ w ∈ s.reins.waits, w.ctr ≠ takeCtr p ∧ w.ctr ≠ doneCtr p) : (pairTaken s p).disp = s.disp := by
  obtain ⟨hdisp1, hwaits1⟩ := allocCtr_still (s := s) (n := takeCtr p) fun w hw => (hfree w hw).1
  obtain ⟨hdisp2, -⟩ := allocCtr_still (s := allocCtr s (takeCtr p)) (n := doneCtr p) fun w hw =>
    (hfree w (hwaits1 ▸ hw)).2
  rw [pairTaken, notePair_disp, hdisp2, hdisp1]

/-! ## Ticket notices -/

/-- A queue holds an item that says what another does. -/
def HasItem (it : Item) (s : State) (b : Nat × Nat) : Prop :=
  ∃ i ∈ pdkItems s b.1 b.2, i.wuId = it.wuId ∧ i.epoch = it.epoch ∧ i.notice = it.notice

theorem hasItem_pdkAppend (it : Item) (s : State) (b : Nat × Nat) : HasItem it (pdkAppend s b.1 b.2 it) b := by
  unfold HasItem
  rw [pdkItems_pdkAppend]
  exact ⟨_, List.mem_append_right _ (List.mem_singleton_self _), rfl, rfl, rfl⟩

theorem hasItem_pdkAppend_kept {b e : Nat × Nat} {j : Item} (h : HasItem it s b) : HasItem it (pdkAppend s e.1 e.2 j) b := by
  obtain ⟨i, hi, hsame⟩ := h
  refine ⟨i, ?_, hsame⟩
  by_cases hk : qKey b.1 b.2 = qKey e.1 e.2
  · have hq : ∀ v : State, pdkItems v b.1 b.2 = pdkItems v e.1 e.2 := fun v => by
      unfold pdkItems
      rw [hk]
    rw [hq, pdkItems_pdkAppend]
    exact List.mem_append_left _ (hq s ▸ hi)
  · rw [pdkItems_pdkAppend_other _ _ _ _ hk]
    exact hi

/-- One item appended to each of a list of queues. -/
def appendAll (s : State) (boxes : List (Nat × Nat)) (it : Item) : State := boxes.foldl (fun s b => pdkAppend s b.1 b.2 it) s

theorem appendAll_disp (boxes : List (Nat × Nat)) (s : State) (it : Item) : (appendAll s boxes it).disp = s.disp := by
  induction boxes generalizing s with
  | nil => rfl
  | cons b l ih => exact ih _

theorem hasItem_appendAll_kept (boxes : List (Nat × Nat)) {b : Nat × Nat} {j : Item} (h : HasItem it s b) :
    HasItem it (appendAll s boxes j) b := by
  induction boxes generalizing s with
  | nil => exact h
  | cons e l ih => exact ih (hasItem_pdkAppend_kept h)

theorem hasItem_appendAll (boxes : List (Nat × Nat)) (s : State) (it : Item) : ∀ b ∈ boxes, HasItem it (appendAll s boxes it) b := by
  induction boxes generalizing s with
  | nil => exact fun _ h => nomatch h
  | cons e l ih =>
    intro b hb
    obtain rfl | hb := List.mem_cons.mp hb
    · exact hasItem_appendAll_kept l (hasItem_pdkAppend it s b)
    · exact ih _ b hb

/-- The notice of a descriptor's tickets (07 R217). -/
def noticeItem (x : WorkUnit) (d : DRun) (r : DescRef) (p : Nat) : Item :=
  { hasWu := true, source := 549, wuId := x.wuId, epoch := x.epoch
    notice := some { ref := r, pair := p, epoch := d.pairEpoch, count := d.tickets.length } }

theorem exec_ticketNoticePost (hl : liveRun s r = some (x, d)) (hp : d.pair = some p) (hposted : d.posted = false)
    (hrun : s.disp.restarting = false)
    (hfit : ∀ l ∈ d.members, pdkFits s (inboxOf (physOf s l)).1 (inboxOf (physOf s l)).2 1 = true) :
    exec (.ticketNoticePost t r) s = .next (modRun (appendAll (atMt s t) (d.members.map fun l => inboxOf (physOf s l))
      (noticeItem x d r p)) r fun d => { d with posted := true }) := by
  have hall : ((d.members.map fun l => inboxOf (physOf (atMt s t) l)).all fun b => pdkFits (atMt s t) b.1 b.2 1) = true := by
    rw [List.all_map, List.all_eq_true]
    exact hfit
  show execTicketNoticePost t r s = _
  unfold execTicketNoticePost
  dsimp only
  rw [show liveRun (atMt s t) r = some (x, d) from hl]
  dsimp only
  rw [hp]
  refine (if_neg ?_).trans rfl
  rw [hall]
  simp [hposted, hrun]

/-- Settles O34: the pair by its two allocations, the notices by the appends that carry them. -/
theorem workCountersAndNotices : Obligations.WorkCountersAndNotices := by
  refine ⟨?pair, ?notice⟩
  case pair =>
    intro s t r x d p hl hp htk hnone hrun _
    have hpair := getCtr_pairTaken (atMt s t) p
    obtain ⟨hlast, hused⟩ := pairTaken_pairs (atMt s t) p
    have hdisp := pairTaken_disp (s := atMt s t) (p := p)
    have hexec := exec_workCounterAlloc (t := t) hl hp htk hnone hrun
    generalize pairTaken (atMt s t) p = v at hpair hused hdisp hlast hexec
    refine ⟨_, hexec, hpair, hlast, hused, fun hfree => ?_⟩
    obtain ⟨-, hrunR, -, -, -⟩ := liveRun_run hl
    have href := run_ref hrunR
    exact run_mod ((run_disp (hdisp hfree) r).trans hrunR) href
  case notice =>
    intro s t r x d p hl hp hposted hrun hfit
    obtain ⟨-, hrunR, -, -, -⟩ := liveRun_run hl
    refine ⟨_, exec_ticketNoticePost hl hp hposted hrun hfit, ?_, fun l hl' => ?_⟩
    · have hfind : findRun (appendAll (atMt s t) (d.members.map fun l => inboxOf (physOf s l)) (noticeItem x d r p)) r = some d :=
        (run_disp (appendAll_disp _ _ _) r).trans hrunR
      have href := run_ref hrunR
      exact run_mod hfind href
    · obtain ⟨i, hi, hwu, hep, hn⟩ := hasItem_appendAll (d.members.map fun l => inboxOf (physOf s l)) (atMt s t)
        (noticeItem x d r p) (inboxOf (physOf s l)) (List.mem_map.mpr ⟨l, hl', rfl⟩)
      exact ⟨i, hi, hwu, hep, hn⟩

end Sys2Proof.ChainsAndLayers
end

section
/-! SUPPORT. Completion of descriptors, layers and units (06 R190 to R193), discards (13 R427 to R431) and the record of
retired identifiers (13 R424, R426). -/

namespace Sys2Proof.Completion

open Sys2Proof Sys2Proof.Machine Sys2Proof.Safety Sys2Proof.Laws

variable {s v : State} {t wu p l : Nat} {x y : WorkUnit} {r : DescRef} {d : DRun} {c : Cause}

/-! ## A descriptor complete -/

theorem exec_descriptorComplete (hl : liveRun s r = some (x, d)) (hrun : s.disp.restarting = false) (hop : d.op ≠ 0x3F)
    (hsync : (d.op = 0x20 ∨ d.op = 0x21) → d.phase ≠ 0) (hdone : runDone (atMt s t) x d = true) :
    exec (.descriptorComplete t r) s = .next (finishRun (atMt s t) x d) := by
  have hacted : ¬ ((d.op == 0x20 || d.op == 0x21) && d.phase == 0) = true := by simpa using hsync
  show execDescriptorComplete t r s = _
  unfold execDescriptorComplete
  dsimp only
  rw [show liveRun (atMt s t) r = some (x, d) from hl]
  exact (if_neg (by simp [hrun, hop])).trans ((if_neg hacted).trans (if_pos hdone))

theorem findRun_finishRun (hx : findRun s r = some d) (u : WorkUnit) :
    findRun (finishRun s u d) r = some { d with complete := true } := by
  have href := run_ref hx
  subst href
  rw [findRun_disp (finishRun_units s u d).1]
  have hmod : findRun (modRun s d.ref fun x => { x with complete := true }) d.ref = some { d with complete := true } := run_mod hx rfl
  exact run_unit hmod fun w => ⟨(takeStatus_runs w d).2.1, (takeStatus_runs w d).1⟩

theorem pairFree_finishRun (hp : d.pair = some p) (u : WorkUnit) : (finishRun s u d).reins.pairsUsed.contains p = false := by
  rw [(finishRun_units s u d).2.1, hp]
  simp

/-! ## A layer and a unit complete -/

section LayerEnd

variable (hx : findUnit s wu = some x) (hd : x.runs.getLast? = some d) (hop : d.op = 0x3F) (hopen : d.complete = false)
  (hh : healthy x = true) (hund : x.decided = false) (hrun : s.disp.restarting = false) (hdone : runDone (atMt s t) x d = true)
include hx hd hop hopen hh hund hrun hdone

theorem exec_layerEnd_more (hmore : x.next < x.descs.length) :
    exec (.layerEndComplete t wu) s = .next (layerEndState (atMt s t) wu x d) := by
  show execLayerEndComplete t wu s = _
  unfold execLayerEndComplete
  dsimp only
  rw [show findUnit (atMt s t) wu = some x from hx]
  dsimp only
  rw [hd]
  refine (if_neg ?_).trans ((if_neg ?_).trans rfl)
  · simp [hop, hopen, hh, hund, hrun, hdone, hmore]
  · simp [hmore]

theorem exec_layerEnd_last (hlast : x.descs.length ≤ x.next) (hfit : pdkFits s 4 8 1 = true)
    (hy : findUnit (layerEndState (atMt s t) wu x d) wu = some y) :
    exec (.layerEndComplete t wu) s = .next (completeUnit (layerEndState (atMt s t) wu x d) y) := by
  have hfit' : pdkFits (atMt s t) 4 8 1 = true := hfit
  show execLayerEndComplete t wu s = _
  unfold execLayerEndComplete
  dsimp only
  rw [show findUnit (atMt s t) wu = some x from hx]
  dsimp only
  rw [hd]
  refine (if_neg ?_).trans ((if_pos ?_).trans ?_)
  · simp [hop, hopen, hh, hund, hrun, hdone, hfit']
  · simp [hlast]
  · show (match findUnit (layerEndState (atMt s t) wu x d) wu with | some u => _ | none => _ : Host.Outcome State Fault Refusal) = _
    rw [hy]
    rfl

end LayerEnd

/-- What the completion of a unit leaves (06 R193). -/
theorem completeUnit_what (s : State) (y : WorkUnit) : findUnit (completeUnit s y) y.wuId = none ∧
    (∃ l, (completeUnit s y).disp.retired = l ++ [{ wuId := y.wuId, epoch := y.epoch, mt := now s, ended := false }]) ∧
    now (completeUnit s y) = now s ∧
    ∃ it, pdkItems (completeUnit s y) 4 8 = pdkItems s 4 8 ++ [it] ∧ it.wuId = y.wuId ∧ it.epoch = y.epoch ∧ it.payload = completeCell y :=
  ⟨findUnit_filter _ _, ⟨_, rfl⟩, rfl, _, pdkItems_pdkAppend s 4 8 _, rfl, rfl, rfl⟩

theorem leAt_completeCell (y : WorkUnit) : leAt (completeCell y) 0 4 = y.wuId % 2 ^ 32 := by
  unfold completeCell
  simp only [List.append_assoc]
  exact leAt_leBytes _ _

/-- Settles O39: a descriptor by what finishing its run leaves, a layer and a unit by what ending the layer leaves. -/
theorem completion : Obligations.Completion := by
  refine ⟨?descriptor, ?layer, ?unit⟩
  case descriptor =>
    intro s t r x d hl hrun hop hsync hdone
    obtain ⟨-, hrunR, -, -, -⟩ := liveRun_run hl
    exact ⟨_, exec_descriptorComplete hl hrun hop hsync hdone, ⟨_, findRun_finishRun (s := atMt s t) hrunR x, rfl⟩,
      fun p hp => pairFree_finishRun hp x⟩
  case layer =>
    intro s t wu x d hx hd hop hopen hh hund hrun hdone hmore
    obtain ⟨⟨y, hy, hruns, hholds, hstarted, hend, -, -⟩, hnow, -⟩ := layerEnd_what (s := atMt s t) (d := d) hx
    exact ⟨_, exec_layerEnd_more hx hd hop hopen hh hund hrun hdone hmore, y, hy, hruns, hholds, hstarted, hend.trans hnow.symm⟩
  case unit =>
    intro s t wu x d hx hd hop hopen hh hund hrun hdone hlast hfit
    obtain ⟨⟨y, hy, -, -, -, -, hep, hid⟩, hnow, hitems⟩ := layerEnd_what (s := atMt s t) (d := d) hx
    have hexec := exec_layerEnd_last hx hd hop hopen hh hund hrun hdone hlast hfit hy
    obtain ⟨hgone, ⟨l, hret⟩, hnow', it, hit, hwu, hepoch, hpay⟩ := completeUnit_what (layerEndState (atMt s t) wu x d) y
    subst hid
    refine ⟨_, hexec, hgone, ⟨l, ?_⟩, it, ?_, hwu, hepoch.trans hep, ?_⟩
    · rw [hret, hnow', hep]
    · rw [hit, hitems]
      rfl
    · rw [hpay]
      exact leAt_completeCell y

/-! ## Discards -/

/-- The state in which a unit's discard has been decided, before its reduction rounds end (13 R427). -/
def discarded (s : State) (wu : Nat) (x : WorkUnit) : State :=
  modUnit (modReins (x.runs.foldl decideRun s) fun r =>
    { r with waits := r.waits.filter fun w => match w.ref with | some x => x.wu != wu | none => true }) wu fun u =>
      { u with decided := true }

theorem exec_discardDecision (hx : findUnit s wu = some x) (hund : x.decided = false) (hc : x.causes ≠ []) :
    exec (.discardDecision t wu) s = .next (decideEnd (discarded (atMt s t) wu x) (wu, x.epoch)) := by
  show execDiscardDecision t wu s = _
  unfold execDiscardDecision
  dsimp only
  rw [show findUnit (atMt s t) wu = some x from hx]
  exact (if_neg (by simp [hund, hc])).trans rfl

/-- The unit of a decided discard, whose other fields stand. -/
theorem findUnit_discarded (hx : findUnit s wu = some x) :
    ∃ y, findUnit (discarded s wu x) wu = some y ∧ y.decided = true ∧ y.epoch = x.epoch := by
  obtain ⟨z, hz, -, hep⟩ := (unitsStep_decide x.runs s).find hx
  have hz' : findUnit (modReins (x.runs.foldl decideRun s) fun r => { r with waits := r.waits.filter fun w =>
      match w.ref with | some x => x.wu != wu | none => true }) wu = some z := by
    rw [← hz]
    exact findUnit_disp rfl _
  refine ⟨{ z with decided := true }, ?_, rfl, hep⟩
  unfold discarded
  rw [findUnit_modUnit (by intro _; rfl), hz']
  rfl

theorem mem_waits_discarded {w : Wait} (h : w ∈ (discarded s wu x).reins.waits) (q : DescRef) (hq : w.ref = some q) : q.wu ≠ wu := by
  obtain ⟨-, hkeep⟩ := List.mem_filter.mp h
  simpa [hq] using hkeep

theorem discarded_pairs (s : State) (wu : Nat) (x : WorkUnit) :
    (discarded s wu x).reins.pairsUsed = (x.runs.foldl decideRun s).reins.pairsUsed := rfl

theorem exec_memberTicketDrop (hx : findUnit s wu = some x) (hdec : x.decided = true) (hl : x.holds.contains l = true)
    (hn : x.confirmed.contains l = false) : exec (.memberTicketDrop t l wu) s =
      .next (modUnit (modClu (atMt s t) (physOf s l) (dropTickets wu)) wu fun u => { u with confirmed := u.confirmed ++ [l] }) := by
  show execMemberTicketDrop t l wu s = _
  unfold execMemberTicketDrop
  dsimp only
  rw [show findUnit (atMt s t) wu = some x from hx]
  exact (if_pos (by rw [hdec, hl, hn]; rfl)).trans rfl

/-- The outputs of a unit's open cuts freed. -/
def freeCuts (s : State) (x : WorkUnit) : State := (x.runs.filter fun d => isCut d.op || d.op == 0x30).foldl freeOutputs s

theorem freeCuts_same (s : State) (x : WorkUnit) :
    (freeCuts s x).disp = s.disp ∧ (freeCuts s x).pdk = s.pdk ∧ (freeCuts s x).clock = s.clock := by
  have hfold : ∀ (l : List DRun) (v : State), SameBut [.clu, .hbm, .free] v (l.foldl freeOutputs v) := by
    intro l
    induction l with
    | nil => exact fun v => SameBut.refl _ _
    | cons a l ih =>
      intro v
      exact SameBut.trans (freeOutputs_keeps (Keeps.refl _ v) (by decide) (by decide) (by decide)).parts (ih _)
  have h := hfold (x.runs.filter fun d => isCut d.op || d.op == 0x30) s
  exact ⟨h.same .disp (by decide), h.same .pdk (by decide), h.same .clock (by decide)⟩

/-- The state in which a discarded unit has left with its notice (13 R431). -/
def noticed (s : State) (wu : Nat) (x : WorkUnit) (c : Cause) : State :=
  retire (dropUnit (pdkAppend s 4 9 { hasWu := true, source := 549, wuId := x.wuId, epoch := x.epoch
                                      payload := discardCell x c (now s) }) wu) wu x.epoch

theorem exec_discardRelease (hx : findUnit s wu = some x) (hc : noticeCause x.causes = some c) (hrel : releasable s x = true) :
    exec (.discardRelease t wu) s = .next (noticed (freeCuts (atMt s t) x) wu x c) := by
  show execDiscardRelease t wu s = _
  unfold execDiscardRelease
  dsimp only
  rw [show findUnit (atMt s t) wu = some x from hx]
  dsimp only
  rw [hc]
  exact (if_pos (show releasable (atMt s t) x = true from hrel)).trans rfl

theorem noticed_what (s : State) (wu : Nat) (x : WorkUnit) (c : Cause) : findUnit (noticed s wu x c) wu = none ∧
    (∃ l, (noticed s wu x c).disp.retired = l ++ [{ wuId := wu, epoch := x.epoch, mt := now s, ended := false }]) ∧
    now (noticed s wu x c) = now s ∧
    ∃ it, pdkItems (noticed s wu x c) 4 9 = pdkItems s 4 9 ++ [it] ∧ it.wuId = x.wuId ∧ it.epoch = x.epoch ∧
      it.payload = discardCell x c (now s) :=
  ⟨findUnit_filter _ _, ⟨_, rfl⟩, rfl, _, pdkItems_pdkAppend s 4 9 _, rfl, rfl, rfl⟩

/-- Settles O40: the decision by the unit, waits and pairs it leaves, a drop by the member it changes, the release by its notice. -/
theorem discards : Obligations.Discards := by
  refine ⟨?decision, ?drop, ?release⟩
  case decision =>
    intro s t wu x hx hund hc
    obtain ⟨hunits, hreins⟩ := unitsStep_end (discarded (atMt s t) wu x) (wu, x.epoch)
    obtain ⟨y, hy, hdec, hep⟩ := findUnit_discarded (s := atMt s t) hx
    obtain ⟨z, hz, hzdec, hzep⟩ := hunits.find hy
    refine ⟨_, exec_discardDecision hx hund hc, ⟨z, hz, hzdec.trans hdec, hzep.trans hep⟩, fun w hw q hq => ?_,
      fun d hd p hp hopen => ?_⟩
    · rw [hreins] at hw
      exact mem_waits_discarded hw q hq
    · rw [hreins, discarded_pairs]
      exact (decide_pairs x.runs (atMt s t)).2 d hd p hp hopen
  case drop =>
    intro s t l wu x hx hdec hl hn
    refine ⟨_, exec_memberTicketDrop hx hdec hl hn, ?_, getClu_modClu_same _ _ _, fun q hq => getClu_modClu_other _ _ hq⟩
    rw [findUnit_modUnit (by intro _; rfl)]
    show (findUnit s wu).map _ = _
    rw [hx]
    rfl
  case release =>
    intro s t wu x c hx hc hrel
    obtain ⟨hdisp, hpdk, hclock⟩ := freeCuts_same (atMt s t) x
    obtain ⟨hgone, ⟨l, hret⟩, hnow, it, hit, hwu, hep, hpay⟩ := noticed_what (freeCuts (atMt s t) x) wu x c
    refine ⟨_, exec_discardRelease hx hc hrel, hgone, ⟨l, ?_⟩, it, ?_, hwu.trans (findUnit_id hx), hep, ?_⟩
    · rw [hret, hnow]
    · rw [hit]
      unfold pdkItems
      rw [hpdk]
      rfl
    · rw [hpay, hnow]

/-- Settles O41: both commands are one pass over the record. -/
theorem identifierQuarantine : Obligations.IdentifierQuarantine :=
  ⟨fun _ _ _ => ⟨_, rfl, rfl⟩, fun _ _ _ => ⟨_, rfl, rfl⟩⟩

end Sys2Proof.Completion
end

section
/-! SUPPORT. The issue of a unit's next descriptor (06 R176 to R189) and what WAIT, SIGNAL and BARRIER do when they act. -/

namespace Sys2Proof.Issue

open Sys2Proof Sys2Proof.Machine Sys2Proof.Safety Sys2Proof.Laws Sys2Proof.Reins

variable {s v : State} {c : Instr} {t wu op n : Nat} {x : WorkUnit} {d : DRun}

/-! ## The state an issue leaves -/

/-- The run of an issued descriptor: a SIGNAL keeps its counter's epoch (R188). -/
def issuedRun (s : State) (x : WorkUnit) (d : DRun) : DRun :=
  { d with pairEpoch := if d.op = 0x21 then (getCtr s (dCounter (nextRaw x))).epoch else 0 }

/-- The state in which the descriptor has taken its place, before it acts. -/
def placedState (s : State) (wu : Nat) (x : WorkUnit) (d : DRun) (n : Nat) : State :=
  markOverlaps (placeRun s x d n) wu d

theorem exec_issues (hc : issueOp c = some (t, wu, op)) (h : Issues s t wu op x d n) : exec c s =
    .next (issueEffect (placedState (atMt s t) wu x (issuedRun s x d) n) wu (issuedRun s x d)) :=
  (issue_exec hc s).trans (congrArg _ (issue_eq h))

theorem placedState_keeps (s : State) (wu : Nat) (x : WorkUnit) (d : DRun) (n : Nat) :
    Keeps [.disp, .reins, .pdk, .clu] s (placedState s wu x d n) :=
  markOverlaps_keeps (placeRun_keeps (Keeps.refl _ s) (by decide) (by decide)) (by decide)

theorem placedState_reins (s : State) (wu : Nat) (x : WorkUnit) (d : DRun) (n : Nat) : (placedState s wu x d n).reins = s.reins :=
  mark_reins s wu x d n

theorem getCtr_of_reins {u v : State} (h : u.reins = v.reins) (k : Nat) : getCtr u k = getCtr v k := by
  unfold getCtr
  rw [h]

/-- The parts that no issue touches. -/
theorem issued_parts (s : State) (wu : Nat) (x : WorkUnit) (d : DRun) (n : Nat) :
    SameBut [.disp, .reins, .pdk, .clu] s (issueEffect (placedState s wu x d n) wu d) :=
  (issueEffect_keeps (placedState_keeps s wu x d n) (by decide) (by decide) (by decide)).parts

/-- A descriptor that is no synchronisation leaves the Reins alone. -/
theorem issueEffect_reins (s : State) (wu : Nat) (h20 : d.op ≠ 0x20) (h21 : d.op ≠ 0x21) (h22 : d.op ≠ 0x22) :
    (issueEffect s wu d).reins = s.reins := by
  have hpre : ∀ (y z : TView) (l : List Nat) (v : State), (l.foldl (fun s l => preloadInto s d y z l) v).reins = v.reins := by
    intro y z l
    induction l with
    | nil => exact fun v => rfl
    | cons a l ih =>
      intro v
      exact (ih _).trans ((preloadInto_keeps (M := [.disp, .clu]) (Keeps.refl _ v) (by decide) (by decide)).parts.same .reins (by decide))
  unfold issueEffect
  split
  · contradiction
  · contradiction
  · contradiction
  · split
    · split
      · rfl
      · exact hpre _ _ _ _
    · rfl
  · exact (emptyStats_keeps (M := [.disp, .clu]) (Keeps.refl _ s) (by decide) (by decide)).parts.same .reins (by decide)

/-- The core of the unit after the issue: the descriptor has its place, whatever it then did. -/
theorem issued_core (hx : findUnit s wu = some x) (hraw : d.raw = nextRaw x) :
    (findUnit (issueEffect (placedState s wu x (issuedRun s x d) n) wu (issuedRun s x d)) wu).map unitCore =
      some (unitCore (issuedUnit x d n (now s) s.ctl.fwVersion)) := by
  have hcore : SameCore wu (placeRun s x (issuedRun s x d) n)
      (issueEffect (placedState s wu x (issuedRun s x d) n) wu (issuedRun s x d)) := cr_effect (cr_mark (SameCore.refl _))
  have hrun : runCore (issuedRun s x d) = runCore d := rfl
  have hraw' : (issuedRun s x d).raw = nextRaw x := hraw
  unfold SameCore at hcore
  rw [hcore, placed hx, Option.map_some, hraw']
  simp only [unitCore, issuedUnit, List.map_append, List.map_cons, List.map_nil, hrun]

/-! ## Issues that place nothing -/

theorem exec_issue_breach {w : Why} (hc : issueOp c = some (t, wu, op)) (hx : findUnit s wu = some x)
    (hm : mayIssue (atMt s t) x op = true) (he : issueRun (atMt s t) x (nextRef x) (nextRaw x) = .error w) :
    exec c s = .next (issueCause (atMt s t) (nextRef x) w) := by
  rw [issue_exec hc s]
  unfold issueNext
  rw [show findUnit (atMt s t) wu = some x from hx]
  dsimp only
  rw [if_neg (by simp [hm]), he]

theorem exec_issue_waits (hc : issueOp c = some (t, wu, op)) (hx : findUnit s wu = some x)
    (hm : mayIssue (atMt s t) x op = false) : exec c s = .next (atMt s t) := by
  rw [issue_exec hc s]
  unfold issueNext
  rw [show findUnit (atMt s t) wu = some x from hx]
  exact congrArg _ (if_pos hm)

/-! ## WAIT, SIGNAL and BARRIER -/

theorem issueEffect_wait (h : d.op = 0x22) (s : State) (wu : Nat) : issueEffect s wu d = issueWait s d := by
  unfold issueEffect
  rw [h]
  rfl

theorem issueEffect_sync {y : WorkUnit} (h : d.op = 0x20 ∨ d.op = 0x21) (hy : findUnit s wu = some y)
    (he : earlierDone y d.ref = true) : issueEffect s wu d = actSync s d := by
  have hact : (match findUnit s wu with
      | some u => if earlierDone u d.ref = true then actSync s d else s
      | none => s) = actSync s d := by
    rw [hy]
    exact if_pos he
  unfold issueEffect
  obtain h | h := h
  · rw [h]
    exact hact
  · rw [h]
    exact hact

/-- The entry a WAIT makes when its counter does not satisfy it (R187). -/
def waitEntry (s : State) (raw : List Byte) (r : DescRef) : Wait :=
  { ctr := dCounter raw, req := 549, target := bits (dParam0 raw) 31 0, equal := var0 raw
    epoch := some (getCtr s (dCounter raw)).epoch, ref := some r }

theorem issueWait_reins (s : State) (d : DRun) : (issueWait s d).reins =
    if waitHolds (waitEntry s d.raw d.ref) (getCtr s (dCounter d.raw)).value = true then s.reins
    else { s.reins with waits := s.reins.waits ++ [waitEntry s d.raw d.ref] } := by
  unfold issueWait
  exact apply_ite State.reins _ _ _

theorem actSync_signal (h : d.op = 0x21) (he : refusedEpoch s (dCounter d.raw) (some d.pairEpoch) = false) :
    actSync s d = setCtrValue (modRun s d.ref fun x => { x with phase := 1 }) (dCounter d.raw)
      ((getCtr s (dCounter d.raw)).value + BitVec.ofNat 32 (bits (dParam0 d.raw) 31 0)) := by
  have he' : refusedEpoch (modRun s d.ref fun x => { x with phase := 1 }) (dCounter d.raw) (some d.pairEpoch) = false := he
  unfold actSync
  dsimp only
  rw [if_pos h, fetchAdd_of_accepted he']
  rfl

theorem setBar_counters (s : State) (b : Nat) (y : Barrier) : (setBar s b y).reins.counters = s.reins.counters := rfl

/-- An arrival that is accepted says so. -/
theorem arriveBarrier_taken {b p : Nat} (r : Arrival) (h : (getBar s b).arrivals = [] ∨ (getBar s b).parties = p) :
    (arriveBarrier s b p r).2 = true := by
  have hacc : ¬ ((getBar s b).arrivals.isEmpty = false ∧ (getBar s b).parties ≠ p) := by
    obtain h | h := h <;> simp [h]
  unfold arriveBarrier
  dsimp only
  rw [if_neg hacc]
  split <;> rfl

theorem actSync_barrier_reins (h : d.op = 0x20)
    (hbar : (getBar s (dBarrier d.raw)).arrivals = [] ∨ (getBar s (dBarrier d.raw)).parties = dParam0 d.raw) :
    (actSync s d).reins = (setBar s (dBarrier d.raw) (if (getBar s (dBarrier d.raw)).arrivals.length + 1 < dParam0 d.raw then
      { getBar s (dBarrier d.raw) with parties := dParam0 d.raw
                                       arrivals := (getBar s (dBarrier d.raw)).arrivals ++ [{ req := 549, ref := some d.ref }] }
      else { gen := ((getBar s (dBarrier d.raw)).gen + 1) % 256 })).reins := by
  have hreins := arriveBarrier_accepted (s := modRun (modRun s d.ref fun x => { x with phase := 1 }) d.ref fun x =>
    { x with waiting := true }) { req := 549, ref := some d.ref } hbar
  have htaken := arriveBarrier_taken (s := modRun (modRun s d.ref fun x => { x with phase := 1 }) d.ref fun x =>
    { x with waiting := true }) { req := 549, ref := some d.ref } hbar
  unfold actSync
  dsimp only
  rw [if_neg (by rw [h]; decide)]
  generalize arriveBarrier _ _ _ _ = q at hreins htaken ⊢
  obtain ⟨v, ok⟩ := q
  obtain rfl : ok = true := htaken
  exact hreins

/-- Settles O35: the state of an issue is the placed descriptor and then its effect; each clause reads one of the two. -/
theorem descriptorIssue : Obligations.DescriptorIssue := by
  refine ⟨?placed, ?breach, ?waits, ?wait, ?signal, ?barrier⟩
  case placed =>
    intro c t wu op s x d n hc h
    obtain ⟨hraw, hop, -⟩ := issue_s3 h.2.2.1
    have hparts := issued_parts (atMt s t) wu x (issuedRun s x d) n
    have hnow : now (issueEffect (placedState (atMt s t) wu x (issuedRun s x d) n) wu (issuedRun s x d)) = now (atMt s t) :=
      now_same (hparts.same .clock (by decide))
    have hcore := issued_core (s := atMt s t) (n := n) h.1 hraw
    obtain ⟨y, hy, hycore⟩ := Option.map_eq_some_iff.mp hcore
    refine ⟨_, exec_issues hc h, ⟨y, hy, ?_⟩, hparts.same .hbm (by decide), hparts.same .peers (by decide), fun h20 h21 h22 => ?_⟩
    · rw [hnow]
      exact hycore
    · rw [← hop] at h20 h21 h22
      rw [issueEffect_reins (d := issuedRun s x d) _ wu h20 h21 h22, placedState_reins]
      rfl
  case breach =>
    intro c t wu op s x w hc hx hm he
    refine ⟨_, exec_issue_breach hc hx hm he, ?_, rfl, rfl, rfl⟩
    unfold issueCause addCauseK
    rw [show (nextRef x).wu = wu from findUnit_id hx, findUnit_modUnit (by intro _; rfl)]
    show (findUnit s wu).map _ = _
    rw [hx]
    rfl
  case waits =>
    intro c t wu op s x hc hx hm
    exact ⟨_, exec_issue_waits hc hx hm, rfl⟩
  case wait =>
    intro s t wu x d n k h hop hk
    subst hk
    obtain ⟨hraw, hdop, href⟩ := issue_s3 h.2.2.1
    have hexec := exec_issues (c := .wait t wu) rfl h
    rw [issueEffect_wait (d := issuedRun s x d) (hdop.trans hop)] at hexec
    have hreins := issueWait_reins (placedState (atMt s t) wu x (issuedRun s x d) n) (issuedRun s x d)
    have hplaced := placedState_reins (atMt s t) wu x (issuedRun s x d) n
    rw [show waitEntry (placedState (atMt s t) wu x (issuedRun s x d) n) (issuedRun s x d).raw (issuedRun s x d).ref =
      waitEntry s (nextRaw x) (nextRef x) by
        unfold waitEntry
        rw [getCtr_of_reins hplaced, show (issuedRun s x d).raw = nextRaw x from hraw, show (issuedRun s x d).ref = nextRef x from href]
        rfl, getCtr_of_reins hplaced, hplaced, show (issuedRun s x d).raw = nextRaw x from hraw] at hreins
    refine ⟨_, hexec, ?_⟩
    by_cases hw : waitHolds (waitEntry s (nextRaw x) (nextRef x)) (getCtr s (dCounter (nextRaw x))).value = true
    · refine (if_pos ((waitHolds_iff _ _).mp hw)).mpr ?_
      rw [hreins]
      exact if_pos hw
    · have hsame : (issueWait (placedState (atMt s t) wu x (issuedRun s x d) n) (issuedRun s x d)).reins =
          { s.reins with waits := s.reins.waits ++ [waitEntry s (nextRaw x) (nextRef x)] } := by
        rw [hreins]
        exact if_neg hw
      refine (if_neg fun hc => hw ((waitHolds_iff _ _).mpr hc)).mpr ?_
      rw [hsame]
      exact ⟨rfl, rfl⟩
  case signal =>
    intro s t wu x d n k h hop hk hdone hep
    subst hk
    obtain ⟨hraw, hdop, -⟩ := issue_s3 h.2.2.1
    obtain ⟨y, hy, hearly⟩ : ∃ y, findUnit (placedState (atMt s t) wu x (issuedRun s x d) n) wu = some y ∧
      earlierDone y (issuedRun s x d).ref = true := early h hdone
    have hop' : (issuedRun s x d).op = 0x21 := hdop.trans hop
    have hexec := exec_issues (c := .signal t wu) rfl h
    rw [issueEffect_sync (.inr hop') hy hearly] at hexec
    have hplaced := getCtr_of_reins (placedState_reins (atMt s t) wu x (issuedRun s x d) n)
    have hpair : (issuedRun s x d).pairEpoch = (getCtr s (dCounter (nextRaw x))).epoch := if_pos hop'
    have hopen : refusedEpoch (placedState (atMt s t) wu x (issuedRun s x d) n) (dCounter (issuedRun s x d).raw)
        (some (issuedRun s x d).pairEpoch) = false := by
      unfold refusedEpoch
      rw [hplaced, show (issuedRun s x d).raw = nextRaw x from hraw, hpair]
      simp [Nat.mod_eq_of_lt hep, show getCtr (atMt s t) (dCounter (nextRaw x)) = getCtr s (dCounter (nextRaw x)) from rfl]
    rw [actSync_signal hop' hopen, hplaced, show (issuedRun s x d).raw = nextRaw x from hraw] at hexec
    refine ⟨_, hexec, ?_, fun m hm => ?_⟩
    · rw [getCtr_setCtrValue]
      exact congrArg (fun c : Counter => ({ c with value := _ } : Counter)) (hplaced (dCounter (nextRaw x)))
    · rw [getCtr_setCtrValue_other _ _ hm]
      exact hplaced m
  case barrier =>
    intro s t wu x d n b p h hop hb hp hdone hbar
    subst hb hp
    obtain ⟨hraw, hdop, href⟩ := issue_s3 h.2.2.1
    obtain ⟨y, hy, hearly⟩ : ∃ y, findUnit (placedState (atMt s t) wu x (issuedRun s x d) n) wu = some y ∧
      earlierDone y (issuedRun s x d).ref = true := early h hdone
    have hop' : (issuedRun s x d).op = 0x20 := hdop.trans hop
    have hraw' : (issuedRun s x d).raw = nextRaw x := hraw
    have href' : (issuedRun s x d).ref = nextRef x := href
    have hexec := exec_issues (c := .barrier t wu) rfl h
    rw [issueEffect_sync (.inl hop') hy hearly] at hexec
    have hplaced := placedState_reins (atMt s t) wu x (issuedRun s x d) n
    have hbar' : getBar (placedState (atMt s t) wu x (issuedRun s x d) n) (dBarrier (nextRaw x)) = getBar s (dBarrier (nextRaw x)) :=
      getBar_reins hplaced _
    have hreins := actSync_barrier_reins (s := placedState (atMt s t) wu x (issuedRun s x d) n) hop' (by rw [hraw', hbar']; exact hbar)
    rw [hraw', href', hbar'] at hreins
    refine ⟨_, hexec, ?_, ?_⟩
    · rw [getBar_reins hreins, getBar_setBar_same]
    · rw [hreins, setBar_counters, hplaced]
      rfl

end Sys2Proof.Issue
end

section
/-! SUPPORT. The end of a pass (04 R120 to R124) and the residue and checksum checkpoints (03 R96, R97). -/

namespace Sys2Proof.Passes

open Sys2Proof Sys2Proof.Machine Sys2Proof.Safety Sys2Proof.Laws

variable {s : State} {t l p span stall : Nat} {x : Running} {d : DRun}

/-! ## A pass closed -/

/-- A running ticket with the cycles of an attempt counted. -/
def attempted (x : Running) (span stall : Nat) : Running := { x with cycles := x.cycles + span, stalls := x.stalls + stall }

/-- The drain that a pass becomes. -/
def drainOf (x : Running) : Drain :=
  { ref := x.ref, rank := x.rank, tk := x.tk, pass := x.pass, last := x.pass + 1 == x.passes.length, shift := x.shift
    acc := x.fill, bad := nth [] x.bads x.pass, live := x.live }

/-- The next pass of the same ticket. -/
def nextPass (d : DRun) (x : Running) : Running :=
  fillPass d { x with pass := x.pass + 1, shift := if d.isInt then dInitShift d.raw else 0 }

theorem getClu_closePass (s : State) (p l : Nat) (d : DRun) (x : Running) :
    (getClu (closePass s p l d x) p).drain = some (drainOf x) ∧
    if x.pass + 1 = x.passes.length then
      (getClu (closePass s p l d x) p).running = (getClu s p).nextUp ∧ (getClu (closePass s p l d x) p).nextUp = none
    else (getClu (closePass s p l d x) p).running = some (nextPass d x) := by
  have htrace : ∀ (v : State) (k n : Nat) (b : List Byte), getClu (traceTicket v k l d n b) p = getClu v p :=
    fun v k n b => getClu_clu (congrArg Clusters.phys (trace_disp_run v k l d n b).2) p
  unfold closePass
  dsimp only
  by_cases hlast : x.pass + 1 = x.passes.length
  · rw [if_pos (by simpa using hlast), if_pos hlast, getClu_modClu_same, htrace, htrace]
    exact ⟨rfl, rfl, rfl⟩
  · rw [if_neg (by simpa using hlast), if_neg hlast, getClu_modClu_same]
    exact ⟨rfl, rfl⟩

/-! ## The three commands, on a running ticket -/

section Running

variable (hx : (getClu s (physOf s l)).running = some x) (hd : findRun s x.ref = some d)
include hx hd

theorem exec_passEnd : exec (.passEnd t l span stall) s =
    if (d.isInt && !(x.fill.all residueOk)) = true then .next (declareFailed (atMt s t) (physOf s l) 0x03)
    else if (!(d.isInt && x.fill.any (·.mark) && decide (x.shift < 8)) && (getClu s (physOf s l)).drain.isSome) = true then .next (atMt s t)
    else if (d.isInt && x.fill.any (·.mark) && decide (x.shift < 8)) = true then
      .next (modClu (countAttempt (atMt s t) (physOf s l) x span stall) (physOf s l) fun c =>
        { c with running := some (fillPass d { attempted x span stall with shift := x.shift + 1 }) })
    else .next (closePass (countAttempt (atMt s t) (physOf s l) x span stall) (physOf s l) l d (attempted x span stall)) := by
  show execPassEnd t l span stall s = _
  unfold execPassEnd
  dsimp only
  rw [show (getClu (atMt s t) (physOf (atMt s t) l)).running = some x from hx]
  dsimp only
  rw [show findRun (atMt s t) x.ref = some d from hd]
  rfl

theorem exec_residueCheckpoint : exec (.residueCheckpoint t l none) s =
    if (!d.isInt) = true then .next (atMt s t)
    else if (x.fill.all residueOk) = true then .next (modClu (atMt s t) (physOf s l) fun c => { c with running := some x })
    else .next (declareFailed (atMt s t) (physOf s l) 0x03) := by
  show execResidueCheckpoint t l none s = _
  unfold execResidueCheckpoint
  dsimp only
  rw [show (getClu (atMt s t) (physOf (atMt s t) l)).running = some x from hx]
  dsimp only
  rw [show findRun (atMt s t) x.ref = some d from hd]
  rfl

theorem exec_checksumCheckpoint {fails : Bool} : exec (.checksumCheckpoint t l fails) s =
    if (!d.isInt && fails) = true then .next (declareFailed (atMt s t) (physOf s l) 0x04) else .next (atMt s t) := by
  show execChecksumCheckpoint t l fails s = _
  unfold execChecksumCheckpoint
  dsimp only
  rw [show (getClu (atMt s t) (physOf (atMt s t) l)).running = some x from hx]
  dsimp only
  rw [show findRun (atMt s t) x.ref = some d from hd]
  rfl

end Running

theorem getClu_countAttempt (s : State) (p : Nat) (x : Running) (span stall : Nat) :
    getClu (countAttempt s p x span stall) p = { getClu s p with
      stall := cap32 ((getClu s p).stall + stall), useful := (getClu s p).useful + nth 0 x.useful x.pass
      peak := (getClu s p).peak + x.rate * (span - stall), idleSince := now s } := getClu_modClu_same _ _ _

/-- Settles O37: which branch of a pass's end, or of a checkpoint, the marks and residues choose, and what it leaves. -/
theorem passesAndCheckpoints : Obligations.PassesAndCheckpoints := by
  refine ⟨?repeats, ?closes, ?residue, ?holds, ?checksum⟩
  case repeats =>
    intro s t l p x d span stall hp hx hd hint hok hmark hshift
    subst hp
    have hexec := exec_passEnd (t := t) (span := span) (stall := stall) hx hd
    rw [if_neg (by simp [hok]), if_neg (by simp [hint, hmark, hshift]), if_pos (by simp [hint, hmark, hshift])] at hexec
    refine ⟨_, hexec, ?_, ?_, ?_, ?_, rfl⟩ <;> rw [getClu_modClu_same, getClu_countAttempt] <;> rfl
  case closes =>
    intro s t l p x d span stall hp hx hd hcase hdrain
    subst hp
    have hres : ¬ (d.isInt && !(x.fill.all residueOk)) = true := by
      obtain h | ⟨h, -⟩ := hcase <;> simp [h]
    have hretry : ¬ (d.isInt && x.fill.any (·.mark) && decide (x.shift < 8)) = true := by
      obtain h | ⟨-, h | h⟩ := hcase
      · simp [h]
      · simp [h]
      · simp [Nat.not_lt.mpr h]
    have hexec := exec_passEnd (t := t) (span := span) (stall := stall) hx hd
    rw [if_neg hres, if_neg (by simp [hdrain]), if_neg hretry] at hexec
    obtain ⟨hclosed, hnext⟩ := getClu_closePass (countAttempt (atMt s t) (physOf s l) x span stall) (physOf s l) l d
      (attempted x span stall)
    refine ⟨_, hexec, hclosed, ?_⟩
    rw [getClu_countAttempt] at hnext
    exact hnext
  case residue =>
    intro s t l p x d hp hx hd hint hbad hh
    subst hp
    have hdown := (declareFailed_down (atMt s t) (physOf s l) 0x03 hh).1
    refine ⟨fun span stall => ?_, ?_⟩
    · have hexec := exec_passEnd (t := t) (span := span) (stall := stall) hx hd
      rw [if_pos (by simp [hint, hbad])] at hexec
      exact ⟨_, hexec, hdown⟩
    · have hexec := exec_residueCheckpoint (t := t) hx hd
      rw [if_neg (by simp [hint]), if_neg (by simp [hbad])] at hexec
      exact ⟨_, hexec, hdown⟩
  case holds =>
    intro s t l p x d hp hx hd hint hok
    subst hp
    have hexec := exec_residueCheckpoint (t := t) hx hd
    rw [if_neg (by simp [hint]), if_pos hok] at hexec
    refine ⟨_, hexec, ?_, rfl⟩
    rw [getClu_modClu_same]
  case checksum =>
    intro s t l p x d fails hp hx hd hint hh
    subst hp
    have hexec := exec_checksumCheckpoint (t := t) (fails := fails) hx hd
    cases fails with
    | true =>
      rw [if_pos (by simp [hint])] at hexec
      exact ⟨_, hexec, (declareFailed_down (atMt s t) (physOf s l) 0x04 hh).1⟩
    | false =>
      rw [if_neg (by simp)] at hexec
      exact ⟨_, hexec, rfl⟩

end Sys2Proof.Passes
end

section
/-! SUPPORT. Drains, reduction trees, finished tiles and the two phases of a compressed output (04 R125 to R133, R145; 07 R218). -/

namespace Sys2Proof.Drains

open Sys2Proof Sys2Proof.Machine Sys2Proof.Safety Sys2Proof.Laws

variable {s v : State} {t l p tile lo hi : Nat} {r : DescRef} {d : DRun} {dr : Drain} {a b : TreeEntry}

/-! ## Drains -/

/-- The values a drain adds up: the wide buffer's and the pass's (04 R126). -/
def drainedVals (c : Cluster) (d : DRun) (dr : Drain) : List (LeafVal × Bool) :=
  ((numsFrom 0 dr.acc.length).zip dr.acc).map fun e =>
    wideAdd (dr.pass == 0) (nth (.i64 0, false) c.wide e.1) (widen d.isInt dr.shift e.2, nth false dr.bad e.1)

/-- The state in which the drain has left its cluster, a saturated value noted. -/
def drained (s : State) (p : Nat) (d : DRun) (dr : Drain) : State :=
  if (drainedVals (getClu s p) d dr).any (fun v => leafLimit v.1) = true then
    modRun (modClu s p fun c => { c with drain := none, wide := [] }) d.ref fun y => { y with satPersist := true }
  else modClu s p fun c => { c with drain := none, wide := [] }

theorem getClu_modRun (s : State) (r : DescRef) (f : DRun → DRun) (p : Nat) : getClu (modRun s r f) p = getClu s p := rfl

theorem getClu_drained (s : State) (p : Nat) (d : DRun) (dr : Drain) :
    getClu (drained s p d dr) p = { getClu s p with drain := none, wide := [] } := by
  unfold drained
  split
  · rw [getClu_modRun, getClu_modClu_same]
  · exact getClu_modClu_same _ _ _

theorem drained_parts (s : State) (p : Nat) (d : DRun) (dr : Drain) :
    (drained s p d dr).hbm = s.hbm ∧ (drained s p d dr).reins = s.reins := by
  unfold drained
  split <;> exact ⟨rfl, rfl⟩

/-- The run stands, at most marked as saturated. -/
theorem findRun_drained (hd : findRun s dr.ref = some d) (p : Nat) :
    ∃ d', findRun (drained s p d dr) dr.ref = some d' ∧ d'.trees = d.trees := by
  have href := run_ref hd
  unfold drained
  rw [href]
  refine ⟨_, drain_y (s := modClu s p fun c => { c with drain := none, wide := [] }) hd href, ?_⟩
  split <;> rfl

section Drain

variable (hdr : (getClu s (physOf s l)).drain = some dr) (hd : findRun s dr.ref = some d)
include hdr hd

theorem exec_drainDone : exec (.drainDone t l) s =
    if dr.last = true then
      .next (ticketValues (drained (atMt s t) (physOf s l) d dr) d l dr.tk
        ((dr.live.zip (drainedVals (getClu s (physOf s l)) d dr)).map fun e => if e.1 then some e.2.1 else none)
        ((drainedVals (getClu s (physOf s l)) d dr).map (·.2)))
    else .next (modClu (drained (atMt s t) (physOf s l) d dr) (physOf s l) fun c =>
      { c with wide := drainedVals (getClu s (physOf s l)) d dr }) := by
  have hd' : findRun (modClu (atMt s t) (physOf s l) fun c => { c with drain := none, wide := [] }) dr.ref = some d := hd
  show execDrainDone t l s = _
  unfold execDrainDone
  dsimp only
  rw [show (getClu (atMt s t) (physOf (atMt s t) l)).drain = some dr from hdr]
  dsimp only
  rw [show findRun (modClu (atMt s t) (physOf (atMt s t) l) fun c => { c with drain := none, wide := [] }) dr.ref = some d from hd']
  rfl

end Drain

/-! ## Tree nodes -/

/-- The state in which a node's two children have become one entry (07 R218). -/
def combined (s : State) (r : DescRef) (d : DRun) (h : Nat) (a b e : TreeEntry) : State :=
  traceTicket (modRun s r fun x => { x with
    trees := (x.trees.filter fun y => y != a && y != b) ++ [e]
    satPersist := x.satPersist || e.vals.any fun o => match o with | some v => leafLimit v | none => false }) 4 h d r.ticket []

theorem findRun_combined (hd : findRun s r = some d) (h : Nat) (a b e : TreeEntry) :
    ∃ d', findRun (combined s r d h a b e) r = some d' ∧ d'.trees = (d.trees.filter fun y => y != a && y != b) ++ [e] ∧
      d'.rooted = d.rooted ∧ d'.ref = r ∧ (pathOpen d tile → pathOpen d' tile) := by
  have href := run_ref hd
  refine ⟨_, (run_disp (trace_disp_run _ _ _ _ _ _).1 r).trans (run_mod hd href), rfl, rfl, href, fun h => h⟩

section Node

variable (hd : findRun s r = some d) (hs : served s (homeOf d tile) = true) (hh : (getClu s (physOf s (homeOf d tile))).halter = false)
  (hdrain : (getClu s (physOf s (homeOf d tile))).drain = none) (hn : nodeChildren d tile lo hi = some (a, b))
include hd hs hh hdrain hn

theorem exec_treeNode : exec (.treeNode t r tile lo hi) s =
    if lo = 0 ∧ hi = piecesOf d tile then
      .next (treeEnd (combined (atMt s t) r d (homeOf d tile) a b (combineEntries (dRedKind d.raw == 1 && d.op == 0x10) a b)) r
        (homeOf d tile) tile (combineEntries (dRedKind d.raw == 1 && d.op == 0x10) a b))
    else .next (combined (atMt s t) r d (homeOf d tile) a b (combineEntries (dRedKind d.raw == 1 && d.op == 0x10) a b)) := by
  have hfree : ¬ (!served (atMt s t) (homeOf d tile) || (getClu (atMt s t) (physOf (atMt s t) (homeOf d tile))).halter ||
      (getClu (atMt s t) (physOf (atMt s t) (homeOf d tile))).drain.isSome) = true := by
    rw [show served (atMt s t) (homeOf d tile) = true from hs,
      show (getClu (atMt s t) (physOf (atMt s t) (homeOf d tile))).halter = false from hh,
      show (getClu (atMt s t) (physOf (atMt s t) (homeOf d tile))).drain = none from hdrain]
    simp
  show execTreeNode t r tile lo hi s = _
  unfold execTreeNode
  dsimp only
  rw [show findRun (atMt s t) r = some d from hd]
  dsimp only
  rw [if_neg hfree, hn]
  rfl

end Node

theorem treeEnd_found {h : Nat} {e : TreeEntry} (hd : findRun s r = some d) :
    treeEnd s r h tile e = finishTile s d h tile e.vals e.bad := by
  unfold treeEnd
  rw [hd]

/-! ## Tiles done and the two phases -/

theorem exec_tileDone (hd : findRun s r = some d) (hp : d.pair = some p) (hroot : tile ∈ d.rooted) (hdone : tile ∉ d.done)
    (hphase : isPhased d = true → d.phase = 2) (hlate : writesLate d = true → d.tiles ≤ d.rooted.length)
    (hep : d.pairEpoch % 256 = (getCtr s (doneCtr p)).epoch) : exec (.tileDone t r tile) s =
      .next (modRun (setCtrValue (atMt s t) (doneCtr p) ((getCtr s (doneCtr p)).value + 1)) r fun x => { x with done := x.done ++ [tile] }) := by
  have hready : ¬ (!d.rooted.contains tile || d.done.contains tile || (isPhased d && d.phase != 2) ||
      (writesLate d && !decide (d.rooted.length ≥ d.tiles))) = true := by
    simp only [Bool.or_eq_true, Bool.and_eq_true, Bool.not_eq_true', bne_iff_ne, List.contains_iff_mem, decide_eq_false_iff_not,
      not_or, not_and, not_not]
    simp only [List.contains_eq_mem, decide_eq_false_iff_not, not_not]
    exact ⟨⟨⟨hroot, hdone⟩, hphase⟩, hlate⟩
  show execTileDone t r tile s = _
  unfold execTileDone
  dsimp only
  rw [show findRun (atMt s t) r = some d from hd]
  dsimp only
  rw [hp]
  dsimp only
  rw [if_neg hready, fetch_ok (z := atMt s t) hep]
  rfl

theorem exec_compressCount (hd : findRun s r = some d) (hph : isPhased d = true) (h0 : d.phase = 0) (hne : d.tiles ≠ 0)
    (hall : d.tiles ≤ d.rooted.length) : exec (.compressCount t r) s = .next (modRun (atMt s t) r fun x =>
      { x with counts := (dedup (d.tickets.map (·.rho))).map (rangeCount d (finalStaged d)), phase := 1 }) := by
  show execCompressCount t r s = _
  unfold execCompressCount
  dsimp only
  rw [show findRun (atMt s t) r = some d from hd]
  exact if_pos (by simp [hph, h0, hne, hall])

/-- The second phase entered. -/
def placing (s : State) (r : DescRef) : State := modRun s r fun x => { x with phase := 2 }

theorem exec_compressPlace (hd : findRun s r = some d) (hph : isPhased d = true) (h1 : d.phase = 1) :
    exec (.compressPlace t r) s = (match placeOutput (placing (atMt s t) r) d with
      | .error w => .next (ticketCause (placing (atMt s t) r) d d.tickets.length w)
      | .ok (v, m) => .next (poisonCause v d d.tickets.length m)) := by
  show execCompressPlace t r s = _
  unfold execCompressPlace
  dsimp only
  rw [show findRun (atMt s t) r = some d from hd]
  exact (if_pos (by simp [hph, h1])).trans rfl

theorem poisonCause_parts (s : State) (d : DRun) (n : Nat) (m : Mark) :
    (poisonCause s d n m).hbm = s.hbm ∧ (poisonCause s d n m).reins = s.reins := by
  unfold poisonCause
  split <;> exact ⟨rfl, rfl⟩

/-- Settles O38: a drain by where its values go, a node by the tree it leaves, a tile and the two phases by the run. -/
theorem drainsTreesTiles : Obligations.DrainsTreesTiles := by
  refine ⟨?wide, ?leaf, ?whole, ?node, ?done, ?count, ?place⟩
  case wide =>
    intro s t l p c dr d hp hc hdr hd hlast
    subst hp hc
    have hexec := exec_drainDone (t := t) hdr hd
    rw [if_neg (by simp [hlast])] at hexec
    refine ⟨_, hexec, ?_, ?_, ?_⟩ <;> rw [getClu_modClu_same]
    · rw [getClu_drained]
    · rw [getClu_drained]
      rfl
    · rfl
  case leaf =>
    intro s t l p c dr d vals hp hc hdr hd hlast hmany hvals
    subst hp hc
    obtain rfl : vals = drainedVals (getClu s (physOf s l)) d dr := hvals
    have hexec := exec_drainDone (t := t) hdr hd
    rw [if_pos hlast] at hexec
    unfold ticketValues at hexec
    rw [if_neg (Nat.not_le.mpr hmany), run_ref hd] at hexec
    obtain ⟨d', hd', htrees⟩ := findRun_drained (s := atMt s t) hd (physOf s l)
    have hclu := getClu_drained (atMt s t) (physOf s l) d dr
    have href := run_ref hd'
    refine ⟨_, hexec, ?_, ?_, _, run_mod hd' href, ?_⟩
    · exact congrArg Cluster.drain hclu
    · exact congrArg Cluster.wide hclu
    · exact congrArg (· ++ [_]) htrees
  case whole =>
    intro s t l p c dr d hp hc hdr hd hlast hone hopen
    subst hp hc
    have hexec := exec_drainDone (t := t) hdr hd
    rw [if_pos hlast] at hexec
    unfold ticketValues at hexec
    rw [if_pos hone] at hexec
    obtain ⟨d', hd', -⟩ := findRun_drained (s := atMt s t) hd (physOf s l)
    obtain ⟨hhbm, hreins⟩ := drained_parts (atMt s t) (physOf s l) d dr
    have href := run_ref hd
    generalize drained (atMt s t) (physOf s l) d dr = v at hexec hd' hhbm hreins
    have hroot := rk_finish (l := l) (vals := (dr.live.zip (drainedVals (getClu s (physOf s l)) d dr)).map fun e =>
      if e.1 then some e.2.1 else none) (bads := (drainedVals (getClu s (physOf s l)) d dr).map (·.2)) ⟨d', href.symm ▸ hd'⟩ hopen
    have hkeeps := (finishTile_keeps (M := [.disp, .clu]) (d := d) (l := l) (tile := dr.tk.tile) (vals := (dr.live.zip
      (drainedVals (getClu s (physOf s l)) d dr)).map fun e => if e.1 then some e.2.1 else none)
      (bads := (drainedVals (getClu s (physOf s l)) d dr).map (·.2)) (Keeps.refl _ v) (by decide) (by decide)).parts
    rw [href] at hroot
    exact ⟨_, hexec, hroot, (hkeeps.same .hbm (by decide)).trans hhbm, (hkeeps.same .reins (by decide)).trans hreins⟩
  case node =>
    intro s t r d tile lo hi a b e hd hs hh hdrain hn he
    subst he
    have hexec := exec_treeNode (t := t) hd hs hh hdrain hn
    obtain ⟨d', hd', htrees, hrooted, href, hpath⟩ := findRun_combined (tile := tile) (s := atMt s t) hd (homeOf d tile) a b
      (combineEntries (dRedKind d.raw == 1 && d.op == 0x10) a b)
    refine ⟨fun hroot => ?_, fun hroot hopen => ?_⟩
    · rw [if_neg hroot] at hexec
      exact ⟨_, hexec, (trace_disp_run _ _ _ _ _ _).2, d', hd', htrees, hrooted⟩
    · rw [if_pos hroot, treeEnd_found hd'] at hexec
      have hrk := rk_finish (l := homeOf d tile) (vals := (combineEntries (dRedKind d.raw == 1 && d.op == 0x10) a b).vals)
        (bads := (combineEntries (dRedKind d.raw == 1 && d.op == 0x10) a b).bad) ⟨d', href.symm ▸ hd'⟩ (hpath hopen)
      rw [href] at hrk
      exact ⟨_, hexec, hrk⟩
  case done =>
    intro s t r d p tile hd hp hroot hdone hphase hlate hep hfree
    have hdisp := (run_wait (s := atMt s t) (v := (getCtr s (doneCtr p)).value + 1) hfree).1
    have hval := getCtr_setCtrValue (atMt s t) (doneCtr p) ((getCtr s (doneCtr p)).value + 1)
    have hexec := exec_tileDone (t := t) hd hp hroot hdone hphase hlate hep
    generalize setCtrValue (atMt s t) (doneCtr p) _ = v at hdisp hval hexec
    have hd' : findRun v r = some d := (run_disp hdisp r).trans hd
    have href := run_ref hd
    exact ⟨_, hexec, hval, run_mod hd' href⟩
  case count =>
    intro s t r d hd hph h0 hne hall
    have href := run_ref hd
    exact ⟨_, exec_compressCount hd hph h0 hne hall, rfl, rfl, run_mod (s := atMt s t) hd href⟩
  case place =>
    intro s t r d hd hph h1
    have hexec := exec_compressPlace (t := t) hd hph h1
    have href := run_ref hd
    have hrun : findRun (placing (atMt s t) r) r = some { d with phase := 2 } := run_mod (s := atMt s t) hd href
    have hparts : (placing (atMt s t) r).hbm = s.hbm ∧ (placing (atMt s t) r).reins = s.reins := ⟨rfl, rfl⟩
    generalize placing (atMt s t) r = w at hexec hrun hparts
    cases hout : placeOutput w d with
    | error y =>
      rw [hout] at hexec
      exact ⟨_, hexec, hparts.1, hparts.2, run_cause hrun⟩
    | ok vm =>
      obtain ⟨v, m⟩ := vm
      rw [hout] at hexec
      have hkeeps := (placeOutput_keeps (M := [.clu]) hout (Keeps.refl _ w) (by decide)).parts
      obtain ⟨hhbm, hreins⟩ := poisonCause_parts v d d.tickets.length m
      refine ⟨_, hexec, hhbm.trans ((hkeeps.same .hbm (by decide)).trans hparts.1),
        hreins.trans ((hkeeps.same .reins (by decide)).trans hparts.2), run_poison ?_⟩
      rw [run_disp (hkeeps.same .disp (by decide))]
      exact hrun

end Sys2Proof.Drains
end

section
/-! SUPPORT. The metrology die: what each tap does to its tables and to what it has gathered. -/

namespace Sys2Proof.MeterTaps

open Sys2Proof Sys2Proof.Machine Sys2Proof.Safety Sys2Proof.Laws

/-- An account with one more unit whose latency is known. -/
def credited (g : Account) (emits busy bin : Nat) : Account :=
  { g with units := g.units + 1, emits := g.emits + emits, busy := g.busy + busy, bins := tblMod 0 g.bins bin (· + 1) }

theorem credited_what {g h : Account} {em busy bin : Nat} (e : h = credited g em busy bin) :
    h.units = g.units + 1 ∧ h.emits = g.emits + em ∧ h.busy = g.busy + busy ∧ h.untimed = g.untimed ∧
      tblGet 0 h.bins bin = tblGet 0 g.bins bin + 1 := by
  subst e
  exact ⟨rfl, rfl, rfl, rfl, tblGet_tblMod _ _ _ _⟩

/-- The state with another meter, at the time of the command. -/
def atMeter (s : State) (t : Nat) (m : Meter) : State := { atMt s t with meter := m }

theorem account_creditUnit {m : Meter} {w em a b mt v i : Nat} (hw : bit w 15 = true) (hi : creditInterval m mt = i) :
    tblGet {} (tblGet {} (creditUnit m w em a b mt (some v)).gathers i).accounts (accountKey w) =
      credited (tblGet {} (tblGet {} m.gathers i).accounts (accountKey w)) em (b - a) (latencyBin (mt - v)) := by
  have hacc := (gather_get hi (f := fun g =>
    if bit w 15 then
      { g with accounts := tblMod {} g.accounts (accountKey w) fun x => credited x em (b - a) (latencyBin (mt - v)) }
    else { g with unmetered := g.unmetered + (b - a) })).1
  rw [if_pos hw] at hacc
  refine (congrArg (fun l => tblGet {} l (accountKey w)) hacc).trans ?_
  exact tblGet_tblMod {} _ (accountKey w) fun x => credited x em (b - a) (latencyBin (mt - v))

theorem gather_creditUnit_unmetered {m : Meter} {w em a b mt i : Nat} {v : Option Nat} (hw : bit w 15 = false)
    (hi : creditInterval m mt = i) :
    (tblGet {} (creditUnit m w em a b mt v).gathers i).accounts = (tblGet {} m.gathers i).accounts ∧
    (tblGet {} (creditUnit m w em a b mt v).gathers i).unmetered = (tblGet {} m.gathers i).unmetered + (b - a) := by
  have hw' : ¬ bit w 15 = true := by rw [hw]; exact Bool.false_ne_true
  have h := gather_get hi (f := fun g =>
    if bit w 15 then
      { g with accounts := tblMod {} g.accounts (accountKey w) fun x =>
          let x := { x with units := x.units + 1, emits := x.emits + em, busy := x.busy + (b - a) }
          match v with
          | some y => { x with bins := tblMod 0 x.bins (latencyBin (mt - y)) (· + 1) }
          | none => { x with untimed := x.untimed + 1 } }
    else { g with unmetered := g.unmetered + (b - a) })
  rw [if_neg hw'] at h
  exact ⟨h.1, h.2.1⟩

/-! ### Arrivals -/

theorem exec_submitArrival_room {s : State} {t wu ep mt : Nat} {rest : List TapRecord}
    (htap : s.meter.arrivalTap = .submitArrival wu ep mt :: rest) (hroom : s.meter.pending.length < 262144) :
    exec (.submitArrival t) s = .next (atMeter s t { s.meter with
      arrivalTap := rest, lastSeen := some mt, pending := s.meter.pending.filter (fun e => e.1 != wu) ++ [(wu, ep, mt)] }) := by
  have hfull : decide (262144 ≤ (s.meter.pending.filter fun e => !(e.1 == wu)).length) = false :=
    decide_eq_false (by have := List.length_filter_le (fun e => !(e.1 == wu)) s.meter.pending; omega)
  show execSubmitArrival t s = _
  unfold execSubmitArrival
  dsimp only
  rw [show (atMt s t).meter.arrivalTap = _ from htap]
  dsimp only
  rw [show decide (262144 ≤ ((atMt s t).meter.pending.filter fun e => !(e.1 == wu)).length) = false from hfull]
  rfl

theorem exec_submitArrival_full {s : State} {t wu ep mt : Nat} {rest : List TapRecord}
    (htap : s.meter.arrivalTap = .submitArrival wu ep mt :: rest) (hfull : 262144 ≤ s.meter.pending.length)
    (hnew : ∀ e ∈ s.meter.pending, e.1 ≠ wu) :
    exec (.submitArrival t) s = .next (atMeter s t
      (gather (seen { s.meter with arrivalTap := rest, pending := s.meter.pending.drop 1 ++ [(wu, ep, mt)] } mt) mt
        fun g => { g with evicted := cap32 (g.evicted + 1) })) := by
  have hall : (s.meter.pending.filter fun e => !(e.1 == wu)) = s.meter.pending :=
    List.filter_eq_self.mpr fun e he => by simp [hnew e he]
  show execSubmitArrival t s = _
  unfold execSubmitArrival
  dsimp only
  rw [show (atMt s t).meter.arrivalTap = _ from htap]
  dsimp only
  rw [show ((atMt s t).meter.pending.filter fun e => !(e.1 == wu)) = s.meter.pending from hall, decide_eq_true hfull]
  rfl

/-! ### Departures and completion events -/

/-- The meter once a departure has left its tap. -/
def departing (m : Meter) (wu ep mt : Nat) (rest : List TapRecord) : Meter :=
  seen { m with departTap := rest, pending := m.pending.filter fun e => !(e.1 == wu && e.2.1 == ep) } mt

theorem exec_completeDeparture_alone {s : State} {t wu ep mt : Nat} {rest : List TapRecord}
    (htap : s.meter.departTap = .completeDeparture wu ep mt :: rest) (hnone : s.meter.events = []) :
    exec (.completeDeparture t) s = .next (atMeter s t
      { departing s.meter wu ep mt rest with
        events := []
        departs := s.meter.departs ++ [{ wu := wu, epoch := ep, mt := mt, arrival := pendingArrival s.meter wu ep }] }) := by
  show execCompleteDeparture t s = _
  unfold execCompleteDeparture
  dsimp only
  rw [show (atMt s t).meter.departTap = _ from htap]
  dsimp only
  unfold seen
  dsimp only
  rw [show (atMt s t).meter.events = [] from hnone]
  rfl

theorem exec_completeDeparture_matched {s : State} {t wu ep mt w em st a b x : Nat} {rest : List TapRecord}
    (htap : s.meter.departTap = .completeDeparture wu ep mt :: rest)
    (hev : s.meter.events = [.completeEvent wu ep w em st a b x]) :
    exec (.completeDeparture t) s = .next (atMeter s t
      (creditUnit { departing s.meter wu ep mt rest with events := [] } w em a b mt (pendingArrival s.meter wu ep))) := by
  show execCompleteDeparture t s = _
  unfold execCompleteDeparture
  dsimp only
  rw [show (atMt s t).meter.departTap = _ from htap]
  dsimp only
  unfold seen
  dsimp only
  rw [show (atMt s t).meter.events = _ from hev,
    List.find?_cons_of_pos (by simp only [BEq.rfl, Bool.and_self])]
  dsimp only
  rw [List.erase_cons_head]
  rfl

theorem exec_completeEvent_alone {s : State} {t wu ep w em st a b mt : Nat} {rest : List TapRecord}
    (htap : s.meter.completionTap = .completeEvent wu ep w em st a b mt :: rest) (hnone : s.meter.departs = []) :
    exec (.completeEvent t) s = .next (atMeter s t
      { seen { s.meter with completionTap := rest } mt with
        departs := []
        events := s.meter.events ++ [.completeEvent wu ep w em st a b mt] }) := by
  show execCompleteEvent t s = _
  unfold execCompleteEvent
  dsimp only
  rw [show (atMt s t).meter.completionTap = _ from htap]
  dsimp only
  unfold seen
  dsimp only
  rw [show (atMt s t).meter.departs = [] from hnone]
  rfl

theorem exec_completeEvent_matched {s : State} {t wu ep w em st a b mt : Nat} {rest : List TapRecord} {d : Depart}
    (htap : s.meter.completionTap = .completeEvent wu ep w em st a b mt :: rest) (hd : s.meter.departs = [d])
    (hwu : d.wu = wu) (hep : d.epoch = ep) :
    exec (.completeEvent t) s = .next (atMeter s t
      (creditUnit { seen { s.meter with completionTap := rest } mt with departs := [] } w em a b d.mt d.arrival)) := by
  show execCompleteEvent t s = _
  unfold execCompleteEvent
  dsimp only
  rw [show (atMt s t).meter.completionTap = _ from htap]
  dsimp only
  unfold seen
  dsimp only
  rw [show (atMt s t).meter.departs = _ from hd,
    List.find?_cons_of_pos (by simp only [hwu, hep, BEq.rfl, Bool.and_self])]
  dsimp only
  rw [List.erase_cons_head]
  rfl

/-! ### What expires -/

theorem exec_pendingExpiry_due {s : State} {t wu ep a : Nat} (ha : pendingArrival s.meter wu ep = some a)
    (hdue : a + 200 * oneSecond ≤ max (now s) t) :
    exec (.pendingExpiry t wu ep) s = .next (atMeter s t
      { s.meter with pending := s.meter.pending.filter fun e => !(e.1 == wu && e.2.1 == ep) }) := by
  show execPendingExpiry t wu ep s = _
  unfold execPendingExpiry
  dsimp only
  rw [show pendingArrival (atMt s t).meter wu ep = some a from ha]
  exact if_pos hdue

theorem exec_unmatchedTimeout_due {s : State} {t : Nat} {d : Depart} (hd : s.meter.departs = [d])
    (hdue : d.mt + oneSecond < max (now s) t) :
    exec (.unmatchedTimeout t d.wu d.epoch) s = .next (atMeter s t
      (gather { s.meter with departs := [] } d.mt fun g => { g with unmatched := cap32 (g.unmatched + 1) })) := by
  show execUnmatchedTimeout t d.wu d.epoch s = _
  unfold execUnmatchedTimeout
  dsimp only
  rw [show (atMt s t).meter.departs = _ from hd, List.find?_cons_of_pos (by simp only [BEq.rfl, Bool.and_self])]
  dsimp only
  unfold modMeter
  dsimp only
  rw [show (atMt s t).meter.departs = _ from hd, List.erase_cons_head]
  exact if_pos hdue

/-! ### The fault log -/

theorem exec_faultLogTap_opens {s : State} {t : Nat} {c : List Byte} {rest : List TapRecord}
    (htap : s.meter.faultTap = .faultLog c :: rest) (hcode : leAt c 0 2 = 0x0009) (hkind : leAt c 3 1 = 0) :
    exec (.faultLogTap t) s = .next (atMeter s t
      { seen { s.meter with faultTap := rest } (leAt c 8 8) with
        caps := s.meter.caps ++
          [{ res := leAt c 4 4, start := leAt c 8 8, stop := none, condition := leAt c 24 8, extent := leAt c 32 8 }] }) := by
  show execFaultLogTap t s = _
  unfold execFaultLogTap
  dsimp only
  rw [show (atMt s t).meter.faultTap = _ from htap]
  exact (if_neg (not_not_intro hcode)).trans (if_pos hkind)

/-- The open reductions of one resource and condition end at `mt`. -/
def capsClosed (l : List CapSlot) (res cond mt : Nat) : List CapSlot :=
  l.map fun k => if k.res = res ∧ k.condition = cond ∧ k.stop.isNone then { k with stop := some mt } else k

theorem exec_faultLogTap_closes {s : State} {t : Nat} {c : List Byte} {rest : List TapRecord}
    (htap : s.meter.faultTap = .faultLog c :: rest) (hcode : leAt c 0 2 = 0x0009) (hkind : leAt c 3 1 = 1) :
    exec (.faultLogTap t) s = .next (atMeter s t
      { seen { s.meter with faultTap := rest } (leAt c 8 8) with
        caps := capsClosed s.meter.caps (leAt c 4 4) (leAt c 24 8) (leAt c 8 8) }) := by
  show execFaultLogTap t s = _
  unfold execFaultLogTap
  dsimp only
  rw [show (atMt s t).meter.faultTap = _ from htap]
  exact (if_neg (not_not_intro hcode)).trans (if_neg (by rw [hkind]; decide))

theorem capsClosed_single {k : CapSlot} {res cond mt : Nat} (hres : k.res = res) (hcond : k.condition = cond)
    (hopen : k.stop = none) : capsClosed [k] res cond mt = [{ k with stop := some mt }] := by
  exact congrArg (· :: []) (if_pos ⟨hres, hcond, by rw [hopen]; rfl⟩)

/-! ### The TIME tap -/

/-- The meter with the reduction that a silence of the TIME tap since `a` records. -/
def silenced (m : Meter) (a mt : Nat) : Meter :=
  if a + 50000000 < mt then { m with caps := m.caps ++ [silentSlot a mt] } else m

theorem caps_silenced (m : Meter) (a mt : Nat) :
    (silenced m a mt).caps = m.caps ++ (if a + 50000000 < mt then [silentSlot a mt] else []) := by
  unfold silenced
  split
  · rfl
  · exact (List.append_nil _).symm

theorem gathers_silenced (m : Meter) (a mt : Nat) : (silenced m a mt).gathers = m.gathers := by
  unfold silenced
  split <;> rfl

theorem timeTap_what {u : State} {m x : Meter} {a n mt : Nat} (hx : x = silenced m a mt)
    (hm : u.meter = seen { x with lastTime := some mt, lastTimeClock := n } mt) (hnow : now u = mt) :
    u.meter.lastTime = some (now u) ∧ u.meter.lastTimeClock = n ∧ u.meter.gathers = m.gathers ∧
      u.meter.caps = m.caps ++ (if a + 50000000 < now u then [silentSlot a (now u)] else []) := by
  rw [hm, hnow]
  exact ⟨rfl, rfl, (congrArg Meter.gathers hx).trans (gathers_silenced m a mt),
    (congrArg Meter.caps hx).trans (caps_silenced m a mt)⟩

/-- Settles O42: each tap's record takes effect by the case that its tables put it in. -/
theorem meterTapsAndTime : Obligations.MeterTapsAndTime := by
  refine ⟨?arrives, ?evicts, ?departs, ?departsAlone, ?completesAlone, ?completes, ?expires, ?unmatched, ?opens, ?closes, ?time⟩
  case arrives =>
    intro s t wu ep mt rest htap hroom
    exact ⟨_, exec_submitArrival_room htap hroom, rfl⟩
  case evicts =>
    intro s t wu ep mt rest htap hfull hnew
    refine ⟨_, exec_submitArrival_full htap hfull hnew, rfl, ?_⟩
    exact (gather_get rfl).2.2.1
  case departs =>
    intro s t wu ep mt rest w em st a b x v htap hev hw hv
    refine ⟨_, exec_completeDeparture_matched htap hev, rfl, ?_, _, _, rfl, rfl, ?_⟩
    · rintro e he ⟨rfl, rfl⟩
      have := (List.mem_filter.mp he).2
      simp at this
    · rw [hv]
      exact credited_what (account_creditUnit (m := { departing s.meter wu ep mt rest with events := [] }) hw rfl)
  case departsAlone =>
    intro s t wu ep mt rest htap hnone
    exact ⟨_, exec_completeDeparture_alone htap hnone, rfl, rfl, rfl⟩
  case completesAlone =>
    intro s t wu ep w em st a b mt rest htap hnone
    exact ⟨_, exec_completeEvent_alone htap hnone, rfl, rfl, rfl⟩
  case completes =>
    intro s t wu ep w em st a b mt rest d htap hd hwu hep hw
    refine ⟨_, exec_completeEvent_matched htap hd hwu hep, rfl, rfl, ?_⟩
    exact gather_creditUnit_unmetered hw rfl
  case expires =>
    intro s t wu ep a ha hdue
    exact ⟨_, exec_pendingExpiry_due ha hdue, rfl⟩
  case unmatched =>
    intro s t d hd hdue
    refine ⟨_, exec_unmatchedTimeout_due hd hdue, rfl, rfl, ?_⟩
    have h := gather_get (m := { s.meter with departs := [] }) (mt := d.mt) (i := creditInterval s.meter d.mt)
      (f := fun g => { g with unmatched := cap32 (g.unmatched + 1) }) rfl
    exact ⟨h.1, h.2.2.2⟩
  case opens =>
    intro s t c rest htap hcode hkind
    exact ⟨_, exec_faultLogTap_opens htap hcode hkind, rfl, rfl⟩
  case closes =>
    intro s t c rest k htap hcode hkind hk hres hcond hopen
    refine ⟨_, exec_faultLogTap_closes htap hcode hkind, rfl, ?_⟩
    dsimp only
    rw [hk]
    exact capsClosed_single hres hcond hopen
  case time =>
    intro s t n a hready hlast
    obtain ⟨x, hx⟩ : ∃ x, x = silenced s.meter a (now (atMt s t)) := ⟨_, rfl⟩
    exact ⟨_, timeTap_next s t n a hready hlast x hx, timeTap_what hx rfl rfl⟩

end Sys2Proof.MeterTaps
end

section
/-! SUPPORT. The Kyend monitor: the lines each command prints, what a typed character does, and what the commands of
development mode write. -/

namespace Sys2Proof.Monitor

open Sys2Proof Sys2Proof.Machine Sys2Proof.Safety Sys2Proof.Laws

section
variable {c : Instr} {s : State} {t : Nat} {f : State → State} {l : List String}

/-- A monitor command that is taken and prints its lines. -/
theorem prints_of (hexec : exec c s = .next (monTake (atMt s (timeOf c)) f)) (hbusy : s.kyend.busy = none)
    (hf : f (atMt s (timeOf c)) = monPrint (atMt s (timeOf c)) l) : Prints c s l :=
  prints_mk _ hexec ((busyAt hbusy f).trans hf)

/-- A monitor command that is taken and prints some lines of which `P` is known. -/
theorem prints_some {P : List String → Prop} (hexec : exec c s = .next (monTake (atMt s (timeOf c)) f))
    (hbusy : s.kyend.busy = none) (hf : ∃ l, P l ∧ f (atMt s (timeOf c)) = monPrint (atMt s (timeOf c)) l) :
    ∃ l, P l ∧ Prints c s l := by
  obtain ⟨l, hl, hf⟩ := hf
  exact ⟨l, hl, prints_of hexec hbusy hf⟩

/-- A monitor command that is taken and prints one line of which the beginning is known. -/
theorem prints_line {w : String} (hexec : exec c s = .next (monTake (atMt s (timeOf c)) f)) (hbusy : s.kyend.busy = none)
    (hf : ∃ r, f (atMt s (timeOf c)) = monPrint (atMt s (timeOf c)) [w ++ r]) : ∃ r, Prints c s [w ++ r] := by
  obtain ⟨r, hf⟩ := hf
  exact ⟨r, prints_of hexec hbusy hf⟩

end

/-! ### The reports, with every die running -/

theorem monFull_running {s : State} (hrun : aoOnly s = false) (l : List String) : monFull s l = monPrint s l := by
  unfold monFull; rw [hrun]; rfl

theorem monDev_running {s : State} (hrun : aoOnly s = false) (hdev : cfgDevMode s = true) (f : State → State) :
    monDev s f = f s := by
  unfold monDev; rw [hrun, hdev]; rfl

section
variable {s : State} (hrun : aoOnly s = false)
include hrun

theorem monId_running : monId s = monPrint s
    ["part=AS2-1600-LQ stepping=B0 fw=" ++ versionText s.ctl.fwVersion ++ " serial=" ++ serialText s] := by
  unfold monId; rw [hrun]; rfl

theorem monClusters_running : ∃ r, monClusters s =
    monPrint s ["serving=" ++ decText (512 - absentCount s - unservedCount s) ++ r] := by
  refine ⟨?rest, ?line⟩
  case line =>
    unfold monClusters
    rw [monFull_running hrun]
    simp only [String.append_assoc]
    rfl

theorem monClustersGroup_running {g : Nat} (hg : g < 32) :
    monClustersGroup s g = monPrint s ((numsFrom (17 * g) 17).map (clusterLine s)) := by
  unfold monClustersGroup
  rw [decide_eq_false (Nat.not_le.mpr hg)]
  exact monFull_running hrun _

theorem monClustersGroup_bad {g : Nat} (hg : 32 ≤ g) : monClustersGroup s g = monPrint s ["error: bad argument"] := by
  unfold monClustersGroup
  rw [decide_eq_true hg, hrun]
  rfl

theorem monHbm_running : ∃ l, l.length = 21 ∧ monHbm s = monPrint s l :=
  ⟨_, by simp, monFull_running hrun _⟩

theorem monPorts_running : ∃ l, l.length = 5 ∧ monPorts s = monPrint s l :=
  ⟨_, by simp, monFull_running hrun _⟩

theorem monOwner_vacant (hvacant : s.host.owner = none) : monOwner s = monPrint s ["owner=vacant"] := by
  unfold monOwner
  rw [hvacant]
  exact monFull_running hrun _

theorem monMeter_running : ∃ r, monMeter s = monPrint s ["service_count=" ++ r] := by
  refine ⟨?rest, ?line⟩
  case line =>
    unfold monMeter
    rw [monFull_running hrun]
    simp only [String.append_assoc]
    rfl

theorem monHelp_running : ∃ l, l.length = (if cfgDevMode s = true then 17 else 14) ∧ monHelp s = monPrint s l := by
  refine ⟨helpLines s, ?_, rfl⟩
  unfold helpLines
  rw [hrun]
  cases cfgDevMode s <;> rfl

theorem monPeek_running {off n : Nat} (h1 : 1 ≤ n) (h64 : n ≤ 64) (halign : off % 4 = 0) (hall : firstInvalid s off n = none) :
    monPeek s off n = monPrint s ((numsFrom 0 n).map fun i => regLine s (off + 4 * i)) := by
  have hgood : ¬ (n = 0 ∨ 64 < n ∨ off % 4 ≠ 0 ∨ (firstInvalid s off n).isSome = true) := by
    rw [hall]; simp; omega
  unfold monPeek
  rw [hrun]
  exact if_neg hgood

end

/-! ### The reports that the AO domain can print -/

theorem monState_line (s : State) : ∃ r, monState s = monPrint s ["state=" ++ stateText s.ctl.modState ++ r] := by
  refine ⟨?rest, ?line⟩
  case line =>
    unfold monState
    simp only [String.append_assoc]
    rfl

theorem monTemps_lines (s : State) : ∃ l, l.length = 29 ∧ monTemps s = monPrint s l :=
  ⟨_, by simp, rfl⟩

theorem monPower_line (s : State) : ∃ r, monPower s = monPrint s
    ["input=" ++ decText s.pwr.inputW ++ " cap=" ++ decText s.pwr.cap ++ " step=" ++ decText s.pwr.step ++ r] := by
  refine ⟨?rest, ?line⟩
  case line =>
    unfold monPower
    simp only [String.append_assoc]
    rfl

theorem monLog_lines {s : State} {n : Nat} (h1 : 1 ≤ n) (h512 : n ≤ 512) (hhalt : s.ctl.halt = none) :
    ∃ l, l.length = min n (min s.flt.logHead 512) ∧ monLog s n = monPrint s l := by
  have hgood : ¬ (n = 0 ∨ 512 < n) := by omega
  refine ⟨(numsFrom (s.flt.logHead - min n (min s.flt.logHead 512)) (min n (min s.flt.logHead 512))).map (logLine s), ?_, ?_⟩
  · rw [List.length_map, numsFrom_length]
  · unfold monLog
    rw [if_neg hgood, hhalt]
    cases s.ctl.modState <;> rfl

/-! ### Typed characters -/

theorem exec_kyendCharacter {s : State} {t c : Nat} (hbusy : s.kyend.busy = none) :
    exec (.kyendCharacter t c) s = .next (takeCharacter (atMt s t) c) :=
  congrArg Host.Outcome.next (busyAt hbusy fun s => takeCharacter s c)

theorem exec_kyendCharacter_busy {s : State} {t c p : Nat} (hbusy : s.kyend.busy = some p) :
    exec (.kyendCharacter t c) s = .next (atMt s t) :=
  congrArg Host.Outcome.next (if_pos (show (atMt s t).kyend.busy.isSome = true by
    rw [show (atMt s t).kyend.busy = some p from hbusy]; rfl))

theorem takeCharacter_printable {s : State} {c : Nat} (hlo : 32 < c) (hhi : c < 127) :
    takeCharacter s c = { s with kyend := { s.kyend with
      line := if s.kyend.line.length < 128 then s.kyend.line ++ [c] else s.kyend.line
      out := String.ofList [Char.ofNat c] :: s.kyend.out } } := by
  have hend : ¬ (c = 13 ∨ c = 10) := by omega
  have herase : ¬ (c = 8 ∨ c = 127) := by omega
  unfold takeCharacter
  dsimp only
  rw [if_neg hend, if_neg herase]
  by_cases hroom : s.kyend.line.length < 128
  · rw [if_pos hroom]
    exact if_pos hroom
  · rw [if_neg hroom]
    exact if_neg hroom

theorem takeCharacter_backspace (s : State) : (takeCharacter s 8).kyend.line = s.kyend.line.dropLast := rfl

/-- The state in which a line runs: its end was echoed and the line is empty. -/
def lineEnded (s : State) : State :=
  { s with kyend := { s.kyend with line := [], out := String.ofList [Char.ofNat 13] :: s.kyend.out } }

theorem takeCharacter_return (s : State) : takeCharacter s 13 = runLine (lineEnded s) s.kyend.line := rfl

theorem splitWords_state : splitWords (codes "state") = [codes "state"] := by decide

theorem runLine_state (s : State) : runLine s (codes "state") = monState s := by
  have hhelp : codes "state" ≠ codes "help" := by decide
  have hid : codes "state" ≠ codes "id" := by decide
  unfold runLine
  rw [splitWords_state]
  unfold runCommand
  dsimp only
  rw [if_neg hhelp, if_neg hid, if_pos rfl]
  rfl

/-- Settles O44: a report command that is taken prints its lines; a character edits the line or runs it. -/
theorem monitorReports : Obligations.MonitorReports := by
  refine ⟨?reports, ?printable, ?backspace, ?ignored, ?line⟩
  case reports =>
    intro s t hbusy hao
    have hrun : aoOnly (atMt s t) = false := hao
    refine ⟨?id, ?time, ?state, ?clusters, ?group, ?badGroup, ?hbm, ?ports, ?temps, ?power, ?owner, ?meter, ?help, ?log, ?peek⟩
    case id => exact prints_of rfl hbusy (monId_running hrun)
    case time => exact prints_of rfl hbusy (monFull_running hrun _)
    case state => exact prints_line rfl hbusy (monState_line _)
    case clusters => exact prints_line rfl hbusy (monClusters_running hrun)
    case group =>
      intro g hg
      exact prints_of (f := fun s => monClustersGroup s g) rfl hbusy (monClustersGroup_running hrun hg)
    case badGroup =>
      intro g hg
      exact prints_of (f := fun s => monClustersGroup s g) rfl hbusy (monClustersGroup_bad hrun hg)
    case hbm => exact prints_some rfl hbusy (monHbm_running hrun)
    case ports => exact prints_some rfl hbusy (monPorts_running hrun)
    case temps => exact prints_some rfl hbusy (monTemps_lines _)
    case power => exact prints_line rfl hbusy (monPower_line _)
    case owner =>
      intro hvacant
      exact prints_of rfl hbusy (monOwner_vacant hrun hvacant)
    case meter => exact prints_line rfl hbusy (monMeter_running hrun)
    case help => exact prints_some rfl hbusy (monHelp_running hrun)
    case log =>
      intro n h1 h512 hhalt
      exact prints_some (f := fun s => monLog s n) rfl hbusy (monLog_lines (s := atMt s t) h1 h512 hhalt)
    case peek =>
      intro off n h1 h64 halign hall
      exact prints_of (f := fun s => monPeek s off n) rfl hbusy (monPeek_running hrun h1 h64 halign hall)
  case printable =>
    intro s t c hbusy hlo hhi
    refine ⟨_, exec_kyendCharacter hbusy, ?_⟩
    rw [takeCharacter_printable hlo hhi]
    rfl
  case backspace =>
    intro s t hbusy
    exact ⟨_, exec_kyendCharacter hbusy, takeCharacter_backspace _⟩
  case ignored =>
    intro s t p c hbusy
    exact ⟨_, exec_kyendCharacter_busy hbusy, rfl⟩
  case line =>
    intro s t hbusy hline
    obtain ⟨r, hr⟩ := monState_line (lineEnded (atMt s t))
    refine ⟨_, exec_kyendCharacter hbusy, ?_⟩
    rw [takeCharacter_return, show (atMt s t).kyend.line = codes "state" from hline, runLine_state, hr]
    exact ⟨rfl, r, rfl⟩

/-! ### Development mode -/

section
variable {s : State} {t : Nat} (hrun : aoOnly s = false) (hdev : cfgDevMode s = true)
include hrun hdev

/-- The state with other trace enables. -/
def tracing (s : State) (v : Nat) : State := { s with clu := { s.clu with trace := v } }

omit hrun in
theorem writeReg_tracing {v : Nat} (hv : v < 256) : writeReg s 0x0F0000 v none = tracing s v := by
  rw [Management.writeReg_trace hdev, bits_small hv]
  rfl

omit hrun in
theorem regLine_tracing (v : Nat) : regLine (tracing s v) 0x0F0000 = "0x0F_0000: " ++ hexText 8 v := by
  have hdev' : cfgDevMode (tracing s v) = true := hdev
  have hread : readReg (tracing s v) 0x0F0000 = v := by
    unfold readReg
    rw [hdev']
    rfl
  unfold regLine
  rw [hread]
  exact congrArg (· ++ hexText 8 v) (show hexText 6 0x0F0000 ++ ": " = "0x0F_0000: " by decide)

theorem monPoke_trace {v : Nat} (hv : v < 256) :
    monPoke s 0x0F0000 v = monPrint (tracing s v) ["0x0F_0000: " ++ hexText 8 v] := by
  have hgood : ¬ (0x0F0000 < 0x0F0000 ∨ 0x100000 ≤ 0x0F0000 ∨ 0x0F0000 % 4 ≠ 0 ∨ 2 ^ 32 ≤ v) := by omega
  unfold monPoke
  rw [monDev_running hrun hdev, if_neg hgood, writeReg_tracing hdev hv]
  dsimp only
  rw [regLine_tracing hdev]

theorem monPoke_outside {off v : Nat} (hoff : off < 0x0F0000 ∨ 0x100000 ≤ off) :
    monPoke s off v = monPrint s ["error: bad argument"] := by
  unfold monPoke
  rw [monDev_running hrun hdev, if_pos (hoff.imp_right Or.inl)]
  rfl

theorem monTrace_set {v : Nat} (hv : v < 256) :
    monTrace s (some v) = monPrint (tracing s v) ["enable=" ++ hexText 2 v] := by
  unfold monTrace
  rw [monDev_running hrun hdev]
  dsimp only
  rw [if_neg (Nat.not_le.mpr hv), writeReg_tracing hdev hv]
  rfl

theorem monTrace_read : monTrace s none = monPrint s ["enable=" ++ hexText 2 s.clu.trace] :=
  monDev_running hrun hdev _

/-- The state whose Yarrow request for the physical cluster `p` waits. -/
def yarrowWaiting (s : State) (p : Nat) : State :=
  { s with clu := { s.clu with yarrowReq := p, yarrowResult := 1, yarrowAt := now s } }

omit hrun in
theorem writeReg_yarrow {p : Nat} (hp : p < 544) (hfree : s.clu.yarrowResult ≠ 1) :
    writeReg s 0x0F0010 (2 ^ 31 + p) none = yarrowWaiting s p := by
  have hrequest : bit (2 ^ 31 + p) 31 = true := by unfold bit; simp; omega
  have hnumber : bits (2 ^ 31 + p) 9 0 = p := by unfold bits; simp; omega
  have hwrite : writeYarrow s (2 ^ 31 + p) = yarrowWaiting s p := by
    unfold writeYarrow
    rw [hnumber]
    exact if_pos ⟨hrequest, hp, hfree⟩
  unfold writeReg
  rw [if_neg (by omega), if_neg (by omega), if_neg (by omega), if_neg (by omega), if_neg (by omega), if_neg (by omega),
    if_neg (by omega), if_neg (by omega), if_neg (by omega), if_pos ⟨by omega, by omega, hdev⟩]
  exact hwrite

theorem monYarrow_taken {p : Nat} (hp : p < 544) (hfree : s.clu.yarrowResult ≠ 1) :
    monYarrow s p = { yarrowWaiting s p with kyend := { s.kyend with busy := some p } } := by
  unfold monYarrow
  rw [monDev_running hrun hdev, if_neg (Nat.not_le.mpr hp), if_neg hfree, writeReg_yarrow hdev hp hfree]
  rfl

theorem monYarrow_waiting {p : Nat} (hp : p < 544) (hwait : s.clu.yarrowResult = 1) :
    monYarrow s p = monPrint s ["error: not available"] := by
  unfold monYarrow
  rw [monDev_running hrun hdev, if_neg (Nat.not_le.mpr hp), if_pos hwait]
  rfl

end

/-- Outside development mode a command of the monitor changes only the monitor's own record. -/
theorem quiet_command {c : Instr} {s u : State} {f : State → State} (hdev : cfgDevMode s = false)
    (hu : exec c s = .next u) (hexec : exec c s = .next (monTake (atMt s (timeOf c)) f))
    (hf : ∀ v, cfgDevMode v = false → Quiet v (f v)) : u = { atMt s (timeOf c) with kyend := u.kyend } := by
  cases hu.symm.trans hexec
  exact quiet_take fun v hv => hf v (by rw [hv]; exact hdev)

/-- Settles O45: in development mode each write reaches its debug register; outside it every command is quiet. -/
theorem monitorWrites : Obligations.MonitorWrites := by
  refine ⟨?writes, ?quiet⟩
  case writes =>
    intro s t hbusy hao hd
    have hrun : aoOnly (atMt s t) = false := hao
    have hdev : cfgDevMode (atMt s t) = true := hd
    refine ⟨?poke, ?trace, ?read, ?outside, ?yarrow, ?waiting⟩
    case poke =>
      intro v hv
      exact ⟨_, congrArg Host.Outcome.next ((busyAt hbusy _).trans (monPoke_trace hrun hdev hv)), rfl, rfl, rfl, rfl⟩
    case trace =>
      intro v hv
      exact ⟨_, congrArg Host.Outcome.next ((busyAt hbusy _).trans (monTrace_set hrun hdev hv)), rfl, rfl⟩
    case read => exact prints_of (f := fun s => monTrace s none) rfl hbusy (monTrace_read hrun hdev)
    case outside =>
      intro off v hoff
      exact prints_of (f := fun s => monPoke s off v) rfl hbusy (monPoke_outside hrun hdev hoff)
    case yarrow =>
      intro p hp hfree
      exact ⟨_, congrArg Host.Outcome.next ((busyAt hbusy _).trans (monYarrow_taken hrun hdev hp hfree)), rfl, rfl, rfl⟩
    case waiting =>
      intro p hwait hp
      exact prints_of (f := fun s => monYarrow s p) rfl hbusy (monYarrow_waiting hrun hdev hp hwait)
  case quiet =>
    intro s c u hmon hdev hu
    cases c with
    | kyendCharacter t k => exact quiet_command hdev hu rfl fun _ h => quiet_char h k
    | kyendHelp t => exact quiet_command hdev hu rfl fun _ _ => quiet_Help _
    | kyendId t => exact quiet_command hdev hu rfl fun _ _ => quiet_Id _
    | kyendState t => exact quiet_command hdev hu rfl fun _ _ => quiet_State _
    | kyendClusters t => exact quiet_command hdev hu rfl fun _ _ => quiet_Clusters _
    | kyendClustersGroup t g => exact quiet_command hdev hu rfl fun _ _ => quiet_group _ g
    | kyendHbm t => exact quiet_command hdev hu rfl fun _ _ => quiet_Hbm _
    | kyendPorts t => exact quiet_command hdev hu rfl fun _ _ => quiet_Ports _
    | kyendTemps t => exact quiet_command hdev hu rfl fun _ _ => quiet_Temps _
    | kyendPower t => exact quiet_command hdev hu rfl fun _ _ => quiet_Power _
    | kyendTime t => exact quiet_command hdev hu rfl fun _ _ => quiet_Time _
    | kyendOwner t => exact quiet_command hdev hu rfl fun _ _ => quiet_Owner _
    | kyendLog t n => exact quiet_command hdev hu rfl fun _ _ => quiet_log _ n
    | kyendMeter t => exact quiet_command hdev hu rfl fun _ _ => quiet_Meter _
    | kyendPeek t off n => exact quiet_command hdev hu rfl fun _ _ => quiet_peek _ off n
    | kyendPoke t off v => exact quiet_command hdev hu rfl fun _ h => quiet_poke h off v
    | kyendTrace t mask => exact quiet_command hdev hu rfl fun _ h => quiet_tr h mask
    | kyendYarrow t p => exact quiet_command hdev hu rfl fun _ h => quiet_yar h p
    | _ => exact absurd hmon Bool.false_ne_true

end Sys2Proof.Monitor
end

section
/-! SUPPORT. The loader: what the checks of a block and of an image answer, and what a load leaves alone. -/

namespace Sys2Proof.Loading

open Sys2Proof Sys2Proof.Machine Sys2Proof.Safety Sys2Proof.Laws

/-- The state in which a load runs: its job and kind are stored. -/
def loading (s : State) (t v : Nat) : State :=
  { atMt s t with ctl := { s.ctl with loadJob := bits v 31 16, loadKind := bits v 1 1 } }

section
variable {s : State} {t v : Nat}

theorem vRead_loading (n : Nat) :
    vRead (loading s t v) 4 (loading s t v).ctl.loadJob
        ((loading s t v).ctl.loadVaHi * 2 ^ 32 + (loading s t v).ctl.loadVaLo) n =
      vRead s 4 (bits v 31 16) (s.ctl.loadVaHi * 2 ^ 32 + s.ctl.loadVaLo) n := rfl

/-! ### Which way a command of the loader goes -/

theorem writeLoadCmd_config (hgo : bit v 0 = true) (hkind : bits v 1 1 = 0)
    (hidle : s.ctl.loadPhase = 0 ∨ 5 ≤ s.ctl.loadPhase) (changed : Bool) :
    writeLoadCmd (atMt s t) v changed = loadConfig (loading s t v) := by
  have hstart : ¬ ((!bit v 0) = true) := by rw [hgo]; exact Bool.false_ne_true
  have hfree : ¬ (1 ≤ s.ctl.loadPhase ∧ s.ctl.loadPhase ≤ 4) := by omega
  exact (if_neg hstart).trans <| (if_neg hfree).trans (if_pos hkind)

theorem writeLoadCmd_image (hgo : bit v 0 = true) (hkind : bits v 1 1 = 1)
    (hidle : s.ctl.loadPhase = 0 ∨ 5 ≤ s.ctl.loadPhase) (changed : Bool) :
    writeLoadCmd (atMt s t) v changed = loadImage (loading s t v) changed := by
  have hstart : ¬ ((!bit v 0) = true) := by rw [hgo]; exact Bool.false_ne_true
  have hfree : ¬ (1 ≤ s.ctl.loadPhase ∧ s.ctl.loadPhase ≤ 4) := by omega
  have himage : ¬ bits v 1 1 = 0 := by omega
  exact (if_neg hstart).trans <| (if_neg hfree).trans (if_neg himage)

theorem writeLoadCmd_busy (hgo : bit v 0 = true) (h1 : 1 ≤ s.ctl.loadPhase) (h4 : s.ctl.loadPhase ≤ 4) (changed : Bool) :
    writeLoadCmd (atMt s t) v changed = loadEnds (loading s t v) 1 s.ctl.loadPhase := by
  have hstart : ¬ ((!bit v 0) = true) := by rw [hgo]; exact Bool.false_ne_true
  exact (if_neg hstart).trans (if_pos ⟨h1, h4⟩)

theorem exec_cfgLoad (hready : isReady s = true) : exec (.cfgLoad t v) s = .next (writeLoadCmd (atMt s t) v false) :=
  if_pos (show isReady (atMt s t) = true from hready)

theorem exec_fwLoad {changed : Bool} (hready : isReady s = true) :
    exec (.fwLoad t v changed) s = .next (writeLoadCmd (atMt s t) v changed) :=
  if_pos (show isReady (atMt s t) = true from hready)

/-! ### Reading the source -/

theorem loadRead_fails {n : Nat} {e : Why}
    (hr : vRead s 4 (bits v 31 16) (s.ctl.loadVaHi * 2 ^ 32 + s.ctl.loadVaLo) n = .error e) :
    loadRead (loading s t v) n = none := by
  unfold loadRead
  rw [vRead_loading, hr]

theorem loadRead_poisoned {n : Nat} {l : List (Byte × Bool)}
    (hr : vRead s 4 (bits v 31 16) (s.ctl.loadVaHi * 2 ^ 32 + s.ctl.loadVaLo) n = .ok l) (hp : ∃ x ∈ l, x.2 = true) :
    loadRead (loading s t v) n = none := by
  unfold loadRead
  rw [vRead_loading, hr]
  exact if_pos (List.any_eq_true.mpr hp)

theorem loadRead_sound {n : Nat} {l : List (Byte × Bool)}
    (hr : vRead s 4 (bits v 31 16) (s.ctl.loadVaHi * 2 ^ 32 + s.ctl.loadVaLo) n = .ok l) (hp : ∀ x ∈ l, x.2 = false) :
    loadRead (loading s t v) n = some (l.map (·.1)) := by
  have hclean : ¬ l.any (·.2) = true := fun h => by
    obtain ⟨x, hx, hx2⟩ := List.any_eq_true.mp h
    exact absurd hx2 (by rw [hp x hx]; exact Bool.false_ne_true)
  unfold loadRead
  rw [vRead_loading, hr]
  exact if_neg hclean

end

/-! ### A configuration block -/

/-- What no load of a configuration block changes. -/
structure ConfigFrame (s u : State) : Prop where
  job : u.ctl.loadJob = s.ctl.loadJob
  kind : u.ctl.loadKind = s.ctl.loadKind
  cfg : u.ctl.cfg = s.ctl.cfg
  image : u.flash.image = s.flash.image

/-- The state with the block staged in the slot that is not in force. -/
def staged (s : State) (c : Cells) : State :=
  { s with
    flash := if s.ctl.runningB then { s.flash with slotA := c } else { s.flash with slotB := c }
    ctl := { s.ctl with staged := some (cellRead c 64 64) } }

theorem configFrame_ends (s : State) (result phase : Nat) : ConfigFrame s (loadEnds s result phase) := ⟨rfl, rfl, rfl, rfl⟩

theorem staged_image (s : State) (c : Cells) : (staged s c).flash.image = s.flash.image := by
  unfold staged; dsimp only; split <;> rfl

section
variable {s : State} {l : List Byte} {c : Cells} (hc : c = cellsAt 0 l)
include hc

theorem stageBlock_digest (h : blockDigestOk c = false) : stageBlock s l = loadEnds s 3 6 := by
  subst hc
  exact if_pos (by rw [h]; rfl)

theorem stageBlock_fields (h : ¬ blockDigestOk c = false) (hf : blockOk c = false) : stageBlock s l = loadEnds s 4 6 := by
  subst hc
  exact (if_neg (by simpa using h)).trans (if_pos (by rw [hf]; rfl))

theorem stageBlock_sequence (h : ¬ blockDigestOk c = false) (hf : ¬ blockOk c = false)
    (hq : blkField c 8 4 ≠ cfgField s 8 4 + 1) : stageBlock s l = loadEnds s 8 6 := by
  subst hc
  exact (if_neg (by simpa using h)).trans <| (if_neg (by simpa using hf)).trans (if_pos hq)

theorem stageBlock_floor (h : ¬ blockDigestOk c = false) (hf : ¬ blockOk c = false)
    (hq : ¬ blkField c 8 4 ≠ cfgField s 8 4 + 1) (hv : imgVersion s.flash.image < blkField c 0x84 4) :
    stageBlock s l = loadEnds s 9 6 := by
  subst hc
  exact (if_neg (by simpa using h)).trans <| (if_neg (by simpa using hf)).trans <| (if_neg hq).trans (if_pos hv)

theorem stageBlock_staged (h : ¬ blockDigestOk c = false) (hf : ¬ blockOk c = false)
    (hq : ¬ blkField c 8 4 ≠ cfgField s 8 4 + 1) (hv : ¬ imgVersion s.flash.image < blkField c 0x84 4) :
    stageBlock s l = post (loadEnds (staged s c) 0 5) { code := 0x0061, params := [blkField c 8 4] } := by
  subst hc
  exact (if_neg (by simpa using h)).trans <| (if_neg (by simpa using hf)).trans <| (if_neg hq).trans (if_neg hv)

end

theorem configFrame_stageBlock (s : State) (l : List Byte) : ConfigFrame s (stageBlock s l) := by
  by_cases h : blockDigestOk (cellsAt 0 l) = false
  · rw [stageBlock_digest rfl h]
    exact configFrame_ends s 3 6
  by_cases hf : blockOk (cellsAt 0 l) = false
  · rw [stageBlock_fields rfl h hf]
    exact configFrame_ends s 4 6
  by_cases hq : blkField (cellsAt 0 l) 8 4 ≠ cfgField s 8 4 + 1
  · rw [stageBlock_sequence rfl h hf hq]
    exact configFrame_ends s 8 6
  by_cases hv : imgVersion s.flash.image < blkField (cellsAt 0 l) 0x84 4
  · rw [stageBlock_floor rfl h hf hq hv]
    exact configFrame_ends s 9 6
  · rw [stageBlock_staged rfl h hf hq hv]
    exact ⟨by rw [post_ctl]; rfl, by rw [post_ctl]; rfl, by rw [post_ctl]; rfl, by rw [post_flash]; exact staged_image s _⟩

theorem configFrame_loadWith {s : State} {f : List Byte → State} (q : Option (List Byte))
    (hf : ∀ l, ConfigFrame s (f l)) : ConfigFrame s (loadWith s q f) := by
  cases q with
  | none => exact configFrame_ends s 2 6
  | some l => exact hf l

theorem configFrame_loadConfig (s : State) : ConfigFrame s (loadConfig s) :=
  configFrame_loadWith _ (configFrame_stageBlock s)

theorem loadConfig_unread {s : State} (h : loadRead s 131072 = none) : loadConfig s = loadEnds s 2 6 := by
  unfold loadConfig
  rw [h]
  rfl

theorem loadConfig_read {s : State} {l : List Byte} (h : loadRead s 131072 = some l) : loadConfig s = stageBlock s l := by
  unfold loadConfig
  rw [h]
  rfl

/-! ### A firmware image -/

/-- What no load of a firmware image changes. -/
structure ImageFrame (s u : State) : Prop where
  job : u.ctl.loadJob = s.ctl.loadJob
  kind : u.ctl.loadKind = s.ctl.loadKind
  cfg : u.ctl.cfg = s.ctl.cfg
  slotA : u.flash.slotA = s.flash.slotA
  slotB : u.flash.slotB = s.flash.slotB

/-- The state once the image `l` runs, with the banks of the old one kept. -/
def cutOver (s : State) (l : List Byte) : State :=
  { s with
    flash := { s.flash with image := l, imageValid := true }
    ctl := { s.ctl with fwVersion := imgVersion l, fwMeasure := imgMeasure l, oldBanks := true } }

/-- The state whose image in flash was found to have changed while it was read. -/
def imageSpoilt (s : State) : State := { s with flash := { s.flash with image := [], imageValid := false } }

theorem imageFrame_ends (s : State) (result phase : Nat) : ImageFrame s (loadEnds s result phase) := ⟨rfl, rfl, rfl, rfl, rfl⟩

section
variable {s : State} {l : List Byte}

theorem stageImage_refused {changed : Bool} (h : imgCheck l (cfgFwFloor s) ≠ 0) :
    stageImage s changed l = loadEnds s (imgCheck l (cfgFwFloor s)) 6 := if_pos h

theorem stageImage_changed (h : ¬ imgCheck l (cfgFwFloor s) ≠ 0) : stageImage s true l = loadEnds (imageSpoilt s) 0x0A 6 :=
  (if_neg h).trans (if_pos rfl)

theorem stageImage_cutOver (h : ¬ imgCheck l (cfgFwFloor s) ≠ 0) : stageImage s false l =
    postFrom (loadEnds (cutOver s l) 0 5) 549 { code := 0x0062, params := [s.ctl.fwVersion, imgVersion l] } :=
  (if_neg h).trans (if_neg Bool.false_ne_true)

end

theorem imageFrame_stageImage (s : State) (changed : Bool) (l : List Byte) : ImageFrame s (stageImage s changed l) := by
  by_cases h : imgCheck l (cfgFwFloor s) ≠ 0
  · rw [stageImage_refused h]
    exact imageFrame_ends s _ 6
  cases changed with
  | true =>
    rw [stageImage_changed h]
    exact ⟨rfl, rfl, rfl, rfl, rfl⟩
  | false =>
    rw [stageImage_cutOver h]
    exact ⟨by rw [postFrom_ctl]; rfl, by rw [postFrom_ctl]; rfl, by rw [postFrom_ctl]; rfl, by rw [postFrom_flash]; rfl,
      by rw [postFrom_flash]; rfl⟩

theorem imageFrame_loadWith {s : State} {f : List Byte → State} (q : Option (List Byte))
    (hf : ∀ l, ImageFrame s (f l)) : ImageFrame s (loadWith s q f) := by
  cases q with
  | none => exact imageFrame_ends s 2 6
  | some l => exact hf l

theorem imageFrame_loadImage (s : State) (changed : Bool) : ImageFrame s (loadImage s changed) :=
  imageFrame_loadWith _ fun _ => imageFrame_loadWith _ (imageFrame_stageImage s changed)

theorem loadImage_unread {s : State} {changed : Bool} (h : loadRead s 8192 = none) :
    loadImage s changed = loadEnds s 2 6 := by
  unfold loadImage
  rw [h]
  rfl

theorem loadImage_read {s : State} {changed : Bool} {h l : List Byte} (hh : loadRead s 8192 = some h)
    (hl : loadRead s (max 8192 (min 8388608 (imgLength h))) = some l) : loadImage s changed = stageImage s changed l := by
  unfold loadImage
  rw [hh]
  unfold loadWith
  dsimp only
  rw [hl]

/-! ### The banks of the old firmware -/

theorem exec_codeBankFree {s : State} {t : Nat} (hold : s.ctl.oldBanks = true)
    (hfree : ∀ x ∈ s.disp.units, x.mtIssue ≠ none → x.fwVersion = s.ctl.fwVersion) :
    exec (.codeBankFree t) s = .next { atMt s t with ctl := { s.ctl with oldBanks := false } } := by
  have hnone : s.disp.units.any (boundToOld (atMt s t)) = false := by
    refine List.any_eq_false.mpr fun x hx hb => ?_
    obtain ⟨hissued, hother⟩ := Bool.and_eq_true_iff.mp hb
    refine bne_iff_ne.mp hother (hfree x hx fun hnot => ?_)
    rw [hnot] at hissued
    exact Bool.false_ne_true hissued
  refine if_pos ?_
  rw [show (atMt s t).ctl.oldBanks = true from hold, show (atMt s t).disp.units.any (boundToOld (atMt s t)) = false from hnone]
  rfl

/-- Settles O47: the loader's checks are taken in their order, on what it reads from the source. -/
theorem loader : Obligations.Loader := by
  refine ⟨?config, ?firmware, ?busy, ?banks⟩
  case config =>
    intro s t v r hready hgo hkind hidle hroom hr
    have hexec : exec (.cfgLoad t v) s = .next (loadConfig (loading s t v)) := by
      rw [exec_cfgLoad hready, writeLoadCmd_config hgo hkind hidle]
    obtain ⟨hjob, hkd, hcfg, himage⟩ := configFrame_loadConfig (loading s t v)
    refine ⟨_, hexec, hjob, hkd.trans hkind, hcfg, himage, ?fails, ?poisoned, ?read⟩
    case fails =>
      intro e he
      rw [loadConfig_unread (loadRead_fails (hr.symm.trans he))]
      exact ⟨rfl, rfl, rfl⟩
    case poisoned =>
      intro l hl hp
      rw [loadConfig_unread (loadRead_poisoned (hr.symm.trans hl) hp)]
      exact ⟨rfl, rfl, rfl⟩
    case read =>
      intro l c hl hp hc
      rw [loadConfig_read (loadRead_sound (hr.symm.trans hl) hp)]
      by_cases h : blockDigestOk c = false
      · refine (if_pos h).mpr ?_
        rw [stageBlock_digest (s := loading s t v) hc h]
        exact ⟨rfl, rfl, rfl⟩
      refine (if_neg h).mpr ?_
      by_cases hf : blockOk c = false
      · refine (if_pos hf).mpr ?_
        rw [stageBlock_fields (s := loading s t v) hc h hf]
        exact ⟨rfl, rfl, rfl⟩
      refine (if_neg hf).mpr ?_
      by_cases hq : blkField c 8 4 ≠ cfgField s 8 4 + 1
      · refine (if_pos hq).mpr ?_
        rw [stageBlock_sequence (s := loading s t v) hc h hf hq]
        exact ⟨rfl, rfl, rfl⟩
      refine (if_neg hq).mpr ?_
      by_cases hv : imgVersion s.flash.image < blkField c 0x84 4
      · refine (if_pos hv).mpr ?_
        rw [stageBlock_floor (s := loading s t v) hc h hf hq hv]
        exact ⟨rfl, rfl, rfl⟩
      · refine (if_neg hv).mpr ?_
        rw [stageBlock_staged (s := loading s t v) hc h hf hq hv]
        exact ⟨by rw [post_ctl]; rfl, by rw [post_ctl]; rfl, by rw [post_flash]; rfl, posted_one rfl hroom⟩
  case firmware =>
    intro s t v ch r hready hgo hkind hidle hr
    have hexec : exec (.fwLoad t v ch) s = .next (loadImage (loading s t v) ch) := by
      rw [exec_fwLoad hready, writeLoadCmd_image hgo hkind hidle]
    obtain ⟨hjob, hkd, hcfg, hslotA, hslotB⟩ := imageFrame_loadImage (loading s t v) ch
    refine ⟨_, hexec, hjob, hkd.trans hkind, hcfg, hslotA, hslotB, ?fails, ?read⟩
    case fails =>
      intro e he
      rw [loadImage_unread (loadRead_fails (hr.symm.trans he))]
      exact ⟨rfl, rfl, rfl, rfl⟩
    case read =>
      intro h l hh hhp hl hlp
      rw [loadImage_read (loadRead_sound (hr.symm.trans hh) hhp) (loadRead_sound hl hlp)]
      by_cases hbad : imgCheck (l.map (·.1)) (cfgFwFloor s) ≠ 0
      · refine (if_pos hbad).mpr ?_
        rw [stageImage_refused (s := loading s t v) hbad]
        exact ⟨rfl, rfl, rfl, rfl⟩
      refine (if_neg hbad).mpr ?_
      cases ch with
      | true =>
        refine (if_pos rfl).mpr ?_
        rw [stageImage_changed (s := loading s t v) hbad]
        exact ⟨rfl, rfl, rfl, rfl⟩
      | false =>
        refine (if_neg Bool.false_ne_true).mpr ?_
        rw [stageImage_cutOver (s := loading s t v) hbad, postFrom_ctl, postFrom_flash]
        exact ⟨rfl, rfl, rfl, rfl, rfl, rfl⟩
  case busy =>
    intro s t v hready hgo h1 h4 c hc
    have hwrite := writeLoadCmd_busy (t := t) hgo h1 h4 false
    have hexec : exec c s = .next (loadEnds (loading s t v) 1 s.ctl.loadPhase) := by
      rcases List.mem_pair.mp hc with rfl | rfl
      · rw [exec_cfgLoad hready, hwrite]
      · rw [exec_fwLoad hready, hwrite]
    exact ⟨_, hexec, rfl, rfl, rfl⟩
  case banks =>
    intro s t hold hfree
    exact ⟨_, exec_codeBankFree hold hfree, rfl⟩

end Sys2Proof.Loading
end

section
/-! SUPPORT. The disable rule: what begins a disable, what one leaves behind, and the writes of the job table. -/

namespace Sys2Proof.Disabling

open Sys2Proof Sys2Proof.Machine Sys2Proof.Safety Sys2Proof.Laws

/-! ### The beginning of a disable -/

/-- The dispatcher with one disable running, from the register `off`, until its deadline. -/
def disablingOne (s : State) (k : DisableKind) (off deadline : Nat) : Dispatcher :=
  { s.disp with disableOff := off, disables := [{ kind := k, off := off, deadline := deadline, timedOut := false }] }

theorem beginDisable_next (w : State) (k : DisableKind) (off : Nat) :
    beginDisable w k off none [] = { w with disp := disablingOne w k off (now w + cfgDisableTimeout w) } := rfl

theorem disable_without_effect {s : State} {k : DisableKind} (hnone : s.disp.disables = []) (hw : disableWrite s k = none)
    (off : Nat) (who : Option (Nat × Nat × Nat)) : disable s k off who = s := by
  unfold disable
  rw [hnone, hw]

theorem disable_queued {s : State} {d : Disable} {rest : List Disable} (hsome : s.disp.disables = d :: rest) (k : DisableKind)
    (off : Nat) (who : Option (Nat × Nat × Nat)) :
    disable s k off who = { s with disp := { s.disp with
      disables := s.disp.disables ++ [{ kind := k, off := off, deadline := 0, timedOut := false, who := who }] } } := by
  unfold disable
  rw [hsome]

/-! ### What each register write asks of the disable -/

section
variable {s : State}

/-- The state with another window. -/
def windowed (s : State) (w : Nat) (x : Window) : State :=
  { s with peers := { s.peers with windows := tblSet s.peers.windows w x } }

theorem disableWrite_window {w reg v : Nat} {x : Window} (hw : w < 16) (hreg : reg < 8) (hnot : reg ≠ 6)
    (hx : x = windowSet (getWin s w) reg v) (hok : windowOk s w x = true) :
    disableWrite s (.window w reg v) = some (windowed s w x) := by
  subst hx
  exact if_pos ⟨hw, hreg, hnot, hok⟩

theorem disableWrite_window_invalid {w reg v : Nat} (hbad : reg = 6 ∨ windowOk s w (windowSet (getWin s w) reg v) = false) :
    disableWrite s (.window w reg v) = none := by
  refine if_neg fun ⟨_, _, hnot, hok⟩ => ?_
  rcases hbad with h | h
  · exact hnot h
  · exact Bool.false_ne_true (h.symm.trans hok)

theorem disableWrite_retire {l : Nat} (hl : l < 512) (hserved : served s l = true) : disableWrite s (.retire l) = some s :=
  if_pos ⟨hl, hserved⟩

theorem getSlot_setSlot_same (i : Nat) (j : JobSlot) : getSlot (setSlot s i j) i = j := tblGet_tblSet_same _ _ _ _

theorem getSlot_setSlot_other {i i' : Nat} (j : JobSlot) (h : i' ≠ i) : getSlot (setSlot s i j) i' = getSlot s i' :=
  tblGet_tblSet_other _ _ _ h

theorem disableWrite_job {i : Nat} {j : JobSlot} (hj : getSlot s i = j) (hvalid : j.valid = true) :
    disableWrite s (.job i j.jobId) = some (setSlot s i { j with valid := false, closing := true }) := by
  subst hj
  exact if_pos ⟨hvalid, rfl⟩

/-! ### The job table -/

theorem tileChoice_kept {j : JobSlot} {v : Nat} (h : bits v 17 16 = 3) : tileChoice j v = j := if_pos h

theorem tileChoice_set {j : JobSlot} {v : Nat} (h : bits v 17 16 < 3) : tileChoice j v = { j with choice := bits v 17 16 } :=
  if_neg (by omega)

section
variable {v i : Nat} {j : JobSlot} {who : Option (Nat × Nat × Nat)} (hi : i = s.disp.jobSel)
include hi

theorem writeJobCtrl_opens (hj : tileChoice (getSlot s i) v = j) (hfree : j.valid = false) (hopen : bit v 31 = true)
    (hok : openRefused s i j (bits v 15 0) = false) :
    writeJobCtrl s v who = setSlot s i { j with valid := true, refused := false, jobId := bits v 15 0 } := by
  have hnot : ¬ j.valid = true := by rw [hfree]; exact Bool.false_ne_true
  have hgrant : ¬ openRefused s i j (bits v 15 0) = true := by rw [hok]; exact Bool.false_ne_true
  subst hi hj
  exact (if_neg hnot).trans <| (if_pos hopen).trans (if_neg hgrant)

theorem writeJobCtrl_sets (hj : tileChoice (getSlot s i) v = j) (hvalid : j.valid = true) (hopen : bit v 31 = true) :
    writeJobCtrl s v who = setSlot s i j := by
  subst hi hj
  exact (if_pos hvalid).trans (if_pos hopen)

theorem writeJobCtrl_closes (hj : tileChoice (getSlot s i) v = j) (hvalid : j.valid = true) (hclose : bit v 31 = false) :
    writeJobCtrl s v who = disable (setSlot s i j) (.job i j.jobId) 0x00110C who := by
  have hnot : ¬ bit v 31 = true := by rw [hclose]; exact Bool.false_ne_true
  subst hi hj
  exact (if_pos hvalid).trans (if_neg hnot)

end

/-! ### The commands -/

section
variable {t : Nat} (hready : isReady s = true)
include hready

theorem exec_windowWrite {w reg v : Nat} :
    exec (.windowWrite t w reg v) s = .next (disable (atMt s t) (.window w reg v) (windowOff w reg) none) :=
  if_pos (show isReady (atMt s t) = true from hready)

theorem exec_groupCommit : exec (.groupCommit t) s = .next (disable (atMt s t) .group 0x032800 none) :=
  if_pos (show isReady (atMt s t) = true from hready)

theorem exec_clusterRetire {v : Nat} (hgo : bit v 31 = true) (hop : bits v 15 12 = 1) :
    exec (.clusterRetire t v) s = .next (disable (atMt s t) (.retire (bits v 8 0)) 0x070120 none) :=
  (if_pos (show isReady (atMt s t) = true from hready)).trans (congrArg Host.Outcome.next (if_pos ⟨hgo, hop⟩))

theorem exec_jobOpen {v : Nat} : exec (.jobOpen t v) s = .next (writeJobCtrl (atMt s t) v none) :=
  if_pos (show isReady (atMt s t) = true from hready)

theorem exec_jobClose {v : Nat} : exec (.jobClose t v) s = .next (writeJobCtrl (atMt s t) v none) :=
  if_pos (show isReady (atMt s t) = true from hready)

theorem exec_tileChoiceSet {v : Nat} : exec (.tileChoiceSet t v) s = .next (writeJobCtrl (atMt s t) v none) :=
  if_pos (show isReady (atMt s t) = true from hready)

theorem exec_modTlbInv {v : Nat} : exec (.modTlbInv t v) s = .next (tlbInvalidate (atMt s t) v) :=
  if_pos (show isReady (atMt s t) = true from hready)

end

/-! ### The end of a disable -/

/-- Every unfinished user of the function is discarded, and the disable is marked as timed out. -/
def disableForced (s : State) (d : Disable) (rest : List Disable) : State :=
  let s := addCauses s (fun u => usesFunction d.kind u && !u.decided) reasonDisableForced (functionRes d.kind)
  { s with disp := { s.disp with disables := { d with timedOut := true } :: rest } }

theorem exec_disableTimeout {t : Nat} {d : Disable} {rest : List Disable} (hd : s.disp.disables = d :: rest)
    (hfresh : d.timedOut = false) (hdue : d.deadline ≤ max (now s) t) :
    exec (.disableTimeout t) s = .next (disableForced (atMt s t) d rest) := by
  show execDisableTimeout t s = _
  unfold execDisableTimeout
  dsimp only
  rw [show (atMt s t).disp.disables = d :: rest from hd]
  exact if_pos ⟨hdue, hfresh⟩

theorem disableOver_decided {d : Disable} (h : ∀ x ∈ s.disp.units, usesFunction d.kind x = true → x.decided = true) :
    disableOver s d = true := by
  have hnone : s.disp.units.any (fun u => usesFunction d.kind u && !u.decided) = false := by
    refine List.any_eq_false.mpr fun x hx hopen => ?_
    obtain ⟨huses, hnot⟩ := Bool.and_eq_true_iff.mp hopen
    rw [h x hx huses] at hnot
    exact Bool.false_ne_true hnot
  unfold disableOver
  rw [hnone]
  rfl

/-- The last disable ends: its event is posted and none is left. -/
def disableEnded (s : State) (d : Disable) : State :=
  nextDisable (post (endFunction s d.kind) { code := 0x000B, res := functionRes d.kind, params := [d.off] }) []

theorem exec_disableDone_last {t : Nat} {d : Disable} (hd : s.disp.disables = [d])
    (hover : disableOver (atMt s t) d = true) : exec (.disableDone t) s = .next (disableEnded (atMt s t) d) := by
  show execDisableDone t s = _
  unfold execDisableDone
  dsimp only
  rw [show (atMt s t).disp.disables = [d] from hd]
  exact if_pos hover

/-- What the end of a job's disable leaves. -/
theorem disableEnded_job {d : Disable} {i id : Nat} (hk : d.kind = .job i id) (hroom : Room s 1) :
    (disableEnded s d).disp.disables = [] ∧ (disableEnded s d).hbm.caches = [] ∧
      (∀ e ∈ (disableEnded s d).hbm.tlb, e.job ≠ id) ∧ (∀ e ∈ (disableEnded s d).disp.residency, e.2.1 ≠ id) ∧
      getSlot (disableEnded s d) i = { getSlot s i with closing := false } ∧
      Posted s (disableEnded s d) [{ code := 0x000B, res := resJob id, params := [d.off] }] := by
  have hend : disableEnded s d = nextDisable (post (endJob s i id) { code := 0x000B, res := resJob id, params := [d.off] }) [] := by
    unfold disableEnded
    rw [hk]
    rfl
  have hhbm : (disableEnded s d).hbm = (endJob s i id).hbm := by rw [hend]; exact post_hbm _ _
  have hdisp : (disableEnded s d).disp = { (endJob s i id).disp with disables := [] } := by
    rw [hend]
    exact congrArg (fun x : Dispatcher => { x with disables := [] }) (post_disp _ _)
  rw [hhbm, hdisp]
  refine ⟨rfl, rfl, fun e he => ?_, fun e he => ?_, ?_, ?_⟩
  · exact bne_iff_ne.mp (List.mem_filter.mp he).2
  · exact bne_iff_ne.mp (List.mem_filter.mp he).2
  · unfold getSlot
    rw [hdisp]
    exact tblGet_tblSet_same _ _ _ _
  · rw [hend]
    exact posted_congr rfl rfl (posted_one rfl hroom)

end

/-- Settles O48: a register write begins its disable at once or waits behind another; the end of a disable acts on its
function. -/
theorem disableRule : Obligations.DisableRule := by
  refine ⟨?window, ?invalid, ?group, ?retire, ?opens, ?closes, ?choice, ?queues, ?timeout, ?done, ?tlb⟩
  case window =>
    intro s t w reg v x hready hnone hw hreg hnot hx hok
    have hwrite : disableWrite (atMt s t) (.window w reg v) = some (windowed (atMt s t) w x) :=
      disableWrite_window hw hreg hnot hx hok
    have hexec := exec_windowWrite (t := t) (w := w) (reg := reg) (v := v) hready
    rw [disable_now (s := atMt s t) hnone hwrite, beginDisable_next] at hexec
    exact ⟨_, hexec, (getWin_set s _ w w x rfl _ rfl).1, fun w' hn => (getWin_set s _ w w' x rfl _ rfl).2 hn, rfl, rfl⟩
  case invalid =>
    intro s t w reg v hready hnone hbad
    have hwrite : disableWrite (atMt s t) (.window w reg v) = none := disableWrite_window_invalid hbad
    have hexec := exec_windowWrite (t := t) (w := w) (reg := reg) (v := v) hready
    rw [disable_without_effect (s := atMt s t) hnone hwrite] at hexec
    exact ⟨_, hexec, rfl⟩
  case group =>
    intro s t hready hnone
    have hexec := exec_groupCommit (t := t) hready
    rw [disable_now (s := atMt s t) (k := .group) hnone rfl, beginDisable_next] at hexec
    exact ⟨_, hexec, rfl, rfl⟩
  case retire =>
    intro s t v l hready hnone hgo hop hl hlt hserved
    subst hl
    have hwrite : disableWrite (atMt s t) (.retire (bits v 8 0)) = some (atMt s t) := disableWrite_retire hlt hserved
    have hexec := exec_clusterRetire (t := t) hready hgo hop
    rw [disable_now (s := atMt s t) hnone hwrite, beginDisable_next] at hexec
    exact ⟨_, hexec, rfl, rfl⟩
  case opens =>
    intro s t v i j hready hi hj hfree hopen hchoice hok
    subst hj
    have hexec := exec_jobOpen (t := t) (v := v) hready
    rw [writeJobCtrl_opens (s := atMt s t) hi (tileChoice_set hchoice) hfree hopen hok] at hexec
    exact ⟨_, hexec, getSlot_setSlot_same _ _, fun i' hn => getSlot_setSlot_other _ hn, rfl⟩
  case closes =>
    intro s t v i j hready hnone hi hj hvalid hclose hchoice
    have hwrite : disableWrite (setSlot (atMt s t) i j) (.job i j.jobId) =
        some (setSlot (setSlot (atMt s t) i j) i { j with valid := false, closing := true }) :=
      disableWrite_job (getSlot_setSlot_same _ _) hvalid
    have hexec := exec_jobClose (t := t) (v := v) hready
    rw [writeJobCtrl_closes (s := atMt s t) hi ((tileChoice_kept hchoice).trans hj.symm) hvalid hclose,
      disable_now (s := setSlot (atMt s t) i j) hnone hwrite, beginDisable_next] at hexec
    refine ⟨_, hexec, getSlot_setSlot_same _ _, fun i' hn => ?_, rfl⟩
    exact (getSlot_setSlot_other _ hn).trans (getSlot_setSlot_other _ hn)
  case choice =>
    intro s t v i j hready hi hj hvalid hopen hchoice
    subst hj
    have hexec := exec_tileChoiceSet (t := t) (v := v) hready
    rw [writeJobCtrl_sets (s := atMt s t) hi (tileChoice_set hchoice) hvalid hopen] at hexec
    exact ⟨_, hexec, getSlot_setSlot_same _ _, fun i' hn => getSlot_setSlot_other _ hn⟩
  case queues =>
    intro s t d rest hready hsome
    have hexec := exec_groupCommit (t := t) hready
    rw [disable_queued (s := atMt s t) hsome] at hexec
    exact ⟨_, hexec, rfl, rfl⟩
  case timeout =>
    intro s t d rest hd hfresh hdue
    exact ⟨_, exec_disableTimeout hd hfresh hdue, marked_of (v := atMt s t) rfl rfl rfl, rfl⟩
  case done =>
    intro s t d i id hd hk hdecided hroom
    have hover : disableOver (atMt s t) d = true := by
      refine disableOver_decided fun x hx huses => hdecided x hx ?_
      rw [hk] at huses
      exact beq_iff_eq.mp huses
    exact ⟨_, exec_disableDone_last hd hover, disableEnded_job (s := atMt s t) hk hroom⟩
  case tlb =>
    intro s t v hready
    exact ⟨_, exec_modTlbInv hready, rfl⟩

end Sys2Proof.Disabling
end

section
/-! SUPPORT. The scratchpad: slot accesses, the Farrier's write-back, scrub visits and the map-out of rows. -/

namespace Sys2Proof.ScratchpadWords

open Sys2Proof Sys2Proof.Machine Sys2Proof.Safety Sys2Proof.Laws

/-! ### Slots -/

section
variable {s : State} {t p frame slot : Nat} {a : SlotAccess}

/-- The state in which an access takes its slot. -/
def slotTaken (s : State) (t p frame slot : Nat) : State :=
  modClu (atMt s t) p fun c =>
    { c with spad := applyUpsets c.spad [], lastFrame := 8 * frame + slot, idleSince := now (atMt s t) }

theorem slotOpen (hactive : (getClu s p).power = .active) (hslot : slotAllows slot a.write = true)
    (horder : (getClu s p).lastFrame ≤ 8 * frame + slot) :
    ¬ ((getClu (atMt s t) p).power ≠ .active ∨ slotAllows slot a.write = false ∨
      8 * frame + slot < (getClu (atMt s t) p).lastFrame) := by
  rintro (h | h | h)
  · exact h hactive
  · exact Bool.false_ne_true (h.symm.trans hslot)
  · exact Nat.not_lt.mpr horder h

/-- The access that writes every byte of one word. -/
def wordWrite (pl li i : Nat) (data : List Byte) (bad : Bool) : SlotAccess :=
  ⟨false, pl, li, true, [i], List.range 32, [data], [bad]⟩

theorem exec_slotAccess_write {pl li i : Nat} {data : List Byte} {bad : Bool} (hactive : (getClu s p).power = .active)
    (hslot : slotAllows slot true = true) (horder : (getClu s p).lastFrame ≤ 8 * frame + slot) :
    exec (.slotAccess t p frame slot (wordWrite pl li i data bad) []) s =
      .next (modClu (slotTaken s t p frame slot) p fun c =>
        maskedWrite c (64 * (64 * pl + li) + i) (List.range 32) data bad) :=
  if_neg (slotOpen (a := wordWrite pl li i data bad) hactive hslot horder)

theorem noteReads_sound (ws : List Nat) (hupset : (getClu s p).spad.upset = []) : noteReads s p ws = s := by
  unfold noteReads
  dsimp only
  rw [hupset, List.filter_eq_nil_iff.mpr (by simp)]
  rfl

theorem spadWord_sound {sp : Spad} (hupset : sp.upset = []) (hpoison : sp.poison = []) (w : Nat) :
    (spadWord sp w).2.1 = false := by
  rw [spadWord_eq, hupset, hpoison]
  rfl

theorem exec_slotAccess_read (hactive : (getClu s p).power = .active) (hslot : slotAllows slot false = true)
    (hread : a.write = false) (horder : (getClu s p).lastFrame ≤ 8 * frame + slot) (hupset : (getClu s p).spad.upset = [])
    (hpoison : (getClu s p).spad.poison = []) :
    exec (.slotAccess t p frame slot a []) s = .next (slotTaken s t p frame slot) := by
  have hspad : (getClu (slotTaken s t p frame slot) p).spad = (getClu s p).spad := by
    unfold slotTaken
    rw [getClu_modClu_same]
    rfl
  have hreads := noteReads_sound (s := slotTaken s t p frame slot) (p := p) (slotWords a) (by rw [hspad]; exact hupset)
  have hbad : (slotWords a).any (fun w => (spadWord (getClu (slotTaken s t p frame slot) p).spad w).2.1) = false := by
    refine List.any_eq_false.mpr fun w _ => ?_
    rw [hspad, spadWord_sound hupset hpoison]
    exact Bool.false_ne_true
  have hwrite : ¬ a.write = true := by rw [hread]; exact Bool.false_ne_true
  have hopen := slotOpen (t := t) (frame := frame) (a := a) hactive (by rw [hread]; exact hslot) horder
  show execSlotAccess t p frame slot a [] s = _
  unfold execSlotAccess
  dsimp only
  rw [if_neg hopen, if_neg hwrite]
  rw [show noteReads (modClu (atMt s t) p _) p (slotWords a) = slotTaken s t p frame slot from hreads, hbad, Bool.and_false]

end

/-! ### The Farrier -/

theorem exec_farrierWriteBack_one {s : State} {t p frame w : Nat} (hw : (getClu s p).writeBack = [w])
    (hactive : (getClu s p).power = .active) (hodd : frame % 2 = 1) :
    exec (.farrierWriteBack t p frame) s = .next (setClu (atMt s t) p
      { getClu s p with spad := rewriteWord (getClu s p).spad w, writeBack := [] }) := by
  have hopen : ¬ (frame % 2 = 0 ∨ (getClu (atMt s t) p).power ≠ .active) := by
    rintro (h | h)
    · omega
    · exact h hactive
  show execFarrierWriteBack t p frame s = _
  unfold execFarrierWriteBack
  dsimp only
  rw [show (getClu (atMt s t) p).writeBack = [w] from hw]
  dsimp only
  rw [if_neg hopen, List.filter_cons_of_pos (by simp), List.filter_cons_of_neg (by simp)]
  rfl

theorem spadWord_rewriteWord {sp : Spad} (hwf : Memory.wf sp.bytes = true) (w w' : Nat) :
    spadWord (rewriteWord sp w) w = ((spadWord sp w).1, (spadWord sp w).2.1, .none) ∧
      (w' ≠ w → spadWord (rewriteWord sp w) w' = spadWord sp w') :=
  spadWord_set hwf w (spadWord sp w).1 (spadWord_length sp w) (spadWord sp w).2.1 w' _ rfl rfl rfl

/-! ### Scrub -/

/-- The cluster after a scrub visit that found a corrected word of a bank row. -/
def scrubNoted (bank row t lim : Nat) (c : Cluster) : Cluster :=
  let c := if c.scrubCe.contains (bank, row, t) then c else { c with scrubCe := c.scrubCe ++ [(bank, row, t)] }
  if scrubVisits t c bank row ≥ lim ∧ c.mapDue.contains (bank, row) = false then { c with mapDue := c.mapDue ++ [(bank, row)] }
  else c

theorem scrubNoted_what (bank row t lim : Nat) (c : Cluster) : ∃ visits due,
    scrubNoted bank row t lim c = { c with scrubCe := visits, mapDue := due } ∧ (bank, row, t) ∈ visits := by
  obtain ⟨visits, hmem, hvisit⟩ : ∃ visits, (bank, row, t) ∈ visits ∧
      (if c.scrubCe.contains (bank, row, t) then c else { c with scrubCe := c.scrubCe ++ [(bank, row, t)] }) =
        { c with scrubCe := visits } := by
    by_cases h : c.scrubCe.contains (bank, row, t) = true
    · exact ⟨c.scrubCe, List.contains_iff_mem.mp h, if_pos h⟩
    · exact ⟨_, List.mem_append_right _ (List.mem_singleton.mpr rfl), if_neg h⟩
  unfold scrubNoted
  rw [hvisit]
  dsimp only
  split
  · exact ⟨visits, _, rfl, hmem⟩
  · exact ⟨visits, c.mapDue, rfl, hmem⟩

section
variable {s : State} {p w : Nat} (hword : (spadWord (getClu s p).spad w).2.2 = .corrected)
include hword

theorem noteScrub_corrected : noteScrub s p w = modClu s p (scrubNoted (bankOf w) (bankRowOf w) (now s) (cfgSpdRepeat s)) := by
  unfold noteScrub
  split
  · rfl
  · rename_i hnot
    exact (hnot _ _ (Prod.ext rfl (Prod.ext rfl hword))).elim

/-- The cluster once the read of a corrected word is counted. -/
def correctionNoted (w : Nat) (c : Cluster) : Cluster :=
  { c with spdCe := cap32 (c.spdCe + 1), writeBack := addOnce c.writeBack w }

theorem noteWord_corrected : noteWord s p w =
    postFault (modClu s p (correctionNoted w)) 0x01 (cluRes (modClu s p (correctionNoted w)) p) p := by
  unfold noteWord
  split
  · rename_i h
    rw [h] at hword
    cases hword
  · rfl
  · rename_i h
    rw [h] at hword
    cases hword

end

theorem noteReads_one {s : State} {p w : Nat} {m : StoredWord} (hupset : (getClu s p).spad.upset = [(w, m)]) :
    noteReads s p [w] = noteWord s p w := by
  unfold noteReads
  dsimp only
  rw [hupset, List.filter_cons_of_pos (by simp)]
  rfl

/-- The state in which a sweep begins to read its cluster. -/
def sweeping (s : State) (p : Nat) : State :=
  setClu s p { getClu s p with spad := applyUpsets (getClu s p).spad [], lastScrub := now s }

theorem exec_scrubSweep_one {s : State} {t p w : Nat} {m : StoredWord} (hon : (getClu s p).power ≠ .off)
    (hupset : (getClu s p).spad.upset = [(w, m)]) :
    exec (.scrubSweep t p []) s = .next (noteReads (noteScrub (sweeping (atMt s t) p) p w) p [w]) := by
  have hwords : ((getClu (sweeping (atMt s t) p) p).spad.upset.map (·.1)) = [w] := by
    unfold sweeping
    rw [getClu_setClu_same]
    exact congrArg (List.map (·.1)) hupset
  show execScrubSweep t p [] s = _
  unfold execScrubSweep
  dsimp only
  rw [if_neg (show ¬ (getClu (atMt s t) p).power = .off from hon),
    show (getClu (setClu (atMt s t) p _) p).spad.upset.map (·.1) = [w] from hwords]
  rfl

/-- What a sweep leaves that finds one corrected word. -/
theorem sweep_corrected {s u : State} {p w : Nat} {m : StoredWord} (hupset : (getClu s p).spad.upset = [(w, m)])
    (hword : (spadWord (getClu s p).spad w).2.2 = .corrected) (hroom : Room s 1)
    (hu : u = noteReads (noteScrub (sweeping s p) p w) p [w]) :
    (getClu u p).spdCe = cap32 ((getClu s p).spdCe + 1) ∧ w ∈ (getClu u p).writeBack ∧
      (bankOf w, bankRowOf w, now u) ∈ (getClu u p).scrubCe ∧ (getClu u p).lastScrub = now u ∧
      (getClu u p).power = (getClu s p).power ∧ (getClu u p).spad = (getClu s p).spad ∧
      Posted s u [{ code := 0x0001, mech := 0x01, res := cluRes s p, params := [p] }] := by
  obtain ⟨visits, due, hnoted, hvisit⟩ := scrubNoted_what (bankOf w) (bankRowOf w) (now s) (cfgSpdRepeat s)
    { getClu s p with lastScrub := now s }
  have hsweep : sweeping s p = setClu s p { getClu s p with lastScrub := now s } := rfl
  have hscrub : noteScrub (sweeping s p) p w =
      setClu (sweeping s p) p { getClu s p with lastScrub := now s, scrubCe := visits, mapDue := due } := by
    rw [noteScrub_corrected (by rw [hsweep, getClu_setClu_same]; exact hword)]
    refine congrArg (setClu (sweeping s p) p) ?_
    rw [hsweep, getClu_setClu_same]
    exact hnoted
  rw [hscrub] at hu
  rw [noteReads_one (m := m) (by rw [getClu_setClu_same]; exact hupset),
    noteWord_corrected (by rw [getClu_setClu_same]; exact hword)] at hu
  have hclu : getClu u p = correctionNoted w { getClu s p with lastScrub := now s, scrubCe := visits, mapDue := due } := by
    rw [hu, getClu_clu (congrArg Clusters.phys (postFault_clu _ _ _ _)), getClu_modClu_same, getClu_setClu_same]
  have hnow : now u = now s := by rw [hu, now_postFault]; rfl
  rw [hclu, hnow]
  refine ⟨rfl, mem_addOnce _ _, hvisit, rfl, rfl, rfl, ?_⟩
  rw [hu]
  exact fault_posted rfl hroom

/-! ### Rows that are mapped out -/

section
variable {s : State} {t p bank row : Nat} (hon : (getClu s p).power ≠ .off) (hdue : (bank, row) ∈ (getClu s p).mapDue)
include hon hdue

theorem mapOutOpen : ¬ ((getClu (atMt s t) p).power = .off ∨ (getClu (atMt s t) p).mapDue.contains (bank, row) = false) := by
  rintro (h | h)
  · exact hon h
  · exact Bool.false_ne_true (h.symm.trans (List.contains_iff_mem.mpr hdue))

omit hon hdue in
/-- The word of a bank in a row. -/
def bankWord (bank row : Nat) : Nat := 64 * row + (bank + 64 - row % 64) % 64

/-- A cluster whose row of a bank has taken the next spare. -/
def rowMapped (c : Cluster) (bank row : Nat) : Cluster :=
  { c with
    spad := rewriteWord c.spad (bankWord bank row)
    remap := c.remap.filter (fun e => !(e.1 == bank && e.2.1 == row)) ++ [(bank, row, sparesUsed c bank)]
    spareUsed := tblSet c.spareUsed bank (sparesUsed c bank + 1)
    mapDue := c.mapDue.filter fun e => !(e == (bank, row))
    writeBack := c.writeBack.filter (· != bankWord bank row) }

/-- The state with the row mapped out, before its repair entry waits for flash. -/
def mapOutPosted (s : State) (p bank row : Nat) : State :=
  postFrom (setClu s p (rowMapped (getClu s p) bank row)) (544 + dieOfPhys p)
    { code := 0x0003, params := [p, bank, row, sparesUsed (getClu s p) bank] }

/-- The state with one more repair entry waiting for flash. -/
def repairDue (s : State) (p bank row : Nat) : State :=
  { s with flash := { s.flash with repairPending := s.flash.repairPending ++
      [{ cluster := p, bank := bank, row := row, field := true }] } }

theorem exec_rowMapOut_spare (hspare : sparesUsed (getClu s p) bank < 48) :
    exec (.rowMapOut t p bank row) s = .next (repairDue (mapOutPosted (atMt s t) p bank row) p bank row) :=
  (if_neg (mapOutOpen hon hdue)).trans (if_neg (Nat.not_le.mpr hspare))

theorem exec_rowMapOut_none (hspare : 48 ≤ sparesUsed (getClu s p) bank) :
    exec (.rowMapOut t p bank row) s = .next (declareFailed (atMt s t) p 0x09) :=
  (if_neg (mapOutOpen hon hdue)).trans (if_pos hspare)

end

theorem mapOutPosted_clu (s : State) (p bank row : Nat) :
    getClu (mapOutPosted s p bank row) p = rowMapped (getClu s p) bank row := by
  unfold mapOutPosted
  rw [getClu_clu (congrArg Clusters.phys (postFrom_clu _ _ _)), getClu_setClu_same]

theorem mapOutPosted_flash (s : State) (p bank row : Nat) : (mapOutPosted s p bank row).flash = s.flash :=
  postFrom_flash _ _ _

theorem exec_repairAppend {s : State} {t : Nat} (hpower : s.ctl.powered = true) :
    exec (.repairAppend t) s = .next { atMt s t with
      flash := { s.flash with repair := s.flash.repair ++ s.flash.repairPending, repairPending := [] } } :=
  if_pos hpower

/-- Settles O53: each operation of the scratchpad acts on its word, row or cluster only. -/
theorem scratchpad : Obligations.Scratchpad := by
  refine ⟨?write, ?read, ?writeBack, ?scrub, ?mapOut, ?noSpare, ?append⟩
  case write =>
    intro s t p frame slot pl li i data bad hactive hslot horder hpl hli hi hlen hwf
    refine ⟨_, exec_slotAccess_write hactive hslot horder, ?_⟩
    exact full_write s t p frame slot _ data bad hlen hwf (by omega) _ rfl
  case read =>
    intro s t p frame slot a hactive hslot hread horder hupset hpoison
    exact ⟨_, exec_slotAccess_read hactive hslot hread horder hupset hpoison, rfl⟩
  case writeBack =>
    intro s t p frame w hw hactive hodd hwf
    refine ⟨_, exec_farrierWriteBack_one hw hactive hodd, ?_⟩
    dsimp only
    rw [getClu_setClu_same]
    exact ⟨rfl, (spadWord_rewriteWord hwf w 0).1, fun w' hn => (spadWord_rewriteWord hwf w w').2 hn⟩
  case scrub =>
    intro s t p w m hon hupset hword hroom
    exact ⟨_, exec_scrubSweep_one hon hupset, sweep_corrected (s := atMt s t) hupset hword hroom rfl⟩
  case mapOut =>
    intro s t p bank row hon hdue hspare hroom
    refine ⟨_, exec_rowMapOut_spare hon hdue hspare, ?_⟩
    dsimp only
    rw [show getClu (repairDue _ p bank row) p = _ from mapOutPosted_clu (atMt s t) p bank row]
    refine ⟨List.mem_append_right _ (List.mem_singleton.mpr rfl), tblGet_tblSet_same _ _ _ _, fun h => ?_, ?_, ?_⟩
    · have := (List.mem_filter.mp h).2
      simp at this
    · unfold repairDue
      rw [mapOutPosted_flash]
      rfl
    · exact posted_congr rfl rfl (posted_from rfl hroom)
  case noSpare =>
    intro s t p bank row hon hdue hspare hopen
    exact ⟨_, exec_rowMapOut_none hon hdue hspare, (declareFailed_down (atMt s t) p 0x09 hopen).1⟩
  case append =>
    intro s t hpower
    exact ⟨_, exec_repairAppend hpower, rfl⟩

end Sys2Proof.ScratchpadWords
end

section
/-! SUPPORT. Service memory: what a decoded granule, a landing write, a retirement, a loss and a rebuild leave behind. -/

namespace Sys2Proof.ServiceMemory

open Sys2Proof Sys2Proof.Machine Sys2Proof.Safety Sys2Proof.Laws

/-! ### Granules -/

section
variable {s : State} {t pa k : Nat} (hin : pa < serviceCap s) (hpower : s.ctl.powered = true)
  (hdec : decodable s (dataAddr s pa) = true)
include hin hpower

theorem granuleIn : ¬ (decide (serviceCap (atMt s t) ≤ pa) || !(atMt s t).ctl.powered) = true := by
  rw [decide_eq_false (show ¬ serviceCap (atMt s t) ≤ pa from Nat.not_le.mpr hin),
    show (atMt s t).ctl.powered = true from hpower]
  exact Bool.false_ne_true

include hdec

theorem granuleReadable : ¬ (decide (serviceCap (atMt s t) ≤ pa) || !(atMt s t).ctl.powered ||
    !decodable (atMt s t) (dataAddr (atMt s t) pa)) = true := by
  rw [Bool.eq_false_iff.mpr (granuleIn (t := t) hin hpower),
    show decodable (atMt s t) (dataAddr (atMt s t) pa) = true from hdec]
  exact Bool.false_ne_true

theorem exec_hbmRead_corrected (h1 : 1 ≤ k) (h3 : k ≤ 3) :
    exec (.hbmRead t pa (.corrected k)) s = .next (correctGranule (atMt s t) (dataAddr s pa)) :=
  (if_neg (granuleReadable hin hpower hdec)).trans <| (if_neg (Nat.ne_of_gt h1)).trans (if_pos h3)

theorem exec_hbmRead_uncorrectable :
    exec (.hbmRead t pa .uncorrectable) s = .next (reconGranule (atMt s t) (dataAddr s pa)) :=
  if_neg (granuleReadable hin hpower hdec)

omit hin hpower hdec in
/-- The state once the patrol has noted how far it is. -/
def patrolling (s : State) (t pa : Nat) : State :=
  { atMt s t with hbm := { s.hbm with scrubProgress := pa * 65536 / serviceCap s } }

omit hin hpower in
theorem patrolReadable : ¬ (!decodable (patrolling s t pa) (dataAddr s pa)) = true := by
  rw [show decodable (patrolling s t pa) (dataAddr s pa) = true from hdec]
  exact Bool.false_ne_true

theorem exec_patrolScrubVisit_corrected (h1 : 1 ≤ k) (h3 : k ≤ 3) :
    exec (.patrolScrubVisit t pa (.corrected k)) s = .next (patrolHit (patrolling s t pa) (dataAddr s pa)) :=
  (if_neg (granuleIn hin hpower)).trans <| (if_neg (patrolReadable hdec)).trans <|
    (if_neg (Nat.ne_of_gt h1)).trans (if_pos h3)

theorem exec_patrolScrubVisit_uncorrectable :
    exec (.patrolScrubVisit t pa .uncorrectable) s = .next (reconGranule (patrolling s t pa) (dataAddr s pa)) :=
  (if_neg (granuleIn hin hpower)).trans (if_neg (patrolReadable hdec))

end

/-- The corrected patrol visits of a granule that still count, with the one of now. -/
def patrolHits (s : State) (g : Nat) : List Nat :=
  (tblGet [] s.hbm.scrubHits g ++ [now s]).filter fun x => decide (now s ≤ x + 1512000000000000)

theorem now_mem_patrolHits (s : State) (g : Nat) : now s ∈ patrolHits s g :=
  List.mem_filter.mpr ⟨List.mem_append_right _ (List.mem_singleton.mpr rfl), decide_eq_true (Nat.le_add_right _ _)⟩

/-- The state once a patrol visit's correction is counted. -/
def patrolCounted (s : State) (da : Nat) : State :=
  { s with hbm := { s.hbm with
      ce := tblInc s.hbm.ce (stackOf da)
      scrubHits := tblSet s.hbm.scrubHits (da / 64) (patrolHits s (da / 64)) } }

theorem patrolHit_eq (s : State) (da : Nat) : patrolHit s da =
    if (patrolHits s (da / 64)).length ≥ cfgHbmRetireCe s then noteRetire (patrolCounted s da) (da / 4096)
    else patrolCounted s da := rfl

theorem patrolHit_what (s : State) (da : Nat) :
    ∃ due, patrolHit s da = { patrolCounted s da with hbm := { (patrolCounted s da).hbm with retireDue := due } } ∧
      (da / 4096 ∈ due ↔ da / 4096 ∈ s.hbm.retireDue ∨ cfgHbmRetireCe s ≤ (patrolHits s (da / 64)).length) := by
  by_cases h : (patrolHits s (da / 64)).length ≥ cfgHbmRetireCe s
  · refine ⟨addOnce s.hbm.retireDue (da / 4096), (patrolHit_eq s da).trans (if_pos h), ?_⟩
    exact iff_of_true (mem_addOnce _ _) (Or.inr h)
  · refine ⟨s.hbm.retireDue, (patrolHit_eq s da).trans (if_neg h), ?_⟩
    exact (or_iff_left h).symm

/-! ### A write that lands -/

theorem writerLanded_nobody (s : State) : writerLanded s .nobody = s := by
  unfold writerLanded
  split <;> rfl

section
variable {s : State} {t : Nat} {w : PendingWrite} (hone : s.hbm.pending = [w])
include hone

theorem rowPending : (s.hbm.pending.filter fun x => pendingRow s x == rowOf (dataAddr s w.pa)) = [w] := by
  rw [hone]
  exact List.filter_cons_of_pos (by simp [pendingRow])

theorem rowPending_rest : (s.hbm.pending.filter fun x => !(pendingRow s x == rowOf (dataAddr s w.pa))) = [] := by
  rw [hone]
  exact List.filter_cons_of_neg (by simp [pendingRow])

theorem exec_parityWrite_one (hwho : w.who = .nobody) :
    exec (.parityWrite t (rowOf (dataAddr s w.pa))) s = .next (landRow (atMt s t) (rowOf (dataAddr s w.pa))) := by
  have hrow : ((atMt s t).hbm.pending.filter fun x => pendingRow (atMt s t) x == rowOf (dataAddr s w.pa)) = [w] :=
    rowPending hone
  have hwriters : writersOf [w] = [.nobody] := congrArg (· :: []) hwho
  show execParityWrite t (rowOf (dataAddr s w.pa)) s = _
  unfold execParityWrite
  dsimp only
  rw [hrow, hwriters]
  exact (if_neg Bool.false_ne_true).trans (congrArg Host.Outcome.next (writerLanded_nobody _))

/-- What no landing of a row's writes changes. -/
structure Landed (s u : State) : Prop where
  pending : u.hbm.pending = s.hbm.pending
  disp : u.disp = s.disp
  host : u.host = s.host
  pdk : u.pdk = s.pdk
  clu : u.clu = s.clu

omit hone in
theorem landed_landRun (s : State) (pa : Nat) (l : List (Byte × Bool)) : Landed s (landRun s pa l) := by
  unfold landRun
  split
  · exact ⟨rfl, rfl, rfl, rfl, rfl⟩
  · dsimp only
    obtain ⟨d, p, hbytes⟩ := landBytes_same s (dataAddr s pa) l
    obtain ⟨q, r, hpoison⟩ := landPoison_same (landBytes s (dataAddr s pa) l) (runGranules (dataAddr s pa) l)
    rw [hpoison, hbytes]
    exact ⟨rfl, rfl, rfl, rfl, rfl⟩

omit hone in
theorem landRun_data {pa : Nat} {l : List (Byte × Bool)} (hl : l ≠ []) :
    (landRun s pa l).hbm.data = (landBytes s (dataAddr s pa) l).hbm.data := by
  obtain ⟨d, p, hpoison⟩ := landPoison_same (landBytes s (dataAddr s pa) l) (runGranules (dataAddr s pa) l)
  unfold landRun
  rw [if_neg (by rw [List.isEmpty_iff]; exact hl)]
  dsimp only
  rw [hpoison]
  rfl

/-- The state with no write pending. -/
def drained (s : State) : State := { s with hbm := { s.hbm with pending := [] } }

theorem landRow_one : landRow s (rowOf (dataAddr s w.pa)) =
    clearSeen (landRun (drained s) w.pa w.bytes) (rowOf (dataAddr s w.pa)) [w] := by
  unfold landRow
  rw [rowPending hone, rowPending_rest hone]
  rfl

end

/-! ### Retirement of a frame -/

theorem landBytes_fold {α : Type} (f : α → Nat × List (Byte × Bool)) (l : List α) (s : State) :
    ∃ d p, l.foldl (fun s e => landBytes s (f e).1 (f e).2) s = { s with hbm := { s.hbm with data := d, parity := p } } := by
  induction l generalizing s with
  | nil => exact ⟨_, _, rfl⟩
  | cons e l ih =>
    obtain ⟨d, p, he⟩ := landBytes_same s (f e).1 (f e).2
    obtain ⟨d', p', hl⟩ := ih (landBytes s (f e).1 (f e).2)
    refine ⟨d', p', hl.trans ?_⟩
    rw [he]

theorem copyFrame_same (s : State) (src dst : Nat) : ∃ d p q r, copyFrame s src dst =
    { s with hbm := { s.hbm with data := d, parity := p, poison := q, poisonSeen := r } } := by
  unfold copyFrame
  dsimp only
  split
  · obtain ⟨d, p, hfold⟩ := landBytes_fold (fun e : Nat × Byte => (2097152 * dst + (e.1 - 2097152 * src), [(e.2, false)]))
      (s.hbm.data.filter fun e => decide (2097152 * src ≤ e.1) && decide (e.1 < 2097152 * src + 2097152)) s
    rw [hfold]
    obtain ⟨q, r, hpoison⟩ := landPoison_same { s with hbm := { s.hbm with data := d, parity := p } } _
    exact ⟨d, p, q, r, hpoison⟩
  · obtain ⟨d, p, hbytes⟩ := landBytes_same s (2097152 * dst) ((numsFrom (2097152 * src) 2097152).map (dataByte s))
    rw [hbytes]
    obtain ⟨q, r, hpoison⟩ := landPoison_same { s with hbm := { s.hbm with data := d, parity := p } } _
    exact ⟨d, p, q, r, hpoison⟩

/-- The state in which the unit's retirement is no longer due. -/
def retiring (s : State) (unit : Nat) : State :=
  { s with hbm := { s.hbm with retireDue := s.hbm.retireDue.filter (· != unit) } }

theorem not_due_retiring (s : State) (unit : Nat) : unit ∉ (retiring s unit).hbm.retireDue := fun h => by
  have := (List.mem_filter.mp h).2
  simp at this

theorem poolFrames_full {s : State} (hguard : cfgSingleGuard s = false) : poolFrames s = 2048 - s.hbm.poolUsed :=
  if_neg (by rw [hguard]; exact Bool.false_ne_true)

section
variable {s : State} {t unit : Nat} (hdue : unit ∈ s.hbm.retireDue)
include hdue

theorem exec_pageRetire_frame {f : Nat} (hone : (rowFrames (unit / 19)).filter (fun f => (frameUser s f).isSome) = [f])
    (hguard : cfgSingleGuard s = false) (hpool : s.hbm.poolUsed < 2048) :
    exec (.pageRetire t unit) s = .next (retireFrame (retiring (atMt s t) unit) f) := by
  have hframes : (rowFrames (unit / 19)).filter (fun f => (frameUser (retiring (atMt s t) unit) f).isSome) = [f] := hone
  have hfree : poolFrames (retiring (atMt s t) unit) = 2048 - s.hbm.poolUsed :=
    poolFrames_full (s := retiring (atMt s t) unit) hguard
  have hsome : ¬ ((rowFrames (unit / 19)).filter
      (fun f => (frameUser (retiring (atMt s t) unit) f).isSome)).isEmpty = true := by
    rw [hframes]
    exact Bool.false_ne_true
  have hfits : ((rowFrames (unit / 19)).filter
      (fun f => (frameUser (retiring (atMt s t) unit) f).isSome)).length ≤ poolFrames (retiring (atMt s t) unit) := by
    rw [hframes, hfree, List.length_singleton]
    omega
  have hexec : exec (.pageRetire t unit) s = .next (((rowFrames (unit / 19)).filter
      (fun f => (frameUser (retiring (atMt s t) unit) f).isSome)).foldl retireFrame (retiring (atMt s t) unit)) :=
    (if_pos (List.contains_iff_mem.mpr hdue)).trans <| (if_neg hsome).trans (if_pos hfits)
  rw [hexec, hframes]
  rfl

/-- The state whose unit is lost for want of a pool. -/
def unitLostOf (s : State) (unit : Nat) : State :=
  { s with hbm := { s.hbm with
      lostUnits := addOnce s.hbm.lostUnits (dataStack (unit / 19) (unit % 19) * 2 ^ 25 + unit / 19) } }

/-- The event of a unit lost for want of a pool. -/
def unitLostEvent (s : State) (unit : Nat) : Event :=
  { code := 0x0004, params := [((frameUser s (unit / 512)).getD (unit / 512)), poolFrames s] }

theorem exec_pageRetire_noPool (hsome : (rowFrames (unit / 19)).filter (fun f => (frameUser s f).isSome) ≠ [])
    (hguard : cfgSingleGuard s = true) :
    exec (.pageRetire t unit) s = .next (capOpen
      (post (unitLostOf (retiring (atMt s t) unit) unit) (unitLostEvent (unitLostOf (retiring (atMt s t) unit) unit) unit))
      2 (resStack (dataStack (unit / 19) (unit % 19)))) := by
  have hfree : poolFrames (retiring (atMt s t) unit) = 0 := if_pos (show cfgSingleGuard s = true from hguard)
  refine (if_pos (show (atMt s t).hbm.retireDue.contains unit = true from List.contains_iff_mem.mpr hdue)).trans ?_
  dsimp only
  have hnone : ¬ ((rowFrames (unit / 19)).filter fun f => (frameUser s f).isSome).isEmpty = true := by
    rw [List.isEmpty_iff]; exact hsome
  have hfull : ¬ ((rowFrames (unit / 19)).filter fun f => (frameUser s f).isSome).length ≤
      poolFrames (retiring (atMt s t) unit) := by
    rw [hfree]
    exact fun h => hsome (List.eq_nil_of_length_eq_zero (Nat.le_zero.mp h))
  exact (if_neg hnone).trans (if_neg hfull)

end

/-- The state whose service frame `v` has taken the next pool frame, with `h` for service memory. -/
def frameMoved (s : State) (h : Hbm) (v : Nat) : State :=
  { s with
    hbm := { h with frameMap := tblSet s.hbm.frameMap v (737280 + s.hbm.poolUsed), poolUsed := s.hbm.poolUsed + 1 }
    flash := { s.flash with retiredPending := s.flash.retiredPending ++ [v] } }

theorem retireFrame_moved {s : State} {f v : Nat} (huser : frameUser s f = some v) : ∃ h,
    h.retireDue = s.hbm.retireDue ∧
      retireFrame s f = post (frameMoved s h v) { code := 0x0004, params := [v, poolFrames (frameMoved s h v)] } := by
  obtain ⟨d, p, q, r, hcopy⟩ := copyFrame_same s f (737280 + s.hbm.poolUsed)
  refine ⟨{ s.hbm with data := d, parity := p, poison := q, poisonSeen := r }, rfl, ?_⟩
  unfold retireFrame
  rw [huser]
  dsimp only
  rw [hcopy]
  rfl

/-- What the retirement of one frame into the pool leaves. -/
theorem retireFrame_what {s : State} {f v : Nat} (huser : frameUser s f = some v) (hguard : cfgSingleGuard s = false)
    (hroom : Room s 1) :
    tblGet 0 (retireFrame s f).hbm.frameMap v = 737280 + s.hbm.poolUsed ∧
      (retireFrame s f).hbm.poolUsed = s.hbm.poolUsed + 1 ∧ (retireFrame s f).hbm.retireDue = s.hbm.retireDue ∧
      (retireFrame s f).flash = { s.flash with retiredPending := s.flash.retiredPending ++ [v] } ∧
      Posted s (retireFrame s f) [{ code := 0x0004, params := [v, 2047 - s.hbm.poolUsed] }] := by
  obtain ⟨h, hdue, hmoved⟩ := retireFrame_moved huser
  have hfree : poolFrames (frameMoved s h v) = 2047 - s.hbm.poolUsed := by
    rw [poolFrames_full (s := frameMoved s h v) hguard]
    show 2048 - (s.hbm.poolUsed + 1) = _
    omega
  rw [hmoved, hfree, post_hbm, post_flash]
  exact ⟨tblGet_tblSet_same _ _ _ _, rfl, hdue, rfl, posted_one rfl hroom⟩

theorem exec_retirementAppend {s : State} {t : Nat} (hpower : s.ctl.powered = true) :
    exec (.retirementAppend t) s = .next { atMt s t with
      flash := { s.flash with retired := s.flash.retired ++ s.flash.retiredPending, retiredPending := [] } } :=
  if_pos hpower

/-! ### Loss and rebuild -/

section
variable {s : State} {t k c : Nat} (hpower : s.ctl.powered = true) (hk : k < 20)
include hpower hk

/-- A region lost after a fault, with every unit of `p` discarded. -/
def lostAfter (s : State) (mech res p0 : Nat) (p : WorkUnit → Bool) (r : LostRegion) : State :=
  loseRegion (addCauses (postFault s mech res p0) p reasonHwFault res) r

omit hpower hk in
theorem lostAfter_what (s : State) (mech res p0 : Nat) (p : WorkUnit → Bool) (r : LostRegion) :
    Marked s (lostAfter s mech res p0 p r) p reasonHwFault res ∧ (lostAfter s mech res p0 p r).hbm.data = s.hbm.data ∧
      r ∈ (lostAfter s mech res p0 p r).hbm.lost ∧
      (cfgSingleGuard s = false → (lostAfter s mech res p0 p r).hbm.rebuilding = true) := by
  obtain ⟨hdisp, hnow, hlost, hdata, hrebuild⟩ := lose_what (addCauses (postFault s mech res p0) p reasonHwFault res) r
  have hguard : cfgSingleGuard (addCauses (postFault s mech res p0) p reasonHwFault res) = cfgSingleGuard s :=
    guard_of (postFault_ctl s mech res p0)
  refine ⟨?_, hdata.trans (congrArg Hbm.data (postFault_hbm s mech res p0)), hlost, fun h => hrebuild (hguard.trans h)⟩
  exact marked_of (v := postFault s mech res p0) (by rw [postFault_disp]) (congrArg Dispatcher.units hdisp) hnow

theorem exec_pseudoChannelFail (hc : c < 64) (hnew : regionKnown s k (some c) = false) :
    exec (.pseudoChannelFail t k c) s = .next (lostAfter (atMt s t) 0x12 (resPseudo k c) k
      (fun x => x.touchedPcs.any fun e => e.1 == 64 * k + c) { stack := k, pc := some c, rebuilt := false }) := by
  refine if_neg ?_
  rw [show (atMt s t).ctl.powered = true from hpower, decide_eq_false (Nat.not_le.mpr hk), decide_eq_false (Nat.not_le.mpr hc),
    show regionKnown (atMt s t) k (some c) = false from hnew]
  exact Bool.false_ne_true

theorem exec_stackFail (hnew : regionKnown s k none = false) :
    exec (.stackFail t k) s = .next (lostAfter (atMt s t) 0x13 (resStack k) k (fun _ => true)
      { stack := k, pc := none, rebuilt := false }) := by
  refine if_neg ?_
  rw [show (atMt s t).ctl.powered = true from hpower, decide_eq_false (Nat.not_le.mpr hk),
    show regionKnown (atMt s t) k none = false from hnew]
  exact Bool.false_ne_true

end

/-- The state whose lost region counts as rebuilt, its bytes not yet written. -/
def rebuildMarked (s : State) (r : LostRegion) : State :=
  let others := s.hbm.lost.filter fun q => q != r
  let holes := (others.filter fun q => !q.rebuilt).map (·.pc) ++ others.flatMap (·.holes)
  { s with hbm := { s.hbm with lost := s.hbm.lost.map fun q => if q = r then { q with rebuilt := true, holes := holes } else q } }

theorem rebuildRegion_same (s : State) (r : LostRegion) : LostSame (rebuildMarked s r) (rebuildRegion s r) :=
  LostSame.trans (LostSame.fold _ fun a _ => ls_at s a _ _) (LostSame.fold _ fun a _ => ls_pois s a _ _)

theorem rebuildMarked_only {s : State} {r : LostRegion} (hlost : s.hbm.lost = [r]) :
    (rebuildMarked s r).hbm.lost = [{ r with rebuilt := true, holes := [] }] := by
  have hothers : ([r].filter fun q => q != r) = [] := List.filter_cons_of_neg (by simp)
  unfold rebuildMarked
  dsimp only
  rw [hlost, hothers]
  exact congrArg (· :: []) (if_pos rfl)

theorem rebuildRegion_only {s : State} {r : LostRegion} (hlost : s.hbm.lost = [r]) :
    (rebuildRegion s r).hbm.lost = [{ r with rebuilt := true, holes := [] }] :=
  (rebuildRegion_same s r).lost.trans (rebuildMarked_only hlost)

/-- The state once the last rebuild has ended, before its event. -/
def rebuildOver (s : State) : State := { s with hbm := { s.hbm with rebuilding := false, rebuildProgress := 65535 } }

theorem exec_rebuildComplete_last {s : State} {t : Nat} {r : LostRegion} (hrun : s.hbm.rebuilding = true)
    (hlost : s.hbm.lost = [r]) (hopen : r.rebuilt = false) :
    exec (.rebuildComplete t) s = .next (capClose
      (post (rebuildOver (rebuildRegion (atMt s t) r)) { code := 0x0005, res := regionRes r }) 2 (regionRes r)) := by
  have hfind : [r].find? (fun q => !q.rebuilt) = some r := List.find?_cons_of_pos (by rw [hopen]; rfl)
  have hmore : (rebuildRegion (atMt s t) r).hbm.lost.any (fun q => !q.rebuilt) = false := by
    rw [rebuildRegion_only (s := atMt s t) hlost]
    rfl
  show execRebuildComplete t s = _
  unfold execRebuildComplete
  dsimp only
  rw [show (atMt s t).hbm.rebuilding = true from hrun, show (atMt s t).hbm.lost = [r] from hlost, hfind]
  dsimp only
  rw [hmore]
  rfl

theorem capClose_nothing {s : State} (h : s.flt.capacity = []) (cond res : Nat) : capClose s cond res = s := by
  unfold capClose
  rw [h]
  rfl

/-- Settles O56: each event of service memory acts on its granule, write, frame or region. -/
theorem hbmMemory : Obligations.HbmMemory := by
  refine ⟨?corrects, ?uncorrectable, ?patrol, ?lands, ?retires, ?unguarded, ?append, ?channel, ?stack, ?rebuilt⟩
  case corrects =>
    intro s t pa k hin hpower hdec h1 h3
    exact ⟨_, exec_hbmRead_corrected hin hpower hdec h1 h3, rfl⟩
  case uncorrectable =>
    intro s t pa da hda hin hpower hdec hroom c hc
    subst hda
    rcases List.mem_pair.mp hc with rfl | rfl
    · exact ⟨_, exec_hbmRead_uncorrectable hin hpower hdec, recon_what (atMt s t) _ hroom⟩
    · exact ⟨_, exec_patrolScrubVisit_uncorrectable hin hpower hdec, recon_what (patrolling s t pa) _ hroom⟩
  case patrol =>
    intro s t pa da k hda hin hpower hdec h1 h3
    subst hda
    obtain ⟨due, heq, hiff⟩ := patrolHit_what (patrolling s t pa) (dataAddr s pa)
    refine ⟨_, exec_patrolScrubVisit_corrected hin hpower hdec h1 h3, ?_⟩
    rw [heq]
    have hhits : tblGet [] (patrolCounted (patrolling s t pa) (dataAddr s pa)).hbm.scrubHits (dataAddr s pa / 64) =
        patrolHits (patrolling s t pa) (dataAddr s pa / 64) := tblGet_tblSet_same _ _ _ _
    dsimp only
    rw [hhits]
    exact ⟨rfl, rfl, now_mem_patrolHits _ _, rfl, hiff⟩
  case lands =>
    intro s t w hone hwho hbytes hnone hwf
    obtain ⟨hput, hkeep⟩ := landBytes_get (drained (atMt s t)) (dataAddr s w.pa) w.bytes hnone hwf.1
    have hland := landed_landRun (drained (atMt s t)) w.pa w.bytes
    have hdata := landRun_data (s := drained (atMt s t)) (pa := w.pa) hbytes
    refine ⟨_, exec_parityWrite_one hone hwho, ?_⟩
    dsimp only
    rw [show landRow (atMt s t) (rowOf (dataAddr s w.pa)) = _ from landRow_one (s := atMt s t) hone]
    refine ⟨hland.pending, fun i h => ?_, fun a ha => ?_, hland.disp, hland.host, hland.pdk, hland.clu⟩
    · exact (congrArg (cellGet · _) hdata).trans (hput i h)
    · exact (congrArg (cellGet · _) hdata).trans (hkeep a ha)
  case retires =>
    intro s t unit f v hdue hone huser hguard hpool hroom
    obtain ⟨hmap, hused, hnot, hflash, hposted⟩ :=
      retireFrame_what (s := retiring (atMt s t) unit) (f := f) huser hguard hroom
    refine ⟨_, exec_pageRetire_frame hdue hone hguard hpool, hmap, hused, ?_, hflash, hposted⟩
    rw [hnot]
    exact not_due_retiring _ unit
  case unguarded =>
    intro s t unit hdue hsome hguard
    refine ⟨_, exec_pageRetire_noPool hdue hsome hguard, ?_⟩
    dsimp only
    rw [capOpen_hbm, post_hbm]
    exact ⟨not_due_retiring (atMt s t) unit, rfl, mem_addOnce _ _⟩
  case append =>
    intro s t hpower
    exact ⟨_, exec_retirementAppend hpower, rfl⟩
  case channel =>
    intro s t k c hpower hk hc hnew
    obtain ⟨hmarked, -, hlost, hrebuild⟩ := lostAfter_what (atMt s t) 0x12 (resPseudo k c) k
      (fun x => x.touchedPcs.any fun e => e.1 == 64 * k + c) { stack := k, pc := some c, rebuilt := false }
    exact ⟨_, exec_pseudoChannelFail hpower hk hc hnew, hmarked, hlost, hrebuild⟩
  case stack =>
    intro s t k hpower hk hnew
    obtain ⟨hmarked, hdata, hlost, hrebuild⟩ := lostAfter_what (atMt s t) 0x13 (resStack k) k (fun _ => true)
      { stack := k, pc := none, rebuilt := false }
    exact ⟨_, exec_stackFail hpower hk hnew, hmarked, hdata, hlost, hrebuild⟩
  case rebuilt =>
    intro s t r hrun hlost hopen hroom hcap
    have hsame := rebuildRegion_same (atMt s t) r
    have hflt : (post (rebuildOver (rebuildRegion (atMt s t) r)) { code := 0x0005, res := regionRes r }).flt.capacity = [] := by
      rw [post_flt]
      exact (congrArg Faults.capacity hsame.flt).trans hcap
    refine ⟨_, exec_rebuildComplete_last hrun hlost hopen, ?_⟩
    dsimp only
    rw [capClose_nothing hflt, post_hbm]
    exact ⟨rebuildRegion_only (s := atMt s t) hlost, rfl, rfl, posted_one hsame.pdk hroom⟩

end Sys2Proof.ServiceMemory
end

section
/-! SUPPORT. Peer writes: DATA, LANDED, forwarding and NACK as they act on what a port has received. -/

namespace Sys2Proof.PeerData

open Sys2Proof Sys2Proof.Machine Sys2Proof.Safety Sys2Proof.Laws

/-! ### DATA -/

/-- The state with one more DATA write that has not landed. -/
def landingNext (z : State) (e : Nat × Nat × Nat) : State :=
  { z with peers := { z.peers with landing := z.peers.landing ++ [e] } }

section
variable {z : State} {b : PeerBody} {x : Window} {pa leaf : Nat}

theorem bodyBytes_ne_nil (hlen : b.len ≠ 0) (hdata : b.data.length = b.len) : bodyBytes b ≠ [] := by
  rw [← List.length_pos_iff, bodyBytes_length, hdata]
  omega

/-- A DATA write of a rank of its window that translates becomes pending. -/
theorem actData_lands (hx : x = getWin z (b.window % 16)) (hkind : x.kind = 2)
    (hrank : (winRanks x).contains b.srcRank = true) (hin : b.offset + b.len ≤ winBytes x) (hlen : b.len ≠ 0)
    (hspan : b.offset % 64 + b.len ≤ 8192) (hdata : b.data.length = b.len)
    (hpage : (winBase x + b.offset) % 2097152 + b.len ≤ 2097152)
    (hxlate : descXlate z 4 x.job (winBase x + b.offset) true = .ok pa leaf) :
    actData z b = vWrite (tlbFill (landingNext z (b.srcRank, b.pseq, b.window % 16)) 4 x.job (winBase x + b.offset)) 4 1000
      (.peer b.srcRank b.pseq (b.window % 16)) x.job (winBase x + b.offset) (bodyBytes b) := by
  have hsize : ¬ (b.len = 0 ∨ b.offset % 64 + b.len > 8192 ∨ b.data.length ≠ b.len) := by omega
  have hwin : ¬ (x.kind ≠ 2 ∨ (winRanks x).contains b.srcRank = false ∨ winBytes x < b.offset + b.len) := by
    rintro (h | h | h)
    · exact h hkind
    · exact Bool.false_ne_true (h.symm.trans hrank)
    · omega
  subst hx
  unfold actData
  dsimp only
  rw [if_neg hsize, if_neg hwin, pagesOf_one hlen hpage, List.find?_cons_of_neg (by rw [hxlate]; exact Bool.false_ne_true)]
  dsimp only [List.find?_nil]
  unfold tlbFillRange
  rw [pagesOf_one hlen hpage]
  rfl

end

/-- What a landing DATA write leaves. -/
theorem actData_what {z : State} {b : PeerBody} {x : Window} {pa leaf : Nat} (hx : x = getWin z (b.window % 16)) (hkind : x.kind = 2)
    (hrank : (winRanks x).contains b.srcRank = true) (hin : b.offset + b.len ≤ winBytes x) (hlen : b.len ≠ 0)
    (hspan : b.offset % 64 + b.len ≤ 8192) (hdata : b.data.length = b.len)
    (hpage : (winBase x + b.offset) % 2097152 + b.len ≤ 2097152)
    (hxlate : descXlate z 4 x.job (winBase x + b.offset) true = .ok pa leaf) (hframe : pa % 4096 + b.len ≤ 4096) :
    (actData z b).hbm.pending = z.hbm.pending ++
        [{ src := 1000, pa := pa, bytes := bodyBytes b, who := .peer b.srcRank b.pseq (b.window % 16) }] ∧
      (actData z b).hbm.data = z.hbm.data ∧
      (actData z b).peers.landing = z.peers.landing ++ [(b.srcRank, b.pseq, b.window % 16)] ∧ (actData z b).disp = z.disp := by
  have hbytes : (bodyBytes b).length = b.len := (bodyBytes_length b).trans hdata
  have htr : Machine.translate (landingNext z (b.srcRank, b.pseq, b.window % 16)) 4 x.job (winBase x + b.offset) = .ok pa leaf :=
    (xl_of rfl rfl rfl _ _ _).trans (dxl_tr hxlate)
  obtain ⟨hpending, hcells, -⟩ := tlbFill_same (landingNext z (b.srcRank, b.pseq, b.window % 16)) 4 x.job (winBase x + b.offset)
  have hkeep := tlbFill_keeps (M := [.hbm]) (die := 4) (job := x.job) (va := winBase x + b.offset)
    (Keeps.refl _ (landingNext z (b.srcRank, b.pseq, b.window % 16))) (by decide)
  have hpeers : (tlbFill (landingNext z (b.srcRank, b.pseq, b.window % 16)) 4 x.job (winBase x + b.offset)).peers = _ :=
    hkeep.parts.same .peers (by decide)
  have hdisp : (tlbFill (landingNext z (b.srcRank, b.pseq, b.window % 16)) 4 x.job (winBase x + b.offset)).disp = _ :=
    hkeep.parts.same .disp (by decide)
  rw [actData_lands hx hkind hrank hin hlen hspan hdata hpage hxlate,
    vWrite_one (bodyBytes_ne_nil hlen hdata) (by rw [hbytes]; exact hpage) (translate_tlbFill htr) (by rw [hbytes]; exact hframe)]
  dsimp only
  rw [hpending, hcells, hpeers, hdisp]
  exact ⟨rfl, rfl, rfl, rfl⟩

theorem peerAct_repeated {z : State} {b : PeerBody} (hkind : b.pkind ≠ 3) (hseen : pseqSeen z b.srcRank b.pseq = true) :
    peerAct z b = z := (if_neg hkind).trans (if_pos hseen)

/-! ### LANDED -/

/-- A write that a LANDED of its destination settles. -/
def settledBy (b : PeerBody) (o : PeerOut) : Bool := o.dst == b.srcRank && (o.pseq == b.pseq || serialLt o.pseq b.pseq)

/-- The state without the writes that a LANDED settles. -/
def settled (z : State) (b : PeerBody) : State :=
  { z with peers := { z.peers with out := z.peers.out.filter fun o => !settledBy b o } }

theorem actLanded_sender {z : State} {b : PeerBody} (hkind : (getWin z (b.window % 16)).kind ≠ 2) :
    actLanded z b = settled (if pseqStale z b.srcRank b.pseq then staleDrop z 1 else z) b := if_neg hkind

theorem staleDrop_same (z : State) (c : Bool) :
    (if c then staleDrop z 1 else z).hbm = z.hbm ∧ (if c then staleDrop z 1 else z).disp = z.disp ∧
      (if c then staleDrop z 1 else z).reins = z.reins ∧ (if c then staleDrop z 1 else z).peers = z.peers := by
  cases c <;> exact ⟨rfl, rfl, rfl, rfl⟩

theorem actLanded_sender_what {z : State} {b : PeerBody} (hkind : (getWin z (b.window % 16)).kind ≠ 2) :
    (actLanded z b).peers.out = (z.peers.out.filter fun o => !settledBy b o) ∧ (actLanded z b).hbm = z.hbm ∧
      (actLanded z b).disp = z.disp ∧ (actLanded z b).reins = z.reins := by
  obtain ⟨hhbm, hdisp, hreins, hpeers⟩ := staleDrop_same z (pseqStale z b.srcRank b.pseq)
  rw [actLanded_sender hkind]
  refine ⟨?_, hhbm, hdisp, hreins⟩
  exact congrArg (fun p : Peers => p.out.filter fun o => !settledBy b o) hpeers

/-- The state in which no final LANDED waits. -/
def noneWaiting (y : State) : State := { y with peers := { y.peers with finalsWait := [] } }

theorem actFinals_due {y : State} {r : Nat} {e : Nat × Nat × Nat} (hwait : y.peers.finalsWait = [e])
    (hdue : (e.1 == r && (e.2.2 == landedOf y r || serialLt e.2.2 (landedOf y r))) = true) :
    actFinals y r = (fetchAdd (noneWaiting y) (getWin y e.2.1).ctr 1 none).1 := by
  have hout : ¬ (!(e.1 == r && (e.2.2 == landedOf y r || serialLt e.2.2 (landedOf y r)))) = true := by
    rw [hdue]
    exact Bool.false_ne_true
  unfold actFinals
  dsimp only
  rw [hwait, List.filter_cons, if_neg hout, List.filter_cons, if_pos hdue]
  rfl

/-- The state that has taken a final LANDED, with what waits for those before it. -/
def finalTaken (z : State) (b : PeerBody) (wait : List (Nat × Nat × Nat)) : State :=
  { z with peers := { z.peers with finals := z.peers.finals ++ [(b.srcRank, b.pseq)], finalsWait := wait } }

theorem actLanded_final {z : State} {b : PeerBody} (hkind : (getWin z (b.window % 16)).kind = 2)
    (hnew : z.peers.finals.contains (b.srcRank, b.pseq) = false) (hwait : z.peers.finalsWait = [])
    (hdue : b.pseq = landedOf z b.srcRank ∨ serialLt b.pseq (landedOf z b.srcRank) = true) :
    actLanded z b = (fetchAdd (finalTaken z b []) (getWin z (b.window % 16)).ctr 1 none).1 := by
  have hfirst : ¬ z.peers.finals.contains (b.srcRank, b.pseq) = true := by rw [hnew]; exact Bool.false_ne_true
  have hhit : (b.srcRank == b.srcRank && (b.pseq == landedOf z b.srcRank || serialLt b.pseq (landedOf z b.srcRank))) = true := by
    rcases hdue with h | h
    · rw [← h]; simp
    · rw [h]; simp
  have htake : actLanded z b =
      actFinals (finalTaken z b (z.peers.finalsWait ++ [(b.srcRank, b.window % 16, b.pseq)])) b.srcRank :=
    (if_pos hkind).trans (if_neg hfirst)
  rw [htake, hwait]
  exact actFinals_due (e := (b.srcRank, b.window % 16, b.pseq)) rfl hhit

theorem getCtr_reins {s v : State} (h : v.reins = s.reins) (n : Nat) : getCtr v n = getCtr s n := by
  unfold getCtr
  rw [h]

/-! ### Messages for another rank -/

theorem forwardPeer_next {v : State} {p q : Nat} {b : PeerBody} {body : List Byte} (hhops : b.hops < 8)
    (hnext : nextHop v b.dstRank = some q) :
    forwardPeer v p b body = sendSeq v (.peer q) q 0x20 (setBytes body 1 (leBytes 1 (b.hops + 1))) false none := by
  unfold forwardPeer
  rw [if_neg (Nat.not_le.mpr hhops), hnext]

theorem forwardPeer_dropped {v : State} {p : Nat} {b : PeerBody} {body : List Byte} (hhops : 8 ≤ b.hops) :
    forwardPeer v p b body = modCtr v (.peer p) fun c => { c with ipDrop := cap32 (c.ipDrop + 1) } := if_pos hhops

theorem findSess_port {s v : State} {q : Nat} (h : peerPortOf v q = peerPortOf s q) :
    findSess v (.peer q) q = findSess s (.peer q) q := congrArg PeerPort.session h

theorem peerQueued_of_solid {u : State} {p q typ : Nat} {y : Session} {body : List Byte} (hy : findSess u (.peer p) p = some y)
    (hs : Solid y q typ body) : PeerQueued u p typ body := by
  obtain ⟨⟨h, hh, hseq⟩, hall⟩ := hs
  obtain ⟨htyp, hbody⟩ := hall h hh hseq
  exact ⟨y, hy, h, hh, htyp, hbody⟩

/-! ### NACK -/

/-- The state without a write whose destination refused it. -/
def outEnded (v : State) (o : PeerOut) : State :=
  { v with peers := { v.peers with out := v.peers.out.filter fun x => x != o } }

theorem actPeerNack_source {v : State} {body : List Byte} {o : PeerOut} (hsrc : leAt body 8 4 / 256 % 256 = v.peers.rank)
    (hfind : (v.peers.out.find? fun o => o.dst == leAt body 8 4 % 256 && o.pseq == leAt body 0 4) = some o) :
    actPeerNack v body = addCause (outEnded v o) o.ref.wu (nackWhy (leAt body 5 1) (leAt body 16 8)).1
      (nackWhy (leAt body 5 1) (leAt body 16 8)).2 := by
  unfold actPeerNack
  dsimp only
  rw [if_neg (not_not_intro hsrc), hfind]
  rfl

theorem units_addCause (v : State) (wu reason res : Nat) :
    (addCause v wu reason res).disp.units = (addCauses v (fun x => x.wuId == wu) reason res).disp.units :=
  List.map_congr_left fun _ _ => if_congr beq_iff_eq.symm rfl rfl

theorem exec_peerNack_accepts {s v : State} {t p : Nat} {d : Datagram} {x : Session} {body : List Byte}
    (h : receive (atMt s t) (.peer p) d 0x61 true false = (v, .act x body)) :
    exec (.peerNack t p d) s = .next (sendAck (actPeerNack v body) (.peer p) x.num) := by
  show execPeerNack t p d s = _
  unfold execPeerNack
  rw [h]

/-- Settles O57: each message acts on the window, the outstanding writes or the next hop that it names. -/
theorem peerWrites : Obligations.PeerWrites := by
  refine ⟨?data, ?repeated, ?settles, ?final, ?forwards, ?drops, ?nack⟩
  case data =>
    intro s t p d se b x va pa leaf hmsg hx hkind hrank hin hlen hspan hdata hva hpage hxlate hframe
    subst hva
    refine answers_msg hmsg (by decide) rfl fun z n hz => ?_
    have hack := (ps_sendAck (actData z b) p n).toPeerMoves
    obtain ⟨hpending, hcells, hlanding, hdisp⟩ := actData_what (z := z) (b := b) (hx.trans (hz.win _).symm) hkind hrank hin hlen
      hspan hdata hpage ((dxl_of hz.hbm hz.disp hz.ctl _ _ _ _).trans hxlate) hframe
    refine ⟨?_, ?_, ?_, hack.rest.1.trans (hdisp.trans hz.disp)⟩
    · exact (congrArg Hbm.pending hack.rest.2.1).trans (hpending.trans (congrArg (fun h : Hbm => h.pending ++ _) hz.hbm))
    · exact (congrArg Hbm.data hack.rest.2.1).trans (hcells.trans (congrArg Hbm.data hz.hbm))
    · exact hack.peers.landing.trans (hlanding.trans (congrArg (· ++ _) hz.landing))
  case repeated =>
    intro s t p d se b hacc hb hkind hdst hseen
    subst hb
    obtain ⟨v, n, hmoves, -, harrive⟩ := arrive_eq hacc
    have hall : PeerMoves (atMt s t) (peerArrive (atMt s t) p d) := by
      rw [harrive, if_pos (show _ = (atMt s t).peers.rank from hdst), peerAct_repeated hkind ((seen_of hmoves.peers.pseqRx _ _).trans hseen)]
      exact hmoves.trans (ps_sendAck v p n).toPeerMoves
    exact ⟨_, rfl, hall.rest.2.1, hall.rest.1, hall.rest.2.2.1, hall.peers.rounds, hall.peers.landed⟩
  case settles =>
    intro s t p d se b hmsg hkind
    obtain ⟨hacc, hb, hpkind, hdst, -⟩ := hmsg
    obtain ⟨v, n, hmoves, -, harrive⟩ := arrive_eq hacc
    rw [← hb, if_pos hdst, show peerAct v b = actLanded v b from if_pos hpkind] at harrive
    obtain ⟨hout, hhbm, hdisp, hreins⟩ := actLanded_sender_what (z := v) (b := b) (by rw [hmoves.zs.win]; exact hkind)
    have hack := (ps_sendAck (actLanded v b) p n).toPeerMoves
    refine ⟨_, rfl, ?_⟩
    rw [harrive]
    refine ⟨hack.peers.out.trans (hout.trans ?_), hack.rest.2.1.trans (hhbm.trans hmoves.rest.2.1),
      hack.rest.1.trans (hdisp.trans hmoves.rest.1), hack.rest.2.2.1.trans (hreins.trans hmoves.rest.2.2.1)⟩
    exact congrArg (List.filter _) hmoves.peers.out
  case final =>
    intro s t p d se b hmsg hkind hnew hwait hdue
    obtain ⟨hacc, hb, hpkind, hdst, -⟩ := hmsg
    obtain ⟨v, n, hmoves, -, harrive⟩ := arrive_eq hacc
    have hlanded : landedOf v b.srcRank = landedOf s b.srcRank := by
      unfold landedOf
      rw [hmoves.peers.landed]
      rfl
    have hwin : getWin v (b.window % 16) = getWin s (b.window % 16) := hmoves.zs.win _
    rw [← hb, if_pos hdst, show peerAct v b = actLanded v b from if_pos hpkind,
      actLanded_final (by rw [hwin]; exact hkind) (by rw [hmoves.peers.finals]; exact hnew) (hmoves.peers.wait.trans hwait)
        (by rw [hlanded]; exact hdue), hwin] at harrive
    obtain ⟨hsame, hother⟩ := getCtr_fetch (finalTaken v b []) (getWin s (b.window % 16)).ctr
    obtain ⟨hhbm, hpeers, -⟩ := fetch_parts (finalTaken v b []) (getWin s (b.window % 16)).ctr 1 none
    have hctr : ∀ n, getCtr (finalTaken v b []) n = getCtr s n :=
      getCtr_reins hmoves.rest.2.2.1
    refine ⟨_, rfl, ?_⟩
    rw [harrive]
    generalize (fetchAdd (finalTaken v b []) (getWin s (b.window % 16)).ctr 1 none).1 = y at hsame hother hhbm hpeers ⊢
    have hack := (ps_sendAck y p n).toPeerMoves
    have hackCtr : ∀ m, getCtr (sendAck y (.peer p) n) m = getCtr y m :=
      getCtr_reins hack.rest.2.2.1
    refine ⟨?_, fun m hm => ?_, ?_, ?_, hack.rest.2.1.trans (hhbm.trans hmoves.rest.2.1)⟩
    · rw [hackCtr, hsame, hctr]
    · rw [hackCtr, hother m hm, hctr]
    · rw [hack.peers.wait, hpeers]
      rfl
    · rw [hack.peers.finals, hpeers]
      exact List.mem_append_right _ (List.mem_singleton.mpr rfl)
  case forwards =>
    intro s t p d se b q y hacc hb hdst hhops hnext hq hy hfresh
    obtain ⟨v, n, hmoves, hports, harrive⟩ := arrive_eq hacc
    rw [← hb, if_neg (show ¬ _ = (atMt s t).peers.rank from hdst), forwardPeer_next hhops ((hmoves.next _).trans hnext)] at harrive
    have hyv : findSess v (.peer q) q = some y := (findSess_port (hports q hq)).trans hy
    obtain ⟨z, hz, hsolid⟩ := pqueued_sendSeq hyv hfresh 0x20 (n := q)
      (setBytes (plainBody se d) 1 (leBytes 1 (b.hops + 1))) false none
    have hsend := pm_sendSeq v q q 0x20 (setBytes (plainBody se d) 1 (leBytes 1 (b.hops + 1))) false none
    refine ⟨_, rfl, ?_⟩
    rw [harrive]
    have hack := ps_sendAck (sendSeq v (.peer q) q 0x20 (setBytes (plainBody se d) 1 (leBytes 1 (b.hops + 1))) false none) p n
    obtain ⟨w, hw, hsame⟩ := hack.held q z hz
    have hall := (hmoves.trans hsend).trans hack.toPeerMoves
    exact ⟨peerQueued_of_solid hw (hsame.held _ _ _ hsolid), hall.rest.2.1, hall.rest.1⟩
  case drops =>
    intro s t p d se b hacc hb hdst hhops
    obtain ⟨v, x, hreceive, hmoves, hports⟩ := preceive hacc false
    have harrive : peerArrive (atMt s t) p d =
        sendAck (modCtr v (.peer p) fun c => { c with ipDrop := cap32 (c.ipDrop + 1) }) (.peer p) x.num := by
      unfold peerArrive
      rw [hreceive]
      dsimp only
      rw [← hb, hmoves.peers.rank, if_neg (show ¬ _ = (atMt s t).peers.rank from hdst), forwardPeer_dropped hhops]
    have hcount := ps_modCtr v p fun c => { c with ipDrop := cap32 (c.ipDrop + 1) }
    refine ⟨_, rfl, ?_⟩
    rw [harrive]
    have hack := ps_sendAck (modCtr v (.peer p) fun c => { c with ipDrop := cap32 (c.ipDrop + 1) }) p x.num
    have hall := (hmoves.trans hcount.toPeerMoves).trans hack.toPeerMoves
    refine ⟨?_, fun q hq => ?_, hall.rest.2.1, hall.rest.1⟩
    · rw [(ack_ctr _ p x.num p).1]
      show (peerPortOf (modPeerPort v p _) p).ctr.ipDrop = _
      rw [port_mod, if_pos rfl]
      exact congrArg (fun n => cap32 (n + 1)) (receive_ipDrop (s := atMt s t) hacc hreceive)
    · rw [(ack_ctr _ p x.num q).2 hq]
      show peerPortOf (modPeerPort v p _) q = _
      rw [port_mod, if_neg hq]
      exact hports q hq
  case nack =>
    intro s t p d se b o w hacc hb hsrc hfind hw
    subst hb hw
    obtain ⟨v, x, hreceive, hmoves, -⟩ := preceive hacc false
    have hexec := exec_peerNack_accepts hreceive
    rw [actPeerNack_source (hsrc.trans hmoves.peers.rank.symm) (by rw [hmoves.peers.out]; exact hfind)] at hexec
    refine ⟨_, hexec, ?_⟩
    have hack := (ps_sendAck (addCause (outEnded v o) o.ref.wu (nackWhy (leAt (plainBody se d) 5 1) (leAt (plainBody se d) 16 8)).1
      (nackWhy (leAt (plainBody se d) 5 1) (leAt (plainBody se d) 16 8)).2) p x.num).toPeerMoves
    refine ⟨?_, ?_, hack.rest.2.1.trans hmoves.rest.2.1⟩
    · refine marked_of (v := outEnded v o) (congrArg Dispatcher.units hmoves.rest.1) ?_ hack.rest.2.2.2.2.2.1
      exact (congrArg Dispatcher.units hack.rest.1).trans (units_addCause _ _ _ _)
    · exact hack.peers.out.trans (congrArg (List.filter fun y => y != o) hmoves.peers.out)

end Sys2Proof.PeerData
end

section
/-! SUPPORT. Reductions across modules: what LEAF, RESULT and ABORT do to a window's round, and a round open too long. -/

namespace Sys2Proof.PeerRounds

open Sys2Proof Sys2Proof.Machine Sys2Proof.Safety Sys2Proof.Laws

/-! ### A value that enters a round -/

/-- A value whose sibling has not come is kept by the owner of their parent. -/
theorem roundAdd_kept {n me k z : Nat} {r : Round} {v : RoundVal} (hroot : (v.lo, v.hi) ≠ (0, n))
    (hparent : treeParent 8 0 n v.lo v.hi = some (me, z)) (hnew : ∀ y ∈ r.vals, y.elem ≠ v.elem) :
    roundAdd n me (k + 1) r v = ({ r with vals := r.vals ++ [v] }, []) := by
  have hfirst : ¬ (r.vals.any fun x => x.elem == v.elem && x.lo == v.lo && x.hi == v.hi) = true := fun h => by
    obtain ⟨y, hy, hsame⟩ := List.any_eq_true.mp h
    exact hnew y hy (beq_iff_eq.mp (Bool.and_eq_true_iff.mp (Bool.and_eq_true_iff.mp hsame).1).1)
  have hinner : ¬ (v.lo = 0 ∧ v.hi = n) := fun ⟨hlo, hhi⟩ => hroot (Prod.ext hlo hhi)
  have halone : r.vals.find? (fun x => x.elem == v.elem &&
      (if v.lo = me then x.lo == v.hi && x.hi == z else x.lo == me && x.hi == v.lo)) = none :=
    List.find?_eq_none.mpr fun y hy hmate => hnew y hy (beq_iff_eq.mp (Bool.and_eq_true_iff.mp hmate).1)
  unfold roundAdd
  rw [if_neg hfirst, if_neg hinner, hparent]
  dsimp only
  rw [if_neg (not_not_intro rfl), halone]

/-- The round once a value of it has come. -/
def roundOpened (z : State) (w : Nat) (bad : Bool) : Round :=
  { getRound z w with
    first := some ((getRound z w).first.getD (now z))
    poisoned := (getRound z w).poisoned || bad }

/-- The round with one more value. -/
def roundKept (z : State) (w : Nat) (v : RoundVal) : Round :=
  { roundOpened z w ([v].any (·.bad)) with vals := (getRound z w).vals ++ [v] }

theorem roundFeed_kept {z : State} {w me y : Nat} {x : Window} {v : RoundVal}
    (hme : (winRanks x).findIdx? (· == z.peers.rank) = some me) (hroot : (v.lo, v.hi) ≠ (0, (winRanks x).length))
    (hparent : treeParent 8 0 (winRanks x).length v.lo v.hi = some (me, y))
    (hnew : ∀ e ∈ (getRound z w).vals, e.elem ≠ v.elem) : roundFeed z w x [v] = setRound z w (roundKept z w v) := by
  have hadd : roundAdd (winRanks x).length me 8 (roundOpened z w ([v].any (·.bad))) v =
      ({ roundOpened z w ([v].any (·.bad)) with vals := (getRound z w).vals ++ [v] }, []) :=
    roundAdd_kept (k := 7) hroot hparent hnew
  unfold roundFeed
  dsimp only
  rw [hme]
  dsimp only [Option.getD_some, List.foldl_cons, List.foldl_nil]
  show roundEmit (setRound z w (roundAdd (winRanks x).length me 8 (roundOpened z w ([v].any (·.bad))) v).1) w x
    (roundAdd (winRanks x).length me 8 (roundOpened z w ([v].any (·.bad))) v).1.gen
    ([] ++ (roundAdd (winRanks x).length me 8 (roundOpened z w ([v].any (·.bad))) v).2) = _
  rw [hadd]
  rfl

/-! ### LEAF -/

/-- The values of a LEAF message. -/
def leafVals (x : Window) (b : PeerBody) : List RoundVal :=
  (bodyElems b 8).map fun e => { lo := b.treeLo, hi := b.treeHi, elem := e.1, v := leafOf (x.etype == 14) e.2.1, bad := e.2.2 }

section
variable {z : State} {b : PeerBody} {w : Nat} {x : Window} (hw : w = b.window % 16) (hx : x = getWin z w) (hkind : x.kind = 4)
  (hrank : (winRanks x).contains b.srcRank = true)
include hw hx hkind hrank

theorem roundMember : ¬ ((getWin z (b.window % 16)).kind ≠ 4 ∨
    (winRanks (getWin z (b.window % 16))).contains b.srcRank = false) := by
  subst hw hx
  rintro (h | h)
  · exact h hkind
  · exact Bool.false_ne_true (h.symm.trans hrank)

theorem actLeaf_present (hgen : b.gen = (getRound z w).gen) : actLeaf z b = roundFeed z w x (leafVals x b) := by
  have hmember := roundMember hw hx hkind hrank
  subst hw hx
  exact (if_neg hmember).trans (if_pos hgen)

/-- The state that keeps early values for the next round. -/
def roundEarly (z : State) (w : Nat) (vs : List RoundVal) : State :=
  setRound z w { getRound z w with early := (getRound z w).early ++ vs }

theorem actLeaf_next (hgen : b.gen = ((getRound z w).gen + 1) % 2 ^ 32) (hother : b.gen ≠ (getRound z w).gen) :
    actLeaf z b = roundEarly z w (leafVals x b) := by
  have hmember := roundMember hw hx hkind hrank
  subst hw hx
  exact (if_neg hmember).trans <| (if_neg hother).trans (if_pos hgen)

/-! ### RESULT -/

/-- The state whose round knows whether a result was poisoned. -/
def roundMarked (z : State) (w : Nat) (bad : Bool) : State :=
  setRound z w { getRound z w with poisoned := (getRound z w).poisoned || bad }

theorem actResult_lands (hgen : b.gen = (getRound z w).gen) :
    actResult z b = vWrite (roundMarked z w (b.poison != [])) 4 1000
      (.result w b.gen (b.offset / 4) (b.data.length / 4)) x.job (winBase x + b.offset) (bodyBytes b) := by
  have hmember := roundMember hw hx hkind hrank
  subst hw hx
  exact (if_neg hmember).trans (if_neg (not_not_intro hgen))

end

/-! ### ABORT -/

theorem actAbortRound_present {z : State} {b : PeerBody} {w : Nat} {x : Window} (hw : w = b.window % 16) (hx : x = getWin z w)
    (hkind : x.kind = 4) (hgen : b.gen = (getRound z w).gen) :
    actAbortRound z b = abandonRound z w (nth b.srcRank (winRanks x) b.treeLo) false := by
  subst hw hx
  exact (if_neg (not_not_intro hkind)).trans (if_neg (not_not_intro hgen))

/-- The state in which a peer write has landed and no final LANDED waits. -/
def pseqLanded (y : State) (r n w : Nat) : State :=
  { y with peers := { y.peers with
      pseqLanded := tblMod [] y.peers.pseqLanded r fun l => addOnce l n
      landing := y.peers.landing.filter fun e => !(e == (r, n, w)) } }

theorem pseqLand_unawaited {y : State} {r n w : Nat} (hwait : y.peers.finalsWait = []) :
    pseqLand y r n w false = pseqLanded y r n w := finals_none (s := pseqLanded y r n w) hwait

theorem exec_roundTimeout_due {s : State} {t w m : Nat} (hfirst : (tblFind s.peers.rounds w).bind (·.first) = some m)
    (hdue : m + cfgPeerRedWait s ≤ max (now s) t) :
    exec (.roundTimeout t w) s = .next (abandonRound (atMt s t) w (missingRank s w) true) := by
  show execRoundTimeout t w s = _
  unfold execRoundTimeout
  dsimp only
  rw [show (tblFind (atMt s t).peers.rounds w).bind (·.first) = some m from hfirst]
  exact if_pos hdue

/-- What a message that acts on a round leaves of it after its own landing and acknowledgement. -/
theorem roundSame (y : State) (b : PeerBody) (p n : Nat) :
    FinalsSame y (sendAck (pseqLand y b.srcRank b.pseq (b.window % 16) false) (.peer p) n) :=
  (af_land y b.srcRank b.pseq (b.window % 16)).trans (af_ack _ p n)

/-- Settles O58: each message of a round acts on the round of its generation. -/
theorem peerReductions : Obligations.PeerReductions := by
  refine ⟨?leaf, ?early, ?result, ?abort, ?timeout⟩
  case leaf =>
    intro s t p d se b w x me y v hmsg hw hx hkind hrank hgen hme hvals hroot hparent hnew
    refine answers_msg hmsg (by decide) rfl fun z n hz => ?_
    have hround : getRound z w = getRound s w := hz.round w
    have hact : actLeaf z b = setRound z w (roundKept z w v) := by
      rw [actLeaf_present hw (hx.trans (hz.win w).symm) hkind hrank (by rw [hround]; exact hgen),
        show leafVals x b = [v] from hvals]
      exact roundFeed_kept (by rw [hz.rank]; exact hme) hroot hparent (by rw [hround]; exact hnew)
    have hsame := roundSame (actLeaf z b) b p n
    have hkept : getRound (sendAck (msgDo z b 1) (.peer p) n) w = roundKept z w v := by
      refine (hsame.round w).trans ?_
      rw [hact]
      exact round_set _ _ _
    refine ⟨?_, ?_, ?_⟩
    · rw [hkept, ← hround]
      rfl
    · rw [hkept]
      rfl
    · rw [show (sendAck (msgDo z b 1) (.peer p) n).hbm = (actLeaf z b).hbm from hsame.hbm, hact]
      exact hz.hbm
  case early =>
    intro s t p d se b w x hmsg hw hx hkind hrank hgen hother
    refine answers_msg hmsg (by decide) rfl fun z n hz => ?_
    have hround : getRound z w = getRound s w := hz.round w
    have hact : actLeaf z b = roundEarly z w (leafVals x b) :=
      actLeaf_next hw (hx.trans (hz.win w).symm) hkind hrank (by rw [hround]; exact hgen) (by rw [hround]; exact hother)
    have hsame := roundSame (actLeaf z b) b p n
    have hkept : getRound (sendAck (msgDo z b 1) (.peer p) n) w =
        { getRound z w with early := (getRound z w).early ++ leafVals x b } := by
      refine (hsame.round w).trans ?_
      rw [hact]
      exact round_set _ _ _
    refine ⟨?_, ?_, ?_⟩
    · rw [show (sendAck (msgDo z b 1) (.peer p) n).hbm = (actLeaf z b).hbm from hsame.hbm, hact]
      exact hz.hbm
    · rw [hkept, ← hround]
    · rw [hkept, ← hround]
      rfl
  case result =>
    intro s t p d se b w x va pa leaf hmsg hw hx hkind hrank hgen hdata hva hpage hxlate hframe
    subst hva
    refine answers_msg hmsg (by decide) rfl fun z n hz => ?_
    have hround : getRound z w = getRound s w := hz.round w
    have hbytes := bodyBytes_length b
    have hsome : bodyBytes b ≠ [] := by
      rw [← List.length_pos_iff, hbytes]
      exact List.length_pos_iff.mpr hdata
    have htr : Machine.translate (roundMarked z w (b.poison != [])) 4 x.job (winBase x + b.offset) = .ok pa leaf :=
      (xl_of rfl rfl rfl _ _ _).trans ((hz.xl _ _ _).trans hxlate)
    have hact : actResult z b = _ := actResult_lands hw (hx.trans (hz.win w).symm) hkind hrank (by rw [hround]; exact hgen)
    rw [vWrite_one hsome (by rw [hbytes]; exact hpage) htr (by rw [hbytes]; exact hframe)] at hact
    have hsame := roundSame (actResult z b) b p n
    have hkept : getRound (sendAck (msgDo z b 2) (.peer p) n) w =
        { getRound z w with poisoned := (getRound z w).poisoned || b.poison != [] } := by
      refine (hsame.round w).trans ?_
      rw [hact]
      exact round_set _ _ _
    rw [show (sendAck (msgDo z b 2) (.peer p) n).hbm = (actResult z b).hbm from hsame.hbm, hkept, hact, ← hround]
    refine ⟨?_, show z.hbm.data = s.hbm.data from congrArg Hbm.data hz.hbm, rfl, rfl⟩
    exact congrArg (fun h : Hbm => h.pending ++ _) hz.hbm
  case abort =>
    intro s t p d se b w x hmsg hw hx hkind hgen hwait
    refine answers_msg hmsg (by decide) rfl fun z n hz => ?_
    have hround : getRound z w = getRound s w := hz.round w
    have hact : actAbortRound z b = abandonRound z w (nth b.srcRank (winRanks x) b.treeLo) false :=
      actAbortRound_present hw (hx.trans (hz.win w).symm) hkind (by rw [hround]; exact hgen)
    obtain ⟨hdisp, hnew, hhbm, hnow, hnone⟩ := abandon_what z w (nth b.srcRank (winRanks x) b.treeLo) false
    have hdone : sendAck (msgDo z b 4) (.peer p) n =
        sendAck (pseqLanded (abandonRound z w (nth b.srcRank (winRanks x) b.treeLo) false) b.srcRank b.pseq (b.window % 16))
          (.peer p) n := by
      rw [← pseqLand_unawaited (hnone.trans (hz.wait.trans hwait)), ← hact]
      rfl
    rw [hdone]
    generalize abandonRound z w (nth b.srcRank (winRanks x) b.treeLo) false = y at hdisp hnew hhbm hnow
    have hack := (ps_sendAck (pseqLanded y b.srcRank b.pseq (b.window % 16)) p n).toPeerMoves
    refine ⟨?_, ?_, hack.rest.2.1.trans (hhbm.trans hz.hbm)⟩
    · refine marked_of (v := z) (congrArg Dispatcher.units hz.disp) ?_ (hack.rest.2.2.2.2.2.1.trans hnow)
      rw [← hround]
      exact congrArg Dispatcher.units (hack.rest.1.trans hdisp)
    · rw [hgen, ← hround]
      exact (hack.zs.round w).trans hnew
  case timeout =>
    intro s t w m hfirst hdue
    obtain ⟨hdisp, hnew, hhbm, hnow, -⟩ := abandon_what (atMt s t) w (missingRank s w) true
    exact ⟨_, exec_roundTimeout_due hfirst hdue, marked_of (v := atMt s t) rfl (congrArg Dispatcher.units hdisp) hnow, hnew, hhbm⟩

end Sys2Proof.PeerRounds
end

section
/-! SUPPORT. Peer ports: training, failed lanes, loss, pings and discarded frames. -/

namespace Sys2Proof.PeerLinks

open Sys2Proof Sys2Proof.Machine Sys2Proof.Safety Sys2Proof.Laws

/-! ### The HELLO of a linked port -/

/-- Whether a port sends its HELLO. -/
def saysHello (s : State) (p : Nat) : Bool :=
  isReady s && (peerPortOf s p).state == 3 && (portRanks s p).any fun d => decide (s.peers.rank < d)

/-- The state with the fresh nonce of a HELLO drawn and kept. -/
def helloDrawn (s : State) (p : Nat) : State :=
  modPeerPort (freeBytes s 32).1 p fun q =>
    { q with nonceOut := (freeBytes s 32).2.map (·.1), parts := [], opening := none }

/-- The body of a HELLO. -/
def helloBody (s : State) : List Byte :=
  leBytes 1 0 ++ leBytes 1 s.peers.rank ++ leBytes 1 0 ++ leBytes 1 0 ++ (freeBytes s 32).2.map (·.1)

theorem startHello_sends {s : State} {p : Nat} (h : saysHello s p = true) :
    startHello s p = sendOpen (helloDrawn s p) (.peer p) 0x70 (helloBody s) := if_pos h

theorem startHello_silent {s : State} {p : Nat} (h : ¬ saysHello s p = true) : startHello s p = s := if_neg h

theorem helloDrawn_other {s : State} {p q : Nat} (hq : q ≠ p) : peerPortOf (helloDrawn s p) q = peerPortOf s q := by
  unfold helloDrawn
  rw [port_mod, if_neg hq]
  rfl

theorem helloDrawn_state (s : State) (p : Nat) : (peerPortOf (helloDrawn s p) p).state = (peerPortOf s p).state := by
  unfold helloDrawn
  rw [port_mod, if_pos rfl]
  rfl

theorem linkUp_peer {s : State} {p : Nat} (hpower : s.ctl.powered = true) (hlo : 3 ≤ (peerPortOf s p).state)
    (hhi : (peerPortOf s p).state ≤ 5) : linkUp s (.peer p) = true := by
  show (s.ctl.powered && decide (3 ≤ (peerPortOf s p).state) && decide ((peerPortOf s p).state ≤ 5)) = true
  rw [hpower, decide_eq_true hlo, decide_eq_true hhi]
  rfl

/-- What a HELLO leaves, sent or not. -/
structure Greeted (s u : State) (p : Nat) : Prop where
  now : now u = now s
  state : (peerPortOf u p).state = (peerPortOf s p).state
  spareFor : (peerPortOf u p).spareFor = (peerPortOf s p).spareFor
  other : ∀ q, q ≠ p → peerPortOf u q = peerPortOf s q
  sent : ∃ l, u.host.sent = l ++ s.host.sent

theorem helloDrawn_link {s : State} {p : Nat} (hpower : s.ctl.powered = true) (h : saysHello s p = true) :
    linkUp (helloDrawn s p) (.peer p) = true := by
  have hstate : (peerPortOf s p).state = 3 :=
    beq_iff_eq.mp (Bool.and_eq_true_iff.mp (Bool.and_eq_true_iff.mp h).1).2
  exact linkUp_peer hpower (by rw [helloDrawn_state, hstate]) (by rw [helloDrawn_state, hstate]; decide)

theorem greeted_startHello {s : State} {p : Nat} (hpower : s.ctl.powered = true) : Greeted s (startHello s p) p := by
  obtain ⟨hports, -, hnow⟩ := hello_what s p
  obtain ⟨a, b, c, d, hport⟩ := hports p
  by_cases h : saysHello s p = true
  · obtain ⟨-, hother, -, ⟨x, hx⟩, -⟩ := sendOpen_what _ p 0x70 (helloBody s) (helloDrawn_link hpower h)
    refine ⟨hnow, by rw [hport], by rw [hport], fun q hq => ?_, [x], ?_⟩
    · rw [startHello_sends h, hother q hq, helloDrawn_other hq]
    · rw [startHello_sends h, hx]
      rfl
  · rw [startHello_silent h]
    exact ⟨rfl, rfl, rfl, fun _ _ => rfl, [], rfl⟩

theorem startHello_counts {s : State} {p : Nat} (hpower : s.ctl.powered = true) (h : saysHello s p = true) :
    (startHello s p).host.sent.length = s.host.sent.length + 1 ∧ (startHello s p).free = s.free + 32 := by
  obtain ⟨hlen, -, -, -, -, hfree, -⟩ := sendOpen_what (helloDrawn s p) p 0x70 (helloBody s) (helloDrawn_link hpower h)
  rw [startHello_sends h]
  exact ⟨hlen, hfree⟩

/-! ### Training -/

/-- The state whose port has sent the pattern and taken its answer. -/
def patterned (s : State) (p : Nat) (pattern : Bool) : State :=
  modPeerPort (modHost s fun h => { h with sent := .peerPattern (now s) p :: h.sent }) p
    fun q => { q with state := if pattern then 3 else 2 }

theorem exec_peerLinkTrain {s : State} {t p : Nat} {pattern : Bool} (hpower : s.ctl.powered = true) (hp : p < 4)
    (hgroup : cfgGroupId s ≠ 0) (hstate : (peerPortOf s p).state ≤ 2) :
    exec (.peerLinkTrain t p pattern) s = .next (startHello (patterned (atMt s t) p pattern) p) := by
  refine if_pos ?_
  rw [show (atMt s t).ctl.powered = true from hpower, decide_eq_true hp,
    show (cfgGroupId (atMt s t) != 0) = true from bne_iff_ne.mpr hgroup,
    decide_eq_true (show (peerPortOf (atMt s t) p).state ≤ 2 from hstate)]
  rfl

theorem patterned_port (s : State) (p : Nat) (pattern : Bool) :
    peerPortOf (patterned s p pattern) p = { peerPortOf s p with state := if pattern then 3 else 2 } := by
  unfold patterned
  rw [port_mod, if_pos rfl]
  rfl

theorem patterned_other {s : State} {p q : Nat} (pattern : Bool) (hq : q ≠ p) :
    peerPortOf (patterned s p pattern) q = peerPortOf s q := by
  unfold patterned
  rw [port_mod, if_neg hq]
  rfl

theorem saysHello_patterned {s : State} {p : Nat} {pattern : Bool}
    (h : (isReady s && pattern && (portRanks s p).any fun d => decide (s.peers.rank < d)) = true) :
    saysHello (patterned s p pattern) p = true := by
  obtain ⟨h1, hranks⟩ := Bool.and_eq_true_iff.mp h
  obtain ⟨hready, hpattern⟩ := Bool.and_eq_true_iff.mp h1
  unfold saysHello
  rw [patterned_port, hpattern, show isReady (patterned s p true) = true from hready]
  exact hranks

/-! ### Lanes -/

section
variable {s : State} {t p lane : Nat} (hpower : s.ctl.powered = true) (hp : p < 4) (hstate : 3 ≤ (peerPortOf s p).state)
include hpower hp hstate

theorem laneUsed (hlane : lane ≤ 8) (hother : lane ≠ (peerPortOf s p).spareFor) :
    ¬ (!(atMt s t).ctl.powered || decide (4 ≤ p) || decide (8 < lane) || decide ((peerPortOf (atMt s t) p).state < 3) ||
      (lane == (peerPortOf (atMt s t) p).spareFor)) = true := by
  rw [show (atMt s t).ctl.powered = true from hpower, decide_eq_false (Nat.not_le.mpr hp),
    decide_eq_false (Nat.not_lt.mpr hlane),
    decide_eq_false (show ¬ (peerPortOf (atMt s t) p).state < 3 from Nat.not_lt.mpr hstate),
    show (lane == (peerPortOf (atMt s t) p).spareFor) = false from beq_eq_false_iff_ne.mpr hother]
  exact Bool.false_ne_true

/-- The state with a failed lane reported. -/
def laneFault (s : State) (p lane : Nat) : State := postFault s 0x0E (farRes s p) lane

omit hpower hp hstate in
theorem laneFault_port (s : State) (p lane : Nat) : peerPortOf (laneFault s p lane) p = peerPortOf s p := by
  unfold peerPortOf laneFault
  rw [postFault_peers]

theorem exec_peerLaneFail_spared (hlane : lane < 8) (hfree : (peerPortOf s p).spareFor = 0xF)
    (hsound : (peerPortOf s p).spareFailed = false) :
    exec (.peerLaneFail t p lane) s =
      .next (modPeerPort (laneFault (atMt s t) p lane) p fun q => { q with spareFor := lane, state := 6 }) := by
  have hnot : ¬ (lane = 8 ∧ (peerPortOf s p).spareFor = 0xF) := by omega
  exact (if_neg (laneUsed hpower hp hstate (by omega) (by omega))).trans <|
    (if_neg hnot).trans (if_pos ⟨hlane, hfree, hsound⟩)

theorem exec_peerLaneFail_spare (hfree : (peerPortOf s p).spareFor = 0xF) :
    exec (.peerLaneFail t p 8) s =
      .next (modPeerPort (laneFault (atMt s t) p 8) p fun q => { q with spareFailed := true }) :=
  (if_neg (laneUsed hpower hp hstate (by omega) (by omega))).trans (if_pos ⟨rfl, hfree⟩)

theorem exec_peerLaneFail_second (hlane : lane < 8) (hother : lane ≠ (peerPortOf s p).spareFor)
    (htaken : (peerPortOf s p).spareFor ≠ 0xF) :
    exec (.peerLaneFail t p lane) s = .next (losePeer (laneFault (atMt s t) p lane) p) := by
  have hnot : ¬ (lane = 8 ∧ (peerPortOf s p).spareFor = 0xF) := fun h => htaken h.2
  have hnone : ¬ (lane < 8 ∧ (peerPortOf s p).spareFor = 0xF ∧ (peerPortOf s p).spareFailed = false) :=
    fun h => htaken h.2.1
  have hnot8 : ¬ lane = 8 := by omega
  refine (if_neg (laneUsed hpower hp hstate (by omega) hother)).trans <| (if_neg hnot).trans <| (if_neg hnone).trans ?_
  exact congrArg (fun v => Host.Outcome.next (losePeer v p)) (if_neg hnot8)

omit hpower hp hstate in
theorem posted_laneFault (f : PeerPort → PeerPort) (hroom : Room s 1) :
    Posted s (modPeerPort (laneFault s p lane) p f) [{ code := 0x0001, mech := 0x0E, res := farRes s p, params := [lane] }] :=
  posted_congr rfl rfl (posted_fault (n := 0) hroom (posted_nil rfl)).1

end

/-! ### Retraining -/

/-- The state of a port whose retraining has ended, with its event. -/
def retrained (s : State) (p : Nat) : State :=
  post (modPeerPort s p fun q => { q with state := if q.session.isSome then 5 else 3 })
    { code := 0x0041, params := [p, (peerPortOf s p).spareFor] }

theorem exec_peerRetrainDone {s : State} {t p : Nat} (hstate : (peerPortOf s p).state = 6) :
    exec (.peerRetrainDone t p) s = .next (if (peerPortOf s p).session.isSome
      then flushHeld (retrained (atMt s t) p) (.peer p) p 4096 else startHello (retrained (atMt s t) p) p) :=
  if_pos hstate

theorem retrained_port (s : State) (p : Nat) : peerPortOf (retrained s p) p =
    { peerPortOf s p with state := if (peerPortOf s p).session.isSome then 5 else 3 } := by
  have hpeers : (retrained s p).peers =
      (modPeerPort s p fun q => { q with state := if q.session.isSome then 5 else 3 }).peers := post_peers _ _
  unfold peerPortOf
  rw [hpeers]
  exact (port_mod s p p _).trans (if_pos rfl)

/-- What follows a retraining keeps: the port's state, its lanes, the events and the time. -/
structure Resumed (s u : State) (p : Nat) : Prop where
  state : (peerPortOf u p).state = (peerPortOf s p).state
  spareFor : (peerPortOf u p).spareFor = (peerPortOf s p).spareFor
  pdk : u.pdk = s.pdk
  now : now u = now s

theorem resumed_flushHeld (s : State) (p n : Nat) : Resumed s (flushHeld s (.peer p) p n) p := by
  have hmoves := (ps_flushHeld s p p n).toPeerMoves
  obtain ⟨-, -, -, -, -, hnow, hpdk⟩ := hmoves.rest
  have hport := (hmoves.port p).eq
  exact ⟨by rw [hport], by rw [hport], hpdk, hnow⟩

theorem resumed_startHello (s : State) (p : Nat) : Resumed s (startHello s p) p := by
  obtain ⟨hports, hpdk, hnow⟩ := hello_what s p
  obtain ⟨a, b, c, d, hport⟩ := hports p
  exact ⟨by rw [hport], by rw [hport], hpdk, hnow⟩

theorem retrain_what {s u : State} {p : Nat} (hroom : Room s 1) (hu : Resumed (retrained s p) u p) :
    (peerPortOf u p).state = (if (peerPortOf s p).session.isSome then 5 else 3) ∧
      (peerPortOf u p).spareFor = (peerPortOf s p).spareFor ∧
      Posted s u [{ code := 0x0041, params := [p, (peerPortOf s p).spareFor] }] := by
  refine ⟨?_, ?_, posted_congr hu.pdk hu.now (posted_one rfl hroom)⟩
  · rw [hu.state, retrained_port]
  · rw [hu.spareFor, retrained_port]

theorem exec_peerLinkLost {s : State} {t p : Nat} {why : PeerLoss} (hp : p < 4) (hloss : lossStands (atMt s t) p why = true) :
    exec (.peerLinkLost t p why) s = .next (losePeer (atMt s t) p) :=
  if_pos (by rw [hloss, decide_eq_true hp]; rfl)

/-! ### Pings -/

/-- The state in which a port's ping is due to leave. -/
def pinging (s : State) (p : Nat) : State :=
  modPeerPort (freeBytes s 8).1 p fun q => { q with lastPing := now s }

theorem pinging_port (s : State) (p : Nat) : peerPortOf (pinging s p) p = { peerPortOf s p with lastPing := now s } := by
  unfold pinging
  rw [port_mod, if_pos rfl]
  rfl

theorem exec_peerPingTimer {s : State} {t p : Nat} {se : Session} (hstate : (peerPortOf s p).state = 5)
    (hse : (peerPortOf s p).session = some se) (hheld : se.held = [])
    (hdue : (peerPortOf s p).lastPing + 250000 ≤ max (now s) t) :
    exec (.peerPingTimer t p) s =
      .next (sendPlain (pinging (atMt s t) p) (.peer p) p 0x7F ((freeBytes (atMt s t) 8).2.map (·.1)) false) := by
  refine if_pos ?_
  rw [show (peerPortOf (atMt s t) p).state = 5 from hstate, show (peerPortOf (atMt s t) p).session = some se from hse,
    decide_eq_true (show (peerPortOf (atMt s t) p).lastPing + 250000 ≤ now (atMt s t) from hdue), Option.any_some, hheld]
  rfl

/-- What an unsequenced message of a peer session leaves. -/
theorem sendPlain_what {z : State} {p typ : Nat} {x : Session} {body : List Byte} (hlink : linkUp z (.peer p) = true)
    (hx : findSess z (.peer p) p = some x) :
    (peerPortOf (sendPlain z (.peer p) p typ body false) p).lastPing = (peerPortOf z p).lastPing ∧
      (sendPlain z (.peer p) p typ body false).free = z.free ∧ now (sendPlain z (.peer p) p typ body false) = now z ∧
      ∃ low mt y b tag, (sendPlain z (.peer p) p typ body false).host.sent =
        .imp (now z) (.peer p) x.num x.gen typ x.enc false false 0 low mt y b tag :: z.host.sent := by
  have hmoves := (ps_sendPlain z p p typ body false).toPeerMoves
  have hport := (hmoves.port p).eq
  refine ⟨by rw [hport], by rw [hmoves.eq], hmoves.rest.2.2.2.2.2.1, ?_⟩
  unfold sendPlain
  rw [hx]
  dsimp only
  rw [if_pos hlink]
  exact ⟨_, _, _, _, _, rfl⟩

/-! ### Discarded frames -/

theorem peerVerdict_bad {s : State} {f : FrameInfo} {d : Nat} (h : peerVerdict s f d ≠ 0) :
    peerVerdict s f d = 1 ∨ peerVerdict s f d = 2 ∨ peerVerdict s f d = 3 := by
  unfold peerVerdict at h ⊢
  split
  · exact .inl rfl
  · split
    · exact .inr (.inl rfl)
    · split
      · exact .inr (.inr rfl)
      · rename_i h1 h2 h3
        rw [if_neg h1, if_neg h2, if_neg h3] at h
        exact absurd rfl h

/-- A port's counters once a frame with this first fault was discarded. -/
def frameDropped (verdict : Nat) (c : PortCounters) : PortCounters :=
  match verdict with
  | 1 => { c with dropLen := cap32 (c.dropLen + 1) }
  | 2 => { c with dropFcs := cap32 (c.dropFcs + 1) }
  | _ => { c with dropAddr := cap32 (c.dropAddr + 1) }

theorem exec_peerFrameDiscard {s : State} {t p d : Nat} {f : FrameInfo} (hp : p < 4) (hlink : linkUp s (.peer p) = true)
    (hbad : peerVerdict s f d ≠ 0) :
    exec (.peerFrameDiscard t p f d) s = .next (modCtr (atMt s t) (.peer p) (frameDropped (peerVerdict s f d))) := by
  have hopen : ¬ (decide (4 ≤ p) || !linkUp (atMt s t) (.peer p)) = true := by
    rw [decide_eq_false (Nat.not_le.mpr hp), show linkUp (atMt s t) (.peer p) = true from hlink]
    exact Bool.false_ne_true
  refine (if_neg hopen).trans ?_
  rcases peerVerdict_bad hbad with h | h | h <;>
    rw [show peerVerdict (atMt s t) f d = _ from h, h] <;> rfl

/-- Settles O59: each event of a port acts on that port's record. -/
theorem peerPorts : Obligations.PeerPorts := by
  refine ⟨?train, ?lane, ?second, ?retrain, ?lost, ?ping, ?discard⟩
  case train =>
    intro s t p pattern hpower hp hgroup hstate
    have hgreet := greeted_startHello (s := patterned (atMt s t) p pattern) (p := p) hpower
    refine ⟨_, exec_peerLinkTrain hpower hp hgroup hstate, ?_, ?_, fun q hq => ?_, fun h => ?_⟩
    · rw [hgreet.state, patterned_port]
    · obtain ⟨l, hl⟩ := hgreet.sent
      rw [hl, hgreet.now]
      exact List.mem_append_right _ (List.mem_cons_self ..)
    · rw [hgreet.other q hq, patterned_other pattern hq]
      rfl
    · exact startHello_counts (s := patterned (atMt s t) p pattern) hpower (saysHello_patterned (s := atMt s t) h)
  case lane =>
    intro s t p lane hpower hp hstate hfree hsound hroom
    refine ⟨fun hlane => ?_, ?_⟩
    · refine ⟨_, exec_peerLaneFail_spared hpower hp hstate hlane hfree hsound, ?_, posted_laneFault (s := atMt s t) _ hroom⟩
      rw [port_mod, if_pos rfl, laneFault_port]
      rfl
    · refine ⟨_, exec_peerLaneFail_spare hpower hp hstate hfree, ?_, posted_laneFault (s := atMt s t) _ hroom⟩
      rw [port_mod, if_pos rfl, laneFault_port]
      rfl
  case second =>
    intro s t p lane hpower hp hstate hlane hother htaken
    exact ⟨_, exec_peerLaneFail_second hpower hp hstate hlane hother htaken, lose_port _ p⟩
  case retrain =>
    intro s t p hstate hroom
    refine ⟨_, exec_peerRetrainDone hstate, ?_⟩
    refine retrain_what (s := atMt s t) hroom ?_
    split
    · exact resumed_flushHeld _ p 4096
    · exact resumed_startHello _ p
  case lost =>
    intro s t p why hp hloss
    exact ⟨_, exec_peerLinkLost hp hloss, lose_port _ p⟩
  case ping =>
    intro s t p se hstate hse hheld hdue hpower
    have hport := pinging_port (atMt s t) p
    have hlink : linkUp (pinging (atMt s t) p) (.peer p) = true :=
      linkUp_peer hpower (by rw [hport]; exact Nat.le_of_lt_succ (by rw [show (peerPortOf (atMt s t) p).state = 5 from hstate]; decide))
        (by rw [hport]; exact Nat.le_of_eq hstate)
    have hfind : findSess (pinging (atMt s t) p) (.peer p) p = some se := by
      show (peerPortOf (pinging (atMt s t) p) p).session = some se
      rw [hport]
      exact hse
    obtain ⟨hping, hfree, hnow, hsent⟩ := sendPlain_what (typ := 0x7F) (body := (freeBytes (atMt s t) 8).2.map (·.1)) hlink hfind
    refine ⟨_, exec_peerPingTimer hstate hse hheld hdue, ?_, hfree, ?_⟩
    · rw [hping, hnow, hport]
      rfl
    · rw [hnow]
      exact hsent
  case discard =>
    intro s t p f d hp hlink hbad
    refine ⟨_, exec_peerFrameDiscard hp hlink hbad, ?_, ?_⟩
    · show (peerPortOf (modPeerPort (atMt s t) p _) p).ctr = _
      rw [port_mod, if_pos rfl]
      rfl
    · show (peerPortOf (modPeerPort (atMt s t) p _) p).session = _
      rw [port_mod, if_pos rfl]
      rfl

end Sys2Proof.PeerLinks
end

section
/-! SUPPORT. Peer sessions: the two messages of the key exchange on a port, and what closes its session. -/

namespace Sys2Proof.PeerKeys

open Sys2Proof Sys2Proof.Machine Sys2Proof.Safety Sys2Proof.Laws

/-! ### A datagram that a port has counted -/

/-- The state of a port that has counted a datagram. -/
def heard (s : State) (t p : Nat) : State := countRx (atMt s t) (.peer p)

theorem heard_port (s : State) (t p : Nat) : ∃ c, peerPortOf (heard s t p) p = { peerPortOf s p with ctr := c } :=
  rx_port (atMt s t) p

theorem heard_link {s : State} {t p : Nat} (hlink : linkUp s (.peer p) = true) : linkUp (heard s t p) (.peer p) = true := by
  obtain ⟨c, hport⟩ := heard_port s t p
  exact linkUp_port hlink rfl (by rw [hport])

section
variable {s : State} {t p : Nat} {d : Datagram} {nonce rnd : List Byte} (hp : p < 4) (hlink : linkUp s (.peer p) = true)
include hp hlink

theorem portOpen : ¬ (decide (4 ≤ p) || !linkUp (atMt s t) (.peer p)) = true := by
  rw [decide_eq_false (Nat.not_le.mpr hp), show linkUp (atMt s t) (.peer p) = true from hlink]
  exact Bool.false_ne_true

theorem exec_peerKeyInit_open (hsess : d.session = 0xFF) :
    exec (.peerKeyInit t p d nonce rnd) s = .next (peerInit (atMt s t) p d nonce) :=
  (if_neg (portOpen hp hlink)).trans (if_pos hsess)

theorem exec_peerKeyInit_session (hsess : d.session ≠ 0xFF) :
    exec (.peerKeyInit t p d nonce rnd) s = .next (peerClose (atMt s t) p d) :=
  (if_neg (portOpen hp hlink)).trans (if_neg hsess)

theorem exec_peerKeyReply_open (hsess : d.session = 0xFF) :
    exec (.peerKeyReply t p d nonce rnd) s = .next (replyOpen (atMt s t) p d rnd) :=
  (if_neg (portOpen hp hlink)).trans (if_pos hsess)

theorem exec_peerKeyReply_session (hsess : d.session ≠ 0xFF) :
    exec (.peerKeyReply t p d nonce rnd) s = .next (replyFinal (atMt s t) p d) :=
  (if_neg (portOpen hp hlink)).trans (if_neg hsess)

end

/-! ### HELLO -/

section
variable {s : State} {t p : Nat} {d : Datagram} {nonce : List Byte} (hcheck : openCheck (atMt s t) (.peer p) d 0x70 = 0)
  (hlower : leAt d.body 1 1 < s.peers.rank) (hready : isReady s = true)
include hcheck hlower hready

theorem peerInit_hello (hok : peerInitOk d 0 36 = true) : peerInit (atMt s t) p d nonce = peerHello (heard s t p) p d nonce := by
  have hchecked : ¬ openCheck (heard s t p) (.peer p) d 0x70 ≠ 0 := not_not_intro (rx_open hcheck)
  have hrun : ¬ (!isReady (heard s t p)) = true := by
    rw [show isReady (heard s t p) = true from hready]
    exact Bool.false_ne_true
  exact (if_neg hchecked).trans <| (if_neg (Nat.not_le.mpr hlower)).trans <| (if_neg hrun).trans (if_pos hok)

theorem peerInit_encap (hok : peerInitOk d 1 6422 = true) : peerInit (atMt s t) p d nonce = peerEncap (heard s t p) p d := by
  have hchecked : ¬ openCheck (heard s t p) (.peer p) d 0x70 ≠ 0 := not_not_intro (rx_open hcheck)
  have hrun : ¬ (!isReady (heard s t p)) = true := by
    rw [show isReady (heard s t p) = true from hready]
    exact Bool.false_ne_true
  have hop : (leAt d.body 0 1 == 1) = true := by
    simp only [peerInitOk, Bool.and_eq_true] at hok
    exact hok.1.1.2
  have hnot : ¬ peerInitOk d 0 36 = true := by
    unfold peerInitOk
    rw [beq_iff_eq.mp hop]
    simp
  exact (if_neg hchecked).trans <| (if_neg (Nat.not_le.mpr hlower)).trans <| (if_neg hrun).trans <|
    (if_neg hnot).trans (if_pos hok)

end

/-- The state of a port that has answered with a fresh nonce. -/
def nonceGiven (z : State) (p : Nat) (nonce : List Byte) : State :=
  modPeerPort z p fun q => { q with nonces := (nonce, now z) :: (freshNonces (now z) q.nonces).take 255 }

theorem peerHello_answers {z : State} {p : Nat} {d : Datagram} {nonce : List Byte} (hsize : leAt d.body 1 1 < z.peers.size)
    (hkey : (rankDigest z (leAt d.body 1 1)).isSome = true) :
    peerHello z p d nonce = sendHelloParts (nonceGiven z p nonce) (.peer p) nonce := by
  refine if_neg ?_
  rintro (h | h)
  · omega
  · rw [Option.isNone_iff_eq_none] at h
    rw [h] at hkey
    exact Bool.false_ne_true hkey

/-- What a HELLO's answer leaves. -/
theorem helloAnswered_what {z : State} {p : Nat} {nonce : List Byte} (hlink : linkUp z (.peer p) = true) :
    (peerPortOf (sendHelloParts (nonceGiven z p nonce) (.peer p) nonce) p).nonces =
        (nonce, now z) :: (freshNonces (now z) (peerPortOf z p).nonces).take 255 ∧
      (peerPortOf (sendHelloParts (nonceGiven z p nonce) (.peer p) nonce) p).session = (peerPortOf z p).session ∧
      (sendHelloParts (nonceGiven z p nonce) (.peer p) nonce).host.sent.length =
        z.host.sent.length + max 1 (ceilDiv (bundleBytes z).length 8192) ∧
      now (sendHelloParts (nonceGiven z p nonce) (.peer p) nonce) = now z := by
  have hgiven : peerPortOf (nonceGiven z p nonce) p = { peerPortOf z p with
      nonces := (nonce, now z) :: (freshNonces (now z) (peerPortOf z p).nonces).take 255 } :=
    (port_mod z p p _).trans (if_pos rfl)
  have hup : linkUp (nonceGiven z p nonce) (.peer p) = true := linkUp_port hlink rfl (by rw [hgiven])
  obtain ⟨hlen, hports, hnow, -⟩ := sendOpens_what p 0x71
    (helloParts nonce (bundleBytes z) 0 0 (max 1 (ceilDiv (bundleBytes z).length 8192))
      (max 1 (ceilDiv (bundleBytes z).length 8192))) (nonceGiven z p nonce) hup
  obtain ⟨c, hport⟩ := hports p
  rw [helloParts_length] at hlen
  have hanswered : peerPortOf (sendHelloParts (nonceGiven z p nonce) (.peer p) nonce) p =
      { peerPortOf (nonceGiven z p nonce) p with ctr := c } := hport
  refine ⟨?_, ?_, hlen, hnow⟩
  · rw [hanswered, hgiven]
  · rw [hanswered, hgiven]

/-! ### A port in MISMATCH -/

theorem mismatch_port (y : State) (p : Nat) : peerPortOf (mismatch y p) p =
    { peerPortOf y p with
      state := if (peerPortOf y p).session.isNone then 4 else (peerPortOf y p).state
      opening := none } := (port_mod y p p _).trans (if_pos rfl)

/-- A refusal before the session takes no generation and leaves the port as it was but for its counters. -/
theorem refusal_what {y : State} {p : Nat} (hlink : linkUp y (.peer p) = true) (typ : Nat) (body : List Byte) :
    (sendOpen y (.peer p) typ body).host.genCount = y.host.genCount ∧
      ∃ c, peerPortOf (sendOpen y (.peer p) typ body) p = { peerPortOf y p with ctr := c } := by
  obtain ⟨-, -, hports, -⟩ := sendOpen_what y p typ body hlink
  have heq := (ps_sendOpen y p typ body).toPeerMoves.eq
  exact ⟨by rw [heq], hports p⟩

/-! ### ENCAP -/

/-- The identity key that an ENCAP names. -/
def encapPub (b : List Byte) : List Byte := (b.drop 4465).take 1952

/-- The nonce of this module that an ENCAP names. -/
def encapNonce (b : List Byte) : List Byte := (b.drop 36).take 32

/-- The transcript of an ENCAP. -/
def encapTranscript (z : State) (b : List Byte) : List Byte :=
  peerTranscript ((b.drop 4).take 32) (encapNonce b) (leAt b 1 1) (leAt b 2 1) ((b.drop 68).take 1088)
    ((b.drop 4465).take 1957) (bundleBytes z)

/-- Whether an ENCAP names its sender's rank, key, port and group rightly. -/
def encapKnown (z : State) (p : Nat) (b : List Byte) : Bool :=
  decide (leAt b 1 1 < z.peers.size) && rankDigest z (leAt b 1 1) == some (shake512 (encapPub b)) &&
    ((tblFind z.peers.routes (leAt b 1 1)).map (·.primary)) == some p && sameGroup z b

/-- Whether the signature of an ENCAP holds. -/
def encapSigned (z : State) (b : List Byte) : Bool :=
  Config.mlDsaVerify (encapPub b) (encapTranscript z b) ((b.drop 1156).take 3309) "IMP-KEY_INIT"

/-- The state in which the nonce of an ENCAP is spent. -/
def nonceSpent (z : State) (p : Nat) (b : List Byte) : State :=
  modPeerPort z p fun q => { q with nonces := q.nonces.filter fun e => e.1 != encapNonce b }

/-- The session that an ENCAP opens. -/
def encapSession (z : State) (p : Nat) (b : List Byte) : Session :=
  withKeys { num := p, gen := (z.host.genCount + 1) % 2 ^ 32, key := leAt b 1 1, enc := leAt b 2 1 == 1, lastRx := now z }
    (deriveKeys (Config.mlKemDecap z.sec.kemSeed ((b.drop 68).take 1088)) (encapTranscript z b))

/-- The state whose next generation has been taken. -/
def genTaken (z : State) : State := modHost z fun h => { h with genCount := (z.host.genCount + 1) % 2 ^ 32 }

/-- The state in which an ENCAP has opened its session. -/
def encapOpened (z : State) (p : Nat) (b : List Byte) : State :=
  openPeer (genTaken (nonceSpent z p b)) p (encapSession z p b) (leAt b 1 1)

/-- The answer that confirms the transcript. -/
def encapConfirm (z : State) (p : Nat) (b : List Byte) : List Byte :=
  leBytes 1 1 ++ leBytes 1 0 ++ leBytes 1 p ++ leBytes 1 0 ++ leBytes 4 ((z.host.genCount + 1) % 2 ^ 32) ++
    Config.kmac256 32 (encapSession z p b).tagTx (encapTranscript z b) "IMP-CONFIRM"

section
variable {z : State} {p : Nat} {d : Datagram}

theorem peerEncap_unknown (hknown : encapKnown z p d.body = false) :
    peerEncap z p d = mismatch (sendOpen z (.peer p) 0x71 (encapError 1 1)) p := by
  refine if_pos ?_
  show (!encapKnown z p d.body) = true
  rw [hknown]
  rfl

theorem encapGoesOn (hknown : encapKnown z p d.body = true) : ¬ (!encapKnown z p d.body) = true := by
  rw [hknown]
  exact Bool.false_ne_true

variable (hknown : encapKnown z p d.body = true)
  (hfresh : ((freshNonces (now z) (peerPortOf z p).nonces).any fun e => e.1 == encapNonce d.body) = true)
include hknown hfresh

theorem peerEncap_unsigned (hsigned : encapSigned z d.body = false) :
    peerEncap z p d = sendOpen (nonceSpent z p d.body) (.peer p) 0x71 (encapError 1 2) := by
  have hstands : ¬ (!(freshNonces (now z) (peerPortOf z p).nonces).any fun e => e.1 == encapNonce d.body) = true := by
    rw [hfresh]
    exact Bool.false_ne_true
  have hrefused : (!encapSigned z d.body) = true := by
    rw [hsigned]
    rfl
  exact (if_neg (encapGoesOn hknown)).trans <| (if_neg hstands).trans (if_pos hrefused)

theorem peerEncap_opens (hsigned : encapSigned z d.body = true) :
    peerEncap z p d = sendPlain (encapOpened z p d.body) (.peer p) p 0x71 (encapConfirm z p d.body) false := by
  have hstands : ¬ (!(freshNonces (now z) (peerPortOf z p).nonces).any fun e => e.1 == encapNonce d.body) = true := by
    rw [hfresh]
    exact Bool.false_ne_true
  have hproved : ¬ (!encapSigned z d.body) = true := by
    rw [hsigned]
    exact Bool.false_ne_true
  exact (if_neg (encapGoesOn hknown)).trans <| (if_neg hstands).trans (if_neg hproved)

end

/-- What the opening of a peer session leaves. -/
theorem openPeer_what (y : State) (p far : Nat) (se : Session) :
    peerPortOf (openPeer y p se far) p =
        { peerPortOf y p with session := some se, state := 5, farRank := far, opening := none, parts := [] } ∧
      (openPeer y p se far).peers.ready = groupIsReady (openPeer y p se far) ∧ (openPeer y p se far).host = y.host ∧
      now (openPeer y p se far) = now y := by
  obtain ⟨hready, hports, hhost, hnow, -⟩ := noteReady_what (modPeerPort y p fun q =>
    { q with session := some se, state := 5, farRank := far, opening := none, parts := [] })
  exact ⟨(hports p).trans ((port_mod y p p _).trans (if_pos rfl)), hready, hhost, hnow⟩

/-- What an ENCAP that is proved leaves. -/
theorem encapOpened_what (z : State) (p : Nat) (b body : List Byte) (u : State)
    (hu : u = sendPlain (encapOpened z p b) (.peer p) p 0x71 body false) :
    u.host.genCount = (z.host.genCount + 1) % 2 ^ 32 ∧ u.peers.ready = groupIsReady u ∧ (peerPortOf u p).state = 5 ∧
      (peerPortOf u p).farRank = leAt b 1 1 ∧
      (peerPortOf u p).nonces = ((peerPortOf z p).nonces.filter fun e => e.1 != encapNonce b) ∧
      ∃ x, (peerPortOf u p).session = some x ∧ x.key = (encapSession z p b).key ∧ x.gen = (encapSession z p b).gen ∧
        x.enc = (encapSession z p b).enc ∧ x.tagRx = (encapSession z p b).tagRx ∧ x.tagTx = (encapSession z p b).tagTx ∧
        x.encRx = (encapSession z p b).encRx ∧ x.encTx = (encapSession z p b).encTx := by
  subst hu
  obtain ⟨hport, hready, hhost, -⟩ :=
    openPeer_what (genTaken (nonceSpent z p b)) p (leAt b 1 1) (encapSession z p b)
  have hspent : peerPortOf (genTaken (nonceSpent z p b)) p = { peerPortOf z p with
      nonces := (peerPortOf z p).nonces.filter fun e => e.1 != encapNonce b } := (port_mod z p p _).trans (if_pos rfl)
  obtain ⟨hgen, hsess⟩ := sendPlain_gen (encapOpened z p b) p p 0x71 body false
  have hmoves := (ps_sendPlain (encapOpened z p b) p p 0x71 body false).toPeerMoves
  have heq := (hmoves.port p).eq
  have hopened : peerPortOf (encapOpened z p b) p = _ := hport
  rw [hspent] at hopened
  refine ⟨hgen.trans (congrArg HostPort.genCount hhost), ?_, ?_, ?_, ?_, ?_⟩
  · rw [hmoves.ready.1, hmoves.ready.2]
    exact hready
  · rw [heq, hopened]
  · rw [heq, hopened]
  · rw [heq, hopened]
  · exact hsess _ (by rw [hopened])

/-- What an ENCAP of an unknown sender leaves. -/
theorem encapUnknown_what {z : State} {p : Nat} (hlink : linkUp z (.peer p) = true) (body : List Byte) :
    (mismatch (sendOpen z (.peer p) 0x71 body) p).host.genCount = z.host.genCount ∧
      (peerPortOf (mismatch (sendOpen z (.peer p) 0x71 body) p) p).session = (peerPortOf z p).session ∧
      ((peerPortOf z p).session = none → (peerPortOf (mismatch (sendOpen z (.peer p) 0x71 body) p) p).state = 4) := by
  obtain ⟨hgen, c, hport⟩ := refusal_what hlink 0x71 body
  refine ⟨hgen, ?_, fun hnone => ?_⟩
  · rw [mismatch_port, hport]
  · rw [mismatch_port, hport]
    exact if_pos (Option.isNone_iff_eq_none.mpr hnone)

/-- What an ENCAP with a false signature leaves. -/
theorem encapUnsigned_what {z : State} {p : Nat} (hlink : linkUp z (.peer p) = true) (b body : List Byte) :
    (sendOpen (nonceSpent z p b) (.peer p) 0x71 body).host.genCount = z.host.genCount ∧
      (peerPortOf (sendOpen (nonceSpent z p b) (.peer p) 0x71 body) p).session = (peerPortOf z p).session := by
  have hspent : peerPortOf (nonceSpent z p b) p = { peerPortOf z p with
      nonces := (peerPortOf z p).nonces.filter fun e => e.1 != encapNonce b } := (port_mod z p p _).trans (if_pos rfl)
  have hup : linkUp (nonceSpent z p b) (.peer p) = true := linkUp_port hlink rfl (by rw [hspent])
  obtain ⟨hgen, c, hport⟩ := refusal_what hup 0x71 body
  exact ⟨hgen, by rw [hport, hspent]⟩

/-! ### KEY_REPLY before the session -/

/-- The parts of a bundle with those of a reply. -/
def partsWith (d : Datagram) (l : List (Nat × List Byte)) : List (Nat × List Byte) :=
  (l.filter fun e => e.1 != leAt d.body 40 4) ++ [(leAt d.body 40 4, d.body.drop 44)]

/-- The state of a port that has gathered a reply's part. -/
def gathered (z : State) (p : Nat) (d : Datagram) : State := modPeerPort z p fun q => { q with parts := partsWith d q.parts }

theorem gathered_port (z : State) (p : Nat) (d : Datagram) :
    peerPortOf (gathered z p d) p = { peerPortOf z p with parts := partsWith d (peerPortOf z p).parts } :=
  (port_mod z p p _).trans (if_pos rfl)

theorem heardParts (s : State) (t p : Nat) (d : Datagram) :
    (peerPortOf (gathered (heard s t p) p d) p).parts = partsWith d (peerPortOf s p).parts := by
  obtain ⟨c, hport⟩ := heard_port s t p
  rw [gathered_port, hport]

/-- What a port with the parts gathered so far does. -/
def replyGathered (z : State) (p : Nat) (d : Datagram) (rnd : List Byte) : State :=
  match wholeBundle (leAt d.body 36 4) (peerPortOf z p).parts with
  | none => z
  | some b =>
    match bundleOk b, provenRank z p b with
    | true, some far => sendEncap z p far ((d.body.drop 4).take 32) b rnd
    | _, _ => mismatch z p

theorem replyOpen_gathers {s : State} {t p : Nat} {d : Datagram} {rnd : List Byte}
    (hcheck : openCheck (atMt s t) (.peer p) d 0x71 = 0) (hgood : leAt d.body 1 1 = 0) (hop : leAt d.body 0 1 = 0)
    (hnonce : (peerPortOf s p).nonceOut ≠ []) :
    replyOpen (atMt s t) p d rnd = replyGathered (gathered (heard s t p) p d) p d rnd := by
  obtain ⟨c, hport⟩ := heard_port s t p
  have hchecked : ¬ openCheck (heard s t p) (.peer p) d 0x71 ≠ 0 := not_not_intro (rx_open hcheck)
  have hasked : leAt d.body 0 1 = 0 ∧ (peerPortOf (heard s t p) p).nonceOut.isEmpty = false := by
    refine ⟨hop, ?_⟩
    rw [hport]
    exact List.isEmpty_eq_false_iff.mpr hnonce
  exact (if_neg hchecked).trans <| (if_neg (not_not_intro hgood)).trans (if_pos hasked)

section
variable {z : State} {p : Nat} {d : Datagram} {rnd b : List Byte}

theorem replyGathered_partly (hpart : wholeBundle (leAt d.body 36 4) (peerPortOf z p).parts = none) :
    replyGathered z p d rnd = z := by
  unfold replyGathered
  rw [hpart]

variable (hwhole : wholeBundle (leAt d.body 36 4) (peerPortOf z p).parts = some b)
include hwhole

theorem replyGathered_proved {far : Nat} (hbundle : bundleOk b = true) (hrank : provenRank z p b = some far) :
    replyGathered z p d rnd = sendEncap z p far ((d.body.drop 4).take 32) b rnd := by
  unfold replyGathered
  rw [hwhole]
  dsimp only
  rw [hbundle, hrank]

theorem replyGathered_unproved (hfails : ¬ (bundleOk b = true ∧ (provenRank z p b).isSome = true)) :
    replyGathered z p d rnd = mismatch z p := by
  unfold replyGathered
  rw [hwhole]
  dsimp only
  cases hbundle : bundleOk b with
  | false => rfl
  | true =>
    cases hrank : provenRank z p b with
    | none => rfl
    | some far => exact absurd ⟨hbundle, congrArg Option.isSome hrank⟩ hfails

end

/-- What the key exchange sent to a proven rank leaves. -/
theorem sendEncap_opening {z : State} {p : Nat} (hlink : linkUp z (.peer p) = true) (far : Nat) (nm b rnd : List Byte) :
    (sendEncap z p far nm b rnd).host.sent.length = z.host.sent.length + 1 ∧
      (peerPortOf (sendEncap z p far nm b rnd) p).session = (peerPortOf z p).session ∧
      ∃ x c, (peerPortOf (sendEncap z p far nm b rnd) p).opening = some (x, far, c) ∧ x.key = far ∧ x.enc = Config.peerEnc := by
  obtain ⟨x, c, body, hsend, hkey, henc⟩ := sendEncap_what z p far nm b rnd
  rw [hsend]
  have hopens := (port_mod z p p fun q => { q with opening := some (x, far, c) }).trans (if_pos rfl)
  obtain ⟨hlen, -, hports, -⟩ := sendOpen_what (modPeerPort z p fun q => { q with opening := some (x, far, c) }) p 0x70 body
    (linkUp_port hlink rfl (by rw [hopens]))
  obtain ⟨ctr, hport⟩ := hports p
  exact ⟨hlen, by rw [hport, hopens], x, c, by rw [hport, hopens], hkey, henc⟩

/-! ### The reply that confirms -/

theorem replyFinal_confirms {s : State} {t p far : Nat} {d : Datagram} {x : Session} {c : List Byte}
    (hopening : (peerPortOf s p).opening = some (x, far, c)) (hversion : d.version = 1) (hpeer : d.peer = true)
    (hlen : d.body.length ≤ 8272) (htag : tagOk { x with gen := d.gen } d = true)
    (hage : ageOk (.peer p) (max (now s) t) d.mt = true) (htyp : d.typ = 0x71)
    (hop : leAt (plainBody { x with gen := d.gen } d) 0 1 = 1) (hgood : leAt (plainBody { x with gen := d.gen } d) 1 1 = 0)
    (hconfirm : ((plainBody { x with gen := d.gen } d).drop 8).take 32 = c) :
    replyFinal (atMt s t) p d = openPeer (heard s t p) p
      { x with gen := d.gen, lastRx := now (heard s t p), rxHigh := d.xmit, rxXmits := [d.xmit] } far := by
  obtain ⟨ctr, hport⟩ := heard_port s t p
  have hopen : (peerPortOf (countRx (atMt s t) (.peer p)) p).opening = some (x, far, c) :=
    (congrArg PeerPort.opening hport).trans hopening
  have hform : ¬ (d.version ≠ 1 ∨ d.peer = false ∨ 8272 < d.body.length) := by
    rw [hversion, hpeer]
    simp
    omega
  have htagged : ¬ (!tagOk { x with gen := d.gen } d) = true := by
    rw [htag]
    exact Bool.false_ne_true
  have haged : ¬ (!ageOk (.peer p) (now (heard s t p)) d.mt) = true := by
    rw [show ageOk (.peer p) (now (heard s t p)) d.mt = true from hage]
    exact Bool.false_ne_true
  unfold replyFinal
  dsimp only
  rw [hopen]
  exact (if_neg hform).trans <| (if_neg htagged).trans <| (if_neg haged).trans <| (if_neg (not_not_intro htyp)).trans
    (if_pos ⟨hop, hgood, hconfirm⟩)

/-- Settles O60: each message of the key exchange takes the branch that its checks leave, on the port that heard it. -/
theorem peerSessions : Obligations.PeerSessions := by
  refine ⟨?hello, ?encap, ?close, ?part, ?whole, ?final⟩
  case hello =>
    intro s t p d nonce rnd hp hlink hsess hcheck hlower hready hok hsize hkey
    obtain ⟨c, hport⟩ := heard_port s t p
    have hexec := exec_peerKeyInit_open (t := t) (nonce := nonce) (rnd := rnd) hp hlink hsess
    rw [peerInit_hello hcheck hlower hready hok, peerHello_answers (z := heard s t p) hsize hkey] at hexec
    obtain ⟨hnonces, hsession, hsent, hnow⟩ := helloAnswered_what (z := heard s t p) (nonce := nonce) (heard_link hlink)
    refine ⟨_, hexec, ?_, ?_, hsent⟩
    · rw [hnonces, hnow, hport]
    · rw [hsession, hport]
  case encap =>
    intro s t p d nonce rnd r b pub tr k hp hlink hsess hcheck hb hr hlower hready hok hpub hsize hroute hgroup hfresh htr hk
    subst hb hr hpub
    obtain ⟨c, hport⟩ := heard_port s t p
    have hexec := exec_peerKeyInit_open (t := t) (nonce := nonce) (rnd := rnd) hp hlink hsess
    rw [peerInit_encap hcheck hlower hready hok] at hexec
    have hknown : encapKnown (heard s t p) p d.body =
        (rankDigest s (leAt d.body 1 1) == some (shake512 (encapPub d.body))) := by
      unfold encapKnown
      rw [decide_eq_true (show leAt d.body 1 1 < (heard s t p).peers.size from hsize),
        show (tblFind (heard s t p).peers.routes (leAt d.body 1 1)).map (·.primary) = some p from hroute,
        show sameGroup (heard s t p) d.body = true from hgroup, BEq.rfl, Bool.true_and, Bool.and_true, Bool.and_true]
      rfl
    have hfresh' : ((freshNonces (now (heard s t p)) (peerPortOf (heard s t p) p).nonces).any
        fun e => e.1 == encapNonce d.body) = true := by
      rw [hport]
      exact hfresh
    have hheld : (peerPortOf (heard s t p) p).session = (peerPortOf s p).session := by rw [hport]
    by_cases hdigest : rankDigest s (leAt d.body 1 1) = some (shake512 (encapPub d.body))
    · have hknows : encapKnown (heard s t p) p d.body = true := hknown.trans (beq_iff_eq.mpr hdigest)
      by_cases hsigned : encapSigned (heard s t p) d.body = true
      · rw [peerEncap_opens hknows hfresh' hsigned] at hexec
        obtain ⟨hgen, hgroupReady, hstate, hfar, hnonces, x, hopened, hkey, hxgen, henc, htagRx, htagTx, hencRx, hencTx⟩ :=
          encapOpened_what (heard s t p) p d.body (encapConfirm (heard s t p) p d.body) _ rfl
        subst hk htr
        refine ⟨_, hexec, (if_pos (And.intro hdigest hsigned)).mpr ⟨hgen, hgroupReady, hstate, hfar, ?_, x, hopened, hkey,
          hxgen.trans hgen.symm, henc, htagRx, htagTx, hencRx, hencTx⟩⟩
        rw [hnonces]
        exact fun e he => bne_iff_ne.mp (List.mem_filter.mp he).2
      · rw [peerEncap_unsigned hknows hfresh' (Bool.eq_false_iff.mpr hsigned)] at hexec
        obtain ⟨hgen, hsession⟩ := encapUnsigned_what (heard_link hlink) d.body (encapError 1 2)
        subst htr
        exact ⟨_, hexec, (if_neg fun hboth => hsigned hboth.2).mpr
          ⟨hgen, hsession.trans hheld, fun hother => absurd hdigest hother⟩⟩
    · have hother : encapKnown (heard s t p) p d.body = false :=
        hknown.trans (Bool.eq_false_iff.mpr fun heq => hdigest (beq_iff_eq.mp heq))
      rw [peerEncap_unknown hother] at hexec
      obtain ⟨hgen, hsession, hstate⟩ := encapUnknown_what (heard_link hlink) (encapError 1 1)
      exact ⟨_, hexec, (if_neg fun hboth => hdigest hboth.1).mpr
        ⟨hgen, hsession.trans hheld,
          fun _ hnone => hstate (hheld.trans hnone)⟩⟩
  case close =>
    intro s t p d nonce rnd se hp hacc hsess hclose
    obtain ⟨x, hreceive, -⟩ := receive_plain hacc
    have hexec := exec_peerKeyInit_session (s := s) (t := t) (nonce := nonce) (rnd := rnd) hp hacc.1 hsess
    unfold peerClose at hexec
    rw [hreceive] at hexec
    dsimp only at hexec
    rw [if_pos hclose] at hexec
    exact ⟨_, hexec, lose_port _ p⟩
  case part =>
    intro s t p d nonce rnd hp hlink hsess hcheck hgood hop hnonce hpart
    obtain ⟨c, hport⟩ := heard_port s t p
    have hexec := exec_peerKeyReply_open (t := t) (nonce := nonce) (rnd := rnd) hp hlink hsess
    rw [replyOpen_gathers hcheck hgood hop hnonce, replyGathered_partly ((congrArg _ (heardParts s t p d)).trans hpart)] at hexec
    refine ⟨_, hexec, heardParts s t p d, ?_, ?_⟩ <;> rw [gathered_port, hport]
  case whole =>
    intro s t p d nonce rnd b hp hlink hsess hcheck hgood hop hnonce hparts
    obtain ⟨c, hport⟩ := heard_port s t p
    have hexec := exec_peerKeyReply_open (t := t) (nonce := nonce) (rnd := rnd) hp hlink hsess
    have hwhole : wholeBundle (leAt d.body 36 4) (peerPortOf (gathered (heard s t p) p d) p).parts = some b :=
      (congrArg _ (heardParts s t p d)).trans hparts
    have hgathered : peerPortOf (gathered (heard s t p) p d) p =
        { peerPortOf s p with parts := partsWith d (peerPortOf s p).parts, ctr := c } := by rw [gathered_port, hport]
    rw [replyOpen_gathers hcheck hgood hop hnonce] at hexec
    by_cases hproves : bundleOk b = true ∧ (provenRank s p b).isSome = true
    · obtain ⟨far, hfar⟩ := Option.isSome_iff_exists.mp hproves.2
      rw [replyGathered_proved hwhole hproves.1 (show provenRank (gathered (heard s t p) p d) p b = some far from hfar)] at hexec
      obtain ⟨hsent, hsession, x, confirm, hopening, hkey, henc⟩ :=
        sendEncap_opening (z := gathered (heard s t p) p d) (linkUp_port hlink rfl (by rw [hgathered])) far
          ((d.body.drop 4).take 32) b rnd
      exact ⟨_, hexec, hsession.trans (by rw [hgathered]),
        (if_pos hproves).mpr ⟨hsent, x, far, confirm, hfar, hopening, hkey, henc⟩⟩
    · rw [replyGathered_unproved hwhole hproves] at hexec
      refine ⟨_, hexec, ?_, (if_neg hproves).mpr ⟨rfl, ?_, fun hnone => ?_⟩⟩
      · rw [mismatch_port, hgathered]
      · rw [mismatch_port]
      · rw [mismatch_port, hgathered]
        exact if_pos (Option.isNone_iff_eq_none.mpr hnone)
  case final =>
    intro s t p d nonce rnd x far c hp hlink hsess hopening hversion hpeer hlen htag hage htyp hop hgood hconfirm
    have hexec := exec_peerKeyReply_session (t := t) (nonce := nonce) (rnd := rnd) hp hlink hsess
    rw [replyFinal_confirms hopening hversion hpeer hlen htag hage htyp hop hgood hconfirm] at hexec
    obtain ⟨hport, hready, -, hnow⟩ := openPeer_what (heard s t p) p far
      { x with gen := d.gen, lastRx := now (heard s t p), rxHigh := d.xmit, rxXmits := [d.xmit] }
    refine ⟨_, hexec, ?_, ?_, ?_, hready⟩
    · rw [hport, hnow]
    · rw [hport]
    · rw [hport]

end Sys2Proof.PeerKeys
end
